-- ==== Sys2Proof/Word.lean ====
section
/-!
DEFINITION. The word types of the Narvos 9440 and the sparse table every store of the model is held in.
-/

namespace Sys2Proof

abbrev Byte := BitVec 8
abbrev W16 := BitVec 16
abbrev W32 := BitVec 32
abbrev W64 := BitVec 64

/-- One bit per lane of a group (F02 R9: 16 lanes). -/
abbrev Lanes := BitVec 16

/-- A sparse table: keys strictly rising. What an absent key reads as is fixed by the reader (`Tab.get`). -/
abbrev Tab (α : Type) := List (Nat × α)

/-- The lanes whose bit is set, ascending (F00: lanes run in ascending lane number). -/
def Lanes.list (m : Lanes) : List Nat := (List.range 16).filter fun l => m.getLsbD l

/-- The one-lane mask. -/
def Lanes.one (l : Nat) : Lanes := BitVec.twoPow 16 l

end Sys2Proof
end

