-- ==== Sys2Proof/Config.lean ====
section
/-!
DEFINITION. What one device fixes and the free values: constants with no body, so that nothing in Lean can prove a value of
one. Each is applied to a counter of State (a fresh value each time) or to the operands it depends on.
-/

namespace Sys2Proof.Config

/-- A free choice among finitely many (DESIGN CHOICE, assumption 1). -/
opaque freeChoice : Nat → Nat

/-- Which enabled mover acts next, by the step's number (DESIGN CHOICE, assumption 1). -/
opaque freeTurn : Nat → Nat

/-- A byte the manual gives no value for (DESIGN CHOICE, assumption 2). -/
opaque freeByte : Nat → BitVec 8

/-- The first-tier stack that holds a frame another device names (R231 does not say) (DESIGN CHOICE, assumption 25). -/
opaque freeStack : Nat → Nat

/-- The set of a slice that a line falls into (R240 does not say) (DESIGN CHOICE, assumption 69). -/
opaque sliceSet : Nat → Nat

/-- The ways of a set of a slice (R240 does not say) (DESIGN CHOICE, assumption 69). -/
opaque sliceWays : Nat

/-- The raw result of `FRCP`, `FRSQ`, `FEXP2`, `FLOG2`, `FSIN`, `FCOS` on FP32 bits: fixed functions of their operand (R152),
kept inside the accuracy of R156 where they are used (DESIGN CHOICE, assumption 4). -/
opaque freeRcp : BitVec 32 → BitVec 32
opaque freeRsq : BitVec 32 → BitVec 32
opaque freeExp2 : BitVec 32 → BitVec 32
opaque freeLog2 : BitVec 32 → BitVec 32
opaque freeSin : BitVec 32 → BitVec 32
opaque freeCos : BitVec 32 → BitVec 32

/-- Which of two rules holds where they disagree: whether `lat` of an inactive lane keeps its value (R100) or follows the destination (R54);
whether a lone NaN leaves `FRED` canonical (R137) or unchanged (R168); whether a key mismatch ends a command with status 0x04 (R204) or 0x05
(R229) (DESIGN CHOICE, assumptions 80, 31 and 11). -/
opaque latKept : Bool
opaque fredCanon : Bool
opaque keyProtects : Bool

/-- What stands of a launch's graph node in the reserved bytes of an error record: R325 says it is written there, R353 gives it no place
(DESIGN CHOICE, assumption 89). -/
opaque gnodeMark : Nat → Nat

/-- The measurement of an operating-point table, byte by byte: a digest by SHA-384 of a form the manual does not lay out (R356)
(DESIGN CHOICE, assumption 2). -/
opaque measure : List Nat → Nat → BitVec 8

/-- The bytes of a snapshot record, of what R354 says it holds: the manual lays them out nowhere (DESIGN CHOICE, assumption 2). -/
opaque snapBytes : List Nat → Nat → BitVec 8

/-- What a device can hold that has arrived on its links before it pauses them (R311 gives no size) (DESIGN CHOICE, assumption 49). -/
opaque inboxRoom : Nat

/-! Times, in units of 1/7 ns: an arithmetic cycle of 1.4 GHz is 5 units (R1), a slack tick of 2 ns is 14 (R304). DESIGN CHOICE, assumption 8. -/

def cycle : Nat := 5
def slackTick : Nat := 14
def ns (n : Nat) : Nat := 7 * n
def us (n : Nat) : Nat := 7000 * n

/-! Capacities of R1. -/

def residCap : Nat := 16
def dstkCap : Nat := 16
def quarterRegs : Nat := 131072
def quarterSlots : Nat := 64
def localBytes : Nat := 262144
def queueCap : Nat := 16
def ringCap : Nat := 1024
def graphCap : Nat := 64
def walkCap : Nat := 256
def resvCap : Nat := 32
def homeCap : Nat := 256
def faultCap : Nat := 64
def dedupeCap : Nat := 65536
def messageCap : Nat := 4096
def pointCap : Nat := 16
def l1Lines : Nat := 2048
def constLines : Nat := 512
def fetchBlocks : Nat := 2048
def sliceLines : Nat := 32768

end Sys2Proof.Config
end

