-- ==== Sys2Proof/Syntax.lean ====
section
/-!
DEFINITION. The syntax: the codes of R88 to R91, the operands of R77 to R85, and `Instr`, one constructor per row of
spec/opcode_table.json: first the 132 Lumyna instructions, then the 88 events of the device (F95: the table lists the part's
steps, each whole and indivisible).
-/

namespace Sys2Proof

/-- Type codes of R88, in code order; `n32` is also written `.b32`. -/
inductive Ty where
  | i8 | i16 | i32 | i64 | n8 | n16 | n32 | n64 | f32 | f16 | bf16 | e4m3 | e5m2 | oq4 | f16x2 | bf16x2
deriving DecidableEq, Repr

/-- Comparison codes of R89, in code order. -/
inductive Cmp where
  | eq | ne | lt | le | gt | ge | num | nan | equ | neu | ltu | leu | gtu | geu
deriving DecidableEq, Repr

/-- Rounding modes of R90, in code order: to nearest even, toward zero, toward -inf, toward +inf. -/
inductive Rnd where
  | rn | rz | rm | rp
deriving DecidableEq, Repr

/-- Memory orders of R91, in code order. -/
inductive Ord where
  | none | acq | rel | ar
deriving DecidableEq, Repr

/-- Scope codes of R91, in code order. -/
inductive Scope where
  | lane | grp | blk | gang | quad | sec | die | dev | node | pod | fab | sys
deriving DecidableEq, Repr

/-- The guard of R77: predicate number and negation. -/
structure Guard where
  neg : Bool
  p : BitVec 3
deriving DecidableEq, Repr

/-- A source operand (R78, R82, R84, R85). -/
inductive Src where
  | v (i : BitVec 5)
  | o (i : BitVec 3)
  | lat
  | k (i : BitVec 5)
  | inl (c : BitVec 4)
  | imm (x : BitVec 32)
  | cw (w : BitVec 3) (off : BitVec 17)
deriving DecidableEq, Repr

/-- A vector destination (R77, R55). -/
inductive Dst where
  | v (i : BitVec 5)
  | o (i : BitVec 3)
  | vo (i : BitVec 3)
deriving DecidableEq, Repr

/-- What `BPEND` names: a register or a predicate (R112). -/
inductive PendName where
  | reg (a : Src)
  | pred (p : BitVec 3)
deriving DecidableEq, Repr

/-- The destination of `VOTE` (R107). -/
inductive VoteDst where
  | ballot (k : BitVec 5)
  | any (p : BitVec 3)
  | all (p : BitVec 3)
deriving DecidableEq, Repr

/-- Operations of `LRED` (R110), in code order. -/
inductive RedOp where
  | add | min | max | and | or | xor
deriving DecidableEq, Repr

/-- Operations of `FRED` (R168), in code order. -/
inductive FRedOp where
  | add | min | max | addx
deriving DecidableEq, Repr

/-- The destination of `FCLASS` (R166). -/
inductive ClassDst where
  | code (d : Dst)
  | test (p : BitVec 3) (b : Src)
deriving DecidableEq, Repr

/-- Atomic operations of R254, in code order. -/
inductive AtomOp where
  | add | min | max | and | or | xor | exch | cas
deriving DecidableEq, Repr

/-- The base and offset of a memory operand (R86): `k` base, offset operand, signed byte displacement. -/
structure Addr where
  a : BitVec 5
  b : Src
  d : BitVec 32
deriving DecidableEq, Repr

/-- Barrier levels of R118. -/
inductive BarLevel where
  | blk | gang | launch
deriving DecidableEq, Repr

/-- System registers of R120, in selector order. -/
inductive SysReg where
  | gctl | gstat | exm | trdy | late | vtime | stolen | cycles | tvec | tcause | tpc | taddr | quota
  | launchid | blockidx | groupidx | coreid | quadid | cls
deriving DecidableEq, Repr

/-- Queue, scope, slack code and local flags of a copy command (R192). -/
structure CopyF where
  queue : BitVec 2
  scope : Scope
  slk : BitVec 4
  dl : Bool
  sl : Bool
  il : Bool
deriving DecidableEq, Repr

/-- Masked-element constants of R183. -/
inductive MaskC where
  | zero | ninf | kval (kv : Src)
deriving DecidableEq, Repr

/-- The mode of `MLOOP` (R183). -/
inductive MMode where
  | plain
  | tri (kg : Src) (c : MaskC)
deriving DecidableEq, Repr

/-- What another device asks of this one (R313, R314), and what this one asks of another: one access, or the lanes of one request
packet, each at its offset from the request's address (R299); a prefetch of a line (R262), or the dropping of an object's lines between
two addresses (R263). -/
inductive RemOp where
  | read (n : Nat)
  | write (bytes : List Byte)
  | atom (op : AtomOp) (t : Ty) (c d : W64)
  | reads (n : Nat) (offs : List Nat)
  | writes (l : List (Nat × List Byte))
  | atoms (op : AtomOp) (t : Ty) (l : List (Nat × W64 × W64))
  | pref (n : Nat)
  | discard (lo hi : Nat)
  | launch (graph early : Bool)
deriving DecidableEq, Repr

/-- What a request carries between devices beside its operation: its kind of access and the address that made it (R211), its slack and its
late mark (R303, R305, R307), and what is left of its lifetime, in units of 1/7 ns (R315); `adm` says that its home has it in service
already (R228). -/
structure Carry where
  acc : Nat
  va : Nat
  field : Nat
  late : Bool
  life : Nat
  adm : Bool
deriving DecidableEq, Repr

/-- What an answer carries between devices beside its contents: its request's slack and mark as they stood when it was answered (R307), and
whether the line read may be kept as a replica (R241). -/
structure Ret where
  field : Nat
  late : Bool
  rmost : Bool
deriving DecidableEq, Repr

/-- What passes a request at the home of another device, and what it carries: the key of its turnstile entry (R225), and the rest. -/
structure Pass where
  key : Nat
  x : Carry
deriving DecidableEq, Repr

/-- Where a register write of the host goes: a domain's page (R334), in an ordering stream (R285). -/
structure PageAt where
  dom : Nat
  stream : Nat
deriving DecidableEq, Repr

/-- A negative reply between devices (R229): the fault joined, a key, a full home. -/
inductive NegReply where
  | fault (home seq : Nat)
  | key
  | busy
deriving DecidableEq, Repr

/-- What a flit carries, as far as one device observes it (R229, R311, R313, R316): a request of a peer, a reply to a request of this
device, with the places in its bytes of words that have an uncorrectable error (R268), a packet of the message that answers a transfer, the
signal that a fault is resolved, word that the launch which issued a `LAUNCH` has completed (R322), a message packet, or 64 bytes of a
packet that the next flit which is no part ends. -/
inductive FlitBody where
  | request (src id : Nat) (phys : Bool) (addr : Nat) (dom key : Nat) (x : Carry) (op : RemOp)
  | reply (id : Nat) (x : Ret) (bytes : List Byte) (bad : List Nat)
  | errorReply (id : Nat) (x : Ret)
  | neg (id : Nat) (x : Ret) (r : NegReply)
  | data (id : Nat) (x : Ret) (off total : Nat) (bytes : List Byte) (bad : List Nat)
  | signal (src home seq : Nat) (fail : Bool)
  | issued (src id : Nat)
  | message (src id : Nat) (phys : Bool) (addr : Nat) (dom key : Nat) (x : Carry) (off total : Nat) (bytes : List Byte)
  | part
  | idle
deriving DecidableEq, Repr

/-- A register of a domain's page that the host writes (R287, R334): `KBASE`, `KLEN`, `KOP` with the code of the kick asked for, `SUBMIT`
with a launch record or a graph node, `STOP`. -/
inductive HostReg where
  | kbase
  | klen
  | kop (code : Nat)
  | submit (graph : Bool)
  | stop
deriving DecidableEq, Repr

/-- Where a posted write of the host goes: device memory, by virtual address through the port, the host's own memory, or a register of a
domain's page. -/
inductive HostDst where
  | device (va : Nat)
  | own (pa : Nat)
  | reg (dom : Nat) (r : HostReg)
deriving DecidableEq, Repr

/-- What the host reads: device memory, by virtual address through the port, or the register page of a domain at an offset (R334). -/
inductive HostSrc where
  | device (va : Nat)
  | page (dom off : Nat)
deriving DecidableEq, Repr

/-- What firmware writes at bring-up (R355): the distribution table, route table, home configuration, bases, and the slice maps, the cores
kept for the runtime, the operating points as (mV, MHz), and the runtime's launch. Tables are lists of (index, value). -/
structure Bringup where
  dev : Nat
  dist : List (Nat × W64)
  routes : List (Nat × List Nat)
  homes : List (Nat × (Nat × Nat × Nat))
  structs : List (Nat × List (BitVec 128))
  keyBase : Nat
  objBase : Nat
  domBase : Nat
  runtime : Nat
  smap : List (Nat × Nat)
  rtCores : List Nat
  points : List (Nat × Nat)
  mem : List (Nat × Byte)
deriving DecidableEq, Repr

/-- The instructions and the events. Lumyna instructions act on the path whose turn it is; events name the ids they act on
or carry the input data of an outside agent. -/
inductive Instr where
  -- control (R112)
  | nop (g : Guard)
  | bra (g : Guard) (tgt recon : BitVec 32)
  | bru (uns : Bool) (c : Cmp) (a b : Src) (off : BitVec 32)
  | bpend (r : PendName) (off : BitVec 32)
  | call (g : Guard) (slide : BitVec 2) (off : BitVec 32)
  | calli (g : Guard) (slide : BitVec 2) (a : BitVec 5)
  | ret (g : Guard)
  | loopk (a : BitVec 5) (off : BitVec 32)
  | exit (g : Guard)
  -- vector integer (R102)
  | iadd (g : Guard) (t : Ty) (d : Dst) (a b : Src)
  | isub (g : Guard) (t : Ty) (d : Dst) (a b : Src)
  | imul (g : Guard) (t : Ty) (d : Dst) (a b : Src)
  | imulh (g : Guard) (t : Ty) (d : Dst) (a b : Src)
  | imad (g : Guard) (t : Ty) (d : Dst) (a b c : Src)
  | imin (g : Guard) (t : Ty) (d : Dst) (a b : Src)
  | imax (g : Guard) (t : Ty) (d : Dst) (a b : Src)
  | iabs (g : Guard) (t : Ty) (d : Dst) (a : Src)
  | ineg (g : Guard) (t : Ty) (d : Dst) (a : Src)
  | addmin (g : Guard) (t : Ty) (d : Dst) (a b c : Src)
  | addmax (g : Guard) (t : Ty) (d : Dst) (a b c : Src)
  | ilea (g : Guard) (t : Ty) (d : Dst) (a b : Src) (s : BitVec 4)
  | and (g : Guard) (t : Ty) (d : Dst) (a b : Src)
  | or (g : Guard) (t : Ty) (d : Dst) (a b : Src)
  | xor (g : Guard) (t : Ty) (d : Dst) (a b : Src)
  | andn (g : Guard) (t : Ty) (d : Dst) (a b : Src)
  | not (g : Guard) (t : Ty) (d : Dst) (a : Src)
  | shl (g : Guard) (t : Ty) (d : Dst) (a b : Src)
  | shr (g : Guard) (t : Ty) (d : Dst) (a b : Src)
  | sar (g : Guard) (t : Ty) (d : Dst) (a b : Src)
  | rot (g : Guard) (t : Ty) (d : Dst) (a b : Src) (right : Bool)
  | clz (g : Guard) (t : Ty) (d : Dst) (a : Src)
  | popc (g : Guard) (t : Ty) (d : Dst) (a : Src)
  | brev (g : Guard) (t : Ty) (d : Dst) (a : Src)
  | bfx (g : Guard) (t : Ty) (d : Dst) (a b : Src)
  | bfi (g : Guard) (t : Ty) (d : Dst) (a b c : Src)
  | sel (g : Guard) (t : Ty) (d : Dst) (a b : Src) (pc : BitVec 3)
  | mov (g : Guard) (t : Ty) (d : Dst) (a : Src)
  | movi (g : Guard) (t : Ty) (d : Dst) (x : BitVec 32)
  | iset (g : Guard) (t : Ty) (p : BitVec 3) (c : Cmp) (a b : Src)
  | icvt (g : Guard) (dt st : Ty) (d : Dst) (a : Src) (sat : Bool)
  -- uniform (R105)
  | kadd (g : Guard) (d : BitVec 5) (a b : Src)
  | ksub (g : Guard) (d : BitVec 5) (a b : Src)
  | kmul (g : Guard) (d : BitVec 5) (a b : Src)
  | kand (g : Guard) (d : BitVec 5) (a b : Src)
  | kor (g : Guard) (d : BitVec 5) (a b : Src)
  | kxor (g : Guard) (d : BitVec 5) (a b : Src)
  | kshl (g : Guard) (d : BitVec 5) (a b : Src)
  | kshr (g : Guard) (d : BitVec 5) (a b : Src)
  | kmov (g : Guard) (t : Option Ty) (d : BitVec 5) (a : Src)
  | kmovi (g : Guard) (t : Option Ty) (d : BitVec 5) (x : BitVec 32)
  | kset (g : Guard) (t : Option Ty) (d : BitVec 5) (c : Cmp) (a b : Src)
  | ksel (g : Guard) (d : BitVec 5) (a b c : Src)
  | vtok (g : Guard) (t : Ty) (d : BitVec 5) (a b : Src)
  | ktov (g : Guard) (t : Ty) (d : Dst) (a : Src)
  -- predicates, mask, lanes (R106 to R111)
  | plog (g : Guard) (p a b : BitVec 3) (t : BitVec 4)
  | vote (g : Guard) (d : VoteDst) (a : BitVec 3)
  | getx (g : Guard) (d : BitVec 5)
  | setx (g : Guard) (a : Src)
  | lshift (g : Guard) (t : Ty) (d : Dst) (a b c : Src) (up : Bool)
  | lswz (g : Guard) (t : Ty) (d : Dst) (a b : Src)
  | lperm (g : Guard) (t : Ty) (d : Dst) (a b : Src)
  | lbcast (g : Guard) (t : Ty) (d : Dst) (a b : Src)
  | lred (g : Guard) (op : RedOp) (t : Ty) (d : Dst) (a : Src)
  | xch (g : Guard) (t : Ty) (d : Dst) (a : Src) (b : BitVec 5)
  -- float (R159)
  | fadd (g : Guard) (t : Ty) (r : Rnd) (sat : Bool) (d : Dst) (a b : Src)
  | fsub (g : Guard) (t : Ty) (r : Rnd) (sat : Bool) (d : Dst) (a b : Src)
  | fmul (g : Guard) (t : Ty) (r : Rnd) (sat : Bool) (d : Dst) (a b : Src)
  | ffma (g : Guard) (t : Ty) (r : Rnd) (sat : Bool) (d : Dst) (a b c : Src)
  | fmin (g : Guard) (t : Ty) (d : Dst) (a b : Src)
  | fmax (g : Guard) (t : Ty) (d : Dst) (a b : Src)
  | fset (g : Guard) (t : Ty) (p : BitVec 3) (c : Cmp) (a b : Src)
  | frcp (g : Guard) (t : Ty) (d : Dst) (a : Src)
  | frsq (g : Guard) (t : Ty) (d : Dst) (a : Src)
  | fsqrt (g : Guard) (t : Ty) (r : Rnd) (d : Dst) (a : Src)
  | fexp2 (g : Guard) (t : Ty) (d : Dst) (a : Src)
  | flog2 (g : Guard) (t : Ty) (d : Dst) (a : Src)
  | fsin (g : Guard) (t : Ty) (d : Dst) (a : Src)
  | fcos (g : Guard) (t : Ty) (d : Dst) (a : Src)
  | fscale (g : Guard) (t : Ty) (r : Rnd) (d : Dst) (a b : Src)
  | fclass (g : Guard) (t : Ty) (d : ClassDst) (a : Src)
  | fdot2 (g : Guard) (t : Ty) (r : Rnd) (sat : Bool) (d : Dst) (a b c : Src)
  | fred (g : Guard) (op : FRedOp) (t : Ty) (r : Rnd) (d : Dst) (a : Src)
  | fcvt (g : Guard) (dt st : Ty) (hi : Bool) (r : Rnd) (d : Dst) (a : Src) (b : Option Src)
  | ftoi (g : Guard) (dt st : Ty) (r : Rnd) (d : Dst) (a : Src)
  | itof (g : Guard) (dt st : Ty) (r : Rnd) (d : Dst) (a : Src)
  | narrow (g : Guard) (dt : Ty) (d : Dst) (a b : Src)
  -- memory (R243)
  | ld (g : Guard) (t : Ty) (o : Ord) (sc : Scope) (slk : BitVec 4) (d : Dst) (m : Addr)
  | st (g : Guard) (t : Ty) (o : Ord) (sc : Scope) (slk : BitVec 4) (m : Addr) (c : Src)
  | ldu (g : Guard) (t : Ty) (o : Ord) (sc : Scope) (slk : BitVec 4) (d : Dst) (m : Addr)
  | ldl (g : Guard) (t : Ty) (o : Ord) (sc : Scope) (slk : BitVec 4) (d : Dst) (m : Addr)
  | stl (g : Guard) (t : Ty) (o : Ord) (sc : Scope) (slk : BitVec 4) (m : Addr) (c : Src)
  | ldc (g : Guard) (t : Ty) (slk : BitVec 4) (d : Dst) (w : BitVec 3) (b : Src) (x : BitVec 32)
  | atom (g : Guard) (op : AtomOp) (t : Ty) (loc : Bool) (o : Ord) (sc : Scope) (slk : BitVec 4) (d : Dst) (m : Addr)
      (c : Src) (e : Option Src)
  | red (g : Guard) (op : AtomOp) (t : Ty) (loc : Bool) (o : Ord) (sc : Scope) (slk : BitVec 4) (m : Addr) (c : Src)
  | poll (g : Guard) (t : Ty) (cmp : Cmp) (o : Ord) (sc : Scope) (slk : BitVec 4) (d : Dst) (m : Addr) (c : Src)
  | fence (g : Guard) (o : Ord) (sc : Scope) (slk : BitVec 4)
  | pref (g : Guard) (t : Ty) (l2 : Bool) (slk : BitVec 4) (m : Addr)
  | discard (g : Guard) (slk : BitVec 4) (a : BitVec 5)
  | waitc (g : Guard) (l s c t : BitVec 8)
  -- engines (R192, R201)
  | cpy (g : Guard) (f : CopyF) (kh : BitVec 5) (a b c : Src)
  | cpg (g : Guard) (f : CopyF) (kh : BitVec 5) (a b c d : Src) (len : BitVec 16)
  | cpm (g : Guard) (f : CopyF) (kh : BitVec 5) (a b c d : Src)
  | cpyr (g : Guard) (t : Ty) (f : CopyF) (kh : BitVec 5) (a b c : Src)
  | cpyo (g : Guard) (f : CopyF) (kh : BitVec 5) (a b c d : Src)
  | cpya (g : Guard) (f : CopyF) (kh : BitVec 5) (a b c d : Src)
  | qfence (g : Guard) (m : BitVec 4)
  | join (g : Guard) (d : BitVec 5) (a : Src)
  | test (g : Guard) (p : BitVec 3) (a : Src)
  | cancel (g : Guard) (d : BitVec 5) (a : Src)
  | waitany (g : Guard) (d : BitVec 5) (a : Src)
  | waitall (g : Guard) (d : BitVec 5) (a : Src)
  | ffr (g : Guard) (d : BitVec 5) (a : Src)
  -- matrix (R178, R183, R185)
  | oclaim (g : Guard) (d : BitVec 5) (a : Src)
  | orel (g : Guard) (a b : Src)
  | aclaim (g : Guard) (d : BitVec 5) (a : Src)
  | arel (g : Guard) (a b : Src)
  | mloop (g : Guard) (fa fb : Ty) (prio : BitVec 2) (kh : BitVec 5) (kt ka kb : Src) (nstep : BitVec 12)
      (ia ib : BitVec 4) (mode : MMode)
  | mzero (g : Guard) (prio : BitVec 2) (kh : BitVec 5) (kt : Src)
  | mrowsc (g : Guard) (prio : BitVec 2) (kh : BitVec 5) (kt ka : Src)
  -- synchronisation and system (R118 to R128, R331)
  | bar (g : Guard) (lv : BarLevel) (n : BitVec 4) (sc : Scope)
  | arrive (g : Guard) (lv : BarLevel) (n : BitVec 4) (sc : Scope) (d : BitVec 5) (c : Src)
  | await (g : Guard) (lv : BarLevel) (n : BitVec 4) (sc : Scope) (q : Src)
  | yield (g : Guard)
  | mfs (g : Guard) (d : BitVec 5) (r : SysReg)
  | mts (g : Guard) (r : SysReg) (a : Src)
  | mode (g : Guard) (a b : Src)
  | qxfer (g : Guard) (d : BitVec 5) (a : Src) (n : BitVec 4)
  | trap (g : Guard) (n : BitVec 6)
  | rft (g : Guard)
  | snap (g : Guard) (d : BitVec 5)
  | brk (g : Guard) (n : BitVec 6)
  | launch (g : Guard) (graph early : Bool) (d : BitVec 5) (a : BitVec 5)
  -- events of a core
  | fetchBlock (grp : Nat) (arm : Bool)
  | blockEnd (blk : Nat)
  | launchAdmission (l : Nat)
  | blockPlacement (stream : Nat)
  | gangReserve (stream quad : Nat)
  | gangCommit (stream : Nat)
  | gangBackoffRetry (stream : Nat)
  | operatingPointStable (granted : Nat)
  | starvationTimerExpiry (grp : Nat) (arm : Bool)
  | replyLands (pkt : Nat)
  | residualEntryRun (grp entry : Nat)
  | trapEntry (grp : Nat) (arm : Bool)
  | pollReread (pkt : Nat)
  | claimGrant (quad : Nat) (tiles : Bool)
  | claimReleaseFree (quad : Nat) (tiles : Bool)
  | tagAllocate (core : Nat)
  | reservationPost (quad : Nat)
  | matrixStepGrant (quad : Nat)
  | copyChunk (core : Nat)
  | commandCompletion (cmd : Nat)
  | launchQueueHandoff
  | graphStart
  | kernelNode (graph walk : Nat)
  | conditionalNode (graph walk : Nat)
  | loopNode (graph walk : Nat)
  | joinNode (graph walk : Nat)
  -- events of homes and requests
  | homeRequestService (unit : Nat)
  | leafStore (pkt : Nat)
  | replicaInvalidation (pkt : Nat)
  | unscrubbedClearLine (home : Nat)
  | nrFault (pkt : Nat)
  | nrKey (pkt : Nat)
  | nrBusy (pkt : Nat)
  | nrBusyReplay (pkt : Nat)
  | nrRedirect (pkt : Nat)
  | faultResolvedSignal (pkt : Nat)
  | errorResponse (pkt : Nat)
  | sliceMapChange (logical unit : Nat)
  | sliceMapInstall (core : Nat)
  | unitRetirement (u t : Nat)
  | retirementTakeover (t : Nat)
  | turnstileReload (core : Nat)
  -- network and fabric
  | slackClockTick
  | packetGrant (point : Nat)
  | sliceStreamBeat (stream : Nat)
  | flitReceive (link seq : Nat) (good : Bool) (body : FlitBody)
  | linkAck (link seq : Nat)
  | linkNak (link seq : Nat)
  | linkAckTimeout (link : Nat)
  | linkRetrain (link : Nat) (ok : Bool)
  | pauseFrame (link cls : Nat) (on : Bool)
  | remoteResendTimeout (req : Nat)
  | remoteWriteReceive (src id : Nat) (phys : Bool) (addr dom : Nat) (pass : Pass) (op : RemOp)
  | dedupeEntryExpiry
  | packetLifetimeExpiry (pkt : Nat)
  | messagePacketReceive (src id : Nat) (phys : Bool) (addr dom : Nat) (pass : Pass) (off total : Nat) (bytes : List Byte)
  -- host port
  | hostPostedWrite (stream : Nat) (relaxed : Bool) (dst : HostDst) (bytes : List Byte)
  | hostReadRequest (stream : Nat) (src : HostSrc) (n : Nat)
  | hostAtomicopRequest (stream : Nat) (addr : Nat)
  | hostRegisterWrite (page : PageAt) (len : Bool) (x : W64)
  | flush (dom stream : Nat) (x : W64)
  | inval (dom stream : Nat) (x : W64)
  | tohost (dom stream : Nat) (x : W64)
  | todev (dom stream : Nat) (x : W64)
  | kickCompletion (dom : Nat)
  | submitLaunch (page : PageAt) (x : W64)
  | submitGraph (page : PageAt) (x : W64)
  | stop (page : PageAt) (x : W64)
  | cxlResponseTimeout (pkt : Nat)
  -- tenancy and the safety net
  | budgetTick (dom : Nat)
  | budgetResume (dom : Nat)
  | checkpoint (dom : Nat)
  | preemption (dom : Nat)
  | preemptionHandlerTimeout (grp : Nat)
  | contextRestore (dom : Nat)
  -- bring-up
  | deviceReset
  | firmwareBringup (b : Bringup)
  | getVersion
  | getCapabilities
  | negotiateAlgorithms (p384 sha384 : Bool)
  | getDigests
  | getCertificate
  | challenge (nonce : List Byte)
  | getMeasurements
  | distributionTableChange (dist : List (Nat × W64)) (routes : List (Nat × List Nat))
  | cxlPortDown (port : Nat) (up : Bool)
  | requestIdReuse
  | ackInterval (link : Nat)
deriving DecidableEq, Repr

end Sys2Proof
end

