-- ==== Sys2Proof/Machine/Legal.lean ====
section
/-!
DEFINITION. The codes of R88 to R91 as numbers, the widths of the types, and which instructions are legal: the decode checks
of R97 and R98 that depend only on an instruction's fields.
-/

namespace Sys2Proof

/-- Type code (R88). -/
def Ty.code : Ty → BitVec 4
  | .i8 => 0 | .i16 => 1 | .i32 => 2 | .i64 => 3 | .n8 => 4 | .n16 => 5 | .n32 => 6 | .n64 => 7
  | .f32 => 8 | .f16 => 9 | .bf16 => 10 | .e4m3 => 11 | .e5m2 => 12 | .oq4 => 13 | .f16x2 => 14 | .bf16x2 => 15

def Ty.ofCode (c : BitVec 4) : Ty :=
  match c.toNat with
  | 0 => .i8 | 1 => .i16 | 2 => .i32 | 3 => .i64 | 4 => .n8 | 5 => .n16 | 6 => .n32 | 7 => .n64
  | 8 => .f32 | 9 => .f16 | 10 => .bf16 | 11 => .e4m3 | 12 => .e5m2 | 13 => .oq4 | 14 => .f16x2 | _ => .bf16x2

/-- Untyped instructions have `TYPE` 0 (R105, R115). -/
def tyOptCode : Option Ty → BitVec 4
  | none => 0
  | some t => t.code

/-- Bits of a value of the type (R88, R139). -/
def Ty.width : Ty → Nat
  | .i8 | .n8 | .e4m3 | .e5m2 => 8
  | .i16 | .n16 | .f16 | .bf16 => 16
  | .i32 | .n32 | .f32 | .f16x2 | .bf16x2 => 32
  | .i64 | .n64 => 64
  | .oq4 => 4

/-- Element size in memory, in bytes (R88, R244); `.oq4` has none. -/
def Ty.size : Ty → Nat
  | .i8 | .n8 | .e4m3 | .e5m2 => 1
  | .i16 | .n16 | .f16 | .bf16 => 2
  | .i32 | .n32 | .f32 | .f16x2 | .bf16x2 => 4
  | .i64 | .n64 => 8
  | .oq4 => 0

def Ty.is64 : Ty → Bool
  | .i64 | .n64 => true
  | _ => false

/-- The integer types of R140 that are signed. -/
def Ty.signed : Ty → Bool
  | .i8 | .i16 | .i32 | .i64 => true
  | _ => false

/-- "Int" of R102. -/
def Ty.isInt : Ty → Bool
  | .i8 | .i16 | .i32 | .i64 | .n8 | .n16 | .n32 | .n64 => true
  | _ => false

/-- "Scalar float" of R159. -/
def Ty.isScalarF : Ty → Bool
  | .f32 | .f16 | .bf16 => true
  | _ => false

/-- "Float" of R159. -/
def Ty.isFloat : Ty → Bool
  | .f32 | .f16 | .bf16 | .f16x2 | .bf16x2 => true
  | _ => false

def Ty.isPacked : Ty → Bool
  | .f16x2 | .bf16x2 => true
  | _ => false

/-- The five scalar formats of R135. -/
def Ty.isFmt : Ty → Bool
  | .f32 | .f16 | .bf16 | .e4m3 | .e5m2 => true
  | _ => false

/-- `.i32 .n32 .i64 .n64` (R102). -/
def Ty.isWide : Ty → Bool
  | .i32 | .n32 | .i64 | .n64 => true
  | _ => false

/-- `.b32 .n64` (R102). -/
def Ty.isBits : Ty → Bool
  | .n32 | .n64 => true
  | _ => false

/-- The types of `SEL`, `MOV` and `MOVI` (R102). -/
def Ty.isSel (t : Ty) : Bool := t.isInt || t.isFloat

/-- Comparison code (R89). -/
def Cmp.code : Cmp → BitVec 4
  | .eq => 0 | .ne => 1 | .lt => 2 | .le => 3 | .gt => 4 | .ge => 5 | .num => 6 | .nan => 7
  | .equ => 8 | .neu => 9 | .ltu => 10 | .leu => 11 | .gtu => 12 | .geu => 13

def Cmp.ofCode (c : BitVec 4) : Option Cmp :=
  match c.toNat with
  | 0 => some .eq | 1 => some .ne | 2 => some .lt | 3 => some .le | 4 => some .gt | 5 => some .ge
  | 6 => some .num | 7 => some .nan | 8 => some .equ | 9 => some .neu | 10 => some .ltu | 11 => some .leu
  | 12 => some .gtu | 13 => some .geu | _ => none

/-- Integer comparisons take codes 0b0000 to 0b0101 (R89). -/
def Cmp.isInt : Cmp → Bool
  | .eq | .ne | .lt | .le | .gt | .ge => true
  | _ => false

/-- Rounding code (R90). -/
def Rnd.code : Rnd → BitVec 2
  | .rn => 0 | .rz => 1 | .rm => 2 | .rp => 3

def Rnd.ofCode (c : BitVec 2) : Rnd :=
  match c.toNat with
  | 0 => .rn | 1 => .rz | 2 => .rm | _ => .rp

/-- Order code (R91). -/
def Ord.code : Ord → BitVec 2
  | .none => 0 | .acq => 1 | .rel => 2 | .ar => 3

def Ord.ofCode (c : BitVec 2) : Ord :=
  match c.toNat with
  | 0 => .none | 1 => .acq | 2 => .rel | _ => .ar

def Ord.isAcq : Ord → Bool
  | .acq | .ar => true
  | _ => false

def Ord.isRel : Ord → Bool
  | .rel | .ar => true
  | _ => false

/-- Scope code (R91). -/
def Scope.code : Scope → BitVec 4
  | .lane => 0 | .grp => 1 | .blk => 2 | .gang => 3 | .quad => 4 | .sec => 5 | .die => 6 | .dev => 7
  | .node => 8 | .pod => 9 | .fab => 10 | .sys => 11

def Scope.ofCode (c : BitVec 4) : Option Scope :=
  match c.toNat with
  | 0 => some .lane | 1 => some .grp | 2 => some .blk | 3 => some .gang | 4 => some .quad | 5 => some .sec
  | 6 => some .die | 7 => some .dev | 8 => some .node | 9 => some .pod | 10 => some .fab | 11 => some .sys | _ => none

def Scope.rank (s : Scope) : Nat := s.code.toNat

/-- Operation codes of `LRED` (R110), `FRED` (R168) and the atomics (R254). -/
def RedOp.code : RedOp → BitVec 6
  | .add => 0 | .min => 1 | .max => 2 | .and => 3 | .or => 4 | .xor => 5

def RedOp.ofCode (c : BitVec 6) : Option RedOp :=
  match c.toNat with
  | 0 => some .add | 1 => some .min | 2 => some .max | 3 => some .and | 4 => some .or | 5 => some .xor | _ => none

def FRedOp.code : FRedOp → BitVec 6
  | .add => 0 | .min => 1 | .max => 2 | .addx => 3

def FRedOp.ofCode (c : BitVec 6) : Option FRedOp :=
  match c.toNat with
  | 0 => some .add | 1 => some .min | 2 => some .max | 3 => some .addx | _ => none

def AtomOp.code : AtomOp → BitVec 3
  | .add => 0 | .min => 1 | .max => 2 | .and => 3 | .or => 4 | .xor => 5 | .exch => 6 | .cas => 7

def AtomOp.ofCode (c : BitVec 3) : AtomOp :=
  match c.toNat with
  | 0 => .add | 1 => .min | 2 => .max | 3 => .and | 4 => .or | 5 => .xor | 6 => .exch | _ => .cas

/-- The types an atomic operation takes (R254). -/
def AtomOp.tyOk : AtomOp → Ty → Bool
  | .add, t | .min, t | .max, t => t.isWide || t == .f32 || t.isPacked
  | .and, t | .or, t | .xor, t | .exch, t | .cas, t => t.isBits

def BarLevel.code : BarLevel → BitVec 2
  | .blk => 0 | .gang => 1 | .launch => 2

def BarLevel.ofCode (c : BitVec 2) : Option BarLevel :=
  match c.toNat with
  | 0 => some .blk | 1 => some .gang | 2 => some .launch | _ => none

/-- How many barriers a level has (R118). -/
def BarLevel.count : BarLevel → Nat
  | .blk => 16 | .gang => 4 | .launch => 2

/-- Selectors of R120. -/
def SysReg.code : SysReg → BitVec 6
  | .gctl => 0 | .gstat => 1 | .exm => 2 | .trdy => 3 | .late => 4 | .vtime => 5 | .stolen => 6 | .cycles => 7
  | .tvec => 8 | .tcause => 9 | .tpc => 10 | .taddr => 11 | .quota => 12 | .launchid => 13 | .blockidx => 14
  | .groupidx => 15 | .coreid => 16 | .quadid => 17 | .cls => 18

def SysReg.ofCode (c : BitVec 6) : Option SysReg :=
  match c.toNat with
  | 0 => some .gctl | 1 => some .gstat | 2 => some .exm | 3 => some .trdy | 4 => some .late | 5 => some .vtime
  | 6 => some .stolen | 7 => some .cycles | 8 => some .tvec | 9 => some .tcause | 10 => some .tpc | 11 => some .taddr
  | 12 => some .quota | 13 => some .launchid | 14 => some .blockidx | 15 => some .groupidx | 16 => some .coreid
  | 17 => some .quadid | 18 => some .cls | _ => none

/-- Read-only registers: an `MTS` to one is illegal (R120). -/
def SysReg.writable : SysReg → Bool
  | .gctl | .exm | .late | .tvec | .tcause | .tpc | .taddr => true
  | _ => false

/-- How an instruction reads a source: under a type, as one 32-bit operand (R81), or as a 64-bit uniform operand (R105). -/
inductive ReadAs where
  | ty (t : Ty)
  | one
  | k64
deriving DecidableEq, Repr

/-- Two words of a window are read, so the offset is even (R85). -/
def ReadAs.wide : ReadAs → Bool
  | .ty t => t.is64
  | .one => false
  | .k64 => true

/-- A source any entry of R100 or R158 accepts: pairs are even and `lat` is no pair (R81), no inline constant under an 8-bit
float or `.oq4` (R82), an even window offset where two words are read (R85). -/
def srcOk (r : ReadAs) : Src → Bool
  | .v i => !(r.wide && i.getLsbD 0)
  | .o i => !(r.wide && i.getLsbD 0)
  | .lat => !r.wide
  | .k _ => true
  | .inl _ => !(r == .ty .e4m3 || r == .ty .e5m2 || r == .ty .oq4)
  | .imm _ => true
  | .cw _ off => !(r.wide && off.getLsbD 0)

def Src.isCw : Src → Bool
  | .cw _ _ => true
  | _ => false

def Src.isK : Src → Bool
  | .k _ => true
  | _ => false

/-- Level 0b11 with an index from 0 to 47 (R175). -/
def Src.isUni : Src → Bool
  | .k _ | .inl _ => true
  | _ => false

/-- A source X1 holds (R84). -/
def Src.isExt : Src → Bool
  | .imm _ | .cw _ _ => true
  | _ => false

/-- A lane register: `v`, `o` or `lat`. -/
def Src.isLaneReg : Src → Bool
  | .v _ | .o _ | .lat => true
  | _ => false

/-- Uniform sources: level 0b11 or X1 (R105) (DEDUCED, assumption 67). -/
def kOk (r : ReadAs) (s : Src) : Bool := (s.isUni || s.isExt) && srcOk r s

/-- At most one source is replaced by X1 (R84). -/
def oneExt (l : List Src) : Bool := (l.filter Src.isExt).length ≤ 1

def dstOk (t : Ty) : Dst → Bool
  | .v i => !(t.is64 && i.getLsbD 0)
  | .o i | .vo i => !(t.is64 && i.getLsbD 0)

/-- Vector forms of one to three sources of the instruction's own type. -/
def vec1 (ok : Bool) (t : Ty) (d : Dst) (a : Src) : Bool := ok && dstOk t d && srcOk (.ty t) a

def vec2 (ok : Bool) (t : Ty) (d : Dst) (a b : Src) : Bool :=
  ok && dstOk t d && srcOk (.ty t) a && srcOk (.ty t) b && oneExt [a, b]

def vec3 (ok : Bool) (t : Ty) (d : Dst) (a b c : Src) : Bool :=
  ok && dstOk t d && srcOk (.ty t) a && srcOk (.ty t) b && srcOk (.ty t) c && oneExt [a, b, c]

def uni2 (a b : Src) : Bool := kOk .k64 a && kOk .k64 b && oneExt [a, b]

/-- The offset of a memory operand: `v`, `o`, `lat` or `k`, one 32-bit operand (R86, R242, R243). -/
def offOk (b : Src) : Bool := b.isLaneReg || b.isK

/-- A data operand of a memory instruction: X1 holds the displacement, so no immediate (R242). -/
def dataOk (t : Ty) (c : Src) : Bool := !c.isExt && srcOk (.ty t) c

/-- Orders and scopes of R243: no scope without an order for plain accesses, and `lo` to `hi` with one. -/
def ordScope (o : Ord) (sc : Scope) (okOrd : Ord) (hi : Nat) : Bool :=
  (o == .none && sc == .lane) || (o == okOrd && 1 ≤ sc.rank && sc.rank ≤ hi)

def bxOk (off : BitVec 32) : Bool := !off.getLsbD 0 && !off.getLsbD 1

/-- Engine operands (R175). -/
def eng (l : List Src) : Bool := l.all Src.isUni

def copyOk (f : CopyF) (dl sl il : Bool) : Bool :=
  2 ≤ f.scope.rank && (!f.dl || dl) && (!f.sl || sl) && (!f.il || il)

/-- Format pairs of `MLOOP` (R183). -/
def mfmtOk (fa fb : Ty) : Bool :=
  (fa == fb && (fa == .bf16 || fa == .f16 || fa == .e4m3 || fa == .e5m2 || fa == .i8 || fa == .oq4))
    || (fa == .e4m3 && fb == .e5m2) || (fa == .e5m2 && fb == .e4m3)

def mmodeOk : MMode → Bool
  | .plain => true
  | .tri kg c => kg.isUni && (match c with | .kval kv => kv.isUni | _ => true)

/-- Type pairs of the conversions (R169). -/
def fcvtOk (dt st : Ty) (hi : Bool) (b : Option Src) : Bool :=
  (dt.isFmt && st.isFmt && dt != st && !hi && b.isNone)
    || (dt.isFmt && st.isPacked && b.isNone)
    || (dt.isPacked && st == .f32 && !hi && b.isSome)

/-- The decode checks of R97: fields an instruction's entry does not allow, alone or in combination. Events are always
legal (DEDUCED, assumptions 57 and 67). -/
def legal : Instr → Bool
  | .nop _ => true
  | .bra _ t r => bxOk t && bxOk r
  | .bru _ c a b off => c.isInt && a.isUni && b.isUni && bxOk off
  | .bpend r off => bxOk off && (match r with | .reg a => a.isLaneReg || a.isK | .pred _ => true)
  | .call _ s off => s != 0 && bxOk off
  | .calli _ s _ => s != 0
  | .ret _ => true
  | .loopk _ off => bxOk off
  | .exit _ => true
  | .iadd _ t d a b | .isub _ t d a b | .imul _ t d a b | .imin _ t d a b | .imax _ t d a b => vec2 t.isInt t d a b
  | .imulh _ t d a b => vec2 t.isWide t d a b
  | .imad _ t d a b c => vec3 t.isInt t d a b c
  | .iabs _ t d a => vec1 (t.isInt && t.signed) t d a
  | .ineg _ t d a => vec1 t.isInt t d a
  | .addmin _ t d a b c | .addmax _ t d a b c => vec3 t.isWide t d a b c
  | .ilea _ t d a b _ => t == .n64 && dstOk t d && srcOk (.ty t) a && srcOk .one b && oneExt [a, b]
  | .and _ t d a b | .or _ t d a b | .xor _ t d a b | .andn _ t d a b => vec2 t.isBits t d a b
  | .not _ t d a | .clz _ t d a | .popc _ t d a | .brev _ t d a => vec1 t.isBits t d a
  | .shl _ t d a b | .shr _ t d a b | .sar _ t d a b => vec2 t.isWide t d a b
  | .rot _ t d a b _ => vec2 t.isBits t d a b
  | .bfx _ t d a b => vec2 (t == .i32 || t == .n32) t d a b
  | .bfi _ t d a b c => vec3 (t == .n32) t d a b c
  | .sel _ t d a b _ => vec2 t.isSel t d a b
  | .mov _ t d a => vec1 t.isSel t d a
  | .movi _ t d _ => t.isSel && dstOk t d
  | .iset _ t _ c a b => t.isInt && c.isInt && srcOk (.ty t) a && srcOk (.ty t) b && oneExt [a, b]
  | .icvt _ dt st d a _ => dt.isInt && st.isInt && dstOk dt d && srcOk (.ty st) a
  | .kadd _ _ a b | .ksub _ _ a b | .kmul _ _ a b | .kand _ _ a b | .kor _ _ a b | .kxor _ _ a b | .kshl _ _ a b
  | .kshr _ _ a b => uni2 a b
  | .kmov _ t _ a =>
    (match t with
     | none => kOk .k64 a
     | some t => t.isWide && kOk (.ty t) a)
  | .kmovi _ t _ _ => t == none || t == some .n64
  | .kset _ t _ c a b => (t == none || t == some .i64 || t == some .n64) && c.isInt && uni2 a b
  | .ksel _ _ a b c => kOk .k64 a && kOk .k64 b && kOk .k64 c && oneExt [a, b, c]
  | .vtok _ t _ a b => (t == .n32 || t == .i32 || t == .n64) && srcOk (.ty t) a && kOk (.ty t) b && oneExt [a, b]
  | .ktov _ t d a => t.isBits && dstOk t d && kOk (.ty t) a
  | .plog _ _ _ _ _ | .vote _ _ _ | .getx _ _ => true
  | .setx _ a => kOk .k64 a
  | .lshift _ t d a b c _ =>
    t.isBits && dstOk t d && srcOk (.ty t) a && srcOk (.ty t) b && srcOk .one c && oneExt [a, b, c]
  | .lswz _ t d a b | .lperm _ t d a b => t.isBits && dstOk t d && srcOk (.ty t) a && srcOk .one b && oneExt [a, b]
  | .lbcast _ t d a b => t.isBits && dstOk t d && srcOk (.ty t) a && kOk (.ty t) b && oneExt [a, b]
  | .lred _ _ t d a => vec1 t.isWide t d a
  | .xch _ t d a _ => t.isBits && dstOk t d && a.isLaneReg && srcOk (.ty t) a
  | .fadd _ t _ _ d a b | .fsub _ t _ _ d a b | .fmul _ t _ _ d a b => vec2 t.isFloat t d a b
  | .ffma _ t _ _ d a b c => vec3 t.isFloat t d a b c
  | .fmin _ t d a b | .fmax _ t d a b => vec2 t.isFloat t d a b
  | .fset _ t _ _ a b => t.isScalarF && srcOk (.ty t) a && srcOk (.ty t) b && oneExt [a, b]
  | .frcp _ t d a | .frsq _ t d a | .fexp2 _ t d a | .flog2 _ t d a | .fsin _ t d a | .fcos _ t d a => vec1 t.isFloat t d a
  | .fsqrt _ t _ d a => vec1 t.isFloat t d a
  | .fscale _ t _ d a b => t.isFloat && dstOk t d && srcOk (.ty t) a && srcOk .one b && oneExt [a, b]
  | .fclass _ t d a =>
    (t.isScalarF || t == .e4m3 || t == .e5m2) && srcOk (.ty t) a
      && (match d with | .code d => dstOk t d | .test _ b => srcOk .one b && oneExt [a, b])
  | .fdot2 _ t _ _ d a b c =>
    t.isPacked && dstOk .f32 d && srcOk (.ty t) a && srcOk (.ty t) b && srcOk (.ty .f32) c && oneExt [a, b, c]
  | .fred _ op t r d a => vec1 t.isScalarF t d a && (r == .rn || op == .add || op == .addx)
  | .fcvt _ dt st hi _ d a b =>
    fcvtOk dt st hi b && dstOk dt d && srcOk (.ty st) a
      && (match b with | none => true | some b => srcOk (.ty .f32) b && oneExt [a, b])
  | .ftoi _ dt st _ d a => dt.isInt && st.isFmt && dstOk dt d && srcOk (.ty st) a
  | .itof _ dt st _ d a => dt.isFmt && st.isInt && dstOk dt d && srcOk (.ty st) a
  | .narrow _ dt d a b =>
    (dt == .f16 || dt == .bf16 || dt == .e4m3 || dt == .e5m2 || dt == .i8) && dstOk dt d && srcOk (.ty .f32) a
      && srcOk (.ty .f32) b && oneExt [a, b]
  | .ld _ t o sc _ d m => t != .oq4 && ordScope o sc .acq 11 && dstOk t d && offOk m.b
  | .st _ t o sc _ m c => t != .oq4 && ordScope o sc .rel 11 && offOk m.b && dataOk t c
  | .ldu _ t o sc _ d m => t != .oq4 && ordScope o sc .acq 11 && dstOk t d && m.b.isK
  | .ldl _ t o sc _ d m => t != .oq4 && ordScope o sc .acq 3 && dstOk t d && offOk m.b
  | .stl _ t o sc _ m c => t != .oq4 && ordScope o sc .rel 3 && offOk m.b && dataOk t c
  | .ldc _ t _ d _ b _ =>
    (t == .n32 || t == .i32 || t == .f32 || t.isPacked || t.is64) && dstOk t d && offOk b
  | .atom _ op t loc _ sc _ d m c e =>
    op.tyOk t && dstOk t d && offOk m.b && dataOk t c && 1 ≤ sc.rank && (!loc || sc.rank ≤ 3)
      && (match e with | none => op != .cas | some e => op == .cas && dataOk t e)
  | .red _ op t loc o sc _ m c =>
    op.tyOk t && op != .exch && op != .cas && (o == .none || o == .rel) && offOk m.b && dataOk t c && 1 ≤ sc.rank
      && (!loc || sc.rank ≤ 3)
  | .poll _ t cmp o sc _ d m c =>
    (t.isWide || t == .f32) && (cmp.isInt || t == .f32) && (o == .none || (o == .acq && 1 ≤ sc.rank)) && dstOk t d
      && offOk m.b && dataOk t c
  | .fence _ o sc _ => o != .none && 1 ≤ sc.rank
  | .pref _ t _ _ m => t != .oq4 && offOk m.b
  | .discard _ _ _ => true
  | .waitc _ _ _ _ _ => true
  | .cpy _ f _ a b c => copyOk f true true false && eng [a, b, c]
  | .cpg _ f _ a b c d len => copyOk f true true true && eng [a, b, c, d] && len != 0
  | .cpm _ f _ a b c d => copyOk f false false false && eng [a, b, c, d]
  | .cpyr _ t f _ a b c => copyOk f false true false && eng [a, b, c] && (t.isFloat || t.isWide)
  | .cpyo _ f _ a b c d | .cpya _ f _ a b c d => copyOk f false false false && eng [a, b, c, d]
  | .qfence _ m => m != 0
  | .join _ _ a | .test _ _ a | .cancel _ _ a | .waitany _ _ a | .waitall _ _ a | .ffr _ _ a => a.isUni
  | .oclaim _ _ a | .aclaim _ _ a => a.isUni
  | .orel _ a b | .arel _ a b => eng [a, b]
  | .mloop _ fa fb _ _ kt ka kb _ _ _ mode => mfmtOk fa fb && eng [kt, ka, kb] && mmodeOk mode
  | .mzero _ _ _ kt => kt.isUni
  | .mrowsc _ _ _ kt ka => eng [kt, ka]
  | .bar _ lv n _ => n.toNat < lv.count
  | .arrive _ lv n _ _ c => n.toNat < lv.count && kOk .k64 c && !c.isCw
  | .await _ lv n _ q => n.toNat < lv.count && kOk .k64 q
  | .yield _ => true
  | .mfs _ _ _ => true
  | .mts _ r a => r.writable && kOk .k64 a
  | .mode _ a b => (a.isK || a.isExt) && (b.isK || b.isExt) && uni2 a b
  | .qxfer _ _ a n => kOk .k64 a && 1 ≤ n.toNat && n.toNat ≤ 12
  | .trap _ _ | .rft _ | .snap _ _ | .brk _ _ | .launch _ _ _ _ _ => true
  | .fetchBlock _ _ | .blockEnd _ | .launchAdmission _ | .blockPlacement _ | .gangReserve _ _ | .gangCommit _
  | .gangBackoffRetry _ | .operatingPointStable _ | .starvationTimerExpiry _ _ | .replyLands _ | .residualEntryRun _ _
  | .trapEntry _ _ | .pollReread _ | .claimGrant _ _ | .claimReleaseFree _ _ | .tagAllocate _ | .reservationPost _
  | .matrixStepGrant _ | .copyChunk _ | .commandCompletion _ | .launchQueueHandoff | .graphStart | .kernelNode _ _
  | .conditionalNode _ _ | .loopNode _ _ | .joinNode _ _ | .homeRequestService _ | .leafStore _ | .replicaInvalidation _
  | .unscrubbedClearLine _ | .nrFault _ | .nrKey _ | .nrBusy _ | .nrBusyReplay _ | .nrRedirect _ | .faultResolvedSignal _
  | .errorResponse _ | .sliceMapChange _ _ | .sliceMapInstall _ | .unitRetirement _ _ | .retirementTakeover _
  | .turnstileReload _ | .slackClockTick | .packetGrant _ | .sliceStreamBeat _ | .flitReceive _ _ _ _ | .linkAck _ _
  | .linkNak _ _ | .linkAckTimeout _ | .linkRetrain _ _ | .pauseFrame _ _ _ | .remoteResendTimeout _
  | .remoteWriteReceive _ _ _ _ _ _ _ | .dedupeEntryExpiry | .packetLifetimeExpiry _
  | .messagePacketReceive _ _ _ _ _ _ _ _ _ | .hostPostedWrite _ _ _ _ | .hostReadRequest _ _ _ | .hostAtomicopRequest _ _
  | .hostRegisterWrite _ _ _ | .flush _ _ _ | .inval _ _ _ | .tohost _ _ _ | .todev _ _ _ | .kickCompletion _
  | .submitLaunch _ _ | .submitGraph _ _ | .stop _ _ | .cxlResponseTimeout _ | .budgetTick _ | .budgetResume _
  | .checkpoint _ | .preemption _ | .preemptionHandlerTimeout _ | .contextRestore _ | .deviceReset | .firmwareBringup _
  | .getVersion | .getCapabilities | .negotiateAlgorithms _ _ | .getDigests | .getCertificate | .challenge _
  | .getMeasurements | .distributionTableChange _ _ | .cxlPortDown _ _ | .requestIdReuse | .ackInterval _ => true

end Sys2Proof
end

