-- ==== Sys2Proof/WellFormed.lean ====
section
/-!
DEFINITION. Well-formedness of an instruction: every decode check of R97 that its fields decide (`legal`, kept with the codes
in Machine/Legal.lean).
-/

namespace Sys2Proof

/-- The instruction passes the decode checks of R97 and R98. -/
def Instr.wf (i : Instr) : Bool := legal i

end Sys2Proof
end

