-- ==== Sys2Proof/Decode.lean ====
section
/-!
DEFINITION. The decoder and the encoder, from the layout of R77 to R91 and the opcode map of R96. `decodeWords` is total on any
words: it reads the fields of R77, forms the instruction they name, and answers it only if it is well-formed and its encoding
is exactly the words read, so that a nonzero unused or reserved field (R79, R84 to R86) or a length the opcode does not allow
(R83) is refused.
-/

namespace Sys2Proof

/-- The fields of an instruction's words (R77), X1 and X2 zero where the length has none. -/
structure Enc where
  len : BitVec 2
  opc : BitVec 8
  guard : BitVec 4
  dlev : BitVec 2
  didx : BitVec 6
  a : BitVec 8
  b : BitVec 8
  c : BitVec 8
  ty : BitVec 4
  mod : BitVec 4
  x : BitVec 4
  sub : BitVec 6
  x1 : BitVec 32
  x2 : BitVec 32
deriving DecidableEq, Repr

/-- The base 64 bits, high field first (R77). -/
def Enc.base (e : Enc) : BitVec 64 :=
  e.sub ++ e.x ++ e.mod ++ e.ty ++ e.c ++ e.b ++ e.a ++ e.didx ++ e.dlev ++ e.guard ++ e.opc ++ e.len

/-- The words, lowest address first; how many by `LEN` (R73). -/
def Enc.words (e : Enc) : List W32 :=
  let lo := e.base.extractLsb' 0 32
  let hi := e.base.extractLsb' 32 32
  match e.len.toNat with
  | 1 => [lo, hi]
  | 2 => [lo, hi, e.x1]
  | _ => [lo, hi, e.x1, e.x2]

/-- The fields of a base and extension words. -/
def Enc.ofBase (w : BitVec 64) (x1 x2 : W32) : Enc where
  len := w.extractLsb' 0 2
  opc := w.extractLsb' 2 8
  guard := w.extractLsb' 10 4
  dlev := w.extractLsb' 14 2
  didx := w.extractLsb' 16 6
  a := w.extractLsb' 22 8
  b := w.extractLsb' 30 8
  c := w.extractLsb' 38 8
  ty := w.extractLsb' 46 4
  mod := w.extractLsb' 50 4
  x := w.extractLsb' 54 4
  sub := w.extractLsb' 58 6
  x1 := x1
  x2 := x2

/-- Two to four words as fields (R73); the length must be the one `LEN` gives. -/
def Enc.ofWords : List W32 → Option Enc
  | [lo, hi] => let e := Enc.ofBase (hi ++ lo) 0 0; if e.len = 1 then some e else none
  | [lo, hi, x1] => let e := Enc.ofBase (hi ++ lo) x1 0; if e.len = 2 then some e else none
  | [lo, hi, x1, x2] => let e := Enc.ofBase (hi ++ lo) x1 x2; if e.len = 3 then some e else none
  | _ => none

/-! Operand fields. -/

/-- Source field (R78); an operand held in X1 leaves its field zero (R84). -/
def Src.field : Src → BitVec 8
  | .v i => 0#3 ++ i
  | .o i => 8#5 ++ i
  | .lat => 0x80#8
  | .k i => 6#3 ++ i
  | .inl c => 14#4 ++ c
  | .imm _ | .cw _ _ => 0

def srcOfField (f : BitVec 8) : Option Src :=
  let idx := f.extractLsb' 0 6
  match (f.extractLsb' 6 2).toNat with
  | 0 => if idx.toNat < 32 then some (.v (f.extractLsb' 0 5)) else none
  | 1 => if idx.toNat < 8 then some (.o (f.extractLsb' 0 3)) else none
  | 2 => if idx = 0 then some .lat else none
  | _ => if idx.toNat < 32 then some (.k (f.extractLsb' 0 5))
         else if idx.toNat < 48 then some (.inl (f.extractLsb' 0 4)) else none

def predField (p : BitVec 3) : BitVec 8 := 24#5 ++ p
def kField (k : BitVec 5) : BitVec 8 := 6#3 ++ k

/-- What X1 holds for a source (R84, R85): the selector `XK` and the word. -/
def Src.ext : Src → BitVec 2 × W32
  | .imm x => (0, x)
  | .cw w off => (1, 0#12 ++ w ++ off)
  | _ => (0, 0)

def srcOfExt (xk : BitVec 2) (x1 : W32) : Option Src :=
  match xk.toNat with
  | 0 => some (.imm x1)
  | 1 => some (.cw (x1.extractLsb' 17 3) (x1.extractLsb' 0 17))
  | _ => none

def Guard.bits (g : Guard) : BitVec 4 := BitVec.ofBool g.neg ++ g.p
def Guard.ofBits (b : BitVec 4) : Guard := ⟨b.getLsbD 3, b.extractLsb' 0 3⟩

/-! Encoding. -/

/-- An instruction of `opc` with every other field zero, 64 bits long. -/
def enc0 (opc : BitVec 8) (g : Guard) : Enc :=
  { len := 1, opc := opc, guard := g.bits, dlev := 0, didx := 0, a := 0, b := 0, c := 0, ty := 0, mod := 0, x := 0, sub := 0,
    x1 := 0, x2 := 0 }

/-- Add a source at place `n` (1 = A, 2 = B, 3 = C), through X1 when it is an immediate or a window operand (R84). -/
def Enc.ext (e : Enc) (n : BitVec 2) (s : Src) : Enc :=
  if s.isExt then { e with len := 2, x := n ++ s.ext.1, x1 := s.ext.2 } else e

def Enc.srcA (e : Enc) (s : Src) : Enc := Enc.ext { e with a := s.field } 1 s
def Enc.srcB (e : Enc) (s : Src) : Enc := Enc.ext { e with b := s.field } 2 s
def Enc.srcC (e : Enc) (s : Src) : Enc := Enc.ext { e with c := s.field } 3 s

def Enc.dst (e : Enc) : Dst → Enc
  | .v i => { e with dlev := 0, didx := 0#1 ++ i }
  | .o i => { e with dlev := 1, didx := 0#3 ++ i }
  | .vo i => { e with dlev := 2, didx := 0#3 ++ i }

def Enc.kd (e : Enc) (k : BitVec 5) : Enc := { e with dlev := 3, didx := 0#1 ++ k }
def Enc.pd (e : Enc) (p : BitVec 3) : Enc := { e with dlev := 3, didx := 0#3 ++ p }

def encV1 (opc : BitVec 8) (g : Guard) (t : Ty) (d : Dst) (a : Src) : Enc :=
  (({ enc0 opc g with ty := t.code }).dst d).srcA a

def encV2 (opc : BitVec 8) (g : Guard) (t : Ty) (d : Dst) (a b : Src) : Enc := (encV1 opc g t d a).srcB b

def encV3 (opc : BitVec 8) (g : Guard) (t : Ty) (d : Dst) (a b c : Src) : Enc := (encV2 opc g t d a b).srcC c

def encK2 (opc : BitVec 8) (g : Guard) (d : BitVec 5) (a b : Src) : Enc := (((enc0 opc g).kd d).srcA a).srcB b

def encF (opc : BitVec 8) (g : Guard) (t : Ty) (r : Rnd) (sat : Bool) (d : Dst) (a b : Src) : Enc :=
  { encV2 opc g t d a b with mod := 0#1 ++ BitVec.ofBool sat ++ r.code }

/-- A memory instruction (R86, R91): base, offset, displacement, slack code, order and scope; 96 bits. -/
def encM (opc : BitVec 8) (g : Guard) (t : Ty) (o : Ord) (sc : Scope) (slk : BitVec 4) (m : Addr) : Enc :=
  { enc0 opc g with len := 2, ty := t.code, x := slk, sub := o.code ++ sc.code, a := kField m.a, b := m.b.field, x1 := m.d }

/-- A copy command (R192); 128 bits. -/
def encC (opc : BitVec 8) (g : Guard) (f : CopyF) (kh : BitVec 5) (a b c : Src) (d : BitVec 8) (x2 : W32) : Enc :=
  { (enc0 opc g).kd kh with
    len := 3, x := f.slk, sub := f.queue ++ f.scope.code, a := a.field, b := b.field, c := c.field,
    x1 := 0#21 ++ BitVec.ofBool f.il ++ BitVec.ofBool f.sl ++ BitVec.ofBool f.dl ++ d, x2 := x2 }

def encBar (opc : BitVec 8) (g : Guard) (lv : BarLevel) (n : BitVec 4) (sc : Scope) : Enc :=
  { enc0 opc g with mod := n, sub := lv.code ++ sc.code }

def Rnd.mod (r : Rnd) : BitVec 4 := 0#2 ++ r.code

/-- The fields of an instruction, from the opcode map (R96) and its entry; an event has no encoding. -/
def encodeFields : Instr → Option Enc
  | .nop g => some (enc0 0x00 g)
  | .bra g t r => some { enc0 0x01 g with len := 3, x1 := t, x2 := r }
  | .bru u c a b off =>
    some { enc0 0x02 ⟨false, 0⟩ with
      len := 2, ty := if u then Ty.n64.code else 0, mod := c.code, a := a.field, b := b.field, x1 := off }
  | .bpend (.reg a) off => some { enc0 0x03 ⟨false, 0⟩ with len := 2, a := a.field, x1 := off }
  | .bpend (.pred p) off => some { enc0 0x03 ⟨false, 0⟩ with len := 2, a := predField p, sub := 1, x1 := off }
  | .call g s off => some { enc0 0x04 g with len := 2, mod := 0#2 ++ s, x1 := off }
  | .calli g s a => some { enc0 0x05 g with mod := 0#2 ++ s, a := kField a }
  | .ret g => some (enc0 0x06 g)
  | .loopk a off => some { enc0 0x07 ⟨false, 0⟩ with len := 2, a := kField a, x1 := off }
  | .exit g => some (enc0 0x08 g)
  | .iadd g t d a b => some (encV2 0x10 g t d a b)
  | .isub g t d a b => some (encV2 0x11 g t d a b)
  | .imul g t d a b => some (encV2 0x12 g t d a b)
  | .imulh g t d a b => some (encV2 0x13 g t d a b)
  | .imad g t d a b c => some (encV3 0x14 g t d a b c)
  | .imin g t d a b => some (encV2 0x15 g t d a b)
  | .imax g t d a b => some (encV2 0x16 g t d a b)
  | .iabs g t d a => some (encV1 0x17 g t d a)
  | .ineg g t d a => some (encV1 0x18 g t d a)
  | .addmin g t d a b c => some (encV3 0x19 g t d a b c)
  | .addmax g t d a b c => some (encV3 0x1A g t d a b c)
  | .ilea g t d a b s => some { encV2 0x1B g t d a b with mod := s }
  | .and g t d a b => some (encV2 0x1C g t d a b)
  | .or g t d a b => some (encV2 0x1D g t d a b)
  | .xor g t d a b => some (encV2 0x1E g t d a b)
  | .andn g t d a b => some (encV2 0x1F g t d a b)
  | .not g t d a => some (encV1 0x20 g t d a)
  | .shl g t d a b => some (encV2 0x21 g t d a b)
  | .shr g t d a b => some (encV2 0x22 g t d a b)
  | .sar g t d a b => some (encV2 0x23 g t d a b)
  | .rot g t d a b r => some { encV2 0x24 g t d a b with sub := 0#5 ++ BitVec.ofBool r }
  | .clz g t d a => some (encV1 0x25 g t d a)
  | .popc g t d a => some (encV1 0x26 g t d a)
  | .brev g t d a => some (encV1 0x27 g t d a)
  | .bfx g t d a b => some (encV2 0x28 g t d a b)
  | .bfi g t d a b c => some (encV3 0x29 g t d a b c)
  | .sel g t d a b pc => some { encV2 0x2A g t d a b with c := predField pc }
  | .mov g t d a => some (encV1 0x2B g t d a)
  | .movi g t d x => some (encV1 0x2C g t d (.imm x))
  | .iset g t p c a b => some (((({ enc0 0x2D g with ty := t.code, mod := c.code }).pd p).srcA a).srcB b)
  | .icvt g dt st d a sat =>
    some { encV1 0x2E g dt d a with mod := 0#3 ++ BitVec.ofBool sat, sub := 0#2 ++ st.code }
  | .kadd g d a b => some (encK2 0x30 g d a b)
  | .ksub g d a b => some (encK2 0x31 g d a b)
  | .kmul g d a b => some (encK2 0x32 g d a b)
  | .kand g d a b => some (encK2 0x33 g d a b)
  | .kor g d a b => some (encK2 0x34 g d a b)
  | .kxor g d a b => some (encK2 0x35 g d a b)
  | .kshl g d a b => some (encK2 0x36 g d a b)
  | .kshr g d a b => some (encK2 0x37 g d a b)
  | .kmov g t d a => some ((({ enc0 0x38 g with ty := tyOptCode t }).kd d).srcA a)
  | .kmovi g t d x => some ((({ enc0 0x39 g with ty := tyOptCode t }).kd d).srcA (.imm x))
  | .kset g t d c a b => some (((({ enc0 0x3A g with ty := tyOptCode t, mod := c.code }).kd d).srcA a).srcB b)
  | .ksel g d a b c => some ((encK2 0x3B g d a b).srcC c)
  | .vtok g t d a b => some (((({ enc0 0x3C g with ty := t.code }).kd d).srcA a).srcB b)
  | .ktov g t d a => some (encV1 0x3D g t d a)
  | .plog g p a b t => some { (enc0 0x40 g).pd p with a := predField a, b := predField b, mod := t }
  | .vote g (.ballot k) a => some { (enc0 0x41 g).kd k with a := predField a }
  | .vote g (.any p) a => some { (enc0 0x41 g).pd p with a := predField a, sub := 1 }
  | .vote g (.all p) a => some { (enc0 0x41 g).pd p with a := predField a, sub := 2 }
  | .getx g d => some ((enc0 0x42 g).kd d)
  | .setx g a => some ((enc0 0x43 g).srcA a)
  | .lshift g t d a b c up => some { encV3 0x44 g t d a b c with sub := 0#5 ++ BitVec.ofBool up }
  | .lswz g t d a b => some (encV2 0x45 g t d a b)
  | .lperm g t d a b => some (encV2 0x46 g t d a b)
  | .lbcast g t d a b => some (encV2 0x47 g t d a b)
  | .lred g op t d a => some { encV1 0x48 g t d a with sub := op.code }
  | .xch g t d a b => some { encV1 0x49 g t d a with b := kField b }
  | .fadd g t r s d a b => some (encF 0x50 g t r s d a b)
  | .fsub g t r s d a b => some (encF 0x51 g t r s d a b)
  | .fmul g t r s d a b => some (encF 0x52 g t r s d a b)
  | .ffma g t r s d a b c => some ((encF 0x53 g t r s d a b).srcC c)
  | .fmin g t d a b => some (encV2 0x54 g t d a b)
  | .fmax g t d a b => some (encV2 0x55 g t d a b)
  | .fset g t p c a b => some (((({ enc0 0x56 g with ty := t.code, mod := c.code }).pd p).srcA a).srcB b)
  | .frcp g t d a => some (encV1 0x57 g t d a)
  | .frsq g t d a => some (encV1 0x58 g t d a)
  | .fsqrt g t r d a => some { encV1 0x59 g t d a with mod := r.mod }
  | .fexp2 g t d a => some (encV1 0x5A g t d a)
  | .flog2 g t d a => some (encV1 0x5B g t d a)
  | .fsin g t d a => some (encV1 0x5C g t d a)
  | .fcos g t d a => some (encV1 0x5D g t d a)
  | .fscale g t r d a b => some { encV2 0x5E g t d a b with mod := r.mod }
  | .fclass g t (.code d) a => some (encV1 0x5F g t d a)
  | .fclass g t (.test p b) a => some (((({ enc0 0x5F g with ty := t.code }).pd p).srcA a).srcB b)
  | .fdot2 g t r s d a b c => some ((encF 0x60 g t r s d a b).srcC c)
  | .fred g op t r d a => some { encV1 0x61 g t d a with mod := r.mod, sub := op.code }
  | .fcvt g dt st hi r d a b =>
    let e := { encV1 0x70 g dt d a with mod := r.mod, sub := 0#1 ++ BitVec.ofBool hi ++ st.code }
    some (match b with | none => e | some b => e.srcB b)
  | .ftoi g dt st r d a => some { encV1 0x71 g dt d a with mod := r.mod, sub := 0#2 ++ st.code }
  | .itof g dt st r d a => some { encV1 0x72 g dt d a with mod := r.mod, sub := 0#2 ++ st.code }
  | .narrow g dt d a b => some { encV2 0x73 g dt d a b with sub := 0#2 ++ Ty.f32.code }
  | .ld g t o sc slk d m => some ((encM 0x80 g t o sc slk m).dst d)
  | .st g t o sc slk m c => some { encM 0x81 g t o sc slk m with c := c.field }
  | .ldu g t o sc slk d m => some ((encM 0x82 g t o sc slk m).dst d)
  | .ldl g t o sc slk d m => some ((encM 0x83 g t o sc slk m).dst d)
  | .stl g t o sc slk m c => some { encM 0x84 g t o sc slk m with c := c.field }
  | .ldc g t slk d w b x =>
    some { (enc0 0x85 g).dst d with len := 2, ty := t.code, x := slk, sub := 0#3 ++ w, b := b.field, x1 := x }
  | .atom g op t loc o sc slk d m c e =>
    let m' := { (encM 0x86 g t o sc slk m).dst d with c := c.field, mod := BitVec.ofBool loc ++ op.code }
    some (match e with | none => m' | some e => { m' with len := 3, x2 := 0#24 ++ e.field })
  | .red g op t loc o sc slk m c =>
    some { encM 0x87 g t o sc slk m with c := c.field, mod := BitVec.ofBool loc ++ op.code }
  | .poll g t cmp o sc slk d m c => some { (encM 0x88 g t o sc slk m).dst d with c := c.field, mod := cmp.code }
  | .fence g o sc slk => some { enc0 0x89 g with x := slk, sub := o.code ++ sc.code }
  | .pref g t l2 slk m => some { encM 0x8A g t .none .lane slk m with mod := 0#3 ++ BitVec.ofBool l2 }
  | .discard g slk a => some { enc0 0x8B g with x := slk, a := kField a }
  | .waitc g l s c t => some { enc0 0x8C g with len := 2, x1 := t ++ c ++ s ++ l }
  | .cpy g f kh a b c => some (encC 0xA0 g f kh a b c 0 0)
  | .cpg g f kh a b c d len => some (encC 0xA1 g f kh a b c d.field (0#16 ++ len))
  | .cpm g f kh a b c d => some (encC 0xA2 g f kh a b c d.field 0)
  | .cpyr g t f kh a b c => some { encC 0xA3 g f kh a b c 0 0 with ty := t.code }
  | .cpyo g f kh a b c d => some (encC 0xA4 g f kh a b c d.field 0)
  | .cpya g f kh a b c d => some (encC 0xA5 g f kh a b c d.field 0)
  | .qfence g m => some { enc0 0xA6 g with sub := 0#2 ++ m }
  | .join g d a => some ((enc0 0xA7 g).kd d |>.srcA a)
  | .test g p a => some ((enc0 0xA8 g).pd p |>.srcA a)
  | .cancel g d a => some ((enc0 0xA9 g).kd d |>.srcA a)
  | .waitany g d a => some ((enc0 0xAA g).kd d |>.srcA a)
  | .waitall g d a => some ((enc0 0xAB g).kd d |>.srcA a)
  | .ffr g d a => some ((enc0 0xAC g).kd d |>.srcA a)
  | .oclaim g d a => some ((enc0 0xB0 g).kd d |>.srcA a)
  | .orel g a b => some { enc0 0xB1 g with a := a.field, b := b.field }
  | .aclaim g d a => some ((enc0 0xB2 g).kd d |>.srcA a)
  | .arel g a b => some { enc0 0xB3 g with a := a.field, b := b.field }
  | .mloop g fa fb prio kh kt ka kb n ia ib mode =>
    let mm : BitVec 2 := match mode with | .plain => 0 | .tri _ _ => 1
    let mc : BitVec 2 := match mode with | .plain => 0 | .tri _ .zero => 0 | .tri _ .ninf => 1 | .tri _ (.kval _) => 2
    let sd : BitVec 8 := match mode with | .plain => 0 | .tri kg _ => kg.field
    let se : BitVec 8 := match mode with | .tri _ (.kval kv) => kv.field | _ => 0
    some { (enc0 0xB4 g).kd kh with
      len := 3, ty := fa.code, sub := prio ++ 0#4, a := kt.field, b := ka.field, c := kb.field,
      x1 := 0#4 ++ mc ++ mm ++ fb.code ++ ib ++ ia ++ n, x2 := 0#16 ++ se ++ sd }
  | .mzero g prio kh kt => some { (enc0 0xB5 g).kd kh with a := kt.field, sub := prio ++ 0#4 }
  | .mrowsc g prio kh kt ka => some { (enc0 0xB6 g).kd kh with a := kt.field, b := ka.field, sub := prio ++ 0#4 }
  | .bar g lv n sc => some (encBar 0xC0 g lv n sc)
  | .arrive g lv n sc d c => some (((encBar 0xC1 g lv n sc).kd d).srcA c)
  | .await g lv n sc q => some ((encBar 0xC2 g lv n sc).srcA q)
  | .yield g => some (enc0 0xC3 g)
  | .mfs g d r => some { (enc0 0xC4 g).kd d with sub := r.code }
  | .mts g r a => some { (enc0 0xC5 g).srcA a with sub := r.code }
  | .mode g a b => some (((enc0 0xC6 g).srcA a).srcB b)
  | .qxfer g d a n => some { ((enc0 0xC7 g).kd d).srcA a with mod := n }
  | .trap g n => some { enc0 0xC8 g with sub := n }
  | .rft g => some (enc0 0xC9 g)
  | .snap g d => some ((enc0 0xCA g).kd d)
  | .brk g n => some { enc0 0xCB g with sub := n }
  | .launch g gr early d a =>
    some { (enc0 0xCC g).kd d with a := kField a, sub := BitVec.ofBool gr ++ BitVec.ofBool early ++ 0#4 }
  | _ => none

/-- The words of an instruction; none for an event. -/
def encode (i : Instr) : Option (List W32) := (encodeFields i).map Enc.words

/-! Decoding. The readers take a field's low bits; the comparison with the encoding refuses any other bit. -/

def Enc.g (e : Enc) : Guard := Guard.ofBits e.guard
def Enc.t (e : Enc) : Ty := Ty.ofCode e.ty
def Enc.tOpt (e : Enc) : Option Ty := if e.ty = 0 then none else some e.t
def Enc.st (e : Enc) : Ty := Ty.ofCode (e.sub.extractLsb' 0 4)
def Enc.k (e : Enc) : BitVec 5 := e.didx.extractLsb' 0 5
def Enc.p (e : Enc) : BitVec 3 := e.didx.extractLsb' 0 3
def Enc.ka (e : Enc) : BitVec 5 := e.a.extractLsb' 0 5
def Enc.pa (e : Enc) : BitVec 3 := e.a.extractLsb' 0 3
def Enc.r (e : Enc) : Rnd := Rnd.ofCode (e.mod.extractLsb' 0 2)
def Enc.o (e : Enc) : Ord := Ord.ofCode (e.sub.extractLsb' 4 2)
def Enc.sc (e : Enc) : Option Scope := Scope.ofCode (e.sub.extractLsb' 0 4)
def Enc.cmp (e : Enc) : Option Cmp := Cmp.ofCode e.mod
def Enc.op (e : Enc) : AtomOp := AtomOp.ofCode (e.mod.extractLsb' 0 3)
def Enc.prio (e : Enc) : BitVec 2 := e.sub.extractLsb' 4 2

def Enc.d (e : Enc) : Option Dst :=
  match e.dlev.toNat with
  | 0 => some (.v e.k)
  | 1 => some (.o e.p)
  | 2 => some (.vo e.p)
  | _ => none

/-- Source at place `n` with field `f`: X1 where `XS` names it (R84). -/
def Enc.src (e : Enc) (n : BitVec 2) (f : BitVec 8) : Option Src :=
  if e.x.extractLsb' 2 2 = n then srcOfExt (e.x.extractLsb' 0 2) e.x1 else srcOfField f

def Enc.sA (e : Enc) : Option Src := e.src 1 e.a
def Enc.sB (e : Enc) : Option Src := e.src 2 e.b
def Enc.sC (e : Enc) : Option Src := e.src 3 e.c

def Enc.addr (e : Enc) : Option Addr := do some ⟨e.ka, ← srcOfField e.b, e.x1⟩

def Enc.copyF (e : Enc) : Option CopyF := do
  some ⟨e.prio, ← e.sc, e.x, e.x1.getLsbD 8, e.x1.getLsbD 9, e.x1.getLsbD 10⟩

def Enc.dF (e : Enc) : Option Src := srcOfField (e.x1.extractLsb' 0 8)

def Enc.mmode (e : Enc) : Option MMode :=
  let sd := e.x2.extractLsb' 0 8
  let se := e.x2.extractLsb' 8 8
  match (e.x1.extractLsb' 24 2).toNat, (e.x1.extractLsb' 26 2).toNat with
  | 0, 0 => some .plain
  | 1, 0 => do some (.tri (← srcOfField sd) .zero)
  | 1, 1 => do some (.tri (← srcOfField sd) .ninf)
  | 1, 2 => do some (.tri (← srcOfField sd) (.kval (← srcOfField se)))
  | _, _ => none

def Enc.v1 (e : Enc) (f : Guard → Ty → Dst → Src → Instr) : Option Instr := do some (f e.g e.t (← e.d) (← e.sA))
def Enc.v2 (e : Enc) (f : Guard → Ty → Dst → Src → Src → Instr) : Option Instr := do
  some (f e.g e.t (← e.d) (← e.sA) (← e.sB))
def Enc.v3 (e : Enc) (f : Guard → Ty → Dst → Src → Src → Src → Instr) : Option Instr := do
  some (f e.g e.t (← e.d) (← e.sA) (← e.sB) (← e.sC))
def Enc.k2 (e : Enc) (f : Guard → BitVec 5 → Src → Src → Instr) : Option Instr := do
  some (f e.g e.k (← e.sA) (← e.sB))
def Enc.f2 (e : Enc) (f : Guard → Ty → Rnd → Bool → Dst → Src → Src → Instr) : Option Instr := do
  some (f e.g e.t e.r (e.mod.getLsbD 2) (← e.d) (← e.sA) (← e.sB))
def Enc.f3 (e : Enc) (f : Guard → Ty → Rnd → Bool → Dst → Src → Src → Src → Instr) : Option Instr := do
  some (f e.g e.t e.r (e.mod.getLsbD 2) (← e.d) (← e.sA) (← e.sB) (← e.sC))
def Enc.h1 (e : Enc) (f : Guard → BitVec 5 → Src → Instr) : Option Instr := do some (f e.g e.k (← e.sA))

/-- The control instructions (R112). -/
def decodeControl (e : Enc) : Option Instr :=
  match e.opc.toNat with
  | 0x00 => some (.nop e.g)
  | 0x01 => some (.bra e.g e.x1 e.x2)
  | 0x02 => do some (.bru (e.ty != 0) (← e.cmp) (← srcOfField e.a) (← srcOfField e.b) e.x1)
  | 0x03 => if e.sub.getLsbD 0 then some (.bpend (.pred e.pa) e.x1) else do some (.bpend (.reg (← srcOfField e.a)) e.x1)
  | 0x04 => some (.call e.g (e.mod.extractLsb' 0 2) e.x1)
  | 0x05 => some (.calli e.g (e.mod.extractLsb' 0 2) e.ka)
  | 0x06 => some (.ret e.g)
  | 0x07 => some (.loopk e.ka e.x1)
  | 0x08 => some (.exit e.g)
  | _ => none

/-- The vector integer instructions (R102). -/
def decodeInt (e : Enc) : Option Instr :=
  match e.opc.toNat with
  | 0x10 => e.v2 .iadd
  | 0x11 => e.v2 .isub
  | 0x12 => e.v2 .imul
  | 0x13 => e.v2 .imulh
  | 0x14 => e.v3 .imad
  | 0x15 => e.v2 .imin
  | 0x16 => e.v2 .imax
  | 0x17 => e.v1 .iabs
  | 0x18 => e.v1 .ineg
  | 0x19 => e.v3 .addmin
  | 0x1A => e.v3 .addmax
  | 0x1B => e.v2 (fun g t d a b => .ilea g t d a b e.mod)
  | 0x1C => e.v2 .and
  | 0x1D => e.v2 .or
  | 0x1E => e.v2 .xor
  | 0x1F => e.v2 .andn
  | 0x20 => e.v1 .not
  | 0x21 => e.v2 .shl
  | 0x22 => e.v2 .shr
  | 0x23 => e.v2 .sar
  | 0x24 => e.v2 (fun g t d a b => .rot g t d a b (e.sub.getLsbD 0))
  | 0x25 => e.v1 .clz
  | 0x26 => e.v1 .popc
  | 0x27 => e.v1 .brev
  | 0x28 => e.v2 .bfx
  | 0x29 => e.v3 .bfi
  | 0x2A => e.v2 (fun g t d a b => .sel g t d a b (e.c.extractLsb' 0 3))
  | 0x2B => e.v1 .mov
  | 0x2C => do some (.movi e.g e.t (← e.d) e.x1)
  | 0x2D => do some (.iset e.g e.t e.p (← e.cmp) (← e.sA) (← e.sB))
  | 0x2E => do some (.icvt e.g e.t e.st (← e.d) (← e.sA) (e.mod.getLsbD 0))
  | _ => none

/-- The uniform instructions (R105). -/
def decodeUniform (e : Enc) : Option Instr :=
  match e.opc.toNat with
  | 0x30 => e.k2 .kadd
  | 0x31 => e.k2 .ksub
  | 0x32 => e.k2 .kmul
  | 0x33 => e.k2 .kand
  | 0x34 => e.k2 .kor
  | 0x35 => e.k2 .kxor
  | 0x36 => e.k2 .kshl
  | 0x37 => e.k2 .kshr
  | 0x38 => do some (.kmov e.g e.tOpt e.k (← e.sA))
  | 0x39 => some (.kmovi e.g e.tOpt e.k e.x1)
  | 0x3A => do some (.kset e.g e.tOpt e.k (← e.cmp) (← e.sA) (← e.sB))
  | 0x3B => do some (.ksel e.g e.k (← e.sA) (← e.sB) (← e.sC))
  | 0x3C => do some (.vtok e.g e.t e.k (← e.sA) (← e.sB))
  | 0x3D => e.v1 .ktov
  | _ => none

/-- Predicates, mask and lane movement (R106 to R111). -/
def decodeLane (e : Enc) : Option Instr :=
  match e.opc.toNat with
  | 0x40 => some (.plog e.g e.p e.pa (e.b.extractLsb' 0 3) e.mod)
  | 0x41 =>
    (match e.sub.toNat with
     | 0 => some (.vote e.g (.ballot e.k) e.pa)
     | 1 => some (.vote e.g (.any e.p) e.pa)
     | 2 => some (.vote e.g (.all e.p) e.pa)
     | _ => none)
  | 0x42 => some (.getx e.g e.k)
  | 0x43 => do some (.setx e.g (← e.sA))
  | 0x44 => e.v3 (fun g t d a b c => .lshift g t d a b c (e.sub.getLsbD 0))
  | 0x45 => e.v2 .lswz
  | 0x46 => e.v2 .lperm
  | 0x47 => e.v2 .lbcast
  | 0x48 => do some (.lred e.g (← RedOp.ofCode e.sub) e.t (← e.d) (← e.sA))
  | 0x49 => do some (.xch e.g e.t (← e.d) (← e.sA) (e.b.extractLsb' 0 5))
  | _ => none

/-- Floating point and conversions (R159). -/
def decodeFloat (e : Enc) : Option Instr :=
  match e.opc.toNat with
  | 0x50 => e.f2 .fadd
  | 0x51 => e.f2 .fsub
  | 0x52 => e.f2 .fmul
  | 0x53 => e.f3 .ffma
  | 0x54 => e.v2 .fmin
  | 0x55 => e.v2 .fmax
  | 0x56 => do some (.fset e.g e.t e.p (← e.cmp) (← e.sA) (← e.sB))
  | 0x57 => e.v1 .frcp
  | 0x58 => e.v1 .frsq
  | 0x59 => do some (.fsqrt e.g e.t e.r (← e.d) (← e.sA))
  | 0x5A => e.v1 .fexp2
  | 0x5B => e.v1 .flog2
  | 0x5C => e.v1 .fsin
  | 0x5D => e.v1 .fcos
  | 0x5E => do some (.fscale e.g e.t e.r (← e.d) (← e.sA) (← e.sB))
  | 0x5F =>
    if e.dlev = 3 then do some (.fclass e.g e.t (.test e.p (← e.sB)) (← e.sA))
    else do some (.fclass e.g e.t (.code (← e.d)) (← e.sA))
  | 0x60 => e.f3 .fdot2
  | 0x61 => do some (.fred e.g (← FRedOp.ofCode e.sub) e.t e.r (← e.d) (← e.sA))
  | 0x70 => do
    let b ← if e.t.isPacked then e.sB.map some else some none
    some (.fcvt e.g e.t e.st (e.sub.getLsbD 4) e.r (← e.d) (← e.sA) b)
  | 0x71 => do some (.ftoi e.g e.t e.st e.r (← e.d) (← e.sA))
  | 0x72 => do some (.itof e.g e.t e.st e.r (← e.d) (← e.sA))
  | 0x73 => e.v2 .narrow
  | _ => none

/-- Memory, atomic and waiting instructions (R243). -/
def decodeMem (e : Enc) : Option Instr :=
  match e.opc.toNat with
  | 0x80 => do some (.ld e.g e.t e.o (← e.sc) e.x (← e.d) (← e.addr))
  | 0x81 => do some (.st e.g e.t e.o (← e.sc) e.x (← e.addr) (← srcOfField e.c))
  | 0x82 => do some (.ldu e.g e.t e.o (← e.sc) e.x (← e.d) (← e.addr))
  | 0x83 => do some (.ldl e.g e.t e.o (← e.sc) e.x (← e.d) (← e.addr))
  | 0x84 => do some (.stl e.g e.t e.o (← e.sc) e.x (← e.addr) (← srcOfField e.c))
  | 0x85 => do some (.ldc e.g e.t e.x (← e.d) (e.sub.extractLsb' 0 3) (← srcOfField e.b) e.x1)
  | 0x86 => do
    let d4 ← if e.len = 3 then (srcOfField (e.x2.extractLsb' 0 8)).map some else some none
    some (.atom e.g e.op e.t (e.mod.getLsbD 3) e.o (← e.sc) e.x (← e.d) (← e.addr) (← srcOfField e.c) d4)
  | 0x87 => do some (.red e.g e.op e.t (e.mod.getLsbD 3) e.o (← e.sc) e.x (← e.addr) (← srcOfField e.c))
  | 0x88 => do some (.poll e.g e.t (← e.cmp) e.o (← e.sc) e.x (← e.d) (← e.addr) (← srcOfField e.c))
  | 0x89 => do some (.fence e.g e.o (← e.sc) e.x)
  | 0x8A => do some (.pref e.g e.t (e.mod.getLsbD 0) e.x (← e.addr))
  | 0x8B => some (.discard e.g e.x e.ka)
  | 0x8C => some (.waitc e.g (e.x1.extractLsb' 0 8) (e.x1.extractLsb' 8 8) (e.x1.extractLsb' 16 8) (e.x1.extractLsb' 24 8))
  | _ => none

/-- Engine commands, handles, claims and tile operations (R178, R183, R192, R201). -/
def decodeEngine (e : Enc) : Option Instr :=
  match e.opc.toNat with
  | 0xA0 => do some (.cpy e.g (← e.copyF) e.k (← srcOfField e.a) (← srcOfField e.b) (← srcOfField e.c))
  | 0xA1 => do
    some (.cpg e.g (← e.copyF) e.k (← srcOfField e.a) (← srcOfField e.b) (← srcOfField e.c) (← e.dF) (e.x2.extractLsb' 0 16))
  | 0xA2 => do some (.cpm e.g (← e.copyF) e.k (← srcOfField e.a) (← srcOfField e.b) (← srcOfField e.c) (← e.dF))
  | 0xA3 => do some (.cpyr e.g e.t (← e.copyF) e.k (← srcOfField e.a) (← srcOfField e.b) (← srcOfField e.c))
  | 0xA4 => do some (.cpyo e.g (← e.copyF) e.k (← srcOfField e.a) (← srcOfField e.b) (← srcOfField e.c) (← e.dF))
  | 0xA5 => do some (.cpya e.g (← e.copyF) e.k (← srcOfField e.a) (← srcOfField e.b) (← srcOfField e.c) (← e.dF))
  | 0xA6 => some (.qfence e.g (e.sub.extractLsb' 0 4))
  | 0xA7 => e.h1 .join
  | 0xA8 => do some (.test e.g e.p (← e.sA))
  | 0xA9 => e.h1 .cancel
  | 0xAA => e.h1 .waitany
  | 0xAB => e.h1 .waitall
  | 0xAC => e.h1 .ffr
  | 0xB0 => e.h1 .oclaim
  | 0xB1 => do some (.orel e.g (← srcOfField e.a) (← srcOfField e.b))
  | 0xB2 => e.h1 .aclaim
  | 0xB3 => do some (.arel e.g (← srcOfField e.a) (← srcOfField e.b))
  | 0xB4 => do
    some (.mloop e.g e.t (Ty.ofCode (e.x1.extractLsb' 20 4)) e.prio e.k (← srcOfField e.a) (← srcOfField e.b)
      (← srcOfField e.c) (e.x1.extractLsb' 0 12) (e.x1.extractLsb' 12 4) (e.x1.extractLsb' 16 4) (← e.mmode))
  | 0xB5 => do some (.mzero e.g e.prio e.k (← srcOfField e.a))
  | 0xB6 => do some (.mrowsc e.g e.prio e.k (← srcOfField e.a) (← srcOfField e.b))
  | _ => none

/-- Synchronisation and system instructions (R118 to R128, R331). -/
def decodeSys (e : Enc) : Option Instr :=
  match e.opc.toNat with
  | 0xC0 => do some (.bar e.g (← BarLevel.ofCode e.prio) e.mod (← e.sc))
  | 0xC1 => do some (.arrive e.g (← BarLevel.ofCode e.prio) e.mod (← e.sc) e.k (← e.sA))
  | 0xC2 => do some (.await e.g (← BarLevel.ofCode e.prio) e.mod (← e.sc) (← e.sA))
  | 0xC3 => some (.yield e.g)
  | 0xC4 => do some (.mfs e.g e.k (← SysReg.ofCode e.sub))
  | 0xC5 => do some (.mts e.g (← SysReg.ofCode e.sub) (← e.sA))
  | 0xC6 => do some (.mode e.g (← e.sA) (← e.sB))
  | 0xC7 => do some (.qxfer e.g e.k (← e.sA) e.mod)
  | 0xC8 => some (.trap e.g e.sub)
  | 0xC9 => some (.rft e.g)
  | 0xCA => some (.snap e.g e.k)
  | 0xCB => some (.brk e.g e.sub)
  | 0xCC => some (.launch e.g (e.sub.getLsbD 5) (e.sub.getLsbD 4) e.k e.ka)
  | _ => none

/-- The instruction the fields name, by the high nibble of the opcode (R96); none for an unassigned opcode. -/
def decodeFields (e : Enc) : Option Instr :=
  match (e.opc.extractLsb' 4 4).toNat with
  | 0x0 => decodeControl e
  | 0x1 | 0x2 => decodeInt e
  | 0x3 => decodeUniform e
  | 0x4 => decodeLane e
  | 0x5 | 0x6 | 0x7 => decodeFloat e
  | 0x8 => decodeMem e
  | 0xA | 0xB => decodeEngine e
  | 0xC => decodeSys e
  | _ => none

/-- The decoder (R74, R97): the instruction whose words these are, or none for an illegal sequence. -/
def decodeWords (ws : List W32) : Option Instr := do
  let e ← Enc.ofWords ws
  let i ← decodeFields e
  if i.wf && encode i == some ws then some i else none

/-- Bytes of an instruction from the length bits of its first word (R73); 0 where bits [1:0] are 0b00. -/
def lenOf (w : W32) : Nat :=
  match (w.extractLsb' 0 2).toNat with
  | 0 => 0
  | n => 4 + 4 * n

/-- The pad word (R74). -/
def padWord : W32 := 0xFFFFFFFC#32

/-- Four little-endian bytes as a word (R3). -/
def word32 (b : List Byte) : W32 := (b.getD 3 0) ++ (b.getD 2 0) ++ (b.getD 1 0) ++ (b.getD 0 0)

/-- A word as four little-endian bytes (R3). -/
def bytes32 (w : W32) : List Byte :=
  [w.extractLsb' 0 8, w.extractLsb' 8 8, w.extractLsb' 16 8, w.extractLsb' 24 8]

/-- The whole words of a byte sequence. -/
def wordsOf (n : Nat) (b : List Byte) : List W32 := (List.range n).map fun i => word32 (b.drop (4 * i))

/-- What stands at an instruction start within a fetch block (R74): a pad, an illegal sequence, or an instruction of `n`
bytes. -/
inductive Fetched where
  | pad
  | illegal
  | instr (i : Instr) (n : Nat)
deriving DecidableEq, Repr

/-- Decode at offset `off` of a 32-byte fetch block (R74). -/
def decodeAt (block : List Byte) (off : Nat) : Fetched :=
  let w := word32 (block.drop off)
  let n := lenOf w
  if n = 0 then (if w = padWord then .pad else .illegal)
  else if 32 < off + n then .illegal
  else match decodeWords (wordsOf (n / 4) (block.drop off)) with
    | some i => .instr i n
    | none => .illegal

/-- The words of an instruction given as one number, bit 0 the least significant bit of the first word; how many, its first
word says (R73). -/
def tableWords (w : Nat) : List W32 :=
  (List.range (lenOf (BitVec.ofNat 32 w) / 4)).map fun i => BitVec.ofNat 32 (w >>> (32 * i))

/-- The instruction the decoder reads from an instruction whose bits are `w` (bits above `nbits` zero). -/
def decodeTableWord (nbits w : Nat) : Option Instr := decodeWords (tableWords (w % 2 ^ nbits))

end Sys2Proof
end

