-- ==== Sys2Proof/Machine/State.lean ====
section
/-!
DEFINITION. The state of one Narvos 9440: every piece of state the manual names, as plain data. Large stores are sparse tables
(`Tab`); an absent key reads as the value given where the store is read. Physical bytes and every other table with a default
are kept in the canonical form of `Machine/Tab.lean`.
-/

namespace Sys2Proof.Machine

/-! ## Groups -/

/-- A place a lane's value is written: a stack position (R43), an operand-file register, `lat`, or a predicate. -/
inductive Loc where
  | v (pos : Nat)
  | o (i : Nat)
  | lat
  | p (i : Nat)
deriving DecidableEq, Repr

/-- A pending location of a lane (R58): the writes not yet landed that own it, youngest first, each with the location of its
own destination whose value it brings (for `lat` of an inactive lane this is the destination's, R54). -/
structure Pend where
  lane : Nat
  loc : Loc
  owners : List (Nat × Loc)
deriving DecidableEq, Repr

/-- A source of a residual entry (R61): the register it was read from, if one (the low one of a pair), values captured per lane,
the lanes whose captured word is poisoned, and what is still awaited: lane, high half, the write and the location it brings. -/
structure Cap where
  reg : Option Loc
  vals : Tab W64
  bad : Lanes
  await : List (Nat × Bool × Nat × Loc)
deriving DecidableEq, Repr

/-- A residual entry (R61, R350). `caps` are its sources A to D; `olds` are the old values of its destination, captured where
its guard was pending; `after` lists the older entries it must follow in memory order (R63, R64). -/
structure Resid where
  id : Nat
  arm : Nat
  pc : W64
  instr : Instr
  words : List W32
  mask : Lanes
  gcap : Option Cap
  caps : List Cap
  olds : List Cap
  wb : Tab Nat
  after : List Nat
  failed : Bool
  done : Bool
  result : Tab W64
deriving DecidableEq, Repr

/-- A trap raised and not yet taken (R123, R124). -/
structure TrapReq where
  cause : Byte
  detail : Byte
  tpc : W64
  taddr : Option W64
  resume : W64
  entry : Option Nat
deriving DecidableEq, Repr

/-- What a path that executes an instruction of several steps has reached in it. -/
inductive Prog where
  | none
  | phase (q : W32)
  | acc (id : Nat)
  | ticket (id : Nat)
  | stage (n : Nat)
  | join (tag gen : Nat) (d : BitVec 5)
  | mask (m : W64)
  | launch (tag gen mark : Nat)
  | asked (lo hi n : Nat) (bad : Option Nat)
deriving DecidableEq, Repr

/-- Status of a path (R23, R30, R37): ready, parked, in a recognised wait whose timer expires at `due` (none with the timer off),
in a wait that is not recognised, or waiting at the reconvergence point of the topmost divergence. -/
inductive PStat where
  | ready
  | parked
  | waiting (due : Option Nat)
  | held
  | atRecon
deriving DecidableEq, Repr

/-- A side that is not running: deferred by a branch, parked at its reconvergence point, or set aside by rotation together
with the entries above it and with what its wait has reached (R31, R39). -/
structure Side where
  pc : W64
  lanes : Lanes
  stack : List Nat
  prog : Prog
deriving DecidableEq, Repr

/-- A divergence-stack entry (R31). `second` is set while the second half is under way: the other side stands at the
reconvergence PC. `spill` is its position in the spill area, if it is spilled (R32, R48). -/
structure DivE where
  recon : W64
  other : Side
  second : Bool
  spill : Option Nat
deriving DecidableEq, Repr

/-- A path: a converged group, or one arm of a diverged one, with its running side and its divergence stack, topmost entry
first, by entry number; numbers rise with age (R30 to R32). It is not ready before time `rest` (R119). -/
structure Path where
  pc : W64
  lanes : Lanes
  st : PStat
  stack : List Nat
  ents : Tab DivE
  last : Nat
  prog : Prog
  trap : Option TrapReq
  late : Option W64
  rest : Nat
deriving DecidableEq, Repr

/-- What an outstanding access of a group is (R242). -/
inductive AccKind where
  | load | store | atom | red | poll | exch | const
deriving DecidableEq, Repr

/-- What a memory instruction addresses: global memory, local memory, or a constant window (R243). -/
inductive Space where
  | glob
  | loc
  | win (w : BitVec 3)
deriving DecidableEq, Repr

/-- An outstanding access (R59, R264, R267): its destination, the lanes not yet answered, the values that have come, the lanes
that failed with their addresses, poisoned lanes, its orders, and the residual entry that issued it, which stays in the file
until the access ends. -/
structure Access where
  id : Nat
  arm : Nat
  pc : W64
  kind : AccKind
  space : Space
  ty : Ty
  scope : Scope
  acq : Bool
  rel : Bool
  lanes : Lanes
  waits : Lanes
  dst : Option Dst
  wb : Tab Nat
  vals : Tab W64
  bad : Lanes
  fails : Tab W64
  cause : Byte
  entry : Option Resid
  addrs : Tab W64
  cmp : Cmp
  cvals : Tab W64
  slk : BitVec 4
deriving DecidableEq, Repr

/-- A group waiting in `XCH` (R111). -/
structure XchRec where
  id : Nat
  arm : Nat
  partner : Nat
  tag : W16
  ty : Ty
  dst : Dst
  active : Lanes
  vals : Tab W64
deriving DecidableEq, Repr

/-- The trap a group is in (R125, R126): the trapping arm, whether the group had another path then, its running side's lanes at entry, the
frame, the resume point, the interrupted wait's progress, the writes that a pending `lat` still awaits, and the residual entries as saved,
which keep the writes they await (R69). -/
structure InTrap where
  arm : Nat
  other : Bool
  lanes : Lanes
  frame : Nat
  resume : W64
  cause : Byte
  gctl : W64
  prog : Prog
  lat : Cap
  saved : List Resid
deriving DecidableEq, Repr

/-- A group (R9, R44, R53). `owed` is the address of a late access whose trap the first path to reach a boundary takes (R309); `poisonAt`
gives the addresses of poisoned words that have landed in its registers (R353). -/
structure Group where
  launch : Nat
  block : Nat
  grp : Nat
  v : Tab W32
  o : Tab W32
  lat : Tab W32
  k : Tab W64
  p : Tab Lanes
  base : Tab Nat
  floor : Tab Nat
  exm : Lanes
  exited : Lanes
  gctl : W64
  tvec : W64
  tcause : W64
  tpc : W64
  taddr : W64
  late : Nat
  quota : Nat
  arms : List Path
  recon : W64
  nextEnt : Nat
  resid : List Resid
  pend : List Pend
  poison : List (Nat × Loc)
  accs : List Access
  xch : List XchRec
  inTrap : Option InTrap
  preempt : Option Nat
  owed : Option W64
  poisonAt : List (Nat × Loc × Nat)
deriving DecidableEq, Repr

/-! ## Blocks, gangs, launches -/

/-- A hardware barrier (R25 to R27): phase, arrival count, the member groups that have arrived in this phase, and how many of
those have ended since. -/
structure Barrier where
  phase : W32
  count : Nat
  arrived : List Nat
  ghosts : Nat
deriving DecidableEq, Repr

/-- A block (R9, R11, R24): its place, its local memory region in its core, its groups by device slot, those of them that have not ended
(`live`), its block barriers, whether it has ended, and up to when its domain's budget has been charged for it (R335). -/
structure Block where
  launch : Nat
  lin : Nat
  x : Nat
  y : Nat
  z : Nat
  core : Nat
  gang : Nat
  gblk : Nat
  lbase : Nat
  lsize : Nat
  groups : List Nat
  live : List Nat
  bars : Tab Barrier
  ended : Bool
  paid : Nat
deriving DecidableEq, Repr

/-- A gang (R9, R18, R19): its launch, its index there, its quad, its resident blocks, and its gang barriers (R25). -/
structure Gang where
  launch : Nat
  index : Nat
  quad : Nat
  blocks : List Nat
  bars : Tab Barrier
deriving DecidableEq, Repr

/-- The fields of a launch record (R325). -/
structure LRec where
  entry : W64
  tvec : W64
  spbase : W64
  spsize : Nat
  cword : W64
  gnode : W64
  cbase : W64
  nx : Nat
  ny : Nat
  nz : Nat
  ngrp : Nat
  ngang : Nat
  order : Nat
  swz : Nat
  pclass : Nat
  sys : Bool
  quota : Nat
  opp : Nat
  idem : Bool
  lmem : Nat
  slack : List Nat
  cwin : List (Option (Nat × Nat))
deriving DecidableEq, Repr

/-- Who started a launch or graph: a handle of a core, a host write, or another device's `LAUNCH`. -/
inductive Origin where
  | tag (core tag gen : Nat)
  | host
  | peer (src id : Nat)
  | none
deriving DecidableEq, Repr

/-- How far a launch has come. -/
inductive LStat where
  | waiting | admitted | ending | done
deriving DecidableEq, Repr

/-- A launch. `pos` counts blocks placed; `gangsDone` counts gangs retired; `resv` holds the places reserved for the gangs of a
concurrent launch, by gang: the core and first quarter of each block (R21); `redo` lists gangs to place again (R352); `told` are the
other devices, each with a request's id, that hold a launch of its until it has completed (R322). -/
structure Launch where
  serial : Nat
  dom : Nat
  recAddr : Nat
  lr : LRec
  st : LStat
  status : Byte
  origin : Origin
  walk : Option (Nat × Nat)
  early : Bool
  issuer : Nat
  pos : Nat
  gangsDone : Nat
  redo : List Nat
  opWait : Bool
  bars : Tab Barrier
  snap : Nat
  told : List (Nat × Nat)
  coresSeen : List Nat
  resv : Tab (List (Nat × Nat))
deriving DecidableEq, Repr

/-! ## Cores and quads -/

/-- A tag of a core (R197, R199). `gen` is kept while the tag is free; `target` is its command, or the address of the record or
node it launched; `cls` is one more than the class of a launch that has completed (R35). -/
structure Tag where
  gen : Nat
  owner : Option Nat
  block : Nat
  kind : BitVec 2
  done : Bool
  status : W64
  taddr : W64
  graph : Bool
  early : Bool
  target : Nat
  cls : Nat
deriving DecidableEq, Repr

/-- What an engine command does (R183, R185, R193). Operands are as read at issue. -/
inductive CmdKind where
  | cpy (dst src : W64) (len : Nat) (dl sl : Bool)
  | cpg (dst src idx : W64) (count rowLen : Nat) (dl sl il : Bool)
  | cpm (dst : W64) (src : W64) (len : Nat) (mask : W32)
  | cpyr (t : Ty) (dst src : W64) (len : Nat) (sl : Bool)
  | cpyo (a : W64) (slot row count : Nat) (desc : BitVec 256)
  | cpya (a : W64) (tile row count : Nat) (desc : BitVec 256)
  | mloop (fa fb : Ty) (tile sa sb steps ia ib : Nat) (tri : Option (W64 × W32))
  | mzero (tile : Nat)
  | mrowsc (tile : Nat) (a : W64)
deriving DecidableEq, Repr

/-- An engine command (R186, R195, R199), kept until its tag is freed. `lanes` is its path's lane set; `entry` its slack at issue (R303) and
`age` the time of it; `waits` counts the matrix steps it has waited (R181); `after` are the commands it begins behind; `pos` counts what is
done, `room` is what the chunk under way may still write, none being under way at 0 (R186, R335), `row` is a row of `CPG` under way with its
index as read (R195), `got` what a transfer from another device has brought, and where from (R316); `targets` are the blocks a `CPM`
delivers to, by core in the sector, and `dropped` those that missed a beat; `msgs` are messages to other devices not yet completed; it has
`ended` when no access is left to make. -/
structure Cmd where
  kind : CmdKind
  core : Nat
  tag : Nat
  gen : Nat
  block : Nat
  grp : Nat
  arm : Nat
  lanes : Lanes
  launch : Nat
  dom : Nat
  pc : W64
  scope : Scope
  queue : Nat
  entry : Nat
  age : Nat
  prio : Nat
  waits : Nat
  after : List Nat
  begun : Bool
  pos : Nat
  room : Nat
  row : Option (Nat × Nat)
  got : Option (Nat × List Byte)
  targets : List (Nat × Nat)
  dropped : W32
  lateAt : Option W64
  msgs : List Nat
  ended : Bool
  done : Bool
  status : W64
  taddr : W64
deriving DecidableEq, Repr

/-- A path waiting for a tag (R199), for its command or, with none, for its `LAUNCH`: destination register, length in bytes, and
what it launches. -/
structure TagWait where
  id : Nat
  block : Nat
  dom : Nat
  launch : Nat
  grp : Nat
  arm : Nat
  d : BitVec 5
  len : Nat
  cmd : Option Cmd
  graph : Bool
  early : Bool
  target : Nat
deriving DecidableEq, Repr

/-- A core: the turnstile entries of each domain (R225, R333), the `TSGEN` store they were loaded after and a count of their reloads, caches
and the poisoned words of the constant cache (R268), tags, engine queues, slice-map copy (R220), and local memory with the domain each byte
was last held by (R248). `stale` holds, oldest first, what stood where commands have delivered bytes that a reader which has acquired
nothing may not see yet (R269, R298). -/
structure Core where
  ts : Tab (List (BitVec 128))
  tsGen : Tab Nat
  reloads : Tab Nat
  lmem : Tab Byte
  stale : List (Nat × List Byte)
  lown : Tab Nat
  icache : Tab (List Byte)
  ccache : Tab Byte
  cbad : Tab Bool
  tags : Tab Tag
  tagWait : List TagWait
  fences : List (BitVec 4 × List Nat)
  chunks : Nat
  smap : Tab Nat
  smgen : W16
deriving DecidableEq, Repr

/-- A claim waiting to be granted (R179), by a path, for its destination register. -/
structure Claim where
  id : Nat
  block : Nat
  dom : Nat
  grp : Nat
  arm : Nat
  d : BitVec 5
  count : Nat
deriving DecidableEq, Repr

/-- A release waiting for the commands that name its slots or tiles (R179). -/
structure Release where
  id : Nat
  block : Nat
  grp : Nat
  arm : Nat
  tiles : Bool
  first : Nat
  count : Nat
deriving DecidableEq, Repr

/-- An atomic of `.gang` scope on a local word that has been performed for the others of its scope, and stands there once its access lands
(R257): its group and access, the core, the address and the new bytes. -/
structure QAtom where
  grp : Nat
  acc : Nat
  core : Nat
  addr : Nat
  bytes : List Byte
deriving DecidableEq, Repr

/-- A quad (R176 to R181): slot elements, scale bytes, tile elements, claims by block, the domain that last released each, claims and
releases waiting, the reservation table, oldest first, the commands waiting to be posted, and the local atomics under way at `.gang` scope.
-/
structure Quad where
  elems : Tab Byte
  scales : Tab Byte
  tiles : Tab W32
  sOwn : Tab Nat
  tOwn : Tab Nat
  sDom : Tab Nat
  tDom : Tab Nat
  sWait : List Claim
  tWait : List Claim
  rels : List Release
  table : List Nat
  posting : List Nat
  resv : Option Nat
  qau : List QAtom
deriving DecidableEq, Repr

/-! ## Homes and memory -/

/-- An outstanding fault of a home (R209 to R212), and the other devices whose requests have joined it. -/
structure FaultRec where
  seq : Nat
  page : Nat
  peers : List Nat
deriving DecidableEq, Repr

/-- A running clear (R234): the page, its frame's first byte, and which of its 1,024 lines are done. -/
structure Clear where
  page : Nat
  next : Nat
  written : List Nat
deriving DecidableEq, Repr

/-- A logical home (R210, R222, R223, R357). `resolved` remembers how each resolved fault ended. -/
structure Home where
  lix : Nat
  m : Nat
  fq : Nat
  structs : List (BitVec 128)
  faults : List FaultRec
  nextSeq : Nat
  resolved : Tab Bool
  clears : List Clear
  hold : Bool
deriving DecidableEq, Repr

/-- A cached byte: its value, and whether it is owned or dirty (R273, R300, R231). -/
structure CByte where
  val : Byte
  own : Bool
deriving DecidableEq, Repr

/-- Memory below the homes and the copies above it. `phys` is keyed by space * 2^64 + address: spaces 0 to 11 are the HBM stacks
of the sectors, 12 the second tier, 13 host memory (R231). `slice` holds dirty bytes and copies of host lines by virtual
address; `l1` is keyed by core, `rsc` by sector; `bad` marks words with an uncorrectable error by virtual address
over 4; `pols` the policies that lines of the slices were allocated under, by line address (R240), and for a sector's copy 2^64 times its
number plus 1 on; `lru` the lines so named in the order of their last use; `reps` the sectors' copies that are replicas, by sector and line
(R241). -/
structure Mem where
  phys : Tab Byte
  slice : Tab CByte
  l1 : Tab CByte
  rsc : Tab CByte
  bad : Tab Bool
  pols : Tab Nat
  lru : List Nat
  reps : List Nat
deriving DecidableEq, Repr

/-! ## Network -/

/-- The points of R299 at which a packet may be queued, and the buffer of a link for what comes in (R311). -/
inductive Point where
  | core (c : Nat)
  | xbar (sector out : Nat)
  | slice (u : Nat)
  | homeMem (u : Nat)
  | stop (n : Nat) (up : Bool)
  | ucie (n : Nat) (up : Bool)
  | rontan (link : Nat)
  | inlet (link : Nat)
  | host (out : Bool)
  | cxl (port : Nat) (out : Bool)
deriving DecidableEq, Repr

/-- What a request asks of the home (R226, R228, R262). -/
inductive ReqKind where
  | load | store | pref (l2 : Bool)
  | atom (op : AtomOp)
deriving DecidableEq, Repr

/-- One lane of a request packet. -/
structure LaneReq where
  lane : Nat
  addr : Nat
  c : W64
  d : W64
deriving DecidableEq, Repr

/-- A reply (R229). -/
inductive Reply where
  | ok (vals : List (Nat × W64)) (bad : Lanes)
  | nrFault (home seq : Nat)
  | nrKey
  | nrBusy
  | nrRedirect (gen : W16)
  | err
deriving DecidableEq, Repr

/-- A request that a copy of a beat serves: its command, and its slack (R297). -/
structure BeatTo where
  cmd : Nat
  field : Nat
deriving DecidableEq, Repr

/-- Where a request packet stands: on its way, served and waiting for a leaf store or replica invalidation, on its way to a port and back
(R231), to a link under the leaf of a peer page, or passed on, waiting for a silent expander (R319), a store whose words its sector owns
(R300), on its way back, answered with no room yet on the way back (R306), a local access that waits at its core for older ones (R63, R278),
held for a replay, or waiting for the next read of a `POLL` (R261); or it is a copy of a beat of a stream, with the number of what it brings,
its bytes and the requests that it serves (R296). -/
inductive Phase where
  | going
  | leaf
  | replica
  | port
  | passing (leaf : Nat)
  | kept (addr leaf : Nat)
  | remote
  | silent (since : Nat)
  | back (r : Reply)
  | ready (r : Reply)
  | near
  | landed (r : Reply)
  | faulted (home seq : Nat)
  | signalled (fail : Bool)
  | keyed
  | polling (until_ : Nat)
  | busy (until_ : Nat)
  | redirected (gen : W16)
  | beat (stream code src : Nat) (b : List Byte) (on : List BeatTo)
deriving DecidableEq, Repr

/-- Whose request it is: an access of a group; one of a group of a launch that was killed, which only the launch's end waits for (R327); or
none that still waits; or the request of a command that a slice is to serve as a stream (R295). -/
inductive ReqOf where
  | access (grp acc : Nat)
  | orphan (launch : Nat)
  | stream (cmd : Nat)
  | none
deriving DecidableEq, Repr

/-- A packet (R299, R303, R307). `acc` is the kind of access as R211 codes it. A packet of `LDU` asks once for the lanes `all`, which are
none in another's. `told` says that a write of its line has been performed since it was read (R261), `mark` how many acquires had then been
made by its core and sector (R273). -/
structure Packet where
  own : ReqOf
  core : Nat
  kind : ReqKind
  acc : Nat
  ty : Ty
  size : Nat
  lanes : List LaneReq
  home : Nat
  dev : Nat
  dom : Nat
  key : BitVec 10
  scope : Scope
  acq : Bool
  rel : Bool
  smgen : W16
  keyTries : Nat
  checkedAt : Nat
  field : Nat
  age : Nat
  late : Bool
  route : List Point
  phase : Phase
  remote : Option Nat
  born : Nat
  all : Lanes
  told : Bool
  mark : Nat
deriving DecidableEq, Repr

/-- A synchronous access that a home has answered with a negative reply (R229), by the requester's key; `pass` is the key it carries, `at_`
the reloads of its core's turnstile when it was checked, `req` its request to another device, if it has been passed on; `field` and `late`
are its slack and mark (R230, R304). -/
structure Hold where
  key : List Nat
  pass : BitVec 10
  phase : Phase
  tries : Nat
  at_ : Nat
  req : Nat
  field : Nat
  late : Bool
deriving DecidableEq, Repr

/-- A request that a stream serves (R295, R297): its command, the beats it still misses, its slack when its service began, and when that
was. -/
structure StreamReq where
  cmd : Nat
  missed : List Nat
  field : Nat
  since : Nat
deriving DecidableEq, Repr

/-- A stream of a slice (R295): its next beat, when its first beat left, the tensor id of its lines, whether a write has touched
the range, and the requests it serves. -/
structure Stream where
  unit : Nat
  src : Nat
  len : Nat
  next : Nat
  first : Option Nat
  obj : Nat
  touched : Bool
  joined : List StreamReq
deriving DecidableEq, Repr

/-- The network inside the device: packets in flight (R299), held requests (R229), slice streams (R295), grants since the oldest was granted
(R306), and the acquires made by each core and, behind those, by each sector (R273). -/
structure Net where
  packets : Tab Packet
  holds : List Hold
  streams : Tab Stream
  grants : List (Point × Nat)
  acqs : Tab Nat
deriving DecidableEq, Repr

/-! ## The ringmaster -/

/-- An entry handed to the ringmaster (R331, R334). -/
structure Handoff where
  addr : Nat
  graph : Bool
  early : Bool
  dom : Nat
  issuer : Nat
  origin : Origin
deriving DecidableEq, Repr

/-- A dispatch stream (R19): its launch, the gang being placed, the quad reserved, the cores and slots chosen at commit, the end
of a back-off. -/
structure DStream where
  launch : Nat
  gang : Nat
  quad : Option Nat
  plan : List (Nat × Nat)
  backoff : Option Nat
  committed : Bool
deriving DecidableEq, Repr

/-- Where a walk of a graph stands: at its node, storing a field of it before it takes edges, or waiting for its node's launch (R321, R330).
-/
inductive WalkSt where
  | at_
  | storing (addr x : Nat) (succ : List Nat)
  | launched (serial : Nat) (succ : List Nat)
deriving DecidableEq, Repr

/-- A walk of a graph: the node it stands at, and what it waits for (R330). -/
structure Walk where
  node : Nat
  st : WalkSt
deriving DecidableEq, Repr

/-- A running graph (R321, R330, R331): its domain, its first node, who started it, and its walks. -/
structure Graph where
  dom : Nat
  first : Nat
  early : Bool
  issuer : Nat
  origin : Origin
  walks : Tab Walk
deriving DecidableEq, Repr

/-- The ringmaster (R10, R15, R320): entries handed over, dispatch streams, graphs, the next serial, the operating point (R22), and other
devices' launches, by device and request, whose issuing launch has not completed (R322). -/
structure Ring where
  queue : List Handoff
  streams : Tab DStream
  graphs : Tab Graph
  nextSerial : Nat
  opPoint : BitVec 4
  opReq : Option Nat
  heldFor : List (Nat × Nat)
deriving DecidableEq, Repr

/-! ## Fabric, host port, contexts -/

/-- A Rontan link (R311, R312): `lastAck` is the acknowledgement it has sent last, whether a negative one and the number it names; `pausing`
are the classes that it has paused at its peer. -/
structure Link where
  next : Nat
  unacked : List (Nat × FlitBody)
  expect : Nat
  gapNaked : Bool
  sinceAck : Nat
  ackAt : Nat
  sentAt : Nat
  resends : Nat
  paused : List Nat
  pausing : List Nat
  lastAck : Option (Bool × Nat)
  up : Bool
deriving DecidableEq, Repr

/-- What waits for the reply of a remote request (R313): a packet, a message of a command, a held access, a `LAUNCH`, or a request of
another device that this one has passed on (R231): with `total`, `n` bytes at an offset of a message of that length. -/
inductive RemFor where
  | packet (pkt : Nat)
  | command (cmd : Nat) (off : Nat)
  | hold (key : List Nat)
  | launch (core tag gen : Nat)
  | forward (src id off n total : Nat)
deriving DecidableEq, Repr

/-- An outstanding remote request (R313); `seen` counts the reloads of the turnstile that passed it (R229), `told` says that bytes of its page
have been written here since it was sent (R273), `link` is the link that it left by
last (R358), `got` what packets of a message have brought of a transfer asked for, and `bad` the places of its words that have an
uncorrectable error (R316). -/
structure RemReq where
  dest : Nat
  body : FlitBody
  sends : Nat
  sentAt : Nat
  for_ : RemFor
  done : Option (List Byte)
  failed : Bool
  seen : Nat
  told : Bool
  link : Option Nat
  got : List (Nat × List Byte)
  bad : List Nat
deriving DecidableEq, Repr

/-- A dedupe entry (R314). -/
structure Dedupe where
  src : Nat
  id : Nat
  at_ : Nat
  reply : List Byte
deriving DecidableEq, Repr

/-- A reassembly record (R316). -/
structure Reassembly where
  src : Nat
  id : Nat
  total : Nat
  count : Nat
  units : List Nat
deriving DecidableEq, Repr

/-- The Rontan side (R311 to R316): links, outstanding requests, request ids in use, the dedupe table, messages in reassembly. -/
structure Fabric where
  links : Tab Link
  reqs : Tab RemReq
  used : List (Nat × Nat)
  nextId : Nat
  dedupe : List Dedupe
  msgs : List Reassembly
deriving DecidableEq, Repr

/-- The registers of a domain's host page (R287, R334) and the kick in flight: operation, the posted writes it waits for. -/
structure HostPage where
  kbase : W64
  klen : W64
  kop : W64
  kstat : W64
  substat : W64
  tstat : W64
  kick : Option (BitVec 3 × List Nat)
deriving DecidableEq, Repr

/-- A posted write of the host not yet performed (R285). -/
structure Posted where
  seq : Nat
  relaxed : Bool
  dst : HostDst
  bytes : List Byte
deriving DecidableEq, Repr

/-- An ordering stream of the host (R285): the next sequence number, posted writes not yet performed, reads not yet served. -/
structure HStream where
  next : Nat
  posted : List Posted
  reads : List (Nat × HostSrc × Nat)
deriving DecidableEq, Repr

/-- The host port: pages by domain, streams, and the completions sent to the host by stream, none for Unsupported Request. -/
structure HostPort where
  pages : Tab HostPage
  streams : Tab HStream
  replies : List (Nat × Option (List Byte))
deriving DecidableEq, Repr

/-- The slots, tiles and claims of a quad as a checkpoint records them (R338). -/
structure QuadSave where
  quad : Nat
  elems : Tab Byte
  scales : Tab Byte
  tiles : Tab W32
  sOwn : Tab Nat
  tOwn : Tab Nat
  table : List Nat
deriving DecidableEq, Repr

/-- What a checkpoint records (R338). -/
structure Ckpt where
  groups : Tab Group
  blocks : Tab Block
  gangs : Tab Gang
  launches : Tab Launch
  cmds : Tab Cmd
  tags : List (Nat × Nat × Tag)
  lmem : List (Nat × Tab Byte)
  slots : List QuadSave
  graphs : Tab Graph
  queue : List Handoff
deriving DecidableEq, Repr

/-- A pre-emption under way or done: when requested, why (1 slice or request, 2 stop), the launches' blocks held off the
cores, and whether they stand in the context's image, as another context has needed their banks (R340). -/
structure Preempted where
  since : Nat
  why : Nat
  saved : Option Ckpt
  imaged : Bool
deriving DecidableEq, Repr

/-- The context of a domain (R338 to R344, R353): time in units of 1/7 ns, arithmetic-clock cycles in thousandths, undo records of bytes
youngest first and how much of the log area they fill, dirty pages, error sequence, the handles of a restored context with those allocated
in their place (R337), the stores of `TSGEN` performed, and the turnstile image as it stood after one of them (R326, R333). -/
structure Ctx where
  vtime : Nat
  stolen : Nat
  cycles : Nat
  ckpt : Option Ckpt
  ckAt : Nat
  undo : List (Nat × Byte)
  logPos : Nat
  exposed : Bool
  consumed : List (Nat × Nat × Loc)
  consumedAt : List Nat
  pre : Option Preempted
  stopping : Bool
  suspended : Bool
  dirty : List Nat
  errSeq : Nat
  handles : Tab W64
  tsGen : Nat
  tsImg : Option (Nat × List (BitVec 128))
deriving DecidableEq, Repr

/-- What firmware and the slice-map controller hold (R217, R220, R227, R239, R332, R355, R356, R358): among it the operating points as (mV,
MHz) from entry 1 on, the runtime's cores, the pages of the object table whose entries have yet to become 0 after reset (R239); retired
units, a retirement under way, CXL ports down, SPDM responses. -/
structure Firm where
  dev : Nat
  dist : Tab W64
  routes : Tab (List Nat)
  devs : List Nat
  smap : Tab Nat
  smgen : W16
  keyBase : Nat
  objBase : Nat
  domBase : Nat
  points : List (Nat × Nat)
  rtCores : List Nat
  objDue : List Nat
  retiring : Option (Nat × Nat)
  retired : List Nat
  cxlDown : List Nat
  up : Bool
  spdm : List (Nat × List Byte)
deriving DecidableEq, Repr

/-- Who moves next (the model's own field): a path of a group, or an event. -/
inductive Turn where
  | path (grp arm : Nat)
  | event (e : Instr)
deriving DecidableEq, Repr

/-- The whole machine. `turn`, `tick` (the counter the free values are applied to), `ids`, `inbox` and `now` are the model's
own; the rest is the manual's. -/
structure State where
  turn : Turn
  tick : Nat
  now : Nat
  ids : Nat
  inbox : List Instr
  groups : Tab Group
  blocks : Tab Block
  gangs : Tab Gang
  launches : Tab Launch
  cores : Tab Core
  quads : Tab Quad
  cmds : Tab Cmd
  homes : Tab Home
  mem : Mem
  net : Net
  ring : Ring
  fab : Fabric
  host : HostPort
  ctxs : Tab Ctx
  fw : Firm
deriving DecidableEq, Repr

/-- Why a run stops. -/
inductive Fault where
  /-- Raised by a Lumyna instruction executed when it is no path's turn, or the path's group or arm does not exist: no path, no
  instruction. The step never does this. Safe: the machine stops where the hardware has nothing to do. -/
  | noPath
deriving DecidableEq, Repr

/-- Why an instruction has no meaning. -/
inductive Refusal where
  /-- An instruction this model gives no meaning yet, by its mnemonic. Safe: nothing is claimed of it. -/
  | notModelled (mnemonic : String)
deriving DecidableEq, Repr

/-! ## Reset -/

/-- A core after reset: empty turnstile and caches, free tags, unit h serves home h (R198, R220) (DESIGN CHOICE, assumptions 3 and 12). -/
def coreReset : Core :=
  { ts := [], tsGen := [], reloads := [], lmem := [], stale := [], lown := [], icache := [], ccache := [], cbad := [],
    tags := [], tagWait := [], fences := [], chunks := 0, smap := [], smgen := 0 }

/-- A quad after reset: zero elements, 0x7F scales, +0 tiles, nothing claimed (R176, R177) (DESIGN CHOICE, assumption 12). -/
def quadReset : Quad :=
  { elems := [], scales := [], tiles := [], sOwn := [], tOwn := [], sDom := [], tDom := [], sWait := [], tWait := [],
    rels := [], table := [], posting := [], resv := none, qau := [] }

/-- A home before bring-up (DESIGN CHOICE, assumption 12). -/
def homeReset : Home :=
  { lix := 0, m := 4, fq := 0, structs := [], faults := [], nextSeq := 1, resolved := [], clears := [],
    hold := false }

/-- A link that has carried nothing (DESIGN CHOICE, assumption 12). -/
def linkReset : Link :=
  { next := 0, unacked := [], expect := 0, gapNaked := false, sinceAck := 0, ackAt := 0, sentAt := 0, resends := 0,
    paused := [], pausing := [], lastAck := none, up := true }

/-- A domain's host page that nothing has written (DESIGN CHOICE, assumption 12). -/
def pageReset : HostPage := { kbase := 0, klen := 0, kop := 0, kstat := 0, substat := 0, tstat := 0, kick := none }

def hstreamReset : HStream := { next := 0, posted := [], reads := [] }

/-- A context before its domain's first launch is admitted (R344) (DESIGN CHOICE, assumption 12). -/
def ctxReset : Ctx :=
  { vtime := 0, stolen := 0, cycles := 0, ckpt := none, ckAt := 0, undo := [], logPos := 0, exposed := false, consumed := [],
    consumedAt := [], pre := none, stopping := false, suspended := false, dirty := [], errSeq := 0, handles := [],
    tsGen := 0, tsImg := none }

/-- A tag that no launch has held (DESIGN CHOICE, assumption 12). -/
def tagReset : Tag :=
  { gen := 0, owner := none, block := 0, kind := 0, done := false, status := 0, taddr := 0, graph := false,
    early := false, target := 0, cls := 0 }

/-- Firmware's tables before bring-up (DESIGN CHOICE, assumption 12). -/
def firmReset : Firm :=
  { dev := 0, dist := [], routes := [], devs := [], smap := [], smgen := 0, keyBase := 0, objBase := 0, domBase := 0,
    points := [], rtCores := [], objDue := [], retiring := none, retired := [], cxlDown := [], up := false, spdm := [] }

def netReset : Net := { packets := [], holds := [], streams := [], grants := [], acqs := [] }

/-- Memory with nothing listed (DESIGN CHOICE, assumption 3). -/
def memReset : Mem := { phys := [], slice := [], l1 := [], rsc := [], bad := [], pols := [], lru := [], reps := [] }

/-- The ringmaster with nothing handed to it (DESIGN CHOICE, assumption 12). -/
def ringReset : Ring :=
  { queue := [], streams := [], graphs := [], nextSerial := 1, opPoint := 0, opReq := none, heldFor := [] }

/-- The Rontan side before any link has carried a flit (DESIGN CHOICE, assumption 12). -/
def fabReset : Fabric := { links := [], reqs := [], used := [], nextId := 0, dedupe := [], msgs := [] }

def hostReset : HostPort := { pages := [], streams := [], replies := [] }

/-- The machine right after reset: nothing resident, memory with nothing listed; the values the manual leaves open are named
in assumption 12 (DESIGN CHOICE, assumption 12). -/
def State.reset : State :=
  { turn := .event .slackClockTick, tick := 0, now := 0, ids := 1, inbox := [], groups := [], blocks := [], gangs := [],
    launches := [], cores := [], quads := [], cmds := [], homes := [], mem := memReset, net := netReset, ring := ringReset,
    fab := fabReset, host := hostReset, ctxs := [], fw := firmReset }

/-! ## Field updates, one per field -/

def State.setTurn (s : State) (x : Turn) : State := { s with turn := x }
def State.setTick (s : State) (x : Nat) : State := { s with tick := x }
def State.setNow (s : State) (x : Nat) : State := { s with now := x }
def State.setIds (s : State) (x : Nat) : State := { s with ids := x }
def State.setInbox (s : State) (x : List Instr) : State := { s with inbox := x }
def State.setGroups (s : State) (x : Tab Group) : State := { s with groups := x }
def State.setBlocks (s : State) (x : Tab Block) : State := { s with blocks := x }
def State.setGangs (s : State) (x : Tab Gang) : State := { s with gangs := x }
def State.setLaunches (s : State) (x : Tab Launch) : State := { s with launches := x }
def State.setCores (s : State) (x : Tab Core) : State := { s with cores := x }
def State.setQuads (s : State) (x : Tab Quad) : State := { s with quads := x }
def State.setCmds (s : State) (x : Tab Cmd) : State := { s with cmds := x }
def State.setHomes (s : State) (x : Tab Home) : State := { s with homes := x }
def State.setMem (s : State) (x : Mem) : State := { s with mem := x }
def State.setNet (s : State) (x : Net) : State := { s with net := x }
def State.setRing (s : State) (x : Ring) : State := { s with ring := x }
def State.setFab (s : State) (x : Fabric) : State := { s with fab := x }
def State.setHost (s : State) (x : HostPort) : State := { s with host := x }
def State.setCtxs (s : State) (x : Tab Ctx) : State := { s with ctxs := x }
def State.setFw (s : State) (x : Firm) : State := { s with fw := x }

end Sys2Proof.Machine
end

