-- ==== Sys2Proof/Machine/Tab.lean ====
section
/-!
DEFINITION. Operations on sparse tables. A table is kept with keys strictly rising; a table with a default lists no entry equal
to its default, so that equal contents are equal lists.
-/

namespace Sys2Proof.Machine

variable {α : Type}

/-- The entry at a key. -/
def look : Tab α → Nat → Option α
  | [], _ => none
  | (k, a) :: r, i => if i = k then some a else look r i

/-- Write an entry. -/
def put : Tab α → Nat → α → Tab α
  | [], i, x => [(i, x)]
  | (k, a) :: r, i, x => if i = k then (k, x) :: r else if i < k then (i, x) :: (k, a) :: r else (k, a) :: put r i x

/-- Remove an entry. -/
def del : Tab α → Nat → Tab α
  | [], _ => []
  | (k, a) :: r, i => if i = k then del r i else (k, a) :: del r i

/-- The value at a key, under default `d`. -/
def get (d : α) (t : Tab α) (i : Nat) : α := (look t i).getD d

/-- Set the value at a key, under default `d`: a value equal to the default is not listed. -/
def set [DecidableEq α] (d : α) (t : Tab α) (i : Nat) (x : α) : Tab α := if x = d then del t i else put t i x

/-- Change an entry that exists. -/
def upd (t : Tab α) (i : Nat) (f : α → α) : Tab α :=
  match look t i with
  | some a => put t i (f a)
  | none => t

/-- Keys strictly rising, all above `lo`. -/
def risingFrom : Nat → Tab α → Bool
  | _, [] => true
  | lo, (k, _) :: r => lo ≤ k && risingFrom (k + 1) r

/-- The canonical form of a table without a default. -/
def rising (t : Tab α) : Bool := risingFrom 0 t

/-- The canonical form of a table with default `d`. -/
def canon [DecidableEq α] (d : α) (t : Tab α) : Bool := rising t && t.all fun e => e.2 != d

/-- Remove the entries whose key fails a test. -/
def keep (p : Nat → α → Bool) (t : Tab α) : Tab α := t.filter fun e => p e.1 e.2

/-- Change every entry. -/
def mapv (f : Nat → α → α) (t : Tab α) : Tab α := t.map fun e => (e.1, f e.1 e.2)

/-- `n` values from key `i` on, under default `d`. -/
def getRange (d : α) (t : Tab α) (i n : Nat) : List α := (List.range n).map fun j => get d t (i + j)

/-- Set successive values from key `i` on. -/
def setRange [DecidableEq α] (d : α) : Tab α → Nat → List α → Tab α
  | t, _, [] => t
  | t, i, x :: r => setRange d (set d t i x) (i + 1) r

end Sys2Proof.Machine
end

