-- ==== Sys2Proof/Machine/Memory.lean ====
section
/-!
DEFINITION. The operations on memory: what stands below the homes, the homes' slices, and the copies above them (R231, R273, R300).
Every write of memory in the model is one of these.
-/

namespace Sys2Proof.Machine

/-- The canonical form of memory: every table's keys rise, and no byte is listed that reads as an unlisted one does (0; no error)
(DESIGN CHOICE, assumption 3). -/
def Memory.wf (m : Mem) : Bool := canon 0 m.phys && rising m.slice && rising m.l1 && rising m.rsc && canon false m.bad && rising m.pols

/-- Bytes below the homes, from a key on. -/
def Mem.store (m : Mem) (k : Nat) (b : List Byte) : Mem := { m with phys := setRange 0 m.phys k b }

/-- Bytes below the homes, each under its own key. -/
def Mem.storeAll (m : Mem) (l : List (Nat × Byte)) : Mem := { m with phys := l.foldl (fun t e => set 0 t e.1 e.2) m.phys }

/-- Bytes below the homes become 0. -/
def Mem.clear (m : Mem) (p : Nat → Bool) : Mem := { m with phys := keep (fun k _ => !p k) m.phys }

/-- Bytes of a slice, dirty. -/
def Mem.dirty (m : Mem) (a : Nat) (b : List Byte) : Mem :=
  { m with slice := ((List.range b.length).zip b).foldl (fun t e => put t (a + e.1) { val := e.2, own := true }) m.slice }

/-- A slice forgets `n` bytes. -/
def Mem.forget (m : Mem) (a n : Nat) : Mem := { m with slice := (List.range n).foldl (fun t i => del t (a + i)) m.slice }

/-- A slice holds clean copies of bytes beside what it holds. -/
def Mem.clean (m : Mem) (a : Nat) (b : List Byte) : Mem :=
  { m with slice := ((List.range b.length).zip b).foldl (fun t e =>
      if (look t (a + e.1)).isSome then t else put t (a + e.1) { val := e.2, own := false }) m.slice }

/-- A slice holds clean copies of `n` bytes, read from below, beside what it holds. -/
def Mem.cache (m : Mem) (k a n : Nat) : Mem := m.clean a (getRange 0 m.phys k n)

/-- A line of a slice was allocated under a policy, or is there no more. -/
def Mem.setPol (m : Mem) (line : Nat) (p : Option Nat) : Mem :=
  { m with pols := match p with | some x => put m.pols line x | none => del m.pols line }

/-- A line of a slice has been used last, or is put where the least recently used one stands (R240). -/
def Mem.touch (m : Mem) (line : Nat) (first : Bool) : Mem :=
  let rest := m.lru.filter fun x => x != line
  { m with lru := if first then line :: rest else rest ++ [line] }

/-- The least recently used of some lines: one that was never used first. -/
def Mem.leastUsed (m : Mem) (l : List Nat) : Option Nat :=
  match l.find? fun x => !m.lru.contains x with
  | some x => some x
  | none => m.lru.find? fun x => l.contains x

/-- A sector's copy of a line is a replica, or is none (R241). -/
def Mem.setRep (m : Mem) (k : Nat) (b : Bool) : Mem :=
  let rest := m.reps.filter fun x => x != k
  { m with reps := if b then k :: rest else rest }

/-- The dirty bytes of a slice that pass a test go below; the bytes are dropped, or stay, clean. -/
def Mem.writeBack (m : Mem) (key : Nat → Option Nat) (p : Nat → Bool) (drop : Bool) : Mem :=
  { m with
    phys := (m.slice.filter fun e => p e.1).foldl (fun t e =>
      match key e.1 with
      | some k => if e.2.own then set 0 t k e.2.val else t
      | none => t) m.phys
    slice :=
      if drop then keep (fun a _ => !p a) m.slice
      else mapv (fun a c => if p a then { c with own := false } else c) m.slice }

/-- What a slice, the L1 caches or the sectors hold that passes a test. -/
def Mem.keepSlice (m : Mem) (p : Nat → Bool) : Mem := { m with slice := keep (fun k _ => p k) m.slice }
def Mem.keepL1 (m : Mem) (p : Nat → Bool → Bool) : Mem := { m with l1 := keep (fun k c => p k c.own) m.l1 }
def Mem.keepRsc (m : Mem) (p : Nat → Bool → Bool) : Mem := { m with rsc := keep (fun k c => p k c.own) m.rsc }

/-- A sector's copies that pass a test are owned no more. -/
def Mem.disown (m : Mem) (p : Nat → Bool) : Mem :=
  { m with rsc := mapv (fun k (c : CByte) => if p k then { c with own := false } else c) m.rsc }

/-- Put bytes from a key on: owned, or as copies beside what is owned. -/
def fillBytes (k : Nat) (own : Bool) : Tab CByte → List Byte → Tab CByte
  | t, [] => t
  | t, x :: r =>
    let keep := !own && ((look t k).map CByte.own).getD false
    fillBytes (k + 1) own (if keep then t else put t k { val := x, own := own }) r

def Mem.fillL1 (m : Mem) (k : Nat) (own : Bool) (b : List Byte) : Mem := { m with l1 := fillBytes k own m.l1 b }
def Mem.fillRsc (m : Mem) (k : Nat) (own : Bool) (b : List Byte) : Mem := { m with rsc := fillBytes k own m.rsc b }

/-- Copies that stand from a key on take new bytes, unowned. -/
def renew (k : Nat) (t : Tab CByte) (b : List Byte) : Tab CByte :=
  ((List.range b.length).zip b).foldl (fun t e =>
    if (look t (k + e.1)).isSome then put t (k + e.1) { val := e.2, own := false } else t) t

def Mem.renewL1 (m : Mem) (k : Nat) (b : List Byte) : Mem := { m with l1 := renew k m.l1 b }
def Mem.renewRsc (m : Mem) (k : Nat) (b : List Byte) : Mem := { m with rsc := renew k m.rsc b }

/-- A word has an uncorrectable error, or has one no more. -/
def Mem.setBad (m : Mem) (w : Nat) (b : Bool) : Mem := { m with bad := set false m.bad w b }

/-- What stands below the homes, with nothing held above it (DESIGN CHOICE, assumption 47). -/
def Mem.lower (m : Mem) : Mem := { memReset with phys := m.phys }

end Sys2Proof.Machine
end

