-- ==== Sys2Proof/Machine/Base.lean ====
section
/-!
DEFINITION. Accessors: cores, quads, homes and the rest by number with their reset values, fresh identifiers, free choices,
field extraction, and the registers of a lane with their pending marks (R43, R53 to R59).
-/

namespace Sys2Proof.Machine

/-! ## Lookup with reset values -/

def State.core (s : State) (c : Nat) : Core := get coreReset s.cores c
def State.quad (s : State) (q : Nat) : Quad := get quadReset s.quads q
def State.home (s : State) (h : Nat) : Home := get homeReset s.homes h
def State.ctx (s : State) (d : Nat) : Ctx := get ctxReset s.ctxs d
def State.page (s : State) (d : Nat) : HostPage := get pageReset s.host.pages d
def State.hstream (s : State) (n : Nat) : HStream := get hstreamReset s.host.streams n
def State.link (s : State) (l : Nat) : Link := get linkReset s.fab.links l
def State.group? (s : State) (g : Nat) : Option Group := look s.groups g
def State.block? (s : State) (b : Nat) : Option Block := look s.blocks b
def State.gang? (s : State) (k : Nat) : Option Gang := look s.gangs k
def State.launch? (s : State) (l : Nat) : Option Launch := look s.launches l
def State.cmd? (s : State) (c : Nat) : Option Cmd := look s.cmds c

def State.modCore (s : State) (c : Nat) (f : Core → Core) : State := s.setCores (put s.cores c (f (s.core c)))
def State.modQuad (s : State) (q : Nat) (f : Quad → Quad) : State := s.setQuads (put s.quads q (f (s.quad q)))
def State.modHome (s : State) (h : Nat) (f : Home → Home) : State := s.setHomes (put s.homes h (f (s.home h)))
def State.modCtx (s : State) (d : Nat) (f : Ctx → Ctx) : State := s.setCtxs (put s.ctxs d (f (s.ctx d)))
def State.modGroup (s : State) (g : Nat) (f : Group → Group) : State := s.setGroups (upd s.groups g f)
def State.modBlock (s : State) (b : Nat) (f : Block → Block) : State := s.setBlocks (upd s.blocks b f)
def State.modGang (s : State) (k : Nat) (f : Gang → Gang) : State := s.setGangs (upd s.gangs k f)
def State.modLaunch (s : State) (l : Nat) (f : Launch → Launch) : State := s.setLaunches (upd s.launches l f)
def State.modCmd (s : State) (c : Nat) (f : Cmd → Cmd) : State := s.setCmds (upd s.cmds c f)
def State.modPage (s : State) (d : Nat) (f : HostPage → HostPage) : State :=
  s.setHost { s.host with pages := put s.host.pages d (f (s.page d)) }
def State.modHStream (s : State) (n : Nat) (f : HStream → HStream) : State :=
  s.setHost { s.host with streams := put s.host.streams n (f (s.hstream n)) }
def State.modLink (s : State) (l : Nat) (f : Link → Link) : State :=
  s.setFab { s.fab with links := put s.fab.links l (f (s.link l)) }
def State.modPacket (s : State) (p : Nat) (f : Packet → Packet) : State :=
  s.setNet { s.net with packets := upd s.net.packets p f }
def State.packet? (s : State) (p : Nat) : Option Packet := look s.net.packets p

/-- Use up one identifier; the identifier taken is `s.ids` (DESIGN CHOICE, assumption 1). -/
def State.next (s : State) : State := s.setIds (s.ids + 1)

/-- A free choice among `n`: the value drawn at identifier `s.ids`; the caller then uses `State.next` (DESIGN CHOICE, assumption 1). -/
def State.pick (s : State) (n : Nat) : Nat := Config.freeChoice s.ids % n

/-- Free bytes (DESIGN CHOICE, assumption 2). -/
def freeBytes (i n : Nat) : List Byte := (List.range n).map fun j => Config.freeByte (i * 65536 + j)

/-! ## Bits -/

/-- `n` bits of a number from bit `i` on. -/
def bits (x i n : Nat) : Nat := (x >>> i) % 2 ^ n

/-- A 64-bit value as bytes, lowest first (R3). -/
def bytes64 (w : W64) : List Byte := (List.range 8).map fun i => w.extractLsb' (8 * i) 8

/-- Little-endian bytes as a number (R3). -/
def ofBytes (l : List Byte) : Nat := l.foldr (fun b acc => b.toNat + 256 * acc) 0

/-- A number as `n` little-endian bytes (R3). -/
def toBytes (n x : Nat) : List Byte := (List.range n).map fun i => BitVec.ofNat 8 (x >>> (8 * i))

/-- Sign extension of the low `w` bits of a number. -/
def sx (w x : Nat) : Int := if x % 2 ^ w < 2 ^ (w - 1) then (x % 2 ^ w : Nat) else ((x % 2 ^ w : Nat) : Int) - 2 ^ w

def w64 (x : Nat) : W64 := BitVec.ofNat 64 x
def lo32 (w : W64) : W32 := w.extractLsb' 0 32
def hi32 (w : W64) : W32 := w.extractLsb' 32 32

/-! ## Geography (R13, R219, R301, R347) -/

def slotCore (g : Nat) : Nat := g / 256
def slotQtr (g : Nat) : Nat := g / 64 % 4
def coreSector (c : Nat) : Nat := c / 32
def coreQuad (c : Nat) : Nat := c / 4
def coreDie (c : Nat) : Nat := c / 96

/-- Sector (0 to 11, in device order 3 * die + sector) of a unit or home by its number (R219). -/
def unitSector (u : Nat) : Nat := 3 * (u / 48) + (u % 48) / 16

/-- Stop of a sector (R301): dies in ring order 0, 1, 3, 2. -/
def sectorStop (sec : Nat) : Nat :=
  match sec / 3 with
  | 0 => sec % 3
  | 1 => 3 + sec % 3
  | 3 => 6 + sec % 3
  | _ => 9 + sec % 3

/-! ## Bytes of a local memory, and atomics under way (R257) -/

/-- Whether a range of bytes meets `n` bytes from `a` on. -/
def staleMeets (a n : Nat) (r : Nat × List Byte) : Bool := r.1 < a + n && a < r.1 + r.2.length

/-- Bytes of a core's local memory are written: what had been there before cannot be seen any more (DESIGN CHOICE, assumption 84). -/
def Core.store (K : Core) (a : Nat) (b : List Byte) : Core :=
  { K with lmem := setRange 0 K.lmem a b, stale := K.stale.filter fun r => !staleMeets a b.length r }

/-- A command delivers bytes to a core's local memory: what stood there may still be seen (R269, R298) (DESIGN CHOICE, assumption 84). -/
def Core.deliver (K : Core) (a : Nat) (b : List Byte) : Core :=
  { K with lmem := setRange 0 K.lmem a b, stale := K.stale ++ [(a, getRange 0 K.lmem a b.length)] }

/-- Atomics under way in a quad's local memories stand there: those that meet a test, and every older one (R257)
(DESIGN CHOICE, assumption 70). -/
def State.landAtoms (s : State) (q : Nat) (p : QAtom → Bool) : State :=
  let l := (s.quad q).qau
  let later := (l.reverse.takeWhile fun x => !p x).length
  if later = l.length then s
  else
    let s := (l.take (l.length - later)).foldl (fun (s : State) x =>
      if coreQuad x.core = q then s.modCore x.core fun K => K.store x.addr x.bytes else s) s
    s.modQuad q fun Q => { Q with qau := Q.qau.drop (l.length - later) }

/-- The same in every quad. -/
def State.landAllAtoms (s : State) (p : QAtom → Bool) : State := (s.quads.map Prod.fst).foldl (fun s q => s.landAtoms q p) s

/-! ## Routes (R299, R301, R302) -/

/-- The die of a carousel stop. -/
def stopDie (n : Nat) : Nat := n / 3

/-- The points of the carousel from one stop to another: each stop the packet leaves, and each die crossing. -/
def ringRoute (a b : Nat) : List Point :=
  let up := (b + 12 - a) % 12 ≤ 6
  let hops := if up then (b + 12 - a) % 12 else (a + 12 - b) % 12
  (List.range hops).flatMap fun i =>
    let n := if up then (a + i) % 12 else (a + 12 - i) % 12
    let m := if up then (n + 1) % 12 else (n + 11) % 12
    .stop n up :: if stopDie n = stopDie m then [] else [.ucie n up]

/-- Between the crossbars of two sectors, to an output of the second. -/
def secRoute (a b out : Nat) : List Point :=
  if a = b then [.xbar a out]
  else .xbar a 16 :: ringRoute (sectorStop a) (sectorStop b) ++ [.xbar b out]

/-- The sector at whose stop a Rontan link attaches: links 0 to 4 on die 0, 5 to 9 on die 1, 10 to 13 on die 2, 14 to 17 on
die 3 (R302; the numbering is the model's, assumption 22) (PRESUMED, assumption 22). -/
def linkSector (l : Nat) : Nat :=
  if l < 5 then l % 3
  else if l < 10 then 3 + (l - 5) % 3
  else if l < 14 then 6 + (l - 10) % 3
  else 9 + (l - 14) % 3

/-- A request's way from a core to a unit of this device. -/
def routeTo (core u : Nat) : List Point :=
  .core core :: secRoute (coreSector core) (unitSector u) (u % 16) ++ [.slice u, .homeMem u]

/-- The output of a sector's crossbar towards the quad of a core (R299). -/
def quadOut (core : Nat) : Nat := 32 + core % 32 / 4

/-- A reply's way from a unit to a core. -/
def routeBack (core u : Nat) : List Point := secRoute (unitSector u) (coreSector core) (quadOut core)

/-- A request's way to a link towards another device, or to where it waits for one to come up (PRESUMED, assumption 22). -/
def routeOut (core : Nat) (link : Option Nat) : List Point :=
  match link with
  | some l => .core core :: secRoute (coreSector core) (linkSector l) (64 + l) ++ [.rontan l]
  | none => [.core core]

/-- The way of a reply that came in on the fabric (PRESUMED, assumption 22). -/
def routeIn (core : Nat) (link : Option Nat) : List Point :=
  match link with
  | some l => secRoute (linkSector l) (coreSector core) (quadOut core)
  | none => [.xbar (coreSector core) (quadOut core)]

/-! ## Registers of a lane -/

def vKey (l pos : Nat) : Nat := pos * 16 + l
def oKey (l i : Nat) : Nat := i * 16 + l

/-- Predicate `pi` of a lane; `p0` reads true (R53). -/
def Group.pred (g : Group) (i l : Nat) : Bool := i == 0 || (get 0 g.p i).getLsbD l

/-- A guard in a lane (R77). -/
def Group.guard (g : Group) (gd : Guard) (l : Nat) : Bool := (g.pred gd.p.toNat l) != gd.neg

/-- A location of a lane; a predicate reads as 0 or 1. -/
def Group.rd (g : Group) (l : Nat) : Loc → W32
  | .v pos => get 0 g.v (vKey l pos)
  | .o i => get 0 g.o (oKey l i)
  | .lat => get 0 g.lat l
  | .p i => if g.pred i l then 1 else 0

/-- Write a location of a lane, without touching its pending mark. A write to `p0` is discarded (R53). -/
def Group.put (g : Group) (l : Nat) (loc : Loc) (x : W32) : Group :=
  match loc with
  | .v pos => { g with v := set 0 g.v (vKey l pos) x }
  | .o i => { g with o := set 0 g.o (oKey l i) x }
  | .lat => { g with lat := set 0 g.lat l x }
  | .p i =>
    if i = 0 then g
    else
      let m := get 0 g.p i
      { g with p := set 0 g.p i (if x = 0 then m &&& ~~~ Lanes.one l else m ||| Lanes.one l) }

/-- Read a `k` register; `k0` reads zero (R53). -/
def Group.kr (g : Group) (i : BitVec 5) : W64 := if i = 0 then 0 else get 0 g.k i.toNat

/-- Write a `k` register; a write to `k0` is discarded (R53). -/
def Group.kw (g : Group) (i : BitVec 5) (x : W64) : Group := if i = 0 then g else { g with k := set 0 g.k i.toNat x }

/-- Window base D and fill floor F of a lane (R43). -/
def Group.D (g : Group) (l : Nat) : Nat := get 0 g.base l
def Group.F (g : Group) (l : Nat) : Nat := get 0 g.floor l

/-- Owners of a pending location of a lane, youngest first; empty if it is not pending (R58, R59). -/
def Group.ownersOf (g : Group) (l : Nat) (loc : Loc) : List (Nat × Loc) :=
  match g.pend.find? fun q => q.lane == l && q.loc == loc with
  | some q => q.owners
  | none => []

def Group.isPend (g : Group) (l : Nat) (loc : Loc) : Bool := !(g.ownersOf l loc).isEmpty

def Group.setOwners (g : Group) (l : Nat) (loc : Loc) (ow : List (Nat × Loc)) : Group :=
  let rest := g.pend.filter fun q => !(q.lane == l && q.loc == loc)
  { g with pend := if ow.isEmpty then rest else { lane := l, loc := loc, owners := ow } :: rest }

/-- A new youngest writer of a location (R59). -/
def Group.addOwner (g : Group) (l : Nat) (loc : Loc) (w : Nat × Loc) : Group :=
  if loc = .p 0 then g else g.setOwners l loc (w :: g.ownersOf l loc)

def Group.isBad (g : Group) (l : Nat) (loc : Loc) : Bool := g.poison.contains (l, loc)

def Group.setBad (g : Group) (l : Nat) (loc : Loc) (b : Bool) : Group :=
  let rest := g.poison.filter fun q => q != (l, loc)
  { g with poison := if b then (l, loc) :: rest else rest }

/-- A write that takes effect at once: it owns the location from now on (R59). -/
def Group.wr (g : Group) (l : Nat) (loc : Loc) (x : W32) : Group := ((g.put l loc x).setOwners l loc []).setBad l loc false

/-- Put a value, or one half of a pair, into a captured source. -/
def capHalf (old : W64) (hi : Bool) (x : W32) : W64 := if hi then x ++ lo32 old else hi32 old ++ x

/-- Deliver a landed value to a captured source (R61, R62). -/
def Cap.deliver (c : Cap) (l w : Nat) (loc : Loc) (x : W32) (bad : Bool) : Cap :=
  let hit := c.await.filter fun a => a.1 == l && a.2.2.1 == w && a.2.2.2 == loc
  if hit.isEmpty then c
  else
    { reg := c.reg
      vals := hit.foldl (fun t a => put t l (capHalf (get 0 t l) a.2.1 x)) c.vals
      bad := if bad then c.bad ||| Lanes.one l else c.bad
      await := c.await.filter fun a => !(a.1 == l && a.2.2.1 == w && a.2.2.2 == loc) }

def Resid.deliver (e : Resid) (l w : Nat) (loc : Loc) (x : W32) (bad : Bool) : Resid :=
  { e with
    gcap := e.gcap.map fun c => c.deliver l w loc x bad
    caps := e.caps.map fun c => c.deliver l w loc x bad
    olds := e.olds.map fun c => c.deliver l w loc x bad }

/-- The value that write `w` brings for its destination `loc` of a lane lands (R59): it goes to every residual entry that waits
for it, and into each location it still owns or an older owner of which it is; then it and every older writer own no more. -/
def Group.land (g : Group) (w l : Nat) (loc : Loc) (x : W32) (bad : Bool) : Group :=
  let g : Group := { g with
    resid := g.resid.map fun e => e.deliver l w loc x bad
    inTrap := g.inTrap.map fun t =>
      { t with saved := t.saved.map fun e => e.deliver l w loc x bad, lat := t.lat.deliver l w loc x bad } }
  let hits := g.pend.filter fun q => q.lane == l && q.owners.contains (w, loc)
  hits.foldl (fun g q =>
    ((g.put l q.loc x).setBad l q.loc bad).setOwners l q.loc (q.owners.takeWhile fun ow => ow != (w, loc))) g

/-- Write `w` will bring nothing in a lane: it owns no more there, and what waited for it takes the location's value. -/
def Group.forsake (g : Group) (w l : Nat) : Group :=
  let f (c : Cap) : Cap := (c.await.filter fun a => a.1 == l && a.2.2.1 == w).foldl
    (fun c a => c.deliver l w a.2.2.2 (g.rd l a.2.2.2) (g.isBad l a.2.2.2)) c
  let give (e : Resid) : Resid :=
    { e with gcap := e.gcap.map f, caps := e.caps.map f, olds := e.olds.map f }
  { g with
    resid := g.resid.map give
    inTrap := g.inTrap.map fun t => { t with saved := t.saved.map give, lat := f t.lat }
    pend := g.pend.filterMap fun q =>
      if q.lane == l then
        let ow := q.owners.filter fun o => o.1 != w
        if ow.isEmpty then none else some { q with owners := ow }
      else some q }

/-! ## Paths -/

def Group.arm? (g : Group) (a : Nat) : Option Path := g.arms[a]?

def Group.modArm (g : Group) (a : Nat) (f : Path → Path) : Group := { g with arms := g.arms.modify a f }

/-- Lanes of a path that have not exited. -/
def Group.liveOf (g : Group) (p : Path) : Lanes := p.lanes &&& ~~~ g.exited

/-- `EXM` bits of a path's lane set (R108). -/
def Group.exmOf (g : Group) (p : Path) : Lanes := g.exm &&& g.liveOf p

/-- Lanes of a path whose guard is true, whether or not they are enabled. -/
def Group.guardLanes (g : Group) (gd : Guard) (m : Lanes) : Lanes :=
  m.list.foldl (fun acc l => if g.guard gd l then acc ||| Lanes.one l else acc) 0

/-- The active lanes of a path under a guard (F00, R80). -/
def Group.active (g : Group) (p : Path) (gd : Guard) : Lanes := g.guardLanes gd (g.exmOf p)

/-- Whether the guard predicate is pending in an enabled lane of the path. -/
def Group.guardPend (g : Group) (p : Path) (gd : Guard) : Bool :=
  gd.p != 0 && (g.exmOf p).list.any fun l => g.isPend l (.p gd.p.toNat)

/-- The lowest lane of a mask. -/
def lowLane (m : Lanes) : Nat := m.list.headD 0

/-! ## GCTL (R60, R121) -/

def Group.defm (g : Group) : Bool := g.gctl.getLsbD 0
def Group.ovft (g : Group) : Bool := g.gctl.getLsbD 1
def Group.latet (g : Group) : Bool := g.gctl.getLsbD 2
def Group.brke (g : Group) : Bool := g.gctl.getLsbD 12
def Group.starv (g : Group) : Nat := bits g.gctl.toNat 8 4

/-- The bits of `GCTL` that are not reserved (R121). -/
def gctlMask : W64 := 0x1F07#64

/-- The starvation period of a group, in units of 1/7 ns; none with the timer off (R38). -/
def Group.period (g : Group) : Option Nat := if g.starv = 15 then none else some (Config.cycle * 2 ^ (g.starv + 6))

/-- When a starvation timer loaded at a time expires (R37). -/
def Group.due (g : Group) (now : Nat) : Option Nat := g.period.map fun n => now + n

/-! ## Launch facts -/

def recNone : LRec :=
  { entry := 0, tvec := 0, spbase := 0, spsize := 0, cword := 0, gnode := 0, cbase := 0, nx := 0, ny := 0, nz := 0, ngrp := 1,
    ngang := 1, order := 0, swz := 1, pclass := 0, sys := false, quota := 32, opp := 0, idem := false, lmem := 0, slack := [],
    cwin := [] }

def State.recOf (s : State) (l : Nat) : LRec := ((s.launch? l).map Launch.lr).getD recNone
def State.domOf (s : State) (l : Nat) : Nat := ((s.launch? l).map Launch.dom).getD 0

/-- The class a launch's waits follow: the system class is concurrent (R35). -/
def LRec.cls (r : LRec) : Nat := if r.sys then 0 else r.pclass

def LRec.blocks (r : LRec) : Nat := r.nx * r.ny * r.nz

/-- Launch-wide group number (R48). -/
def State.groupNo (s : State) (g : Group) : Nat :=
  match s.block? g.block with
  | some b => b.lin * (s.recOf g.launch).ngrp + g.grp
  | none => 0

end Sys2Proof.Machine
end

