-- ==== Sys2Proof/Machine/Numeric.lean ====
section
/-!
DEFINITION. Number formats and exact arithmetic (F07): floating-point values as exact dyadic numbers, decoding, rounding,
addition, multiplication, narrowing with error feedback, OQ4.
-/

namespace Sys2Proof

open Machine

/-- An extended real: a NaN, an infinity, or (-1)^neg * m * 2^e. -/
inductive Fp where
  | nan
  | inf (neg : Bool)
  | fin (neg : Bool) (m : Nat) (e : Int)
deriving DecidableEq, Repr

/-- A floating-point format (R135): mantissa width, bias, total bits, and whether it is E4M3 (no infinities). -/
structure Fmt where
  mw : Nat
  bias : Nat
  w : Nat
  e4m3 : Bool
deriving DecidableEq, Repr

def fmt32 : Fmt := ⟨23, 127, 32, false⟩
def fmt16 : Fmt := ⟨10, 15, 16, false⟩
def fmtB16 : Fmt := ⟨7, 127, 16, false⟩
def fmtE5 : Fmt := ⟨2, 15, 8, false⟩
def fmtE4 : Fmt := ⟨3, 7, 8, true⟩

/-- The element format of a float type (R139). -/
def Ty.fmt : Ty → Fmt
  | .f16 | .f16x2 => fmt16
  | .bf16 | .bf16x2 => fmtB16
  | .e4m3 => fmtE4
  | .e5m2 => fmtE5
  | _ => fmt32

def Fmt.eMax (f : Fmt) : Nat := 2 ^ (f.w - 1 - f.mw) - 1
def Fmt.sign (f : Fmt) (x : Nat) : Bool := x.testBit (f.w - 1)
def Fmt.expo (f : Fmt) (x : Nat) : Nat := bits x f.mw (f.w - 1 - f.mw)
def Fmt.mant (f : Fmt) (x : Nat) : Nat := x % 2 ^ f.mw

/-- Canonical quiet NaN (R135). -/
def Fmt.cnan (f : Fmt) : Nat := if f.e4m3 then 0x7F else (f.eMax <<< f.mw) + 2 ^ (f.mw - 1)

def Fmt.infBits (f : Fmt) (neg : Bool) : Nat := (if neg then 2 ^ (f.w - 1) else 0) + (f.eMax <<< f.mw)

/-- Largest finite magnitude (R135). -/
def Fmt.maxBits (f : Fmt) : Nat := if f.e4m3 then 0x7E else (f.eMax <<< f.mw) - 1

def Fmt.isNan (f : Fmt) (x : Nat) : Bool :=
  if f.e4m3 then f.expo x == f.eMax && f.mant x == 7 else f.expo x == f.eMax && f.mant x != 0

def Fmt.isInf (f : Fmt) (x : Nat) : Bool := !f.e4m3 && f.expo x == f.eMax && f.mant x == 0

/-- The value of an encoding (R136). -/
def Fmt.decode (f : Fmt) (x : Nat) : Fp :=
  if f.isNan x then .nan
  else if f.isInf x then .inf (f.sign x)
  else if f.expo x = 0 then .fin (f.sign x) (f.mant x) (1 - (f.bias : Int) - f.mw)
  else .fin (f.sign x) (2 ^ f.mw + f.mant x) ((f.expo x : Int) - f.bias - f.mw)

/-- Whether a magnitude with `rem` of `2^sh` beyond `k` quanta rounds up (R146). -/
def roundUp (r : Rnd) (neg : Bool) (k rem sh : Nat) : Bool :=
  match r with
  | .rn => 2 * rem > 2 ^ sh || (2 * rem == 2 ^ sh && k % 2 == 1)
  | .rz => false
  | .rm => neg && rem != 0
  | .rp => !neg && rem != 0

/-- m * 2^e in quanta of 2^q, rounded. -/
def toQuanta (r : Rnd) (neg : Bool) (m : Nat) (e q : Int) : Nat :=
  if q ≤ e then m * 2 ^ (e - q).toNat
  else
    let sh := (q - e).toNat
    let k := m / 2 ^ sh
    if roundUp r neg k (m % 2 ^ sh) sh then k + 1 else k

/-- What an overflow gives (R147). -/
def Fmt.overflow (f : Fmt) (r : Rnd) (neg : Bool) : Nat :=
  let s := if neg then 2 ^ (f.w - 1) else 0
  if f.e4m3 then s + 0x7E
  else
    match r, neg with
    | .rn, _ => f.infBits neg
    | .rz, _ => s + f.maxBits
    | .rm, true => f.infBits true
    | .rm, false => f.maxBits
    | .rp, false => f.infBits false
    | .rp, true => s + f.maxBits

/-- Rounding to a format (R146, R147, R148): the encoding. -/
def Fmt.round (f : Fmt) (r : Rnd) : Fp → Nat
  | .nan => f.cnan
  | .inf neg => if f.e4m3 then f.overflow r neg else f.infBits neg
  | .fin neg m e =>
    let s := if neg then 2 ^ (f.w - 1) else 0
    if m = 0 then s
    else
      let top : Int := (Nat.log2 m : Int) + e
      let q : Int := max top (1 - (f.bias : Int)) - f.mw
      let k := toQuanta r neg m e q
      let (k, q) := if 2 ^ (f.mw + 1) ≤ k then (k / 2, q + 1) else (k, q)
      if k < 2 ^ f.mw then s + k
      else
        let ef : Int := q + f.mw + f.bias
        let mag := (ef.toNat <<< f.mw) + (k - 2 ^ f.mw)
        if f.maxBits < mag then f.overflow r neg else s + mag

def Fp.isNan : Fp → Bool
  | .nan => true
  | _ => false

def Fp.neg : Fp → Fp
  | .nan => .nan
  | .inf n => .inf !n
  | .fin n m e => .fin (!n) m e

/-- The signed mantissa at exponent `q`, at most the value's own. -/
def alignTo (neg : Bool) (m : Nat) (e q : Int) : Int :=
  let x : Int := (m * 2 ^ (e - q).toNat : Nat)
  if neg then -x else x

/-- Exact sum; `r` gives the sign of an exact zero (R148). -/
def Fp.add (r : Rnd) : Fp → Fp → Fp
  | .nan, _ | _, .nan => .nan
  | .inf a, .inf b => if a = b then .inf a else .nan
  | .inf a, _ => .inf a
  | _, .inf b => .inf b
  | .fin na ma ea, .fin nb mb eb =>
    let q := min ea eb
    let x := alignTo na ma ea q + alignTo nb mb eb q
    if x = 0 then .fin (r == .rm || (na && ma == 0 && mb == 0 && nb)) 0 0
    else .fin (x < 0) x.natAbs q

/-- Exact product (R148 gives the sign of a zero). -/
def Fp.mul : Fp → Fp → Fp
  | .nan, _ | _, .nan => .nan
  | .inf a, .inf b => .inf (a != b)
  | .inf a, .fin n m _ => if m = 0 then .nan else .inf (a != n)
  | .fin n m _, .inf b => if m = 0 then .nan else .inf (n != b)
  | .fin na ma ea, .fin nb mb eb => .fin (na != nb) (ma * mb) (ea + eb)

/-- The exact sum of a list of terms, as R151 and R167 form it: NaN, an infinity, or the exact sum with the zero rule given. -/
def sumTerms (zero : Bool) (ts : List Fp) : Fp :=
  if ts.any Fp.isNan then .nan
  else
    let pinf := ts.any fun t => t == .inf false
    let ninf := ts.any fun t => t == .inf true
    if pinf && ninf then .nan
    else if pinf then .inf false
    else if ninf then .inf true
    else
      let q := ts.foldl (fun q t => match t with | .fin _ _ e => min q e | _ => q) 0
      let x := ts.foldl (fun (a : Int) t => match t with | .fin n m e => a + alignTo n m e q | _ => a) 0
      if x = 0 then .fin zero 0 0 else .fin (x < 0) x.natAbs q

/-- Compare two values that are no NaN. -/
def Fp.cmp : Fp → Fp → Ordering
  | .inf a, .inf b => if a = b then .eq else if a then .lt else .gt
  | .inf a, _ => if a then .lt else .gt
  | _, .inf b => if b then .gt else .lt
  | .fin na ma ea, .fin nb mb eb =>
    let q := min ea eb
    compare (alignTo na ma ea q) (alignTo nb mb eb q)
  | _, _ => .eq

/-- Rounding to an integer, then clamping to [lo, hi]; a NaN gives 0 (R146, R147, R171). -/
def roundInt (r : Rnd) (lo hi : Int) : Fp → Int
  | .nan => 0
  | .inf neg => if neg then lo else hi
  | .fin neg m e =>
    let k : Int := (toQuanta r neg m e 0 : Nat)
    max lo (min hi (if neg then -k else k))

/-- The range of an integer type (R140). -/
def Ty.lo (t : Ty) : Int := if t.signed then -(2 ^ (t.width - 1)) else 0
def Ty.hi (t : Ty) : Int := if t.signed then 2 ^ (t.width - 1) - 1 else 2 ^ t.width - 1

/-- The integer a value holds under an integer type. -/
def Ty.toInt (t : Ty) (x : W64) : Int := if t.signed then sx t.width x.toNat else (x.toNat % 2 ^ t.width : Nat)

/-- An integer modulo 2^width. -/
def Ty.ofInt (t : Ty) (x : Int) : W64 := BitVec.ofInt 64 (x % 2 ^ t.width)

def Fp.ofInt (x : Int) : Fp := .fin (x < 0) x.natAbs 0

/-- Elements of an operand of a float type (R139): one, or two. -/
def Ty.elems (t : Ty) (x : W64) : List Nat :=
  if t.isPacked then [bits x.toNat 0 16, bits x.toNat 16 16] else [x.toNat % 2 ^ t.width]

/-- Elements put together again. -/
def Ty.pack (t : Ty) (l : List Nat) : W64 :=
  if t.isPacked then w64 (l.getD 0 0 + (l.getD 1 0) * 65536) else w64 (l.getD 0 0)

/-- `sat` of R161 on an encoding. -/
def Fmt.sat (f : Fmt) (x : Nat) : Nat :=
  match f.decode x with
  | .nan => 0
  | v =>
    if f.sign x || v.cmp (.fin false 0 0) != .gt then 0
    else if v.cmp (.fin false 1 0) != .lt then f.round .rn (.fin false 1 0)
    else x

/-- A signalling NaN (R136). -/
def Fmt.isSig (f : Fmt) (x : Nat) : Bool := f.isNan x && !f.e4m3 && !x.testBit (f.mw - 1)

/-- The order of R162 with -0 below +0. -/
def Fmt.below (f : Fmt) (x y : Nat) : Bool :=
  match (f.decode x).cmp (f.decode y) with
  | .lt => true
  | .gt => false
  | .eq => f.sign x && !f.sign y

/-- Minimum or maximum of two encodings (R153, R162). -/
def Fmt.minmax (f : Fmt) (mx : Bool) (a b : Nat) : Nat :=
  match f.isNan a, f.isNan b with
  | true, true => f.cnan
  | true, false => b
  | false, true => a
  | false, false => if (if mx then f.below a b else f.below b a) then b else a

/-- Class code of R166. -/
def Fmt.classOf (f : Fmt) (x : Nat) : Nat :=
  if f.isNan x then (if f.isSig x then 1 else 2)
  else
    match f.sign x, f.isInf x, f.expo x == 0, f.mant x == 0 with
    | true, true, _, _ => 4
    | true, false, false, _ => 8
    | true, false, true, false => 16
    | true, false, true, true => 32
    | false, false, true, true => 64
    | false, false, true, false => 128
    | false, false, false, _ => 256
    | false, true, _, _ => 512

/-- Multiplication by 2^n before its rounding (R165). -/
def Fp.scale (n : Int) : Fp → Fp
  | .fin neg m e => .fin neg m (e + n)
  | x => x

/-! ## Narrowing with error feedback (R149, R150) -/

/-- The target of a narrowing: a float format or INT8. -/
inductive NTarget where
  | flt (f : Fmt)
  | int8
deriving DecidableEq, Repr

def NTarget.round : NTarget → Fp → Nat
  | .flt f, x => f.round .rn x
  | .int8, x => ((roundInt .rn (-128) 127 x) % 256).toNat

def NTarget.value : NTarget → Nat → Fp
  | .flt f, y => f.decode y
  | .int8, y => Fp.ofInt (sx 8 y)

/-- Whether lo(f) ≤ a ≤ hi(f) for a finite a. -/
def NTarget.inRange : NTarget → Fp → Bool
  | .flt f, a => (match a with
    | .fin _ m e => (Fp.fin false m e).cmp (f.decode f.maxBits) != .gt
    | _ => false)
  | .int8, a => (match a with
    | .fin _ _ _ => a.cmp (Fp.ofInt 127) != .gt && a.cmp (Fp.ofInt (-128)) != .lt
    | _ => false)

/-- An element with the residual handed to it; a residual of zero leaves it as it stands, its sign of zero included. -/
def withResidual (b res : Fp) : Fp :=
  match res with
  | .fin _ 0 _ => b
  | r => b.add .rn r

/-- `narrow_ef` from residual `res` on (R149). -/
def narrowFrom (t : NTarget) : Fp → List Fp → List Nat
  | _, [] => []
  | res, b :: bs =>
    let a := withResidual b res
    let y := t.round a
    y :: narrowFrom t (if t.inRange a then a.add .rn (t.value y).neg else .fin false 0 0) bs

/-- `narrow_ef` (R149): the first element of a block takes no residual. -/
def narrowEf (t : NTarget) (bs : List Fp) : List Nat := narrowFrom t (.fin false 0 0) bs

/-! ## Scale bytes and OQ4 (R141 to R145) -/

/-- The factor of a scale byte. -/
def scaleOf (c : Nat) : Fp := if c = 255 then .nan else .fin false 1 ((c : Int) - 127)

/-- The two elements of an OQ4 byte (R142). -/
def oq4Pair (b : Nat) : Fp × Fp :=
  let lo := b % 16
  let hi := b / 16 % 16
  if lo = 8 then (fmtE4.decode (b % 256), .fin false 0 0)
  else if hi = 8 then (.fin false 0 0, fmtE4.decode (lo * 16 + 8))
  else (Fp.ofInt (sx 4 lo), Fp.ofInt (sx 4 hi))

/-! ## Approximation-free roots -/

/-- The exact square root, with enough bits and a sticky bit to round from (R156). -/
def sqrtFp : Fp → Fp
  | .nan => .nan
  | .inf neg => if neg then .nan else .inf false
  | .fin neg m e =>
    if m = 0 then .fin neg 0 0
    else if neg then .nan
    else
      let e' : Int := e - (e % 2)
      let m' := if e % 2 = 0 then m else 2 * m
      let big := m' * 2 ^ 128
      let s := Nat.sqrt big
      .fin false (2 * s + (if s * s = big then 0 else 1)) (e' / 2 - 65)

end Sys2Proof
end

