-- ==== Sys2Proof/Machine/Approx.lean ====
section
/-!
DEFINITION. The approximation instructions (R152, R156, R157). Where R156 gives the result exactly, it is that result.
Elsewhere the result is a free function of the operand (`Config`), kept when it provably lies inside the accuracy R156 states
and replaced by the nearest value when it does not (assumption 4).
-/

namespace Sys2Proof

open Machine

/-- A fixed-point number with 160 fraction bits. -/
def fx (x : Fp) : Int :=
  match x with
  | .fin neg m e =>
    let v : Int := if 0 ≤ e + 160 then (m * 2 ^ (e + 160).toNat : Nat) else (m / 2 ^ (-(e + 160)).toNat : Nat)
    if neg then -v else v
  | _ => 0

def fxOne : Int := 2 ^ 160

def fxMul (a b : Int) : Int := a * b / fxOne

/-- A fixed-point number as an exact value. -/
def ofFx (x : Int) : Fp := .fin (x < 0) x.natAbs (-160)

/-- ln 2, truncated to 160 fraction bits. -/
def fxLn2 : Int := 1013035739299659071135698605846798551586536899366

/-- 2 pi, truncated to 288 fraction bits: a finite operand is reduced by it. -/
def twoPi288 : Nat := 3124774051928971388915479636853562314437792678096866677853794034734234781317322226287564

/-- Sum of a Taylor series: term 0 is `t`, each next term is the last times x over the next count from `k` in steps of `st`. -/
def taylor (x : Int) (st : Nat) : Nat → Nat → Int → Int
  | 0, _, _ => 0
  | n + 1, k, t =>
    let d : Int := if st = 1 then k else (k * (k + 1) : Nat)
    t + taylor x st n (k + st) (fxMul t x / d)

/-- 2^x for a fixed-point x from 0 to below 1. -/
def fxExp2 (x : Int) : Int := taylor (fxMul x fxLn2) 1 48 1 fxOne

/-- Bits of log2 of a fixed-point number from 1 to below 2, by repeated squaring. -/
def fxLog2 : Nat → Int → Int → Int
  | 0, _, _ => 0
  | n + 1, x, w =>
    let y := fxMul x x
    if 2 * fxOne ≤ y then w + fxLog2 n (y / 2) (w / 2) else fxLog2 n y (w / 2)

/-- x modulo 2 pi, for a finite nonnegative value. -/
def reduce (m : Nat) (e : Int) : Int :=
  let big : Nat := if 0 ≤ e + 288 then m * 2 ^ (e + 288).toNat else m / 2 ^ (-(e + 288)).toNat
  ((big % twoPi288) / 2 ^ 128 : Nat)

def fxSin (x : Int) : Int := taylor (-(fxMul x x)) 2 60 2 x
def fxCos (x : Int) : Int := taylor (-(fxMul x x)) 2 60 1 fxOne

/-- The ulp of FP32 at a nonzero value, in fixed point: 2^(max(⌊log2 |y|⌋, -126) - 23). -/
def ulpAt (m : Nat) (e : Int) : Fp := .fin false 1 (max ((Nat.log2 m : Int) + e) (-126) - 23)

/-- |a - b| ≤ k. -/
def within (a b k : Fp) : Bool :=
  match a, b, k with
  | .fin na ma ea, .fin nb mb eb, .fin _ mk ek =>
    let q := min (min ea eb) ek
    (alignTo na ma ea q - alignTo nb mb eb q).natAbs ≤ (alignTo false mk ek q).natAbs
  | _, _, _ => false

/-- The free result if it is a finite value within `k` of the centre, else the centre rounded (DESIGN CHOICE, assumption 4). -/
def chooseNear (free : W32) (centre k : Fp) (lo hi : Option Fp) : Nat :=
  let y := fmt32.decode free.toNat
  let ok := within y centre k
    && (match lo with | some l => y.cmp l != .lt | none => true) && (match hi with | some h => y.cmp h != .gt | none => true)
  if ok then free.toNat else fmt32.round .rn centre

/-- m * 2^e as a power of two: its exponent. -/
def pow2? (m : Nat) (e : Int) : Option Int := if 2 ^ Nat.log2 m = m then some ((Nat.log2 m : Int) + e) else none

/-- Reciprocal: a centre good to 2^-96 of its size, and an accepted distance a little under 1 ulp (DESIGN CHOICE, assumption 4). -/
def frcp32 (x : Nat) : Nat :=
  match fmt32.decode x with
  | .nan => fmt32.cnan
  | .inf n => fmt32.round .rn (.fin n 0 0)
  | .fin n m e =>
    if m = 0 then fmt32.infBits n
    else
      match pow2? m e with
      | some k => fmt32.round .rn (.fin n 1 (-k))
      | none =>
        let c : Nat := 2 ^ 160 / m
        let ce : Int := -160 - e
        let u := ulpAt c ce
        let k := match u with | .fin _ um ue => Fp.fin false (um * 2 ^ 40 - 1) (ue - 40) | z => z
        chooseNear (Config.freeRcp (BitVec.ofNat 32 x)) (.fin n c ce) k (if n then none else some (.fin false 0 0))
          (if n then some (.fin true 0 0) else none)

/-- Reciprocal square root, within 2 ulp (DESIGN CHOICE, assumption 4). -/
def frsq32 (x : Nat) : Nat :=
  match fmt32.decode x with
  | .nan => fmt32.cnan
  | .inf n => if n then fmt32.cnan else 0
  | .fin n m e =>
    if m = 0 then fmt32.infBits n
    else if n then fmt32.cnan
    else
      match (pow2? m e).filter fun k => k % 2 == 0 with
      | some k => fmt32.round .rn (.fin false 1 (-k / 2))
      | none =>
        let m' := if e % 2 = 0 then m else 2 * m
        let e' : Int := e - e % 2
        let c := Nat.sqrt (2 ^ 256 / m')
        let ce : Int := -128 - e' / 2
        let k := match ulpAt c ce with | .fin _ um ue => Fp.fin false (um * 2 ^ 40 - 1) (ue - 39) | z => z
        chooseNear (Config.freeRsq (BitVec.ofNat 32 x)) (.fin false c ce) k (some (.fin false 0 0)) none

/-- 2^x, within 2 ulp; a result of zero is +0 (DESIGN CHOICE, assumption 4). -/
def fexp232 (x : Nat) : Nat :=
  match fmt32.decode x with
  | .nan => fmt32.cnan
  | .inf n => if n then 0 else fmt32.infBits false
  | .fin n m e =>
    if m = 0 then fmt32.round .rn (.fin false 1 0)
    else
      let v := Fp.fin n m e
      if v.cmp (Fp.ofInt 128) != .lt then fmt32.infBits false
      else if v.cmp (Fp.ofInt (-150)) != .gt then 0
      else
        let f := fx v
        let i := f / fxOne
        let fr := f % fxOne
        if fr = 0 && (0 ≤ e + 160 || m % 2 ^ (-(e + 160)).toNat = 0) then fmt32.round .rn (.fin false 1 i)
        else
          let c := (fxExp2 fr).natAbs
          let ce : Int := i - 160
          let k := match ulpAt c ce with | .fin _ um ue => Fp.fin false (um * 2 ^ 40 - 1) (ue - 39) | z => z
          chooseNear (Config.freeExp2 (BitVec.ofNat 32 x)) (.fin false c ce) k (some (.fin false 0 0)) none % 2 ^ 31

/-- log2 x: 2 ulp outside [0.5, 2], 2^-22 inside it (DESIGN CHOICE, assumption 4). -/
def flog232 (x : Nat) : Nat :=
  match fmt32.decode x with
  | .nan => fmt32.cnan
  | .inf n => if n then fmt32.cnan else fmt32.infBits false
  | .fin n m e =>
    if m = 0 then fmt32.infBits true
    else if n then fmt32.cnan
    else
      let top : Int := (Nat.log2 m : Int) + e
      match pow2? m e with
      | some k => fmt32.round .rn (Fp.ofInt k)
      | none =>
        let mant := fx (.fin false m (e - top))
        let c := ofFx (top * fxOne + fxLog2 100 mant (fxOne / 2))
        let k := match c with
          | .fin _ cm ce =>
            if top = 0 || top = -1 then Fp.fin false (2 ^ 40 - 1) (-62)
            else (match ulpAt cm ce with | .fin _ um ue => Fp.fin false (um * 2 ^ 40 - 1) (ue - 39) | z => z)
          | z => z
        chooseNear (Config.freeLog2 (BitVec.ofNat 32 x)) c k none none

/-- sin and cos, within 2^-22 and within [-1, 1] (DESIGN CHOICE, assumption 4). -/
def fsin32 (x : Nat) : Nat :=
  match fmt32.decode x with
  | .fin n m e =>
    if m = 0 then x
    else
      let s := fxSin (reduce m e)
      chooseNear (Config.freeSin (BitVec.ofNat 32 x)) (ofFx (if n then -s else s)) (.fin false (2 ^ 40 - 1) (-62))
        (some (Fp.ofInt (-1))) (some (Fp.ofInt 1))
  | _ => fmt32.cnan

def fcos32 (x : Nat) : Nat :=
  match fmt32.decode x with
  | .fin _ m e =>
    if m = 0 then fmt32.round .rn (Fp.ofInt 1)
    else
      chooseNear (Config.freeCos (BitVec.ofNat 32 x)) (ofFx (fxCos (reduce m e))) (.fin false (2 ^ 40 - 1) (-62))
        (some (Fp.ofInt (-1))) (some (Fp.ofInt 1))
  | _ => fmt32.cnan

/-- An approximation under any float type: each element through FP32, then rounded once (R157) (DESIGN CHOICE, assumption 4). -/
def approxTy (f : Nat → Nat) (t : Ty) (a : W64) : W64 :=
  t.pack ((t.elems a).map fun x =>
    if t = .f32 then f x else t.fmt.round .rn (fmt32.decode (f (fmt32.round .rn (t.fmt.decode x)))))

end Sys2Proof
end

