-- ==== Sys2Proof/Machine/Flags.lean ====
section
/-!
DEFINITION. Comparisons (R89, R163): the only conditions an instruction of this part computes besides its result. The part has
no arithmetic flags (R138); predicates hold the outcome of a comparison.
-/

namespace Sys2Proof

open Machine

/-- A comparison of two ordered values by their order. -/
def Cmp.onOrd (c : Cmp) (o : Ordering) : Bool :=
  match c with
  | .eq | .equ => o == .eq
  | .ne | .neu => o != .eq
  | .lt | .ltu => o == .lt
  | .le | .leu => o != .gt
  | .gt | .gtu => o == .gt
  | .ge | .geu => o != .lt
  | .num => true
  | .nan => false

/-- What a comparison gives when an operand is a NaN: an ordered one is false, an unordered one true (R89). -/
def Cmp.onNan : Cmp → Bool
  | .nan | .equ | .neu | .ltu | .leu | .gtu | .geu => true
  | _ => false

/-- An integer comparison under a type (R89). -/
def cmpInt (c : Cmp) (t : Ty) (a b : W64) : Bool := c.onOrd (compare (t.toInt a) (t.toInt b))

/-- A comparison under a scalar float type (R89, R163): -0 and +0 are equal. -/
def cmpFloat (c : Cmp) (t : Ty) (a b : W64) : Bool :=
  let f := t.fmt
  let x := a.toNat % 2 ^ t.width
  let y := b.toNat % 2 ^ t.width
  if f.isNan x || f.isNan y then c.onNan else c.onOrd ((f.decode x).cmp (f.decode y))

/-- A comparison whose kind comes from the type (R89). -/
def cmpTy (c : Cmp) (t : Ty) (a b : W64) : Bool := if t.isFmt then cmpFloat c t a b else cmpInt c t a b

/-- A comparison of 64-bit uniform values (R105, R115). -/
def cmpK (c : Cmp) (uns : Bool) (a b : W64) : Bool := cmpInt c (if uns then .n64 else .i64) a b

end Sys2Proof
end

