-- ==== Sys2Proof/Machine/Home.lean ====
section
/-!
DEFINITION. The address space and what a home does with a request (F11, F10): territories, turnstile, leaves, structure pages,
faults, unscrubbed pages, apertures, tensor objects, and the performance of loads, stores and atomics at the home.
-/

namespace Sys2Proof.Machine

/-! ## Addresses (R216 to R219) -/

def pageOf (a : Nat) : Nat := a / 65536
def lineOf (a : Nat) : Nat := a / 64 * 64

/-- Whether two addresses stand in one line. -/
def sameLine (a b : Nat) : Bool := lineOf a == lineOf b

/-- Cut a range at line ends: pieces of at most 64 bytes, none crossing a page. -/
def pieces (a : Nat) : Nat → Nat → List (Nat × Nat)
  | 0, _ => []
  | fuel + 1, n =>
    if n = 0 then []
    else
      let k := min n (64 - a % 64)
      (a, k) :: pieces (a + k) fuel (n - k)

/-- The lines of a range, each with its part of some bytes. -/
def byLines (a : Nat) (b : List Byte) : List (Nat × List Byte) :=
  (pieces a (b.length / 64 + 2) b.length).map fun q => (q.1, (b.drop (q.1 - a)).take q.2)

/-- Whether a distribution-table entry is valid (R217). -/
def distOk (fw : Firm) (e : W64) : Bool :=
  let n := e.toNat
  n.testBit 63 && bits n 44 19 == 0 && bits n 16 16 == 0 && bits n 8 8 != 0 && bits n 0 8 + bits n 8 8 ≤ 192
    && fw.devs.contains (bits n 32 12)

/-- Device and logical home of an address (R218); none where it has no home. -/
def homeOf (fw : Firm) (a : Nat) : Option (Nat × Nat) :=
  if 2 ^ 57 ≤ a then none
  else
    let e := get 0 fw.dist (bits a 44 13)
    if distOk fw e then
      let x := (bits a 16 14) ^^^ (bits a 30 14)
      some (bits e.toNat 32 12, bits e.toNat 0 8 + ((x * bits e.toNat 8 8) >>> 14))
    else none

/-- The unit that serves a logical home of this device (R220). -/
def unitOf (fw : Firm) (h : Nat) : Nat := get h fw.smap h

/-! ## The turnstile (R225, R226) and windows (R252) -/

/-- Rights an access needs. -/
structure Need where
  r : Bool
  w : Bool
  x : Bool
deriving DecidableEq, Repr

/-- Access kinds of R211 and the rights of R226 (DEDUCED, assumption 51). -/
def needOf (acc : Nat) : Need :=
  match acc with
  | 1 | 5 => ⟨true, false, false⟩
  | 2 | 6 => ⟨false, true, false⟩
  | 3 => ⟨true, true, false⟩
  | _ => ⟨false, false, true⟩

def isWrite (acc : Nat) : Bool := acc == 2 || acc == 3 || acc == 6

/-- The turnstile entry used for an address: the lowest-numbered valid one whose range holds it. -/
def tsFind (ts : List (BitVec 128)) (a : Nat) : Option Nat :=
  (ts.map BitVec.toNat).find? fun n =>
    n.testBit 3 && bits n 121 7 == 0 && bits n 74 6 == 0 && bits n 57 7 == 0 && bits n 4 12 == 0
      && bits n 16 41 ≤ bits a 16 41 && bits a 16 41 ≤ bits n 80 41

/-- The key an access carries, if the turnstile lets it pass. -/
def tsCheck (ts : List (BitVec 128)) (a : Nat) (nd : Need) : Option (BitVec 10) := do
  let n ← tsFind ts a
  if (!nd.r || n.testBit 0) && (!nd.w || n.testBit 1) && (!nd.x || n.testBit 2) then
    some (BitVec.ofNat 10 (bits n 64 10))
  else none

/-- Base address of a bound window (R249, R325). -/
def LRec.winBase (r : LRec) (off : Nat) : Nat := (r.cbase.toNat + 8 * off) % 2 ^ 64

/-- Whether an address lies in a page behind a bound window of the launch (R252). -/
def LRec.winPage (r : LRec) (a : Nat) : Bool :=
  r.cwin.any fun w => match w with
    | some (off, n) => pageOf (r.winBase off) ≤ pageOf a && pageOf a ≤ pageOf (r.winBase off + 4 * n - 1)
    | none => false

/-- The check of an access of a launch at a core (R216, R226, R252): its key, or none for a protection failure. -/
def State.coreCheck (s : State) (core launch acc a : Nat) : Option (BitVec 10) :=
  if (homeOf s.fw a).isNone || (isWrite acc && (s.recOf launch).winPage a) then none
  else tsCheck (get [] (s.core core).ts (s.domOf launch)) a (needOf acc)

/-! ## Structure pages (R357) -/

/-- What a stack and the second tier hold: 48 GB and 8,192 GB (R1). A frame beyond wraps around (DESIGN CHOICE, assumption 74). -/
def stackBytes : Nat := 48 * 2 ^ 30
def tierBytes : Nat := 8192 * 2 ^ 30

/-- The physical key of a structure page of a home, if the page is one. -/
def State.structKey (s : State) (h page : Nat) : Option Nat :=
  (s.home h).structs.findSome? fun e =>
    let n := e.toNat
    if bits n 112 16 == 0 && bits n 41 22 == 0 && n.testBit 63 && bits n 0 41 == page
        && homeOf s.fw (page * 65536) == some (s.fw.dev, h) then
      some (unitSector h * 2 ^ 64 + bits n 64 48 * 65536 % stackBytes)
    else none

/-- Bytes of a structure page, read at its frame. -/
def State.readStruct (s : State) (h a n : Nat) : Option (List Byte) :=
  (s.structKey h (pageOf a)).map fun k => getRange 0 s.mem.phys (k + a % 65536) n

/-- Bytes stored into a structure page, at its frame. -/
def State.writeStruct (s : State) (h a : Nat) (b : List Byte) : State :=
  match s.structKey h (pageOf a) with
  | some k => s.setMem (s.mem.store (k + a % 65536) b)
  | none => s

/-! ## Leaves (R206, R222, R223) -/

def leafAper (l : Nat) : Nat := bits l 13 3
def leafFrame (l : Nat) : Nat := bits l 16 48 * 65536
def leafKey (l : Nat) : BitVec 10 := BitVec.ofNat 10 (bits l 102 10)
def leafObj (l : Nat) : Nat := bits l 116 12
def leafPeer (l : Nat) : Nat := bits l 90 12

/-- The leaf address the leaf index gives for a page. -/
def State.leafAddr (s : State) (h a : Nat) : Option Nat :=
  let hm := s.home h
  let n := pageOf a % 2 ^ 41
  let b := (n ^^^ (n >>> 21)) % 2 ^ hm.m
  (List.range 16).findSome? fun i =>
    match s.readStruct h (hm.lix + ((b + i / 4) % 2 ^ hm.m) * 64 + 16 * (i % 4)) 16 with
    | some bs =>
      let x := ofBytes bs
      if x.testBit 63 && bits x 41 22 == 0 && bits x 0 41 == n then some (bits x 64 64) else none
    | none => none

/-- The leaf of a page, if the page is mapped (R223): its address and its 128 bits. -/
def State.leafOf (s : State) (h a : Nat) : Option (Nat × Nat) := do
  let la ← s.leafAddr h a
  if la % 16 != 0 || homeOf s.fw la != some (s.fw.dev, h) then none
  let bs ← s.readStruct h la 16
  let l := ofBytes bs
  if leafAper l == 0 || 5 ≤ leafAper l || bits l 64 26 != 0 || bits l 0 6 != 0 || 2 ≤ bits l 112 4 then none
  some (la, l)

/-- The physical key of a byte of a page under its leaf (R231): first tier, second tier or host. A peer page has none. -/
def physKey (h l a : Nat) : Option Nat :=
  match leafAper l with
  | 1 => some (unitSector h * 2 ^ 64 + leafFrame l % stackBytes + a % 65536)
  | 2 => some (12 * 2 ^ 64 + leafFrame l % tierBytes + a % 65536)
  | 4 => some (13 * 2 ^ 64 + leafFrame l + a % 65536)
  | _ => none

/-- The CXL port of an address of the second tier (R319). -/
def cxlPort (l a : Nat) : Nat := bits (leafFrame l + a % 65536) 12 3

/-- Whether the bytes at an address still read as zero under a running clear (R234). -/
def State.unclean (s : State) (h a : Nat) : Bool :=
  (s.home h).clears.any fun c => c.page == pageOf a && c.next ≤ a % 65536 / 64 && !c.written.contains (a % 65536 / 64)

/-- One byte as the home holds it (DESIGN CHOICE, assumption 3). -/
def State.homeByte (s : State) (h key a : Nat) : Byte :=
  if s.unclean h a then 0
  else
    match look s.mem.slice a with
    | some c => c.val
    | none => get 0 s.mem.phys key

/-! ## The runtime's tables (R227, R239, R332) -/

/-- Bytes as a home of this device holds them: its slice over its memory, zero where a clear has not come yet; none where the page is unmapped
or elsewhere. -/
def State.peek (s : State) (a n : Nat) : Option (List Byte) :=
  match homeOf s.fw a with
  | some (d, h) =>
    if d != s.fw.dev then none
    else
      match s.readStruct h a n with
      | some b => some b
      | none =>
        match s.leafOf h a with
        | some (_, l) =>
          (physKey h l a).map fun k => (List.range n).map fun i => s.homeByte h (k + i) (a + i)
        | none => none
  | none => none

def State.peekNat (s : State) (a n : Nat) : Nat := ((s.peek a n).map ofBytes).getD 0

/-- Whether a domain holds a key (R227): domain 0x0000 holds every key. -/
def State.holdsKey (s : State) (dom : Nat) (key : BitVec 10) : Bool :=
  dom == 0 || (s.peekNat (s.fw.keyBase + 128 * dom) 128).testBit key.toNat

/-- An entry of the object table (R239). -/
def State.objEntry (s : State) (id : Nat) : Nat := if id = 0 then 0 else s.peekNat (s.fw.objBase + 32 * id) 32

def objV (e : Nat) : Bool := e.testBit 0
def objRmost (e : Nat) : Bool := e.testBit 1 && e.testBit 0
def objPol (e : Nat) : Nat := if objV e then bits e 8 4 else 0

/-- Whether other devices may hold replicas of an object's lines. -/
def objShared (e : Nat) : Bool := objRmost e && bits e 192 64 != 0

/-- A record of the domain table (R332) and its fields. -/
def State.domRec (s : State) (dom : Nat) : Nat := s.peekNat (s.fw.domBase + 128 * dom) 128

/-- Whether a range of bytes meets a table only domain 0x0000 may write (R239, R332). -/
def State.runtimeTable (s : State) (a n : Nat) : Bool :=
  (s.fw.objBase < a + n && a < s.fw.objBase + 131072) || (s.fw.domBase < a + n && a < s.fw.domBase + 8388608)

/-! ## Flits to other devices (R311, R312, R358) -/

/-- The links through which a device may be reached now. -/
def State.linksTo (s : State) (dest : Nat) : List Nat := (get [] s.fw.routes dest).filter fun l => (s.link l).up

/-- Traffic class of a packet (R311). -/
def flitCls : FlitBody → Nat
  | .request _ _ _ _ _ _ _ _ => 0
  | .reply _ _ _ _ | .errorReply _ _ | .neg _ _ _ | .signal _ _ _ _ | .issued _ _ => 1
  | .message _ _ _ _ _ _ _ _ _ _ | .data _ _ _ _ _ _ => 2
  | .part | .idle => 3

/-- A `LAUNCH` for another device whose issuer has completed holds nothing any more (R322). -/
def unheld : FlitBody → FlitBody
  | .request src id phys addr dom key x (.launch g _) => .request src id phys addr dom key x (.launch g true)
  | b => b

/-- The bytes a packet brings beside its header. -/
def flitBytes : FlitBody → Nat
  | .reply _ _ b _ | .data _ _ _ _ b _ | .message _ _ _ _ _ _ _ _ _ b => b.length
  | .request _ _ _ _ _ _ _ (.write b) => b.length
  | .request _ _ _ _ _ _ _ (.writes l) => (l.map fun x => x.2.length).sum
  | _ => 0

/-- Links that can take a packet of a class now: up, not paused for it, and with fewer than 512 flits unacknowledged; a reply joins those that
wait to be sent (R311, R312). -/
def State.openLinks (s : State) (dest cls : Nat) : List Nat :=
  (s.linksTo dest).filter fun l => !(s.link l).paused.contains cls && (cls == 1 || (s.link l).unacked.length < 512)

/-- Whether a packet of a class for a device must wait for a link. -/
def State.noRoom (s : State) (dest cls : Nat) : Bool := !(s.linksTo dest).isEmpty && (s.openLinks dest cls).isEmpty

/-- A flit takes the next sequence number of a link and is kept until acknowledged (R312). -/
def Link.push (k : Link) (now : Nat) (b : FlitBody) : Link :=
  { k with next := (k.next + 1) % 4096, unacked := k.unacked ++ [(k.next, b)],
           sentAt := if k.unacked.isEmpty then now else k.sentAt }

/-- Send a packet on a link, in flits of 64 bytes: its bytes, and the flit that ends it (R311, R312). What the window of 512 does not take yet
waits behind it (DESIGN CHOICE, assumption 49). -/
def State.sendFlit (s : State) (l : Nat) (b : FlitBody) : State :=
  s.modLink l fun k => ((List.range ((flitBytes b + 63) / 64)).foldl (fun k _ => k.push s.now .part) k).push s.now b

/-- Links for a packet: those open for it, or, where none is, those up, at which it waits. -/
def State.sendLinks (s : State) (dest : Nat) (b : FlitBody) : List Nat :=
  let ls := s.openLinks dest (flitCls b)
  if ls.isEmpty then s.linksTo dest else ls

/-- Send a packet to a device over some link of its route set, or over a link given while that is up; it is lost where none is up (R358). -/
def State.sendTo (s : State) (dest : Nat) (b : FlitBody) (via : Option Nat := none) : State :=
  let ls := s.sendLinks dest b
  let l := match via with
    | some l => if (s.link l).up then some l else ls[s.pick ls.length]?
    | none => ls[s.pick ls.length]?
  match l with
  | some l => (s.sendFlit l b).next
  | none => s.next

/-! ## Faults (R209 to R212) -/

/-- Open a fault for a request: write its record, then `PI` (R210, R211). None while `PI` - `CI` is 64. -/
def State.openFault (s : State) (h leaf va dom acc cause : Nat) : State × Option Nat :=
  let hm := s.home h
  let seq := hm.nextSeq
  let pi := (seq + 2 ^ 31 - 1) % 2 ^ 31
  let ci := ((s.readStruct h (hm.fq + 0x1004) 4).map ofBytes).getD 0
  if (pi + 2 ^ 32 - ci) % 2 ^ 31 = 64 then (s, none)
  else
    let w0 := seq + cause * 2 ^ 32 + acc * 2 ^ 40 + dom * 2 ^ 48
    let s := s.writeStruct h (hm.fq + 64 * ((seq + 2 ^ 31 - 1) % 64)) (toBytes 64 (w0 + va * 2 ^ 64 + leaf * 2 ^ 128))
    let s := s.writeStruct h (hm.fq + 0x1000) (toBytes 4 seq)
    (s.modHome h fun hm =>
      { hm with
        faults := hm.faults ++ [{ seq := seq, page := pageOf va, peers := [] }], nextSeq := (seq + 1) % 2 ^ 31
        resolved := del hm.resolved seq }, some seq)

/-- Whether a sequence number is at most another, in the serial order of R212. -/
def seqLe (a b : Nat) : Bool := (b + 2 ^ 31 - a) % 2 ^ 31 < 2 ^ 30

/-- Requests held for a fault of a home are signalled (R212). -/
def State.signalHeld (s : State) (h seq : Nat) (fail : Bool) : State :=
  let f (p : Phase) : Phase :=
    match p with
    | .faulted h' q => if h' = h && q = seq then .signalled fail else p
    | _ => p
  s.setNet { s.net with
    packets := mapv (fun _ p => { p with phase := f p.phase }) s.net.packets
    holds := s.net.holds.map fun x => { x with phase := f x.phase } }

/-- A store to `RES` resolves every outstanding fault up to its number; held requests are signalled, here and on other devices
(R212). -/
def State.resolve (s : State) (h seq : Nat) (fail : Bool) : State :=
  let hit := (s.home h).faults.filter fun f => seqLe f.seq seq
  let s := s.modHome h fun hm =>
    { hm with
      faults := hm.faults.filter fun f => !seqLe f.seq seq
      resolved := hit.foldl (fun t f => put t f.seq fail) hm.resolved }
  hit.foldl (fun s f =>
    f.peers.foldl (fun s d => s.sendTo d (.signal s.fw.dev h f.seq fail)) (s.signalHeld h f.seq fail)) s

/-- The number a home of another device is known by here. -/
def remHome (dev h : Nat) : Nat := 65536 * (dev + 1) + h

/-! ## Contexts' records of memory (R338, R339, R342) -/

/-- The agent of an access that belongs to no context: the host, another device, the device itself. -/
def outside : Nat := 65536

/-- A domain's context becomes exposed (R339). -/
def State.expose (s : State) (dom : Nat) : State := s.modCtx dom fun c => { c with exposed := true }

/-- An access of `dom` (none for an agent outside every context) to bytes that another context has written since its checkpoint
exposes that context (R339). -/
def State.noteAccess (s : State) (dom : Option Nat) (a n : Nat) : State :=
  s.ctxs.foldl (fun s e =>
    if dom != some e.1 && e.2.undo.any (fun u => lineOf u.1 ≤ a + n - 1 && a < lineOf u.1 + 64) then s.expose e.1 else s) s

/-- Whether a request may have read its words already. -/
def Phase.hasRead : Phase → Bool
  | .remote | .back _ | .ready _ | .landed _ | .polling _ => true
  | _ => false

/-- The page of this device that a request to another device is for: that of a held access, or of one passed on (R231). -/
def RemReq.page (r : RemReq) : Option Nat :=
  match r.for_, r.body with
  | .hold k, _ => some (pageOf (k.getLastD 0))
  | .forward .., .request _ _ _ _ _ _ x _ => some (pageOf x.va)
  | _, _ => none

/-- A write performed at a home: streams that read the range are touched (R295), and requests that have read a word of its lines are told,
for a `POLL` to read again (R261) and for a copy brought back not to be kept (R273). -/
def State.noteWrite (s : State) (a n : Nat) : State :=
  let hits (x : Nat) : Bool := lineOf a ≤ x && x < lineOf (a + n - 1) + 64
  let s := if s.fab.reqs.isEmpty then s else s.setFab { s.fab with
    reqs := mapv (fun _ r => if r.page == some (pageOf a) then { r with told := true } else r) s.fab.reqs }
  s.setNet { s.net with
    streams := mapv (fun _ st =>
      if st.first.isSome && a < st.src + st.len && st.src < a + n then { st with touched := true } else st) s.net.streams
    packets := mapv (fun _ p =>
      if p.phase.hasRead && p.lanes.any (fun q => hits q.addr) then { p with told := true } else p) s.net.packets }

/-! ## Lines of a page -/

def State.homeBytes (s : State) (h l a n : Nat) : List Byte :=
  match physKey h l a with
  | some k => (List.range n).map fun i => s.homeByte h (k + i) (a + i)
  | none => List.replicate n 0

/-- Whether a word of [a, a + n) has an uncorrectable error (R268). -/
def State.isBadMem (s : State) (a n : Nat) : Bool :=
  (List.range ((a + n - 1) / 4 - a / 4 + 1)).any fun i => get false s.mem.bad (a / 4 + i)

/-- The address of the first such word. -/
def State.badAddr (s : State) (a n : Nat) : Nat :=
  4 * (a / 4 + ((List.range ((a + n - 1) / 4 - a / 4 + 1)).find? fun i => get false s.mem.bad (a / 4 + i)).getD 0)

def State.setBadMem (s : State) (word : Nat) (b : Bool) : State :=
  s.setMem (s.mem.setBad word b)

/-- A first write to a line not yet cleared merges into zeros (R234). -/
def State.claimLine (s : State) (h key a : Nat) : State :=
  if s.unclean h a then
    let base := key - a % 64
    let s := s.setMem (s.mem.store base (List.replicate 64 0))
    s.modHome h fun hm => { hm with
      clears := hm.clears.map fun c => if c.page == pageOf a then { c with written := (a % 65536 / 64) :: c.written } else c }
  else s

/-! ## Room on the way (R306) -/

/-- Whether a packet stands in a queue or moves from one to the next. -/
def Phase.moves : Phase → Bool
  | .going | .port | .passing _ | .back _ | .beat .. => true
  | _ => false

/-- Packets queued at a point. -/
def State.queued (s : State) (p : Point) : Nat :=
  (s.net.packets.filter fun e => e.2.phase.moves && e.2.route.head? == some p).length

/-- Whether the first queue of a way has room: each holds at most 16 (DEDUCED, assumption 52). -/
def State.roomAt (s : State) (r : List Point) : Bool :=
  match r with
  | .inlet _ :: _ | [] => true
  | p :: _ => s.queued p < Config.pointCap

/-! ## Slices (R231, R240) -/

/-- Write a page's dirty bytes back to its frame and drop its bytes from the slice (R207). -/
def State.writeBack (s : State) (h l : Nat) (p : Nat → Bool) (drop : Bool) : State :=
  s.setMem (s.mem.writeBack (physKey h l) p drop)

/-- Whether a slice holds a line. -/
def State.holdsLine (s : State) (a : Nat) : Bool := s.mem.slice.any fun e => sameLine e.1 a

/-- The lines that the slice of a unit holds of the homes it serves. -/
def State.linesAt (s : State) (u : Nat) : List Nat :=
  ((s.mem.slice.map fun e => lineOf e.1).eraseDups).filter fun x =>
    (homeOf s.fw x).any fun dh => dh.1 == s.fw.dev && unitOf s.fw dh.2 == u

/-- A sector's copy of a line as the slices' books name it. -/
def copyKey (sec line : Nat) : Nat := (sec + 1) * 2 ^ 64 + line

/-- The unit of a sector whose slice holds the sector's copy of a line: slice h mod 16 for a home of this device, slice a[19:16] for
another's (R300). -/
def State.rscUnit (s : State) (sec a : Nat) : Nat :=
  48 * (sec / 3) + 16 * (sec % 3)
    + match homeOf s.fw a with
      | some (d, h) => if d = s.fw.dev then h % 16 else bits a 16 4
      | none => bits a 16 4

/-- What the slice of a unit holds: lines of the homes it serves, and its sector's copies of lines homed elsewhere (R220, R300). -/
def State.heldAt (s : State) (u : Nat) : List Nat :=
  let sec := unitSector u
  s.linesAt u ++ ((((s.mem.rsc.filter fun e => e.1 / 2 ^ 64 == sec).map fun e => lineOf (e.1 % 2 ^ 64)).eraseDups).filter fun x =>
    s.rscUnit sec x == u).map (copyKey sec)

/-- The line of a set that must leave for another, if the set is full or the keep lines fill half of its ways: a keep line goes only for one
of its kind, or where no other stands there; of those that may go, the least recently used (R240) (DESIGN CHOICE, assumption 69). -/
def State.victim (s : State) (set : List Nat) (line : Nat) (full : Bool) : Option Nat :=
  let keeps (x : Nat) : Bool := get 0 s.mem.pols x == 1
  let kept := set.filter keeps
  let others := set.filter fun x => !keeps x
  if keeps line && Config.sliceWays / 2 ≤ kept.length && !kept.isEmpty then s.mem.leastUsed kept
  else if !full && set.length < Config.sliceWays then none
  else if others.isEmpty then s.mem.leastUsed kept
  else s.mem.leastUsed others

/-- What a write to bytes of one line means at its home beside the bytes: zeros of a clear come first, and readers are told. -/
def State.beforeStore (s : State) (h k a n : Nat) : State := (s.claimLine h k a).noteWrite a n

/-- A whole aligned word that is stored loses its error (R268). -/
def State.mendWords (s : State) (a n : Nat) : State :=
  if a % 4 = 0 then (List.range (n / 4)).foldl (fun s i => s.setBadMem (a / 4 + i) false) s else s

/-- Bytes of one line that a sector gives up go to their home: into its slice where the line stands there, else below
(DESIGN CHOICE, assumption 69). -/
def State.sinkLine (s : State) (a : Nat) (b : List Byte) : State :=
  match homeOf s.fw a with
  | some (d, h) =>
    if d != s.fw.dev then s
    else if (s.structKey h (pageOf a)).isSome then s.writeStruct h a b
    else
      match (s.leafOf h a).bind fun l => physKey h l.2 a with
      | some k =>
        let s := s.beforeStore h k a b.length
        if s.holdsLine a then s.setMem (s.mem.dirty a b) else s.setMem (s.mem.store k b)
      | none => s
  | none => s

/-- A store whose words a sector owned is answered: its reply starts on its way, or waits for room there (R264, R300, R306). -/
def State.answered1 (s : State) (i : Nat) (p : Packet) : State :=
  let u := unitOf s.fw p.home
  let r : Reply := .ok (p.lanes.map fun q => (q.lane, 0)) 0
  s.modPacket i fun p => if s.roomAt (routeBack p.core u) then { p with phase := .back r, route := routeBack p.core u } else { p with phase := .ready r }

/-- Stores whose words a sector owned among addresses `p` have been performed at their homes. -/
def State.answerKept (s : State) (sec : Nat) (p : Nat → Bool) : State :=
  (s.net.packets.filter fun e =>
    (match e.2.phase with | .kept _ _ => true | _ => false) && e.2.dev == s.fw.dev && coreSector e.2.core == sec
      && e.2.lanes.all fun q => p q.addr).foldl (fun s e => s.answered1 e.1 e.2) s

/-- Write home every word that a sector's remote-sector copies own among addresses `p` of this device (R279, R300); the copies stay,
unowned. A word written whole loses its error (R268). -/
def State.flushRsc (s : State) (sec : Nat) (p : Nat → Bool) : State :=
  let here (a : Nat) : Bool := p a && (homeOf s.fw a).any fun d => d.1 == s.fw.dev
  let own := s.mem.rsc.filter fun e => e.1 / 2 ^ 64 == sec && e.2.own && here (e.1 % 2 ^ 64)
  if own.isEmpty then s.answerKept sec here
  else
    let whole (a : Nat) : Bool := a % 4 == 0 && (List.range 4).all fun i => own.any fun e => e.1 % 2 ^ 64 == a + i
    let s := own.foldl (fun s e =>
      let a := e.1 % 2 ^ 64
      let s := s.sinkLine a [e.2.val]
      if get false s.mem.bad (a / 4) && whole a then s.setBadMem (a / 4) false else s) s
    (s.setMem (s.mem.disown fun k => k / 2 ^ 64 == sec && here (k % 2 ^ 64))).answerKept sec here

/-- A store to another device's line that its sector keeps is given up by it: it will leave for its home; the copy stays, unowned (R300). -/
def State.sendKept (s : State) (sec : Nat) (p : Nat → Bool) : State :=
  let out (e : Nat × Packet) : Bool :=
    (match e.2.phase with | .kept _ 0 => true | _ => false) && e.2.dev != s.fw.dev && coreSector e.2.core == sec
      && e.2.lanes.any fun q => p q.addr
  let gone := s.net.packets.filter out
  if gone.isEmpty then s
  else
    let s := s.setNet { s.net with packets := s.net.packets.map fun e => if out e then (e.1, { e.2 with phase := .kept 0 1 }) else e }
    gone.foldl (fun s e => s.setMem (s.mem.disown fun k =>
      k / 2 ^ 64 == sec && e.2.lanes.any fun q => sameLine q.addr (k % 2 ^ 64))) s

/-- A sector's copy of a line leaves: the words it owns go home (R300). -/
def State.evictRsc (s : State) (sec x : Nat) : State :=
  let s := (s.flushRsc sec (sameLine x)).sendKept sec (sameLine x)
  s.setMem ((s.mem.keepRsc fun k _ => k / 2 ^ 64 != sec || !sameLine (k % 2 ^ 64) x).setPol (copyKey sec x) none)

/-- A line leaves the slice of its home: what is dirty goes below. -/
def State.evictLine (s : State) (x : Nat) : State :=
  match (homeOf s.fw x).bind fun dh => (s.leafOf dh.2 x).map fun l => (dh.2, l.2) with
  | some (h, l) => let s := s.writeBack h l (sameLine x) true; s.setMem (s.mem.setPol x none)
  | none => s

/-- A line has been allocated in the slice of a unit: another may have to leave (R1, R240, R300) (DESIGN CHOICE, assumption 69). -/
def State.makeWay (s : State) (u key : Nat) : State :=
  let all := (s.heldAt u).filter fun x => x != key
  let full := Config.sliceLines ≤ all.length
  let set := all.filter fun x => full || Config.sliceSet (x % 2 ^ 64) == Config.sliceSet (key % 2 ^ 64)
  match s.victim set key full with
  | some x => if x < 2 ^ 64 then s.evictLine x else s.evictRsc (x / 2 ^ 64 - 1) (x % 2 ^ 64)
  | none => s

/-- A line is used in a slice, by the name of its books: under the policy given where it is new there, which may put it at the least recently
used place (R240) (DESIGN CHOICE, assumption 69). -/
def State.useLine (s : State) (u key pol : Nat) (new : Bool) (f : Mem → Mem) : State :=
  if new then (s.setMem (((f s.mem).setPol key (some pol)).touch key (pol == 2))).makeWay u key
  else s.setMem ((f s.mem).touch key false)

/-- A line is allocated under its object's policy as it stands, unless the slice holds it already (R240). -/
def State.allocLine (s : State) (h l a : Nat) (f : Mem → Mem) : State :=
  s.useLine (unitOf s.fw h) (lineOf a) (objPol (s.objEntry (leafObj l))) (!s.holdsLine a) f

/-- Bytes of one line put at a home under a leaf: into the slice, or past it for a line the slice does not allocate (R231, R240). A whole
aligned word loses its error (R268). -/
def State.storeLine (s : State) (h l a : Nat) (b : List Byte) : State :=
  match physKey h l a with
  | none => s
  | some k =>
    let s := s.beforeStore h k a b.length
    let s :=
      if objPol (s.objEntry (leafObj l)) = 3 && !s.holdsLine a then s.setMem (s.mem.store k b)
      else s.allocLine h l a fun m => m.dirty a b
    s.mendWords a b.length

/-- Bytes put at a home under a leaf, line by line. -/
def State.homeStore (s : State) (h l a : Nat) (b : List Byte) : State :=
  (byLines a b).foldl (fun s q => s.storeLine h l q.1 q.2) s

/-- Bytes of an undo record in a log area (R338 gives none) (DESIGN CHOICE, assumption 86). -/
def logRec : Nat := 128

/-- Whether a context's log area is full: another record does not fit (R338). A domain that has no log area has one that never fills
(DEDUCED, assumption 27; DESIGN CHOICE, assumption 86). -/
def State.logFull (s : State) (dom : Nat) : Bool :=
  let size := bits (s.domRec dom) 256 32
  size != 0 && size < (s.ctx dom).logPos + logRec

/-- The undo record of a line's first write stands in the log area: what it holds there is not said (R338)
(DESIGN CHOICE, assumption 86). -/
def State.logLine (s : State) (dom : Nat) : State :=
  let e := s.domRec dom
  let at_ := bits e 192 64 + (s.ctx dom).logPos
  let s := s.modCtx dom fun c => { c with logPos := c.logPos + logRec }
  if bits e 256 32 < (s.ctx dom).logPos then s
  else (byLines at_ (freeBytes s.ids logRec)).foldl (fun (s : State) q => s.sinkLine q.1 q.2) s.next

/-- Undo records of a write by a domain (R338): of each byte its old value, and one record of each line written first since the checkpoint
(DESIGN CHOICE, assumption 86). -/
def State.noteUndo (s : State) (dom : Nat) (olds : List (Nat × Byte)) : State :=
  if (s.ctx dom).ckpt.isSome then
    let new := ((olds.map fun u => lineOf u.1).eraseDups).filter fun x => !((s.ctx dom).undo.any fun u => sameLine u.1 x)
    new.foldl (fun s _ => s.logLine dom) (s.modCtx dom fun c => { c with undo := olds.reverse ++ c.undo })
  else s

/-- What a domain's write to bytes of a home leaves in the contexts' records: exposures and undo records (R338, R339). -/
def State.noteStore (s : State) (h l a n dom : Nat) : State :=
  match physKey h l a with
  | none => s
  | some k =>
    if dom = outside then s.noteAccess none a n
    else
      let s := s.noteAccess (some dom) a n
      let s := s.noteUndo dom ((List.range n).map fun i => (a + i, s.homeByte h (k + i) (a + i)))
      if leafAper l = 4 then s.expose dom else s

/-- The same for a write to bytes of a structure page. -/
def State.noteStruct (s : State) (h a n dom : Nat) : State :=
  if dom = outside then s.noteAccess none a n
  else (s.noteAccess (some dom) a n).noteUndo dom (((List.range n).map (a + ·)).zip ((s.readStruct h a n).getD []))

/-- The objects whose entries a range of bytes meets. -/
def State.entriesIn (s : State) (a n : Nat) : List Nat :=
  if s.fw.objBase < a + n && a < s.fw.objBase + 131072 then
    ((List.range ((a + n - 1 - s.fw.objBase) / 32 + 1 - (a - s.fw.objBase) / 32)).map fun i =>
      (a - s.fw.objBase) / 32 + i).filter fun id => id != 0 && id < 4096
  else []

/-- The domains whose `TSGEN` a range of bytes meets (R332). -/
def State.tsGensIn (s : State) (a n : Nat) : List Nat :=
  if s.fw.domBase < a + n && a < s.fw.domBase + 8388608 then
    ((List.range ((a + n - 1 - s.fw.domBase) / 128 + 1 - (a - s.fw.domBase) / 128)).map fun i =>
      (a - s.fw.domBase) / 128 + i).filter fun d => s.fw.domBase + 128 * d + 8 < a + n && a < s.fw.domBase + 128 * d + 12
  else []

/-- A turnstile image as entries (R333). -/
def tsImage (b : List Byte) : List (BitVec 128) :=
  (List.range 32).map fun i => BitVec.ofNat 128 (ofBytes ((b.drop (16 * i)).take 16))

/-- A store of a domain's `TSGEN` has been performed: the image as it then stands is what accesses are checked against (R326, R333); one that
stands on another device is read when it is needed. -/
def State.tsStored (s : State) (d : Nat) : State :=
  let img := s.peek (bits (s.domRec d) 0 64) 512
  s.modCtx d fun c => { c with tsGen := c.tsGen + 1, tsImg := img.map fun b => (c.tsGen + 1, tsImage b) }

/-- The objects just made read-mostly have no word of their lines owned by a sector: they go home (R241, R300)
(DESIGN CHOICE, assumption 69). -/
def State.disownObjs (s : State) (ids : List Nat) : State :=
  if ids.isEmpty then s
  else
    let mine (a : Nat) : Bool := ((homeOf s.fw a).bind fun dh => s.leafOf dh.2 a).any fun l => ids.contains (leafObj l.2)
    (List.range 12).foldl (fun s sec => s.flushRsc sec mine) s

/-- A store that clears an object's `RMOST` clears its sharer vector too (R241); `were` are the objects of its range that had it. -/
def State.unshare (s : State) (wr : State → Nat → List Byte → State) (were : List Nat) : State :=
  were.foldl (fun s id =>
    if objRmost (s.objEntry id) then s else wr s (s.fw.objBase + 32 * id + 24) (List.replicate 8 0)) s

/-- The objects of a range of bytes whose lines other devices may hold. -/
def State.rmostIn (s : State) (a n : Nat) : List Nat := (s.entriesIn a n).filter fun id => objRmost (s.objEntry id)

/-- What a store to some bytes means for the runtime's tables, of which `had` were read-mostly objects before (R241, R333); `wr` stores more
bytes of the page. -/
def State.tablesStored (s : State) (wr : State → Nat → List Byte → State) (a n : Nat) (had : List Nat) : State :=
  let s := s.unshare wr had
  let s := s.disownObjs ((s.rmostIn a n).filter fun id => !had.contains id)
  (s.tsGensIn a n).foldl (fun s d => s.tsStored d) s

/-- Bytes written at a home under a leaf, for a domain. -/
def State.homeWrite (s : State) (h l a : Nat) (b : List Byte) (dom : Nat) : State :=
  ((s.noteStore h l a b.length dom).homeStore h l a b).tablesStored (fun s x b => s.homeStore h l x b) a b.length (s.rmostIn a b.length)

/-- Write back every dirty byte of a range at its home, under the leaves as they stand. -/
def State.writeBackRange (s : State) (lo hi : Nat) (drop : Bool) (only : Nat → Bool) : State :=
  let pages := (s.mem.slice.filter fun e => lo ≤ e.1 && e.1 < hi).map fun e => pageOf e.1
  pages.eraseDups.foldl (fun s pg =>
    match homeOf s.fw (pg * 65536) with
    | some (_, h) =>
      (match s.leafOf h (pg * 65536) with
       | some (_, l) => if only l then s.writeBack h l (fun a => pageOf a == pg && lo ≤ a && a < hi) drop else s
       | none => s)
    | none => s) s

/-- A core's constant and instruction caches without the bytes of some addresses. -/
def Core.without (p : Nat → Bool) (K : Core) : Core :=
  { K with
    icache := keep (fun k _ => !p (k % 2 ^ 58)) K.icache
    ccache := keep (fun k _ => !p (k % 2 ^ 58)) K.ccache
    cbad := keep (fun k _ => !p (k % 2 ^ 56 * 4)) K.cbad }

/-- Drop every copy that the device holds above the homes of bytes at some addresses (R207). -/
def State.dropCopies (s : State) (p : Nat → Bool) : State :=
  (s.setMem ((s.mem.keepL1 fun k _ => !p (k % 2 ^ 64)).keepRsc fun k _ => !p (k % 2 ^ 64))).setCores
    (mapv (fun _ K => K.without p) s.cores)

/-! ## Atomics (R153, R254) -/

/-- One element of a float add, min or max. -/
def fatomElem (op : AtomOp) (f : Fmt) (x y : Nat) : Nat :=
  match op with
  | .min => f.minmax false x y
  | .max => f.minmax true x y
  | _ => f.round .rn ((f.decode x).add .rn (f.decode y))

/-- The new word (R254). -/
def atomNew (op : AtomOp) (t : Ty) (old c d : W64) : W64 :=
  match op with
  | .add | .min | .max =>
    if t.isFloat then t.pack (((t.elems old).zip (t.elems c)).map fun xy => fatomElem op t.fmt xy.1 xy.2)
    else
      let x := t.toInt old
      let y := t.toInt c
      (match op with
       | .add => t.ofInt (x + y)
       | .min => t.ofInt (min x y)
       | _ => t.ofInt (max x y))
  | .and => old &&& c
  | .or => old ||| c
  | .xor => old ^^^ c
  | .exch => c
  | .cas => if t.ofInt (t.toInt old) = t.ofInt (t.toInt c) then d else old

/-- The atomics that a host AtomicOp can carry (R258). -/
def hostAtomOk (op : AtomOp) (t : Ty) : Bool :=
  (op == .add && t.isWide) || op == .exch || op == .cas

/-! ## Admission of a request (R228) -/

/-- How a home answers: a reply, a structure page's frame, or the leaf to perform it under. -/
inductive Served where
  | neg (r : Reply)
  | dropped
  | struct
  | leaf (addr leaf : Nat)
deriving DecidableEq, Repr

/-- Whether a home has a packet in service: admitted and not yet answered. -/
def Phase.served : Phase → Bool
  | .leaf | .replica | .port | .passing _ | .remote | .silent _ => true
  | _ => false

/-- Requests a home has in service (R228): packets, those it holds back during a retirement (R235), synchronous accesses that wait there or
that it has passed on, and other devices' requests that wait there or that it has passed on. -/
def State.inService (s : State) (h : Nat) : Nat :=
  let here (a : Nat) : Bool := homeOf s.fw a == some (s.fw.dev, h)
  (s.net.packets.filter fun e =>
    e.2.home == h && e.2.dev == s.fw.dev
      && (e.2.phase.served || ((s.home h).hold && e.2.phase == .going && e.2.route == [.homeMem (unitOf s.fw h)]))).length
    + (s.net.holds.filter fun x =>
        (x.phase == .replica || (x.phase == .remote && (look s.fab.reqs x.req).any (fun r => r.done.isNone))) && here (x.key.getLastD 0)).length
    + (s.fab.reqs.filter fun e => match e.2.for_, e.2.page with
        | .forward .., some pg => here (pg * 65536)
        | _, _ => false).length
    + (s.inbox.filter fun i => match i with
        | .remoteWriteReceive _ _ false a _ pass _ | .messagePacketReceive _ _ false a _ pass _ _ _ => pass.x.adm && here a
        | _ => false).length

/-- An `NR_FAULT` opens a fault, or is an `NR_BUSY` while the queue is full; the runtime's domain gets an error response, and a
prefetch is dropped (R228, R209, R262). -/
def State.faultReply (s : State) (h : Nat) (p : Packet) (leaf va cause : Nat) : State × Served :=
  match p.kind with
  | .pref _ => (s, .dropped)
  | _ =>
    if p.dom = 0 then (s, .neg .err)
    else
      match s.openFault h leaf va p.dom p.acc cause with
      | (s, some seq) => (s, .neg (.nrFault h seq))
      | (s, none) => (s, .neg .nrBusy)

/-- The first step of R228 that applies, for a request that has reached the unit serving its home; one in service already does not meet the
limit again (DESIGN CHOICE, assumption 95). -/
def State.checkIn (s : State) (h : Nat) (p : Packet) : State × Served :=
  let va := (p.lanes.map LaneReq.addr).headD 0
  let page := pageOf va
  let isPref := match p.kind with | .pref _ => true | _ => false
  if homeCapReached s h && !p.phase.served then (s, .neg .nrBusy)
  else if (s.structKey h page).isSome then
    (if p.dom = 0 then (s, .struct) else if isPref then (s, .dropped) else (s, .neg .err))
  else
    match p.dom, (s.home h).faults.find? (fun f => f.page == page) with
    | _ + 1, some f => if isPref then (s, .dropped) else (s, .neg (.nrFault h f.seq))
    | _, _ =>
      match s.leafOf h va with
      | none => s.faultReply h p ((s.leafAddr h va).getD 0) va 1
      | some (la, l) =>
        let nd := needOf p.acc
        if p.dom != 0 && (leafKey l != p.key || !s.holdsKey p.dom p.key) then
          (s, if isPref then .dropped else .neg .nrKey)
        else if p.dom != 0 && ((nd.r && !l.testBit 6) || (nd.w && !l.testBit 7) || (nd.x && !l.testBit 8)) then
          s.faultReply h p la va 2
        else if (match p.kind with | .atom _ => leafAper l == 3 && !l.testBit 12 | _ => false) then s.faultReply h p la va 3
        else if p.dom != 0 && isWrite p.acc && p.lanes.any (fun q => s.runtimeTable q.addr p.size) then (s, .neg .err)
        else if l.testBit 11 && !((s.home h).clears.any fun c => c.page == page) then
          if 4 ≤ (s.home h).clears.length then (s, .neg .nrBusy)
          else
            (s.modHome h fun hm => { hm with clears := hm.clears ++ [{ page := page, next := 0, written := [] }] }, .leaf la l)
        else (s, .leaf la l)
where
  /-- Step 2 of R228. -/
  homeCapReached (s : State) (h : Nat) : Bool := Config.homeCap ≤ s.inService h

/-! ## Performing a request under a leaf (R224, R230, R231) -/

/-- Set `A`, and `D` for a write, in a leaf; a page that gains `D` joins the dirty pages of the requester's context. -/
def State.setAD (s : State) (h la l : Nat) (p : Packet) : State :=
  let wr := isWrite p.acc
  if l.testBit 9 && (l.testBit 10 || !wr) then s
  else
    let l' := l ||| 0x200 ||| (if wr then 0x400 else 0)
    let s := s.writeStruct h la (toBytes 8 (l' % 2 ^ 64))
    if wr && !l.testBit 10 then
      s.modCtx p.dom fun c => { c with dirty := c.dirty ++ [pageOf ((p.lanes.map LaneReq.addr).headD 0)] }
    else s

/-- One lane of a request performed at a home: the state, the word read, and whether it is poisoned. -/
def State.performLane (s : State) (h l : Nat) (p : Packet) (q : LaneReq) : State × W64 × Bool :=
  let n := p.size
  match p.kind with
  | .load =>
    let s := s.noteAccess (some p.dom) q.addr n
    (s, w64 (ofBytes (s.homeBytes h l q.addr n)), s.isBadMem q.addr n)
  | .store => (s.homeWrite h l q.addr (toBytes n q.c.toNat) p.dom, 0, false)
  | .pref _ => (s.noteAccess (some p.dom) q.addr n, 0, false)
  | .atom op =>
    if s.isBadMem q.addr n then (s, 0, true)
    else
      let old := w64 (ofBytes (s.homeBytes h l q.addr n))
      (s.homeWrite h l q.addr (toBytes n (atomNew op p.ty old q.c q.d).toNat) p.dom, old, false)

/-- Every lane, in ascending order (R154). -/
def State.performLanes (s : State) (h l : Nat) (p : Packet) : List LaneReq → State × List (Nat × W64) × Lanes
  | [] => (s, [], 0)
  | q :: r =>
    match s.performLane h l p q with
    | (s, x, bad) =>
      match State.performLanes s h l p r with
      | (s, vs, bs) => (s, (q.lane, x) :: vs, if bad then bs ||| Lanes.one q.lane else bs)

/-- The lines of a range, read at their home, are cached in its slice (R231, R240, R273). -/
def State.cacheLines (s : State) (h l a n : Nat) : State :=
  (pieces a (n / 64 + 2) n).foldl (fun s q =>
    match physKey h l (lineOf q.1) with
    | some k =>
      if objPol (s.objEntry (leafObj l)) = 3 && !s.holdsLine q.1 then s
      else if s.unclean h q.1 then s
      else s.allocLine h l q.1 fun m => m.cache k (lineOf q.1) 64
    | none => s) s

/-- An atomic on host memory is carried by an AtomicOp: the home's copy is written back and dropped first (R258). -/
def State.flushForHostAtom (s : State) (h l : Nat) (p : Packet) : State :=
  match p.kind, leafAper l with
  | .atom _, 4 => s.writeBack h l (fun a => p.lanes.any fun q => sameLine q.addr a) true
  | _, _ => s

/-- A line of the second tier that its expander does not give is treated as poisoned (R319). Words of it that a sector owns have gone home. -/
def State.poisonLine (s : State) (a : Nat) : State :=
  let s := (List.range 12).foldl (fun s sec => s.flushRsc sec (sameLine a)) s
  (List.range 16).foldl (fun s i => s.setBadMem (lineOf a / 4 + i) true) s

/-- The lines of a request's lanes that its slice does not hold are treated as poisoned. -/
def State.unanswered (s : State) (p : Packet) : State :=
  p.lanes.foldl (fun s q =>
    (pieces q.addr (p.size / 64 + 2) p.size).foldl (fun s x =>
      if (List.range x.2).all fun i => (look s.mem.slice (x.1 + i)).isSome then s else s.poisonLine x.1) s) s

/-- Whether a write under a leaf goes past the slice: its object's lines are not allocated (R240). -/
def State.uncached (s : State) (l a : Nat) : Bool := objPol (s.objEntry (leafObj l)) = 3 && !s.holdsLine a

/-- The host may answer an AtomicOp with an error (R258) (DESIGN CHOICE, assumption 1). -/
def State.hostRefuses (s : State) (l : List LaneReq) : Bool := !l.isEmpty && s.pick 2 = 1

/-- A request performed at its home under a leaf of the first or second tier or of the host (R230, R231, R258, R319). -/
def State.perform (s : State) (h la l : Nat) (p : Packet) : State × Reply :=
  let s := s.setAD h la l p
  let va := (p.lanes.map LaneReq.addr).headD 0
  let dead := leafAper l == 2 && s.fw.cxlDown.contains (cxlPort l va)
  match p.kind with
  | .atom op =>
    if leafAper l = 4 && (!hostAtomOk op p.ty || s.hostRefuses p.lanes) then (s.next, .err)
    else
      let s := s.flushForHostAtom h l p
      let s := if dead then s.unanswered p else s
      match s.performLanes h l p p.lanes with
      | (s, vs, bad) =>
        let s := if leafAper l = 4 then s.writeBack h l (fun a => p.lanes.any fun q => sameLine q.addr a) true else s
        (s, .ok vs bad)
  | _ =>
    if dead && isWrite p.acc && p.lanes.any fun q => s.uncached l q.addr then (s.unanswered p, .err)
    else
      let s := if dead && !isWrite p.acc then s.unanswered p else s
      let s := p.lanes.foldl (fun s q => s.cacheLines h l q.addr p.size) s
      match s.performLanes h l p p.lanes with
      | (s, vs, bad) => (s, .ok vs bad)

/-! ## Requests to structure pages (R357, R212, R207) -/

/-- Cached pages of a home whose leaf lies in [a, a + n): what a store there must write back and drop first. -/
def State.leavesIn (s : State) (h a n : Nat) : List (Nat × Nat) :=
  let pages := ((s.mem.slice.map fun e => pageOf e.1) ++ (s.mem.l1.map fun e => pageOf (e.1 % 2 ^ 64))
    ++ (s.mem.rsc.map fun e => pageOf (e.1 % 2 ^ 64)) ++ ((s.home h).clears.map Clear.page)
    ++ (s.cores.flatMap fun e => (e.2.icache.map fun x => pageOf (x.1 % 2 ^ 58)) ++ e.2.ccache.map fun x => pageOf (x.1 % 2 ^ 58))
    ++ (s.fab.reqs.filterMap fun e => e.2.page)
    ++ (s.net.packets.flatMap fun e => if e.2.phase == .remote then e.2.lanes.map fun q => pageOf q.addr else [])).eraseDups
  pages.filterMap fun pg =>
    if homeOf s.fw (pg * 65536) == some (s.fw.dev, h) then
      match s.leafOf h (pg * 65536) with
      | some (la, l) => if la < a + n && a < la + 16 then some (pg, l) else none
      | none => none
    else none

/-- The write-back of R207 for the pages whose leaves a store will change. -/
def State.leafWriteBack (s : State) (h a n : Nat) : State :=
  (s.leavesIn h a n).foldl (fun s pl =>
    let s := (List.range 12).foldl (fun s sec => s.flushRsc sec fun x => pageOf x == pl.1) s
    ((s.writeBack h pl.2 (fun x => pageOf x == pl.1) true).dropCopies fun x => pageOf x == pl.1).noteWrite (pl.1 * 65536) 65536) s

/-- After a store of `n` bytes at `a` to leaves of some pages: a clear of a page restarts if the store sets `UNSCR`, and ends if it is not set
(R234). -/
def State.afterLeaf (s : State) (h a n : Nat) (pages : List Nat) : State :=
  let f (c : Clear) : Option Clear :=
    if pages.contains c.page then
      match s.leafOf h (c.page * 65536) with
      | some (la, l) =>
        if !l.testBit 11 then none
        else if a ≤ la + 1 && la + 1 < a + n then some { c with next := 0, written := [] }
        else some c
      | none => none
    else some c
  s.modHome h fun hm => { hm with clears := hm.clears.filterMap f }

/-- Pages of the object table that are mapped now and whose entries have yet to become 0 after reset do so (R239)
(DEDUCED, assumption 83). -/
def State.clearTable (s : State) : State :=
  s.fw.objDue.foldl (fun s p =>
    match (homeOf s.fw (p * 65536)).bind fun d =>
        if d.1 = s.fw.dev then (s.leafOf d.2 (p * 65536)).bind fun l => physKey d.2 l.2 (p * 65536) else none with
    | some k =>
      let mine (x : Nat) : Bool :=
        k ≤ x && x < k + 65536 && s.fw.objBase ≤ p * 65536 + (x - k) && p * 65536 + (x - k) < s.fw.objBase + 131072
      (s.setMem (s.mem.clear mine)).setFw { s.fw with objDue := s.fw.objDue.filter fun q => q != p }
    | none => s) s

/-- Bytes stored into a structure page at the frame: the lines of pages whose leaves change have been written back and dropped, and a store to
the fault queue's `RES` resolves (R207, R212, R357); `dom` is whose store it is, and its undo record is written (R338)
(DESIGN CHOICE, assumption 96). -/
def State.structStore (s : State) (h a : Nat) (b : List Byte) (dom : Nat) : State :=
  let n := b.length
  let pages := (s.leavesIn h a n).map Prod.fst
  let had := s.rmostIn a n
  let s := (((s.leafWriteBack h a n).noteStruct h a n dom).writeStruct h a b).tablesStored (fun s x b => s.writeStruct h x b) a n had
  let s := if pages.isEmpty then s else s.afterLeaf h a n pages
  let s := if s.fw.objDue.isEmpty then s else s.clearTable
  let s := s.noteWrite a n
  let res := (s.home h).fq + 0x1008
  if a ≤ res && res + 4 ≤ a + n then
    let r := ((s.readStruct h res 4).map ofBytes).getD 0
    s.resolve h (r % 2 ^ 31) (r.testBit 31)
  else s

/-- One lane of a request to a structure page, performed at the frame. -/
def State.structLane (s : State) (h : Nat) (p : Packet) (q : LaneReq) : State × W64 :=
  let n := p.size
  let old := w64 (ofBytes ((s.readStruct h q.addr n).getD []))
  match p.kind with
  | .store => (s.structStore h q.addr (toBytes n q.c.toNat) p.dom, old)
  | .atom op => (s.structStore h q.addr (toBytes n (atomNew op p.ty old q.c q.d).toNat) p.dom, old)
  | _ => (s.noteAccess (if p.dom = outside then none else some p.dom) q.addr n, old)

/-- Whether a store of `n` bytes at `a` of a structure page changes a leaf that names an object whose lines other devices may hold as replicas
(R233). -/
def State.leafShared (s : State) (h a n : Nat) : Bool :=
  (List.range ((a + n - 1) / 16 + 1 - a / 16)).any fun i =>
    ((s.readStruct h (16 * (a / 16 + i)) 16).map fun b => objShared (s.objEntry (leafObj (ofBytes b)))).getD false

def State.structLanes (s : State) (h : Nat) (p : Packet) : List LaneReq → State × List (Nat × W64)
  | [] => (s, [])
  | q :: r =>
    match s.structLane h p q with
    | (s, x) =>
      match State.structLanes s h p r with
      | (s, vs) => (s, (q.lane, x) :: vs)

end Sys2Proof.Machine
end

