-- ==== Sys2Proof/Machine/Access.lean ====
section
/-!
DEFINITION. Accesses that the device makes as part of one step, each checked and served like any access of its requester: fetches,
spills and fills, trap frames, constant-cache fills, descriptors, the ringmaster's and the engines' accesses. A negative reply
leaves a hold under the requester's key; the requester tries again until the replay succeeds or fails (R229, R230). Also: sending
a request to another device (R313, R358), and the copies above the homes (R273, R300).
-/

namespace Sys2Proof.Machine

/-! ## Copies above the homes (R273, R279, R300) -/

def l1Key (core a : Nat) : Nat := core * 2 ^ 64 + a
def rscKey (sec a : Nat) : Nat := sec * 2 ^ 64 + a

/-- Write bytes at their home, under its leaf as it stands, for a domain. -/
def State.homeWriteVa (s : State) (a : Nat) (b : List Byte) (dom : Nat) : State :=
  match homeOf s.fw a with
  | some (d, h) =>
    if d != s.fw.dev then s
    else if (s.structKey h (pageOf a)).isSome then s.writeStruct h a b
    else
      match s.leafOf h a with
      | some (_, l) => s.homeWrite h l a b dom
      | none => s
  | none => s

/-- The acquires made by a core and by its sector so far: a copy of a line read before the last of them may not be kept (R273). -/
def State.acqMark (s : State) (core : Nat) : Nat := get 0 s.net.acqs core + get 0 s.net.acqs (384 + coreSector core)

def State.countAcq (s : State) (k : Nat) : State := s.setNet { s.net with acqs := put s.net.acqs k (get 0 s.net.acqs k + 1) }

/-- From here on no reader of a core sees what stood in its local memory before a delivery (R269, R298) (DESIGN CHOICE, assumption 84). -/
def State.fresh (s : State) (core : Nat) : State :=
  if (s.core core).stale.isEmpty then s else s.modCore core fun K => { K with stale := [] }

/-- The invalidation of an acquire at a scope for a core (R273): replicas stay (R241); what has been delivered to its local memory is seen
from here on, and the acquire's place among the requests is remembered (R279). -/
def State.invalidate (s : State) (core : Nat) (sc : Scope) : State :=
  let s := s.fresh core
  let m := s.mem
  let m := if 3 ≤ sc.rank then m.keepL1 fun k own => k / 2 ^ 64 != core || own else m
  let m := if 6 ≤ sc.rank then m.keepRsc fun k own => k / 2 ^ 64 != coreSector core || own || m.reps.contains (lineOf k) else m
  let s := s.setMem m
  let s := s.setNet { s.net with acqs := put s.net.acqs (4096 + core) s.ids }
  let s := if 3 ≤ sc.rank then s.countAcq core else s
  if 6 ≤ sc.rank then s.countAcq (384 + coreSector core) else s

/-- Lines that a core's L1 holds. -/
def State.l1Lines (s : State) (core : Nat) : List Nat :=
  ((s.mem.l1.filter fun e => e.1 / 2 ^ 64 == core).map fun e => lineOf (e.1 % 2 ^ 64)).eraseDups

/-- Whether a core's L1 has room for a line: it holds the line, or fewer than it can, or one that it owns no word of (R1). -/
def State.l1Others (s : State) (core line : Nat) : List Nat := (s.l1Lines core).filter fun x => x != line

/-- Lines of a core's L1 other than a line, no word of which it owns. -/
def State.l1Free (s : State) (core line : Nat) : List Nat :=
  (s.l1Others core line).filter fun x =>
    s.mem.l1.all fun e => !e.2.own || e.1 / 2 ^ 64 != core || !sameLine (e.1 % 2 ^ 64) x

def State.l1Room (s : State) (core line : Nat) : Bool :=
  (s.l1Others core line).length < Config.l1Lines || !(s.l1Free core line).isEmpty

/-- Put bytes into a core's L1: owned, or as copies beside what the core owns. A full L1 gives up another line that it owns no word of, and
takes no copy while it has none (R1) (DESIGN CHOICE, assumption 69). -/
def State.fillL1 (s : State) (core a : Nat) (b : List Byte) (own : Bool) : State :=
  let fill (m : Mem) : Mem := m.fillL1 (l1Key core a) own b
  if (s.l1Others core (lineOf a)).length < Config.l1Lines then s.setMem (fill s.mem)
  else
    let l := s.l1Free core (lineOf a)
    match l[s.pick l.length]? with
    | some x => s.next.setMem (fill (s.mem.keepL1 fun k _ => k / 2 ^ 64 != core || !sameLine (k % 2 ^ 64) x))
    | none => if own then s.setMem (fill s.mem) else s

/-- The policy a sector's copy of a line is allocated under: its object's, which for another device's line is free here (R300)
(DESIGN CHOICE, assumption 69). -/
def State.copyPol (s : State) (a : Nat) : Nat :=
  match homeOf s.fw a with
  | some (d, h) => if d = s.fw.dev then ((s.leafOf h a).map fun l => objPol (s.objEntry (leafObj l.2))).getD 0 else s.pick 3
  | none => 0

/-- Bytes of a sector's remote-sector copies: owned, or as copies; `rep` where they are a replica of another device's line (R241)
(DESIGN CHOICE, assumption 69). -/
def State.fillRsc (s : State) (sec a : Nat) (b : List Byte) (own : Bool) (rep : Bool := false) : State :=
  let x := lineOf a
  let new := !(s.mem.rsc.any fun e => lineOf e.1 == rscKey sec x)
  (s.useLine (s.rscUnit sec a) (copyKey sec x) (s.copyPol a) new fun m => (m.fillRsc (rscKey sec a) own b).setRep (rscKey sec x) rep).next

/-- A core and its sector drop their unowned copies of lines that a command of the core has written or an atomic has changed elsewhere
(R273, R283). -/
def State.dropLines1 (s : State) (core a n : Nat) : State :=
  let hit (x : Nat) : Bool := lineOf a ≤ x && x < a + n
  s.setMem ((s.mem.keepL1 fun k own => own || k / 2 ^ 64 != core || !hit (k % 2 ^ 64)).keepRsc fun k own =>
    own || k / 2 ^ 64 != coreSector core || !hit (k % 2 ^ 64))

/-- Bytes that a write performed past the copies of a core and its sector brings them up to date with. -/
def State.refresh (s : State) (core a : Nat) (b : List Byte) : State :=
  s.setMem ((s.mem.renewL1 (l1Key core 0 + a) b).renewRsc (rscKey (coreSector core) 0 + a) b)

/-- Host-memory words dirty at their homes go to host memory (R279, R286). -/
def State.flushHost (s : State) : State := s.writeBackRange 0 (2 ^ 57) false fun l => leafAper l == 4

/-! ## Slack (R265, R303) -/

/-- The slack field of a packet at injection. -/
def injectField (entry o : Nat) : Nat := if entry = 0xFFF then 0xFFF else min (entry + o) 0xFFE

/-- The field of a launch's slack code under its domain's offset. -/
def State.slackField (s : State) (launch code : Nat) : Nat :=
  injectField ((s.recOf launch).slack.getD code 0) (bits (s.domRec (s.domOf launch)) 96 12)

/-! ## Requests to other devices (R313, R316) -/

/-- The packets of a message: up to 256 bytes of payload each (R316). -/
def cutMessage : FlitBody → List FlitBody
  | .message src id phys addr dom key x off total bytes =>
    (List.range ((bytes.length + 255) / 256)).map fun i =>
      .message src id phys (addr + 256 * i) dom key { x with va := x.va + 256 * i } (off + 256 * i) total
        ((bytes.drop (256 * i)).take 256)
  | b => [b]

/-- Send what a request or message consists of. -/
def State.sendAll (s : State) (dest : Nat) (b : FlitBody) (via : Option Nat := none) : State :=
  (cutMessage b).foldl (fun s f => s.sendTo dest f via) s

/-- The lifetime a packet is sent with (R315). -/
def lifetime : Nat := Config.us 32

/-- The next request id that no outstanding request has. -/
def State.freeId (s : State) : Nat :=
  (((List.range (s.fab.reqs.length + 1)).map fun i => (s.fab.nextId + i) % 16777216).find? fun i =>
    (look s.fab.reqs i).isNone).getD s.fab.nextId

/-- Whether that id may be used (R313). -/
def State.idFree (s : State) : Bool :=
  !(s.fab.used.any fun u => u.1 == s.freeId && s.now < u.2 + Config.us 128)

/-- Send a request to another device, with a new id, by the link given or one of its route set; none while the id must wait or every link up
is paused or full. `seen` counts the reloads of the turnstile that passed it. -/
def State.sendRemote (s : State) (dest : Nat) (mk : Nat → FlitBody) (f : RemFor) (seen : Nat := 0) (via : Option Nat := none) :
    Option (State × Nat) :=
  let id := s.freeId
  let b := mk id
  let ls := s.sendLinks dest b
  if !s.idFree || (!(s.linksTo dest).isEmpty && (s.openLinks dest (flitCls b)).isEmpty) then none
  else
    let l := match via with | some l => some l | none => ls[s.pick ls.length]?
    let s := s.setFab { s.fab with
      nextId := (id + 1) % 16777216
      used := s.fab.used ++ [(id, s.now)]
      reqs := put s.fab.reqs id
        { dest := dest, body := b, sends := 1, sentAt := s.now, for_ := f, done := none, failed := false, seen := seen
          told := false, link := l, got := [], bad := [] } }
    some (s.sendAll dest b l, id)

/-! ## Synchronous accesses -/

/-- Who makes a synchronous access: its key, its core (none for the ringmaster, whose accesses are checked against the domain's turnstile
image, R326, and, under keys that begin with 7, for the device's own reads as domain 0x0000, R333, or with 8 for the host's accesses), its
launch and domain. -/
structure Who where
  key : List Nat
  core : Option Nat
  launch : Nat
  dom : Nat
deriving DecidableEq, Repr

/-- The agent of its accesses: its domain's context, or none for the host. -/
def Who.agent (w : Who) : Nat := if w.key.headD 0 = 8 then outside else w.dom

/-- How a synchronous access ends. -/
inductive Got where
  | wait
  | fail (cause : Byte) (addr : Nat)
  | ok (b : List Byte)
deriving DecidableEq, Repr

/-- What a synchronous access does. -/
inductive SOp where
  | read (n : Nat)
  | write (b : List Byte)
  | atom (op : AtomOp) (t : Ty) (c d : W64)
deriving DecidableEq, Repr

def SOp.len : SOp → Nat
  | .read n => n
  | .write b => b.length
  | .atom _ t _ _ => t.size

/-- Whether an operation writes. -/
def SOp.writes : SOp → Bool
  | .read _ => false
  | _ => true

/-- The domain's turnstile image as it stands after its latest `TSGEN` store, where it has been read since (R326, R333). -/
def State.domTs (s : State) (dom : Nat) : Option (List (BitVec 128)) :=
  match (s.ctx dom).tsImg with
  | some (g, l) => if g = (s.ctx dom).tsGen then some l else none
  | none => none

/-- The core's check, or the ringmaster's. -/
def State.whoCheck (s : State) (w : Who) (acc a : Nat) : Option (BitVec 10) :=
  match w.core with
  | some c => s.coreCheck c w.launch acc a
  | none =>
    if (homeOf s.fw a).isNone then none
    else if w.key.headD 0 = 7 || w.key.headD 0 = 8 then some 0
    else tsCheck ((s.domTs w.dom).getD []) a (needOf acc)

/-- Whether a requester's slice map is as new as a generation; the ringmaster uses the current map. -/
def State.mapCurrent (s : State) (w : Who) (g : W16) : Bool :=
  match w.core with
  | some c => (g - (s.core c).smgen).toNat = 0 || 32768 ≤ (g - (s.core c).smgen).toNat
  | none => true

def State.reloadsOf (s : State) (w : Who) : Nat :=
  match w.core with
  | some c => get 0 (s.core c).reloads w.dom
  | none => 0

def State.hold? (s : State) (k : List Nat) : Option Hold := s.net.holds.find? fun h => h.key == k
def State.unhold (s : State) (k : List Nat) : State :=
  s.setNet { s.net with holds := s.net.holds.filter fun h => h.key != k }
def State.addHold (s : State) (k : List Nat) (pass : BitVec 10) (ph : Phase) (tries at_ req : Nat) (x : Nat × Bool) : State :=
  (s.unhold k).setNet { s.net with
    holds := { key := k, pass := pass, phase := ph, tries := tries, at_ := at_, req := req, field := x.1, late := x.2 } :: (s.unhold k).net.holds }

/-- The wait after `NR_BUSY`: 32 to 255 cycles (R229). -/
def State.busyUntil (s : State) : Nat := s.now + Config.cycle * (32 + s.pick 224)

/-- A synchronous access as a request packet, for the home's checks. -/
def syncPacket (w : Who) (acc a : Nat) (op : SOp) (key : BitVec 10) (h dev : Nat) : Packet :=
  { own := .none, core := w.core.getD 0
    kind := match op with | .read _ => .load | .write _ => .store | .atom o _ _ _ => .atom o
    acc := acc, ty := (match op with | .atom _ t _ _ => t | _ => .n64), size := op.len
    lanes := [{ lane := 0, addr := a, c := (match op with | .atom _ _ c _ => c | _ => 0)
                d := (match op with | .atom _ _ _ d => d | _ => 0) }]
    home := h, dev := dev, dom := w.dom, key := key, scope := .dev, acq := false, rel := false, smgen := 0, keyTries := 0
    checkedAt := 0, field := 0, age := 0, late := false, route := [], phase := .going, remote := none, born := 0
    all := 0, told := false, mark := 0 }

/-- A remote request's operation. -/
def SOp.rem : SOp → RemOp
  | .read n => .read n
  | .write b => .write b
  | .atom o t c d => .atom o t c d

/-- What a negative reply leaves a held access in, which carries the key `pass`, was sent `tries` times before on account of it and checked
with `at_` reloads then seen, and the slack `x` it was answered with (R229, R307) (DESIGN CHOICE, assumption 11). -/
def State.holdNeg (s : State) (k : List Nat) (pass : BitVec 10) (tries at_ : Nat) (x : Nat × Bool) (r : Reply) : State :=
  match r with
  | .nrFault h q =>
    s.addHold k pass (match look (s.home h).resolved q with | some f => .signalled f | none => .faulted h q) tries at_ 0 x
  | .nrBusy => (s.addHold k pass (.busy s.busyUntil) tries at_ 0 x).next
  | .nrKey => s.addHold k pass (if tries = 0 then .keyed else .landed .nrKey) 1 at_ 0 x
  | .nrRedirect g => s.addHold k pass (.redirected g) tries at_ 0 x
  | _ => s.addHold k pass (.signalled true) tries at_ 0 x

/-- How a key mismatch ends an access: 0x05 (R229), or, for a command, 0x04 (R204) (DESIGN CHOICE, assumption 11). -/
def keyCause (k : List Nat) : Byte := if k.headD 0 == 3 && Config.keyProtects then 4 else 5

/-- A reply that is not performed leaves a hold (R229) (DESIGN CHOICE, assumption 11). -/
def State.holdFor (s : State) (k : List Nat) (pass : BitVec 10) (a tries at_ : Nat) (x : Nat × Bool) (r : Reply) : State × Got :=
  match r with
  | .nrFault _ _ | .nrBusy | .nrRedirect _ => (s.holdNeg k pass tries at_ x r, .wait)
  | .nrKey => if tries = 0 then (s.holdNeg k pass 0 at_ x r, .wait) else (s.unhold k, .fail (keyCause k) a)
  | _ => (s.unhold k, .fail 5 a)

/-- The slack with which a stream's request leaves its slice: background stays background (R297). -/
def StreamReq.left (j : StreamReq) (now : Nat) : Nat :=
  if j.field = 0xFFF then j.field else j.field - (now - j.since) / Config.slackTick

/-- The least of some fields. -/
def leastField (l : List Nat) : Nat := l.foldl min 0xFFF

/-- The slack its requests start with (R249, R265, R303): the host's by the ingress, a command's by its code, that of a read for a stream the
least of what the stream serves (R308), others' by entry 0; the device's own and the ringmaster's are background
(DESIGN CHOICE, assumption 54). -/
def State.whoField (s : State) (w : Who) : Nat :=
  match w.key with
  | 8 :: _ => 0xFFE
  | [1, _, _, slk] => s.slackField w.launch slk
  | 3 :: id :: _ =>
    (match s.net.streams.find? fun e => e.2.joined.any fun j => j.cmd == id with
     | some e => leastField (e.2.joined.map fun j => j.left s.now)
     | none => ((s.cmd? id).map Cmd.entry).getD 0xFFF)
  | _ => if w.core.isSome then s.slackField w.launch 0 else 0xFFF

/-- What waiting in queues that the model does not hold takes off a slack field: a free amount (DESIGN CHOICE, assumption 54). -/
def State.aged (s : State) (f : Nat) : Nat := if f = 0xFFF then f else f - Config.freeChoice (s.ids + 2 ^ 80) % (f + 1)

/-- Whether a request of a requester that waits has come to be late (R304, R305). -/
def State.heldLate (s : State) (key : List Nat) : Bool := s.net.holds.any fun h => h.late && h.key.take key.length == key

/-- The slack and the mark of its request: as it was answered, where it is sent again (R307) (DESIGN CHOICE, assumption 54). -/
def State.whoSlack (s : State) (w : Who) (k : List Nat) : Nat × Bool :=
  match s.hold? k with
  | some h => (h.field, h.late)
  | none => let f := s.aged (s.whoField w); (f, f == 0)

/-- What its request carries to another device. -/
def State.carryOf (s : State) (w : Who) (acc a : Nat) : Carry :=
  let x := s.whoSlack w (w.key ++ [acc, a])
  { acc := acc, va := a, field := x.1, late := x.2, life := lifetime, adm := false }

/-- A write has been passed on to another device: what the slice copies of its bytes is old. -/
def State.passedWrite (s : State) (a n : Nat) : State := (s.setMem (s.mem.forget a n)).noteWrite a n

/-- Perform an admitted synchronous access under its leaf. Words that the requester's sector owns go home first; what a dead port does not
give is treated as poisoned, and a write past the slice there gets an error response (R319) (DESIGN CHOICE, assumption 54). -/
def State.syncPerform (s : State) (w : Who) (h la l a : Nat) (op : SOp) (p : Packet) : State × Got :=
  let s := s.flushRsc (coreSector p.core) (fun x => lineOf a ≤ x && x < a + op.len)
  let dead := leafAper l == 2 && s.fw.cxlDown.contains (cxlPort l a)
  let past := dead && op.writes && (pieces a (op.len / 64 + 2) op.len).any fun q => s.uncached l q.1
  let s := if past || (dead && !op.writes) then s.unanswered p else s
  if past then (s, .fail 5 a) else
  match op with
  | .read n =>
    let s := (s.setAD h la l p).noteAccess (some w.agent) a n
    let s := s.cacheLines h l a n
    (s, .ok ((List.range n).map fun i =>
      match w.core.bind fun c => look s.mem.l1 (l1Key c (a + i)) with
      | some cb => if cb.own then cb.val else (s.homeBytes h l (a + i) 1).headD 0
      | none => (s.homeBytes h l (a + i) 1).headD 0))
  | .write b =>
    let s := (s.setAD h la l p).homeWrite h l a b w.agent
    (match w.core with
     | some c => s.refresh c a b
     | none => s, .ok [])
  | .atom _ _ _ _ =>
    match s.perform h la l p with
    | (s, .ok vs bad) =>
      ((w.core.map fun c => s.dropLines1 c a op.len).getD s, if bad != 0 then .fail 0x12 (a / 4 * 4) else .ok (toBytes op.len ((vs.map Prod.snd).headD 0).toNat))
    | (s, _) => (s, .fail 5 a)

/-- Lines of `n` bytes that a running clear of the page has not reached: all of them, or none. -/
def State.allUnclean (s : State) (h a n : Nat) : Bool := (pieces a (n / 64 + 2) n).all fun q => s.unclean h q.1
def State.anyUnclean (s : State) (h a n : Nat) : Bool := (pieces a (n / 64 + 2) n).any fun q => s.unclean h q.1

/-- Whether stores of the requester's core to some bytes have not been performed: its L1 owns them, or its sector keeps a store of them to
another device (R283). -/
def State.ownsAny (s : State) (w : Who) (a n : Nat) : Bool :=
  w.core.any fun c =>
    (List.range n).any (fun i => (look s.mem.l1 (l1Key c (a + i))).any CByte.own)
      || s.net.packets.any fun e =>
          (match e.2.phase with | .kept _ _ => true | .going | .remote => e.2.dev != s.fw.dev && e.2.route.head? != some (.core e.2.core) | _ => false)
            && e.2.kind == .store && coreSector e.2.core == coreSector c
            && e.2.lanes.any fun q => q.addr < a + n && a < q.addr + e.2.size

/-- Whether a write must wait: for replicas that other devices hold (R233, R241), whose answers may be late, or for stores of the
requester's core to its bytes that have not been performed (R283) (DEDUCED, assumptions 40 and 60). -/
def State.syncHeld (s : State) (w : Who) (l a n : Nat) : Bool :=
  (w.core.any fun c => (List.range n).any fun i => (look s.mem.l1 (l1Key c (a + i))).any CByte.own)
    || ((objShared (s.objEntry (leafObj l)) || (s.entriesIn a n).any fun id => objShared (s.objEntry id)) && s.pick 2 = 1)

/-- Whether it is a write of the device's own: zeros of a clear, or what the device writes for the runtime. -/
def Who.clears (w : Who) (op : SOp) : Bool := w.key.headD 0 == 7 && op.writes

/-- A synchronous access is sent to another device: it waits for the stores of its core to its bytes, and then for its answer. -/
def State.syncRemote (s : State) (w : Who) (k : List Nat) (key : BitVec 10) (tries at_ acc a : Nat) (op : SOp) (dest : Nat)
    (mk : Carry → Nat → FlitBody) : Option State :=
  if s.ownsAny w a op.len then
    some ((w.core.map fun c => s.sendKept (coreSector c) fun x => lineOf a ≤ x && x < a + op.len).getD s)
  else
    let x := s.carryOf w acc a
    (s.sendRemote dest (mk x) (.hold k)).map fun r =>
      let s := r.1.addHold k key .remote tries at_ r.2 (x.field, x.late)
      if isWrite acc && !w.clears op then s.expose w.dom else s

/-- A synchronous access waits at its home, which has it in service (R228, R235). -/
def State.syncStay (s : State) (w : Who) (k : List Nat) (key : BitVec 10) (tries at_ : Nat) : State :=
  s.addHold k key .replica tries at_ 0 (s.whoSlack w k)

/-- A synchronous access that its home has admitted or refused (R228); `at_` counts the reloads seen when it was checked
(DEDUCED, assumption 40). -/
def State.syncServe (s : State) (w : Who) (k : List Nat) (tries at_ acc h a : Nat) (op : SOp) (p : Packet) : State × Got :=
  match s.checkIn h p with
  | (s, .neg r) => s.holdFor k p.key a tries at_ (s.whoSlack w k) r
  | (s, .dropped) => (s.unhold k, .fail 5 a)
  | (s, .struct) =>
    if op.writes && s.leafShared h a op.len && s.pick 2 = 1 then (s.next.syncStay w k p.key tries at_, .wait)
    else
      (match op with
       | .read n => ((s.noteAccess (some w.agent) a n).unhold k, .ok ((s.readStruct h a n).getD []))
       | .write b => ((s.structStore h a b w.agent).unhold k, .ok [])
       | .atom _ _ _ _ =>
         match s.structLane h { p with size := op.len } (p.lanes.headD { lane := 0, addr := a, c := 0, d := 0 }) with
         | (s, x) => (s.unhold k, .ok (toBytes op.len x.toNat)))
  | (s, .leaf la l) =>
    if op.writes && s.syncHeld w l a op.len then (s.next.syncStay w k p.key tries at_, .wait)
    else if leafAper l = 3 && s.anyUnclean h a op.len && !w.clears op then
      match op with
      | .read n =>
        if s.allUnclean h a n then ((s.setAD h la l p).unhold k, .ok (List.replicate n 0)) else (s.syncStay w k p.key tries at_, .wait)
      | _ => (s.syncStay w k p.key tries at_, .wait)
    else if leafAper l = 3 then
      let s := if w.clears op then s else s.setAD h la l p
      match s.syncRemote w k p.key tries at_ acc a op (leafPeer l)
          fun x id => .request s.fw.dev id true (leafFrame l + a % 65536) w.dom 0 x op.rem with
      | some s => (if isWrite acc then s.passedWrite a op.len else s, .wait)
      | none => (s, .wait)
    else
      match s.syncPerform w h la l a op p with
      | (s, g) => (s.unhold k, g)

/-- Send a synchronous access that has passed its check with a key (R228, R229) (DESIGN CHOICE, assumption 54). -/
def State.syncGo (s : State) (w : Who) (k : List Nat) (key : BitVec 10) (tries at_ acc a : Nat) (op : SOp) : State × Got :=
  match homeOf s.fw a with
  | some (dev, h) =>
    let inside := (s.hold? k).any fun x => x.phase == .replica
    if dev != s.fw.dev then
      ((s.syncRemote w k key tries at_ acc a op dev fun x id => .request s.fw.dev id false a w.dom key.toNat x op.rem).getD s, .wait)
    else if (s.home h).hold then
      (if inside then s
       else if Config.homeCap ≤ s.inService h then s.holdNeg k key tries at_ (s.whoSlack w k) .nrBusy
       else s.syncStay w k key tries at_, .wait)
    else if !s.mapCurrent w s.fw.smgen then (s.addHold k key (.redirected s.fw.smgen) tries at_ 0 (s.whoSlack w k), .wait)
    else
      let p := syncPacket w acc a op key h dev
      s.syncServe w k tries at_ acc h a op (if inside then { p with phase := .replica } else p)
  | none => (s.unhold k, .fail 4 a)

/-- Send a synchronous access, checked anew (R226). -/
def State.syncSend (s : State) (w : Who) (k : List Nat) (tries acc a : Nat) (op : SOp) : State × Got :=
  match s.whoCheck w acc a with
  | some key => s.syncGo w k key tries (s.reloadsOf w) acc a op
  | none => (s.unhold k, .fail 4 a)

/-- What another device read under the leaf of a peer page is kept in the slice of its home, unless bytes of the page have been written
meanwhile (R231, R273). -/
def State.keepPeer (s : State) (a : Nat) (b : List Byte) (told : Bool) : State :=
  match homeOf s.fw a with
  | some (d, h) =>
    if d != s.fw.dev || told then s
    else
      (match s.leafOf h a with
       | some (_, l) =>
         if leafAper l != 3 then s
         else (byLines a b).foldl (fun s q => if s.uncached l q.1 then s else s.allocLine h l q.1 fun m => m.clean q.1 q.2) s
       | none => s)
  | none => s

/-- The answer of another device to a synchronous access is used: an atomic that met a poisoned word has failed (R194, R268). -/
def State.syncDone (s : State) (w : Who) (a : Nat) (op : SOp) (r : RemReq) (b : List Byte) : State × Got :=
  if op.writes then
    let s := ((s.setMem (s.mem.forget a op.len)).noteWrite a op.len)
    ((w.core.map fun c => s.dropLines1 c a op.len).getD s,
     match op with
     | .atom .. => if r.bad.isEmpty then .ok b else .fail 0x12 (a / 4 * 4)
     | _ => .ok b)
  else (if r.bad.isEmpty then s.keepPeer a b r.told else s, .ok b)

/-- A synchronous access of a requester: sent, or sent again when its hold has ended, with its key, which is checked anew after an `NR_KEY`
alone (R229) (DESIGN CHOICE, assumption 54). -/
def State.syncOne (s : State) (w : Who) (acc a : Nat) (op : SOp) : State × Got :=
  let k := w.key ++ [acc, a]
  match s.hold? k with
  | none => s.syncSend w k 0 acc a op
  | some h =>
    let again := s.syncGo w k h.pass h.tries h.at_ acc a op
    match h.phase with
    | .signalled false | .replica => again
    | .signalled true => (s.unhold k, .fail 5 a)
    | .landed _ => (s.unhold k, .fail (keyCause k) a)
    | .busy u => if s.now < u then (s, .wait) else again
    | .keyed =>
      if s.reloadsOf w != h.at_ then s.syncSend w k h.tries acc a op else (s.unhold k, .fail (keyCause k) a)
    | .redirected g => if s.mapCurrent w g then again else (s, .wait)
    | .remote =>
      (match look s.fab.reqs h.req with
       | some r =>
         let gone := (s.unhold k).setFab { s.fab with reqs := del s.fab.reqs h.req }
         if r.failed then (gone, .fail 5 a)
         else
           (match r.done with
            | some b => gone.syncDone w a op r b
            | none => (s, .wait))
       | none => (s.unhold k, .fail 5 a))
    | .faulted hm q =>
      (match look (s.home hm).resolved q with
       | some false => again
       | some true => (s.unhold k, .fail 5 a)
       | none => (s, .wait))
    | _ => (s, .wait)

/-- The same; before the ringmaster checks an access for a domain, it reads the domain's turnstile image, as a load of domain 0x0000, where
none has been read since the latest `TSGEN` store (R326, R333) (DESIGN CHOICE, assumption 54). -/
def State.sync (s : State) (w : Who) (acc a : Nat) (op : SOp) : State × Got :=
  if w.core.isSome || w.key.headD 0 = 7 || w.key.headD 0 = 8 || (s.domTs w.dom).isSome then s.syncOne w acc a op
  else
    let keep (s : State) (l : List (BitVec 128)) : State := s.modCtx w.dom fun c => { c with tsImg := some (c.tsGen, l) }
    match s.syncOne { key := [7, 11, w.dom], core := none, launch := 0, dom := 0 } 1 (bits (s.domRec w.dom) 0 64) (.read 512) with
    | (s, .wait) => (s, .wait)
    | (s, .ok b) => (keep s (tsImage b)).syncOne w acc a op
    | (s, .fail _ _) => (keep s []).syncOne w acc a op

/-- The answers of other devices that some accesses have used, of which a later one waits, are kept for the next attempt; `old` is the state
before the first of them. -/
def State.keepAnswers (s old : State) : State :=
  old.net.holds.foldl (fun s h =>
    match look old.fab.reqs h.req with
    | some r =>
      if h.phase == .remote && r.done.isSome && (s.hold? h.key).isNone then
        (s.setNet { s.net with holds := h :: s.net.holds }).setFab { s.fab with reqs := put s.fab.reqs h.req r }
      else s
    | none => s) s

/-- Several accesses made one after another; the first that waits or fails ends them. Reads are gathered. -/
def State.syncAll (s : State) (w : Who) : List (Nat × Nat × SOp) → State × Got
  | [] => (s, .ok [])
  | (acc, a, op) :: r =>
    match s.sync w acc a op with
    | (s', .ok b) =>
      (match State.syncAll s' w r with
       | (s, .ok b') => (s, .ok (b ++ b'))
       | (s', .wait) => (s'.keepAnswers s, .wait)
       | x => x)
    | x => x

/-- Cut a range at page ends. -/
def pagePieces (a : Nat) : Nat → Nat → List (Nat × Nat)
  | 0, _ => []
  | fuel + 1, n =>
    if n = 0 then []
    else
      let k := min n (65536 - a % 65536)
      (a, k) :: pagePieces (a + k) fuel (n - k)

/-- Read a range, page by page. -/
def State.syncRead (s : State) (w : Who) (acc a n : Nat) : State × Got :=
  s.syncAll w ((pagePieces a (n / 65536 + 2) n).map fun q => (acc, q.1, SOp.read q.2))

/-- Write a range, page by page. -/
def State.syncWrite (s : State) (w : Who) (acc a : Nat) (b : List Byte) : State × Got :=
  s.syncAll w ((pagePieces a (b.length / 65536 + 2) b.length).map fun q => (acc, q.1, SOp.write ((b.drop (q.1 - a)).take q.2)))

/-- Bytes of one page that the device itself writes for the runtime, with no check: at their home, or, unanswered, at another device's. -/
def State.devWrite1 (s : State) (a : Nat) (b : List Byte) : State :=
  match homeOf s.fw a with
  | some (d, _) =>
    if d = s.fw.dev then s.homeWriteVa a b outside
    else
      ((s.sendRemote d (fun id => .request s.fw.dev id false a 0 0 { acc := 2, va := a, field := 0xFFF, late := false, life := lifetime, adm := false } (.write b))
        (.command 0 a)).map Prod.fst).getD s
  | none => s

/-- A write the device itself makes for the runtime (reports of errors, snapshots, tables). -/
def State.devWrite (s : State) (a : Nat) (b : List Byte) : State :=
  ((pagePieces a (b.length / 65536 + 2) b.length)).foldl (fun s q => s.devWrite1 q.1 ((b.drop (q.1 - a)).take q.2)) s

/-- The same, waiting until what goes to other devices is performed: whether all is done. -/
def State.devPut (s : State) (key : List Nat) (a : Nat) (b : List Byte) : State × Bool :=
  let here (x : Nat) : Bool := (homeOf s.fw x).all fun d => d.1 == s.fw.dev
  let l := (pagePieces a (b.length / 65536 + 2) b.length).map fun q => (q.1, (b.drop (q.1 - a)).take q.2)
  let s := (l.filter fun q => here q.1).foldl (fun s q => s.homeWriteVa q.1 q.2 outside) s
  match s.syncAll { key := 7 :: key, core := none, launch := 0, dom := 0 } ((l.filter fun q => !here q.1).map fun q => (2, q.1, .write q.2)) with
  | (s, .wait) => (s, false)
  | (s, _) => (s, true)

end Sys2Proof.Machine
end

