-- ==== Sys2Proof/Machine/Operands.lean ====
section
/-!
DEFINITION. Operands and results (F04 R78 to R86, F03 R53 to R55): inline constants, immediates, constant windows, lane
registers and pairs, where a source or a destination stands, and how a result is extended.
-/

namespace Sys2Proof.Machine

/-! ## Inline constants (R82) -/

/-- The integer constants 0 to 13. -/
def inlInts : List Int := [0, 1, 2, 3, 4, 8, 16, 32, 64, 128, 255, -1, -2, -4]

/-- The float constants; log2(e) and ln 2 are held to 120 fraction bits before their rounding. -/
def inlFps : List Fp :=
  [.fin false 0 0, .fin false 1 0, .fin false 2 0, .fin false 3 0, .fin false 4 0, .fin false 8 0, .fin false 1 (-1),
   .fin false 1 (-2), .fin false 1 (-3), .fin false 1917670637729674084946755258930051709 (-120),
   .fin false 921350637599661305226344307672478454 (-120), .fin true 1 0, .fin true 2 0, .fin true 1 (-1), .inf false,
   .inf true]

/-- Inline constant `c` under a type. -/
def inlTy (t : Ty) (c : Nat) : W64 :=
  if t.isFloat || t.isFmt then
    let x := t.fmt.round .rn (inlFps.getD c .nan)
    t.pack (if t.isPacked then [x, x] else [x])
  else if c = 14 then t.ofInt t.hi
  else if c = 15 then t.ofInt t.lo
  else t.ofInt (inlInts.getD c 0)

/-! ## Sources -/

/-- A value cut to what is read (R81). -/
def cut (ra : ReadAs) (x : W64) : W64 :=
  match ra with
  | .ty t => w64 (x.toNat % 2 ^ t.width)
  | .one => w64 (x.toNat % 2 ^ 32)
  | .k64 => x

/-- An imm32 (R84). -/
def immVal (ra : ReadAs) (x : W32) : W64 :=
  match ra with
  | .ty .n64 => x.zeroExtend 64
  | .ty .i64 | .k64 => x.signExtend 64
  | r => cut r (x.zeroExtend 64)

/-- Where a source's words stand in a lane: the high half is marked (R58, R81). Uniform and immediate sources stand nowhere. -/
def Group.srcLocs (g : Group) (l : Nat) (ra : ReadAs) : Src → List (Bool × Loc)
  | .v i => (false, .v (g.D l + i.toNat)) :: if ra.wide then [(true, .v (g.D l + i.toNat + 1))] else []
  | .o i => (false, .o i.toNat) :: if ra.wide then [(true, .o (i.toNat + 1))] else []
  | .lat => [(false, .lat)]
  | _ => []

/-- The value of a source in a lane; `cw` is the word or words of a constant-window operand (R78 to R85). An inline constant
read as one 32-bit operand is the unsigned value cut to 32 bits (DEDUCED, assumption 79). -/
def Group.opnd (g : Group) (cw : W64) (l : Nat) (ra : ReadAs) (src : Src) : W64 :=
  match src with
  | .k i => cut ra (g.kr i)
  | .inl c => (match ra with
    | .ty t => cut ra (inlTy t c.toNat)
    | .one => cut ra (inlTy .n64 c.toNat)
    | .k64 => inlTy .i64 c.toNat)
  | .imm x => immVal ra x
  | .cw _ _ => cut ra cw
  | _ => cut ra ((g.srcLocs l ra src).foldl (fun acc q => capHalf acc q.1 (g.rd l q.2)) 0)

/-- A uniform operand. -/
def Group.kopnd (g : Group) (cw : W64) (ra : ReadAs) (src : Src) : W64 := g.opnd cw 0 ra src

/-! ## Constant windows (R249) -/

/-- The address of a window's word, if it lies within a bound window. -/
def LRec.cwAddr (r : LRec) (w off : Nat) : Option Nat :=
  match r.cwin.getD w none with
  | some (o, n) => if off < n then some ((r.winBase o + 4 * off) % 2 ^ 64) else none
  | none => none

/-- Where a window's word stands in the constant caches, for its launch. -/
def constKey (launch a : Nat) : Nat := launch * 2 ^ 58 + a

/-- A line has been filled into a core's constant cache: another may have to leave, and one must when the cache is full (R1)
(DESIGN CHOICE, assumption 69). -/
def State.roomConst (s : State) (core line : Nat) : State :=
  let l := (((s.core core).ccache.map fun e => lineOf e.1).eraseDups).filter fun x => x != line
  match l[s.pick l.length]? with
  | some x =>
    if Config.constLines ≤ l.length || Config.freeChoice (s.ids + line) % 2 = 1 then
      s.next.modCore core fun K => { K with ccache := keep (fun k _ => !sameLine k x) K.ccache }
    else s.next
  | none => s

/-- A line read for a launch stands in a core's constant cache, with the words of it that are poisoned (R268)
(DESIGN CHOICE, assumption 85). -/
def State.fillConst (s : State) (core launch line : Nat) (b : List Byte) : State :=
  (s.modCore core fun K =>
    { K with
      ccache := ((List.range b.length).zip b).foldl (fun t ib => put t (constKey launch line + ib.1) ib.2) K.ccache
      cbad := (List.range (b.length / 4)).foldl (fun t i =>
        set false t (constKey launch line / 4 + i) (get false s.mem.bad (line / 4 + i))) K.cbad }).roomConst core (constKey launch line)

/-- A word through a core's constant cache: the line is filled first as a load of the launch (R249) (DESIGN CHOICE, assumption 85). -/
def State.cwWord (s : State) (key : List Nat) (core launch w off : Nat) : State × Got :=
  match (s.recOf launch).cwAddr w off with
  | none => (s, .ok [0, 0, 0, 0])
  | some a =>
    let k := constKey launch a
    let have_ := (List.range 4).all fun i => (look (s.core core).ccache (k + i)).isSome
    let read (s : State) : List Byte := (List.range 4).map fun i => get 0 (s.core core).ccache (k + i)
    if have_ then (s, .ok (read s))
    else
      match s.sync { key := key, core := some core, launch := launch, dom := s.domOf launch } 1 (lineOf a) (.read 64) with
      | (s, .ok b) =>
        let s := s.fillConst core launch (lineOf a) b
        (s, .ok (read s))
      | (s, .fail c _) => (s, .fail c a)
      | (s, .wait) => (s, .wait)

/-- The words a constant-window operand reads: one, or two under a 64-bit reading (R85). -/
def State.cwRead (s : State) (key : List Nat) (core launch w off : Nat) (wide : Bool) : State × Got :=
  match s.cwWord key core launch w off with
  | (s, .ok b) =>
    if wide then
      match s.cwWord key core launch w (off + 1) with
      | (s, .ok b') => (s, .ok (b ++ b'))
      | x => x
    else (s, .ok b)
  | x => x

/-- The constant-window operand among the sources of an instruction, if any, read through the cache. -/
def State.cwOf (s : State) (key : List Nat) (core launch : Nat) : List (ReadAs × Src) → State × Got
  | [] => (s, .ok [])
  | (ra, .cw w off) :: _ => s.cwRead key core launch w.toNat off.toNat ra.wide
  | _ :: r => State.cwOf s key core launch r

/-! ## Results -/

/-- A result as its register or pair holds it (R81): sign-extended under `.i8` and `.i16`, else zero-extended. -/
def extend (t : Ty) (x : W64) : W64 :=
  match t with
  | .i8 => (x.extractLsb' 0 8).signExtend 32 |>.zeroExtend 64
  | .i16 => (x.extractLsb' 0 16).signExtend 32 |>.zeroExtend 64
  | t => w64 (x.toNat % 2 ^ t.width)

/-- Where a destination's words stand for window base `base` (R55, R79, R81). -/
def dstLocs (t : Ty) (base : Nat) : Dst → List (Bool × Loc)
  | .v i => (false, .v (base + i.toNat)) :: if t.is64 then [(true, .v (base + i.toNat + 1))] else []
  | .o i => (false, .o i.toNat) :: if t.is64 then [(true, .o (i.toNat + 1))] else []
  | .vo i => (false, .v (base + i.toNat)) :: (false, .o i.toNat)
      :: if t.is64 then [(true, .v (base + i.toNat + 1)), (true, .o (i.toNat + 1))] else []

def half (hi : Bool) (x : W64) : W32 := if hi then hi32 x else lo32 x

/-- The low word of a destination: what `lat` follows (R54). -/
def dstLow (base : Nat) : Dst → Loc
  | .v i | .vo i => .v (base + i.toNat)
  | .o i => .o i.toNat

/-- A result written at once in a lane (R59, R81). -/
def Group.wrDst (g : Group) (l : Nat) (t : Ty) (d : Dst) (x : W64) : Group :=
  (dstLocs t (g.D l) d).foldl (fun g q => g.wr l q.2 (half q.1 (extend t x))) g

/-- `lat` of a lane takes a value at once. -/
def Group.wrLat (g : Group) (l : Nat) (t : Ty) (x : W64) : Group := g.wr l .lat (lo32 (extend t x))

/-- `lat` of an inactive lane: the destination's unchanged value, or pending as the destination is (R54); or, as R100 has it, what it was
(DESIGN CHOICE, assumption 80). -/
def Group.latIdle (g : Group) (l : Nat) (d : Dst) : Group :=
  let loc := dstLow (g.D l) d
  { g with
    lat := if Config.latKept then g.lat else (g.put l .lat (g.rd l loc)).lat
    pend := if Config.latKept then g.pend else (g.setOwners l .lat (g.ownersOf l loc)).pend
    poison := if Config.latKept then g.poison else (g.setBad l .lat (g.isBad l loc)).poison }

/-- A landed result of write `w` in a lane, for the destination as it stood at issue (window base in `wb`). -/
def Group.landDst (g : Group) (w l : Nat) (t : Ty) (d : Dst) (wb : Tab Nat) (x : W64) (bad : Bool) : Group :=
  (dstLocs t (get 0 wb l) d).foldl (fun g q => g.land w l q.2 (half q.1 (extend t x)) bad) g

/-- Mark a destination pending in a lane for write `w` (R58). -/
def Group.pendDst (g : Group) (w l : Nat) (t : Ty) (d : Dst) : Group :=
  (dstLocs t (g.D l) d).foldl (fun g q => g.addOwner l q.2 (w, q.2)) g

end Sys2Proof.Machine
end

