-- ==== Sys2Proof/Machine/Paths.lean ====
section
/-!
DEFINITION. What every instruction works on: the current path, the group's own memory accesses, barriers (R25 to R29), the end
of a group (R24, R27), error records (R353).
-/

namespace Sys2Proof.Machine

/-! ## The current path -/

/-- The path whose turn it is: group slot, arm, and both as they stand. -/
structure Cur where
  g : Nat
  arm : Nat
  grp : Group
  path : Path
deriving DecidableEq, Repr

/-- A path before anything is loaded. -/
def pathReset : Path :=
  { pc := 0, lanes := 0, st := .ready, stack := [], ents := [], last := 0, prog := .none, trap := none, late := none
    rest := 0 }

/-- A group as placement makes it, but for what its launch loads (R44, R120, R121). -/
def groupReset : Group :=
  { launch := 0, block := 0, grp := 0, v := [], o := [], lat := [], k := [], p := [], base := [], floor := [], exm := 0xFFFF,
    exited := 0, gctl := 0x600, tvec := 0, tcause := 0, tpc := 0, taddr := 0, late := 0, quota := 32, arms := [], recon := 0,
    nextEnt := 0, resid := [], pend := [], poison := [], accs := [], xch := [], inTrap := none, preempt := none, owed := none, poisonAt := [] }

def State.grpOf (s : State) (g : Nat) : Group := (s.group? g).getD groupReset
def Group.armOf (g : Group) (a : Nat) : Path := (g.arm? a).getD pathReset
def State.pathOf (s : State) (g a : Nat) : Path := (s.grpOf g).armOf a

def State.path? (s : State) (g a : Nat) : Option Cur :=
  match s.group? g with
  | some G => (G.arm? a).map fun p => { g := g, arm := a, grp := G, path := p }
  | none => none

def State.cur (s : State) : Option Cur :=
  match s.turn with
  | .path g a => s.path? g a
  | .event _ => none

/-- A Lumyna instruction acts on the path whose turn it is (DESIGN CHOICE, assumption 10). -/
def State.onPath (s : State) (f : Cur → State) : Host.Outcome State Fault Refusal :=
  match s.cur with
  | some c => .next (f c)
  | none => .fault .noPath

def State.modPath (s : State) (g a : Nat) (f : Path → Path) : State := s.modGroup g fun G => G.modArm a f

/-- The path tries its instruction again at a later turn; it is in no recognised wait (R72). -/
def State.park (s : State) (c : Cur) : State := s.modPath c.g c.arm fun p => { p with st := .parked }

/-- The path begins, or goes on with, a recognised wait: its timer is loaded when it begins (R37). -/
def State.wait (s : State) (c : Cur) : State :=
  s.modPath c.g c.arm fun p => { p with st := match p.st with | .waiting t => .waiting t | _ => .waiting ((s.grpOf c.g).due s.now) }

def Cur.core (c : Cur) : Nat := slotCore c.g

/-- The active lanes under a guard. -/
def Cur.active (c : Cur) (gd : Guard) : Lanes := c.grp.active c.path gd

/-- Bytes of an instruction. -/
def instrLen (i : Instr) : Nat := ((encode i).map fun ws => 4 * ws.length).getD 8

/-- Whether two ranges of bytes meet: `n` from `a`, `m` from `b`. -/
def rangesMeet (a n b m : Nat) : Bool := a < b + m && b < a + n

/-! ## Accesses a group makes in a step -/

def State.whoG (s : State) (g a : Nat) : Who :=
  { key := [1, g, a], core := some (slotCore g), launch := (s.grpOf g).launch, dom := s.domOf (s.grpOf g).launch }

def ReqKind.isStore : ReqKind → Bool
  | .store | .atom _ => true
  | _ => false

def ownGroup : ReqOf → Option Nat
  | .access g _ => some g
  | _ => none

/-- A write of the group to a byte of the range is still on its way. -/
def State.writesDue (s : State) (g a n : Nat) : Bool :=
  s.net.packets.any fun e => ownGroup e.2.own == some g && e.2.kind.isStore
    && (e.2.lanes.any fun q => rangesMeet q.addr e.2.size a n)

/-- A read of `n` bytes that a path makes as part of an instruction (DESIGN CHOICE, assumption 54). -/
def State.gRead (s : State) (g a addr n : Nat) : State × Got :=
  if s.writesDue g addr n then (s, .wait) else s.syncRead (s.whoG g a) 1 addr n

/-- A write that a path makes as part of an instruction (DESIGN CHOICE, assumption 54). -/
def State.gWrite (s : State) (g a addr : Nat) (b : List Byte) : State × Got :=
  if s.writesDue g addr b.length then (s, .wait) else s.syncWrite (s.whoG g a) 2 addr b

/-! ## Late replies (R266, R309) -/

/-- The lanes an arm holds: its running side's and those of its divergence entries. -/
def Path.allLanes (p : Path) : Lanes := p.ents.foldl (fun m e => m ||| e.2.other.lanes) p.lanes

/-- The path of a group that issued something for some lanes and still runs: one that holds them all, the arm named if it is one. -/
def Group.pathFor (G : Group) (arm : Nat) (lanes : Lanes) : Option Nat :=
  let holds (a : Nat) : Bool := (G.arm? a).any fun p => lanes &&& ~~~ p.allLanes == 0
  if holds arm then some arm else (List.range G.arms.length).find? holds

/-- A late reply or completion counts against a group; with `LATET` the path that issued it for some lanes will take the exhausted-slack trap,
or, where that has dissolved, the first of the group at a boundary (R266, R309). -/
def State.countLate (s : State) (g arm addr : Nat) (lanes : Lanes) : State :=
  s.modGroup g fun G =>
    if G.arms.isEmpty then G
    else
      let G : Group := { G with late := min (G.late + 1) (2 ^ 32 - 1) }
      if G.latet then
        match G.pathFor arm lanes with
        | some a => G.modArm a fun p => if p.late.isSome then p else { p with late := some (w64 addr) }
        | none => if G.owed.isSome then G else { G with owed := some (w64 addr) }
      else G

/-- The final reply to a spill or fill of a path counts where it is late, as one may be whose slack, of entry 0, is finite (R249, R309)
(DESIGN CHOICE, assumption 54). -/
def State.spillLate (s : State) (g a addr : Nat) (held : Bool) : State :=
  let f := s.slackField (s.grpOf g).launch 0
  if f = 0xFFF then s else if held || f = 0 || s.pick 2 = 1 then s.next.countLate g a addr 0 else s.next

/-- A spill of a path, counted where it is late (R309). -/
def State.gSpill (s : State) (g a addr : Nat) (b : List Byte) : State × Got :=
  match s.gWrite g a addr b with
  | (s', .ok x) => (s'.spillLate g a addr (s.heldLate [1, g, a]), .ok x)
  | x => x

/-- A fill of a path, counted where it is late (R309). -/
def State.gFill (s : State) (g a addr n : Nat) : State × Got :=
  match s.gRead g a addr n with
  | (s', .ok x) => (s'.spillLate g a addr (s.heldLate [1, g, a]), .ok x)
  | x => x

/-! ## Error records (R353) -/

/-- Write an error record of a domain; the first is record 0 and has sequence number 1. Of a launch's `GNODE` it
tells in its reserved bytes (R325) (DEDUCED, assumption 15; DESIGN CHOICE, assumption 89). -/
def State.errorRecord (s : State) (dom kind code core addr pc serial : Nat) (gnode : Nat := (s.recOf serial).gnode.toNat) : State :=
  let r := s.domRec dom
  let k := (s.ctx dom).errSeq
  let s := s.devWrite (bits r 512 64 + 32 * (k % bits r 576 32))
    (toBytes 32 (kind % 256 + code % 256 * 2 ^ 8 + core * 2 ^ 16 + Config.gnodeMark gnode % 2 ^ 32 * 2 ^ 32 + addr % 2 ^ 64 * 2 ^ 64 + pc % 2 ^ 64 * 2 ^ 128
      + serial % 2 ^ 32 * 2 ^ 192 + (k + 1) % 2 ^ 32 * 2 ^ 224))
  s.modCtx dom fun c => { c with errSeq := k + 1 }

/-! ## Barriers (R25 to R28) -/

def barReset : Barrier := { phase := 0, count := 0, arrived := [], ghosts := 0 }

/-- Complete every phase whose count has been reached; `live` member groups have not ended (R25 to R27, R118). Arrivals
carried into a new phase are no group's arrival in it (DEDUCED, assumption 59). -/
def Barrier.settle (b : Barrier) (live : Nat) : Barrier :=
  if live + b.ghosts = 0 || b.count < live + b.ghosts then b
  else
    let rest := b.count - (live + b.ghosts)
    if live = 0 then { phase := b.phase + 1, count := rest, arrived := [], ghosts := 0 }
    else { phase := b.phase + 1 + BitVec.ofNat 32 (rest / live), count := rest % live, arrived := [], ghosts := 0 }

/-- Group `g` arrives with a count (DEDUCED, assumption 59). -/
def Barrier.arrive (b : Barrier) (g n live : Nat) : Barrier :=
  Barrier.settle
    { b with count := b.count + n, arrived := if b.arrived.contains g then b.arrived else g :: b.arrived } live

/-- Group `g`, no longer counted in `live`, has ended (R27) (DEDUCED, assumption 59). -/
def Barrier.lapse (b : Barrier) (g live : Nat) : Barrier :=
  Barrier.settle
    (if b.arrived.contains g then { b with arrived := b.arrived.filter fun x => x != g, ghosts := b.ghosts + 1 } else b) live

/-- Whether the phase number has passed `q` (R26). -/
def Barrier.passed (b : Barrier) (q : W32) : Bool := 1 ≤ (b.phase - q).toNat && (b.phase - q).toNat ≤ 2 ^ 31

def State.gangLive (s : State) (k : Nat) : Nat :=
  ((s.gang? k).map fun G => (G.blocks.map fun b => ((s.block? b).map fun B => B.live.length).getD 0).sum).getD 0

/-- Groups of a launch that have not ended, those of blocks not yet placed included. -/
def State.launchLive (s : State) (l : Nat) : Nat :=
  let r := s.recOf l
  let gone := ((s.launch? l).map Launch.gangsDone).getD 0 * r.ngang * r.ngrp
  let ended := (s.blocks.map fun e => if e.2.launch == l then r.ngrp - e.2.live.length else 0).sum
  r.blocks * r.ngrp - gone - ended

def State.barLive (s : State) (c : Cur) : BarLevel → Nat
  | .blk => ((s.block? c.grp.block).map fun b => b.live.length).getD 0
  | .gang => s.gangLive (((s.block? c.grp.block).map Block.gang).getD 0)
  | .launch => s.launchLive c.grp.launch

/-- A barrier of the current path's block, gang or launch. -/
def State.barOf (s : State) (c : Cur) (lv : BarLevel) (n : Nat) : Barrier :=
  match lv with
  | .blk => get barReset (((s.block? c.grp.block).map Block.bars).getD []) n
  | .gang => get barReset (((s.gang? (((s.block? c.grp.block).map Block.gang).getD 0)).map Gang.bars).getD []) n
  | .launch => get barReset (((s.launch? c.grp.launch).map Launch.bars).getD []) n

def State.setBar (s : State) (c : Cur) (lv : BarLevel) (n : Nat) (b : Barrier) : State :=
  match lv with
  | .blk => s.modBlock c.grp.block fun B => { B with bars := put B.bars n b }
  | .gang => s.modGang (((s.block? c.grp.block).map Block.gang).getD 0) fun G => { G with bars := put G.bars n b }
  | .launch => s.modLaunch c.grp.launch fun L => { L with bars := put L.bars n b }

/-! ## The end of a group (R24, R27) -/

/-- A group's membership of its barriers lapses (R27). -/
def State.lapse (s : State) (g : Nat) : State :=
  let G := s.grpOf g
  let s := s.modBlock G.block fun B => { B with live := B.live.filter fun x => x != g }
  let k := ((s.block? G.block).map Block.gang).getD 0
  let nb := ((s.block? G.block).map fun b => b.live.length).getD 0
  let s := s.modBlock G.block fun B => { B with bars := mapv (fun _ b => b.lapse g nb) B.bars }
  let s := s.modGang k fun K => { K with bars := mapv (fun _ b => b.lapse g (s.gangLive k)) K.bars }
  s.modLaunch G.launch fun L => { L with bars := mapv (fun _ b => b.lapse g (s.launchLive G.launch)) L.bars }

/-- A group ends: no path is left, and nothing of its residual file runs (R24). -/
def State.groupEnd (s : State) (g : Nat) : State :=
  (s.modGroup g fun G =>
    { G with arms := [], exited := 0xFFFF, exm := 0, resid := [], pend := [], xch := [], inTrap := none }).lapse g

end Sys2Proof.Machine
end

