-- ==== Sys2Proof/Machine/Ops.lean ====
section
/-!
DEFINITION. The operations every family shares: taking a trap and returning from one (R124 to R127, R347 to R350), the spill area
(R48, R49), reconvergence and the divergence stack (R30 to R32), moving a path, diverging it and ending its lanes.
-/

namespace Sys2Proof.Machine

/-! ## Residual entries of a path -/

/-- Whether a residual entry is one of a path: it was deferred for lanes the path holds (R66, R68). -/
def Resid.ofPath (e : Resid) (a : Nat) (p : Path) : Bool := e.mask &&& p.allLanes != 0 || (e.mask == 0 && e.arm == a)

/-- Residual entries issued to memory whose access has not ended: they still count as entries of the file (R62, R66, R68)
(DESIGN CHOICE, assumption 90). -/
def Group.issued (g : Group) : List Resid := g.accs.filterMap fun a => a.entry

/-- Residual entries of a path. -/
def Group.residOf (g : Group) (a : Nat) : List Resid := (g.resid ++ g.issued).filter fun e => e.ofPath a (g.armOf a)

/-- Residual entries in use by a group (R67, R122). -/
def Group.residUsed (g : Group) : Nat := g.resid.length + g.issued.length

/-- A draining instruction may issue: no residual entry of its path remains (R66). -/
def Cur.drained (c : Cur) : Bool := (c.grp.residOf c.arm).isEmpty

/-! ## The trap frame (R347, R350) -/

/-- The frame of a group slot under a domain. -/
def State.frameBase (s : State) (g dom : Nat) : Nat := bits (s.domRec dom) 320 64 + 16384 * g

def bytesOf64 (x : W64) : List Byte := toBytes 8 x.toNat

/-- What a captured source waits on, in the format of R350; a predicate is given level 0b11 (DESIGN CHOICE, assumption 20). -/
def Cap.waitWord (c : Cap) : W64 :=
  if c.await.isEmpty then BitVec.allOnes 64
  else
    let lanes := c.await.foldl (fun m a => m ||| Lanes.one a.1) 0
    let reg := match c.reg with
      | some (.v pos) => pos
      | some (.o i) => 2 ^ 32 + i
      | some .lat => 2 * 2 ^ 32
      | some (.p i) => 3 * 2 ^ 32 + i
      | none => 0
    w64 (lanes.toNat * 2 ^ 48 + reg)

/-- A residual entry as the frame holds it (R350) (DESIGN CHOICE, assumption 20). -/
def Resid.image (e : Resid) : List Byte :=
  let caps := (List.range 4).map fun j => e.caps[j]?
  bytesOf64 e.pc
    ++ toBytes 8 (e.mask.toNat + (if e.arm = 1 then 2 ^ 16 else 0) + (if e.done then 2 ^ 17 else 0)
        + (if (e.gcap.map fun c => c.await).getD [] = [] then 0 else 2 ^ 18))
    ++ ((e.words ++ List.replicate 4 0).take 4).flatMap bytes32
    ++ caps.flatMap (fun c => (List.range 16).flatMap fun l => bytesOf64 (get 0 ((c.map Cap.vals).getD []) l))
    ++ caps.flatMap (fun c => bytesOf64 ((c.map Cap.waitWord).getD (BitVec.allOnes 64)))
    ++ (List.range 16).flatMap fun l => bytesOf64 (get 0 e.result l)

/-- The frame's content at trap entry, as runs of bytes by offset. `cause` is the new `TCAUSE`. -/
def Group.frame (g : Group) (p : Path) (cause tpc taddr resume : W64) : List (Nat × List Byte) :=
  [(0, ([28, 29, 30, 31].flatMap fun i => bytesOf64 (g.kr i))
      ++ toBytes 8 ((g.exmOf p).toNat + p.lanes.toNat * 65536) ++ bytesOf64 g.gctl
      ++ bytesOf64 cause ++ bytesOf64 tpc ++ bytesOf64 taddr ++ bytesOf64 resume),
   (0x80, ((List.range 16).flatMap fun l => bytes32 (g.rd l .lat)) ++ toBytes 8 g.resid.length),
   (0x200, g.resid.flatMap Resid.image)]

/-- Runs of bytes written one after another by a group. -/
def State.gWrites (s : State) (g a base : Nat) : List (Nat × List Byte) → State × Got
  | [] => (s, .ok [])
  | (off, b) :: r =>
    if b.isEmpty then State.gWrites s g a base r
    else
      match s.gWrite g a (base + off) b with
      | (s, .ok _) => State.gWrites s g a base r
      | x => x

/-! ## Waits given up -/

/-- A tag is given back. -/
def State.freeTag (s : State) (core tag : Nat) : State :=
  s.modCore core fun c => { c with tags := upd c.tags tag fun t => { t with owner := none, done := false } }

/-- A place in a queue for claims, releases, tags or the reservation table is given up. -/
def State.unqueue (s : State) (core id : Nat) : State :=
  let s := match s.cmd? id with
    | some c => (s.freeTag core c.tag).setCmds (del s.cmds id)
    | none => s
  let s := s.modCore core fun c => { c with tagWait := c.tagWait.filter fun w => w.id != id }
  s.modQuad (coreQuad core) fun q =>
    { q with sWait := q.sWait.filter fun c => c.id != id, tWait := q.tWait.filter fun c => c.id != id
             rels := q.rels.filter fun c => c.id != id, posting := q.posting.filter fun i => i != id }

/-- The wait of a path is set aside: a poll's outstanding read, an unmatched exchange and a place in a queue are dropped, to issue
anew (R39, R42). -/
def State.withdraw (s : State) (g a : Nat) : State :=
  match (s.pathOf g a).prog with
  | .acc id =>
    let s := s.setNet { s.net with packets := keep (fun _ p => p.own != .access g id) s.net.packets }
    let s := s.modGroup g fun G =>
      let G := (List.range 16).foldl (fun G l => G.forsake id l) G
      { G with accs := G.accs.filter fun x => x.id != id, xch := G.xch.filter fun x => x.id != id }
    s.modPath g a fun p => { p with prog := .none }
  | .ticket id => (s.unqueue (slotCore g) id).modPath g a fun p => { p with prog := .none }
  | .launch tag _ _ => (s.freeTag (slotCore g) tag).modPath g a fun p => { p with prog := .none }
  | .join _ _ _ | .mask _ => s.modPath g a fun p => { p with prog := .none }
  | _ => s

/-- What a pending `lat` awaits, by lane: its youngest writer. -/
def Group.latCap (g : Group) : Cap :=
  { reg := some .lat, vals := [], bad := 0
    await := (List.range 16).filterMap fun l => (g.ownersOf l .lat).head?.map fun w => (l, false, w.1, w.2) }

/-! ## Taking a trap (R124, R125, R349) -/

/-- A double trap: the group halts, its membership lapses, a record of kind 0x03 is written, and the launch will complete with
status 0x26 (R349). -/
def State.doubleTrap (s : State) (g : Nat) (cause : Byte) (addr pc : W64) : State :=
  let G := s.grpOf g
  let s := s.errorRecord (s.domOf G.launch) 3 cause.toNat (slotCore g) addr.toNat pc.toNat G.launch
  let s := s.modLaunch G.launch fun L => { L with status := 0x26 }
  s.groupEnd g

/-- Traps that are not precise: exhausted slack and pre-emption save are taken at an instruction boundary (R124, R340). -/
def TrapReq.atBoundary (t : TrapReq) : Bool := t.cause == 0x0A || t.cause == 0x0C

/-- A trap raised may be taken once every older residual entry of its path has run (R68, R124). -/
def Group.trapReady (g : Group) (a : Nat) (t : TrapReq) : Bool :=
  t.atBoundary ||
    (g.residOf a).all fun e =>
      match t.entry with
      | some id => id ≤ e.id
      | none => false

/-- Trap entry (R125) for the trap raised in arm `a` of group `g`, if it may be taken now; while a store of the frame waits, the
trap stays raised. In the handler a further trap is a double trap, but an exhausted-slack or pre-emption-save trap is held. -/
def State.trapEntry (s : State) (g a : Nat) : State :=
  let G := s.grpOf g
  let p := G.armOf a
  match p.trap with
  | none => s
  | some t =>
    if !G.trapReady a t then s
    else if G.inTrap.isSome then
      if t.atBoundary then s else s.doubleTrap g t.cause (t.taddr.getD 0) t.tpc
    else
      let dom := s.domOf G.launch
      let base := s.frameBase g dom
      let cause : W64 := (t.detail ++ t.cause).zeroExtend 64
      let taddr := t.taddr.getD G.taddr
      let tpc := t.tpc &&& ~~~ 3#64
      let resume := if t.entry.isSome then p.pc else t.resume
      match s.gWrites g a base (G.frame p cause tpc taddr resume) with
      | (s, .wait) => s
      | (s, .fail c x) => s.doubleTrap g c (w64 x) t.tpc
      | (s, .ok _) =>
        (s.withdraw g a).modGroup g fun G =>
          let G : Group := { G with
            tcause := cause, tpc := tpc, taddr := taddr
            inTrap := some { arm := a, other := G.arms.length == 2, lanes := p.lanes, frame := base, resume := resume, cause := t.cause, gctl := G.gctl
                             prog := (G.armOf a).prog, lat := G.latCap, saved := G.resid }
            resid := []
            exm := G.exm ||| G.liveOf p
            gctl := G.gctl &&& ~~~ 3#64 }
          let G := (((G.kw 28 cause).kw 29 tpc).kw 30 taddr).kw 31 (w64 base)
          G.modArm a fun p => { p with pc := G.tvec, st := .ready, prog := .none, trap := none }

/-- Raise a trap in a path: it has no effect but the trap, and is taken at once where nothing older remains (R124). -/
def State.raise (s : State) (g a : Nat) (t : TrapReq) : State :=
  (s.modPath g a fun p => { p with trap := some t, st := .ready }).trapEntry g a

/-- A precise trap at the current instruction. -/
def State.trapAt (s : State) (c : Cur) (cause : Byte) (taddr : Option W64) : State :=
  s.raise c.g c.arm { cause := cause, detail := 0, tpc := c.path.pc, taddr := taddr, resume := c.path.pc, entry := none }

def State.illegal (s : State) (c : Cur) : State := s.trapAt c 1 none

/-- A failed access of a step, as the trap its instruction takes: 0x04 or 0x05 (R123). -/
def State.trapGot (s : State) (c : Cur) (cause : Byte) (addr : Nat) : State := s.trapAt c cause (some (w64 addr))

/-! ## The spill area (R48, R49) -/

def State.spillBase (s : State) (G : Group) : Nat :=
  let r := s.recOf G.launch
  (r.spbase.toNat + s.groupNo G * r.spsize) % 2 ^ 64

/-- Spill positions of divergence entries in use by a group, of either arm. -/
def Group.spills (g : Group) : List Nat := g.arms.flatMap fun p => p.ents.filterMap fun e => e.2.spill

/-- Register bands in use by a group: every lane's units below its fill floor (DEDUCED, assumption 17). -/
def Group.bands (g : Group) : Nat := ((List.range 16).map fun l => g.F l / 8).foldl max 0

/-- The lowest byte offset a divergence entry in use stands at. -/
def Group.spillFloor (g : Group) (size : Nat) : Nat := (g.spills.map fun e => size - 32 * (e + 1)).foldl min size

/-- Whether band `k` of registers fits below the divergence entries (DEDUCED, assumption 17). -/
def Group.bandFits (g : Group) (size k : Nat) : Bool := 512 * (k + 1) ≤ g.spillFloor size

/-- The lowest free position for a divergence entry. -/
def Group.freeSpill (g : Group) : Nat := ((List.range (g.spills.length + 1)).find? fun e => !g.spills.contains e).getD 0

/-- Address of stack position `pos` of a lane in the spill area (R48). -/
def State.spillAddr (s : State) (G : Group) (l pos : Nat) : Nat :=
  (s.spillBase G + 512 * (pos / 8) + 32 * l + 4 * (pos % 8)) % 2 ^ 64

/-- Spill one unit of a lane: stack positions `f` to `f + 7` (R45). -/
def State.spillUnit (s : State) (g a l f : Nat) : State × Got :=
  let G := s.grpOf g
  if !G.bandFits (s.recOf G.launch).spsize (f / 8) then (s, .fail 7 0)
  else s.gSpill g a (s.spillAddr G l f) ((List.range 8).flatMap fun i => bytes32 (G.rd l (.v (f + i))))

/-- Fill one unit of a lane: stack positions `f` to `f + 7` as the spill area holds them (R46, R49). -/
def State.fillUnit (s : State) (g a l f : Nat) : State × Got :=
  match s.gFill g a (s.spillAddr (s.grpOf g) l f) 32 with
  | (s, .ok b) =>
    (s.modGroup g fun G =>
      let G := (List.range 8).foldl (fun G i => G.put l (.v (f + i)) (word32 (b.drop (4 * i)))) G
      { G with floor := set 0 G.floor l f }, .ok [])
  | x => x

/-- The spill-area trap at the current instruction: exhaustion gives no address, a failed access its own (R48, R49). -/
def State.spillTrap (s : State) (c : Cur) (cause : Byte) (addr : Nat) : State :=
  s.trapAt c 7 (if cause = 7 then none else some (w64 addr))

/-! ## The divergence stack on chip and in the spill area (R32) -/

/-- Entries on chip, of either arm: arm and number, oldest first. -/
def Group.onChip (g : Group) : List (Nat × Nat) :=
  let l := (List.range g.arms.length).flatMap fun a =>
    (g.armOf a).ents.filterMap fun e => if e.2.spill.isNone then some (a, e.1) else none
  l.insertionSort fun x y => x.2 ≤ y.2

def State.modEnt (s : State) (g a e : Nat) (f : DivE → DivE) : State :=
  s.modPath g a fun p => { p with ents := upd p.ents e f }

/-- Spill the oldest entry on chip if the stack is full (R32, R48) (DEDUCED, assumption 17; DESIGN CHOICE, assumption 21). -/
def State.makeRoom (s : State) (g a : Nat) : State × Got :=
  let G := s.grpOf g
  match G.onChip with
  | [] => (s, .ok [])
  | (a', e) :: _ =>
    if G.onChip.length < Config.dstkCap then (s, .ok [])
    else
      let size := (s.recOf G.launch).spsize
      let pos := G.freeSpill
      if size < 32 * (pos + 1) || size - 32 * (pos + 1) < 512 * G.bands then (s, .fail 7 0)
      else
        match s.gSpill g a ((s.spillBase G + size - 32 * (pos + 1)) % 2 ^ 64) (freeBytes s.ids 32) with
        | (s, .ok _) => ((s.next).modEnt g a' e fun d => { d with spill := some pos }, .ok [])
        | x => x

/-- Read a spilled entry back; its content is kept beside its bytes, whose layout the manual does not give
(DEDUCED, assumption 16; DESIGN CHOICE, assumption 21). -/
def State.refill (s : State) (g a e : Nat) : State × Got :=
  match (look (s.pathOf g a).ents e).bind DivE.spill with
  | none => (s, .ok [])
  | some pos =>
    match s.makeRoom g a with
    | (s, .ok _) =>
      let G := s.grpOf g
      (match s.gFill g a ((s.spillBase G + (s.recOf G.launch).spsize - 32 * (pos + 1)) % 2 ^ 64) 32 with
       | (s, .ok _) => (s.modEnt g a e fun d => { d with spill := none }, .ok [])
       | x => x)
    | x => x

/-! ## Reconvergence (R30, R31, R114) -/

/-- Both arms at the reconvergence point: one path again, with the union of their lanes. -/
def Group.meet (g : Group) : Group :=
  match g.arms with
  | [x, y] =>
    if x.st = .atRecon && y.st = .atRecon then
      { g with
        arms := [{ pathReset with pc := g.recon, lanes := x.lanes ||| y.lanes, last := max x.last y.last
                                  late := if x.late.isSome then x.late else y.late, rest := max x.rest y.rest }]
        resid := g.resid.map fun e => { e with arm := 0 }
        accs := g.accs.map fun e => { e with arm := 0 } }
    else g
  | _ => g

/-- Whether a path stands at the point where it must act on its divergence: pending only while a refill waits. -/
def Group.atPoint (g : Group) (a : Nat) : Bool :=
  let p := g.armOf a
  match p.stack with
  | [] => g.arms.length == 2 && p.pc == g.recon && p.st != .atRecon
  | e :: _ => ((look p.ents e).map fun d => d.recon == p.pc || g.liveOf p == 0).getD false

/-- Act on the divergence wherever the running side has reached its reconvergence PC, or has lost its last lane
(DEDUCED, assumption 16). -/
def State.arrive : Nat → State → Nat → Nat → State
  | 0, s, _, _ => s
  | fuel + 1, s, g, a =>
    let G := s.grpOf g
    let p := G.armOf a
    match p.stack with
    | [] =>
      if G.arms.length = 2 && (p.pc = G.recon || G.liveOf p = 0) then
        (s.modGroup g fun G => (G.modArm a fun p => { p with st := .atRecon }).meet)
      else s
    | e :: rest =>
      match look p.ents e with
      | none => s
      | some d =>
        if p.pc != d.recon && G.liveOf p != 0 then s
        else
          match s.refill g a e with
          | (s, .wait) => s.modPath g a fun p => { p with st := .ready }
          | (s, .fail c x) =>
            s.raise g a { cause := 7, detail := 0, tpc := p.pc, taddr := if c = 7 then none else some (w64 x)
                          resume := p.pc, entry := none }
          | (s, .ok _) =>
            if d.second then
              State.arrive fuel
                (s.modPath g a fun p =>
                  { p with pc := d.recon, lanes := p.lanes ||| d.other.lanes, stack := rest, ents := del p.ents e
                           st := .ready, prog := .none }) g a
            else
              State.arrive fuel
                (s.modPath g a fun p =>
                  { p with pc := d.other.pc, lanes := d.other.lanes, stack := d.other.stack ++ e :: rest, st := .ready
                           prog := d.other.prog
                           ents := put p.ents e { d with other := { pc := d.recon, lanes := p.lanes, stack := [], prog := .none }
                                                         second := true, spill := none } }) g a

/-- Steps of reconvergence a path can make at one point. -/
def Group.arriveFuel (g : Group) (a : Nat) : Nat := 2 * (g.armOf a).ents.length + 4

def State.settlePath (s : State) (g a : Nat) : State := s.arrive ((s.grpOf g).arriveFuel a) g a

/-- Move a path: it has issued its instruction and goes on at `pc`. -/
def State.goto (s : State) (c : Cur) (pc : W64) : State :=
  (s.modPath c.g c.arm fun p => { p with pc := pc, st := .ready, prog := .none, last := s.tick }).settlePath c.g c.arm

/-- The instruction is done and the path goes on with the next one (R74). -/
def State.advance (s : State) (c : Cur) (i : Instr) : State := s.goto c (c.path.pc + w64 (instrLen i))

/-- The address of the next instruction. -/
def Cur.nextPc (c : Cur) (i : Instr) : W64 := c.path.pc + w64 (instrLen i)

/-! ## Divergence (R30, R31, R113) -/

/-- Split a path: the lanes of `taken` at `tpc`, the rest of its lane set at `fpc`, to meet at `recon`. A converged group becomes
two arms; an arm pushes an entry and its fall-through side runs first. What was deferred before for lanes of both sides is arm 0's
(DESIGN CHOICE, assumption 78). -/
def State.diverge (s : State) (c : Cur) (taken : Lanes) (tpc fpc recon : W64) : State :=
  let rest := c.path.lanes &&& ~~~ taken
  if c.grp.arms.length < 2 then
    let s := s.modGroup c.g fun G => { G with
      recon := recon
      resid := G.resid.map fun e => { e with arm := if e.mask &&& rest = 0 && e.mask &&& taken != 0 then 1 else 0 }
      accs := G.accs.map fun e => { e with arm := if e.lanes &&& rest = 0 && e.lanes &&& taken != 0 then 1 else 0 }
      arms := [{ c.path with pc := fpc, lanes := rest, st := .ready, prog := .none, last := s.tick },
               { c.path with pc := tpc, lanes := taken, st := .ready, prog := .none, last := s.tick, late := none }] }
    (s.settlePath c.g 0).settlePath c.g 1
  else
    match s.makeRoom c.g c.arm with
    | (s, .wait) => s.park c
    | (s, .fail x a) => s.spillTrap c x a
    | (s, .ok _) =>
      let e := (s.grpOf c.g).nextEnt
      let s := s.modGroup c.g fun G => { G with nextEnt := e + 1 }
      (s.modPath c.g c.arm fun p =>
        { p with
          pc := fpc, lanes := rest, stack := e :: p.stack, st := .ready, prog := .none, last := s.tick
          ents := put p.ents e { recon := recon, other := { pc := tpc, lanes := taken, stack := [], prog := .none }
                                 second := false, spill := none } }).settlePath c.g c.arm

/-! ## Lanes that end (R24, R114, R127) -/

/-- No lane of the group is live on any path. -/
def Group.dead (g : Group) : Bool := g.arms.all fun p => p.allLanes &&& ~~~ g.exited == 0

/-- Lanes end: they leave `EXM` for good, and a side that has lost its last lane dissolves. -/
def State.endLanes (s : State) (g a : Nat) (m : Lanes) : State :=
  let s := s.modGroup g fun G => { G with exited := G.exited ||| m, exm := G.exm &&& ~~~ m }
  if (s.grpOf g).dead then s.groupEnd g
  else s.settlePath g a

/-! ## Return from a trap (R126, R69) -/

/-- A restored entry: what the frame holds where it holds it, what is still awaited where it does not. -/
def Resid.restore (e : Resid) (img : List Byte) : Resid :=
  let word (o : Nat) : Nat := ofBytes ((img.drop o).take 8)
  let flags := word 8
  let words := wordsOf 4 ((img.drop 16).take 16)
  let same := (words.take e.words.length) == e.words
  let cap (j : Nat) (c : Cap) : Cap :=
    let wt := word (544 + 8 * j)
    let waits (l : Nat) : Bool := wt != 2 ^ 64 - 1 && wt.testBit (48 + l)
    { c with
      vals := (List.range 16).foldl (fun t l =>
        if waits l then t else set 0 t l (w64 (word (32 + 128 * j + 8 * l)))) c.vals
      await := c.await.filter fun q => waits q.1 }
  { e with
    pc := w64 (word 0) &&& ~~~ 3#64
    mask := BitVec.ofNat 16 flags
    done := flags.testBit 17
    gcap := e.gcap.map fun c => if flags.testBit 18 then c else { c with await := [] }
    words := if same then e.words else words
    instr := if same then e.instr else (decodeWords (words.take (lenOf (words.headD 0) / 4))).getD e.instr
    caps := (e.caps.zip (List.range e.caps.length)).map fun q => cap q.2 q.1
    failed := false
    result := (List.range 16).foldl (fun t l => set 0 t l (w64 (word (576 + 8 * l)))) [] }

/-- The return from a trap: the frame is read, and what it holds is restored (R126, R348). It waits until the residual file has room
for the entries saved (DEDUCED, assumption 68). -/
def State.trapReturn (s : State) (c : Cur) (t : InTrap) : State :=
  match s.gRead c.g c.arm t.frame 0x50 with
  | (s, .wait) => s.park c
  | (s, .fail x a) => s.doubleTrap c.g x (w64 a) c.path.pc
  | (s, .ok b) =>
    match s.gRead c.g c.arm (t.frame + 0x80) 72 with
    | (s, .wait) => s.park c
    | (s, .fail x a) => s.doubleTrap c.g x (w64 a) c.path.pc
    | (s, .ok b2) =>
      let n := min (ofBytes (b2.drop 64)) t.saved.length
      if Config.residCap < n + c.grp.residUsed then s.park c
      else match (if n = 0 then (s, Got.ok []) else s.gRead c.g c.arm (t.frame + 0x200) (704 * n)) with
      | (s, .wait) => s.park c
      | (s, .fail x a) => s.doubleTrap c.g x (w64 a) c.path.pc
      | (s, .ok b3) =>
        let word (o : Nat) : W64 := w64 (ofBytes ((b.drop o).take 8))
        let pc := if t.cause = 0x0B then word 0x48 &&& ~~~ 3#64 else (s.grpOf c.g).tpc
        let s := s.modGroup c.g fun G =>
          let live := G.liveOf c.path
          let G : Group := { G with
            exm := (G.exm &&& ~~~ live) ||| (BitVec.ofNat 16 (word 0x20).toNat &&& live)
            gctl := word 0x28 &&& gctlMask
            lat := (List.range 16).foldl (fun m l =>
              set 0 m l (match look t.lat.vals l with
                | some x => lo32 x
                | none => word32 (b2.drop (4 * l)))) G.lat
            resid := ((((t.saved.take n).zip (List.range n)).map fun q => q.1.restore (b3.drop (704 * q.2))) ++ G.resid)
            inTrap := none }
          let G := (List.range 16).foldl (fun G l =>
            G.setOwners l .lat ((t.lat.await.filter fun q => q.1 == l).map fun q => (q.2.2.1, q.2.2.2))) G
          [28, 29, 30, 31].foldl (fun G i => G.kw (BitVec.ofNat 5 i) (word (8 * (i - 28)))) G
        (s.goto c pc).modPath c.g c.arm fun p => if pc = t.resume then { p with prog := t.prog } else p

end Sys2Proof.Machine
end

