-- ==== Sys2Proof/Machine/Slide.lean ====
section
/-!
DEFINITION. Sliding the register window (R43 to R49) and moving quota (R50, R51): spills, fills, link words.
-/

namespace Sys2Proof.Machine

/-! ## Spills and fills of several units -/

/-- Units a lane must spill to fit a quota: stack positions of their first words (R45 step 3). -/
def Group.overUnits (g : Group) (q l : Nat) : List (Nat × Nat) :=
  (List.range ((g.D l + 32 - g.F l - q + 7) / 8)).map fun i => (l, g.F l + 8 * i)

/-- Whether a unit holds a pending register, or one a residual entry will write (R49). -/
def Group.unitPend (g : Group) (l f : Nat) : Bool := (List.range 8).any fun i => g.isPend l (.v (f + i))

/-- Spill units one after another, each leaving the register file as it goes. -/
def State.spillUnits (s : State) (g a : Nat) : List (Nat × Nat) → State × Got
  | [] => (s, .ok [])
  | (l, f) :: r =>
    match s.spillUnit g a l f with
    | (s, .ok _) =>
      State.spillUnits (s.modGroup g fun G =>
        { ((List.range 8).foldl (fun G i => (G.put l (.v (f + i)) 0).setBad l (.v (f + i)) false) G) with
          floor := set 0 G.floor l (f + 8) }) g a r
    | x => x

def State.fillUnits (s : State) (g a : Nat) : List (Nat × Nat) → State × Got
  | [] => (s, .ok [])
  | (l, f) :: r =>
    match s.fillUnit g a l f with
    | (s, .ok _) => State.fillUnits s g a r
    | x => x

/-- A step that goes on, or that has ended here (parked or trapped). -/
inductive Slid where
  | on (s : State)
  | off (s : State)
deriving DecidableEq, Repr

/-! ## Calls (R45 to R47) -/

def slideOf (code : BitVec 2) : Nat := 8 * code.toNat

/-- The link word of a call that returns to `ret` (R45). -/
def linkWord (code : BitVec 2) (ret : W64) : W32 := ret.extractLsb' 2 30 ++ code

/-- The window of each calling lane slides by `code`: link word, D, spills (R45, R49). -/
def State.callSlide (s : State) (c : Cur) (m : Lanes) (code : BitVec 2) (ret : W64) : Slid :=
  let n := slideOf code
  let G0 := s.grpOf c.g
  let q := G0.quota
  if m.list.any fun l => 65535 < G0.D l + n + 31 then .off (s.spillTrap c 7 0)
  else
    let G := m.list.foldl (fun (G : Group) l =>
      { (G.wr l (.v (G.D l + n - 1)) (linkWord code ret)) with base := set 0 G.base l (G.D l + n) }) G0
    let units := m.list.flatMap fun l => G.overUnits q l
    if units.any fun u => G.unitPend u.1 u.2 then .off (s.park c)
    else
      match (s.modGroup c.g fun _ => G).spillUnits c.g c.arm units with
      | (s, .ok _) => .on s
      | (s, .wait) => .off ((s.modGroup c.g fun _ => G0).park c)
      | (s, .fail x a) => .off ((s.modGroup c.g fun _ => G0).spillTrap c x a)

/-! ## Returns (R46) -/

/-- Units a returning lane must fill for a new window base. -/
def Group.underUnits (g : Group) (l d : Nat) : List (Nat × Nat) :=
  (List.range ((g.F l - d + 7) / 8)).map fun i => (l, g.F l - 8 * (i + 1))

/-- The link word a lane returns by. -/
def Group.link (g : Group) (l : Nat) : W32 := g.rd l (.v (g.D l - 1))

/-- The window base after a return by a link word; none where the code is 0b00 or names too large a slide. -/
def retBase (d : Nat) (link : W32) : Option Nat :=
  let n := slideOf (link.extractLsb' 0 2)
  if n = 0 || d < n then none else some (d - n)

/-- The return address a link word names in the region of the `RET` (R46 step 6). -/
def retAddr (pc : W64) (link : W32) : W64 := hi32 pc ++ (link.extractLsb' 2 30 ++ 0#2)

/-- Steps 1 to 5 of R46 for the returning lanes, and the agreement of R116; the return address. A position above the
window keeps what was written there last (DESIGN CHOICE, assumption 77). -/
def State.retSlide (s : State) (c : Cur) (m : Lanes) : Slid × W64 :=
  if m.list.any fun l => c.grp.D l = 0 then (.off (s.illegal c), 0)
  else
    let need := (m.list.filter fun l => c.grp.D l - 1 < c.grp.F l).map fun l => (l, c.grp.F l - 8)
    match s.fillUnits c.g c.arm need with
    | (s, .wait) => (.off (s.park c), 0)
    | (s, .fail x a) => (.off (s.spillTrap c x a), 0)
    | (s, .ok _) =>
      let G := s.grpOf c.g
      let ret := retAddr c.path.pc (G.link (lowLane m))
      if m.list.any fun l => G.isPend l (.v (G.D l - 1)) then (.off (s.park c), 0)
      else if m.list.any fun l => (retBase (G.D l) (G.link l)).isNone || retAddr c.path.pc (G.link l) != ret then
        (.off (s.illegal c), 0)
      else
        let base (l : Nat) : Nat := (retBase (G.D l) (G.link l)).getD 0
        match s.fillUnits c.g c.arm (m.list.flatMap fun l => G.underUnits l (base l)) with
        | (s, .wait) => (.off (s.park c), 0)
        | (s, .fail x a) => (.off (s.spillTrap c x a), 0)
        | (s, .ok _) =>
          (.on (s.modGroup c.g fun H => { H with base := m.list.foldl (fun t l => set 0 t l (base l)) H.base }), ret)

end Sys2Proof.Machine
end

