-- ==== Sys2Proof/Machine/Inject.lean ====
section
/-!
DEFINITION. Request packets (R299, R302, R303): slack at injection, routes, and the access records of a group.
-/

namespace Sys2Proof.Machine

/-! ## Queues (R299, R306, R358) -/

/-- A link for a request to a device, chosen freely among those up (R358). -/
def State.pickLink (s : State) (dest : Nat) : Option Nat := (s.linksTo dest)[s.pick (s.linksTo dest).length]?

/-! ## Packets of one access -/

/-- What a memory instruction sends (R242, R243); `all` are the lanes that one request of `LDU` stands for. -/
structure Req where
  kind : AccKind
  space : Space
  req : ReqKind
  acc : Nat
  ty : Ty
  scope : Scope
  acq : Bool
  rel : Bool
  slk : BitVec 4
  cmp : Cmp
  dst : Option Dst
  all : Lanes
deriving DecidableEq, Repr

/-- A mask from lanes. -/
def lanesOf (l : List Nat) : Lanes := l.foldl (fun m i => m ||| Lanes.one i) 0

/-- Lane requests gathered by line, in lane order (R299). -/
def byLine (l : List LaneReq) : List (List LaneReq) :=
  (l.map fun q => lineOf q.addr).eraseDups.map fun a => l.filter fun q => lineOf q.addr == a

/-- One packet for the lanes of one line: where its home is, by which key, with what slack. -/
def State.packetFor (s : State) (core launch : Nat) (own : ReqOf) (r : Req) (field : Nat) (lanes : List LaneReq) : Packet :=
  let a := (lanes.map LaneReq.addr).headD 0
  let key := (s.coreCheck core launch r.acc a).getD 0
  let hd := (homeOf s.fw a).getD (s.fw.dev, 0)
  { own := own, core := core, kind := r.req, acc := r.acc, ty := r.ty, size := r.ty.size, lanes := lanes
    home := hd.2, dev := hd.1, dom := s.domOf launch, key := key, scope := r.scope, acq := r.acq, rel := r.rel
    smgen := (s.core core).smgen, keyTries := 0, checkedAt := get 0 (s.core core).reloads (s.domOf launch), field := field, age := s.now
    late := field == 0
    route := if hd.1 = s.fw.dev then routeTo core (get hd.2 (s.core core).smap hd.2) else routeOut core (s.pickLink hd.1)
    phase := .going, remote := none, born := s.now, all := r.all, told := false, mark := s.acqMark core }

/-- Send packets: each takes an identifier, in order. -/
def State.sendPackets (s : State) : List Packet → State
  | [] => s
  | p :: r => State.sendPackets ((s.setNet { s.net with packets := put s.net.packets s.ids p }).next) r

/-- Queue the packets of an access at its core. -/
def State.inject (s : State) (core launch : Nat) (own : ReqOf) (r : Req) (lanes : List LaneReq) : State :=
  let f := s.slackField launch r.slk.toNat
  (byLine lanes).foldl (fun s l => s.sendPackets [s.packetFor core launch own r f l]) s

/-- Instructions that access memory for their lanes, prefetches apart. -/
def accesses : Instr → Bool
  | .ld .. | .st .. | .ldu .. | .ldl .. | .stl .. | .ldc .. | .atom .. | .red .. | .poll .. => true
  | _ => false

/-- An older deferred access of some lanes that has not been issued (R63, R278). -/
def Group.deferredBefore (G : Group) (id : Nat) (m : Lanes) : Bool :=
  G.resid.any fun e => e.id < id && e.mask &&& m != 0 && accesses e.instr

/-- The lanes that a request of a packet stands for, and those of the whole packet. -/
def Packet.lanesAt (p : Packet) (x : LaneReq) : Lanes := if p.all = 0 then Lanes.one x.lane else p.all
def Packet.mask (p : Packet) : Lanes := if p.all = 0 then lanesOf (p.lanes.map LaneReq.lane) else p.all

/-- A request that an older deferred access of its lanes may hold: it waits in front of its core's injection queue, so that the deferred one
finds room there (R62, R63) (DESIGN CHOICE, assumption 87). -/
def State.behindDeferred (s : State) (p : Packet) : Bool :=
  match p.own with
  | .access g id => (s.grpOf g).deferredBefore id p.mask
  | _ => false

/-- Whether the core's injection queue has room for the packets of these lanes (R306) (DESIGN CHOICE, assumption 87). -/
def State.hasRoom (s : State) (core : Nat) (lanes : List LaneReq) : Bool :=
  (s.net.packets.filter fun e =>
      e.2.phase.moves && e.2.route.head? == some (.core core) && !s.behindDeferred e.2).length + (byLine lanes).length ≤ Config.pointCap

/-- A packet that needs no network: its reply is there and lands at a later step. `lanes` are the requests
answered, where their addresses are wanted (DESIGN CHOICE, assumption 64). -/
def landedPacket (own : ReqOf) (core : Nat) (ty : Ty) (lanes : List LaneReq) (vals : List (Nat × W64)) (bad : Lanes) (now : Nat) : Packet :=
  { own := own, core := core, kind := .load, acc := 1, ty := ty, size := ty.size, lanes := lanes, home := 0, dev := 0, dom := 0
    key := 0, scope := .lane, acq := false, rel := false, smgen := 0, keyTries := 0, checkedAt := 0, field := 0xFFF, age := now
    late := false, route := [], phase := .landed (.ok vals bad), remote := none, born := now, all := 0, told := false, mark := 0 }

/-- The access record of an instruction (R59, R264). -/
def accessOf (id arm : Nat) (pc : W64) (r : Req) (active : Lanes) (lanes : List LaneReq) (wb : Tab Nat)
    (entry : Option Resid) : Access :=
  { id := id, arm := arm, pc := pc, kind := r.kind, space := r.space, ty := r.ty, scope := r.scope, acq := r.acq, rel := r.rel, lanes := active
    waits := lanesOf (lanes.map LaneReq.lane), dst := r.dst, wb := wb, vals := [], bad := 0, fails := [], cause := 0
    entry := entry
    addrs := lanes.foldl (fun t q => put t q.lane (w64 q.addr)) [], cmp := r.cmp
    cvals := lanes.foldl (fun t q => put t q.lane q.c) [], slk := r.slk }

/-- A local access that waits at its core for older ones: its lanes name bytes of the quad's local memories, above every global address
(R63, R278) (DESIGN CHOICE, assumption 64). -/
def nearPacket (own : ReqOf) (core : Nat) (r : Req) (lanes : List LaneReq) (now mark : Nat) : Packet :=
  { landedPacket own core r.ty lanes [] 0 now with
    kind := r.req, acc := r.acc, scope := r.scope, acq := r.acq, rel := r.rel, phase := .near, all := r.all, mark := mark }

/-- Where bytes of a core's local memory stand among the addresses of `nearPacket`s. -/
def nearAt (core a : Nat) : Nat := 2 ^ 64 + core * 2 ^ 18 + a

/-! ## Order between the requests of a group (R230, R245, R253, R278) -/

/-- A request has been performed: its values have been read, its writes made. -/
def Packet.performed (p : Packet) : Bool :=
  match p.phase with
  | .back (.ok _ _) | .ready (.ok _ _) | .landed (.ok _ _) | .kept _ _ => true
  | _ => false

/-- Two packets name overlapping bytes in one lane. -/
def Packet.meets (p q : Packet) : Bool :=
  p.lanes.any fun x => q.lanes.any fun y => p.lanesAt x &&& q.lanesAt y != 0 && rangesMeet x.addr p.size y.addr q.size

def Packet.reads (p : Packet) : Bool := p.kind == .load || (match p.kind with | .atom _ => true | _ => false)
/-- An atomic that writes what it read, as R280 writes a read (DEDUCED, assumption 82). -/
def Packet.looks (p : Packet) : Bool := p.kind == .atom .or && p.lanes.all fun q => q.c.toNat % 256 ^ p.size == 0
def Packet.writes (p : Packet) : Bool := p.kind.isStore && !p.looks

/-- A request of a group must wait behind an older one of the group: for overlapping bytes of a lane (R230, R245), for a read of the lane that
a write must not pass (R278), and for an acquire (DEDUCED, assumption 82). -/
def Packet.behind (p q : Packet) : Bool :=
  !q.performed && p.mask &&& q.mask != 0 && (p.meets q || (p.writes && q.reads) || q.acq)

/-- An older request of the same group holds it. -/
def State.behindOlder (s : State) (p : Packet) : Bool :=
  match p.own with
  | .access g id =>
    s.net.packets.any fun e =>
      match e.2.own with
      | .access g' id' => g' == g && id' < id && p.behind e.2
      | _ => false
  | _ => false

/-- The requests of an access made anew, at its memory. -/
def State.reissueAt (s : State) (core launch : Nat) (own : ReqOf) (sp : Space) (r : Req) (lanes : List LaneReq) : State :=
  if sp = .loc then (if lanes.isEmpty then s else s.sendPackets [nearPacket own core r lanes s.now (s.acqMark core)])
  else s.inject core launch own r lanes

/-- Reissue an access for the lanes it still waits for, as a rollback does (R69): a value read already lands anew, a load is sent
again. -/
def State.reissue (s : State) (g : Nat) (a : Access) : State :=
  let G := s.grpOf g
  let read := a.waits.list.filter fun l => (look a.vals l).isSome
  let anew := a.waits.list.filter fun l => (look a.vals l).isNone && (look a.addrs l).isSome
  let s :=
    if read.isEmpty then s
    else s.sendPackets [landedPacket (.access g a.id) (slotCore g) a.ty [] (read.map fun l => (l, get 0 a.vals l)) a.bad s.now]
  s.reissueAt (slotCore g) G.launch (.access g a.id) a.space
    { kind := a.kind, space := a.space, req := .load, acc := 1, ty := a.ty, scope := a.scope, acq := a.acq, rel := a.rel, slk := a.slk
      cmp := a.cmp, dst := a.dst, all := if a.addrs.length ≤ 1 then a.lanes else 0 }
    (anew.map fun l => { lane := l, addr := (get 0 a.addrs l).toNat, c := 0, d := 0 })

end Sys2Proof.Machine
end

