-- ==== Sys2Proof/Machine/Recovery.lean ====
section
/-!
DEFINITION. Checkpoints, rollback, and what is done about an uncorrectable error (R338 to R340, R351, R352); freeing what a block
holds (R20, R179, R199, R248).
-/

namespace Sys2Proof.Machine

/-! ## What belongs to a context -/

def State.ofDom (s : State) (d launch : Nat) : Bool := s.domOf launch == d && (s.launch? launch).isSome

def State.domGroups (s : State) (d : Nat) : Tab Group := keep (fun _ G => s.ofDom d G.launch) s.groups
def State.domBlocks (s : State) (d : Nat) : Tab Block := keep (fun _ b => s.ofDom d b.launch) s.blocks
/-- Domains whose image a core loaded before their latest `TSGEN` store, and holds blocks of (R333). -/
def State.staleTs (s : State) (core : Nat) : List Nat :=
  (((s.blocks.filter fun e => e.2.core == core).map fun e => s.domOf e.2.launch).eraseDups).filter fun d =>
    get 0 (s.core core).tsGen d != (s.ctx d).tsGen

def State.blockDom (s : State) (b : Nat) : Option Nat := (s.block? b).map fun B => s.domOf B.launch

/-! ## Budget (R335) -/

def State.budget (s : State) (dom : Nat) : Int := sx 64 (bits (s.domRec dom) 128 64)

/-- A domain's budget falls; at 0 or below its copies are suspended. -/
def State.charge (s : State) (dom n : Nat) : State :=
  let b := s.budget dom - n
  let s := s.devWrite (s.fw.domBase + 128 * dom + 16) (bytes64 (BitVec.ofInt 64 b))
  if b ≤ 0 then s.modCtx dom fun c => { c with suspended := true } else s

/-- Whether a domain's copies, admissions and placements are held. -/
def State.broke (s : State) (dom : Nat) : Bool := (s.ctx dom).suspended || s.budget dom ≤ 0

/-- What a block owes of its domain's budget: a unit for each microsecond that it has stood since it was charged last (R335). -/
def State.dues (s : State) (b : Nat) : Nat := ((s.block? b).map fun B => (s.now - B.paid) / Config.us 1).getD 0

/-! ## Freeing a block's resources -/

/-- Slots and tiles of a block are freed; the domain that held them is remembered (R179). Waiting claims lapse. -/
def Quad.freeBlock (q : Quad) (b dom : Nat) : Quad :=
  { q with
    sDom := q.sOwn.foldl (fun t e => if e.2 = b then put t e.1 dom else t) q.sDom
    tDom := q.tOwn.foldl (fun t e => if e.2 = b then put t e.1 dom else t) q.tDom
    sOwn := keep (fun _ x => x != b) q.sOwn
    tOwn := keep (fun _ x => x != b) q.tOwn
    sWait := q.sWait.filter fun c => c.block != b
    tWait := q.tWait.filter fun c => c.block != b
    rels := q.rels.filter fun c => c.block != b }

/-- Tags of a block are freed; a command that ended in error and was never joined is entered in the error report (R199)
(DESIGN CHOICE, assumption 94). -/
def State.freeTags (s : State) (core b : Nat) : State :=
  let mine := (s.core core).tags.filter fun e => e.2.owner.isSome && e.2.block == b
  let s := mine.foldl (fun s e =>
    let t := e.2
    if t.done && t.kind != 2 && t.status.toNat % 256 != 0 then
      s.errorRecord ((s.blockDom b).getD 0) 2 (t.status.toNat % 256) core t.taddr.toNat 0 (t.owner.getD 0)
    else s) s
  s.modCore core fun c =>
    { c with
      tags := mapv (fun _ t => if t.owner.isSome && t.block = b then { t with owner := none, done := false } else t) c.tags
      tagWait := c.tagWait.filter fun w => w.block != b }

/-- What the slices serve for some commands is dropped, with its copies on their way. -/
def Net.without (n : Net) (p : Nat → Bool) : Net :=
  { n with
    streams := mapv (fun _ st => { st with joined := st.joined.filter fun j => !p j.cmd }) n.streams
    packets := (keep (fun _ q => match q.own with | .stream i => !p i | _ => true) n.packets).map fun e =>
      match e.2.phase with
      | .beat sid code src b dests => (e.1, { e.2 with phase := .beat sid code src b (dests.filter fun t => !p t.cmd) })
      | _ => e }

/-- The commands of a block are dropped from the engines. -/
def State.dropCmds (s : State) (b : Nat) : State :=
  let gone := (s.cmds.filter fun e => e.2.block == b).map Prod.fst
  let s := s.setCmds (keep (fun _ c => c.block != b) s.cmds)
  let s := s.setQuads (mapv (fun _ q =>
    { q with table := q.table.filter fun i => !gone.contains i, posting := q.posting.filter fun i => !gone.contains i }) s.quads)
  s.setNet (s.net.without fun i => gone.contains i)

/-- A block leaves its core: groups, claims, tags and local memory are freed. -/
def State.dropBlock (s : State) (b : Nat) : State :=
  match s.block? b with
  | none => s
  | some B =>
    let dom := s.domOf B.launch
    let s := s.landAtoms (coreQuad B.core) fun x => (s.group? x.grp).any fun G => G.block == b
    let s := s.freeTags B.core b
    let s := s.modQuad (coreQuad B.core) fun q => q.freeBlock b dom
    let s := s.setGroups (keep (fun _ G => G.block != b) s.groups)
    s.setBlocks (del s.blocks b)

/-- Packets of a group that is gone: its loads are dropped, its writes on their way are performed, which its launch's end waits for (R327);
a write to its local memory that waits at its core is dropped. -/
def State.orphan (s : State) (p : Nat → Bool) : State :=
  (s.landAllAtoms fun x => p x.grp).setNet { s.net with
    packets := (s.net.packets.filter fun e =>
        !((ownGroup e.2.own).any p && (!e.2.kind.isStore || e.2.phase == .near))).map fun e =>
      match ownGroup e.2.own with
      | some g => if p g then (e.1, { e.2 with own := .orphan (s.grpOf g).launch }) else e
      | none => e
    holds := s.net.holds.filter fun h => !(h.key.headD 0 == 1 && p (h.key.getD 1 0)) }

/-! ## Checkpoints (R338) -/

/-- A group with every wait set aside, to issue anew (R42). -/
def Group.unwait (g : Group) : Group :=
  let ids := g.arms.filterMap fun p => match p.prog with | .acc id => some id | _ => none
  let g := ids.foldl (fun G id => (List.range 16).foldl (fun G l => G.forsake id l) G) g
  { g with
    accs := g.accs.filter fun a => !ids.contains a.id
    xch := []
    arms := g.arms.map fun p =>
      { p with
        st := match p.st with | .atRecon => .atRecon | _ => .ready
        prog := match p.prog with | .acc _ | .ticket _ | .join _ _ _ | .mask _ => .none | x => x } }

/-- Values that performed atomics of a group have read and that have not landed: a rollback delivers them, and performs nothing anew
(R338). -/
def State.withRead (s : State) (g : Nat) (G : Group) : Group :=
  s.net.packets.foldl (fun (G : Group) e =>
    match e.2.own, e.2.phase with
    | .access g' id, .back (.ok vs bad) | .access g' id, .landed (.ok vs bad) =>
      if g' = g then
        { G with accs := G.accs.map fun a =>
            if a.id = id && a.kind == .atom then
              { a with vals := vs.foldl (fun t q => put t q.1 q.2) a.vals, bad := a.bad ||| bad }
            else a }
      else G
    | _, _ => G) G

def State.capture (s : State) (d : Nat) : Ckpt :=
  let blocks := s.domBlocks d
  let mine (b : Nat) : Bool := (look blocks b).isSome
  let unposted := s.quads.flatMap fun e => e.2.posting
  { groups := mapv (fun g G => (s.withRead g G).unwait) (s.domGroups d)
    blocks := blocks
    gangs := keep (fun _ k => s.ofDom d k.launch) s.gangs
    launches := keep (fun _ l => l.dom == d) s.launches
    cmds := keep (fun i c => c.dom == d && !unposted.contains i) s.cmds
    tags := s.cores.flatMap fun e =>
      (e.2.tags.filter fun t => t.2.owner.isSome && mine t.2.block && (t.2.kind == 2 || !unposted.contains t.2.target)).map fun t => (e.1, t.1, t.2)
    lmem := blocks.map fun e =>
      (e.1, keep (fun a _ => e.2.lbase ≤ a && a < e.2.lbase + e.2.lsize) (s.core e.2.core).lmem)
    slots := s.quads.map fun e =>
      let sOw := keep (fun _ b => mine b) e.2.sOwn
      let tOw := keep (fun _ b => mine b) e.2.tOwn
      { quad := e.1
        elems := keep (fun k _ => (look sOw (k / 8192)).isSome) e.2.elems
        scales := keep (fun k _ => (look sOw (k / 128)).isSome) e.2.scales
        tiles := keep (fun k _ => (look tOw (k / 16384)).isSome) e.2.tiles
        sOwn := sOw, tOwn := tOw
        table := e.2.table.filter fun i => ((s.cmd? i).map fun c => c.dom == d).getD false }
    graphs := keep (fun _ g => g.dom == d) s.ring.graphs
    queue := s.ring.queue.filter fun h => h.dom == d }

/-- Take a checkpoint: the log is emptied and the context is enclosed (R338, R339). -/
def State.checkpointNow (s : State) (d : Nat) : State :=
  let s := s.landAllAtoms fun x => (s.group? x.grp).any fun G => s.ofDom d G.launch
  let ck := s.capture d
  s.modCtx d fun c => { c with ckpt := some ck, ckAt := s.now, undo := [], logPos := 0, exposed := false, consumed := [], consumedAt := [] }

/-! ## Rollback (R340) -/

/-- An undo record applied: the byte's old value at its home, and no copy of it left above. -/
def State.restoreByte (s : State) (a : Nat) (b : Byte) : State :=
  let s := s.setMem ((s.mem.keepL1 fun k _ => k % 2 ^ 64 != a).keepRsc fun k _ => k % 2 ^ 64 != a)
  match homeOf s.fw a with
  | some (dv, h) =>
    if dv != s.fw.dev then s
    else
      match s.readStruct h a 1 with
      | some _ => (s.leafWriteBack h a 1).writeStruct h a [b]
      | none =>
        match (s.leafOf h a).bind fun l => physKey h l.2 a with
        | some k =>
          if (look s.mem.slice a).isSome then s.setMem (s.mem.dirty a [b])
          else s.setMem (s.mem.store k [b])
        | none => s
  | none => s

/-- Take in table entries over others. -/
def restoreTab {α : Type} (t : Tab α) (from_ : Tab α) : Tab α := from_.foldl (fun t e => put t e.1 e.2) t

/-- Whether a hold is one of some groups' or commands'. -/
def Hold.isOf (h : Hold) (grp cmd : Nat → Bool) : Bool :=
  match h.key with
  | 3 :: i :: _ => cmd i
  | 1 :: g :: _ | 2 :: g :: _ | 4 :: g :: _ | 6 :: g :: _ => grp g
  | _ => false

/-- A context leaves the cores, its blocks charged for: its groups, blocks, gangs, commands, tags, claims, packets and reads under way are
taken off (R340). -/
def State.offload (s : State) (d : Nat) : State :=
  let mineG (g : Nat) : Bool := (look (s.domGroups d) g).isSome
  let mineB (b : Nat) : Bool := (look (s.domBlocks d) b).isSome
  let mineC (i : Nat) : Bool := (s.cmd? i).any fun c => c.dom == d
  let mineL (l : Nat) : Bool := s.ofDom d l
  let due := ((s.domBlocks d).map fun b => s.dues b.1).sum
  let s := if due = 0 then s else s.charge d due
  let s := s.landAllAtoms fun x => mineG x.grp
  { s with
    groups := keep (fun g _ => !mineG g) s.groups
    blocks := keep (fun b _ => !mineB b) s.blocks
    gangs := keep (fun _ k => !mineL k.launch) s.gangs
    cmds := keep (fun _ c => c.dom != d) s.cmds
    cores := mapv (fun _ c =>
      { c with
        tags := mapv (fun _ t => if t.owner.any mineL then { t with owner := none, done := false } else t) c.tags
        tagWait := c.tagWait.filter fun w => !mineB w.block }) s.cores
    quads := mapv (fun _ q =>
      let q := (s.domBlocks d).foldl (fun q b => q.freeBlock b.1 d) q
      { q with table := q.table.filter fun i => !mineC i, posting := q.posting.filter fun i => !mineC i }) s.quads
    ring := { s.ring with streams := keep (fun _ st => !mineL st.launch) s.ring.streams }
    net :=
      { s.net.without mineC with
        packets := keep (fun _ p => !(ownGroup p.own).any mineG) (s.net.without mineC).packets
        holds := s.net.holds.filter fun h => !h.isOf mineG mineC } }

/-- Words that unperformed stores of a context's groups hold in the L1 caches. -/
def State.storeWords (s : State) (d : Nat) : List Nat :=
  let mineG (g : Nat) : Bool := (look (s.domGroups d) g).isSome
  (s.net.packets.filter fun e => (ownGroup e.2.own).any mineG && e.2.kind.isStore && e.2.phase != .near).flatMap fun e =>
    e.2.lanes.flatMap fun q => (List.range e.2.size).map fun i => l1Key e.2.core (q.addr + i)

/-- What the host has handed over since a checkpoint is handed over again when its context goes back to it. -/
def State.hostAgain (s : State) (d : Nat) (ck : Ckpt) : List Handoff :=
  let ls := s.launches.filter fun e => e.2.dom == d && (look ck.launches e.1).isNone && e.2.origin == .host && e.2.walk.isNone
  let gs := s.ring.graphs.filter fun e => e.2.dom == d && (look ck.graphs e.1).isNone && e.2.origin == .host
  (ls.map fun e => { addr := e.2.recAddr, graph := false, early := e.2.early, dom := d, issuer := e.2.issuer, origin := .host })
    ++ (gs.map fun e => { addr := e.2.first, graph := true, early := e.2.early, dom := d, issuer := e.2.issuer, origin := .host })
    ++ s.ring.queue.filter fun h => h.dom == d && h.origin == .host && !ck.queue.contains h

/-- A context goes back to its checkpoint (R340): its undo records are applied in reverse order, its launches and walks are as they were,
and it stands off the cores, as the checkpoint recorded it, until it is restored. -/
def State.rollback (s : State) (d why : Nat) : State :=
  match (s.ctx d).ckpt with
  | none => s
  | some ck =>
    let words := s.storeWords d
    let again := s.hostAgain d ck
    let s := s.offload d
    let s := s.setMem (s.mem.keepL1 fun k _ => !words.contains k)
    let s := (s.ctx d).undo.foldl (fun s u => s.restoreByte u.1 u.2) s
    let waits (l : Nat) (L : Launch) : Bool := L.opWait && ((s.launch? l).map Launch.opWait).getD false
    let s := s.setLaunches
      (restoreTab (keep (fun _ l => l.dom != d) s.launches) (mapv (fun l L => { L with opWait := waits l L }) ck.launches))
    let s := s.setRing { s.ring with
      graphs := restoreTab (keep (fun _ g => g.dom != d) s.ring.graphs) ck.graphs
      queue := (s.ring.queue.filter fun h => h.dom != d) ++ ck.queue ++ again }
    s.modCtx d fun c =>
      { c with undo := [], logPos := 0, exposed := false, pre := some { since := s.now, why := why, saved := some ck, imaged := false } }

/-! ## Consumed errors (R351, R352) -/

/-- A gang is killed to be placed again (R352). -/
def State.killGang (s : State) (k : Nat) : State :=
  match s.gang? k with
  | none => s
  | some K =>
    let mine (g : Nat) : Bool := ((s.group? g).map fun G => K.blocks.contains G.block).getD false
    let s := s.orphan mine
    let s := K.blocks.foldl (fun s b => (s.dropCmds b).dropBlock b) s
    let s := s.setGangs (del s.gangs k)
    s.modLaunch K.launch fun L => { L with redo := L.redo ++ [K.index] }

/-- A launch's blocks are killed: every group ends, and the launch completes when its blocks have retired (R352, R342). -/
def State.killLaunch (s : State) (l : Nat) (status : Byte) : State :=
  let gs := (s.groups.filter fun e => e.2.launch == l).map Prod.fst
  let s := s.orphan fun g => gs.contains g
  let s := gs.foldl (fun s g => (s.groupEnd g).modGroup g fun G => { G with accs := [] }) s
  let bs := (s.blocks.filter fun e => e.2.launch == l).map Prod.fst
  let s := bs.foldl (fun s b => s.dropCmds b) s
  s.modLaunch l fun L => { L with status := status, st := .ending, redo := [] }

/-- The address of a poisoned word of a group's registers, where one is known. -/
def Group.poisonAddr (G : Group) (words : List (Nat × Loc)) : Nat :=
  ((G.poisonAt.find? fun x => words.contains (x.1, x.2.1)).map fun x => x.2.2).getD 0

/-- An uncorrectable error consumed by a block: register words of a group, or, for a `POLL`, words of memory (R268, R351, R352). -/
def State.consume (s : State) (g : Nat) (words : List (Nat × Loc)) (mems : List Nat) (pc : W64) : State :=
  let G := s.grpOf g
  let d := s.domOf G.launch
  let c := s.ctx d
  let addr := mems.headD (G.poisonAddr words)
  let again := (words.any fun w => c.consumed.contains (g, w.1, w.2)) || mems.any fun a => c.consumedAt.contains a
  if !c.exposed && !again && c.ckpt.isSome then
    (s.rollback d 0).modCtx d fun c =>
      { c with consumed := c.consumed ++ words.map (fun w => (g, w.1, w.2)), consumedAt := c.consumedAt ++ mems }
  else if (s.recOf G.launch).idem then
    (s.errorRecord d 5 0x23 (slotCore g) addr pc.toNat G.launch).killGang (((s.block? G.block).map Block.gang).getD 0)
  else
    (s.errorRecord d 4 0x23 (slotCore g) addr pc.toNat G.launch).killLaunch G.launch 0x23

end Sys2Proof.Machine
end

