-- ==== Sys2Proof/Machine/Issue.lean ====
section
/-!
DEFINITION. How a per-lane instruction issues (R59, R61, R67, R80, R100): its sources and destination, execution at once, parking,
deferral into a residual entry, and the running of an entry's result (R62).
-/

namespace Sys2Proof.Machine

/-! ## Lane operations -/

/-- The shift count: the low word, unsigned. -/
def shiftN (b : W64) : Nat := b.toNat % 2 ^ 32

/-- The source lane of `LSHIFT`, or none where source B is taken. -/
def shiftLane (up : Bool) (l n : Nat) : Option Nat :=
  if up then (if 15 < l + n then none else some (l + n)) else if l < n then none else some (l - n)

/-- Within each four lanes, two bits of the selector for each. -/
def swzLane (l : Nat) (b : W64) : Nat := 4 * (l / 4) + bits b.toNat (2 * (l % 4)) 2

/-- How a lane movement names its source lanes (R109). -/
inductive LaneSel where
  | shift (up : Bool)
  | swz
  | perm
deriving DecidableEq, Repr

/-- The source lane of lane `l` under a selector's value. -/
def LaneSel.lane (k : LaneSel) (l : Nat) (x : W64) : Option Nat :=
  match k with
  | .shift up => shiftLane up l (shiftN x)
  | .swz => some (swzLane l x)
  | .perm => some (x.toNat % 16)

/-- A source of a per-lane instruction: an operand, read in the active lanes or in the source lanes that another source selects
(R109), or a predicate. -/
inductive LSrc where
  | op (ra : ReadAs) (src : Src) (sel : Option (LaneSel × Nat))
  | pred (p : BitVec 3)
deriving DecidableEq, Repr

/-- The destination of a per-lane instruction. -/
inductive LDst where
  | reg (t : Ty) (d : Dst)
  | pred (p : BitVec 3)
deriving DecidableEq, Repr

/-- A per-lane instruction: its result in a lane from the active lanes and every source's values (source, lane). -/
structure LaneOp where
  guard : Guard
  srcs : List LSrc
  dst : LDst
  f : Lanes → (Nat → Nat → W64) → Nat → W64

def LSrc.locs (G : Group) (l : Nat) : LSrc → List (Bool × Loc)
  | .op ra src _ => G.srcLocs l ra src
  | .pred p => if p = 0 then [] else [(false, .p p.toNat)]

/-- The register a source names, for a lane's window base: the low one of a pair. -/
def LSrc.reg (G : Group) (l : Nat) (q : LSrc) : Option Loc := (q.locs G l).head?.map Prod.snd

def LSrc.val (G : Group) (cw : W64) (l : Nat) : LSrc → W64
  | .op ra src _ => G.opnd cw l ra src
  | .pred p => if G.pred p.toNat l then 1 else 0

/-- The lanes a source is read in, for the lanes `m` an instruction acts on: where it is selected, the source lanes of R109, all
sixteen while a selector is not yet there (`pend`). -/
def LSrc.lanes (m : Lanes) (pend : Nat → Nat → Bool) (val : Nat → Nat → W64) : LSrc → Lanes
  | .op _ _ (some (k, j)) =>
    m.list.foldl (fun acc l =>
      if pend j l then 0xFFFF
      else match k.lane l (val j l) with
        | some x => acc ||| Lanes.one x
        | none => acc) 0
  | _ => m

/-- What was captured, as the instruction reads it. -/
def LSrc.fix : LSrc → W64 → W64
  | .op ra _ _, x => cut ra x
  | .pred _, x => x

def LDst.locs (base : Nat) : LDst → List (Bool × Loc)
  | .reg t d => dstLocs t base d
  | .pred p => if p = 0 then [] else [(false, .p p.toNat)]

/-! ## Reading -/

/-- The constant-window words an instruction's sources need, if it acts on any lane (R249). -/
def State.cwFor (s : State) (c : Cur) (m : Lanes) (srcs : List LSrc) : State × Got :=
  if m = 0 then (s, .ok [])
  else
    s.cwOf [2, c.g, c.arm] (slotCore c.g) c.grp.launch
      (srcs.filterMap fun q => match q with | .op ra src _ => some (ra, src) | .pred _ => none)

/-- Enabled lanes whose guard predicate is pending. -/
def Cur.guardWaits (c : Cur) (gd : Guard) : Lanes :=
  if gd.p = 0 then 0 else lanesOf ((c.grp.exmOf c.path).list.filter fun l => c.grp.isPend l (.p gd.p.toNat))

/-- Enabled lanes whose guard is known to be true. -/
def Cur.act (c : Cur) (gd : Guard) : Lanes := c.active gd &&& ~~~ c.guardWaits gd

/-- The values read now: source, lane. -/
def Cur.vals (c : Cur) (cw : W64) (srcs : List LSrc) (j l : Nat) : W64 := ((srcs[j]?).map fun q => q.val c.grp cw l).getD 0

/-- Whether a source is pending in a lane. -/
def LSrc.pends (G : Group) (l : Nat) (q : LSrc) : Bool := (q.locs G l).any fun x => G.isPend l x.2

/-- The lanes a source is read in now. -/
def Cur.readIn (c : Cur) (cw : W64) (m : Lanes) (srcs : List LSrc) (q : LSrc) : Lanes :=
  q.lanes m (fun j l => (srcs[j]?).any fun q => q.pends c.grp l) (c.vals cw srcs)

/-- Whether some source is pending in a lane it is read in. -/
def Cur.srcsWait (c : Cur) (cw : W64) (m : Lanes) (srcs : List LSrc) : Bool :=
  srcs.any fun q => (c.readIn cw m srcs q).list.any fun l => q.pends c.grp l

/-- The poisoned words among what is read (R268). -/
def Cur.poisons (c : Cur) (cw : W64) (m : Lanes) (srcs : List LSrc) : List (Nat × Loc) :=
  srcs.flatMap fun q => (c.readIn cw m srcs q).list.flatMap fun l =>
    (q.locs c.grp l).filterMap fun x => if c.grp.isBad l x.2 then some (l, x.2) else none

/-! ## Writing -/

/-- Results written at once in the active lanes, and what `lat` becomes in the path's others (R54, R59), which R100 would leave as it is
(DESIGN CHOICE, assumption 80). -/
def Group.laneDone (G : Group) (live act : Lanes) (dst : LDst) (r : Nat → W64) : Group :=
  match dst with
  | .pred p => act.list.foldl (fun G l => G.wr l (.p p.toNat) (lo32 (r l))) G
  | .reg t d =>
    let G := act.list.foldl (fun G l => (G.wrDst l t d (r l)).wrLat l t (r l)) G
    (live &&& ~~~ act).list.foldl (fun G l => G.latIdle l d) G

/-- Results written at once in some lanes by an instruction that leaves `lat` unchanged (R54). -/
def Group.lanePut (G : Group) (act : Lanes) (t : Ty) (d : Dst) (r : Nat → W64) : Group :=
  act.list.foldl (fun G l => G.wrDst l t d (r l)) G

/-- A destination becomes pending for write `w`; `lat` follows it where the instruction produces a vector (R54, R58)
(DESIGN CHOICE, assumption 80). -/
def Group.lanePend (G : Group) (w : Nat) (live m : Lanes) (dst : LDst) (follow : Bool) : Group :=
  let G := m.list.foldl (fun G l => (dst.locs (G.D l)).foldl (fun G x => G.addOwner l x.2 (w, x.2)) G) G
  match dst with
  | .pred _ => G
  | .reg _ d =>
    if follow then
      let G := m.list.foldl (fun G l => G.setOwners l .lat [(w, dstLow (G.D l) d)]) G
      (live &&& ~~~ m).list.foldl (fun G l => G.latIdle l d) G
    else G

/-- A result of write `w` lands in a lane. -/
def Group.laneLand (G : Group) (w l : Nat) (dst : LDst) (wb : Tab Nat) (x : W64) (bad : Bool) : Group :=
  match dst with
  | .reg t d => G.landDst w l t d wb x bad
  | .pred p => G.land w l (.p p.toNat) (lo32 x) bad

/-! ## Deferral (R61, R67) -/

/-- A source as it can be captured now in the lanes it is read in: what is pending is left to its youngest writer. -/
def Group.capture (G : Group) (cw : W64) (m : Lanes) (q : LSrc) : Cap :=
  let ls := m.list
  { reg := (ls.head?).bind fun l => q.reg G l
    vals := ls.foldl (fun t l =>
      let locs := q.locs G l
      set 0 t l (if locs.any fun x => G.isPend l x.2 then
          locs.foldl (fun acc x => if G.isPend l x.2 then acc else capHalf acc x.1 (G.rd l x.2)) 0
        else q.val G cw l)) []
    bad := lanesOf (ls.filter fun l => (q.locs G l).any fun x => !G.isPend l x.2 && G.isBad l x.2)
    await := ls.flatMap fun l => (q.locs G l).filterMap fun x =>
      (G.ownersOf l x.2).head?.map fun w => (l, x.1, w.1, w.2) }

/-- The old value of one destination location, for the lanes a pending guard may leave out. -/
def Group.captureOld (G : Group) (m : Lanes) (n : Nat) (dst : LDst) : Cap :=
  let loc (l : Nat) : Option Loc := ((dst.locs (G.D l))[n]?).map Prod.snd
  { reg := none
    vals := m.list.foldl (fun t l => set 0 t l (((loc l).map fun x => (G.rd l x).zeroExtend 64).getD 0)) []
    bad := lanesOf (m.list.filter fun l => ((loc l).map fun x => G.isBad l x).getD false)
    await := m.list.filterMap fun l =>
      ((loc l).bind fun x => (G.ownersOf l x).head?).map fun w => (l, false, w.1, w.2) }

/-- The residual entry of an instruction deferred now: `act` lanes whose guard holds, `gp` lanes whose guard is pending. -/
def Cur.entry (c : Cur) (id : Nat) (i : Instr) (gd : Guard) (srcs : List LSrc) (dst : Option LDst) (cw : W64)
    (act gp : Lanes) (after : List Nat) : Resid :=
  let m := act ||| gp
  let ndst := (dst.map fun d => (d.locs 0).length).getD 0
  { id := id, arm := c.arm, pc := c.path.pc, instr := i, words := (encode i).getD [], mask := m
    gcap := if gp = 0 then none else some (c.grp.capture 0 m (.pred gd.p))
    caps := srcs.map fun q => c.grp.capture cw (c.readIn cw m srcs q) q
    olds := if gp = 0 then [] else (List.range ndst).map fun n => c.grp.captureOld m n (dst.getD (.pred 0))
    wb := m.list.foldl (fun t l => set 0 t l (c.grp.D l)) []
    after := after, failed := false, done := false, result := [] }

/-- Defer: the instruction takes a residual entry and its destination becomes pending; or the file is full (R67). -/
def State.defer (s : State) (c : Cur) (i : Instr) (gd : Guard) (srcs : List LSrc) (dst : Option LDst) (follow : Bool) (cw : W64)
    (act gp : Lanes) (after : List Nat) : State :=
  if Config.residCap ≤ c.grp.residUsed then
    if c.grp.ovft then s.trapAt c 3 none else s.park c
  else
    let e := c.entry s.ids i gd srcs dst cw act gp after
    (s.next.modGroup c.g fun G =>
      let G : Group := { G with resid := G.resid ++ [e] }
      match dst with
      | some d => G.lanePend s.ids (G.liveOf c.path) (act ||| gp) d follow
      | none => G).advance c i

/-! ## Issue of a lane instruction -/

/-- A per-lane instruction issues: it acts at once, or parks, or is deferred (R59, R61, R100). -/
def State.issueLane (s : State) (c : Cur) (i : Instr) (op : LaneOp) : State :=
  let gp := c.guardWaits op.guard
  let act := c.act op.guard
  match s.cwFor c (act ||| gp) op.srcs with
  | (s, .wait) => s.park c
  | (s, .fail x a) => s.trapGot c x a
  | (s, .ok b) =>
    let cw := w64 (ofBytes b)
    if gp != 0 || c.srcsWait cw act op.srcs then
      if c.grp.defm then s.defer c i op.guard op.srcs (some op.dst) true cw act gp []
      else s.park c
    else
      let bad := c.poisons cw act op.srcs
      if bad.isEmpty then
        (s.modGroup c.g fun G => G.laneDone (G.liveOf c.path) act op.dst (op.f act (c.vals cw op.srcs))).advance c i
      else s.consume c.g bad [] c.path.pc

/-- The meaning of a per-lane instruction. -/
def laneExec (i : Instr) (op : LaneOp) (s : State) : Host.Outcome State Fault Refusal :=
  s.onPath fun c => s.issueLane c i op

/-! ## Running an entry (R62) -/

/-- The lanes of an entry whose guard holds. -/
def Resid.active (e : Resid) (gd : Guard) : Lanes :=
  match e.gcap with
  | none => e.mask
  | some k => lanesOf (e.mask.list.filter fun l => (get 0 k.vals l != 0) != gd.neg)

def Resid.vals (e : Resid) (srcs : List LSrc) (j l : Nat) : W64 :=
  ((srcs[j]?).map fun q => q.fix (((e.caps[j]?).map fun c => get 0 c.vals l).getD 0)).getD 0

/-- The lanes an entry reads a source in: those of its mask whose guard may hold, or the source lanes they select (R109). -/
def Resid.readIn (e : Resid) (m : Lanes) (srcs : List LSrc) (q : LSrc) : Lanes :=
  q.lanes m (fun j l => (e.caps[j]?).any fun c => c.await.any fun a => a.1 == l) (e.vals srcs)

/-- Everything an entry reads has landed: its guard, its old values and its sources, each in the lanes it is read in. -/
def Resid.landed (e : Resid) (srcs : List LSrc) : Bool :=
  ((e.gcap.map fun c => c.await.isEmpty).getD true) && (e.olds.all fun c => c.await.isEmpty)
    && (e.caps.zip srcs).all fun x =>
      let m := e.readIn e.mask srcs x.2
      x.1.await.all fun a => !m.getLsbD a.1

/-- Lanes whose captured words are read and poisoned. -/
def Resid.badLanes (e : Resid) (act : Lanes) (srcs : List LSrc) : Lanes :=
  (e.caps.zip srcs).foldl (fun m x => m ||| (x.1.bad &&& e.readIn act srcs x.2)) 0

/-- The register words that those are, by the names they had when the entry captured them. -/
def Resid.badWords (e : Resid) (G : Group) (act : Lanes) (srcs : List LSrc) : List (Nat × Loc) :=
  let H : Group := { G with base := e.wb.foldl (fun t x => put t x.1 x.2) G.base }
  (e.caps.zip srcs).flatMap fun x => (x.1.bad &&& e.readIn act srcs x.2).list.flatMap fun l => (x.2.locs H l).map fun q => (l, q.2)

/-- The lanes a guard has left out keep their old value: the entry's write brings it back. -/
def Group.landOld (G : Group) (e : Resid) (void : Lanes) (dst : LDst) : Group :=
  void.list.foldl (fun G l =>
    (((dst.locs (get 0 e.wb l)).zip (List.range e.olds.length)).foldl (fun (G : Group) x =>
      let c := e.olds.getD x.2 { reg := none, vals := [], bad := 0, await := [] }
      G.land e.id l x.1.2 (lo32 (get 0 c.vals l)) (c.bad.getLsbD l)) G)) G

/-- A satisfied entry of a lane instruction runs; an entry marked done delivers its recorded result (R62, R69). -/
def State.runLane (s : State) (g : Nat) (e : Resid) (op : LaneOp) : State :=
  let act := e.active op.guard
  let bad := e.badLanes act op.srcs
  if !e.done && bad != 0 then
    s.consume g (e.badWords (s.grpOf g) act op.srcs) [] e.pc
  else
    let r := if e.done then fun l => get 0 e.result l else op.f act (e.vals op.srcs)
    s.modGroup g fun G =>
      let G : Group := { G with resid := G.resid.filter fun x => x.id != e.id }
      let G := act.list.foldl (fun G l => G.laneLand e.id l op.dst e.wb (r l) false) G
      G.landOld e (e.mask &&& ~~~ act) op.dst

/-! ## Per-path instructions -/

/-- A per-path instruction that does not drain (R80, R101): it parks while its guard is pending in an enabled lane or while
lane sources are pending, takes effect once if some lane is active, and goes on. -/
def State.issuePath (s : State) (c : Cur) (i : Instr) (gd : Guard) (srcs : List (ReadAs × Src))
    (f : Group → W64 → Lanes → Group) : State :=
  if c.guardWaits gd != 0 then s.park c
  else
    let act := c.act gd
    match s.cwFor c act (srcs.map fun q => .op q.1 q.2 none) with
    | (s, .wait) => s.park c
    | (s, .fail x a) => s.trapGot c x a
    | (s, .ok b) =>
      if act = 0 then s.advance c i
      else (s.modGroup c.g fun G => f G (w64 (ofBytes b)) act).advance c i

end Sys2Proof.Machine
end

