-- ==== Sys2Proof/Machine/IntVec.lean ====
section
/-!
DEFINITION. Vector integer and address instructions (R100 to R104).
-/

namespace Sys2Proof.Machine

/-! ## Shapes -/

/-- One source of the instruction's type. -/
def lane1 (g : Guard) (t : Ty) (d : Dst) (a : Src) (f : W64 → W64) : LaneOp :=
  { guard := g, srcs := [.op (.ty t) a none], dst := .reg t d, f := fun _ v l => f (v 0 l) }

/-- Two sources of the instruction's type. -/
def lane2 (g : Guard) (t : Ty) (d : Dst) (a b : Src) (f : W64 → W64 → W64) : LaneOp :=
  { guard := g, srcs := [.op (.ty t) a none, .op (.ty t) b none], dst := .reg t d, f := fun _ v l => f (v 0 l) (v 1 l) }

/-- Three sources of the instruction's type. -/
def lane3 (g : Guard) (t : Ty) (d : Dst) (a b c : Src) (f : W64 → W64 → W64 → W64) : LaneOp :=
  { guard := g, srcs := [.op (.ty t) a none, .op (.ty t) b none, .op (.ty t) c none], dst := .reg t d
    f := fun _ v l => f (v 0 l) (v 1 l) (v 2 l) }

/-- A comparison into a predicate. -/
def laneCmp (g : Guard) (t : Ty) (p : BitVec 3) (a b : Src) (f : W64 → W64 → Bool) : LaneOp :=
  { guard := g, srcs := [.op (.ty t) a none, .op (.ty t) b none], dst := .pred p
    f := fun _ v l => if f (v 0 l) (v 1 l) then 1 else 0 }

/-! ## Results (R102) -/

/-- The result of `IADD` in one lane (R102). -/
def iaddR (t : Ty) (a b : W64) : W64 := t.ofInt (t.toInt a + t.toInt b)
/-- The result of `ISUB` in one lane (R102). -/
def isubR (t : Ty) (a b : W64) : W64 := t.ofInt (t.toInt a - t.toInt b)
/-- The result of `IMUL` in one lane (R102). -/
def imulR (t : Ty) (a b : W64) : W64 := t.ofInt (t.toInt a * t.toInt b)
/-- The high half of the exact product. -/
def imulhR (t : Ty) (a b : W64) : W64 := t.ofInt (t.toInt a * t.toInt b / 2 ^ t.width)
/-- The result of `IMAD` in one lane (R102). -/
def imadR (t : Ty) (a b c : W64) : W64 := t.ofInt (t.toInt a * t.toInt b + t.toInt c)
/-- The result of `IMIN` in one lane (R102). -/
def iminR (t : Ty) (a b : W64) : W64 := t.ofInt (min (t.toInt a) (t.toInt b))
/-- The result of `IMAX` in one lane (R102). -/
def imaxR (t : Ty) (a b : W64) : W64 := t.ofInt (max (t.toInt a) (t.toInt b))
/-- The result of `IABS` in one lane (R102). -/
def iabsR (t : Ty) (a : W64) : W64 := t.ofInt (t.toInt a).natAbs
/-- The result of `INEG` in one lane (R102). -/
def inegR (t : Ty) (a : W64) : W64 := t.ofInt (-t.toInt a)
/-- The sum is wrapped and read again by the type before the comparison. -/
def addminR (t : Ty) (a b c : W64) : W64 := iminR t (iaddR t a b) c
/-- The result of `ADDMAX` in one lane (R102). -/
def addmaxR (t : Ty) (a b c : W64) : W64 := imaxR t (iaddR t a b) c
/-- The result of `ILEA` in one lane (R102). -/
def ileaR (sh : BitVec 4) (a b : W64) : W64 := BitVec.ofInt 64 (a.toNat + sx 32 b.toNat * 2 ^ sh.toNat)

/-- The result of `SHL` in one lane (R102). -/
def shlR (t : Ty) (a b : W64) : W64 := if t.width ≤ shiftN b then 0 else w64 (a.toNat * 2 ^ shiftN b % 2 ^ t.width)
/-- The result of `SHR` in one lane (R102). -/
def shrR (t : Ty) (a b : W64) : W64 := if t.width ≤ shiftN b then 0 else w64 (a.toNat % 2 ^ t.width / 2 ^ shiftN b)
/-- The result of `SAR` in one lane (R102). -/
def sarR (t : Ty) (a b : W64) : W64 := t.ofInt (sx t.width a.toNat / 2 ^ min (shiftN b) t.width)

/-- Rotation by n mod w, left or right. -/
def rotR (right : Bool) (t : Ty) (a b : W64) : W64 :=
  let w := t.width
  let n := shiftN b % w
  let k := if right then (w - n) % w else n
  let x := a.toNat % 2 ^ w
  w64 (x * 2 ^ k % 2 ^ w + x / 2 ^ (w - k))

/-- Number of binary digits. -/
def digits (x : Nat) : Nat := if x = 0 then 0 else Nat.log2 x + 1

/-- The result of `CLZ` in one lane (R102). -/
def clzR (t : Ty) (a : W64) : W64 := w64 (t.width - digits (a.toNat % 2 ^ t.width))
/-- The result of `POPC` in one lane (R102). -/
def popcR (t : Ty) (a : W64) : W64 := w64 ((List.range t.width).filter fun i => a.toNat.testBit i).length
/-- The result of `BREV` in one lane (R102). -/
def brevR (t : Ty) (a : W64) : W64 :=
  w64 ((List.range t.width).foldl (fun x i => if a.toNat.testBit i then x + 2 ^ (t.width - 1 - i) else x) 0)

/-- A bit field within 32 bits: start and length, cut at bit 31; empty where the start is past it. -/
def fieldOf (b : W64) : Nat × Nat :=
  let q := bits b.toNat 0 8
  (q, if 32 ≤ q then 0 else min (bits b.toNat 8 8) (32 - q))

/-- The result of `BFX` in one lane (R102). -/
def bfxR (t : Ty) (a b : W64) : W64 :=
  let f := fieldOf b
  if f.2 = 0 then 0
  else
    let x := bits a.toNat f.1 f.2
    if t.signed then t.ofInt (sx f.2 x) else w64 x

/-- The result of `BFI` in one lane (R102). -/
def bfiR (a b c : W64) : W64 :=
  let f := fieldOf c
  if f.2 = 0 then a
  else w64 (a.toNat - bits a.toNat f.1 f.2 * 2 ^ f.1 + b.toNat % 2 ^ f.2 * 2 ^ f.1)

/-- The result of `ICVT` in one lane (R104). -/
def icvtR (dt st : Ty) (sat : Bool) (a : W64) : W64 :=
  let x := st.toInt a
  dt.ofInt (if sat then max dt.lo (min dt.hi x) else x)

/-! ## Operations and meanings -/

/-- `IADD` as a per-lane operation (R102): sources, destination, result. -/
def iaddOp (g : Guard) (t : Ty) (d : Dst) (a b : Src) : LaneOp := lane2 g t d a b (iaddR t)
/-- `ISUB` as a per-lane operation (R102): sources, destination, result. -/
def isubOp (g : Guard) (t : Ty) (d : Dst) (a b : Src) : LaneOp := lane2 g t d a b (isubR t)
/-- `IMUL` as a per-lane operation (R102): sources, destination, result. -/
def imulOp (g : Guard) (t : Ty) (d : Dst) (a b : Src) : LaneOp := lane2 g t d a b (imulR t)
/-- `IMULH` as a per-lane operation (R102): sources, destination, result. -/
def imulhOp (g : Guard) (t : Ty) (d : Dst) (a b : Src) : LaneOp := lane2 g t d a b (imulhR t)
/-- `IMAD` as a per-lane operation (R102): sources, destination, result. -/
def imadOp (g : Guard) (t : Ty) (d : Dst) (a b c : Src) : LaneOp := lane3 g t d a b c (imadR t)
/-- `IMIN` as a per-lane operation (R102): sources, destination, result. -/
def iminOp (g : Guard) (t : Ty) (d : Dst) (a b : Src) : LaneOp := lane2 g t d a b (iminR t)
/-- `IMAX` as a per-lane operation (R102): sources, destination, result. -/
def imaxOp (g : Guard) (t : Ty) (d : Dst) (a b : Src) : LaneOp := lane2 g t d a b (imaxR t)
/-- `IABS` as a per-lane operation (R102): sources, destination, result. -/
def iabsOp (g : Guard) (t : Ty) (d : Dst) (a : Src) : LaneOp := lane1 g t d a (iabsR t)
/-- `INEG` as a per-lane operation (R102): sources, destination, result. -/
def inegOp (g : Guard) (t : Ty) (d : Dst) (a : Src) : LaneOp := lane1 g t d a (inegR t)
/-- `ADDMIN` as a per-lane operation (R102): sources, destination, result. -/
def addminOp (g : Guard) (t : Ty) (d : Dst) (a b c : Src) : LaneOp := lane3 g t d a b c (addminR t)
/-- `ADDMAX` as a per-lane operation (R102): sources, destination, result. -/
def addmaxOp (g : Guard) (t : Ty) (d : Dst) (a b c : Src) : LaneOp := lane3 g t d a b c (addmaxR t)
/-- Source B is one 32-bit operand (R81). -/
def ileaOp (g : Guard) (t : Ty) (d : Dst) (a b : Src) (sh : BitVec 4) : LaneOp :=
  { guard := g, srcs := [.op (.ty t) a none, .op .one b none], dst := .reg t d, f := fun _ v l => ileaR sh (v 0 l) (v 1 l) }
/-- `AND` as a per-lane operation (R102): sources, destination, result. -/
def andOp (g : Guard) (t : Ty) (d : Dst) (a b : Src) : LaneOp := lane2 g t d a b fun x y => x &&& y
/-- `OR` as a per-lane operation (R102): sources, destination, result. -/
def orOp (g : Guard) (t : Ty) (d : Dst) (a b : Src) : LaneOp := lane2 g t d a b fun x y => x ||| y
/-- `XOR` as a per-lane operation (R102): sources, destination, result. -/
def xorOp (g : Guard) (t : Ty) (d : Dst) (a b : Src) : LaneOp := lane2 g t d a b fun x y => x ^^^ y
/-- `ANDN` as a per-lane operation (R102): sources, destination, result. -/
def andnOp (g : Guard) (t : Ty) (d : Dst) (a b : Src) : LaneOp := lane2 g t d a b fun x y => x &&& ~~~ y
/-- `NOT` as a per-lane operation (R102): sources, destination, result. -/
def notOp (g : Guard) (t : Ty) (d : Dst) (a : Src) : LaneOp := lane1 g t d a fun x => ~~~ x
/-- `SHL` as a per-lane operation (R102): sources, destination, result. -/
def shlOp (g : Guard) (t : Ty) (d : Dst) (a b : Src) : LaneOp := lane2 g t d a b (shlR t)
/-- `SHR` as a per-lane operation (R102): sources, destination, result. -/
def shrOp (g : Guard) (t : Ty) (d : Dst) (a b : Src) : LaneOp := lane2 g t d a b (shrR t)
/-- `SAR` as a per-lane operation (R102): sources, destination, result. -/
def sarOp (g : Guard) (t : Ty) (d : Dst) (a b : Src) : LaneOp := lane2 g t d a b (sarR t)
/-- `ROT` as a per-lane operation (R102): sources, destination, result. -/
def rotOp (g : Guard) (t : Ty) (d : Dst) (a b : Src) (right : Bool) : LaneOp := lane2 g t d a b (rotR right t)
/-- `CLZ` as a per-lane operation (R102): sources, destination, result. -/
def clzOp (g : Guard) (t : Ty) (d : Dst) (a : Src) : LaneOp := lane1 g t d a (clzR t)
/-- `POPC` as a per-lane operation (R102): sources, destination, result. -/
def popcOp (g : Guard) (t : Ty) (d : Dst) (a : Src) : LaneOp := lane1 g t d a (popcR t)
/-- `BREV` as a per-lane operation (R102): sources, destination, result. -/
def brevOp (g : Guard) (t : Ty) (d : Dst) (a : Src) : LaneOp := lane1 g t d a (brevR t)
/-- `BFX` as a per-lane operation (R102): sources, destination, result. -/
def bfxOp (g : Guard) (t : Ty) (d : Dst) (a b : Src) : LaneOp := lane2 g t d a b (bfxR t)
/-- `BFI` as a per-lane operation (R102): sources, destination, result. -/
def bfiOp (g : Guard) (t : Ty) (d : Dst) (a b c : Src) : LaneOp := lane3 g t d a b c bfiR
/-- Source C is a predicate. -/
def selOp (g : Guard) (t : Ty) (d : Dst) (a b : Src) (pc : BitVec 3) : LaneOp :=
  { guard := g, srcs := [.op (.ty t) a none, .op (.ty t) b none, .pred pc], dst := .reg t d
    f := fun _ v l => if v 2 l != 0 then v 0 l else v 1 l }
/-- `MOV` as a per-lane operation (R102): sources, destination, result. -/
def movOp (g : Guard) (t : Ty) (d : Dst) (a : Src) : LaneOp := lane1 g t d a fun x => x
/-- `MOVI` as a per-lane operation (R102): sources, destination, result. -/
def moviOp (g : Guard) (t : Ty) (d : Dst) (x : BitVec 32) : LaneOp := lane1 g t d (.imm x) fun x => x
/-- `ISET` as a per-lane operation (R102): sources, destination, result. -/
def isetOp (g : Guard) (t : Ty) (p : BitVec 3) (c : Cmp) (a b : Src) : LaneOp := laneCmp g t p a b (cmpInt c t)
/-- The source is read under its own type. -/
def icvtOp (g : Guard) (dt st : Ty) (d : Dst) (a : Src) (sat : Bool) : LaneOp :=
  { guard := g, srcs := [.op (.ty st) a none], dst := .reg dt d, f := fun _ v l => icvtR dt st sat (v 0 l) }

abbrev Result := Host.Outcome State Fault Refusal

/-- `IADD` (R102): integer sum modulo 2^w. -/
def execIadd (g : Guard) (t : Ty) (d : Dst) (a b : Src) (s : State) : Result := laneExec (.iadd g t d a b) (iaddOp g t d a b) s
/-- `ISUB` (R102): integer difference modulo 2^w. -/
def execIsub (g : Guard) (t : Ty) (d : Dst) (a b : Src) (s : State) : Result := laneExec (.isub g t d a b) (isubOp g t d a b) s
/-- `IMUL` (R102): low half of the integer product. -/
def execImul (g : Guard) (t : Ty) (d : Dst) (a b : Src) (s : State) : Result := laneExec (.imul g t d a b) (imulOp g t d a b) s
/-- `IMULH` (R102): high half of the exact integer product. -/
def execImulh (g : Guard) (t : Ty) (d : Dst) (a b : Src) (s : State) : Result :=
  laneExec (.imulh g t d a b) (imulhOp g t d a b) s
/-- `IMAD` (R102): integer multiply-add modulo 2^w. -/
def execImad (g : Guard) (t : Ty) (d : Dst) (a b c : Src) (s : State) : Result :=
  laneExec (.imad g t d a b c) (imadOp g t d a b c) s
/-- `IMIN` (R102): integer minimum. -/
def execImin (g : Guard) (t : Ty) (d : Dst) (a b : Src) (s : State) : Result := laneExec (.imin g t d a b) (iminOp g t d a b) s
/-- `IMAX` (R102): integer maximum. -/
def execImax (g : Guard) (t : Ty) (d : Dst) (a b : Src) (s : State) : Result := laneExec (.imax g t d a b) (imaxOp g t d a b) s
/-- `IABS` (R102): integer absolute value; the most negative value wraps to itself. -/
def execIabs (g : Guard) (t : Ty) (d : Dst) (a : Src) (s : State) : Result := laneExec (.iabs g t d a) (iabsOp g t d a) s
/-- `INEG` (R102): integer negation. -/
def execIneg (g : Guard) (t : Ty) (d : Dst) (a : Src) (s : State) : Result := laneExec (.ineg g t d a) (inegOp g t d a) s
/-- `ADDMIN` (R102): minimum of a wrapped sum and a third operand, in one step. -/
def execAddmin (g : Guard) (t : Ty) (d : Dst) (a b c : Src) (s : State) : Result :=
  laneExec (.addmin g t d a b c) (addminOp g t d a b c) s
/-- `ADDMAX` (R102): maximum of a wrapped sum and a third operand, in one step. -/
def execAddmax (g : Guard) (t : Ty) (d : Dst) (a b c : Src) (s : State) : Result :=
  laneExec (.addmax g t d a b c) (addmaxOp g t d a b c) s
/-- `ILEA` (R102): adds a sign-extended 32-bit offset shifted by MOD to a 64-bit base. -/
def execIlea (g : Guard) (t : Ty) (d : Dst) (a b : Src) (sh : BitVec 4) (s : State) : Result :=
  laneExec (.ilea g t d a b sh) (ileaOp g t d a b sh) s
/-- `AND` (R102): bitwise AND. -/
def execAnd (g : Guard) (t : Ty) (d : Dst) (a b : Src) (s : State) : Result := laneExec (.and g t d a b) (andOp g t d a b) s
/-- `OR` (R102): bitwise OR. -/
def execOr (g : Guard) (t : Ty) (d : Dst) (a b : Src) (s : State) : Result := laneExec (.or g t d a b) (orOp g t d a b) s
/-- `XOR` (R102): bitwise exclusive OR. -/
def execXor (g : Guard) (t : Ty) (d : Dst) (a b : Src) (s : State) : Result := laneExec (.xor g t d a b) (xorOp g t d a b) s
/-- `ANDN` (R102): a AND NOT b. -/
def execAndn (g : Guard) (t : Ty) (d : Dst) (a b : Src) (s : State) : Result := laneExec (.andn g t d a b) (andnOp g t d a b) s
/-- `NOT` (R102): bitwise complement. -/
def execNot (g : Guard) (t : Ty) (d : Dst) (a : Src) (s : State) : Result := laneExec (.not g t d a) (notOp g t d a) s
/-- `SHL` (R102): logical shift left; 0 when the count reaches the width. -/
def execShl (g : Guard) (t : Ty) (d : Dst) (a b : Src) (s : State) : Result := laneExec (.shl g t d a b) (shlOp g t d a b) s
/-- `SHR` (R102): logical shift right. -/
def execShr (g : Guard) (t : Ty) (d : Dst) (a b : Src) (s : State) : Result := laneExec (.shr g t d a b) (shrOp g t d a b) s
/-- `SAR` (R102): arithmetic shift right. -/
def execSar (g : Guard) (t : Ty) (d : Dst) (a b : Src) (s : State) : Result := laneExec (.sar g t d a b) (sarOp g t d a b) s
/-- `ROT` (R102): rotate left or right by n mod w. -/
def execRot (g : Guard) (t : Ty) (d : Dst) (a b : Src) (right : Bool) (s : State) : Result :=
  laneExec (.rot g t d a b right) (rotOp g t d a b right) s
/-- `CLZ` (R102): counts leading zeros. -/
def execClz (g : Guard) (t : Ty) (d : Dst) (a : Src) (s : State) : Result := laneExec (.clz g t d a) (clzOp g t d a) s
/-- `POPC` (R102): counts one bits. -/
def execPopc (g : Guard) (t : Ty) (d : Dst) (a : Src) (s : State) : Result := laneExec (.popc g t d a) (popcOp g t d a) s
/-- `BREV` (R102): reverses bit order. -/
def execBrev (g : Guard) (t : Ty) (d : Dst) (a : Src) (s : State) : Result := laneExec (.brev g t d a) (brevOp g t d a) s
/-- `BFX` (R102): extracts a bit field, sign- or zero-extended. -/
def execBfx (g : Guard) (t : Ty) (d : Dst) (a b : Src) (s : State) : Result := laneExec (.bfx g t d a b) (bfxOp g t d a b) s
/-- `BFI` (R102): inserts a bit field. -/
def execBfi (g : Guard) (t : Ty) (d : Dst) (a b c : Src) (s : State) : Result :=
  laneExec (.bfi g t d a b c) (bfiOp g t d a b c) s
/-- `SEL` (R102): selects a or b by a predicate. -/
def execSel (g : Guard) (t : Ty) (d : Dst) (a b : Src) (pc : BitVec 3) (s : State) : Result :=
  laneExec (.sel g t d a b pc) (selOp g t d a b pc) s
/-- `MOV` (R102): copies a source. -/
def execMov (g : Guard) (t : Ty) (d : Dst) (a : Src) (s : State) : Result := laneExec (.mov g t d a) (movOp g t d a) s
/-- `MOVI` (R102): moves a 32-bit immediate from X1 into each active lane. -/
def execMovi (g : Guard) (t : Ty) (d : Dst) (x : BitVec 32) (s : State) : Result := laneExec (.movi g t d x) (moviOp g t d x) s
/-- `ISET` (R102): writes an integer comparison to a predicate in active lanes. -/
def execIset (g : Guard) (t : Ty) (p : BitVec 3) (c : Cmp) (a b : Src) (s : State) : Result :=
  laneExec (.iset g t p c a b) (isetOp g t p c a b) s
/-- `ICVT` (R104): converts between integer types, wrapping or saturating. -/
def execIcvt (g : Guard) (dt st : Ty) (d : Dst) (a : Src) (sat : Bool) (s : State) : Result :=
  laneExec (.icvt g dt st d a sat) (icvtOp g dt st d a sat) s

end Sys2Proof.Machine
end

