-- ==== Sys2Proof/Machine/Uniform.lean ====
section
/-!
DEFINITION. Uniform instructions (R105): once per path, on `k` registers (R80, R101).
-/

namespace Sys2Proof.Machine

/-- A uniform instruction of two 64-bit operands. -/
def uni2Exec (i : Instr) (g : Guard) (d : BitVec 5) (a b : Src) (f : W64 → W64 → W64) (s : State) : Result :=
  s.onPath fun c => s.issuePath c i g [(.k64, a), (.k64, b)] fun G cw _ =>
    G.kw d (f (G.kopnd cw .k64 a) (G.kopnd cw .k64 b))

/-- A logical shift count of 64 or more gives 0 (R105). -/
def kshlR (a b : W64) : W64 := if 64 ≤ b.toNat then 0 else a <<< b.toNat
/-- The result of `KSHR` in one lane (R105). -/
def kshrR (a b : W64) : W64 := if 64 ≤ b.toNat then 0 else a >>> b.toNat

/-- `KADD` (R105): 64-bit uniform sum. -/
def execKadd (g : Guard) (d : BitVec 5) (a b : Src) (s : State) : Result := uni2Exec (.kadd g d a b) g d a b (fun x y => x + y) s
/-- `KSUB` (R105): 64-bit uniform difference. -/
def execKsub (g : Guard) (d : BitVec 5) (a b : Src) (s : State) : Result := uni2Exec (.ksub g d a b) g d a b (fun x y => x - y) s
/-- `KMUL` (R105): low 64 bits of a uniform product. -/
def execKmul (g : Guard) (d : BitVec 5) (a b : Src) (s : State) : Result := uni2Exec (.kmul g d a b) g d a b (fun x y => x * y) s
/-- `KAND` (R105): uniform bitwise AND. -/
def execKand (g : Guard) (d : BitVec 5) (a b : Src) (s : State) : Result :=
  uni2Exec (.kand g d a b) g d a b (fun x y => x &&& y) s
/-- `KOR` (R105): uniform bitwise OR. -/
def execKor (g : Guard) (d : BitVec 5) (a b : Src) (s : State) : Result := uni2Exec (.kor g d a b) g d a b (fun x y => x ||| y) s
/-- `KXOR` (R105): uniform bitwise exclusive OR. -/
def execKxor (g : Guard) (d : BitVec 5) (a b : Src) (s : State) : Result :=
  uni2Exec (.kxor g d a b) g d a b (fun x y => x ^^^ y) s
/-- `KSHL` (R105): uniform logical shift left. -/
def execKshl (g : Guard) (d : BitVec 5) (a b : Src) (s : State) : Result := uni2Exec (.kshl g d a b) g d a b kshlR s
/-- `KSHR` (R105): uniform logical shift right. -/
def execKshr (g : Guard) (d : BitVec 5) (a b : Src) (s : State) : Result := uni2Exec (.kshr g d a b) g d a b kshrR s

/-- How `KMOV` and `KMOVI` read their source (DEDUCED, assumption 56). -/
def kmovRead (t : Option Ty) : ReadAs :=
  match t with
  | none => .k64
  | some t => .ty t

/-- `KMOV`: 64 bits, or 32 bits zero-extended under `.n32` and sign-extended under `.i32` (R105) (DEDUCED, assumption 56). -/
def kmovR (t : Option Ty) (x : W64) : W64 :=
  match t with
  | some .i32 => (lo32 x).signExtend 64
  | some .n32 => (lo32 x).zeroExtend 64
  | _ => x

/-- `KMOV` (R105): moves a k register or constant-window operand into a k register. -/
def execKmov (g : Guard) (t : Option Ty) (d : BitVec 5) (a : Src) (s : State) : Result :=
  s.onPath fun c => s.issuePath c (.kmov g t d a) g [(kmovRead t, a)] fun G cw _ =>
    G.kw d (kmovR t (G.kopnd cw (kmovRead t) a))

/-- `KMOVI` (R105): moves an X1 immediate into a k register (DEDUCED, assumption 56). -/
def execKmovi (g : Guard) (t : Option Ty) (d : BitVec 5) (x : BitVec 32) (s : State) : Result :=
  s.onPath fun c => s.issuePath c (.kmovi g t d x) g [] fun G _ _ => G.kw d (immVal (kmovRead t) x)

/-- How a 64-bit comparison reads its sources: as `.n64` if it is unsigned, else as `.i64` (R82, R84). -/
def cmpRead (uns : Bool) : ReadAs := if uns then .ty .n64 else .k64

/-- The comparison is signed without a type and under `.i64`, unsigned under `.n64`. -/
def execKset (g : Guard) (t : Option Ty) (d : BitVec 5) (c : Cmp) (a b : Src) (s : State) : Result :=
  let uns := t == some .n64
  s.onPath fun cu => s.issuePath cu (.kset g t d c a b) g [(cmpRead uns, a), (cmpRead uns, b)] fun G cw _ =>
    G.kw d (if cmpK c uns (G.kopnd cw (cmpRead uns) a) (G.kopnd cw (cmpRead uns) b) then 1 else 0)

/-- `KSEL` (R105): selects one of two k values by a third. -/
def execKsel (g : Guard) (d : BitVec 5) (a b c : Src) (s : State) : Result :=
  s.onPath fun cu => s.issuePath cu (.ksel g d a b c) g [(.k64, a), (.k64, b), (.k64, c)] fun G cw _ =>
    G.kw d (if G.kopnd cw .k64 c != 0 then G.kopnd cw .k64 a else G.kopnd cw .k64 b)

/-- `VTOK` of a lane's value: whole under `.n64`, sign-extended under `.i32`, else zero-extended (R105). -/
def vtokR (t : Ty) (x : W64) : W64 := if t = .i32 then (lo32 x).signExtend 64 else x

/-- `VTOK` reads lane n whether or not it is active; a pending value parks the path (R101). -/
def execVtok (g : Guard) (t : Ty) (d : BitVec 5) (a b : Src) (s : State) : Result :=
  s.onPath fun c =>
    match s.cwFor c (c.act g) [.op (.ty t) a none, .op (.ty t) b none] with
    | (s, .wait) => s.park c
    | (s, .fail x ad) => s.trapGot c x ad
    | (s, .ok bs) =>
      let cw := w64 (ofBytes bs)
      let n := (c.grp.kopnd cw (.ty t) b).toNat % 16
      let locs := c.grp.srcLocs n (.ty t) a
      if c.guardWaits g != 0 then s.park c
      else if c.act g = 0 then s.advance c (.vtok g t d a b)
      else if locs.any fun x => c.grp.isPend n x.2 then s.park c
      else if locs.any fun x => c.grp.isBad n x.2 then s.consume c.g (locs.map fun x => (n, x.2)) [] c.path.pc
      else (s.modGroup c.g fun G => G.kw d (vtokR t (G.opnd cw n (.ty t) a))).advance c (.vtok g t d a b)

/-- `KTOV` writes the active lanes from a uniform operand. -/
def ktovOp (g : Guard) (t : Ty) (d : Dst) (a : Src) : LaneOp := lane1 g t d a fun x => x

/-- `KTOV` (R105): broadcasts a k value into each active lane. -/
def execKtov (g : Guard) (t : Ty) (d : Dst) (a : Src) (s : State) : Result := laneExec (.ktov g t d a) (ktovOp g t d a) s

end Sys2Proof.Machine
end

