-- ==== Sys2Proof/Machine/LaneMove.lean ====
section
/-!
DEFINITION. Predicates, vote, mask and lane movement (R106 to R110).
-/

namespace Sys2Proof.Machine

/-! ## Predicates (R106, R107) -/

/-- `PLOG` as a per-lane operation (R106): sources, destination, result. -/
def plogOp (g : Guard) (p a b : BitVec 3) (t : BitVec 4) : LaneOp :=
  { guard := g, srcs := [.pred a, .pred b], dst := .pred p
    f := fun _ v l => if t.getLsbD (2 * (v 0 l).toNat + (v 1 l).toNat) then 1 else 0 }

/-- `PLOG` (R106): combines two predicates by a 4-bit truth table. -/
def execPlog (g : Guard) (p a b : BitVec 3) (t : BitVec 4) (s : State) : Result := laneExec (.plog g p a b t) (plogOp g p a b t) s

/-- `VOTE.any` and `VOTE.all`: every active lane takes the vote of the active lanes. -/
def voteOp (g : Guard) (d : VoteDst) (a : BitVec 3) : LaneOp :=
  { guard := g, srcs := [.pred a]
    dst := match d with | .any p | .all p => .pred p | .ballot _ => .pred 0
    f := fun act v _ =>
      let holds : Bool := match d with
        | .all _ => act.list.all fun l => v 0 l != 0
        | _ => act.list.any fun l => v 0 l != 0
      if holds then 1 else 0 }

/-- The ballot of a predicate over the active lanes (R6). -/
def Group.ballot (G : Group) (act : Lanes) (a : BitVec 3) : W64 :=
  (lanesOf (act.list.filter fun l => G.pred a.toNat l)).zeroExtend 64

/-- `VOTE.ballot` writes a `k` register: it parks where its predicate is pending (R101). -/
def execVote (g : Guard) (d : VoteDst) (a : BitVec 3) (s : State) : Result :=
  s.onPath fun c =>
    match d with
    | .ballot k =>
      if (c.act g).list.any fun l => a != 0 && c.grp.isPend l (.p a.toNat) then s.park c
      else s.issuePath c (.vote g d a) g [] fun G _ act => G.kw k (G.ballot act a)
    | _ => s.issueLane c (.vote g d a) (voteOp g d a)

/-! ## The mask (R108) -/

/-- `GETX` (R108): reads the path's EXM bits into a k register. -/
def execGetx (g : Guard) (d : BitVec 5) (s : State) : Result :=
  s.onPath fun c => s.issuePath c (.getx g d) g [] fun G _ _ => G.kw d ((G.exm &&& c.path.lanes).zeroExtend 64)

/-- The lanes that `SETX`, or an `MTS` to `EXM`, acts on: not exited, guard true, enabled or not. -/
def Cur.maskLanes (c : Cur) (gd : Guard) : Lanes := c.grp.guardLanes gd (c.grp.liveOf c.path)

/-- Whether the guard is pending in any lane that has not exited. -/
def Cur.maskWaits (c : Cur) (gd : Guard) : Bool :=
  gd.p != 0 && (c.grp.liveOf c.path).list.any fun l => c.grp.isPend l (.p gd.p.toNat)

/-- `EXM` takes the bits of a value in the lanes acted on. -/
def Group.setMask (G : Group) (m : Lanes) (x : W64) : Group :=
  { G with exm := (G.exm &&& ~~~ m) ||| (x.extractLsb' 0 16 &&& m) }

/-- `SETX` (R108): sets EXM bits of the path's non-exited guarded lanes, active or not. -/
def execSetx (g : Guard) (a : Src) (s : State) : Result :=
  s.onPath fun c =>
    if c.maskWaits g then s.park c
    else
      match s.cwFor c (c.maskLanes g) [.op .k64 a none] with
      | (s, .wait) => s.park c
      | (s, .fail x ad) => s.trapGot c x ad
      | (s, .ok b) =>
        (s.modGroup c.g fun G => G.setMask (c.maskLanes g) (G.kopnd (w64 (ofBytes b)) .k64 a)).advance c (.setx g a)

/-! ## Lane movement (R109) -/

/-- `LSHIFT` as a per-lane operation (R109): sources, destination, result. -/
def lshiftOp (g : Guard) (t : Ty) (d : Dst) (a b c : Src) (up : Bool) : LaneOp :=
  { guard := g, srcs := [.op (.ty t) a (some (.shift up, 2)), .op (.ty t) b none, .op .one c none], dst := .reg t d
    f := fun _ v l => match shiftLane up l (shiftN (v 2 l)) with | some k => v 0 k | none => v 1 l }

/-- `LSWZ` as a per-lane operation (R109): sources, destination, result. -/
def lswzOp (g : Guard) (t : Ty) (d : Dst) (a b : Src) : LaneOp :=
  { guard := g, srcs := [.op (.ty t) a (some (.swz, 1)), .op .one b none], dst := .reg t d, f := fun _ v l => v 0 (swzLane l (v 1 l)) }

/-- `LPERM` as a per-lane operation (R109): sources, destination, result. -/
def lpermOp (g : Guard) (t : Ty) (d : Dst) (a b : Src) : LaneOp :=
  { guard := g, srcs := [.op (.ty t) a (some (.perm, 1)), .op .one b none], dst := .reg t d, f := fun _ v l => v 0 ((v 1 l).toNat % 16) }

/-- `LBCAST` as a per-lane operation (R109): sources, destination, result. -/
def lbcastOp (g : Guard) (t : Ty) (d : Dst) (a b : Src) : LaneOp :=
  { guard := g, srcs := [.op (.ty t) a (some (.perm, 1)), .op (.ty t) b none], dst := .reg t d, f := fun _ v l => v 0 ((v 1 l).toNat % 16) }

/-- `LSHIFT` (R109): shifts values across lanes by a distance, filling from a second source. -/
def execLshift (g : Guard) (t : Ty) (d : Dst) (a b c : Src) (up : Bool) (s : State) : Result :=
  laneExec (.lshift g t d a b c up) (lshiftOp g t d a b c up) s
/-- `LSWZ` (R109): swizzles values within groups of four lanes. -/
def execLswz (g : Guard) (t : Ty) (d : Dst) (a b : Src) (s : State) : Result := laneExec (.lswz g t d a b) (lswzOp g t d a b) s
/-- `LPERM` (R109): permutes values across lanes by a per-lane selector. -/
def execLperm (g : Guard) (t : Ty) (d : Dst) (a b : Src) (s : State) : Result :=
  laneExec (.lperm g t d a b) (lpermOp g t d a b) s
/-- `LBCAST` (R109): broadcasts one lane's value to all active lanes (DEDUCED, assumption 57). -/
def execLbcast (g : Guard) (t : Ty) (d : Dst) (a b : Src) (s : State) : Result :=
  laneExec (.lbcast g t d a b) (lbcastOp g t d a b) s

/-! ## Reduction (R110) -/

/-- The result of `RED` in one lane (R259). -/
def redR (op : RedOp) (t : Ty) (x y : W64) : W64 :=
  match op with
  | .add => iaddR t x y
  | .min => iminR t x y
  | .max => imaxR t x y
  | .and => x &&& y
  | .or => x ||| y
  | .xor => x ^^^ y

/-- The values of the active lanes put together; every operation is associative and commutative. -/
def lredR (op : RedOp) (t : Ty) (xs : List W64) : W64 :=
  match xs with
  | [] => 0
  | x :: r => r.foldl (redR op t) x

/-- `LRED` as a per-lane operation (R110): sources, destination, result. -/
def lredOp (g : Guard) (op : RedOp) (t : Ty) (d : Dst) (a : Src) : LaneOp :=
  { guard := g, srcs := [.op (.ty t) a none], dst := .reg t d, f := fun act v _ => lredR op t (act.list.map fun l => v 0 l) }

/-- `LRED` (R110): integer reduction over active lanes written to every active lane. -/
def execLred (g : Guard) (op : RedOp) (t : Ty) (d : Dst) (a : Src) (s : State) : Result :=
  laneExec (.lred g op t d a) (lredOp g op t d a) s

end Sys2Proof.Machine
end

