-- ==== Sys2Proof/Machine/Float.lean ====
section
/-!
DEFINITION. Vector float instructions and conversions (R158 to R173).
-/

namespace Sys2Proof.Machine

/-! ## Results -/

/-- A result encoding, saturated where asked (R161). -/
def satIf (sat : Bool) (f : Fmt) (x : Nat) : Nat := if sat then f.sat x else x

/-- One operation on each element of two operands (R139, R160). -/
def elems2 (t : Ty) (op : Nat → Nat → Nat) (a b : W64) : W64 :=
  t.pack (((t.elems a).zip (t.elems b)).map fun xy => op xy.1 xy.2)

/-- One operation on each element of three operands. -/
def elems3 (t : Ty) (op : Nat → Nat → Nat → Nat) (a b c : W64) : W64 :=
  t.pack (((t.elems a).zip ((t.elems b).zip (t.elems c))).map fun xyz => op xyz.1 xyz.2.1 xyz.2.2)

/-- Exact sum, difference and product, rounded once (R160). -/
def faddE (f : Fmt) (r : Rnd) (sat : Bool) (x y : Nat) : Nat := satIf sat f (f.round r ((f.decode x).add r (f.decode y)))
def fsubE (f : Fmt) (r : Rnd) (sat : Bool) (x y : Nat) : Nat := satIf sat f (f.round r ((f.decode x).add r (f.decode y).neg))
def fmulE (f : Fmt) (r : Rnd) (sat : Bool) (x y : Nat) : Nat := satIf sat f (f.round r ((f.decode x).mul (f.decode y)))
/-- The exact product and sum, rounded once (R160). -/
def ffmaE (f : Fmt) (r : Rnd) (sat : Bool) (x y z : Nat) : Nat :=
  satIf sat f (f.round r (((f.decode x).mul (f.decode y)).add r (f.decode z)))

/-- The result of `FADD` in one lane (R160). -/
def faddR (t : Ty) (r : Rnd) (sat : Bool) (a b : W64) : W64 := elems2 t (faddE t.fmt r sat) a b
/-- The result of `FSUB` in one lane (R160). -/
def fsubR (t : Ty) (r : Rnd) (sat : Bool) (a b : W64) : W64 := elems2 t (fsubE t.fmt r sat) a b
/-- The result of `FMUL` in one lane (R160). -/
def fmulR (t : Ty) (r : Rnd) (sat : Bool) (a b : W64) : W64 := elems2 t (fmulE t.fmt r sat) a b
/-- The result of `FFMA` in one lane (R160). -/
def ffmaR (t : Ty) (r : Rnd) (sat : Bool) (a b c : W64) : W64 := elems3 t (ffmaE t.fmt r sat) a b c
/-- The result of `FMIN` in one lane (R162). -/
def fminR (t : Ty) (a b : W64) : W64 := elems2 t (t.fmt.minmax false) a b
/-- The result of `FMAX` in one lane (R162). -/
def fmaxR (t : Ty) (a b : W64) : W64 := elems2 t (t.fmt.minmax true) a b

/-- The square root, rounded once to the instruction's type (R164). -/
def fsqrtR (t : Ty) (r : Rnd) (a : W64) : W64 := t.pack ((t.elems a).map fun x => t.fmt.round r (sqrtFp (t.fmt.decode x)))

/-- Multiplication by a power of two; zeros, infinities keep their bits (R165). -/
def fscaleE (f : Fmt) (r : Rnd) (n : Int) (x : Nat) : Nat :=
  if f.isNan x then f.cnan else if f.isInf x || (f.expo x == 0 && f.mant x == 0) then x else f.round r ((f.decode x).scale n)

/-- The result of `FSCALE` in one lane (R165). -/
def fscaleR (t : Ty) (r : Rnd) (a b : W64) : W64 := t.pack ((t.elems a).map (fscaleE t.fmt r (sx 32 b.toNat)))

/-- The result of `FCLASS` in one lane (R166). -/
def fclassR (t : Ty) (a : W64) : W64 := w64 (t.fmt.classOf (a.toNat % 2 ^ t.width))

/-- Whether a term is -0. -/
def negZero : Fp → Bool
  | .fin true 0 _ => true
  | _ => false

/-- The exact sum of terms, with the zero rule of R167 (DESIGN CHOICE, assumption 31). -/
def dotSum (r : Rnd) (ts : List Fp) : Fp := sumTerms (r == .rm || ts.all negZero) ts

/-- The result of `FDOT2` in one lane (R167) (DESIGN CHOICE, assumption 31). -/
def fdot2R (t : Ty) (r : Rnd) (sat : Bool) (a b c : W64) : W64 :=
  let ps := ((t.elems a).zip (t.elems b)).map fun xy => (t.fmt.decode xy.1).mul (t.fmt.decode xy.2)
  w64 (satIf sat fmt32 (fmt32.round r (dotSum r (ps ++ [fmt32.decode (c.toNat % 2 ^ 32)]))))

/-- One level of the tree of R168: neighbours combined, an absent one passed by. -/
def pairUp (op : Nat → Nat → Nat) : List (Option Nat) → List (Option Nat)
  | x :: y :: r =>
    (match x, y with
     | some x, some y => some (op x y)
     | some x, none => some x
     | none, y => y) :: pairUp op r
  | l => l

/-- The value the tree of sixteen lanes leaves (R168). -/
def tree16 (op : Nat → Nat → Nat) (x : List (Option Nat)) : Nat :=
  ((pairUp op (pairUp op (pairUp op (pairUp op x)))).headD none).getD 0

/-- A NaN that has met no other value, as `FRED` writes it: canonical (R137), or unchanged (R168) (DESIGN CHOICE, assumption 31). -/
def loneNan (f : Fmt) (x : Nat) : Nat :=
  match f.decode x with
  | .nan => if Config.fredCanon then f.round .rn .nan else x
  | _ => x

/-- The result of `FRED` in one lane (R168) (DESIGN CHOICE, assumption 31). -/
def fredR (op : FRedOp) (t : Ty) (r : Rnd) (act : Lanes) (v : Nat → W64) : W64 :=
  let f := t.fmt
  let at_ (l : Nat) : Nat := (v l).toNat % 2 ^ t.width
  let xs := (List.range 16).map fun l => if act.getLsbD l then some (at_ l) else none
  match op with
  | .add => w64 (loneNan f (tree16 (faddE f r false) xs))
  | .min => w64 (loneNan f (tree16 (f.minmax false) xs))
  | .max => w64 (loneNan f (tree16 (f.minmax true) xs))
  | .addx => w64 (f.round r (dotSum r (act.list.map fun l => f.decode (at_ l))))

/-! ## Conversions (R169 to R173) -/

/-- The result of `FCVT` in one lane (R170). -/
def fcvtR (dt st : Ty) (hi : Bool) (r : Rnd) (a b : W64) : W64 :=
  let x := st.fmt.decode ((st.elems a).getD (if hi then 1 else 0) 0)
  if dt.isPacked then dt.pack [dt.fmt.round r x, dt.fmt.round r (fmt32.decode (b.toNat % 2 ^ 32))]
  else w64 (dt.fmt.round r x)

/-- The result of `FTOI` in one lane (R171). -/
def ftoiR (dt st : Ty) (r : Rnd) (a : W64) : W64 :=
  dt.ofInt (roundInt r dt.lo dt.hi (st.fmt.decode (a.toNat % 2 ^ st.width)))

/-- The result of `ITOF` in one lane (R172). -/
def itofR (dt st : Ty) (r : Rnd) (a : W64) : W64 := w64 (dt.fmt.round r (Fp.ofInt (st.toInt a)))

/-- The results of `NARROW` for the active lanes, in ascending order (R173). -/
def narrowR (dt : Ty) (ls : List Nat) (a b : Nat → W64) : List Nat :=
  narrowEf (if dt = .i8 then .int8 else .flt dt.fmt)
    (ls.map fun l => (fmt32.decode ((a l).toNat % 2 ^ 32)).mul (fmt32.decode ((b l).toNat % 2 ^ 32)))

/-! ## Operations and meanings -/

/-- `FADD` as a per-lane operation (R160): sources, destination, result. -/
def faddOp (g : Guard) (t : Ty) (r : Rnd) (sat : Bool) (d : Dst) (a b : Src) : LaneOp := lane2 g t d a b (faddR t r sat)
/-- `FSUB` as a per-lane operation (R160): sources, destination, result. -/
def fsubOp (g : Guard) (t : Ty) (r : Rnd) (sat : Bool) (d : Dst) (a b : Src) : LaneOp := lane2 g t d a b (fsubR t r sat)
/-- `FMUL` as a per-lane operation (R160): sources, destination, result. -/
def fmulOp (g : Guard) (t : Ty) (r : Rnd) (sat : Bool) (d : Dst) (a b : Src) : LaneOp := lane2 g t d a b (fmulR t r sat)
/-- `FFMA` as a per-lane operation (R160): sources, destination, result. -/
def ffmaOp (g : Guard) (t : Ty) (r : Rnd) (sat : Bool) (d : Dst) (a b c : Src) : LaneOp := lane3 g t d a b c (ffmaR t r sat)
/-- `FMIN` as a per-lane operation (R162): sources, destination, result. -/
def fminOp (g : Guard) (t : Ty) (d : Dst) (a b : Src) : LaneOp := lane2 g t d a b (fminR t)
/-- `FMAX` as a per-lane operation (R162): sources, destination, result. -/
def fmaxOp (g : Guard) (t : Ty) (d : Dst) (a b : Src) : LaneOp := lane2 g t d a b (fmaxR t)
/-- `FSET` as a per-lane operation (R163): sources, destination, result. -/
def fsetOp (g : Guard) (t : Ty) (p : BitVec 3) (c : Cmp) (a b : Src) : LaneOp := laneCmp g t p a b (cmpFloat c t)
/-- `FRCP` as a per-lane operation (R164): sources, destination, result. -/
def frcpOp (g : Guard) (t : Ty) (d : Dst) (a : Src) : LaneOp := lane1 g t d a (approxTy frcp32 t)
/-- `FRSQ` as a per-lane operation (R164): sources, destination, result. -/
def frsqOp (g : Guard) (t : Ty) (d : Dst) (a : Src) : LaneOp := lane1 g t d a (approxTy frsq32 t)
/-- `FSQRT` as a per-lane operation (R164): sources, destination, result. -/
def fsqrtOp (g : Guard) (t : Ty) (r : Rnd) (d : Dst) (a : Src) : LaneOp := lane1 g t d a (fsqrtR t r)
/-- `FEXP2` as a per-lane operation (R164): sources, destination, result. -/
def fexp2Op (g : Guard) (t : Ty) (d : Dst) (a : Src) : LaneOp := lane1 g t d a (approxTy fexp232 t)
/-- `FLOG2` as a per-lane operation (R164): sources, destination, result. -/
def flog2Op (g : Guard) (t : Ty) (d : Dst) (a : Src) : LaneOp := lane1 g t d a (approxTy flog232 t)
/-- `FSIN` as a per-lane operation (R164): sources, destination, result. -/
def fsinOp (g : Guard) (t : Ty) (d : Dst) (a : Src) : LaneOp := lane1 g t d a (approxTy fsin32 t)
/-- `FCOS` as a per-lane operation (R164): sources, destination, result. -/
def fcosOp (g : Guard) (t : Ty) (d : Dst) (a : Src) : LaneOp := lane1 g t d a (approxTy fcos32 t)
/-- Source B is a 32-bit integer, whatever the type (R159). -/
def fscaleOp (g : Guard) (t : Ty) (r : Rnd) (d : Dst) (a b : Src) : LaneOp :=
  { guard := g, srcs := [.op (.ty t) a none, .op .one b none], dst := .reg t d, f := fun _ v l => fscaleR t r (v 0 l) (v 1 l) }
/-- A class code into a register, or its test against a mask into a predicate (R166). -/
def fclassOp (g : Guard) (t : Ty) (d : ClassDst) (a : Src) : LaneOp :=
  match d with
  | .code d => { guard := g, srcs := [.op (.ty t) a none], dst := .reg .n32 d, f := fun _ v l => fclassR t (v 0 l) }
  | .test p b =>
    { guard := g, srcs := [.op (.ty t) a none, .op .one b none], dst := .pred p
      f := fun _ v l => if fclassR t (v 0 l) &&& v 1 l &&& 0x3FF != 0 then 1 else 0 }
/-- Source C and the result are FP32 (R167). -/
def fdot2Op (g : Guard) (t : Ty) (r : Rnd) (sat : Bool) (d : Dst) (a b c : Src) : LaneOp :=
  { guard := g, srcs := [.op (.ty t) a none, .op (.ty t) b none, .op (.ty .f32) c none], dst := .reg .f32 d
    f := fun _ v l => fdot2R t r sat (v 0 l) (v 1 l) (v 2 l) }
/-- `FRED` as a per-lane operation (R168): sources, destination, result. -/
def fredOp (g : Guard) (op : FRedOp) (t : Ty) (r : Rnd) (d : Dst) (a : Src) : LaneOp :=
  { guard := g, srcs := [.op (.ty t) a none], dst := .reg t d, f := fun act v _ => fredR op t r act (v 0) }
/-- Source A is read under its own type; a packed result takes its second element from B (R169). -/
def fcvtOp (g : Guard) (dt st : Ty) (hi : Bool) (r : Rnd) (d : Dst) (a : Src) (b : Option Src) : LaneOp :=
  { guard := g
    srcs := .op (.ty st) a none :: (match b with | some b => [.op (.ty .f32) b none] | none => [])
    dst := .reg dt d, f := fun _ v l => fcvtR dt st hi r (v 0 l) (v 1 l) }
/-- `FTOI` as a per-lane operation (R171): sources, destination, result. -/
def ftoiOp (g : Guard) (dt st : Ty) (r : Rnd) (d : Dst) (a : Src) : LaneOp :=
  { guard := g, srcs := [.op (.ty st) a none], dst := .reg dt d, f := fun _ v l => ftoiR dt st r (v 0 l) }
/-- `ITOF` as a per-lane operation (R172): sources, destination, result. -/
def itofOp (g : Guard) (dt st : Ty) (r : Rnd) (d : Dst) (a : Src) : LaneOp :=
  { guard := g, srcs := [.op (.ty st) a none], dst := .reg dt d, f := fun _ v l => itofR dt st r (v 0 l) }
/-- The active lanes chain in ascending order (R173). -/
def narrowOp (g : Guard) (dt : Ty) (d : Dst) (a b : Src) : LaneOp :=
  { guard := g, srcs := [.op (.ty .f32) a none, .op (.ty .f32) b none], dst := .reg dt d
    f := fun act v l => w64 ((narrowR dt act.list (v 0) (v 1)).getD (act.list.idxOf l) 0) }

/-- `FADD` (R160): floating-point sum rounded once. -/
def execFadd (g : Guard) (t : Ty) (r : Rnd) (sat : Bool) (d : Dst) (a b : Src) (s : State) : Result :=
  laneExec (.fadd g t r sat d a b) (faddOp g t r sat d a b) s
/-- `FSUB` (R160): floating-point difference rounded once. -/
def execFsub (g : Guard) (t : Ty) (r : Rnd) (sat : Bool) (d : Dst) (a b : Src) (s : State) : Result :=
  laneExec (.fsub g t r sat d a b) (fsubOp g t r sat d a b) s
/-- `FMUL` (R160): floating-point product rounded once. -/
def execFmul (g : Guard) (t : Ty) (r : Rnd) (sat : Bool) (d : Dst) (a b : Src) (s : State) : Result :=
  laneExec (.fmul g t r sat d a b) (fmulOp g t r sat d a b) s
/-- `FFMA` (R160): fused multiply-add rounded once. -/
def execFfma (g : Guard) (t : Ty) (r : Rnd) (sat : Bool) (d : Dst) (a b c : Src) (s : State) : Result :=
  laneExec (.ffma g t r sat d a b c) (ffmaOp g t r sat d a b c) s
/-- `FMIN` (R162): floating-point minimum with NaN as missing. -/
def execFmin (g : Guard) (t : Ty) (d : Dst) (a b : Src) (s : State) : Result := laneExec (.fmin g t d a b) (fminOp g t d a b) s
/-- `FMAX` (R162): floating-point maximum with NaN as missing. -/
def execFmax (g : Guard) (t : Ty) (d : Dst) (a b : Src) (s : State) : Result := laneExec (.fmax g t d a b) (fmaxOp g t d a b) s
/-- `FSET` (R163): writes a floating-point comparison to a predicate. -/
def execFset (g : Guard) (t : Ty) (p : BitVec 3) (c : Cmp) (a b : Src) (s : State) : Result :=
  laneExec (.fset g t p c a b) (fsetOp g t p c a b) s
/-- `FRCP` (R164): approximate reciprocal. -/
def execFrcp (g : Guard) (t : Ty) (d : Dst) (a : Src) (s : State) : Result := laneExec (.frcp g t d a) (frcpOp g t d a) s
/-- `FRSQ` (R164): approximate reciprocal square root. -/
def execFrsq (g : Guard) (t : Ty) (d : Dst) (a : Src) (s : State) : Result := laneExec (.frsq g t d a) (frsqOp g t d a) s
/-- `FSQRT` (R164): correctly rounded square root. -/
def execFsqrt (g : Guard) (t : Ty) (r : Rnd) (d : Dst) (a : Src) (s : State) : Result :=
  laneExec (.fsqrt g t r d a) (fsqrtOp g t r d a) s
/-- `FEXP2` (R164): approximate base-2 exponential. -/
def execFexp2 (g : Guard) (t : Ty) (d : Dst) (a : Src) (s : State) : Result := laneExec (.fexp2 g t d a) (fexp2Op g t d a) s
/-- `FLOG2` (R164): approximate base-2 logarithm. -/
def execFlog2 (g : Guard) (t : Ty) (d : Dst) (a : Src) (s : State) : Result := laneExec (.flog2 g t d a) (flog2Op g t d a) s
/-- `FSIN` (R164): approximate sine. -/
def execFsin (g : Guard) (t : Ty) (d : Dst) (a : Src) (s : State) : Result := laneExec (.fsin g t d a) (fsinOp g t d a) s
/-- `FCOS` (R164): approximate cosine. -/
def execFcos (g : Guard) (t : Ty) (d : Dst) (a : Src) (s : State) : Result := laneExec (.fcos g t d a) (fcosOp g t d a) s
/-- `FSCALE` (R165): multiplies by a power of two and rounds once. -/
def execFscale (g : Guard) (t : Ty) (r : Rnd) (d : Dst) (a b : Src) (s : State) : Result :=
  laneExec (.fscale g t r d a b) (fscaleOp g t r d a b) s
/-- `FCLASS` (R166): writes a class code, or a predicate from a class mask. -/
def execFclass (g : Guard) (t : Ty) (d : ClassDst) (a : Src) (s : State) : Result :=
  laneExec (.fclass g t d a) (fclassOp g t d a) s
/-- `FDOT2` (R167): exact two-element dot product plus FP32 accumulator, rounded once. -/
def execFdot2 (g : Guard) (t : Ty) (r : Rnd) (sat : Bool) (d : Dst) (a b c : Src) (s : State) : Result :=
  laneExec (.fdot2 g t r sat d a b c) (fdot2Op g t r sat d a b c) s
/-- `FRED` (R168): floating-point reduction over active lanes in a fixed tree or exactly. -/
def execFred (g : Guard) (op : FRedOp) (t : Ty) (r : Rnd) (d : Dst) (a : Src) (s : State) : Result :=
  laneExec (.fred g op t r d a) (fredOp g op t r d a) s
/-- `FCVT` (R170): converts between floating-point formats. -/
def execFcvt (g : Guard) (dt st : Ty) (hi : Bool) (r : Rnd) (d : Dst) (a : Src) (b : Option Src) (s : State) : Result :=
  laneExec (.fcvt g dt st hi r d a b) (fcvtOp g dt st hi r d a b) s
/-- `FTOI` (R171): converts float to integer with clamping. -/
def execFtoi (g : Guard) (dt st : Ty) (r : Rnd) (d : Dst) (a : Src) (s : State) : Result :=
  laneExec (.ftoi g dt st r d a) (ftoiOp g dt st r d a) s
/-- `ITOF` (R172): converts integer to float. -/
def execItof (g : Guard) (dt st : Ty) (r : Rnd) (d : Dst) (a : Src) (s : State) : Result :=
  laneExec (.itof g dt st r d a) (itofOp g dt st r d a) s
/-- `NARROW` (R173): narrows scaled FP32 values over active lanes with error feedback. -/
def execNarrow (g : Guard) (dt : Ty) (d : Dst) (a b : Src) (s : State) : Result :=
  laneExec (.narrow g dt d a b) (narrowOp g dt d a b) s

end Sys2Proof.Machine
end

