-- ==== Sys2Proof/Machine/Order.lean ====
section
/-!
DEFINITION. Instructions that act once per path and may end otherwise than at the next instruction (R80, R66); releases and acquires
of a path (R253, R273, R279).
-/

namespace Sys2Proof.Machine

/-! ## Issue once per path -/

/-- A per-path instruction: it parks while its guard is pending, or, if it drains, while an older residual entry of its path remains
(R65, R66); with no active lane it has no effect (R80); else `f` says what it does, given its constant-window words. -/
def State.once (s : State) (c : Cur) (i : Instr) (gd : Guard) (drains : Bool) (srcs : List (ReadAs × Src))
    (f : State → W64 → State) : State :=
  if c.guardWaits gd != 0 || (drains && !c.drained) then s.park c
  else if c.act gd = 0 then s.advance c i
  else
    match s.cwFor c (c.act gd) (srcs.map fun q => .op q.1 q.2 none) with
    | (s, .wait) => s.park c
    | (s, .fail x a) => s.trapGot c x a
    | (s, .ok b) => f s (w64 (ofBytes b))

/-! ## Releases and acquires -/

/-- A request has left its core: what it writes is in the core's L1 and on its way (R273). -/
def Packet.left (p : Packet) : Bool :=
  match p.phase, p.route.head? with
  | .near, _ => false
  | .going, some (.core _) => false
  | _, _ => true

/-- No packet of an access still stands at its core: its writes are in the core's L1 and on their way (R273). -/
def State.leftCore (s : State) (g id : Nat) : Bool := s.net.packets.all fun e => e.2.own != .access g id || e.2.left

/-- The words of a store are owned by its sector: they stand at the sector point, from where a release at a wider scope writes them home;
those of another device's line go there as a request, which such a release waits for (R273, R279, R300). -/
def State.inSector (s : State) (p : Packet) (sc : Scope) : Bool :=
  match p.phase with
  | .kept _ _ => p.dev == s.fw.dev || sc.rank < 6
  | _ => false

/-- The words of an access are all owned by its sector. -/
def State.atSector (s : State) (g id : Nat) (sc : Scope) : Bool :=
  s.net.packets.all fun e => e.2.own != .access g id || s.inSector e.2 sc

/-- Whether an access that has not ended is performed at a scope (R273). -/
def State.performedAt (s : State) (g : Nat) (a : Access) (sc : Scope) : Bool :=
  a.kind == .store && ((sc.rank < 3 && s.leftCore g a.id) || s.atSector g a.id sc)

/-- Whether a write may have come to happen before a release of a group: one of its block's, which `.blk` releases order while it is in the
core's L1 alone (R273, R279) (DEDUCED, assumption 30). -/
def State.ofBlock (s : State) (g : Nat) (p : Packet) : Bool :=
  match p.own with
  | .access g' _ => (s.grpOf g').block == (s.grpOf g).block
  | _ => p.core == slotCore g

/-- Whether a write of a release's block may have come to happen before it: one older than the release, or one that has left the core before
the last acquire made there, which the release may have waited for (R274, R279) (DEDUCED, assumption 30). -/
def State.mayPrecede (s : State) (g before i : Nat) (p : Packet) : Bool :=
  p.kind.isStore && s.ofBlock g p && (i < before || (p.left && i < get 0 s.net.acqs (4096 + slotCore g)))

/-- Whether every access of `lanes` older than `before`, and from `.gang` on every write of the block older than it, is performed at
a scope (R253, R279) (DEDUCED, assumption 30). -/
def State.relDone (s : State) (g : Nat) (lanes : Lanes) (before : Nat) (sc : Scope) : Bool :=
  sc == .lane ||
    (((s.grpOf g).accs.all fun a => before ≤ a.id || a.lanes &&& lanes == 0 || s.performedAt g a sc)
      && (sc.rank < 3
          || s.net.packets.all fun e => !s.mayPrecede g before e.1 e.2 || s.inSector e.2 sc))

/-- What a release writes back: a sector's owned remote copies from `.die` on, dirty host words from `.node` on (R279). -/
def State.releaseAt (s : State) (core : Nat) (sc : Scope) : State :=
  let s := if 6 ≤ sc.rank then (s.flushRsc (coreSector core) fun _ => true).sendKept (coreSector core) fun _ => true else s
  if 8 ≤ sc.rank then s.flushHost else s

/-- A path waits for the release of its older accesses; what is older was fixed when it began to wait. Then `f` goes on. A release at `.die`
or wider sends off what its sector keeps of other devices' lines. -/
def State.afterRelease (s : State) (c : Cur) (sc : Scope) (f : State → State) : State :=
  let n := match c.path.prog with | .stage n => n | _ => s.ids
  if s.relDone c.g c.path.allLanes n sc then f (s.releaseAt c.core sc)
  else
    let s := if 6 ≤ sc.rank then s.sendKept (coreSector c.core) fun _ => true else s
    (s.modPath c.g c.arm fun p => { p with prog := .stage n }).park c

end Sys2Proof.Machine
end

