-- ==== Sys2Proof/Machine/Control.lean ====
section
/-!
DEFINITION. Control instructions (R112 to R116, R45 to R47, R24, R127).
-/

namespace Sys2Proof.Machine

/-- The target of a branch offset (R87). -/
def Cur.target (c : Cur) (off : W32) : W64 := c.path.pc + off.signExtend 64

/-- Enabled lanes of the path. -/
def Cur.enabled (c : Cur) : Lanes := c.grp.exmOf c.path

/-! ## Branches (R113, R115) -/

/-- `NOP` has no effect (DEDUCED, assumption 63). -/
def execNop (g : Guard) (s : State) : Result := s.onPath fun c => s.issuePath c (.nop g) g [] fun G _ _ => G

/-- `BRA` splits the enabled lanes by its guard; lanes not enabled stay with the fall-through side (R113) (DEDUCED, assumption 63). -/
def execBra (g : Guard) (tgt recon : BitVec 32) (s : State) : Result :=
  s.onPath fun c =>
    if c.guardWaits g != 0 then s.park c
    else if c.act g = 0 then s.advance c (.bra g tgt recon)
    else if c.enabled &&& ~~~ c.act g = 0 then s.goto c (c.target tgt)
    else s.diverge c (c.act g) (c.target tgt) (c.nextPc (.bra g tgt recon)) (c.target recon)

/-- `BRU` moves the whole path, whatever the state of its lanes (R115). -/
def execBru (uns : Bool) (cm : Cmp) (a b : Src) (off : BitVec 32) (s : State) : Result :=
  s.onPath fun c =>
    if cmpK cm uns (c.grp.kopnd 0 (cmpRead uns) a) (c.grp.kopnd 0 (cmpRead uns) b) then s.goto c (c.target off)
    else s.advance c (.bru uns cm a b off)

/-- Whether what `BPEND` names is pending in an active lane. -/
def Cur.namePend (c : Cur) (r : PendName) : Bool :=
  c.enabled.list.any fun l =>
    match r with
    | .reg a => (c.grp.srcLocs l .one a).any fun x => c.grp.isPend l x.2
    | .pred p => p != 0 && c.grp.isPend l (.p p.toNat)

/-- `BPEND` branches if what it names is pending; it never parks (R65, R115). -/
def execBpend (r : PendName) (off : BitVec 32) (s : State) : Result :=
  s.onPath fun c => if c.namePend r then s.goto c (c.target off) else s.advance c (.bpend r off)

/-- `LOOPK` counts down and branches while the count is not 0, even with no active lane (R116). -/
def execLoopk (a : BitVec 5) (off : BitVec 32) (s : State) : Result :=
  s.onPath fun c =>
    let x := c.grp.kr a - 1
    let s := s.modGroup c.g fun G => G.kw a x
    if x = 0 then s.advance c (.loopk a off) else s.goto c (c.target off)

/-! ## Calls and returns (R45 to R47, R116) -/

/-- The place a divergence-stack entry needs is made before anything changes (R32). -/
def State.forSplit (s : State) (c : Cur) (m : Lanes) : Slid :=
  if c.enabled &&& ~~~ m = 0 || c.grp.arms.length < 2 then .on s
  else
    match s.makeRoom c.g c.arm with
    | (s, .ok _) => .on s
    | (s, .wait) => .off (s.park c)
    | (s, .fail x a) => .off (s.spillTrap c x a)

/-- The lanes of `m` go to `pc`, the other enabled lanes, if any, to the next instruction; both meet at `recon`. -/
def State.branchLanes (s : State) (c : Cur) (i : Instr) (m : Lanes) (pc recon : W64) : State :=
  if c.enabled &&& ~~~ m = 0 then s.goto c pc
  else s.diverge c m pc (c.nextPc i) recon

/-- A call to a target: spill checks, then the target, then the slide (R45, R46, R124). -/
def State.call (s : State) (c : Cur) (i : Instr) (g : Guard) (slide : BitVec 2) (tgt : W64) : State :=
  if c.guardWaits g != 0 then s.park c
  else if c.act g = 0 then s.advance c i
  else
    let ret := c.nextPc i
    match s.forSplit c (c.act g) with
    | .off s => s
    | .on s =>
      match s.callSlide c (c.act g) slide ret with
      | .off s => s
      | .on s' =>
        if tgt.extractLsb' 32 25 != ret.extractLsb' 32 25 || tgt.extractLsb' 0 2 != 0 then
          (s'.modGroup c.g fun _ => s.grpOf c.g).illegal c
        else s'.branchLanes c i (c.act g) tgt ret

/-- `CALL` (R45): writes the link word, slides the register window by 8, 16 or 24 and branches to a relative target. -/
def execCall (g : Guard) (slide : BitVec 2) (off : BitVec 32) (s : State) : Result :=
  s.onPath fun c => s.call c (.call g slide off) g slide (c.target off)

/-- `CALLI` (R116): call through a target held in a k register, with a window slide. -/
def execCalli (g : Guard) (slide : BitVec 2) (a : BitVec 5) (s : State) : Result :=
  s.onPath fun c => s.call c (.calli g slide a) g slide (c.grp.kr a)

/-- `RET` (R46): reads the link word, slides the window back, fills spilled units and returns. -/
def execRet (g : Guard) (s : State) : Result :=
  s.onPath fun c =>
    if c.guardWaits g != 0 then s.park c
    else if c.act g = 0 then s.advance c (.ret g)
    else
      match s.forSplit c (c.act g) with
      | .off s => s
      | .on s =>
        match s.retSlide c (c.act g) with
        | (.off s, _) => s
        | (.on s, ret) => s.branchLanes c (.ret g) (c.act g) ret ret

/-! ## `EXIT` (R24, R127, R340) -/

/-- Residual entries that a handler's last `EXIT` drops for the dissolved path: what waits for them waits no more. -/
def Group.dropResid (G : Group) (es : List Resid) : Group :=
  es.foldl (fun G e => (List.range 16).foldl (fun G l => G.forsake e.id l) G) G

/-- A residual entry for its lanes outside `m`. -/
def Resid.outside (e : Resid) (m : Lanes) : Resid := { e with mask := e.mask &&& ~~~ m }

/-- The last lanes of the trapping path end in its handler: `GCTL` and the other path's residual entries come back from the frame,
the dissolved path's are discarded (R127) (DEDUCED, assumption 18). -/
def State.leaveHandler (s : State) (c : Cur) (t : InTrap) (m : Lanes) : State :=
  match s.gRead c.g c.arm (t.frame + 0x28) 8 with
  | (s, .wait) => s.park c
  | (s, .fail x a) => s.doubleTrap c.g x (w64 a) c.path.pc
  | (s, .ok b) =>
    match s.gRead c.g c.arm (t.frame + 0xC0) 8 with
    | (s, .wait) => s.park c
    | (s, .fail x a) => s.doubleTrap c.g x (w64 a) c.path.pc
    | (s, .ok b2) =>
      let n := min (ofBytes b2) t.saved.length
      match (if n = 0 then (s, Got.ok []) else s.gRead c.g c.arm (t.frame + 0x200) (704 * n)) with
      | (s, .wait) => s.park c
      | (s, .fail x a) => s.doubleTrap c.g x (w64 a) c.path.pc
      | (s, .ok b3) =>
        let back := ((t.saved.take n).zip (List.range n)).map fun q => q.1.restore (b3.drop (704 * q.2))
        let kept := (back.map fun e => e.outside t.lanes).filter fun e => e.mask != 0#16
        let gone := back.filter fun e => e.mask &&& ~~~ t.lanes == 0#16
        let s := s.modGroup c.g fun G =>
          ({ G with gctl := w64 (ofBytes b) &&& gctlMask, resid := kept ++ G.resid, inTrap := none }).dropResid gone
        s.endLanes c.g c.arm m

/-- The lanes that an `EXIT` of some lanes ends: where it leaves no lane of the group enabled on any path, no lane is live, and the
masked ones end too (R6, R24) (DEDUCED, assumption 29). -/
def Group.ending (G : Group) (m : Lanes) : Lanes := if G.inTrap.isNone && G.exm &&& ~~~ m == 0 then 0xFFFF else m

/-- Lanes end by `EXIT`; if the path keeps a lane it goes on with the next instruction (DEDUCED, assumption 29). -/
def State.exitLanes (s : State) (c : Cur) (i : Instr) (m : Lanes) : State :=
  let stays := c.grp.liveOf c.path &&& ~~~ m != 0
  let s := s.modPath c.g c.arm fun p =>
    { p with pc := if stays then c.nextPc i else p.pc, st := .ready, prog := .none, last := s.tick }
  s.endLanes c.g c.arm m

/-- A group leaves its pre-emption handler saved (R340): it issues nothing until it is restored (DEDUCED, assumption 43). -/
def State.saveGroup (s : State) (c : Cur) : State :=
  s.modGroup c.g fun G =>
    { G with preempt := some s.now, resid := [], arms := G.arms.map fun p => { p with st := .held } }

/-- `EXIT` (R24): drains, then ends the active lanes; the group ends when no lane is live (DEDUCED, assumptions 18 and 29). -/
def execExit (g : Guard) (s : State) : Result :=
  s.onPath fun c => s.once c (.exit g) g true [] fun s _ =>
    match c.grp.inTrap with
    | none => s.exitLanes c (.exit g) (c.grp.ending (c.act g))
    | some t =>
      if t.cause = 0x0C then s.saveGroup c
      else if c.grp.liveOf { c.path with lanes := t.lanes } &&& ~~~ c.act g = 0 then s.leaveHandler c t (c.act g)
      else s.exitLanes c (.exit g) (c.act g)

end Sys2Proof.Machine
end

