-- ==== Sys2Proof/Machine/Traverse.lean ====
section
/-!
DEFINITION. Where blocks stand in a launch (R16 to R18): placement position and linear block index.
-/

namespace Sys2Proof.Machine

/-- A rectangle of the plane: x from `x0` to `x1 - 1`, y from `y0` to `y1 - 1`. -/
structure Rect where
  x0 : Nat
  x1 : Nat
  y0 : Nat
  y1 : Nat
deriving DecidableEq, Repr

def Rect.area (r : Rect) : Nat := (r.x1 - r.x0) * (r.y1 - r.y0)

/-- The part of a rectangle in the square of side `n` at (x, y), in that square's coordinates. -/
def Rect.sub (r : Rect) (x y n : Nat) : Rect :=
  { x0 := min n (r.x0 - x), x1 := min n (r.x1 - x), y0 := min n (r.y0 - y), y1 := min n (r.y1 - y) }

/-- Quadrant k of a curve: its x and y half. -/
def quadX (hil : Bool) (k : Nat) : Nat := if hil then k / 2 else k % 2
def quadY (hil : Bool) (k : Nat) : Nat := if hil then (k % 2 + k / 2) % 2 else k / 2

/-- The quadrant that holds the half (rx, ry). -/
def quadOf (hil : Bool) (rx ry : Nat) : Nat := if hil then 2 * rx + (rx + ry) % 2 else rx + 2 * ry

/-- A point of a quadrant of side `n` in the coordinates of its own curve (R17). -/
def intoQuad (hil : Bool) (k n : Nat) (p : Nat × Nat) : Nat × Nat :=
  if !hil then p
  else if k = 0 then (p.2, p.1)
  else if k = 3 then (n - 1 - p.2, n - 1 - p.1)
  else p

/-- A rectangle of a quadrant in the coordinates of its own curve. -/
def rectInto (hil : Bool) (k n : Nat) (r : Rect) : Rect :=
  if !hil then r
  else if k = 0 then { x0 := r.y0, x1 := r.y1, y0 := r.x0, y1 := r.x1 }
  else if k = 3 then { x0 := n - r.y1, x1 := n - r.y0, y0 := n - r.x1, y1 := n - r.x0 }
  else r

/-- Positions of the index space in quadrant k of a curve of side 2n. -/
def quadRect (hil : Bool) (r : Rect) (k n : Nat) : Rect := r.sub (n * quadX hil k) (n * quadY hil k) n

/-- The point visited at position `pos` of the index space by a curve of side 2 ^ level (R17). -/
def curvePoint (hil : Bool) : Nat → Rect → Nat → Nat × Nat
  | 0, _, _ => (0, 0)
  | level + 1, r, pos =>
    let n := 2 ^ level
    let a (k : Nat) : Nat := (quadRect hil r k n).area
    let k := if pos < a 0 then 0 else if pos < a 0 + a 1 then 1 else if pos < a 0 + a 1 + a 2 then 2 else 3
    let before := ((List.range k).map a).sum
    let p := intoQuad hil k n (curvePoint hil level (rectInto hil k n (quadRect hil r k n)) (pos - before))
    (n * quadX hil k + p.1, n * quadY hil k + p.2)

/-- The position at which a curve visits a point of the index space. -/
def curvePos (hil : Bool) : Nat → Rect → Nat × Nat → Nat
  | 0, _, _ => 0
  | level + 1, r, p =>
    let n := 2 ^ level
    let k := quadOf hil (p.1 / n) (p.2 / n)
    let before := ((List.range k).map fun j => (quadRect hil r j n).area).sum
    before + curvePos hil level (rectInto hil k n (quadRect hil r k n)) (intoQuad hil k n (p.1 % n, p.2 % n))

/-- Levels of the smallest square, of a side a power of two, that holds the plane. -/
def curveLevel (x y : Nat) : Nat := if max x y ≤ 1 then 0 else Nat.log2 (max x y - 1) + 1

/-- Strips of width w across `x`, each run through row by row: the point at a position, and back. -/
def stripPoint (x y w pos : Nat) : Nat × Nat :=
  let c := min (pos / (w * y)) (x / w)
  let width := min w (x - c * w)
  let q := pos - c * w * y
  (c * w + q % width, q / width)

def stripPos (x y w : Nat) (p : Nat × Nat) : Nat :=
  let c := p.1 / w
  c * w * y + p.2 * min w (x - c * w) + p.1 % w

/-- The block at a placement position of a launch (R16). -/
def LRec.pointAt (r : LRec) (pos : Nat) : Nat × Nat × Nat :=
  let plane := r.nx * r.ny
  let p := pos % plane
  let xy := match r.order with
    | 0 => stripPoint r.nx r.ny r.swz p
    | 1 => (stripPoint r.ny r.nx r.swz p).swap
    | o => curvePoint (o == 3) (curveLevel r.nx r.ny) { x0 := 0, x1 := r.nx, y0 := 0, y1 := r.ny } p
  (xy.1, xy.2, pos / plane)

/-- The linear block index (R48). -/
def LRec.linOf (r : LRec) (p : Nat × Nat × Nat) : Nat := p.1 + r.nx * (p.2.1 + r.ny * p.2.2)

/-- The placement position of a block by its linear index. -/
def LRec.posOf (r : LRec) (lin : Nat) : Nat :=
  let x := lin % r.nx
  let y := lin / r.nx % r.ny
  lin / (r.nx * r.ny) * (r.nx * r.ny)
    + (match r.order with
       | 0 => stripPos r.nx r.ny r.swz (x, y)
       | 1 => stripPos r.ny r.nx r.swz (y, x)
       | o => curvePos (o == 3) (curveLevel r.nx r.ny) { x0 := 0, x1 := r.nx, y0 := 0, y1 := r.ny } (x, y))

/-- The resident block of a launch with a linear index. -/
def State.blockOf (s : State) (l lin : Nat) : Option Block :=
  (s.blocks.find? fun e => e.2.launch == l && e.2.lin == lin).map Prod.snd

/-- Whether every block of a launch has been placed (R35); one killed to be placed again has not (DEDUCED, assumption 75). -/
def State.allPlaced (s : State) (l : Nat) : Bool :=
  match s.launch? l with
  | some L => L.lr.blocks ≤ L.pos && L.redo.isEmpty
  | none => true

/-- Whether a block of a launch has been placed, resident or not. -/
def State.wasPlaced (s : State) (l lin : Nat) : Bool :=
  match s.launch? l with
  | some L =>
    let k := L.lr.posOf lin / L.lr.ngang
    k < L.pos / L.lr.ngang && !L.redo.contains k
  | none => true

end Sys2Proof.Machine
end

