-- ==== Sys2Proof/Machine/System.lean ====
section
/-!
DEFINITION. Barriers, yielding, system registers, quota, traps, snapshots and exchange (R25 to R29, R35, R50, R51, R111, R118 to R128,
R354).
-/

namespace Sys2Proof.Machine

/-! ## Barriers (R118) -/

/-- A launch barrier is legal in a concurrent launch only (R25, R35). -/
def State.barLegal (s : State) (c : Cur) (lv : BarLevel) : Bool := lv != .launch || (s.recOf c.grp.launch).cls == 0

/-- The largest count of a level's counter. -/
def barMax : BarLevel → Nat
  | .blk => 127
  | .gang => 511
  | .launch => 2 ^ 32 - 1

/-- The end of a barrier wait acquires at the scope written (R118). -/
def State.barPass (s : State) (c : Cur) (i : Instr) (sc : Scope) : State := (s.invalidate c.core sc).advance c i

/-- The path's arrival, once the release it makes is done; the phase arrived in. -/
def State.barArrive (s : State) (c : Cur) (lv : BarLevel) (n count : Nat) : State :=
  s.setBar c lv n ((s.barOf c lv n).arrive c.g count (s.barLive c lv))

/-- The path passes a barrier, or waits for its phase to pass `q`. -/
def State.awaitPhase (s : State) (c : Cur) (i : Instr) (lv : BarLevel) (n : BitVec 4) (sc : Scope) (q : W32) : State :=
  if (s.barOf c lv n.toNat).passed q then s.barPass c i sc
  else (s.modPath c.g c.arm fun p => { p with prog := .phase q }).wait c

/-- `BAR` arrives with count 1 and then awaits the phase it arrived in (R26). -/
def execBar (g : Guard) (lv : BarLevel) (n : BitVec 4) (sc : Scope) (s : State) : Result :=
  s.onPath fun c =>
    let i : Instr := .bar g lv n sc
    match c.path.prog with
    | .phase q => s.awaitPhase c i lv n sc q
    | _ =>
      s.once c i g true [] fun s _ =>
        if !s.barLegal c lv then s.trapAt c 2 none
        else s.afterRelease c sc fun s =>
          let q := (s.barOf c lv n.toNat).phase
          (s.barArrive c lv n.toNat 1).awaitPhase c i lv n sc q

/-- An `ARRIVE` count: an imm32 is zero-extended, else the 64 bits (R118). -/
def Group.arriveCount (G : Group) (cw : W64) (src : Src) : W64 :=
  match src with
  | .imm x => x.zeroExtend 64
  | src => G.kopnd cw .k64 src

/-- `ARRIVE` (R118): adds a count to a barrier's current phase and returns the phase (DESIGN CHOICE, assumption 93). -/
def execArrive (g : Guard) (lv : BarLevel) (n : BitVec 4) (sc : Scope) (d : BitVec 5) (a : Src) (s : State) : Result :=
  s.onPath fun c =>
    let i : Instr := .arrive g lv n sc d a
    s.once c i g true [(.k64, a)] fun s cw =>
      let count := (c.grp.arriveCount cw a).toNat
      if barMax lv < count then s.illegal c
      else if !s.barLegal c lv then s.trapAt c 2 none
      else s.afterRelease c sc fun s =>
        let q := (s.barOf c lv n.toNat).phase
        ((s.barArrive c lv n.toNat count).modGroup c.g fun G => G.kw d (q.zeroExtend 64)).advance c i

/-- `AWAIT` (R118): waits until a barrier's phase passes a given value, which is fixed when the wait issues. -/
def execAwait (g : Guard) (lv : BarLevel) (n : BitVec 4) (sc : Scope) (a : Src) (s : State) : Result :=
  s.onPath fun c =>
    let i : Instr := .await g lv n sc a
    match c.path.prog with
    | .phase q => s.awaitPhase c i lv n sc q
    | _ => s.once c i g true [(.k64, a)] fun s cw =>
      if !s.barLegal c lv then s.trapAt c 2 none else s.awaitPhase c i lv n sc (lo32 (c.grp.kopnd cw .k64 a))

/-! ## Yielding (R119, R23) -/

/-- `YIELD` gives up the path's turn: it is not ready in the next cycle and then ranks as if it had just issued
(DEDUCED, assumptions 62 and 63). -/
def execYield (g : Guard) (s : State) : Result :=
  s.onPath fun c => s.once c (.yield g) g false [] fun s _ =>
    (s.modPath c.g c.arm fun p => { p with rest := s.now + Config.cycle }).advance c (.yield g)

/-! ## System registers (R120 to R123, R11 to R14, R52, R198, R344) -/

/-- `TRDY`: tags allocated to a launch whose command has completed (R198). -/
def Core.trdy (K : Core) (l : Nat) : W64 :=
  w64 ((K.tags.map fun e => if e.2.owner == some l && e.2.done then 2 ^ e.1 else 0).sum)

/-- `GSTAT` as a path reads it (R122). -/
def Cur.gstat (c : Cur) : W64 :=
  let two := c.grp.arms.length == 2
  let spl := (c.path.ents.filter fun e => e.2.spill.isSome).length
  w64 ((if two then c.arm % 2 else 0) + (if two then 2 else 0) + (if c.grp.inTrap.isSome then 4 else 0) + min spl 255 * 2 ^ 8
    + (c.path.ents.length - spl) * 2 ^ 16 + c.grp.residUsed * 2 ^ 21)

/-- `QUOTA` as a path reads it (R52). -/
def Cur.quotaReg (c : Cur) : W64 :=
  let l := lowLane (c.grp.liveOf c.path)
  w64 (c.grp.quota + c.grp.D l * 2 ^ 16 + c.grp.F l * 2 ^ 32)

def State.sysReg (s : State) (c : Cur) (r : SysReg) : W64 :=
  let G := c.grp
  let L := s.recOf G.launch
  let dom := s.domOf G.launch
  let b := (s.block? G.block)
  match r with
  | .gctl => G.gctl
  | .gstat => c.gstat
  | .exm => G.exm.zeroExtend 64
  | .trdy => (s.core c.core).trdy G.launch
  | .late => w64 G.late
  | .vtime => w64 ((s.ctx dom).vtime / 7)
  | .stolen => w64 ((s.ctx dom).stolen / 7)
  | .cycles => w64 ((s.ctx dom).cycles / 1000)
  | .tvec => G.tvec
  | .tcause => G.tcause
  | .tpc => G.tpc
  | .taddr => G.taddr
  | .quota => c.quotaReg
  | .launchid => w64 (G.launch % 2 ^ 48 + dom * 2 ^ 48)
  | .blockidx => w64 ((b.map fun b => b.x % 2 ^ 32 + b.y * 2 ^ 32 + b.z * 2 ^ 48).getD 0)
  | .groupidx =>
    w64 (G.grp + ((b.map Block.gblk).getD 0) * 2 ^ 6 + (L.ngrp - 1) * 2 ^ 8 + (L.ngang - 1) * 2 ^ 14 + slotQtr c.g * 2 ^ 16)
  | .coreid => w64 c.core
  | .quadid => w64 (coreQuad c.core)
  | .cls => w64 (L.pclass + if L.sys then 4 else 0)

/-- `MFS` never defers. -/
def execMfs (g : Guard) (d : BitVec 5) (r : SysReg) (s : State) : Result :=
  s.onPath fun c => s.issuePath c (.mfs g d r) g [] fun G _ _ => G.kw d (s.sysReg c r)

/-- A writable system register takes a value; reserved bits are ignored (R4, R120). -/
def Group.setSys (G : Group) (m : Lanes) (r : SysReg) (x : W64) : Group :=
  match r with
  | .gctl => { G with gctl := x &&& gctlMask }
  | .exm => G.setMask m x
  | .late => { G with late := (lo32 x).toNat }
  | .tvec => { G with tvec := x &&& ~~~ 3#64 }
  | .tcause => { G with tcause := x &&& 0xFFFF#64 }
  | .tpc => { G with tpc := x &&& ~~~ 3#64 }
  | .taddr => { G with taddr := x }
  | _ => G

/-- `MTS` drains; to `EXM` it acts, as `SETX` does, on the lanes its guard selects (R80, R108). -/
def execMts (g : Guard) (r : SysReg) (a : Src) (s : State) : Result :=
  s.onPath fun c =>
    let i : Instr := .mts g r a
    if r = .exm then
      if c.maskWaits g || !c.drained then s.park c
      else
        match s.cwFor c (c.maskLanes g) [.op .k64 a none] with
        | (s, .wait) => s.park c
        | (s, .fail x ad) => s.trapGot c x ad
        | (s, .ok b) =>
          (s.modGroup c.g fun G => G.setSys (c.maskLanes g) .exm (G.kopnd (w64 (ofBytes b)) .k64 a)).advance c i
    else
      s.once c i g true [(.k64, a)] fun s cw =>
        (s.modGroup c.g fun G => G.setSys 0 r (G.kopnd cw .k64 a)).advance c i

/-- `MODE` changes the bits of `GCTL` that its mask selects, `DEFM` excepted (R128). -/
def execMode (g : Guard) (a b : Src) (s : State) : Result :=
  s.onPath fun c =>
    s.once c (.mode g a b) g false [(.k64, a), (.k64, b)] fun s cw =>
      let x := c.grp.kopnd cw .k64 a
      let m := c.grp.kopnd cw .k64 b
      if m.getLsbD 0 then s.illegal c
      else
        (s.modGroup c.g fun G => { G with gctl := ((G.gctl &&& ~~~ m) ||| (x &&& m)) &&& gctlMask }).advance c (.mode g a b)

/-! ## Quota (R50, R51) -/

/-- The live group of the current block with a number, if it stands in the issuing group's quarter and is another one. -/
def State.recipient (s : State) (c : Cur) (n : Nat) : Option Nat :=
  ((s.block? c.grp.block).map Block.live).getD [] |>.find? fun x =>
    (s.grpOf x).grp == n && x != c.g && slotQtr x == slotQtr c.g

/-- `QXFER` gives 8n registers per lane to another group of the block, or is refused with 0. -/
def execQxfer (g : Guard) (d : BitVec 5) (a : Src) (n : BitVec 4) (s : State) : Result :=
  s.onPath fun c =>
    let i : Instr := .qxfer g d a n
    s.once c i g false [(.k64, a)] fun s cw =>
      let amt := 8 * n.toNat
      let refuse : State := (s.modGroup c.g fun G => G.kw d 0).advance c i
      match s.recipient c ((c.grp.kopnd cw .k64 a).toNat % 64) with
      | none => refuse
      | some r =>
        if 128 < (s.grpOf r).quota + amt || c.grp.quota < 32 + amt then refuse
        else
          let q := c.grp.quota - amt
          let units := (~~~ c.grp.exited).list.flatMap fun l => c.grp.overUnits q l
          if units.any fun u => c.grp.unitPend u.1 u.2 then s.park c
          else
            match s.spillUnits c.g c.arm units with
            | (s, .wait) => (s.modGroup c.g fun _ => c.grp).park c
            | (s, .fail x ad) => (s.modGroup c.g fun _ => c.grp).spillTrap c x ad
            | (s, .ok _) =>
              let s := s.modGroup c.g fun G => ({ G with quota := q }).kw d (w64 q)
              (s.modGroup r fun G => { G with quota := G.quota + amt }).advance c i

/-! ## Traps and return (R124 to R128) -/

/-- A trap whose `TPC` is the next instruction. -/
def State.trapNext (s : State) (c : Cur) (i : Instr) (cause detail : Byte) (taddr : Option W64) : State :=
  s.raise c.g c.arm
    { cause := cause, detail := detail, tpc := c.nextPc i, taddr := taddr, resume := c.nextPc i, entry := none }

/-- `TRAP` (R128): drains, then raises the software trap. -/
def execTrap (g : Guard) (n : BitVec 6) (s : State) : Result :=
  s.onPath fun c => s.once c (.trap g n) g true [] fun s _ => s.trapNext c (.trap g n) 0x0E (n.zeroExtend 8) none

/-- `BRK` traps if `GCTL.BRKE` is 1, else has no effect. -/
def execBrk (g : Guard) (n : BitVec 6) (s : State) : Result :=
  s.onPath fun c => s.once c (.brk g n) g false [] fun s _ =>
    if c.grp.brke then s.trapNext c (.brk g n) 0x0D (n.zeroExtend 8) none else s.advance c (.brk g n)

/-- `RFT` (R126): restores trap state from the frame and resumes the path. -/
def execRft (g : Guard) (s : State) : Result :=
  s.onPath fun c => s.once c (.rft g) g false [] fun s _ =>
    match c.grp.inTrap with
    | none => s.illegal c
    | some t => s.trapReturn c t

/-! ## Snapshots (R354) -/

/-- The record of one group: the PC of each path, `EXM`, `GSTAT`, `LATE`, `CYCLES` and the sequence number, in a layout that is open
(DESIGN CHOICE, assumption 2). -/
def State.snapGroup (s : State) (seq g : Nat) : State :=
  let G := s.grpOf g
  let base := bits (s.domRec (s.domOf G.launch)) 640 64
  let gstat := ((s.path? g 0).map fun c => c.gstat.toNat).getD 0
  let holds := [G.exm.toNat, gstat, G.late, (s.ctx (s.domOf G.launch)).cycles / 1000, seq] ++ G.arms.map fun p => p.pc.toNat
  ((s.devWrite ((base + 64 * (seq * 65536 + s.groupNo G) % 2 ^ 24) % 2 ^ 64) ((List.range 64).map (Config.snapBytes holds))))

/-- `SNAP` (R128): fires the launch's snapshot trigger. -/
def execSnap (g : Guard) (d : BitVec 5) (s : State) : Result :=
  s.onPath fun c => s.once c (.snap g d) g false [] fun s _ =>
    let seq := ((s.launch? c.grp.launch).map Launch.snap).getD 0 + 1
    let s := s.modLaunch c.grp.launch fun L => { L with snap := seq }
    let gs := (s.blocks.filter fun e => e.2.launch == c.grp.launch).flatMap fun e => e.2.groups
    let s := gs.foldl (fun s x => s.snapGroup seq x) s
    (s.modGroup c.g fun G => G.kw d (w64 seq)).advance c (.snap g d)

/-! ## `XCH` (R111) -/

/-- How a partner stands to a path. -/
inductive Partner where
  | illegal
  | ended
  | unplaced
  | group (g : Nat)
deriving DecidableEq, Repr

/-- The partner a launch-wide group number names (R111, R35). -/
def State.partner (s : State) (c : Cur) (n : Nat) : Partner :=
  let L := s.recOf c.grp.launch
  let lin := n / L.ngrp
  if L.blocks ≤ lin || n == s.groupNo c.grp || L.cls == 2 then .illegal
  else
    match s.blockOf c.grp.launch lin with
    | some b =>
      if coreQuad b.core = coreQuad c.core then .illegal
      else
        (match b.live.find? fun x => (s.grpOf x).grp == n % L.ngrp with
         | some x => .group x
         | none => .ended)
    | none => if s.wasPlaced c.grp.launch lin then .ended else if L.cls = 0 then .unplaced else .illegal

/-- Complete one side of an exchange: the lanes of `both` take the partner's values, and nothing stays pending; `lat` is unchanged
(R111, R54). -/
def Group.exchange (G : Group) (id : Nat) (both : Lanes) (t : Ty) (d : Dst) (r : Nat → W64) : Group :=
  let G := (List.range 16).foldl (fun G l => G.forsake id l) G
  let G := G.lanePut both t d r
  { G with xch := G.xch.filter fun x => x.id != id }

/-- `XCH` (R111): drains, then waits to swap a register with a partner group through the trapeze (DESIGN CHOICE, assumption 92). -/
def execXch (g : Guard) (t : Ty) (d : Dst) (a : Src) (b : BitVec 5) (s : State) : Result :=
  s.onPath fun c =>
    let i : Instr := .xch g t d a b
    let kb := (c.grp.kr b).toNat
    let n := bits kb 0 38
    match c.path.prog with
    | .stage _ => s.advance c i
    | .acc _ =>
      (match s.partner c n with
       | .illegal | .ended =>
         let s := s.withdraw c.g c.arm
         s.trapAt c 2 none
       | _ => s.wait c)
    | _ =>
      s.once c i g true [] fun s _ =>
        let act := c.act g
        let src : LSrc := .op (.ty t) a none
        if bits kb 54 10 != 0 then s.illegal c
        else if c.srcsWait 0 act [src] then s.park c
        else
          let bad := c.poisons 0 act [src]
          if !bad.isEmpty then s.consume c.g bad [] c.path.pc
          else
            let vals := act.list.foldl (fun m l => set 0 m l (c.vals 0 [src] 0 l)) []
            let tag := BitVec.ofNat 16 (bits kb 38 16)
            let queue : State :=
              let rec_ : XchRec := { id := s.ids, arm := c.arm, partner := n, tag := tag, ty := t, dst := d, active := act, vals := vals }
              let s := s.modGroup c.g fun G =>
                ({ G with xch := G.xch ++ [rec_] }).lanePend s.ids (G.liveOf c.path) act (.reg t d) false
              ((s.modPath c.g c.arm fun p => { p with prog := .acc s.ids }).wait c).next
            match s.partner c n with
            | .illegal | .ended => s.trapAt c 2 none
            | .unplaced => queue
            | .group x =>
              match (s.grpOf x).xch.find? fun r => r.partner == s.groupNo c.grp && r.tag == tag with
              | none => queue
              | some r =>
                let both := act &&& r.active
                let s := s.modGroup x fun G => G.exchange r.id both r.ty r.dst fun l => get 0 vals l
                let s := s.modPath x r.arm fun p => { p with prog := .stage r.id, st := .ready }
                (s.modGroup c.g fun G =>
                  G.lanePut both t d fun l => get 0 r.vals l).advance c i

end Sys2Proof.Machine
end

