-- ==== Sys2Proof/Machine/Mem.lean ====
section
/-!
DEFINITION. What the memory instructions share (R242 to R261): addresses, the checks at the core, local memory, constant windows,
issue, deferral, the running of a deferred access, and the traps of failed accesses.
-/

namespace Sys2Proof.Machine

/-! ## Memory operations -/

/-- A constant window. -/
def Space.isWin : Space → Bool
  | .win _ => true
  | _ => false

/-- A memory instruction (R243). `uniform` is `LDU`: one access for the path. -/
structure MemOp where
  guard : Guard
  ty : Ty
  kind : AccKind
  req : ReqKind
  acc : Nat
  space : Space
  ord : Ord
  scope : Scope
  slk : BitVec 4
  base : BitVec 5
  off : Src
  disp : W32
  data : List Src
  dst : Option Dst
  cmp : Cmp
  uniform : Bool
deriving DecidableEq, Repr

/-- Forms that drain (R66). -/
def MemOp.drains (op : MemOp) : Bool :=
  op.ord != .none || op.kind == .atom || op.kind == .red || op.kind == .poll

def MemOp.stores (op : MemOp) : Bool := op.req.isStore

def MemOp.isPref (op : MemOp) : Bool := match op.req with | .pref _ => true | _ => false

/-- Sources A to D: base, offset, data (R86). -/
def MemOp.srcs (op : MemOp) : List LSrc :=
  .op .k64 (.k op.base) none :: .op .one op.off none :: op.data.map fun c => .op (.ty op.ty) c none

def MemOp.ldst (op : MemOp) : Option LDst := op.dst.map fun d => .reg op.ty d

/-- The address of a lane (R86). -/
def MemOp.addr (op : MemOp) (k b : W64) : Nat :=
  (k + BitVec.ofInt 64 (sx 32 b.toNat * op.ty.size) + op.disp.signExtend 64).toNat

/-- The word of a window a lane reads (R250). -/
def MemOp.word (op : MemOp) (b : W64) : Int := sx 32 b.toNat * (op.ty.size / 4 : Nat) + sx 32 op.disp.toNat

/-- The lanes that make an access: one for `LDU`. -/
def MemOp.lanes (op : MemOp) (act : Lanes) : List Nat := if op.uniform then act.list.take 1 else act.list

/-- What each lane asks, from its values of the sources. -/
def MemOp.reqs (op : MemOp) (act : Lanes) (v : Nat → Nat → W64) : List LaneReq :=
  (op.lanes act).map fun l => { lane := l, addr := op.addr (v 0 l) (v 1 l), c := v 2 l, d := v 3 l }

/-- What the core sends for it, for some active lanes. -/
def MemOp.toReq (op : MemOp) (act : Lanes) : Req :=
  { kind := op.kind, space := op.space, req := op.req, acc := op.acc, ty := op.ty, scope := op.scope, acq := op.ord.isAcq, rel := op.ord.isRel
    slk := op.slk, cmp := op.cmp, dst := op.dst, all := if op.uniform then act else 0 }

/-! ## Local memory (R247) -/

/-- The core and byte a local address names, for an access of `n` bytes. -/
def State.localAt (s : State) (block : Nat) (a n : Nat) : Option (Nat × Nat) :=
  match s.block? block with
  | none => none
  | some b =>
    let r := s.recOf b.launch
    if 2 ^ 32 ≤ a then none
    else if a < 2 ^ 31 then (if a + n ≤ r.lmem then some (b.core, b.lbase + a) else none)
    else if bits a 20 11 != 0 || r.ngang ≤ bits a 18 2 || r.lmem < bits a 0 18 + n then none
    else
      match ((s.gang? b.gang).bind fun k => k.blocks[bits a 18 2]?).bind fun x => s.block? x with
      | some b' => some (b'.core, b'.lbase + bits a 0 18)
      | none => none

/-- Bytes of a core's local memory; a byte never written reads 0 (DESIGN CHOICE, assumption 3). -/
def State.lmRead (s : State) (core a n : Nat) : List Byte := getRange 0 (s.core core).lmem a n

def State.lmWrite (s : State) (core a : Nat) (b : List Byte) : State := s.modCore core fun K => K.store a b

/-- Bytes of a core's local memory as they stood before the deliveries that no acquire has followed. -/
def State.lmStale (s : State) (core a n : Nat) : List Byte :=
  (List.range n).map fun i =>
    match (s.core core).stale.find? fun r => r.1 ≤ a + i && a + i < r.1 + r.2.length with
    | some r => r.2.getD (a + i - r.1) 0
    | none => get 0 (s.core core).lmem (a + i)

/-- What a load of a lane sees of a core's local memory: where bytes have been delivered since the core's last acquire, those or what
stood there before, and once they have been seen they stay (R269, R298) (DESIGN CHOICE, assumption 84). -/
def State.lmSee (s : State) (core a n : Nat) : State × List Byte :=
  if !(s.core core).stale.any (staleMeets a n) then (s, s.lmRead core a n)
  else if s.pick 2 = 1 then (s.next, s.lmStale core a n)
  else ((s.fresh core).next, s.lmRead core a n)

/-- Whether an atomic under way meets `n` bytes of a core's local memory. -/
def QAtom.meets (x : QAtom) (core a n : Nat) : Bool :=
  x.core == core && x.addr < a + n && a < x.addr + x.bytes.length

/-- Bytes of a local memory as the atomics of `.gang` scope see them: with those under way performed (R257). -/
def State.gangRead (s : State) (core a n : Nat) : List Byte :=
  getRange 0 ((((s.quad (coreQuad core)).qau.filter fun x => x.meets core a n)).foldl
    (fun t x => setRange 0 t x.addr x.bytes) (s.core core).lmem) a n

/-- What an atomic of `.grp` or `.blk` scope finds of other groups' atomics of `.gang` scope on its bytes, with which it is not indivisible:
they stand already, or will overwrite what it writes, or are overwritten by it (R257) (DESIGN CHOICE, assumption 70). -/
def State.mixAtoms (s : State) (core g a n : Nat) : State :=
  let q := coreQuad core
  let s := s.landAtoms q fun x => x.grp == g && x.meets core a n
  let other (x : QAtom) : Bool := x.meets core a n
  if !(s.quad q).qau.any other then s
  else
    match s.pick 3 with
    | 0 => (s.landAtoms q other).next
    | 1 => s.next
    | _ => s.next.modQuad q fun Q => { Q with qau := Q.qau.filter fun x => !other x }

/-- One lane of a local access at a byte of a core's local memory, of group `g`'s access `id`; the word read (R245, R255, R257). -/
def State.localAcc (s : State) (g id : Nat) (kind : ReqKind) (t : Ty) (sc : Scope) (core a : Nat) (c d : W64) : State × W64 :=
  let n := t.size
  let Q := coreQuad core
  match kind with
  | .atom o =>
    if 3 ≤ sc.rank then
      let old := w64 (ofBytes (s.gangRead core a n))
      (s.modQuad Q fun K => { K with
        qau := K.qau ++ [{ grp := g, acc := id, core := core, addr := a, bytes := toBytes n (atomNew o t old c d).toNat }] }, old)
    else
      let s := s.mixAtoms core g a n
      let old := w64 (ofBytes (s.lmRead core a n))
      (s.lmWrite core a (toBytes n (atomNew o t old c d).toNat), old)
  | r =>
    let s := s.landAtoms Q fun x => x.meets core a n
    (match r with
     | .store => (s.lmWrite core a (toBytes n c.toNat), w64 (ofBytes (s.lmRead core a n)))
     | _ =>
       match s.lmSee core a n with
       | (s, b) => (s, w64 (ofBytes b)))

/-- The same for a lane's local address. -/
def State.localLane (s : State) (g id block : Nat) (op : MemOp) (q : LaneReq) : State × W64 :=
  match s.localAt block q.addr op.ty.size with
  | none => (s, 0)
  | some (core, a) => s.localAcc g id op.req op.ty op.scope core a q.c q.d

/-- The lanes of a local access, in ascending order. -/
def State.localLanes (s : State) (g id block : Nat) (op : MemOp) : List LaneReq → State × Tab W64
  | [] => (s, [])
  | q :: r =>
    match s.localLane g id block op q with
    | (s, x) =>
      match State.localLanes s g id block op r with
      | (s, t) => (s, put t q.lane x)

/-- The lanes of a local access that has waited at its core, in ascending order. -/
def State.nearLanes (s : State) (g id : Nat) (p : Packet) : List LaneReq → State × List (Nat × W64)
  | [] => (s, [])
  | q :: r =>
    match s.localAcc g id p.kind p.ty p.scope ((q.addr - 2 ^ 64) / 2 ^ 18) (q.addr % 2 ^ 18) q.c q.d with
    | (s, x) =>
      match State.nearLanes s g id p r with
      | (s, t) => (s, (q.lane, x) :: t)

/-! ## Constant windows (R249, R250) -/

/-- Read the words of the lanes of an `LDC`; the failing address of a fill that failed. -/
def State.winLanes (s : State) (key : List Nat) (core launch : Nat) (w : Nat) (wide : Bool) :
    List (Nat × Int) → State × Got × Tab W64
  | [] => (s, .ok [], [])
  | (l, o) :: r =>
    match (if o < 0 then (s, Got.ok (List.replicate 8 0)) else s.cwRead key core launch w o.toNat wide) with
    | (s, .ok b) =>
      (match State.winLanes s key core launch w wide r with
       | (s, g, t) => (s, g, put t l (w64 (ofBytes b))))
    | (s, g) => (s, g, [])

/-- Lanes whose words of a window are poisoned in the constant cache (R268). -/
def State.winBad (s : State) (core launch w : Nat) (wide : Bool) (ws : List (Nat × Int)) : Lanes :=
  let bad (o : Nat) : Bool :=
    match (s.recOf launch).cwAddr w o with
    | some a => get false (s.core core).cbad (constKey launch a / 4)
    | none => false
  lanesOf ((ws.filter fun q => 0 ≤ q.2 && (bad q.2.toNat || (wide && bad (q.2.toNat + 1)))).map Prod.fst)

/-! ## Checks at the core (R242, R244, R124) -/

/-- Whether an atomic on a gang-shared address is performed nowhere (R256). -/
def MemOp.nowhere (op : MemOp) (a : Nat) : Bool :=
  op.space == .loc && (op.kind == .atom || op.kind == .red) && op.scope.rank < 3 && a < 2 ^ 32 && a.testBit 31

/-- The first check that fails, over all lanes: cause and address. -/
def State.memCheck (s : State) (core launch block : Nat) (op : MemOp) (rs : List LaneReq) (ws : List (Nat × Int)) :
    Option (Byte × Option Nat) :=
  let n := op.ty.size
  match op.space with
  | .win w =>
    if !op.ty.is64 then none
    else
      match (s.recOf launch).cwin.getD w.toNat none with
      | none => none
      | some (off, _) =>
        (ws.find? fun q => q.2 % 2 != 0).map fun q =>
          (6, some ((((s.recOf launch).winBase off : Nat) + 4 * q.2) % 2 ^ 64).toNat)
  | sp =>
    if rs.any fun q => op.nowhere q.addr then some (1, none)
    else
      match rs.find? fun q => q.addr % n != 0 with
      | some q => some (6, some q.addr)
      | none =>
        let bad (q : LaneReq) : Bool :=
          if sp = .loc then (s.localAt block q.addr n).isNone else (s.coreCheck core launch op.acc q.addr).isNone
        (rs.find? bad).map fun q => (4, some q.addr)

/-! ## Order within a group (R63, R64, R278) -/

/-- Values of a residual entry's base and offset, where they have landed for a lane. -/
def Resid.addrAt (e : Resid) (op : MemOp) (l : Nat) : Option Nat :=
  match e.caps[0]?, e.caps[1]? with
  | some a, some b =>
    if b.await.any fun q => q.1 == l then none else some (op.addr (get 0 a.vals l) (get 0 b.vals l))
  | _, _ => none

/-- Where the bytes of an address stand, so that both forms of a local address meet (R247): a core and a byte of its local memory, the
address itself where it names none. -/
def State.standsAt (s : State) (block : Nat) (op : MemOp) (a : Nat) : Nat :=
  if op.space == .loc then
    (match s.localAt block a op.ty.size with
     | some (core, x) => nearAt core x
     | none => 2 ^ 80 + a)
  else a

/-- Whether an access whose lanes' bytes stand at `own` comes behind a deferred one of its space: the other's address is pending, or meets
its own in some lane of both (R63, R64). An address of its own that is pending meets everything. -/
def State.before (s : State) (block : Nat) (e : Resid) (op : MemOp) (n : Nat) (own : Nat → Option Nat) (m : Lanes) : Bool :=
  (e.mask &&& m).list.any fun l =>
    match e.addrAt op l, own l with
    | some a, some b => rangesMeet (s.standsAt block op a) op.ty.size b n
    | _, _ => true

/-- Loads of the lanes whose value has not come yet. -/
def Group.loadsDue (G : Group) (m : Lanes) (before : Nat) : Bool :=
  G.accs.any fun a => a.id < before && a.kind != .store && a.kind != .red && a.lanes &&& m != 0 && a.waits != 0

/-- An acquire of the lanes whose value has not come yet: what is younger than it waits (R253, R274). -/
def Group.acqDue (G : Group) (m : Lanes) (before : Nat) : Bool :=
  G.accs.any fun a => a.id < before && a.acq && a.lanes &&& m != 0 && a.waits != 0

/-- The address of a lane of a request. -/
def Packet.addrOf (p : Packet) (l : Nat) : Option Nat :=
  if p.all = 0 then (p.lanes.find? fun q => q.lane == l).map LaneReq.addr else (p.lanes.head?).map LaneReq.addr

/-- An older deferred access of its lanes holds a request of a group: any holds a write (R63, R278), one of the same memory to bytes that
may meet its own holds a read (R63, R245). -/
def State.heldDeferred (memOpOf : Instr → Option MemOp) (s : State) (p : Packet) : Bool :=
  match p.own with
  | .access g id =>
    let G := s.grpOf g
    if p.writes then G.deferredBefore id p.mask
    else G.resid.any fun e => e.id < id && e.mask &&& p.mask != 0 && (memOpOf e.instr).any fun op =>
      !op.isPref && (op.space == .loc) == (p.phase == .near) && !op.space.isWin && s.before G.block e op p.size p.addrOf p.mask
  | _ => false

/-- A local access must wait at its core (R63, R245, R253, R278). -/
def State.nearHeld (memOpOf : Instr → Option MemOp) (s : State) (p : Packet) : Bool := s.behindOlder p || s.heldDeferred memOpOf p

/-! ## Issue -/

/-- Window bases of the lanes, as a destination stands for them. -/
def Group.bases (G : Group) (m : Lanes) : Tab Nat := m.list.foldl (fun t l => set 0 t l (G.D l)) []

/-- The reply of an `LDC` is late where its slack is 0, and may be where it is finite, as it may have waited for a fill (R309)
(DESIGN CHOICE, assumption 54). -/
def State.winLate (s : State) (launch slk : Nat) : Bool :=
  let f := s.slackField launch slk
  f == 0 || (f != 0xFFF && s.pick 2 == 1)

/-- An access whose values are there already and land at a later step (DESIGN CHOICE, assumption 64). -/
def State.landLater (s : State) (g arm : Nat) (pc : W64) (id : Nat) (op : MemOp) (act : Lanes) (vals : Tab W64) (wb : Tab Nat)
    (ws : List (Nat × Int)) : State :=
  let a : Access := { accessOf id arm pc (op.toReq act) act [] wb none with
    waits := if op.uniform then Lanes.one (lowLane act) else act, vals := vals }
  let launch := (s.grpOf g).launch
  let (bad, lanes) : Lanes × List LaneReq := match op.space with
    | .win w =>
      (s.winBad (slotCore g) launch w.toNat op.ty.is64 ws,
       ws.map fun q => { lane := q.1, addr := ((s.recOf launch).cwAddr w.toNat q.2.toNat).getD 0, c := 0, d := 0 })
    | _ => (0, [])
  ((s.modGroup g fun G => { G with accs := G.accs ++ [a] })).sendPackets
    [{ landedPacket (.access g id) (slotCore g) op.ty lanes (a.waits.list.map fun l => (l, get 0 vals l)) bad s.now with
       late := op.space.isWin && s.winLate launch op.slk.toNat }]

/-- Perform a local or window access of group `g`, its access `id`: the values it reads (DESIGN CHOICE, assumption 64). -/
def State.nearby (s : State) (key : List Nat) (g id : Nat) (op : MemOp) (rs : List LaneReq) (ws : List (Nat × Int)) :
    State × Got × Tab W64 :=
  let G := s.grpOf g
  match op.space with
  | .win w => s.winLanes key (slotCore g) G.launch w.toNat op.ty.is64 ws
  | _ =>
    match s.localLanes g id G.block op rs with
    | (s, t) => (s, .ok [], t)

/-- Whether a local or window access leaves a record until its value, or its write, is there. -/
def MemOp.lands (op : MemOp) : Bool := op.ldst.isSome || op.kind == .red

/-- Whether a `POLL` may wait (R35): `.quad` to `.dev` needs a launch whose blocks all make progress. -/
def State.pollLegal (s : State) (launch : Nat) (sc : Scope) : Bool :=
  if 4 ≤ sc.rank && sc.rank ≤ 7 then
    (match (s.recOf launch).cls with
     | 0 => true
     | 1 => s.allPlaced launch
     | _ => false)
  else true

/-- What an instruction of these sources asks for: lane requests, and words of a window. -/
def MemOp.ask (op : MemOp) (act : Lanes) (v : Nat → Nat → W64) : List LaneReq × List (Nat × Int) :=
  (op.reqs act v, (op.lanes act).map fun l => (l, op.word (v 1 l)))

/-- Send a global access: its record, its pending destination, its packets. -/
def State.sendGlobal (s : State) (c : Cur) (op : MemOp) (act : Lanes) (rs : List LaneReq) : State :=
  let a := accessOf s.ids c.arm c.path.pc (op.toReq act) act rs (c.grp.bases act) none
  let s' := (s.modGroup c.g fun G =>
    let G : Group := { G with accs := G.accs ++ [a] }
    match op.ldst with
    | some d => G.lanePend s.ids (G.liveOf c.path) act d false
    | none => G).next
  s'.inject c.core c.grp.launch (.access c.g a.id) (op.toReq act) rs

/-- Perform a local access, or a window read, and go on (DESIGN CHOICE, assumption 64). -/
def State.doNearby (s : State) (c : Cur) (i : Instr) (op : MemOp) (act : Lanes) (rs : List LaneReq) (ws : List (Nat × Int)) :
    State :=
  let id := s.ids
  match s.next.nearby [2, c.g, c.arm] c.g id op rs ws with
  | (s, .wait, _) => s.park c
  | (s, .fail x a, _) => s.trapGot c x a
  | (s, .ok _, vals) =>
    let s := if op.ord.isAcq then s.invalidate c.core op.scope else s
    if !op.lands then s.advance c i
    else
      let s := match op.ldst with
        | some d => s.modGroup c.g fun G => G.lanePend id (G.liveOf c.path) act d false
        | none => s
      (s.landLater c.g c.arm c.path.pc id op act vals (c.grp.bases act) ws).advance c i

/-- The request of a local access that waits at its core. -/
def State.nearOf (s : State) (g id block : Nat) (op : MemOp) (act : Lanes) (rs : List LaneReq) : Packet :=
  nearPacket (.access g id) (slotCore g) (op.toReq act)
    (rs.map fun q => { q with addr := ((s.localAt block q.addr op.ty.size).map fun x => nearAt x.1 x.2).getD 0 }) s.now (s.acqMark (slotCore g))

/-- A local access issues that must wait for older ones: its record, its pending destination, and its request (R61, R63)
(DESIGN CHOICE, assumption 64). -/
def State.sendNear (s : State) (c : Cur) (op : MemOp) (act : Lanes) (rs : List LaneReq) : State :=
  let id := s.ids
  let a := accessOf id c.arm c.path.pc (op.toReq act) act rs (c.grp.bases act) none
  ((s.modGroup c.g fun G =>
    let G : Group := { G with accs := G.accs ++ [a] }
    match op.ldst with
    | some d => G.lanePend id (G.liveOf c.path) act d false
    | none => G).next).sendPackets [s.nearOf c.g id c.grp.block op act rs]

/-- A prefetch sends the lanes that pass every check at the core; it leaves no record (R262). -/
def State.prefetch (s : State) (g : Nat) (op : MemOp) (rs : List LaneReq) : State :=
  let G := s.grpOf g
  s.inject (slotCore g) G.launch .none (op.toReq 0)
    (rs.filter fun q => q.addr % op.ty.size == 0 && (s.coreCheck (slotCore g) G.launch op.acc q.addr).isSome)

/-- An access whose sources are all there issues: the checks of every lane come first (R242). A global one waits for room in the core's
injection queue (R306), a window's for older acquires of its lanes (R253, R274); a local one that must follow older accesses of its lanes
issues and waits at its core. A wait that is illegal traps before the lanes' addresses are looked at (R36)
(DESIGN CHOICE, assumption 71). -/
def State.doMem (memOpOf : Instr → Option MemOp) (s : State) (c : Cur) (i : Instr) (op : MemOp) (act : Lanes) : State :=
  let v := c.vals 0 op.srcs
  let (rs, ws) := op.ask act v
  if op.isPref then (if s.hasRoom c.core rs then (s.prefetch c.g op rs).advance c i else s.park c)
  else if op.kind = .poll && !s.pollLegal c.grp.launch op.scope then s.trapAt c 2 none
  else
    match s.memCheck c.core c.grp.launch c.grp.block op rs ws with
    | some (cause, a) => s.trapAt c cause (a.map w64)
    | none =>
      match op.space with
      | .glob =>
        if !s.hasRoom c.core rs then s.park c
        else
          let s' := s.sendGlobal c op act rs
          if op.kind = .poll then (s'.modPath c.g c.arm fun p => { p with prog := .acc s.ids }).wait c
          else s'.advance c i
      | .loc =>
        let go (s : State) : State :=
          if s.nearHeld memOpOf (s.nearOf c.g s.ids c.grp.block op act rs) then (s.sendNear c op act rs).advance c i
          else s.doNearby c i op act rs ws
        if op.ord.isRel then s.afterRelease c op.scope go else go s
      | .win _ => if c.grp.acqDue act s.ids then s.park c else s.doNearby c i op act rs ws

/-- The deferred memory entries of a group (R63): entry and operation. -/
def Group.memEntries (memOpOf : Instr → Option MemOp) (G : Group) : List (Resid × MemOp) :=
  (G.resid ++ G.issued).filterMap fun e => (memOpOf e.instr).map fun o => (e, o)

/-- The older entries an access must follow: for a load the deferred stores of R64. -/
def State.mustFollow (s : State) (c : Cur) (memOpOf : Instr → Option MemOp) (op : MemOp) (m : Lanes) : List Nat :=
  let v := c.vals 0 op.srcs
  let waits (l : Nat) : Bool := (c.grp.srcLocs l .one op.off).any fun x => c.grp.isPend l x.2
  let own (l : Nat) : Option Nat := if waits l then none else some (s.standsAt c.grp.block op (op.addr (v 0 l) (v 1 l)))
  let own' : Nat → Option Nat := if op.uniform then fun _ => own (lowLane m) else own
  ((c.grp.memEntries memOpOf).filter fun e =>
    e.1.mask &&& m != 0 && !op.stores && !op.isPref && e.2.stores && e.2.space == op.space
      && s.before c.grp.block e.1 e.2 op.ty.size own' m).map fun e => e.1.id

/-- A memory instruction issues, parks, or is deferred (R242, R61, R64, R66). -/
def State.issueMem (memOpOf : Instr → Option MemOp) (s : State) (c : Cur) (i : Instr) (op : MemOp) : State :=
  let gp := c.guardWaits op.guard
  let act := c.act op.guard
  if op.drains && !c.drained then s.park c
  else
    let after := s.mustFollow c memOpOf op (act ||| gp)
    if gp != 0 || c.srcsWait 0 act op.srcs || !after.isEmpty then
      if op.drains || !c.grp.defm then s.park c
      else s.defer c i op.guard op.srcs op.ldst false 0 act gp after
    else if act = 0 then s.advance c i
    else
      let bad := c.poisons 0 act op.srcs
      if bad.isEmpty then s.doMem memOpOf c i op act else s.consume c.g bad [] c.path.pc

/-! ## Running a deferred access (R62, R68) -/

/-- An entry has failed: its trap is raised unless an older one's is, which it replaces if it is the older (R68). -/
def State.faultEntry (s : State) (g : Nat) (e : Resid) (cause : Byte) (addr : Nat) : State :=
  let G := s.grpOf g
  let p := G.armOf e.arm
  let yields := match p.trap with
    | none => true
    | some t => (match t.entry with
      | some id => e.id < id
      | none => !G.trapReady e.arm t)
  if !yields then s
  else
    let G' : Group := { G with resid := G.resid.map fun x => { x with failed := x.id == e.id } }
    (s.modGroup g fun _ => G').modPath g e.arm fun p =>
      { p with
        trap := some { cause := 0x0B, detail := cause, tpc := e.pc, taddr := some (w64 addr), resume := p.pc, entry := some e.id } }

/-- A satisfied entry of a memory instruction runs. -/
def State.runMem (memOpOf : Instr → Option MemOp) (s : State) (g : Nat) (e : Resid) (op : MemOp) : State :=
  let G := s.grpOf g
  let act := e.active op.guard
  let v := e.vals op.srcs
  let drop (G : Group) : Group := { G with resid := G.resid.filter fun x => x.id != e.id }
  let void (G : Group) : Group := match op.ldst with | some d => G.landOld e (e.mask &&& ~~~ act) d | none => G
  if e.done then
    s.modGroup g fun G =>
      let G := drop G
      void (match op.ldst with
        | some d => act.list.foldl (fun G l => G.laneLand e.id l d e.wb (get 0 e.result l) false) G
        | none => G)
  else if act = 0 then s.modGroup g fun G => void (drop G)
  else if e.badLanes act op.srcs != 0 then s.consume g (e.badWords G act op.srcs) [] e.pc
  else
    let (rs, ws) := op.ask act v
    if (op.isPref || op.space == .glob) && !s.hasRoom (slotCore g) rs then s
    else if op.isPref then (s.modGroup g drop).prefetch g op rs
    else match s.memCheck (slotCore g) G.launch G.block op rs ws with
    | some (cause, a) => s.faultEntry g e cause (a.getD 0)
    | none =>
      match op.space with
      | .glob =>
        let a := accessOf e.id e.arm e.pc (op.toReq act) act rs e.wb (some e)
        let s := s.modGroup g fun G => let G := void (drop G); { G with accs := G.accs ++ [a] }
        s.inject (slotCore g) G.launch (.access g e.id) (op.toReq act) rs
      | _ =>
        if op.space == .loc && s.nearHeld memOpOf (s.nearOf g e.id G.block op act rs) then
          let a := accessOf e.id e.arm e.pc (op.toReq act) act rs e.wb (some e)
          let s := s.modGroup g fun G => let G := void (drop G); { G with accs := G.accs ++ [a] }
          s.sendPackets [s.nearOf g e.id G.block op act rs]
        else match s.nearby [6, g, e.id] g e.id op rs ws with
        | (s, .wait, _) => s
        | (s, .fail x a, _) => s.faultEntry g e x a
        | (s, .ok _, vals) =>
          let s := s.modGroup g fun G => void (drop G)
          if op.lands then s.landLater g e.arm e.pc e.id op act vals e.wb ws else s

/-! ## Accesses that fail (R267, R68) -/

/-- The lowest failing lane's address. -/
def Access.failAddr (a : Access) : Nat := ((a.fails.head?).map fun e => e.2.toNat).getD 0

/-- An access of a path that has failed and been answered for every lane (DEDUCED, assumption 53). -/
def Group.failedOf (G : Group) (arm : Nat) : Option Access :=
  (G.accs.filter fun a => a.waits == 0 && !a.fails.isEmpty && a.arm == arm).head?

/-- Insert an entry by age. -/
def insertResid (e : Resid) : List Resid → List Resid
  | [] => [e]
  | x :: r => if e.id < x.id then e :: x :: r else x :: insertResid e r

/-- The trap of a failed access: a deferred one's entry goes back to the file and fails; another's is raised once no older entry of
the path remains. Its destination keeps its old value (R267) (DEDUCED, assumption 53). -/
def State.failAccess (s : State) (g : Nat) (a : Access) : State :=
  let G := s.grpOf g
  match a.entry with
  | some e =>
    let s := s.modGroup g fun G => { G with accs := G.accs.filter fun x => x.id != a.id, resid := insertResid e G.resid }
    s.faultEntry g e a.cause a.failAddr
  | none =>
    if (G.residOf a.arm).any fun e => e.id < a.id then s
    else
      let s := s.modGroup g fun G =>
        let G := (List.range 16).foldl (fun G l => G.forsake a.id l) G
        { G with accs := G.accs.filter fun x => x.id != a.id }
      s.raise g a.arm
        { cause := a.cause, detail := 0, tpc := a.pc, taddr := some (w64 a.failAddr), resume := a.pc, entry := none }

end Sys2Proof.Machine
end

