-- ==== Sys2Proof/Machine/MemInstr.lean ====
section
/-!
DEFINITION. The memory instructions (R243 to R265) and the operation of every instruction that may be deferred.
-/

namespace Sys2Proof.Machine

/-! ## Operations -/

/-- `LD` as a per-lane operation (R245): sources, destination, result. -/
def ldOp (g : Guard) (t : Ty) (o : Ord) (sc : Scope) (slk : BitVec 4) (d : Dst) (m : Addr) : MemOp :=
  { guard := g, ty := t, kind := .load, req := .load, acc := 1, space := .glob, ord := o, scope := sc, slk := slk, base := m.a
    off := m.b, disp := m.d, data := [], dst := some d, cmp := .eq, uniform := false }

/-- One access, from uniform operands (R246). -/
def lduOp (g : Guard) (t : Ty) (o : Ord) (sc : Scope) (slk : BitVec 4) (d : Dst) (m : Addr) : MemOp :=
  { ldOp g t o sc slk d m with uniform := true }

/-- `ST` as a per-lane operation (R245): sources, destination, result. -/
def stOp (g : Guard) (t : Ty) (o : Ord) (sc : Scope) (slk : BitVec 4) (m : Addr) (c : Src) : MemOp :=
  { guard := g, ty := t, kind := .store, req := .store, acc := 2, space := .glob, ord := o, scope := sc, slk := slk, base := m.a
    off := m.b, disp := m.d, data := [c], dst := none, cmp := .eq, uniform := false }

/-- `LDL` as a per-lane operation (R245): sources, destination, result. -/
def ldlOp (g : Guard) (t : Ty) (o : Ord) (sc : Scope) (slk : BitVec 4) (d : Dst) (m : Addr) : MemOp :=
  { ldOp g t o sc slk d m with space := .loc }

/-- `STL` as a per-lane operation (R245): sources, destination, result. -/
def stlOp (g : Guard) (t : Ty) (o : Ord) (sc : Scope) (slk : BitVec 4) (m : Addr) (c : Src) : MemOp :=
  { stOp g t o sc slk m c with space := .loc }

/-- The base of `LDC` is unused; its offset counts words (R250). -/
def ldcOp (g : Guard) (t : Ty) (slk : BitVec 4) (d : Dst) (w : BitVec 3) (b : Src) (x : BitVec 32) : MemOp :=
  { guard := g, ty := t, kind := .const, req := .load, acc := 1, space := .win w, ord := .none, scope := .lane, slk := slk
    base := 0, off := b, disp := x, data := [], dst := some d, cmp := .eq, uniform := false }

def atomSpace (loc : Bool) : Space := if loc then .loc else .glob

/-- `ATOM` as a per-lane operation (R255): sources, destination, result. -/
def atomOp (g : Guard) (op : AtomOp) (t : Ty) (loc : Bool) (o : Ord) (sc : Scope) (slk : BitVec 4) (d : Dst) (m : Addr)
    (c : Src) (e : Option Src) : MemOp :=
  { guard := g, ty := t, kind := .atom, req := .atom op, acc := 3, space := atomSpace loc, ord := o, scope := sc, slk := slk
    base := m.a, off := m.b, disp := m.d, data := c :: e.toList, dst := some d, cmp := .eq, uniform := false }

/-- `RED` is an `ATOM` with no result (R259). -/
def redOp (g : Guard) (op : AtomOp) (t : Ty) (loc : Bool) (o : Ord) (sc : Scope) (slk : BitVec 4) (m : Addr) (c : Src) : MemOp :=
  { guard := g, ty := t, kind := .red, req := .atom op, acc := 3, space := atomSpace loc, ord := o, scope := sc, slk := slk
    base := m.a, off := m.b, disp := m.d, data := [c], dst := none, cmp := .eq, uniform := false }

/-- `POLL` as a per-lane operation (R260): sources, destination, result. -/
def pollOp (g : Guard) (t : Ty) (cmp : Cmp) (o : Ord) (sc : Scope) (slk : BitVec 4) (d : Dst) (m : Addr) (c : Src) : MemOp :=
  { guard := g, ty := t, kind := .poll, req := .load, acc := 1, space := .glob, ord := o, scope := sc, slk := slk, base := m.a
    off := m.b, disp := m.d, data := [c], dst := some d, cmp := cmp, uniform := false }

/-- A read that writes no register (R262). -/
def prefOp (g : Guard) (t : Ty) (l2 : Bool) (slk : BitVec 4) (m : Addr) : MemOp :=
  { guard := g, ty := t, kind := .load, req := .pref l2, acc := 1, space := .glob, ord := .none, scope := .lane, slk := slk
    base := m.a, off := m.b, disp := m.d, data := [], dst := none, cmp := .eq, uniform := false }

/-- The memory operation of an instruction, if it has one. -/
def memOpOf : Instr → Option MemOp
  | .ld g t o sc slk d m => some (ldOp g t o sc slk d m)
  | .ldu g t o sc slk d m => some (lduOp g t o sc slk d m)
  | .st g t o sc slk m c => some (stOp g t o sc slk m c)
  | .ldl g t o sc slk d m => some (ldlOp g t o sc slk d m)
  | .stl g t o sc slk m c => some (stlOp g t o sc slk m c)
  | .ldc g t slk d w b x => some (ldcOp g t slk d w b x)
  | .atom g op t loc o sc slk d m c e => some (atomOp g op t loc o sc slk d m c e)
  | .red g op t loc o sc slk m c => some (redOp g op t loc o sc slk m c)
  | .poll g t cmp o sc slk d m c => some (pollOp g t cmp o sc slk d m c)
  | .pref g t l2 slk m => some (prefOp g t l2 slk m)
  | _ => none

/-- The lane operation of an instruction, if it has one. -/
def laneOpOf : Instr → Option LaneOp
  | .iadd g t d a b => some (iaddOp g t d a b)
  | .isub g t d a b => some (isubOp g t d a b)
  | .imul g t d a b => some (imulOp g t d a b)
  | .imulh g t d a b => some (imulhOp g t d a b)
  | .imad g t d a b c => some (imadOp g t d a b c)
  | .imin g t d a b => some (iminOp g t d a b)
  | .imax g t d a b => some (imaxOp g t d a b)
  | .iabs g t d a => some (iabsOp g t d a)
  | .ineg g t d a => some (inegOp g t d a)
  | .addmin g t d a b c => some (addminOp g t d a b c)
  | .addmax g t d a b c => some (addmaxOp g t d a b c)
  | .ilea g t d a b s => some (ileaOp g t d a b s)
  | .and g t d a b => some (andOp g t d a b)
  | .or g t d a b => some (orOp g t d a b)
  | .xor g t d a b => some (xorOp g t d a b)
  | .andn g t d a b => some (andnOp g t d a b)
  | .not g t d a => some (notOp g t d a)
  | .shl g t d a b => some (shlOp g t d a b)
  | .shr g t d a b => some (shrOp g t d a b)
  | .sar g t d a b => some (sarOp g t d a b)
  | .rot g t d a b r => some (rotOp g t d a b r)
  | .clz g t d a => some (clzOp g t d a)
  | .popc g t d a => some (popcOp g t d a)
  | .brev g t d a => some (brevOp g t d a)
  | .bfx g t d a b => some (bfxOp g t d a b)
  | .bfi g t d a b c => some (bfiOp g t d a b c)
  | .sel g t d a b pc => some (selOp g t d a b pc)
  | .mov g t d a => some (movOp g t d a)
  | .movi g t d x => some (moviOp g t d x)
  | .iset g t p c a b => some (isetOp g t p c a b)
  | .icvt g dt st d a sat => some (icvtOp g dt st d a sat)
  | .ktov g t d a => some (ktovOp g t d a)
  | .plog g p a b t => some (plogOp g p a b t)
  | .vote g (.any p) a => some (voteOp g (.any p) a)
  | .vote g (.all p) a => some (voteOp g (.all p) a)
  | .lshift g t d a b c up => some (lshiftOp g t d a b c up)
  | .lswz g t d a b => some (lswzOp g t d a b)
  | .lperm g t d a b => some (lpermOp g t d a b)
  | .lbcast g t d a b => some (lbcastOp g t d a b)
  | .lred g op t d a => some (lredOp g op t d a)
  | .fadd g t r sat d a b => some (faddOp g t r sat d a b)
  | .fsub g t r sat d a b => some (fsubOp g t r sat d a b)
  | .fmul g t r sat d a b => some (fmulOp g t r sat d a b)
  | .ffma g t r sat d a b c => some (ffmaOp g t r sat d a b c)
  | .fmin g t d a b => some (fminOp g t d a b)
  | .fmax g t d a b => some (fmaxOp g t d a b)
  | .fset g t p c a b => some (fsetOp g t p c a b)
  | .frcp g t d a => some (frcpOp g t d a)
  | .frsq g t d a => some (frsqOp g t d a)
  | .fsqrt g t r d a => some (fsqrtOp g t r d a)
  | .fexp2 g t d a => some (fexp2Op g t d a)
  | .flog2 g t d a => some (flog2Op g t d a)
  | .fsin g t d a => some (fsinOp g t d a)
  | .fcos g t d a => some (fcosOp g t d a)
  | .fscale g t r d a b => some (fscaleOp g t r d a b)
  | .fclass g t d a => some (fclassOp g t d a)
  | .fdot2 g t r sat d a b c => some (fdot2Op g t r sat d a b c)
  | .fred g op t r d a => some (fredOp g op t r d a)
  | .fcvt g dt st hi r d a b => some (fcvtOp g dt st hi r d a b)
  | .ftoi g dt st r d a => some (ftoiOp g dt st r d a)
  | .itof g dt st r d a => some (itofOp g dt st r d a)
  | .narrow g dt d a b => some (narrowOp g dt d a b)
  | _ => none

/-! ## Loads, stores, atomics -/

def memExec (i : Instr) (op : MemOp) (s : State) : Result := s.onPath fun c => s.issueMem memOpOf c i op

/-- `LD` (R245): loads from global memory per active lane, leaving the destination pending. -/
def execLd (g : Guard) (t : Ty) (o : Ord) (sc : Scope) (slk : BitVec 4) (d : Dst) (m : Addr) (s : State) : Result :=
  memExec (.ld g t o sc slk d m) (ldOp g t o sc slk d m) s
/-- `ST` (R245): stores to global memory per active lane in ascending lane order. -/
def execSt (g : Guard) (t : Ty) (o : Ord) (sc : Scope) (slk : BitVec 4) (m : Addr) (c : Src) (s : State) : Result :=
  memExec (.st g t o sc slk m c) (stOp g t o sc slk m c) s
/-- `LDU` (R246): one uniform load for the path written to every active lane. -/
def execLdu (g : Guard) (t : Ty) (o : Ord) (sc : Scope) (slk : BitVec 4) (d : Dst) (m : Addr) (s : State) : Result :=
  memExec (.ldu g t o sc slk d m) (lduOp g t o sc slk d m) s
/-- `LDL` (R245): loads from local memory. -/
def execLdl (g : Guard) (t : Ty) (o : Ord) (sc : Scope) (slk : BitVec 4) (d : Dst) (m : Addr) (s : State) : Result :=
  memExec (.ldl g t o sc slk d m) (ldlOp g t o sc slk d m) s
/-- `STL` (R245): stores to local memory. -/
def execStl (g : Guard) (t : Ty) (o : Ord) (sc : Scope) (slk : BitVec 4) (m : Addr) (c : Src) (s : State) : Result :=
  memExec (.stl g t o sc slk m c) (stlOp g t o sc slk m c) s
/-- `LDC` (R250): reads a constant window word per lane through the constant cache. -/
def execLdc (g : Guard) (t : Ty) (slk : BitVec 4) (d : Dst) (w : BitVec 3) (b : Src) (x : BitVec 32) (s : State) : Result :=
  memExec (.ldc g t slk d w b x) (ldcOp g t slk d w b x) s
/-- `ATOM` (R255): indivisible read-modify-write at the word's place, returning the old word. -/
def execAtom (g : Guard) (op : AtomOp) (t : Ty) (loc : Bool) (o : Ord) (sc : Scope) (slk : BitVec 4) (d : Dst) (m : Addr) (c : Src)
    (e : Option Src) (s : State) : Result :=
  memExec (.atom g op t loc o sc slk d m c e) (atomOp g op t loc o sc slk d m c e) s
/-- `RED` (R259): atomic with no result. -/
def execRed (g : Guard) (op : AtomOp) (t : Ty) (loc : Bool) (o : Ord) (sc : Scope) (slk : BitVec 4) (m : Addr) (c : Src)
    (s : State) : Result :=
  memExec (.red g op t loc o sc slk m c) (redOp g op t loc o sc slk m c) s

/-- `POLL` waits, in a recognised wait, until every lane's word has met the condition (R260); its reads are made elsewhere. -/
def execPoll (g : Guard) (t : Ty) (cmp : Cmp) (o : Ord) (sc : Scope) (slk : BitVec 4) (d : Dst) (m : Addr) (c : Src)
    (s : State) : Result :=
  s.onPath fun cu =>
    let i : Instr := .poll g t cmp o sc slk d m c
    match cu.path.prog with
    | .stage _ => (if o.isAcq then s.invalidate cu.core sc else s).advance cu i
    | .acc _ => s.wait cu
    | _ => s.issueMem memOpOf cu i (pollOp g t cmp o sc slk d m c)

/-- `PREF` (R262): requests lines into L1 and slice, or slice only. -/
def execPref (g : Guard) (t : Ty) (l2 : Bool) (slk : BitVec 4) (m : Addr) (s : State) : Result :=
  memExec (.pref g t l2 slk m) (prefOp g t l2 slk m) s

/-! ## Fences (R253) -/

/-- A fence parks its path until what it orders is done: a release performs every older access at its scope, an acquire waits for the
values of older loads and atomics and then invalidates. -/
def execFence (g : Guard) (o : Ord) (sc : Scope) (slk : BitVec 4) (s : State) : Result :=
  s.onPath fun c =>
    let i : Instr := .fence g o sc slk
    let after (s : State) : State :=
      if o.isAcq then
        (if c.grp.loadsDue c.path.allLanes s.ids then s.park c else (s.invalidate c.core sc).advance c i)
      else s.advance c i
    s.once c i g true [] fun s _ => if o.isRel then s.afterRelease c sc after else after s

/-! ## Counted waits (R264) -/

/-- The group's four counters: loads, stores, copies, tile operations (DEDUCED, assumption 19). -/
def State.counters (s : State) (g : Nat) : Nat × Nat × Nat × Nat :=
  let G := s.grpOf g
  let ops := G.resid.filterMap fun e => (memOpOf e.instr).filter fun o => !o.isPref
  let isCopy (k : CmdKind) : Bool := match k with | .mloop .. | .mzero .. | .mrowsc .. => false | _ => true
  ((G.accs.filter fun a => a.waits != 0 && (a.kind == .load || a.kind == .const || a.kind == .atom)).length
      + (ops.filter fun o => !o.stores).length,
   (G.accs.filter fun a => a.waits != 0 && (a.kind == .store || a.kind == .red || a.kind == .atom)).length
      + (ops.filter fun o => o.stores).length,
   (s.cmds.filter fun e => e.2.grp == g && !e.2.done && isCopy e.2.kind).length,
   (s.cmds.filter fun e => e.2.grp == g && !e.2.done && !isCopy e.2.kind).length)

/-- `WAITC` waits until each counter is at most its count; it neither drains nor defers (DEDUCED, assumption 19). -/
def execWaitc (g : Guard) (l st cp tl : BitVec 8) (s : State) : Result :=
  s.onPath fun c =>
    let i : Instr := .waitc g l st cp tl
    s.once c i g false [] fun s _ =>
      let n := s.counters c.g
      if n.1 ≤ l.toNat && n.2.1 ≤ st.toNat && n.2.2.1 ≤ cp.toNat && n.2.2.2 ≤ tl.toNat then s.advance c i else s.park c

/-! ## `DISCARD` (R263) -/

/-- The footprint of a shape record: its first and last byte (R238). -/
def footprint (r : Nat) : Nat × Nat :=
  let base : Int := bits r 0 64
  let span (d : Nat) : Int := ((bits r (128 + 32 * d) 32 : Nat) - 1 : Int) * sx 64 (bits r (256 + 64 * d) 64)
  let dims := (List.range (bits r 76 3)).map span
  let lo := dims.foldl (fun a x => a + min 0 x) base
  let hi := dims.foldl (fun a x => a + max 0 x) base + 2 ^ bits r 79 3 - 1
  (lo.toNat, hi.toNat)

/-- Pages of a footprint. -/
def footPages (f : Nat × Nat) : List Nat := (List.range (pageOf f.2 - pageOf f.1 + 1)).map fun i => pageOf f.1 + i

/-- Whether a page of a home passes its key and right checks for a write by a domain with a key (R228, R263) (DEDUCED, assumption 32). -/
def State.discardLeaf (s : State) (h dom : Nat) (key : BitVec 10) (a : Nat) : Bool :=
  (s.leafOf h a).any fun l => dom == 0 || (leafKey l.2 == key && s.holdsKey dom key && l.2.testBit 7)

/-- Whether a page of a footprint passes; one homed elsewhere is left to its home (DEDUCED, assumption 32). -/
def State.discardOk (s : State) (core launch dom page : Nat) : Bool :=
  let a := page * 65536
  match homeOf s.fw a with
  | some (d, h) => d != s.fw.dev || (s.coreCheck core launch 2 a).any fun key => s.discardLeaf h dom key a
  | none => false

/-- Drop the lines of an object in some pages, without write-back: a dirty line may have been written back before.
What is lost is recorded for a rollback (DESIGN CHOICE, assumption 23; DEDUCED, assumption 32). -/
def State.dropLines (s : State) (dom : Nat) (p : Nat → Bool) : State :=
  let dirty := s.mem.slice.filter fun e => e.2.own && p e.1
  let kept (a : Nat) : Bool := Config.freeChoice (s.ids + lineOf a) % 2 == 1
  let s := s.noteUndo dom (dirty.map fun e => (e.1, e.2.val))
  let s := (dirty.filter fun e => kept e.1).foldl (fun s e =>
    match (homeOf s.fw e.1).bind fun dh => (s.leafOf dh.2 e.1).map fun l => (dh.2, l.2) with
    | some (h, l) => s.writeBack h l (fun a => a == e.1) false
    | none => s) s
  ((s.setMem (s.mem.keepSlice fun a => !p a)).dropCopies p).next

/-- Whom a `DISCARD` asks: the home of each page of another device, and the devices that may hold replicas, each with an address and the
bounds of what is dropped (R241, R263). -/
def State.discardAsks (s : State) (e : Nat) (f : Nat × Nat) : List (Nat × Nat × Nat × Nat) :=
  let lo := lineOf f.1
  let hi := lineOf f.2 + 64
  ((footPages f).filterMap fun p =>
      match homeOf s.fw (p * 65536) with
      | some (d, _) => if d = s.fw.dev then none else some (d, p * 65536, max lo (p * 65536), min hi (p * 65536 + 65536))
      | none => none)
    ++ (s.fw.devs.filter fun d => d != s.fw.dev && objRmost e && (bits e 192 64).testBit (d / 64)).map fun d => (d, f.1, lo, hi)

/-- One of them is asked, with the slack of the instruction's code (R303), or answers. -/
def State.askDiscard (s : State) (c : Cur) (slk : BitVec 4) (n : Nat) (q : Nat × Nat × Nat × Nat) : State × Got :=
  let k := [1, c.g, c.arm, 9, n, q.2.1]
  let dom := s.domOf c.grp.launch
  match s.hold? k with
  | none =>
    (match s.coreCheck c.core c.grp.launch 2 q.2.1 with
     | none => (s, .fail 4 q.2.1)
     | some key =>
       let fld := s.aged (s.slackField c.grp.launch slk.toNat)
       match s.sendRemote q.1
           (fun id => .request s.fw.dev id false q.2.1 dom key.toNat
             { acc := 2, va := q.2.1, field := fld, late := fld == 0, life := lifetime, adm := false } (.discard q.2.2.1 q.2.2.2)) (.hold k) with
       | some (s, id) => ((s.expose dom).addHold k key .remote 0 0 id (fld, fld == 0), .wait)
       | none => (s, .wait))
  | some h =>
    match h.phase, look s.fab.reqs h.req with
    | .remote, some r =>
      let gone := (s.unhold k).setFab { s.fab with reqs := del s.fab.reqs h.req }
      if r.failed then (gone, .fail 5 q.2.1) else if r.done.isSome then (gone, .ok []) else (s, .wait)
    | .busy u, _ => if s.now < u then (s, .wait) else (s.unhold k, .wait)
    | _, _ => (s.unhold k, .fail 5 q.2.1)

/-- `DISCARD` waits from here for every device that it asks, one after another; once all have answered it traps if a page has failed, the
lowest being `bad` (DEDUCED, assumption 32). -/
def State.discardWait (s : State) (c : Cur) (i : Instr) (slk : BitVec 4) (f : Nat × Nat) (ka n : Nat) (bad : Option Nat) : State :=
  let e := s.objEntry ka
  let stay (s : State) (n : Nat) (bad : Option Nat) : State := (s.modPath c.g c.arm fun p => { p with prog := .asked f.1 f.2 n bad }).park c
  match (s.discardAsks e f)[n]? with
  | none =>
    (match bad with
     | some p => s.trapAt c 5 (some (w64 (p * 65536)))
     | none => s.advance c i)
  | some q =>
    match s.askDiscard c slk n q with
    | (s, .wait) => stay s n bad
    | (s, .fail _ a) => stay s (n + 1) (some (min (pageOf a) (bad.getD (pageOf a))))
    | (s, .ok _) => stay (s.dropLines (s.domOf c.grp.launch) fun x => q.2.2.1 ≤ x && x < q.2.2.2) (n + 1) bad

/-- `DISCARD` with its footprint known: pages are checked at the turnstile, and then at their homes (R263) (DEDUCED, assumption 32). -/
def State.discardHere (s : State) (c : Cur) (i : Instr) (slk : BitVec 4) (ka dom : Nat) (f : Nat × Nat) : State :=
  let pages := footPages f
  match pages.find? fun p => (s.coreCheck c.core c.grp.launch 2 (p * 65536)).isNone with
  | some p => s.trapAt c 4 (some (w64 (p * 65536)))
  | none =>
    let here := pages.filter fun p => (homeOf s.fw (p * 65536)).any fun d => d.1 == s.fw.dev
    let bad := here.filter fun p => !s.discardOk c.core c.grp.launch dom p
    let s := s.dropLines dom fun x =>
      lineOf f.1 ≤ x && x < lineOf f.2 + 64 && here.contains (pageOf x) && !bad.contains (pageOf x)
    s.discardWait c i slk f ka 0 bad.head?

/-- `DISCARD` (R263): invalidates every line of a tensor object without write-back (DEDUCED, assumption 32). -/
def execDiscard (g : Guard) (slk : BitVec 4) (a : BitVec 5) (s : State) : Result :=
  s.onPath fun c =>
    let i : Instr := .discard g slk a
    let ka := (c.grp.kr a).toNat
    match c.path.prog with
    | .asked lo hi n bad => s.discardWait c i slk (lo, hi) ka n bad
    | _ => s.once c i g true [] fun s _ =>
      if c.grp.accs.any fun x => x.lanes &&& c.path.allLanes != 0 then s.park c
      else if ka = 0 || 4096 ≤ ka then s.illegal c
      else
        let e := s.objEntry ka
        let dom := s.domOf c.grp.launch
        if !objV e then s.advance c i
        else if dom != bits e 48 16 && dom != 0 then s.trapAt c 4 (some (w64 (bits e 128 64)))
        else
          match s.syncRead { key := [7, 12, c.g, c.arm], core := none, launch := 0, dom := 0 } 1 (bits e 128 64) 64 with
          | (s, .wait) => s.park c
          | (s, .fail x a) => s.trapGot c x a
          | (s, .ok b) => s.discardHere c i slk ka dom (footprint (ofBytes b))

end Sys2Proof.Machine
end

