-- ==== Sys2Proof/Machine/Records.lean ====
section
/-!
DEFINITION. Records of the ringmaster in memory: launch records (R325, R326), graph nodes (R329), and the legality of a wait on the
handle of a launch or graph (R35, R323).
-/

namespace Sys2Proof.Machine

/-! ## Launch records (R325) -/

/-- A window binding of a record: offset and word count, if bound. -/
def winField (n w : Nat) : Option (Nat × Nat) :=
  let x := bits n (722 + 37 * w) 37
  if x.testBit 36 then some (bits x 0 19, bits x 19 17 + 1) else none

/-- The fields of a launch record. -/
def recOfBits (n : Nat) : LRec :=
  { entry := w64 (bits n 0 64), tvec := w64 (bits n 64 64), spbase := w64 (bits n 128 64), spsize := bits n 498 32
    cword := w64 (bits n 192 64), gnode := w64 (bits n 256 64), cbase := w64 (bits n 320 64), nx := bits n 384 33
    ny := bits n 417 17, nz := bits n 434 17, ngrp := bits n 451 6 + 1, ngang := bits n 457 2 + 1, order := bits n 459 2
    swz := bits n 461 6 + 1, pclass := bits n 467 2, sys := n.testBit 469, quota := 32 + 8 * bits n 470 4, opp := bits n 474 4
    idem := n.testBit 478, lmem := bits n 479 19, slack := (List.range 16).map fun e => bits n (530 + 12 * e) 12
    cwin := (List.range 8).map fun w => winField n w }

/-- A pointer of a record: a canonical address with an alignment. -/
def ptrOk (p : W64) (al : Nat) : Bool := p.toNat < 2 ^ 57 && p.toNat % al == 0

/-- The checks of status 0x20 (R326). -/
def recOk (n dom : Nat) : Bool :=
  let r := recOfBits n
  bits n 1018 6 == 0 && r.nx ≤ 2 ^ 32 && r.ny ≤ 2 ^ 16 && r.nz ≤ 2 ^ 16 && bits n 470 4 ≤ 12 && r.lmem ≤ 262144
    && r.spsize % 512 == 0 && r.pclass != 3 && ptrOk r.entry 32 && ptrOk r.tvec 4 && ptrOk r.spbase 1 && ptrOk r.cword 8
    && ptrOk r.gnode 1 && ptrOk r.cbase 8 && (!r.sys || dom == 0) && r.blocks ≤ 2 ^ 32

/-- Whether a record has a completion word (R327). -/
def LRec.hasWord (r : LRec) : Bool := r.cword != 0 && ptrOk r.cword 8

/-! ## Graph nodes (R329) -/

/-- A valid graph node. -/
inductive Node where
  | kernel (rec : Nat) (succ : List Nat)
  | cond (cmp : Nat) (signed : Bool) (addr comparand t f : Nat)
  | loop (counter bound back exit_ : Nat)
  | join (deps arrivals succ : Nat)
deriving DecidableEq, Repr

/-- A node's 64 bytes as doublewords. -/
def dwords (b : List Byte) : List Nat := (List.range 8).map fun i => ofBytes ((b.drop (8 * i)).take 8)

/-- The node a node's bytes hold; none if it is invalid. -/
def nodeOf (b : List Byte) : Option Node :=
  let d := dwords b
  let w (i : Nat) : Nat := d.getD i 0
  let zeros (from_ : Nat) : Bool := (d.drop from_).all fun x => x == 0
  let succ (i : Nat) : Bool := w i % 64 == 0
  match bits (w 0) 0 3 with
  | 1 =>
    let n := bits (w 0) 3 3
    if bits (w 0) 6 58 == 0 && n ≤ 4 && zeros 6 && w 1 % 128 == 0 && (List.range n).all fun i => succ (2 + i) then
      some (.kernel (w 1) ((List.range n).map fun i => w (2 + i)))
    else none
  | 2 =>
    if bits (w 0) 8 56 == 0 && bits (w 0) 3 4 < 6 && zeros 5 && w 1 % 8 == 0 && succ 3 && succ 4 then
      some (.cond (bits (w 0) 3 4) ((w 0).testBit 7) (w 1) (w 2) (w 3) (w 4))
    else none
  | 3 =>
    if bits (w 0) 3 61 == 0 && w 1 < 2 ^ 32 && w 2 < 2 ^ 32 && zeros 5 && succ 3 && succ 4 then
      some (.loop (w 1) (w 2) (w 3) (w 4))
    else none
  | 4 =>
    if bits (w 0) 3 61 == 0 && zeros 3 && succ 2 then some (.join (bits (w 1) 0 32) (bits (w 1) 32 32) (w 2)) else none
  | _ => none

/-- The successors a node may take. -/
def Node.next : Node → List Nat
  | .kernel _ l => l
  | .cond _ _ _ _ t f => [t, f]
  | .loop _ _ b e => [b, e]
  | .join _ _ n => [n]

/-! ## Waiting on a launch or graph (R35, R323) -/

/-- The ringmaster's accesses for a domain (R326). -/
def ringWho (dom : Nat) (key : List Nat) : Who := { key := 5 :: key, core := none, launch := 0, dom := dom }

/-- Whether every kernel node reachable from `work` names a concurrent launch record: each node and record is read for the domain, and one
that cannot be read counts as one that is not (R323). None while a read waits. -/
def State.graphConc (s : State) (w : Who) : Nat → List Nat → List Nat → State × Option Bool
  | 0, _, _ => (s, some false)
  | _ + 1, [], _ => (s, some true)
  | fuel + 1, a :: r, seen =>
    if a = 0 || seen.contains a then State.graphConc s w fuel r seen
    else
      match s.syncRead w 1 a 64 with
      | (s, .wait) => (s, none)
      | (s, .fail _ _) => (s, some false)
      | (s', .ok b) =>
        match nodeOf b with
        | none => (s', some false)
        | some (.kernel x l) =>
          (match s'.syncRead w 1 x 128 with
           | (s'', .wait) => (s''.keepAnswers s, none)
           | (s'', .fail _ _) => (s'', some false)
           | (s'', .ok b) =>
             if (recOfBits (ofBytes b)).cls != 0 then (s'', some false)
             else
               match State.graphConc s'' w fuel (l ++ r) (a :: seen) with
               | (x, none) => (x.keepAnswers s, none)
               | x => x)
        | some k =>
          (match State.graphConc s' w fuel (k.next ++ r) (a :: seen) with
           | (x, none) => (x.keepAnswers s, none)
           | x => x)

/-- The launch a handle started, if it has been admitted and is still known. -/
def State.launchOf (s : State) (core tag gen : Nat) : Option (Nat × Launch) :=
  s.launches.find? fun e => e.2.origin == .tag core tag gen

/-- Whether what a wait on a tag is checked by is known without reading a record: the tag is a command's, was bound without `.early`, or its
launch has been admitted, as one that has completed was. -/
def State.tagKnown (s : State) (core tag : Nat) : Bool :=
  let t := get tagReset (s.core core).tags tag
  t.kind != 2 || !t.early || (!t.graph && ((s.launchOf core tag t.gen).isSome || (t.done && t.cls != 0)))

/-- What stands behind a launch's or graph's tag: 1 for concurrent, 2 for parallel, 3 for neither. -/
def State.setCls (s : State) (core tag cls : Nat) : State :=
  s.modCore core fun K => { K with tags := upd K.tags tag fun t => { t with cls := cls } }

/-- The records that a wait on a tag is checked by are read for its domain, as the wait issues (R35, R323) (DEDUCED, assumption 14). -/
def State.learnTag (s : State) (core tag launch : Nat) : State × Got :=
  if s.tagKnown core tag then (s, .ok [])
  else
    let t := get tagReset (s.core core).tags tag
    let w := ringWho (s.domOf launch) [3, core, tag]
    if t.graph then
      match s.graphConc w (2 ^ 40) [t.target] [] with
      | (s, none) => (s, .wait)
      | (s, some b) => (s.setCls core tag (if b then 1 else 3), .ok [])
    else
      match s.syncRead w 1 t.target 128 with
      | (s, .wait) => (s, .wait)
      | (s, .fail _ _) => (s.setCls core tag 3, .ok [])
      | (s, .ok b) => (s.setCls core tag ((recOfBits (ofBytes b)).cls + 1), .ok [])

/-- Whether a wait on a tag is legal for a launch, by what has been read (R35, R323)
(DEDUCED, assumption 14; DESIGN CHOICE, assumption 88). -/
def State.tagLegal (s : State) (core tag : Nat) : Bool :=
  let t := get tagReset (s.core core).tags tag
  if t.kind != 2 then true
  else if !t.early then false
  else if t.graph then t.cls == 1
  else
    match s.launchOf core tag t.gen with
    | some (l, L) => L.lr.cls == 0 || (L.lr.cls == 1 && s.allPlaced l)
    | none => t.cls == 1 || (t.done && t.cls == 2)

end Sys2Proof.Machine
end

