-- ==== Sys2Proof/Machine/Engine.lean ====
section
/-!
DEFINITION. The engine instructions as a group issues them (R175 to R204): claims and releases of slots and tiles, tags and handles,
the reservation table, the copy queues, and the completion of a command.
-/

namespace Sys2Proof.Machine

/-- A uniform source of an engine instruction: 64 bits (R175). -/
def Cur.kop (c : Cur) (a : Src) : W64 := c.grp.kopnd 0 .k64 a
def Cur.kn (c : Cur) (a : Src) : Nat := (c.kop a).toNat

/-- Write a `k` register of the path and go on (the instruction is done). -/
def State.answer (s : State) (c : Cur) (i : Instr) (d : BitVec 5) (x : W64) : State :=
  (s.modGroup c.g fun G => G.kw d x).advance c i

/-- The path waits, in no recognised wait, with a place in a queue (R179, R180, R199) (DEDUCED, assumption 13). -/
def State.ticket (s : State) (c : Cur) (id : Nat) : State := (s.modPath c.g c.arm fun p => { p with prog := .ticket id }).park c

/-- A path with a place in a queue waits; else the instruction issues (DEDUCED, assumption 13). -/
def State.engine (s : State) (c : Cur) (i : Instr) (g : Guard) (drains : Bool) (f : State → State) : State :=
  match c.path.prog with
  | .ticket _ => s.park c
  | _ => s.once c i g drains [] fun s _ => f s

/-- The path that waits with a ticket goes on after its instruction (DEDUCED, assumption 13). -/
def State.resumeAt (s : State) (g a len : Nat) : State :=
  match s.path? g a with
  | some c => s.goto c (c.path.pc + w64 len)
  | none => s

/-! ## Shares among domains (R337) -/

/-- Domains with blocks resident on some cores. -/
def State.domsOn (s : State) (p : Nat → Bool) : Nat :=
  ((s.blocks.filter fun e => p e.2.core).map fun e => s.domOf e.2.launch).eraseDups.length

/-- A domain's guaranteed share of `n` units. -/
def State.share (s : State) (p : Nat → Bool) (n : Nat) : Nat := n / max 1 (s.domsOn p)

/-- Who is served next: the first waiter whose domain holds less than its share, else the first (R337). -/
def fairHead {α : Type} (share : Nat) (used : α → Nat) (l : List α) : Option α :=
  match l.find? fun w => used w < share with
  | some w => some w
  | none => l.head?

def inQuad (q c : Nat) : Bool := coreQuad c == q

/-! ## Claims (R178, R179) -/

def slotMax (tiles : Bool) : Nat := if tiles then 16 else 256
def Quad.own (q : Quad) (tiles : Bool) : Tab Nat := if tiles then q.tOwn else q.sOwn
def Quad.waits (q : Quad) (tiles : Bool) : List Claim := if tiles then q.tWait else q.sWait
def Quad.setWaits (q : Quad) (tiles : Bool) (l : List Claim) : Quad := if tiles then { q with tWait := l } else { q with sWait := l }

/-- Units of a quad that a domain holds. -/
def State.heldBy (s : State) (quad : Nat) (tiles : Bool) (dom : Nat) : Nat :=
  (((s.quad quad).own tiles).filter fun e => s.blockDom e.2 == some dom).length

/-- The lowest-numbered run of free slots or tiles. -/
def Quad.freeRun (q : Quad) (tiles : Bool) (n : Nat) : Option Nat :=
  (List.range (slotMax tiles + 1 - n)).find? fun i => (List.range n).all fun j => (look (q.own tiles) (i + j)).isNone

/-- One slot granted: cleared if another domain released it last. -/
def Quad.grantSlot (q : Quad) (slot block dom : Nat) : Quad :=
  let q := if (look q.sDom slot).any fun d => d != dom then
      { q with elems := keep (fun k _ => k / 8192 != slot) q.elems, scales := keep (fun k _ => k / 128 != slot) q.scales }
    else q
  { q with sOwn := put q.sOwn slot block }

def Quad.grantTile (q : Quad) (tile block dom : Nat) : Quad :=
  let q := if (look q.tDom tile).any fun d => d != dom then { q with tiles := keep (fun k _ => k / 16384 != tile) q.tiles } else q
  { q with tOwn := put q.tOwn tile block }

/-- A run granted to a claim. -/
def Quad.grant (q : Quad) (tiles : Bool) (first : Nat) (w : Claim) : Quad :=
  (List.range w.count).foldl (fun q i =>
    if tiles then q.grantTile (first + i) w.block w.dom else q.grantSlot (first + i) w.block w.dom) q

/-- The claim a quad serves next among some waiting. -/
def State.nextClaim (s : State) (quad : Nat) (tiles : Bool) (ws : List Claim) : Option Claim :=
  fairHead (s.share (inQuad quad) (slotMax tiles)) (fun w : Claim => s.heldBy quad tiles w.dom) ws

/-- A claim issues: it is granted at once, or waits behind older ones of its kind. -/
def State.claim (s : State) (c : Cur) (i : Instr) (tiles : Bool) (d : BitVec 5) (a : Src) : State :=
  let n := c.kn a
  if n = 0 || slotMax tiles < n then s.illegal c
  else
    let quad := coreQuad c.core
    let w : Claim :=
      { id := s.ids, block := c.grp.block, dom := s.domOf c.grp.launch, grp := c.g, arm := c.arm, d := d, count := n }
    let ws := (s.quad quad).waits tiles ++ [w]
    match s.nextClaim quad tiles ws, (s.quad quad).freeRun tiles n with
    | some w', some first =>
      if w' = w then ((s.next.modQuad quad fun q => q.grant tiles first w)).answer c i d (w64 first)
      else (s.next.modQuad quad fun q => q.setWaits tiles ws).ticket c w.id
    | _, _ => (s.next.modQuad quad fun q => q.setWaits tiles ws).ticket c w.id

/-- `OCLAIM` (R179): requests a run of operand slots for the block. -/
def execOclaim (g : Guard) (d : BitVec 5) (a : Src) (s : State) : Result :=
  s.onPath fun c => s.engine c (.oclaim g d a) g false fun s => s.claim c (.oclaim g d a) false d a
/-- `ACLAIM` (R179): requests a run of accumulator tiles for the block. -/
def execAclaim (g : Guard) (d : BitVec 5) (a : Src) (s : State) : Result :=
  s.onPath fun c => s.engine c (.aclaim g d a) g false fun s => s.claim c (.aclaim g d a) true d a

/-- `CLAIM_GRANT`: the claim served next takes the lowest run, and its path goes on (DEDUCED, assumption 13). -/
def execClaimGrant (quad : Nat) (tiles : Bool) (s : State) : Result :=
  .next <| match s.nextClaim quad tiles ((s.quad quad).waits tiles) with
    | some w =>
      (match (s.quad quad).freeRun tiles w.count with
       | some first =>
         let s := s.modQuad quad fun q => (q.grant tiles first w).setWaits tiles ((q.waits tiles).filter fun x => x.id != w.id)
         (s.modGroup w.grp fun G => G.kw w.d (w64 first)).resumeAt w.grp w.arm 8
       | none => s)
    | none => s

/-! ## Releases (R179) -/

/-- Slots or tiles a command names. -/
def CmdKind.names (k : CmdKind) (tiles : Bool) (n : Nat) : Bool :=
  match k, tiles with
  | .cpyo _ ks _ _ desc, false => ks ≤ n && n ≤ ks + bits desc.toNat 20 4
  | .cpya _ kt _ _ _, true => n == kt
  | .mloop _ _ _ sa sb steps ia ib _, false => (List.range steps).any fun j => n == sa + j * ia || n == sb + j * ib
  | .mloop _ _ kt _ _ _ _ _ _, true => n == kt
  | .mzero kt, true => n == kt
  | .mrowsc kt _, true => n == kt
  | _, _ => false

/-- An outstanding command of a block names one of some slots or tiles. -/
def State.named (s : State) (block : Nat) (tiles : Bool) (first n : Nat) : Bool :=
  s.cmds.any fun e => e.2.block == block && !e.2.done && (List.range n).any fun j => e.2.kind.names tiles (first + j)

/-- Whether a block has claimed all of some slots or tiles. -/
def State.claimed (s : State) (quad block : Nat) (tiles : Bool) (first n : Nat) : Bool :=
  (List.range n).all fun j => look ((s.quad quad).own tiles) (first + j) == some block

/-- Free slots or tiles, remembering whose they were. -/
def Quad.free (q : Quad) (tiles : Bool) (first n dom : Nat) : Quad :=
  (List.range n).foldl (fun q i =>
    if tiles then { q with tOwn := del q.tOwn (first + i), tDom := put q.tDom (first + i) dom }
    else { q with sOwn := del q.sOwn (first + i), sDom := put q.sDom (first + i) dom }) q

/-- A release first waits for the commands that name any of its slots or tiles; then it frees them, or traps. -/
def State.release (s : State) (c : Cur) (i : Instr) (tiles : Bool) (a b : Src) : State :=
  let first := c.kn a
  let n := c.kn b
  let quad := coreQuad c.core
  if slotMax tiles < first + n then s.illegal c
  else if s.named c.grp.block tiles first n then
    let r : Release :=
      { id := s.ids, block := c.grp.block, grp := c.g, arm := c.arm, tiles := tiles, first := first, count := n }
    (s.next.modQuad quad fun q => { q with rels := q.rels ++ [r] }).ticket c r.id
  else if !s.claimed quad c.grp.block tiles first n then s.trapAt c 9 none
  else (s.modQuad quad fun q => q.free tiles first n (s.domOf c.grp.launch)).advance c i

/-- `OREL` (R179): releases operand slots once no command naming them is outstanding. -/
def execOrel (g : Guard) (a b : Src) (s : State) : Result :=
  s.onPath fun c => s.engine c (.orel g a b) g false fun s => s.release c (.orel g a b) false a b
/-- `AREL` (R179): releases accumulator tiles once no command naming them is outstanding. -/
def execArel (g : Guard) (a b : Src) (s : State) : Result :=
  s.onPath fun c => s.engine c (.arel g a b) g false fun s => s.release c (.arel g a b) true a b

/-- `CLAIM_RELEASE_FREE`: the first release that need not wait frees, or traps if the block no longer holds what it names
(DEDUCED, assumption 13). -/
def execClaimReleaseFree (quad : Nat) (tiles : Bool) (s : State) : Result :=
  .next <| match (s.quad quad).rels.find? fun r => r.tiles == tiles && !s.named r.block tiles r.first r.count with
    | some r =>
      let s' := s.modQuad quad fun q => { q with rels := q.rels.filter fun x => x.id != r.id }
      if s.claimed quad r.block tiles r.first r.count then
        (s'.modQuad quad fun q => q.free tiles r.first r.count ((s.blockDom r.block).getD 0)).resumeAt r.grp r.arm 8
      else
        (match s'.path? r.grp r.arm with
         | some c => (s'.modPath c.g c.arm fun p => { p with prog := .none }).trapAt c 9 none
         | none => s')
    | none => s

/-! ## Tags and handles (R197 to R199) -/

/-- A handle (R197). -/
def handleOf (kind : BitVec 2) (core gen tag : Nat) : W64 :=
  w64 (kind.toNat * 2 ^ 39 + core * 2 ^ 30 + gen * 2 ^ 6 + tag)

def CmdKind.isTile : CmdKind → Bool
  | .mloop .. | .mzero _ | .mrowsc _ _ => true
  | _ => false

def TagWait.kind (w : TagWait) : BitVec 2 :=
  match w.cmd with
  | some c => if c.kind.isTile then 1 else 0
  | none => 2

/-- The lowest-numbered free tag. -/
def Core.freeTagNo (K : Core) : Option Nat := (List.range 64).find? fun t => (get tagReset K.tags t).owner.isNone

/-- Tags of a core that a domain holds. -/
def State.tagsBy (s : State) (core dom : Nat) : Nat :=
  ((s.core core).tags.filter fun e => (e.2.owner.map fun l => s.domOf l) == some dom).length

def State.nextTagWait (s : State) (core : Nat) (ws : List TagWait) : Option TagWait :=
  fairHead (s.share (fun c => c == core) 64) (fun w : TagWait => s.tagsBy core w.dom) ws

/-- Commands that a command entering a queue begins behind, besides those before it in the queue (R187). -/
def Core.fenced (K : Core) (queue : Nat) : List Nat :=
  K.fences.flatMap fun f => if f.1.getLsbD queue then f.2 else []

/-- Tile operations of a group not yet completed (R180). -/
def State.tileOps (s : State) (g : Nat) : List Nat :=
  (s.cmds.filter fun e => e.2.grp == g && e.2.kind.isTile && !e.2.done).map Prod.fst

/-- The reservation-table entries of a quad that a domain holds. -/
def State.postedBy (s : State) (quad dom : Nat) : Nat :=
  ((s.quad quad).table.filter fun i => ((s.cmd? i).map fun c => c.dom) == some dom).length

def State.domOfCmd (s : State) (i : Nat) : Nat := ((s.cmd? i).map fun c => c.dom).getD 0

def State.nextPost (s : State) (quad : Nat) (ws : List Nat) : Option Nat :=
  fairHead (s.share (inQuad quad) Config.resvCap) (fun i => s.postedBy quad (s.domOfCmd i)) ws

/-! ## Completion (R199, R201, R203) -/

/-- A `JOIN` delivers a completion: kd, an acquire at a copy command's scope, and then the trap of a failed access
(DEDUCED, assumption 14). -/
def State.deliverJoin (s : State) (g a : Nat) (d : BitVec 5) (t : Tag) : State :=
  let s := s.modGroup g fun G => G.kw d t.status
  let s := match t.kind, s.cmd? t.target with
    | 0, some c => s.invalidate (slotCore g) c.scope
    | _, _ => s
  let code := t.status.extractLsb' 0 8
  match s.path? g a with
  | some c =>
    if t.kind != 2 && 4 ≤ code.toNat && code.toNat ≤ 6 then
      (s.modPath g a fun p => { p with prog := .none }).raise g a
        { cause := code, detail := 0, tpc := c.path.pc + 8, taddr := some t.taddr, resume := c.path.pc + 8, entry := none }
    else s.goto c (c.path.pc + 8)
  | none => s

/-- The tag is freed, and what is kept of its command with it. -/
def State.joined (s : State) (core tag : Nat) (t : Tag) : State :=
  let s := s.freeTag core tag
  if t.kind = 2 then s else s.setCmds (del s.cmds t.target)

/-- Paths of a core that wait in a `JOIN` on a tag. -/
def State.joiners (s : State) (core tag gen : Nat) : List (Nat × Nat × BitVec 5) :=
  (s.groups.filter fun e => slotCore e.1 == core).flatMap fun e =>
    (List.range e.2.arms.length).filterMap fun a =>
      match (e.2.armOf a).prog with
      | .join t n d => if t = tag && n = gen then some (e.1, a, d) else none
      | _ => none

/-- A tag's completion arrives: its `RDY` bit is set and every waiting `JOIN` receives the status. A tag that is free, or holds a newer
generation, is not touched. -/
def State.tagDone (s : State) (core tag gen : Nat) (status taddr : W64) : State :=
  let t := get tagReset (s.core core).tags tag
  if t.owner.isNone || t.gen != gen || t.done then s
  else
    let t := { t with done := true, status := status, taddr := taddr }
    let s := s.modCore core fun K => { K with tags := put K.tags tag t }
    match s.joiners core tag gen with
    | [] => s
    | l => (l.foldl (fun s j => s.deliverJoin j.1 j.2.1 j.2.2 t) s).joined core tag t

/-- Bytes of the instruction that issues a command. -/
def CmdKind.len : CmdKind → Nat
  | .mzero _ | .mrowsc _ _ => 8
  | _ => 16

/-- A command completes: it leaves the reservation table, a late completion is counted, and its tag is told. -/
def State.complete (s : State) (id : Nat) : State :=
  match s.cmd? id with
  | none => s
  | some c =>
    let unposted := (s.quad (coreQuad c.core)).posting.contains id
    let s := s.modCmd id fun c => { c with done := true }
    let s := if unposted then s.resumeAt c.grp c.arm c.kind.len else s
    let s := s.modQuad (coreQuad c.core) fun q =>
      { q with table := q.table.filter fun i => i != id, posting := q.posting.filter fun i => i != id }
    let s := match c.lateAt with
      | some a => s.countLate c.grp c.arm a.toNat c.lanes
      | none => s
    s.tagDone c.core c.tag c.gen c.status c.taddr

/-! ## Issue (R180, R194, R199) -/

/-- A command with its tag enters its queue, posts its entry, or completes at once (DEDUCED, assumption 35). -/
def State.enter (s : State) (w : TagWait) (k : Cmd) : State :=
  let id := s.ids
  let core := slotCore w.grp
  let quad := coreQuad core
  let k := { k with after := if k.kind.isTile then s.tileOps w.grp else (s.core core).fenced k.queue }
  let s := s.next.setCmds (put s.cmds id k)
  let s := s.modCore core fun K => { K with tags := upd K.tags k.tag fun t => { t with target := id } }
  if k.ended then (s.complete id).resumeAt w.grp w.arm w.len
  else if k.kind.isTile then
    let ws := (s.quad quad).posting ++ [id]
    if s.nextPost quad ws = some id && (s.quad quad).table.length < Config.resvCap then
      (s.modQuad quad fun q => { q with table := q.table ++ [id] }).resumeAt w.grp w.arm w.len
    else
      (s.modQuad quad fun q => { q with posting := ws }).modPath w.grp w.arm fun p => { p with prog := .ticket id, st := .parked }
  else s.resumeAt w.grp w.arm w.len

/-- A tag is allocated: its generation rises, the handle is written, and the instruction goes on. -/
def State.giveTag (s : State) (w : TagWait) (tag : Nat) : State :=
  let core := slotCore w.grp
  let gen := ((get tagReset (s.core core).tags tag).gen + 1) % 2 ^ 24
  let t : Tag :=
    { gen := gen, owner := some w.launch, block := w.block, kind := w.kind, done := false, status := 0, taddr := 0
      graph := w.graph, early := w.early, target := w.target, cls := 0 }
  let s := s.modCore core fun K => { K with tags := put K.tags tag t }
  let s := s.modGroup w.grp fun G => G.kw w.d (handleOf w.kind core gen tag)
  match w.cmd with
  | some k => s.enter w { k with tag := tag, gen := gen }
  | none => s.modPath w.grp w.arm fun p => { p with prog := .launch tag gen s.ids }

/-- A command takes a tag, or waits for one behind those that wait already. -/
def State.takeTag (s : State) (c : Cur) (w : TagWait) : State :=
  let ws := (s.core c.core).tagWait ++ [w]
  match s.nextTagWait c.core ws, (s.core c.core).freeTagNo with
  | some w', some t =>
    if w'.id = w.id then s.next.giveTag w t
    else (s.next.modCore c.core fun K => { K with tagWait := ws }).ticket c w.id
  | _, _ => (s.next.modCore c.core fun K => { K with tagWait := ws }).ticket c w.id

/-- `TAG_ALLOCATE`: the waiter served next takes the lowest free tag (DEDUCED, assumption 13). -/
def execTagAllocate (core : Nat) (s : State) : Result :=
  .next <| match s.nextTagWait core (s.core core).tagWait, (s.core core).freeTagNo with
    | some w, some t =>
      (s.modCore core fun K => { K with tagWait := K.tagWait.filter fun x => x.id != w.id }).giveTag w t
    | _, _ => s

/-- `RESERVATION_POST`: the entry served next is posted, and its path goes on (DEDUCED, assumption 13). -/
def execReservationPost (quad : Nat) (s : State) : Result :=
  .next <| match s.nextPost quad (s.quad quad).posting with
    | some id =>
      if (s.quad quad).table.length < Config.resvCap then
        let s' := s.modQuad quad fun q => { q with table := q.table ++ [id], posting := q.posting.filter fun i => i != id }
        (match s.cmd? id with
         | some k => s'.resumeAt k.grp k.arm k.kind.len
         | none => s')
      else s
    | none => s

/-- A new command of the current path. -/
def State.newCmd (s : State) (c : Cur) (k : CmdKind) (scope : Scope) (queue slk prio : Nat) : Cmd :=
  { kind := k, core := c.core, tag := 0, gen := 0, block := c.grp.block, grp := c.g, arm := c.arm, lanes := c.path.allLanes
    launch := c.grp.launch, dom := s.domOf c.grp.launch, pc := c.path.pc, scope := scope, queue := queue
    entry := s.slackField c.grp.launch slk, age := s.now, prio := prio, waits := 0, after := [], begun := false, pos := 0, room := 0, row := none, got := none
    targets := [], dropped := 0, lateAt := none, msgs := [], ended := false, done := false, status := 0, taddr := 0 }

/-- The command issues. -/
def State.issueCmd (s : State) (c : Cur) (i : Instr) (kh : BitVec 5) (k : Cmd) : State :=
  s.takeTag c
    { id := s.ids, block := c.grp.block, dom := k.dom, launch := c.grp.launch, grp := c.g, arm := c.arm, d := kh
      len := instrLen i, cmd := some k, graph := false, early := false, target := 0 }

/-- A command that completes at once with a status (R191, R194) (DEDUCED, assumption 35). -/
def Cmd.atOnce (k : Cmd) (status : W64) : Cmd := { k with ended := true, status := status }

/-- The first operand that is not a multiple, as the misaligned trap reports it. -/
def unaligned (l : List (Nat × Nat)) : Option Nat := (l.find? fun q => q.1 % q.2 != 0).map Prod.fst

/-- The misaligned trap, or what follows. -/
def State.aligned (s : State) (c : Cur) (l : List (Nat × Nat)) (f : State) : State :=
  match unaligned l with
  | some a => s.trapAt c 6 (some (w64 a))
  | none => f

/-! ## Copy commands without descriptor (R192 to R194) -/

/-- `CPY` (R195): copy command moving a byte range. -/
def execCpy (g : Guard) (f : CopyF) (kh : BitVec 5) (a b n : Src) (s : State) : Result :=
  let i : Instr := .cpy g f kh a b n
  s.onPath fun c => s.engine c i g true fun s =>
    let len := c.kn n
    if 2 ^ 32 ≤ len then s.illegal c
    else
      s.aligned c [(c.kn a, 4), (c.kn b, 4), (len, 4)] <|
        let k := s.newCmd c (.cpy (c.kop a) (c.kop b) len f.dl f.sl) f.scope f.queue.toNat f.slk.toNat 0
        s.issueCmd c i kh (if len = 0 then k.atOnce 0 else k)

/-- `CPG` (R195): gather copy command driven by an index list. -/
def execCpg (g : Guard) (f : CopyF) (kh : BitVec 5) (a b x n : Src) (len : BitVec 16) (s : State) : Result :=
  let i : Instr := .cpg g f kh a b x n len
  s.onPath fun c => s.engine c i g true fun s =>
    let count := c.kn n
    if 2 ^ 24 ≤ count then s.illegal c
    else
      s.aligned c [(c.kn x, 4)] <|
        let k := s.newCmd c (.cpg (c.kop a) (c.kop b) (c.kop x) count (4 * len.toNat) f.dl f.sl f.il) f.scope f.queue.toNat
          f.slk.toNat 0
        s.issueCmd c i kh (if count = 0 then k.atOnce 0 else k)

/-- `CPM` (R195): multicast copy into the local memory of masked cores of the sector. -/
def execCpm (g : Guard) (f : CopyF) (kh : BitVec 5) (a b n m : Src) (s : State) : Result :=
  let i : Instr := .cpm g f kh a b n m
  s.onPath fun c => s.engine c i g true fun s =>
    let len := c.kn n
    if len < 64 || 262144 < len || 2 ^ 32 ≤ c.kn m then s.illegal c
    else
      s.aligned c [(c.kn a, 64), (c.kn b, 64), (len, 64)] <|
        let k := s.newCmd c (.cpm (c.kop a) (c.kop b) len (lo32 (c.kop m))) f.scope f.queue.toNat f.slk.toNat 0
        s.issueCmd c i kh (if c.kn m = 0 then k.atOnce 0 else k)

/-- `CPYR` (R195): copy that adds each source element into the destination at its home. -/
def execCpyr (g : Guard) (t : Ty) (f : CopyF) (kh : BitVec 5) (a b n : Src) (s : State) : Result :=
  let i : Instr := .cpyr g t f kh a b n
  s.onPath fun c => s.engine c i g true fun s =>
    let len := c.kn n
    if 2 ^ 32 ≤ len then s.illegal c
    else
      s.aligned c [(c.kn a, t.size), (c.kn b, t.size), (len, t.size)] <|
        let k := s.newCmd c (.cpyr t (c.kop a) (c.kop b) len f.sl) f.scope f.queue.toNat f.slk.toNat 0
        s.issueCmd c i kh (if len = 0 then k.atOnce 0 else k)

/-! ## Format descriptors (R188 to R191) -/

/-- The type a format code names (R88). -/
def tyOfCode (n : Nat) : Ty :=
  ([.i8, .i16, .i32, .i64, .n8, .n16, .n32, .n64, .f32, .f16, .bf16, .e4m3, .e5m2, .oq4, .f16x2, .bf16x2] : List Ty).getD n .n32

/-- The fields of a descriptor. -/
structure Desc where
  scstr : Nat
  scoff : Int
  mcols : Nat
  mrows : Nat
  cstr : Nat
  rstr : Int
  nsl : Nat
  scen : Bool
  loc : Bool
  canon : Bool
  trn : Bool
  role : Nat
  tfmt : Ty
  mfmt : Ty
deriving DecidableEq, Repr

def descOf (n : Nat) : Desc :=
  { scstr := bits n 240 16, scoff := sx 32 (bits n 192 32), mcols := bits n 176 16, mrows := bits n 160 16, cstr := bits n 144 16
    rstr := sx 64 (bits n 64 64), nsl := bits n 20 4, scen := n.testBit 19, loc := n.testBit 18, canon := n.testBit 17
    trn := n.testBit 16, role := bits n 8 2, tfmt := tyOfCode (bits n 4 4), mfmt := tyOfCode (bits n 0 4) }

/-- K width of a tile format (R176). -/
def tileK : Ty → Nat
  | .bf16 | .f16 => 32
  | .oq4 => 128
  | _ => 64

/-- Bytes of a memory element; OQ4 packs two in one. -/
def memSize : Ty → Nat
  | .oq4 => 1
  | t => t.size

/-- Whether a command serves a format pair (R191 detail 3). -/
def pairServed (acc : Bool) (m t : Ty) : Bool :=
  let fl : List Ty := [.f16, .bf16, .e4m3, .e5m2]
  if acc then t == .f32 && (m == .f32 || m == .i8 || fl.contains m)
  else ((m == .f32 || fl.contains m) && fl.contains t) || (m == .i8 && t == .i8) || (m == .oq4 && t == .oq4)

/-- The refusals of R191, in the order of their details; `acc` for `CPYA` (DEDUCED, assumption 50). -/
def refusal (acc : Bool) (n first count : Nat) : Option Nat :=
  let d := descOf n
  let k := (d.nsl + 1) * tileK d.tfmt
  if bits n 224 16 != 0 || bits n 128 16 != 0 || bits n 24 40 != 0 || bits n 10 6 != 0 then some 1
  else if (if acc then d.role != 2 else 2 ≤ d.role) then some 2
  else if !pairServed acc d.mfmt d.tfmt then some 3
  else if d.mfmt == .oq4
      && (d.cstr != 0 || d.mcols % 2 == 1 || d.trn != (d.role == 1) || (d.role == 1 && (first % 2 == 1 || count % 2 == 1))) then some 4
  else if d.canon
      && (2 ≤ d.role || d.mfmt != d.tfmt || d.trn || d.scen || first != 0 || count != (if d.role = 0 then 128 else k)) then some 5
  else if !acc && (if d.role = 0 then 128 else k) < first + count then some 6
  else if acc && d.nsl != 0 then some 7
  else none

/-- The read of a descriptor, under its command's slack code (R191, R265). -/
def State.descRead (s : State) (c : Cur) (slk kf : Nat) : State × Got :=
  if s.writesDue c.g kf 32 then (s, .wait) else s.syncRead { s.whoG c.g c.arm with key := [1, c.g, c.arm, slk] } 1 kf 32

/-- A descriptor read that was late counts through its command (R309) (DESIGN CHOICE, assumption 54). -/
def State.lateDesc (s : State) (k : Cmd) (kf : Nat) : Cmd :=
  if k.entry != 0xFFF && (k.entry == 0 || s.pick 2 == 1) then { k with lateAt := some (w64 kf) } else k

/-- A descriptor command after its operand checks: the descriptor is read, the command refused or checked, and issued (R191, R194)
(DEDUCED, assumption 35). -/
def State.withDesc (s : State) (c : Cur) (i : Instr) (kh : BitVec 5) (f : CopyF) (acc : Bool) (a tile win kf : Nat) : State :=
  if kf % 32 != 0 then s.trapAt c 6 (some (w64 kf))
  else
    match s.descRead c f.slk.toNat kf with
    | (s, .wait) => s.park c
    | (s, .fail x ad) => s.trapGot c x ad
    | (s, .ok b) =>
      if s.isBadMem kf 32 then s.consume c.g [] [s.badAddr kf 32] c.path.pc
      else
        let n := ofBytes b
        let d := descOf n
        let first := win % 256
        let count := bits win 8 8
        let kind : CmdKind :=
          if acc then .cpya (w64 a) tile first count (BitVec.ofNat 256 n) else .cpyo (w64 a) tile first count (BitVec.ofNat 256 n)
        let k := s.lateDesc (s.newCmd c kind f.scope f.queue.toNat f.slk.toNat 0) kf
        let s := s.next
        match refusal acc n first count with
        | some r => s.issueCmd c i kh (k.atOnce (w64 (0x10 + 256 * r)))
        | none =>
          let quad := coreQuad c.core
          let es := memSize d.mfmt
          if !s.claimed quad c.grp.block acc tile (if acc then 1 else d.nsl + 1) then s.trapAt c 9 none
          else if a % es != 0 || d.rstr % es != 0 || d.cstr % es != 0 then s.trapAt c 6 (some (w64 a))
          else s.issueCmd c i kh (if count = 0 then k.atOnce 0 else k)

/-- `CPYO` (R196): fills operand slots from memory under a format descriptor. -/
def execCpyo (g : Guard) (f : CopyF) (kh : BitVec 5) (a ks kr kf : Src) (s : State) : Result :=
  let i : Instr := .cpyo g f kh a ks kr kf
  s.onPath fun c => s.engine c i g true fun s =>
    let n := bits (c.kn kr) 8 8
    if bits (c.kn kr) 16 48 != 0 || n = 0 || 128 < n then s.illegal c
    else s.withDesc c i kh f false (c.kn a) (c.kn ks) (c.kn kr) (c.kn kf)

/-- `CPYA` (R196): writes accumulator tile rows to memory under a format descriptor. -/
def execCpya (g : Guard) (f : CopyF) (kh : BitVec 5) (a kt kr kf : Src) (s : State) : Result :=
  let i : Instr := .cpya g f kh a kt kr kf
  s.onPath fun c => s.engine c i g true fun s =>
    if 128 < c.kn kr % 256 + bits (c.kn kr) 8 8 then s.illegal c
    else s.withDesc c i kh f true (c.kn a) (c.kn kt) (c.kn kr) (c.kn kf)

/-- `QFENCE` holds later commands of the queues it names behind every earlier one (R187). -/
def execQfence (g : Guard) (m : BitVec 4) (s : State) : Result :=
  let i : Instr := .qfence g m
  s.onPath fun c => s.engine c i g true fun s =>
    let due := (s.cmds.filter fun e =>
      e.2.core == c.core && !e.2.done && !e.2.kind.isTile && m.getLsbD e.2.queue).map Prod.fst
    (s.modCore c.core fun K => { K with fences := (m, due) :: K.fences.filter fun f => f.2.any fun x => (s.cmd? x).any fun k => !k.done
                                 }).advance c i

/-! ## Tile operations (R180, R183, R185) -/

/-- A tile operation passes its claims check and issues. -/
def State.tileOp (s : State) (c : Cur) (i : Instr) (kh : BitVec 5) (tile prio : Nat) (slots : List Nat) (kind : CmdKind)
    (check : State → Option (Byte × W64)) : State :=
  let quad := coreQuad c.core
  if !s.claimed quad c.grp.block true tile 1 || slots.any fun x => !s.claimed quad c.grp.block false x 1 then s.trapAt c 9 none
  else
    match check s with
    | some (cause, a) => s.trapAt c cause (some a)
    | none => s.issueCmd c i kh { s.newCmd c kind .blk 0 0 prio with entry := 0xFFF }

/-- Value added to a masked element (R183). -/
def Cur.maskWord (c : Cur) : MaskC → W32
  | .zero => 0
  | .ninf => 0xFF800000
  | .kval v => lo32 (c.grp.kopnd 0 (.ty .f32) v)

/-- `MLOOP` (R184): posts a matrix pass of K-steps accumulating into a tile, optionally triangular. -/
def execMloop (g : Guard) (fa fb : Ty) (prio : BitVec 2) (kh : BitVec 5) (kt ka kb : Src) (n : BitVec 12) (ia ib : BitVec 4)
    (mode : MMode) (s : State) : Result :=
  let i : Instr := .mloop g fa fb prio kh kt ka kb n ia ib mode
  s.onPath fun c => s.engine c i g true fun s =>
    let steps := n.toNat + 1
    let slots := (List.range steps).flatMap fun j => [c.kn ka + j * ia.toNat, c.kn kb + j * ib.toNat]
    let tri := match mode with
      | .plain => none
      | .tri kg m => some (c.kop kg, c.maskWord m)
    s.tileOp c i kh (c.kn kt) prio.toNat slots
      (.mloop fa fb (c.kn kt) (c.kn ka) (c.kn kb) steps ia.toNat ib.toNat tri) fun _ => none

/-- `MZERO` (R185): posts a tile operation that zeroes a tile. -/
def execMzero (g : Guard) (prio : BitVec 2) (kh : BitVec 5) (kt : Src) (s : State) : Result :=
  let i : Instr := .mzero g prio kh kt
  s.onPath fun c => s.engine c i g true fun s => s.tileOp c i kh (c.kn kt) prio.toNat [] (.mzero (c.kn kt)) fun _ => none

/-- `MROWSC` (R185): posts a tile operation scaling each tile row by a local-memory factor. -/
def execMrowsc (g : Guard) (prio : BitVec 2) (kh : BitVec 5) (kt ka : Src) (s : State) : Result :=
  let i : Instr := .mrowsc g prio kh kt ka
  s.onPath fun c => s.engine c i g true fun s =>
    s.tileOp c i kh (c.kn kt) prio.toNat [] (.mrowsc (c.kn kt) (c.kop ka)) fun s =>
      if c.kn ka % 4 != 0 then some (6, c.kop ka)
      else if (s.localAt c.grp.block (c.kn ka) 512).isNone then some (4, c.kop ka)
      else none

/-! ## Handle instructions (R201 to R203) -/

/-- A handle as its core knows it: a handle of a restored context stands for the one allocated in its place (R337, R340). -/
def State.handle (s : State) (dom : Nat) (h : W64) : W64 := get h (s.ctx dom).handles h.toNat

/-- The checks of R202: tag number and tag of a handle that is not stale. -/
def State.handleTag (s : State) (c : Cur) (h : W64) : Option (Nat × Tag) :=
  let x := (s.handle (s.domOf c.grp.launch) h).toNat
  let t := get tagReset (s.core c.core).tags (bits x 0 6)
  if bits x 41 23 == 0 && bits x 39 2 != 3 && bits x 30 9 == c.core && t.owner == some c.grp.launch && t.gen == bits x 6 24 then
    some (bits x 0 6, t)
  else none

/-- `JOIN` (R201): waits for a command's completion, returns its status and frees the tag (DEDUCED, assumption 14). -/
def execJoin (g : Guard) (d : BitVec 5) (a : Src) (s : State) : Result :=
  let i : Instr := .join g d a
  s.onPath fun c =>
    match c.path.prog with
    | .join _ _ _ => s.wait c
    | _ => s.once c i g false [] fun s _ =>
      match s.handleTag c (c.kop a) with
      | none => s.trapAt c 8 none
      | some (n, t) =>
        match s.learnTag c.core n c.grp.launch with
        | (s, .ok _) =>
          if !s.tagLegal c.core n then s.trapAt c 2 none
          else if t.done then (s.deliverJoin c.g c.arm d t).joined c.core n t
          else (s.modPath c.g c.arm fun p => { p with prog := .join n t.gen d }).wait c
        | (s, _) => s.park c

/-- `TEST` (R201): sets a predicate to whether a command has completed. -/
def execTest (g : Guard) (p : BitVec 3) (a : Src) (s : State) : Result :=
  let i : Instr := .test g p a
  s.onPath fun c => s.once c i g false [] fun s _ =>
    match s.handleTag c (c.kop a) with
    | none => s.trapAt c 8 none
    | some (_, t) =>
      (s.modGroup c.g fun G => (c.act g).list.foldl (fun G l => G.wr l (.p p.toNat) (if t.done then 1 else 0)) G).advance c i

/-- `CANCEL` (R201): cancels a command that has not begun. -/
def execCancel (g : Guard) (d : BitVec 5) (a : Src) (s : State) : Result :=
  let i : Instr := .cancel g d a
  s.onPath fun c => s.once c i g false [] fun s _ =>
    match s.handleTag c (c.kop a) with
    | none => s.trapAt c 8 none
    | some (_, t) =>
      match (if t.kind = 2 then none else s.cmd? t.target) with
      | some k =>
        if k.begun || k.done then s.answer c i d 0
        else
          ((s.modCmd t.target fun k => { k with ended := true, status := 0x11 }).complete t.target).answer c i d 1
      | none => s.answer c i d 0

/-- Tags of a launch on a core, as a mask. -/
def Core.tagMask (K : Core) (l : Nat) : W64 := w64 ((K.tags.map fun e => if e.2.owner == some l then 2 ^ e.1 else 0).sum)

/-- Every tag of a mask may be waited on. -/
def State.maskLegal (s : State) (core : Nat) (m : W64) : Bool :=
  (List.range 64).all fun t => !m.getLsbD t || s.tagLegal core t

/-- What the wait on each of some tags is checked by is read. -/
def State.learnMask (s : State) (core launch : Nat) : List Nat → State × Got
  | [] => (s, .ok [])
  | t :: r =>
    match s.learnTag core t launch with
    | (s', .ok _) =>
      (match State.learnMask s' core launch r with
       | (x, .wait) => (x.keepAnswers s, .wait)
       | x => x)
    | x => x

/-- An acquire at the scope of every copy command that a mask reports (R203) (DEDUCED, assumption 14). -/
def State.acquireTags (s : State) (core : Nat) (m : W64) : State :=
  (List.range 64).foldl (fun s t =>
    let g := get tagReset (s.core core).tags t
    if m.getLsbD t && g.kind == 0 then
      (match s.cmd? g.target with
       | some k => s.invalidate core k.scope
       | none => s)
    else s) s

/-- `WAITANY` and `WAITALL`: the mask is fixed when the wait issues (DEDUCED, assumption 14). -/
def State.waitTags (s : State) (c : Cur) (i : Instr) (g : Guard) (d : BitVec 5) (a : Src) (enough : W64 → W64 → Bool) : State :=
  let go (s : State) (m : W64) : State :=
    let r := (s.core c.core).trdy c.grp.launch &&& m
    if enough r m then (s.acquireTags c.core r).answer c i d r
    else (s.modPath c.g c.arm fun p => { p with prog := .mask m }).wait c
  match c.path.prog with
  | .mask m => go s m
  | _ => s.once c i g false [] fun s _ =>
    let m := c.kop a &&& (s.core c.core).tagMask c.grp.launch
    if m = 0 then s.answer c i d 0
    else
      match s.learnMask c.core c.grp.launch ((List.range 64).filter fun t => m.getLsbD t) with
      | (s, .ok _) => if !s.maskLegal c.core m then s.trapAt c 2 none else go s m
      | (s, _) => s.park c

/-- `WAITANY` (R201): waits until any masked allocated tag is ready. -/
def execWaitany (g : Guard) (d : BitVec 5) (a : Src) (s : State) : Result :=
  s.onPath fun c => s.waitTags c (.waitany g d a) g d a fun r _ => r != 0
/-- `WAITALL` (R201): waits until all masked allocated tags are ready. -/
def execWaitall (g : Guard) (d : BitVec 5) (a : Src) (s : State) : Result :=
  s.onPath fun c => s.waitTags c (.waitall g d a) g d a fun r m => r == m

/-- `FFR`: the lowest ready tag of a mask, or 64. -/
def execFfr (g : Guard) (d : BitVec 5) (a : Src) (s : State) : Result :=
  let i : Instr := .ffr g d a
  s.onPath fun c => s.once c i g false [] fun s _ =>
    let r := (s.core c.core).trdy c.grp.launch &&& c.kop a
    s.answer c i d (w64 (((List.range 64).find? fun t => r.getLsbD t).getD 64))

/-! ## `LAUNCH` (R331) -/

/-- Hand a launch or graph to a ringmaster: this device's, while its queue has room, or another's, whose answer is the completion.
None while it must wait. -/
def State.handOver (s : State) (addr : Nat) (graph early : Bool) (launch core tag gen : Nat) : Option State :=
  let dom := s.domOf launch
  match homeOf s.fw addr with
  | some (dv, _) =>
    if dv = s.fw.dev then
      if s.ring.queue.length < Config.ringCap then
        some (s.setRing { s.ring with
          queue := s.ring.queue ++
            [{ addr := addr, graph := graph, early := early, dom := dom, issuer := launch, origin := .tag core tag gen }] })
      else none
    else
      (s.sendRemote dv (fun id => .request s.fw.dev id false addr dom 0 { acc := 1, va := addr, field := 0xFFF, late := false, life := lifetime, adm := false } (.launch graph early))
        (.launch core tag gen)).map
        fun r => (r.1.expose dom).modLaunch launch fun L => if early then L else { L with told := (dv, r.2) :: L.told }
  | none => some s

/-- A `LAUNCH` that holds its tag: its release, and then the hand-over. -/
def State.launchOn (s : State) (c : Cur) (i : Instr) (tag gen mark : Nat) : State :=
  if !s.relDone c.g c.path.allLanes mark .dev then s.park c
  else
    let t := get tagReset (s.core c.core).tags tag
    match (s.releaseAt c.core .dev).handOver t.target t.graph t.early c.grp.launch c.core tag gen with
    | some s => s.advance c i
    | none => s.park c

/-- `LAUNCH` (R331): drains, binds a tag, releases and hands a launch record or graph node to the ringmaster. -/
def execLaunch (g : Guard) (graph early : Bool) (d a : BitVec 5) (s : State) : Result :=
  let i : Instr := .launch g graph early d a
  s.onPath fun c =>
    match c.path.prog with
    | .launch tag gen mark => s.launchOn c i tag gen mark
    | _ => s.engine c i g true fun s =>
      let ka := (c.grp.kr a).toNat
      s.aligned c [(ka, if graph then 64 else 128)] <|
        if (s.coreCheck c.core c.grp.launch 1 ka).isNone then s.trapAt c 4 (some (w64 ka))
        else
          let s' := s.takeTag c
            { id := s.ids, block := c.grp.block, dom := s.domOf c.grp.launch, launch := c.grp.launch, grp := c.g, arm := c.arm
              d := d, len := 8, cmd := none, graph := graph, early := early, target := ka }
          match (s'.pathOf c.g c.arm).prog with
          | .launch tag gen mark => s'.launchOn c i tag gen mark
          | _ => s'

/-- `LAUNCH_QUEUE_HANDOFF`: the `LAUNCH` that has waited longest hands over its record once there is room (DEDUCED, assumption 13). -/
def execLaunchQueueHandoff (s : State) : Result :=
  .next <|
    let ws : List (Nat × Nat × Nat) := s.groups.flatMap fun e => (List.range e.2.arms.length).filterMap fun a =>
      match (e.2.armOf a).prog with
      | .launch _ _ mark => if s.relDone e.1 (e.2.armOf a).allLanes mark .dev then some (mark, e.1, a) else none
      | _ => none
    match (ws.insertionSort fun x y => x.1 ≤ y.1).head? with
    | some (_, g, a) =>
      (match s.path? g a with
       | some c =>
         (match c.path.prog with
          | .launch tag gen _ =>
            let t := get tagReset (s.core c.core).tags tag
            (match (s.releaseAt c.core .dev).handOver t.target t.graph t.early c.grp.launch c.core tag gen with
             | some s => s.goto c (c.path.pc + 8)
             | none => s)
          | _ => s)
       | none => s)
    | none => s

end Sys2Proof.Machine
end

