-- ==== Sys2Proof/Machine/Engines.lean ====
section
/-!
DEFINITION. The engines at work: the copy engine's chunks and the slice streams (R186 to R196, R295 to R297), the matrix engine's steps
(R181 to R185), and the completion of commands (R199).
-/

namespace Sys2Proof.Machine

/-! ## Accesses of a command -/

def Cmd.who (c : Cmd) (id : Nat) : Who := { key := [3, id], core := some c.core, launch := c.launch, dom := c.dom }

/-- The first byte of a local range that the block has not. -/
def State.firstOut (s : State) (block a n : Nat) : Nat :=
  a + ((List.range n).find? fun i => (s.localAt block (a + i) 1).isNone).getD 0

/-- A global access of a command is late where its request has come to be so while it waited, and may have been late otherwise, as its slack
allows (R303, R305, R308); the first such is remembered (R309) (DESIGN CHOICE, assumption 54). -/
def State.mayBeLate (s : State) (id addr : Nat) (held : Bool) : State :=
  match s.cmd? id with
  | some c =>
    if c.entry = 0xFFF || c.lateAt.isSome then s
    else if held || c.entry = 0 || s.pick 2 = 1 then s.next.modCmd id fun c => { c with lateAt := some (w64 addr) }
    else s.next
  | none => s

/-- A poisoned word ends what has been read for a command (R194) (DESIGN CHOICE, assumption 11). -/
def State.cmdClean (s : State) (a : Nat) (b : List Byte) : State × Got :=
  if !b.isEmpty && s.isBadMem a b.length then (s, .fail 0x12 (s.badAddr a b.length)) else (s, .ok b)

/-- Read for a command, from the block's local memory or the global space (DESIGN CHOICE, assumption 11). -/
def State.cmdLook (s : State) (id : Nat) (c : Cmd) (loc : Bool) (a n : Nat) : State × Got :=
  if loc then
    match s.localAt c.block a n with
    | some (k, b) => (s, .ok (s.lmRead k b n))
    | none => (s, .fail 4 (s.firstOut c.block a n))
  else
    match s.syncRead (c.who id) 5 a n with
    | (s, .ok b) => s.cmdClean a b
    | x => x

/-- The same outside a stream (DEDUCED, assumption 51). -/
def State.cmdRead (s : State) (id : Nat) (c : Cmd) (loc : Bool) (a n : Nat) : State × Got :=
  match s.cmdLook id c loc a n with
  | (s', .ok b) => (if loc then s' else s'.mayBeLate id a (s.heldLate [3, id]), .ok b)
  | x => x

/-- Read `n` of `all` bytes that a command reads in a page: what stands on another device comes in one message for the page (R316)
(DEDUCED, assumption 41). -/
def State.cmdFetch (s : State) (id : Nat) (c : Cmd) (loc : Bool) (a n all : Nat) : State × Got :=
  if loc || (homeOf s.fw a).all fun d => d.1 == s.fw.dev then s.cmdRead id c loc a n
  else
    let has (x : Nat × List Byte) : Bool := x.1 ≤ a && a + n ≤ x.1 + x.2.length
    match c.got.filter has with
    | some x => s.cmdClean a ((x.2.drop (a - x.1)).take n)
    | none =>
      match s.syncRead (c.who id) 5 a (max n all) with
      | (s', .ok b) =>
        ((s'.mayBeLate id a (s.heldLate [3, id])).modCmd id fun c => { c with got := some (a, b) }).cmdClean a (b.take n)
      | x => x

/-- Reads of `n` bytes each, gathered. -/
def State.cmdGather (s : State) (id : Nat) (c : Cmd) (loc : Bool) (n : Nat) : List Nat → State × Got
  | [] => (s, .ok [])
  | a :: r =>
    match s.cmdRead id c loc a n with
    | (s, .ok b) =>
      (match State.cmdGather s id c loc n r with
       | (s, .ok b') => (s, .ok (b ++ b'))
       | x => x)
    | x => x

/-- The same, with each address read once. -/
def State.cmdReads (s : State) (id : Nat) (c : Cmd) (loc : Bool) (n : Nat) (l : List Nat) : State × Got :=
  let u := l.eraseDups
  match s.cmdGather id c loc n u with
  | (s, .ok b) => (s, .ok (l.flatMap fun a => (b.drop (n * u.idxOf a)).take n))
  | x => x

/-- Bytes of a message that have not been given to it yet. -/
def unsent : FlitBody → Nat
  | .message _ _ _ _ _ _ _ _ total b => total - b.length
  | _ => 0

/-- The message of a command that goes on at an address. -/
def State.openMsg (s : State) (id a : Nat) : Option (Nat × RemReq) :=
  s.fab.reqs.find? fun e =>
    match e.2.for_, e.2.body with
    | .command i x, .message _ _ _ _ _ _ _ _ total b => i == id && x + b.length == a && b.length < total
    | _, _ => false

/-- Further bytes of a message are sent, unless it has been answered negatively and will be sent anew. -/
def State.growMsg (s : State) (r : Nat) (q : RemReq) (x : List Byte) : State :=
  match q.body with
  | .message src i phys addr dom key c off total b =>
    let s := s.setFab { s.fab with
      reqs := put s.fab.reqs r { q with body := .message src i phys addr dom key c off total (b ++ x), sentAt := s.now } }
    if q.done.isSome then s
    else s.sendAll q.dest
      (.message src i phys (addr + b.length) dom key { c with va := c.va + b.length } (off + b.length) total x) q.link
  | _ => s

/-- Write bytes of a command within one page: to local memory, at a home, or by a message to another device, which covers what the command
writes in the page, `all` bytes from here on (R316) (DESIGN CHOICE, assumption 11; DEDUCED, assumption 41). -/
def State.cmdPut (s : State) (id : Nat) (c : Cmd) (loc : Bool) (a all : Nat) (b : List Byte) : State × Got :=
  if loc then
    match s.localAt c.block a b.length with
    | some (k, x) => (s.modCore k fun K => K.deliver x b, .ok [])
    | none => (s, .fail 4 (s.firstOut c.block a b.length))
  else
    match homeOf s.fw a with
    | some (dv, _) =>
      if dv = s.fw.dev then s.syncWrite (c.who id) 6 a b
      else if s.ownsAny (c.who id) a b.length then
        (s.sendKept (coreSector c.core) fun x => lineOf a ≤ x && x < a + b.length, .wait)
      else
        (match s.coreCheck c.core c.launch 6 a with
         | none => (s, .fail 4 a)
         | some key =>
           let s' := (s.expose c.dom).dropLines1 c.core a b.length
           match s.openMsg id a with
           | some (r, q) => if s.noRoom dv 2 then (s, .wait) else (s'.growMsg r q b, .ok [])
           | none =>
             let f := s.aged c.entry
             (match s'.sendRemote dv (fun r => .message s.fw.dev r false a c.dom key.toNat
                 { acc := 6, va := a, field := f, late := f == 0, life := lifetime, adm := false } 0 (max all b.length) b) (.command id a)
                 (get 0 (s.core c.core).reloads c.dom) with
              | some (s, r) => (s.modCmd id fun c => { c with msgs := c.msgs ++ [r] }, .ok [])
              | none => (s, .wait)))
    | none => (s, .fail 4 a)

/-- The same outside a stream (DEDUCED, assumption 51). -/
def State.cmdWrite (s : State) (id : Nat) (c : Cmd) (loc : Bool) (a all : Nat) (b : List Byte) : State × Got :=
  match s.cmdPut id c loc a all b with
  | (s', .ok x) => (if loc then s' else s'.mayBeLate id a (s.heldLate [3, id]), .ok x)
  | x => x

def State.cmdWrites (s : State) (id : Nat) (c : Cmd) (loc : Bool) : List (Nat × List Byte) → State × Got
  | [] => (s, .ok [])
  | q :: r =>
    match s.cmdWrite id c loc q.1 0 q.2 with
    | (s, .ok _) => State.cmdWrites s id c loc r
    | x => x

/-- How one unit of a command's work ends: done, with what it adds to the progress and the bytes written. -/
inductive UnitEnd where
  | wait
  | fail (code : Byte) (addr : Nat)
  | ok (n w : Nat)
deriving DecidableEq, Repr

def UnitEnd.of (g : Got) (n w : Nat) : UnitEnd :=
  match g with
  | .wait => .wait
  | .fail c a => .fail c a
  | .ok _ => .ok n w

/-- Bytes to the end of a page. -/
def toPageEnd (loc : Bool) (a : Nat) : Nat := if loc then 4096 else 65536 - a % 65536

/-- Where an address stands, so that ranges of one space can be compared. -/
def State.spot (s : State) (block : Nat) (loc : Bool) (a : Nat) : Nat :=
  if loc then
    match s.localAt block a 1 with
    | some (k, x) => (k + 1) * 2 ^ 64 + x
    | none => 2 ^ 80 + a
  else a

/-- Bytes of a copy: one whose source stands in the destination's range has no fixed value (R195) (DESIGN CHOICE, assumption 2). -/
def State.mixFree (s : State) (b : List Byte) (src dst len : Nat) : State × List Byte :=
  if rangesMeet src b.length dst len then
    let f := freeBytes s.ids b.length
    (s.next, (List.range b.length).map fun i =>
      if dst ≤ (src + i) / 4 * 4 + 3 && (src + i) / 4 * 4 < dst + len then f.getD i 0 else b.getD i 0)
  else (s, b)

/-! ## Multicast targets (R195) -/

/-- The blocks a `CPM` may deliver to: each named core that holds exactly one block of the launch with room for the data. -/
def State.cpmTargets (s : State) (c : Cmd) (dst len : Nat) (mask : W32) : List (Nat × Nat) :=
  (List.range 32).filterMap fun t =>
    if mask.getLsbD t then
      match s.blocks.filter fun e => e.2.core == 32 * coreSector c.core + t && e.2.launch == c.launch && !e.2.ended with
      | [e] => if dst + len ≤ (s.recOf c.launch).lmem then some (t, e.1) else none
      | _ => none
    else none

/-- Deliver bytes at an offset to every target `on` that still holds its block, which has not ended; one that does not has missed them
(DESIGN CHOICE, assumption 84). -/
def State.cpmDeliver (s : State) (id : Nat) (c : Cmd) (off : Nat) (b : List Byte) (on : Nat → Bool) : State :=
  (c.targets.filter fun t => on t.1).foldl (fun s t =>
    match s.block? t.2 with
    | some B =>
      if B.ended then s.modCmd id fun c => { c with dropped := c.dropped ||| BitVec.twoPow 32 t.1 }
      else if c.dropped.getLsbD t.1 then s
      else s.modCore B.core fun K => K.deliver (B.lbase + off) b
    | none => s.modCmd id fun c => { c with dropped := c.dropped ||| BitVec.twoPow 32 t.1 }) s

/-- `DLVD` of a command that has delivered everything (R200). -/
def Cmd.dlvd (c : Cmd) : W64 :=
  match c.kind with
  | .cpm _ _ _ _ => (c.targets.foldl (fun m t => if c.dropped.getLsbD t.1 then m else m ||| BitVec.twoPow 64 (16 + t.1)) 0)
  | _ => 0

/-! ## `CPYO` and `CPYA` (R189, R190, R196) -/

/-- Byte of an element in a slot: `major` is the row of an A tile or the column of a B tile (R176). -/
def elemByte (t : Ty) (major minor : Nat) : Nat :=
  64 * major + (match t with | .oq4 => minor / 2 | .bf16 | .f16 => 2 * minor | _ => minor)

/-- One element written into a slot. -/
def Quad.setElem (q : Quad) (t : Ty) (slot major minor x : Nat) : Quad :=
  let k := slot * 8192 + elemByte t major minor
  if t = .oq4 then
    let old := (get 0 q.elems k).toNat
    { q with elems := set 0 q.elems k (BitVec.ofNat 8 (if minor % 2 = 0 then old / 16 * 16 + x % 16 else old % 16 + 16 * (x % 16))) }
  else { q with elems := setRange 0 q.elems k (toBytes t.size x) }

/-- Where an element of the window stands in memory: its address and nibble; none outside the extents (R189). -/
def Desc.place (d : Desc) (a first r col : Nat) : Option (Nat × Nat) :=
  let u := if d.trn then col else r - first
  let v := if d.trn then r - first else col
  if (d.mrows != 0 && d.mrows ≤ u) || (d.mcols != 0 && d.mcols ≤ v) then none
  else
    let es : Nat := if d.cstr = 0 then memSize d.mfmt else d.cstr
    let off : Nat := if d.mfmt = .oq4 then v / 2 else es * v
    some ((BitVec.ofInt 64 ((a : Int) + d.rstr * u + off)).toNat, v % 2)

/-- An element read under one format and written under another (R190). -/
def convElem (m t : Ty) (x : Nat) : Nat := if m = t then x else t.fmt.round .rn (m.fmt.decode x)

/-- The element columns of one row, each with its slot, major and minor index. -/
def Desc.cols (d : Desc) (ks r : Nat) : List (Nat × Nat × Nat × Nat) :=
  let w := tileK d.tfmt
  if d.role = 0 then (List.range ((d.nsl + 1) * w)).map fun c => (c, ks + c / w, r, c % w)
  else (List.range 128).map fun c => (c, ks + r / w, c, r % w)

/-- Rows of a window that are written together: the two whose elements share the bytes of an OQ4 tile of role B (R141, R182). -/
def Desc.rowsAt (d : Desc) (r : Nat) : List Nat := if d.tfmt == .oq4 && d.role == 1 then [r, r + 1] else [r]

/-- Rows of a `CPYO` window. -/
def State.cpyoRows (s : State) (id : Nat) (c : Cmd) (d : Desc) (a ks first : Nat) (rows : List Nat) : State × UnitEnd :=
  let els := rows.flatMap fun r => (d.cols ks r).map fun q => (d.place a first r q.1, q.2)
  let n := memSize d.mfmt
  match s.cmdReads id c d.loc n (els.filterMap fun q => q.1.map Prod.fst) with
  | (s, .ok b) =>
    let step (acc : Quad × Nat) (q : Option (Nat × Nat) × Nat × Nat × Nat) : Quad × Nat :=
      match q.1 with
      | none => (acc.1.setElem d.tfmt q.2.1 q.2.2.1 q.2.2.2 0, acc.2)
      | some (_, nib) =>
        let x := ofBytes ((b.drop (n * acc.2)).take n)
        let x := if d.mfmt = .oq4 then x / 16 ^ nib % 16 else x
        (acc.1.setElem d.tfmt q.2.1 q.2.2.1 q.2.2.2 (convElem d.mfmt d.tfmt x), acc.2 + 1)
    (s.modQuad (coreQuad c.core) fun q => (els.foldl step (q, 0)).1, .ok rows.length (els.length * max 1 d.tfmt.size))
  | (s, g) => (s, .of g 0 0)

/-- The scale bytes a `CPYO` writes: where each stands and where it comes from. -/
def Desc.scales (d : Desc) (a ks first count : Nat) : List (Nat × Nat) :=
  let at_ (x : Nat) : Nat := (BitVec.ofInt 64 ((a : Int) + d.scoff + (x : Nat))).toNat
  if d.role = 0 then
    (List.range (d.nsl + 1)).flatMap fun t => (List.range count).map fun i =>
      ((ks + t) * 128 + first + i, at_ (d.scstr * t + i))
  else
    let w := tileK d.tfmt
    (List.range ((first + count - 1) / w + 1 - first / w)).flatMap fun t => (List.range 128).map fun j =>
      ((ks + first / w + t) * 128 + j, at_ (d.scstr * (first / w + t) + j))

def State.cpyoScales (s : State) (id : Nat) (c : Cmd) (d : Desc) (a ks first count : Nat) : State × UnitEnd :=
  let l := d.scales a ks first count
  match (if d.scen then s.cmdReads id c d.loc 1 (l.map Prod.snd) else (s, .ok (List.replicate l.length 0x7F))) with
  | (s, .ok b) =>
    (s.modQuad (coreQuad c.core) fun q =>
      { q with scales := ((l.map Prod.fst).zip b).foldl (fun t kb => set 0x7F t kb.1 kb.2) q.scales }, .ok 1 l.length)
  | (s, g) => (s, .of g 0 0)

/-- Bytes of a canonical image that a command reads. -/
def CmdKind.imageLen : CmdKind → Nat
  | .cpyo _ _ _ _ desc => 8320 * ((descOf desc.toNat).nsl + 1)
  | _ => 0

/-- A piece of a canonical image (R189). -/
def State.cpyoImage (s : State) (id : Nat) (c : Cmd) (d : Desc) (a ks : Nat) : State × UnitEnd :=
  let slot := ks + c.pos / 8320
  let o := c.pos % 8320
  let src := (a + c.pos) % 2 ^ 64
  let n := min (min 4096 (toPageEnd d.loc src)) (if o < 8192 then 8192 - o else 8320 - o)
  match s.cmdFetch id c d.loc src n (min (c.kind.imageLen - c.pos) (toPageEnd d.loc src)) with
  | (s, .ok b) =>
    (s.modQuad (coreQuad c.core) fun q =>
      if o < 8192 then { q with elems := setRange 0 q.elems (slot * 8192 + o) b }
      else { q with scales := setRange 0x7F q.scales (slot * 128 + (o - 8192)) b }, .ok n n)
  | (s, g) => (s, .of g 0 0)

def Quad.acc (q : Quad) (t i j : Nat) : W32 := get 0 q.tiles (t * 16384 + 128 * i + j)

/-- Elements of one block of 32 columns as `CPYA` writes them (R190, R150). -/
def cpyaOut (m : Ty) (vals : List Fp) : List Nat :=
  match m with
  | .f32 => vals.map fun x => fmt32.round .rn x
  | .i8 => narrowEf .int8 vals
  | m => narrowEf (.flt m.fmt) vals

/-- Of several writes to one address the last stands (DESIGN CHOICE, assumption 81). -/
def lastWrites (l : List (Nat × List Byte)) : List (Nat × List Byte) :=
  l.reverse.foldl (fun acc q => if acc.any fun x => x.1 == q.1 then acc else q :: acc) []

/-- One block of 32 columns of one row of a `CPYA`. -/
def State.cpyaBlock (s : State) (id : Nat) (c : Cmd) (d : Desc) (a tile first : Nat) : State × UnitEnd :=
  let i := first + c.pos / 4
  let j0 := 32 * (c.pos % 4)
  let cols := ((List.range 32).map fun j => j0 + j).filterMap fun j => (d.place a first i j).map fun p => (j, p.1)
  let sc := (BitVec.ofInt 64 ((a : Int) + d.scoff + ((i - first : Nat) : Int))).toNat
  match (if d.scen then s.cmdRead id c d.loc sc 1 else (s, .ok [0x7F])) with
  | (s, .ok b) =>
    let q := s.quad (coreQuad c.core)
    let vals := cols.map fun p => (fmt32.decode (q.acc tile i p.1).toNat).mul (scaleOf (ofBytes b))
    let n := memSize d.mfmt
    (match s.cmdWrites id c d.loc (lastWrites ((cols.zip (cpyaOut d.mfmt vals)).map fun x => (x.1.2, toBytes n x.2))) with
     | (s, g) => (s, .of g 1 (n * cols.length)))
  | (s, g) => (s, .of g 0 0)

/-! ## Units of work -/

/-- What a command counts its progress up to. -/
def CmdKind.total : CmdKind → Nat
  | .cpy _ _ len _ _ => len
  | .cpg _ _ _ count len _ _ _ => count * len
  | .cpm _ _ len _ => len
  | .cpyr _ _ _ len _ => len
  | .cpyo _ _ _ count desc =>
    let d := descOf desc.toNat
    if d.canon then 8320 * (d.nsl + 1) else count + 1
  | .cpya _ _ _ count _ => 4 * count
  | .mloop _ _ _ _ _ steps _ _ _ => steps
  | _ => 1

/-- Bytes from an address that a command with `n` left reads or writes in its page. -/
def inPage (loc : Bool) (a n : Nat) : Nat := min n (toPageEnd loc a)

/-- The index of a row of a `CPG`, read once for the row (R195). -/
def State.rowIndex (s : State) (id : Nat) (c : Cmd) (il : Bool) (row a : Nat) : State × Got :=
  match c.row with
  | some (r, x) =>
    if r = row then (s, .ok (toBytes 4 x)) else s.cmdRead id c il a 4
  | none => s.cmdRead id c il a 4

/-- One unit of a copy command's work, from where it stands; a row of a `CPG` that is not 4-aligned ends it with 0x06
(DEDUCED, assumption 72). -/
def State.cmdUnit (s : State) (id : Nat) (c : Cmd) : State × UnitEnd :=
  let add (a : W64) (n : Nat) : Nat := (a.toNat + n) % 2 ^ 64
  match c.kind with
  | .cpy dst src len dl sl =>
    let a := add dst c.pos
    let b := add src c.pos
    let n := min (min 4096 (len - c.pos)) (min (toPageEnd dl a) (toPageEnd sl b))
    (match s.cmdFetch id c sl b n (inPage sl b (len - c.pos)) with
     | (s, .ok x) =>
       let y := s.mixFree x (s.spot c.block sl src.toNat + c.pos) (s.spot c.block dl dst.toNat) len
       (match y.1.cmdWrite id c dl a (inPage dl a (len - c.pos)) y.2 with
        | (s, g) => (s, .of g n n))
     | (s, g) => (s, .of g 0 0))
  | .cpg dst src idx count len dl sl il =>
    (match s.rowIndex id c il (c.pos / len) (add idx (4 * (c.pos / len))) with
     | (s, .ok x) =>
       let s := s.modCmd id fun c => { c with row := some (c.pos / len, ofBytes x) }
       let off := ofBytes x * len + c.pos % len
       let a := add dst c.pos
       let b := add src off
       let n := min (min 4096 (len - c.pos % len)) (min (toPageEnd dl a) (toPageEnd sl b))
       if b % 4 != 0 then (s, .fail 6 b) else if a % 4 != 0 then (s, .fail 6 a) else
       (match s.cmdFetch id c sl b n (inPage sl b (len - c.pos % len)) with
        | (s, .ok x) =>
          let y := s.mixFree x (s.spot c.block sl b) (s.spot c.block dl dst.toNat) (count * len)
          (match y.1.cmdWrite id c dl a (inPage dl a (count * len - c.pos)) y.2 with
           | (s, g) => (s, .of g n n))
        | (s, g) => (s, .of g 0 0))
     | (s, g) => (s, .of g 0 0))
  | .cpm dst src len _ =>
    let b := add src c.pos
    let n := min (min 4096 (len - c.pos)) (toPageEnd false b)
    (match s.cmdFetch id c false b n (inPage false b (len - c.pos)) with
     | (s, .ok x) => (s.cpmDeliver id c (dst.toNat + c.pos) x fun _ => true, .ok n n)
     | (s, g) => (s, .of g 0 0))
  | .cpyr t dst src len sl =>
    let b := add src c.pos
    (match s.cmdFetch id c sl b t.size (inPage sl b (len - c.pos)) with
     | (s, .ok x) =>
       (match s.sync (c.who id) 3 (add dst c.pos) (.atom .add t (w64 (ofBytes x)) 0) with
        | (s', .ok _) => (s'.mayBeLate id (add dst c.pos) (s.heldLate [3, id]), .ok t.size t.size)
        | (s, g) => (s, .of g 0 0))
     | (s, g) => (s, .of g 0 0))
  | .cpyo a ks first count desc =>
    let d := descOf desc.toNat
    if d.canon then s.cpyoImage id c d a.toNat ks
    else if c.pos < count then s.cpyoRows id c d a.toNat ks first (d.rowsAt (first + c.pos))
    else s.cpyoScales id c d a.toNat ks first count
  | .cpya a tile first _ desc => s.cpyaBlock id c (descOf desc.toNat) a.toNat tile first
  | _ => (s, .ok 1 0)

/-! ## Chunks (R186) -/

/-- A command ends with a status; a poisoned word is then consumed (R194, R351). -/
def State.endCmd (s : State) (id : Nat) (code : Byte) (addr : Nat) : State :=
  match s.cmd? id with
  | none => s
  | some c =>
    let s := s.modCmd id fun c => { c with ended := true, status := code.zeroExtend 64, taddr := w64 addr }
    if code = 0x12 then s.consume c.grp [] [addr / 4 * 4] c.pc else s

/-- A command has made its last access. -/
def State.endOk (s : State) (id : Nat) : State := s.modCmd id fun c => { c with ended := true, status := c.dlvd }

/-- The slack a command has left: none for background. -/
def Cmd.left (c : Cmd) (now : Nat) : Option Nat :=
  if c.entry = 0xFFF then none else some (c.entry - (now - c.age) / Config.slackTick)

/-- The chunk under way has `n` bytes left to write. -/
def State.setRoom (s : State) (id n : Nat) : State := s.modCmd id fun c => { c with room := n }

/-- A chunk of a command begins: its domain is charged for it (R335). -/
def State.chunkFor (s : State) (id : Nat) (c : Cmd) : State := if c.room = 0 then (s.charge c.dom 1).setRoom id 4096 else s

/-- Units of one chunk: at most 4 KiB written, or as far as an access waits, where the chunk goes on later. Whether anything was done
(DESIGN CHOICE, assumption 24). -/
def State.runUnits : Nat → State → Nat → Bool → State × Bool
  | 0, s, _, did => (s, did)
  | fuel + 1, s, id, did =>
    match s.cmd? id with
    | none => (s, did)
    | some c =>
      if c.kind.total ≤ c.pos then (s.endOk id, true)
      else
        match s.cmdUnit id c with
        | (s', .wait) => (s'.keepAnswers s, did)
        | (s', .fail code a) => (s'.endCmd id code a, true)
        | (s', .ok n w) =>
          if c.room != 0 && c.room < w then (s.setRoom id 0, true)
          else
            let s' := (s'.chunkFor id c).modCmd id fun c => { c with pos := c.pos + n, room := c.room - w }
            if c.kind.total ≤ c.pos + n then (s'.endOk id, true)
            else if (if c.room = 0 then 4096 else c.room) ≤ w then (s', true)
            else State.runUnits fuel s' id true

/-- Whether the accesses of a command's path older than it are performed at its scope (R194, R283) (DEDUCED, assumption 60). -/
def State.storesDone (s : State) (id : Nat) (c : Cmd) : Bool :=
  (s.grpOf c.grp).accs.all fun a =>
    id ≤ a.id || a.lanes &&& c.lanes == 0 || a.kind == .const || s.performedAt c.grp a c.scope

def State.cmdsDone (s : State) (l : List Nat) : Bool := l.all fun i => (s.cmd? i).all fun k => k.done

/-- The oldest command of a queue that has not completed, if it may begin or go on; none begins while its context is being saved
(R340), none goes on past a chunk while its domain is suspended (R335), and none while its core's turnstile is to be reloaded (R333)
(DEDUCED, assumption 60). -/
def State.head (s : State) (core queue : Nat) : Option (Nat × Cmd) :=
  match s.cmds.find? fun e => e.2.core == core && e.2.queue == queue && !e.2.kind.isTile && !e.2.done with
  | some e =>
    if !e.2.ended && (e.2.begun || (s.ctx e.2.dom).pre.isNone) && s.cmdsDone e.2.after && s.storesDone e.1 e.2
        && (e.2.room != 0 || !s.broke e.2.dom) && !(s.staleTs core).contains e.2.dom then some e
    else none
  | none => none

/-- The order in which a core's queue heads are served: one whose chunk is under way first, the others as a chunk boundary has them. -/
def State.heads (s : State) (core : Nat) : List (Nat × Cmd) :=
  let l := (List.range 4).filterMap fun q => s.head core q
  let old := l.insertionSort fun x y => x.1 ≤ y.1
  let by_ := if 7 ≤ (s.core core).chunks then old
    else old.insertionSort fun x y => (x.2.left s.now).getD 4096 ≤ (y.2.left s.now).getD 4096
  (by_.filter fun e => e.2.room != 0) ++ by_.filter fun e => e.2.room == 0

/-! ## Streams (R295) -/

/-- The source of a command that a slice serves as a stream: a `CPM`'s, or a `CPY`'s that lies in one page. -/
def CmdKind.stream : CmdKind → Option (Nat × Nat)
  | .cpm _ src len _ => some (src.toNat, len)
  | .cpy _ src len _ false => if pageOf src.toNat = pageOf (src.toNat + len - 1) then some (src.toNat, len) else none
  | _ => none

def rangePages (a n : Nat) : List Nat := (List.range (pageOf (a + n - 1) + 1 - pageOf a)).map fun i => pageOf a + i

/-- The tensor id that every line of a range carries, or 0 (R295). -/
def State.objOf (s : State) (a n : Nat) : Nat :=
  let ids := (rangePages a n).map fun p =>
    match homeOf s.fw (p * 65536) with
    | some (_, h) => ((s.leafOf h (p * 65536)).map fun l => leafObj l.2).getD 0
    | none => 0
  if ids.all fun x => x == ids.headD 0 then ids.headD 0 else 0

/-- Whether a range lies in memory of this device, so that its slice can stream it (DESIGN CHOICE, assumption 34). -/
def State.streams (s : State) (a n : Nat) : Bool :=
  (rangePages a n).all fun p =>
    match homeOf s.fw (p * 65536) with
    | some (dv, h) => dv == s.fw.dev && ((s.leafOf h (p * 65536)).map fun l => leafAper l.2 != 3).getD true
    | none => true

/-- The request of a command for a stream goes from its copy engine to the slice (R297), once its read has been checked in each page
(DEDUCED, assumption 34). -/
def State.askStream (s : State) (id : Nat) (c : Cmd) (a n : Nat) : State × Bool :=
  match s.syncAll (c.who id) ((rangePages a n).map fun p => (5, max a (p * 65536) / 4 * 4, .read 4)) with
  | (s, .wait) => (s, false)
  | (s, .fail code x) => (s.endCmd id code x, true)
  | (s, .ok _) =>
    let h := ((homeOf s.fw a).map Prod.snd).getD 0
    let way := (routeTo c.core (get h (s.core c.core).smap h)).tail
    if !s.roomAt way then (s, false)
    else
      let p := syncPacket (c.who id) 5 a (.read 64) 0 h s.fw.dev
      (s.sendPackets [{ p with own := .stream id, smgen := (s.core c.core).smgen, field := c.entry, late := c.entry == 0, age := s.now
                               born := s.now, route := way }], true)

/-- The request of a command reaches the slice: it joins a running stream or opens its own, with the slack that the way has left it (R295,
R297) (DESIGN CHOICE, assumption 34). -/
def State.openStream (s : State) (id : Nat) (c : Cmd) (a n : Nat) (p : Packet) : State :=
  let unit := unitOf s.fw (((homeOf s.fw a).map Prod.snd).getD 0)
  let obj := s.objOf a n
  let req (missed : List Nat) : StreamReq := { cmd := id, missed := missed, field := p.field, since := s.now }
  let fits (st : Stream) : Bool :=
    unitSector st.unit == coreSector c.core && st.src == a && st.len == n && obj != 0 && st.obj == obj && !st.touched
      && st.next * 64 < st.len && st.first.all fun t => s.now ≤ t + Config.ns 200
  match s.net.streams.find? fun e => fits e.2 with
  | some e =>
    let st : Stream := { e.2 with joined := e.2.joined ++ [req ((List.range e.2.next).map fun b => 2 * b)] }
    (s.setNet { s.net with streams := put s.net.streams e.1 st }).next
  | none =>
    let st : Stream := { unit := unit, src := a, len := n, next := 0, first := none, obj := obj, touched := false, joined := [req []] }
    (s.setNet { s.net with streams := put s.net.streams s.ids st }).next

/-- A request for a stream is served by the unit of its home; another sends it back to its engine. -/
def State.serveStream (s : State) (i id : Nat) (p : Packet) : State :=
  let s := s.setNet { s.net with packets := del s.net.packets i }
  match s.cmd? id with
  | some c =>
    (match c.kind.stream with
     | some (a, n) => if s.streams a n then s.openStream id c a n p else s
     | none => s)
  | none => s

/-- Whether a command's bytes come, or are asked for, by a stream. -/
def State.streaming (s : State) (id : Nat) : Bool :=
  s.net.streams.any (fun e => e.2.joined.any fun j => j.cmd == id) || s.net.packets.any fun e => e.2.own == .stream id

/-! ## The copies of a beat (R296, R297, R308) -/

/-- The quads in which a command has targets. -/
def Cmd.quads (c : Cmd) : List Nat :=
  match c.kind with
  | .cpm _ _ _ _ => (c.targets.map fun t => coreQuad (32 * coreSector c.core + t.1)).eraseDups
  | _ => [coreQuad c.core]

/-- The quads of the requests that a copy serves. -/
def State.quadsOf (s : State) (dests : List BeatTo) : List Nat := (dests.flatMap fun t => ((s.cmd? t.cmd).map Cmd.quads).getD []).eraseDups

/-- A copy of a beat for some requests, on its way from a unit: it carries the least of their slacks (R308). -/
def State.beatPacket (s : State) (u sid code src : Nat) (b : List Byte) (dests : List BeatTo) (late : Bool) (way : List Point) : Packet :=
  let f := leastField (dests.map BeatTo.field)
  { landedPacket .none 0 .n64 [] [] 0 s.now with
    home := u, dev := s.fw.dev, field := f, late := late || f == 0, route := way, phase := .beat sid code src b dests }

/-- The copies of a beat that a sector's crossbar sends: one for each quad with a target, for the requests that have one there (R296). -/
def State.atCrossbar (s : State) (sec u sid code src : Nat) (b : List Byte) (dests : List BeatTo) (late : Bool) : List Packet :=
  (s.quadsOf dests).map fun q =>
    s.beatPacket u sid code src b (dests.filter fun t => (s.cmd? t.cmd).any fun c => c.quads.contains q) late [.xbar sec (32 + q % 8)]

/-- The copies of a beat that leave a slice: to the quads of its sector, and to the sector of a request from elsewhere (R296, R299). -/
def State.beatCopies (s : State) (st : Stream) (sid code : Nat) (b : List Byte) (on : List StreamReq) : List Packet :=
  let sec := unitSector st.unit
  let dests (l : List StreamReq) : List BeatTo := l.map fun j => { cmd := j.cmd, field := j.left s.now }
  let secOf (j : StreamReq) : Nat := ((s.cmd? j.cmd).map fun c => coreSector c.core).getD sec
  s.atCrossbar sec st.unit sid code st.src b (dests (on.filter fun j => secOf j == sec)) false
    ++ (on.filter fun j => secOf j != sec).map fun j =>
      s.beatPacket st.unit sid code st.src b (dests [j]) false (secRoute sec (secOf j) 32)

/-- Whether the first queues of some copies have room. -/
def State.roomFor (s : State) (l : List Packet) : Bool := l.all fun p => s.roomAt p.route

/-- What a stream's request misses is its number of the beat, doubled, with 1 added where only what lies in a second page is missing. A copy
of a beat reaches the targets of a command in a quad, whose router copies it to each. What it could not be given is answered. -/
def State.beatTo (s : State) (id quad code src : Nat) (b : List Byte) (late : Bool) : State × Option Nat :=
  match s.cmd? id with
  | none => (s, none)
  | some c =>
    let o := 64 * (code / 2)
    let s := if late && c.lateAt.isNone then s.modCmd id fun c => { c with lateAt := some (w64 (src + o)) } else s
    match c.kind with
    | .cpm dst _ _ _ => (s.cpmDeliver id c (dst.toNat + o) b fun t => coreQuad (32 * coreSector c.core + t) == quad, none)
    | .cpy dst _ len dl _ =>
      let a := (dst.toNat + o) % 2 ^ 64
      let y := s.mixFree b (s.spot c.block false src + o) (s.spot c.block dl dst.toNat) len
      let n := if dl then b.length else min b.length (65536 - a % 65536)
      match (if code % 2 = 1 then (y.1, Got.ok []) else y.1.cmdPut id c dl a (inPage dl a (len - o)) (y.2.take n)) with
      | (s, .wait) => (s, some code)
      | (s, .fail x ad) => (s.endCmd id x ad, none)
      | (s, .ok _) =>
        if n = b.length then (s, none)
        else
          match s.cmdPut id c dl ((a + n) % 2 ^ 64) (len - o - n) (y.2.drop n) with
          | (s, .wait) => (s, some (code / 2 * 2 + 1))
          | (s, .fail x ad) => (s.endCmd id x ad, none)
          | (s, .ok _) => (s, none)
    | _ => (s, none)

/-- Change a request that a stream serves. -/
def State.modServed (s : State) (sid id : Nat) (f : StreamReq → StreamReq) : State :=
  s.setNet { s.net with streams := upd s.net.streams sid fun st => { st with joined := st.joined.map fun j => if j.cmd = id then f j else j } }

/-- Whether a copy of a beat for a command is on its way. -/
def State.beatDue (s : State) (id : Nat) : Bool :=
  s.net.packets.any fun e => match e.2.phase with
    | .beat _ _ _ _ dests => dests.any fun t => t.cmd == id
    | _ => false

/-- What is left of a stream: commands that have everything end; a stream that serves none is gone. -/
def State.trimStream (s : State) (sid : Nat) : State :=
  match look s.net.streams sid with
  | none => s
  | some st =>
    let last := st.len ≤ 64 * st.next
    let has (j : StreamReq) : Bool := last && j.missed.isEmpty && !s.beatDue j.cmd
    let s := st.joined.foldl (fun s j => if has j then
        (if (s.cmd? j.cmd).any fun c => !c.ended then s.endOk j.cmd else s) else s) s
    let left := st.joined.filter fun j => !has j && (s.cmd? j.cmd).any fun c => !c.ended
    s.setNet { s.net with
      streams := if left.isEmpty then del s.net.streams sid else put s.net.streams sid { st with joined := left } }

/-- A copy of a beat reaches the router of a quad: what a request could not be given it misses (DESIGN CHOICE, assumption 24). -/
def State.beatLands (s : State) (i quad sid code src : Nat) (b : List Byte) (dests : List BeatTo) (late : Bool) : State :=
  let s := s.setNet { s.net with packets := del s.net.packets i }
  (dests.foldl (fun (s : State) t =>
    match s.next.beatTo t.cmd quad code src b late with
    | (s, none) => s
    | (s, some m) => s.modServed sid t.cmd fun j => { j with missed := (m :: j.missed).insertionSort fun x y => x ≤ y }) s).trimStream sid

/-- A beat is read for a command of the stream. -/
def State.beatRead (s : State) (st : Stream) (id beat : Nat) : State × Got :=
  match s.cmd? id with
  | some c => s.cmdLook id c false (st.src + 64 * beat) (min 64 (st.len - 64 * beat))
  | none => (s, .ok [])

/-- A beat begins a chunk of 4 KiB for a request: its domain is charged (R335). -/
def State.chargeBeat (s : State) (code : Nat) (on : List StreamReq) : State :=
  if code % 128 = 0 then on.foldl (fun s j => s.charge (s.domOfCmd j.cmd) 1) s else s

/-- Whether a request takes a beat: it stops at a chunk boundary while its domain is suspended, and goes on at one (R186, R335); it takes none
while its core's turnstile is to be reloaded (R333). -/
def State.takesBeat (s : State) (beat : Nat) (j : StreamReq) : Bool :=
  !((s.cmd? j.cmd).any fun c => (s.staleTs c.core).contains c.dom) &&
  if beat % 64 = 0 then !s.broke (s.domOfCmd j.cmd) else !j.missed.contains (2 * (beat / 64 * 64)) || !s.broke (s.domOfCmd j.cmd)

/-- `SLICE_STREAM_BEAT`: the next beat leaves for every command the stream serves, or, when the last has left, the first beat that a
command misses is replayed to it. A command whose domain is suspended misses its beats until it resumes
(DESIGN CHOICE, assumptions 24 and 34). -/
def execSliceStreamBeat (sid : Nat) (s : State) : Result :=
  .next <| match look s.net.streams sid with
    | none => s
    | some st =>
      if 64 * st.next < st.len then
        match st.joined.find? (s.takesBeat st.next) with
        | none => s.trimStream sid
        | some j =>
          let on := st.joined.filter (s.takesBeat st.next)
          if !s.roomFor (s.beatCopies st sid (2 * st.next) [] on) then s
          else
          (match s.beatRead st j.cmd st.next with
           | (s, .wait) => s
           | (s, .fail code x) => (s.endCmd j.cmd code x).trimStream sid
           | (s, .ok b) =>
             let joined := st.joined.map fun j => if on.any (fun x => x.cmd == j.cmd) then j else { j with missed := j.missed ++ [2 * st.next] }
             let s := s.chargeBeat (2 * st.next) on
             let s := s.setNet { s.net with streams := upd s.net.streams sid fun st =>
               { st with next := st.next + 1, first := some (st.first.getD s.now), joined := joined } }
             (s.sendPackets (s.beatCopies st sid (2 * st.next) b on)).trimStream sid)
      else
        let l := st.joined.filter fun j => !j.missed.isEmpty && s.takesBeat (j.missed.headD 0 / 2) { j with missed := j.missed.tail }
        match l[s.pick l.length]? with
        | none => s.trimStream sid
        | some j =>
          let code := j.missed.headD 0
          if !s.roomFor (s.beatCopies st sid code [] [j]) then s
          else
          (match s.next.beatRead st j.cmd (code / 2) with
           | (s, .wait) => s
           | (s, .fail code x) => (s.endCmd j.cmd code x).trimStream sid
           | (s, .ok b) =>
             let s := (s.chargeBeat code [j]).modServed sid j.cmd fun j => { j with missed := j.missed.tail }
             s.sendPackets (s.beatCopies st sid code b [j]))

/-! ## `COPY_CHUNK` -/

/-- A command begins: its reads come after an acquire at its scope (R283), and a multicast's targets are fixed. -/
def State.begin (s : State) (id : Nat) (c : Cmd) : State :=
  let t := match c.kind with
    | .cpm dst _ len mask => s.cpmTargets c dst.toNat len mask
    | _ => []
  (s.invalidate c.core c.scope).modCmd id fun c => { c with begun := true, targets := t }

/-- One head is served; whether it did anything. What a stream brings to a head is its chunk (R186, R295)
(DESIGN CHOICE, assumption 24). -/
def State.serve (s : State) (id : Nat) (c : Cmd) : State × Bool :=
  let s := if c.begun then s else s.begin id c
  let c := (s.cmd? id).getD c
  match c.kind.stream with
  | some (a, n) =>
    if s.streaming id then (s, true)
    else if c.pos = 0 && s.streams a n then s.askStream id c a n
    else State.runUnits 4096 s id false
  | none => State.runUnits 4096 s id false

/-- Heads in turn, until one is served. -/
def State.serveFirst (s : State) : List (Nat × Cmd) → State × Option Nat
  | [] => (s, none)
  | e :: r =>
    match s.serve e.1 e.2 with
    | (s, true) => (s, some e.1)
    | (s, false) => State.serveFirst s r

/-- `COPY_CHUNK`: the engine of a core goes on with a chunk, or at a chunk boundary serves a queue head (DESIGN CHOICE, assumption 24). -/
def execCopyChunk (core : Nat) (s : State) : Result :=
  .next <|
    let l := s.heads core
    let oldest := (l.map Prod.fst).foldl min ((l.map Prod.fst).headD 0)
    match s.serveFirst l with
    | (s, none) => s
    | (s, some id) => s.modCore core fun K => { K with chunks := if id = oldest then 0 else K.chunks + 1 }

/-! ## The matrix engine (R181 to R185) -/

/-- The value of an element of a slot, under a format. -/
def Quad.elem (q : Quad) (t : Ty) (slot major minor : Nat) : Fp :=
  let k := slot * 8192 + elemByte t major minor
  let b := (get 0 q.elems k).toNat
  match t with
  | .oq4 => if minor % 2 = 0 then (oq4Pair b).1 else (oq4Pair b).2
  | .i8 => Fp.ofInt (sx 8 b)
  | t => t.fmt.decode (ofBytes (getRange 0 q.elems k t.size))

def Quad.scale (q : Quad) (slot i : Nat) : Fp := scaleOf (get 0x7F q.scales (slot * 128 + i)).toNat

/-- The step sum of one element (R151). -/
def Quad.stepSum (q : Quad) (fa fb : Ty) (sa sb i j : Nat) : Nat :=
  let x := q.scale sa i
  let y := q.scale sb j
  fmt32.round .rn (sumTerms false ((List.range (tileK fa)).map fun k =>
    ((q.elem fa sa i k).mul x).mul ((q.elem fb sb j k).mul y)))

/-- The accumulator's update by a step sum. -/
def accAdd (old : W32) (x : Nat) : W32 :=
  BitVec.ofNat 32 (fmt32.round .rn ((fmt32.decode old.toNat).add .rn (fmt32.decode x)))

/-- A tile element by element. -/
def Quad.mapTile (q : Quad) (t : Nat) (f : Nat → Nat → W32 → W32) : Quad :=
  { q with
    tiles := setRange 0 q.tiles (t * 16384)
      ((List.range 16384).map fun n => f (n / 128) (n % 128) (get 0 q.tiles (t * 16384 + n))) }

/-- One K-step of an `MLOOP` (R184). -/
def Quad.mstep (q : Quad) (fa fb : Ty) (tile sa sb : Nat) (tri : Option (W64 × W32)) : Quad :=
  q.mapTile tile fun i j old =>
    match tri with
    | none => accAdd old (q.stepSum fa fb sa sb i j)
    | some (g, c) =>
      if g.toInt < (32 * (j / 32) : Nat) - ((32 * (i / 32) + 31 : Nat) : Int) then old
      else if g.toInt < (j : Int) - i then accAdd old c.toNat
      else accAdd old (q.stepSum fa fb sa sb i j)

/-- One step of a tile operation. -/
def State.tileStep (s : State) (c : Cmd) : State :=
  let quad := coreQuad c.core
  match c.kind with
  | .mloop fa fb tile sa sb _ ia ib tri => s.modQuad quad fun q => q.mstep fa fb tile (sa + c.pos * ia) (sb + c.pos * ib) tri
  | .mzero tile => s.modQuad quad fun q => q.mapTile tile fun _ _ _ => 0
  | .mrowsc tile a =>
    let s := s.invalidate c.core .blk
    let w (i : Nat) : W64 :=
      match s.localAt c.block (a.toNat + 4 * i) 4 with
      | some (k, x) => w64 (ofBytes (s.lmRead k x 4))
      | none => 0
    s.modQuad quad fun q => q.mapTile tile fun i _ old => lo32 (fmulR .f32 .rn false (old.zeroExtend 64) (w i))
  | _ => s

/-- The priority an entry has risen to (DEDUCED, assumption 33). -/
def Cmd.prioNow (c : Cmd) : Nat := if c.prio < 2 then min 2 (c.prio + c.waits / 64) else c.prio

/-- A tile operation that reads local memory: its reads come after its path's accesses (R185, R283). -/
def CmdKind.reads : CmdKind → Bool
  | .mrowsc _ _ => true
  | _ => false

/-- `MATRIX_STEP_GRANT`: the waiting entry of highest priority, the oldest of equals, runs its next step (DEDUCED, assumption 33). -/
def execMatrixStepGrant (quad : Nat) (s : State) : Result :=
  .next <|
    let l := (s.quad quad).table.filterMap fun i => (s.cmd? i).map fun c => (i, c)
    let ready := l.filter fun e => !e.2.ended && (e.2.begun || (s.ctx e.2.dom).pre.isNone) && s.cmdsDone e.2.after
      && (!e.2.kind.reads || s.storesDone e.1 e.2)
    match (ready.insertionSort fun x y => y.2.prioNow ≤ x.2.prioNow).head? with
    | none => s
    | some (id, c) =>
      let s := (l.filter fun e => e.1 != id && !e.2.ended).foldl (fun s e => s.modCmd e.1 fun c => { c with waits := c.waits + 1 }) s
      (s.tileStep c).modCmd id fun c =>
        { c with begun := true, pos := c.pos + 1, ended := c.kind.total ≤ c.pos + 1 }

/-! ## `COMMAND_COMPLETION` (R199) -/

/-- A command completes when its accesses are done and its writes are performed at its scope. -/
def execCommandCompletion (id : Nat) (s : State) : Result :=
  .next <| match s.cmd? id with
    | some c =>
      if c.ended && !c.done && c.msgs.isEmpty then (if 8 ≤ c.scope.rank then s.flushHost else s).complete id else s
    | none => s

end Sys2Proof.Machine
end

