-- ==== Sys2Proof/Machine/PathEvents.lean ====
section
/-!
DEFINITION. Events of a path (R39, R59, R62, R74, R75, R123 to R125, R260, R261, R266 to R268): fetching a block and skipping a pad, trap
entry at a path's turn, the starvation timer, replies that land, residual entries that run, and the reads of a `POLL`.
-/

namespace Sys2Proof.Machine

/-! ## Fetch (R74 to R76) -/

def armNo (a : Bool) : Nat := if a then 1 else 0

/-- The key of a fetch block of a launch in an instruction cache. -/
def icKey (launch pc : Nat) : Nat := launch * 2 ^ 58 + pc / 32 * 32

/-- The fetch block at an address, if a core's instruction cache holds it for a launch. -/
def State.icBlock (s : State) (core launch : Nat) (pc : W64) : Option (List Byte) :=
  look (s.core core).icache (icKey launch pc.toNat)

/-- A block is put into a core's instruction cache: another may have to leave, and one must when the cache is full (R1)
(DESIGN CHOICE, assumption 69). -/
def State.fillFetch (s : State) (core key : Nat) (b : List Byte) : State :=
  let s := s.modCore core fun K => { K with icache := put K.icache key b }
  let l := ((s.core core).icache.map Prod.fst).filter fun x => x != key
  match l[s.pick l.length]? with
  | some x =>
    if Config.fetchBlocks ≤ l.length || Config.freeChoice (s.ids + key) % 2 = 1 then
      s.next.modCore core fun K => { K with icache := del K.icache x }
    else s.next
  | none => s

/-- A block fetched for a path's address is put into its core's cache; a refusal is the trap of R75. -/
def State.fetch (s : State) (c : Cur) : State :=
  match s.sync { key := [4, c.g, c.arm], core := some c.core, launch := c.grp.launch, dom := s.domOf c.grp.launch } 4
      (c.path.pc.toNat / 32 * 32) (.read 32) with
  | (s, .wait) => s.park c
  | (s, .fail x _) => s.trapAt c x (some c.path.pc)
  | (s, .ok b) =>
    (s.fillFetch c.core (icKey c.grp.launch c.path.pc.toNat) b).modPath c.g c.arm fun p => { p with st := .ready }

/-- Whether a path could issue: it holds no raised trap, is not saved, and does not stand at its reconvergence point. -/
def Path.open (p : Path) : Bool := p.trap.isNone && p.st != .atRecon && p.st != .held

/-- `FETCH_BLOCK`: a path whose reconvergence still waits for a spilled entry acts on it; else its block is fetched, or a pad is
skipped. -/
def execFetchBlock (grp : Nat) (arm : Bool) (s : State) : Result :=
  .next <| match s.path? grp (armNo arm) with
    | none => s
    | some c =>
      if !c.path.open then s
      else if c.grp.atPoint c.arm then s.settlePath c.g c.arm
      else
        match s.icBlock c.core c.grp.launch c.path.pc with
        | none => s.fetch c
        | some b =>
          if decodeAt b (c.path.pc.toNat % 32) = .pad then
            (s.modPath c.g c.arm fun p => { p with pc := (p.pc &&& ~~~ 31#64) + 32 }).settlePath c.g c.arm
          else s

/-! ## Traps at a path's turn (R124, R125, R266, R267) -/

/-- Exhausted slack is taken at an instruction boundary, outside a handler; that of an access whose path has dissolved by the first path that
reaches one (R309). -/
def Cur.lateDue (c : Cur) : Bool :=
  (c.path.late.isSome || c.grp.owed.isSome) && c.grp.inTrap.isNone && c.path.prog == .none && (match c.path.st with | .waiting _ => false | _ => true)

/-- The failed access of the path that may trap now: a deferred one at once, another behind the older entries and behind a trap that is
taken at a boundary, outside a handler (DEDUCED, assumption 53). -/
def Cur.failing (c : Cur) : Option Access :=
  (c.grp.failedOf c.arm).filter fun a =>
    a.entry.isSome
      || (!((c.grp.residOf c.arm).any fun e => e.id < a.id) && (c.grp.inTrap.isSome || !(c.path.trap.any TrapReq.atBoundary)))

/-- `TRAP_ENTRY`: an access of the path that has failed raises its trap; a raised trap is entered; exhausted slack traps. -/
def execTrapEntry (grp : Nat) (arm : Bool) (s : State) : Result :=
  .next <| match s.path? grp (armNo arm) with
    | none => s
    | some c =>
      match c.failing, c.path.trap with
      | some a, _ => s.failAccess c.g a
      | none, some _ => s.trapEntry c.g c.arm
      | none, none =>
        if c.lateDue then
          (if c.path.late.isSome then s.modPath c.g c.arm fun p => { p with late := none }
           else s.modGroup c.g fun G => { G with owed := none }).raise c.g c.arm
            { cause := 0x0A, detail := 0, tpc := c.path.pc, taddr := c.path.late.or c.grp.owed, resume := c.path.pc, entry := none }
        else s

/-! ## The starvation timer (R37 to R39) -/

/-- The topmost divergence entry whose deferred side has not yet reached the reconvergence PC, with the entries above it. -/
def Path.candidate (p : Path) : Option (Nat × List Nat × List Nat) :=
  let i := (p.stack.takeWhile fun e => ((look p.ents e).map DivE.second).getD true).length
  (p.stack[i]?).map fun e => (e, p.stack.take i, p.stack.drop (i + 1))

/-- Rotation: the running side and the entries above the candidate are set aside; the candidate's deferred side runs. -/
def State.rotate (s : State) (g a e : Nat) (above below : List Nat) : State :=
  let s := s.withdraw g a
  s.modPath g a fun p =>
    match look p.ents e with
    | none => p
    | some d =>
      { p with
        pc := d.other.pc, lanes := d.other.lanes, stack := d.other.stack ++ e :: below, prog := d.other.prog, st := .ready
        ents := put p.ents e { d with other := { pc := p.pc, lanes := p.lanes, stack := above, prog := p.prog } } }

/-- `STARVATION_TIMER_EXPIRY`: a wait that has lasted its period rotates to a candidate, or the timer reloads. -/
def execStarvationTimerExpiry (grp : Nat) (arm : Bool) (s : State) : Result :=
  .next <| match s.path? grp (armNo arm) with
    | none => s
    | some c =>
      match c.path.st with
      | .waiting (some t) =>
        if s.now < t then s
        else
          (match c.path.candidate with
           | none => s.modPath c.g c.arm fun p => { p with st := .waiting (c.grp.due s.now) }
           | some (e, above, below) =>
             (match s.refill c.g c.arm e with
              | (s, .wait) => s
              | (s, .fail x ad) => s.spillTrap c x ad
              | (s, .ok _) => (s.rotate c.g c.arm e above below).settlePath c.g c.arm))
      | _ => s

/-! ## Replies (R59, R260, R266 to R268, R309) -/

def State.dropPacket (s : State) (p : Nat) : State := s.setNet { s.net with packets := del s.net.packets p }

def Group.access? (G : Group) (id : Nat) : Option Access := G.accs.find? fun a => a.id == id

def Group.modAccess (G : Group) (id : Nat) (f : Access → Access) : Group :=
  { G with accs := G.accs.map fun a => if a.id = id then f a else a }

/-- The lanes a packet answers for. -/
def Packet.lanesOf (p : Packet) : Lanes := Sys2Proof.Machine.lanesOf (p.lanes.map LaneReq.lane)

/-- The address of a packet's lowest lane. -/
def Packet.addr (p : Packet) : Nat := (p.lanes.map LaneReq.addr).headD 0

/-- A reply that is marked late counts (R309). -/
def State.replyLate (s : State) (g : Nat) (a : Access) (p : Packet) : State :=
  if p.late then s.countLate g a.arm p.addr a.lanes else s

/-- Whether an access brings one value for all its lanes. -/
def Access.isUniform (a : Access) : Bool := a.vals.length ≤ 1

def Access.badIn (a : Access) (l : Nat) : Bool := if a.isUniform then a.bad != 0 else a.bad.getLsbD l

/-- The values of an access land in its destination, all lanes at once, and its record ends. -/
def Group.landAccess (G : Group) (a : Access) : Group :=
  let G := match a.dst with
    | some d =>
      a.lanes.list.foldl (fun (G : Group) l =>
        G.landDst a.id l a.ty d a.wb (if a.isUniform then ((a.vals.head?).map Prod.snd).getD 0 else get 0 a.vals l) (a.badIn l)) G
    | none => G
  { G with accs := G.accs.filter fun x => x.id != a.id }

/-- Lanes of an access whose condition does not hold yet (R260). -/
def Access.unmet (a : Access) (vals : List (Nat × W64)) : List Nat :=
  (vals.filter fun q => !cmpTy a.cmp a.ty q.2 (get 0 a.cvals q.1)).map Prod.fst

/-- An access has been answered for every lane: its values land, or it waits to trap; the access of a group that has ended is
forgotten. -/
def State.answered (s : State) (g id : Nat) : State :=
  match (s.grpOf g).access? id with
  | none => s
  | some a =>
    if a.waits != 0 then s
    else if (s.grpOf g).arms.isEmpty then s.modGroup g fun G => { G with accs := G.accs.filter fun x => x.id != id }
    else if !a.fails.isEmpty then s
    else
      let s := s.modGroup g fun G => G.landAccess a
      if a.kind = .poll then s.modPath g a.arm fun p => { p with prog := .stage id, st := .ready } else s

/-- The failure of an access in some lanes (R229, R267). -/
def State.failLanes (s : State) (g id : Nat) (cause : Byte) (lanes : List LaneReq) : State :=
  (s.modGroup g fun G => G.modAccess id fun a =>
    { a with
      waits := a.waits &&& ~~~ lanesOf (lanes.map LaneReq.lane)
      fails := lanes.foldl (fun t q => put t q.lane (w64 q.addr)) a.fails
      cause := if a.fails.isEmpty || cause = 4 then cause else a.cause }).answered g id

/-- The poisoned word that a lane has read: the first known as such. -/
def State.poisonedAt (s : State) (a n : Nat) : Nat := if s.isBadMem a n then s.badAddr a n else a / 4 * 4

/-- A poisoned read is entered in the error report, and the registers that it lands in keep the word's address (R268, R353). -/
def State.reportPoison (s : State) (g : Nat) (a : Access) (p : Packet) (bad : Lanes) : State :=
  let l := (p.lanes.filter fun q => bad.getLsbD q.lane).map fun q => (q.lane, s.poisonedAt q.addr p.size)
  let s := l.foldl (fun s q =>
    s.errorRecord (s.domOf (s.grpOf g).launch) 1 0 (slotCore g) q.2 a.pc.toNat (s.grpOf g).launch) s
  match a.dst with
  | some d =>
    if l.isEmpty then s
    else
      let lanes (q : Nat × Nat) : List Nat := if a.isUniform then a.lanes.list else [q.1]
      let at_ := l.flatMap fun q => (lanes q).flatMap fun i => (dstLocs a.ty (get 0 a.wb i) d).map fun x => (i, x.2, q.2)
      s.modGroup g fun G => { G with poisonAt := at_ ++ G.poisonAt.filter fun x => !(at_.any fun y => y.1 == x.1 && y.2.1 == x.2.1) }
  | none => s

/-- A reply with values lands: lanes of a `POLL` whose condition does not hold wait for another read, the rest are answered. -/
def State.landReply (s : State) (pkt g : Nat) (p : Packet) (a : Access) (vals : List (Nat × W64)) (bad : Lanes) : State :=
  let s := (s.replyLate g a p).reportPoison g a p bad
  if a.kind = .poll && bad != 0 then
    (s.dropPacket pkt).consume g [] ((p.lanes.filter fun q => bad.getLsbD q.lane).map fun q => s.poisonedAt q.addr p.size) a.pc
  else
    let again := if a.kind = .poll then a.unmet vals else []
    let met := vals.filter fun q => !again.contains q.1
    let back := p.lanes.filter fun q => again.contains q.lane
    let s :=
      if back.isEmpty then s.dropPacket pkt
      else s.modPacket pkt fun p => { p with lanes := back, phase := .polling (s.now + 4096 * Config.cycle) }
    let done := if p.lanes.isEmpty then lanesOf (vals.map Prod.fst) else p.lanesOf &&& ~~~ lanesOf again
    (s.modGroup g fun G => G.modAccess a.id fun a =>
      { a with
        vals := if a.dst.isSome then met.foldl (fun t q => put t q.1 q.2) a.vals else a.vals
        bad := a.bad ||| bad
        waits := a.waits &&& ~~~ done }).answered g a.id

/-- A local access that has waited at its core is performed: its reply is there (R63, R253, R278). -/
def State.performNear (s : State) (pkt g id : Nat) (p : Packet) : State :=
  if s.nearHeld memOpOf p then s
  else
    match s.nearLanes g id p p.lanes with
    | (s, vals) =>
      let s := if p.acq then s.invalidate p.core p.scope else s
      s.modPacket pkt fun p => { p with phase := .landed (.ok vals 0), lanes := [] }

/-- `REPLY_LANDS`: a final reply has reached its requester; one of a local access that has waited is there once it is performed. -/
def execReplyLands (pkt : Nat) (s : State) : Result :=
  .next <| match s.packet? pkt with
    | none => s
    | some p =>
      match p.phase, p.own with
      | .landed (.ok vals bad), .access g id =>
        let s := s.landAtoms (coreQuad (slotCore g)) fun x => x.grp == g && x.acc == id
        (match (s.grpOf g).access? id with
         | some a => s.landReply pkt g p a vals bad
         | none => s.dropPacket pkt)
      | .landed (.ok _ _), _ => s.dropPacket pkt
      | .near, .access g id => s.performNear pkt g id p
      | _, _ => s

/-! ## `POLL` reads again (R261) -/

/-- Whether the word's home reports that its line has been written since it was read: not one in host memory; what another device reports is
free (DESIGN CHOICE, assumption 36). -/
def State.pollTold (s : State) (p : Packet) : Bool :=
  if p.dev != s.fw.dev then s.pick 2 = 1
  else
    p.told && (match s.leafOf p.home p.addr with
      | some (_, l) => leafAper l != 4
      | none => true)

/-- A request is sent again over the network: its route is found anew. -/
def State.reroute (s : State) (p : Packet) : List Point :=
  if p.dev = s.fw.dev then routeTo p.core (get p.home (s.core p.core).smap p.home) else routeOut p.core (s.pickLink p.dev)

/-- The slack a request of an access starts with (R265). -/
def State.accessSlack (s : State) (g id : Nat) : Nat :=
  match (s.grpOf g).access? id with
  | some a => s.slackField (s.grpOf g).launch a.slk.toNat
  | none => 0xFFF

/-- `POLL_REREAD`: a lane reads its word again, on its home's report or after 4,096 cycles, when its core's queue has room (R306)
(DESIGN CHOICE, assumption 36). -/
def execPollReread (pkt : Nat) (s : State) : Result :=
  .next <| match s.packet? pkt with
    | none => s
    | some p =>
      match p.phase, p.own with
      | .polling until_, .access g id =>
        if s.hasRoom p.core p.lanes && (until_ ≤ s.now || s.pollTold p) then
          let f := s.accessSlack g id
          (s.modPacket pkt fun p =>
            { p with
              phase := .going, route := s.reroute p, field := f, age := s.now, late := f == 0, keyTries := 0
              born := s.now, smgen := (s.core p.core).smgen, told := false, mark := s.acqMark p.core }).next
        else s.next
      | _, _ => s

/-! ## Residual entries run (R62 to R64, R68) -/

/-- The sources of an entry's instruction. -/
def Resid.sources (e : Resid) : List LSrc :=
  match laneOpOf e.instr, memOpOf e.instr with
  | some op, _ => op.srcs
  | _, some op => op.srcs
  | none, none => []

/-- Whether an entry may run: what it waits for has landed, what it follows is done, and it has not failed. A read of a window is held behind
older acquires of its lanes (R253, R274). -/
def Group.satisfied (G : Group) (e : Resid) : Bool :=
  e.landed e.sources && !e.failed
    && (e.after.all fun id => !(G.resid.any fun x => x.id == id) && !(G.issued.any fun x => x.id == id))
    && (match memOpOf e.instr with
        | some op =>
          !op.space.isWin || !G.acqDue e.mask e.id
        | none => true)

/-- An issue turn of the path that holds an entry has been used (R23, R62) (DEDUCED, assumption 62). -/
def State.usedTurn (s : State) (g : Nat) (e : Resid) : State :=
  let G := s.grpOf g
  match (List.range G.arms.length).find? fun a => e.ofPath a (G.armOf a) with
  | some a => s.modPath g a fun p => { p with last := s.tick }
  | none => s

/-- An entry runs. -/
def State.runEntry (s : State) (g : Nat) (e : Resid) : State :=
  match laneOpOf e.instr, memOpOf e.instr with
  | some op, _ => s.runLane g e op
  | _, some op => s.runMem memOpOf g e op
  | none, none => s.modGroup g fun G => { G with resid := G.resid.filter fun x => x.id != e.id }

/-- `RESIDUAL_ENTRY_RUN`. -/
def execResidualEntryRun (grp entry : Nat) (s : State) : Result :=
  .next <| match (s.grpOf grp).resid.find? fun e => e.id == entry with
    | some e => if (s.grpOf grp).satisfied e then (s.usedTurn grp e).runEntry grp e else s
    | none => s

/-- The oldest entry of a path that may run now. -/
def Group.nextEntry (G : Group) (a : Nat) : Option Resid :=
  G.resid.find? fun e => e.ofPath a (G.armOf a) && G.satisfied e

end Sys2Proof.Machine
end

