-- ==== Sys2Proof/Machine/Place.lean ====
section
/-!
DEFINITION. Where blocks stand (R9, R15, R18, R21, R44, R248, R249, R333): room on a core, plans for a gang and for a whole launch, and
making a gang resident.
-/

namespace Sys2Proof.Machine

/-! ## Room (R15) -/

/-- What one block takes of a core: its first quarter, its groups, their quota, its local memory. -/
structure Use where
  core : Nat
  q0 : Nat
  ngrp : Nat
  quota : Nat
  lmem : Nat
deriving DecidableEq, Repr

/-- Groups of a block in a quarter: group g stands in quarter (q0 + g) mod 4. -/
def Use.slots (u : Use) (q : Nat) : Nat := (u.ngrp + 3 - (q + 4 - u.q0) % 4) / 4

def usesOn (l : List Use) (c : Nat) : List Use := l.filter fun u => u.core == c

/-- Whether what stands on one core fits it: slots and registers of each quarter, local memory. -/
def coreFits (l : List Use) : Bool :=
  ((List.range 4).all fun q =>
    (l.map fun u => u.slots q).sum ≤ Config.quarterSlots
      && (l.map fun u => 64 * u.quota * u.slots q).sum ≤ Config.quarterRegs)
    && (l.map Use.lmem).sum ≤ Config.localBytes

/-- What a block of a launch takes at a place. -/
def LRec.use (r : LRec) (p : Nat × Nat) : Use := { core := p.1, q0 := p.2, ngrp := r.ngrp, quota := r.quota, lmem := r.lmem }

/-- First quarters a block of a launch may start in on a core. -/
def LRec.starts (r : LRec) (l : List Use) (c : Nat) : List Nat :=
  (List.range 4).filter fun q0 => coreFits (r.use (c, q0) :: usesOn l c)

/-- Groups of a launch that a quarter of a core could still take. -/
def LRec.spare (r : LRec) (l : List Use) (c q : Nat) : Nat :=
  let on := usesOn l c
  min (Config.quarterSlots - (on.map fun u => u.slots q).sum)
    (if r.quota = 0 then Config.quarterSlots
     else (Config.quarterRegs - (on.map fun u => 64 * u.quota * u.slots q).sum) / (64 * r.quota))

/-- Whether `n` more blocks of a launch fit a core, each from some first quarter: a block has a quarter of its groups, rounded down, in every
quarter, and of the rest one each from its first quarter on. -/
def LRec.fits (r : LRec) (l : List Use) (c n : Nat) : Bool :=
  let left (q : Nat) : Int := (r.spare l c q : Int) - (r.ngrp / 4 * n : Nat)
  let qs := (List.range 4).map left
  (((usesOn l c).map Use.lmem).sum + n * r.lmem ≤ Config.localBytes) && (qs.all fun x => 0 ≤ x)
    && (match r.ngrp % 4 with
        | 0 => true
        | 1 => (n : Int) ≤ qs.sum
        | 2 => (n : Int) ≤ left 0 + left 2 && (n : Int) ≤ left 1 + left 3
        | _ => (qs.map fun x => max 0 ((n : Int) - x)).sum ≤ n)

/-- How many more blocks of a launch fit a core. -/
def LRec.more (r : LRec) (l : List Use) (c : Nat) : Nat :=
  [256, 128, 64, 32, 16, 8, 4, 2, 1].foldl (fun n b => if r.fits l c (n + b) then n + b else n) 0

/-- The first quarter that leaves a core most room (DEDUCED, assumption 61). -/
def LRec.evenStart (r : LRec) (l : List Use) (c : Nat) : Option (Nat × Nat) :=
  let room (q : Nat) : Nat := r.more (r.use (c, q) :: l) c
  match r.starts l c with
  | [] => none
  | q :: qs => some (c, qs.foldl (fun b x => if room b < room x then x else b) q)

/-- Places for a gang in a quad: its cores with most room, so that as many gangs fit as can (R21) (DEDUCED, assumption 61). -/
def LRec.gangIn (r : LRec) (l : List Use) (quad : Nat) : Option (List (Nat × Nat)) :=
  let cs := ((List.range 4).map fun i => 4 * quad + i).filterMap fun c => r.evenStart l c
  if cs.length < r.ngang then none
  else some ((cs.insertionSort fun x y => r.more l y.1 ≤ r.more l x.1).take r.ngang)

/-- Places for a gang in the first quad that has room (DEDUCED, assumption 61). -/
def LRec.gangAny (r : LRec) (l : List Use) : Option (List (Nat × Nat)) := (List.range 96).findSome? fun q => r.gangIn l q

/-- Places for some gangs of a launch beside what stands already. -/
def LRec.plan (r : LRec) : List Nat → List Use → Option (Tab (List (Nat × Nat)))
  | [], _ => some []
  | k :: ks, l =>
    match r.gangAny l with
    | none => none
    | some p => (LRec.plan r ks (p.map r.use ++ l)).map fun t => put t k p

def LRec.gangs (r : LRec) : Nat := r.blocks / r.ngang

/-- Places for a whole launch; none where it does not fit. No device holds more than 98,304 blocks (DEDUCED, assumption 61). -/
def LRec.planAll (r : LRec) (l : List Use) : Option (Tab (List (Nat × Nat))) :=
  if 98304 < r.blocks then none else r.plan (List.range r.gangs) l

/-- Whether a context stands off the cores. -/
def State.away (s : State) (dom : Nat) : Bool := ((s.ctx dom).pre.bind Preempted.saved).isSome

/-- Gangs of a launch that stand on cores. -/
def State.standing (s : State) (l : Nat) : List Nat := (s.gangs.filter fun e => e.2.launch == l).map fun e => e.2.index

def State.blockUse (s : State) (b : Block) : Use :=
  (s.recOf b.launch).use (b.core, ((b.groups.head?).map slotQtr).getD 0)

/-- Cores that are kept from a domain: those reserved for the runtime, whole, from all but its own (R355)
(DESIGN CHOICE, assumption 6). -/
def State.barred (s : State) (dom : Nat) : List Use :=
  if dom = 0 then []
  else s.fw.rtCores.map fun c => { core := c, q0 := 0, ngrp := 4 * Config.quarterSlots, quota := 32, lmem := Config.localBytes }

/-- What stands on the cores for a domain: what is kept from it, resident blocks, gangs committed, and the places reserved for concurrent
launches (R21), but for one gang of one launch. -/
def State.uses (s : State) (dom launch gang : Nat) : List Use :=
  s.barred dom ++ (s.blocks.map fun e => s.blockUse e.2)
    ++ (s.ring.streams.flatMap fun e => if e.2.committed then e.2.plan.map (s.recOf e.2.launch).use else [])
    ++ s.launches.flatMap fun e =>
        if s.away e.2.dom then []
        else
          (e.2.resv.filter fun q =>
            !(s.standing e.1).contains q.1 && !(e.1 == launch && q.1 == gang)
              && !(s.ring.streams.any fun st => st.2.committed && st.2.launch == e.1 && st.2.gang == q.1)).flatMap fun q =>
            q.2.map e.2.lr.use

/-! ## Local memory (R248) -/

/-- A base for `n` bytes between the regions of a core, if one is free (DESIGN CHOICE, assumption 65). -/
def freeBase (regs : List (Nat × Nat)) (n : Nat) : Option Nat :=
  (0 :: regs.map fun r => r.1 + r.2).find? fun b =>
    b + n ≤ Config.localBytes && regs.all fun r => r.2 == 0 || n == 0 || b + n ≤ r.1 || r.1 + r.2 ≤ b

/-- Where a byte of a core's local memory goes when its regions are moved together. -/
def packed (regs : List (Nat × Nat)) (a : Nat) : Nat :=
  let below (x : Nat) : Nat := (regs.map fun r => min r.2 (x - r.1)).sum
  let total := (regs.map Prod.snd).sum
  if regs.any fun r => r.1 ≤ a && a < r.1 + r.2 then below a else total + (a - below a)

def packTab {α : Type} (regs : List (Nat × Nat)) (t : Tab α) : Tab α := t.foldl (fun m e => put m (packed regs e.1) e.2) []

/-- The regions of a core's blocks. -/
def State.regions (s : State) (core : Nat) : List (Nat × Nat) :=
  (s.blocks.filter fun e => e.2.core == core).map fun e => (e.2.lbase, e.2.lsize)

/-- Move the regions of a core together: which bytes of the store a block holds shows nowhere (DESIGN CHOICE, assumption 65). -/
def State.compact (s : State) (core : Nat) : State :=
  let regs := s.regions core
  let s := s.modCore core fun K => { K with lmem := packTab regs K.lmem, stale := [], lown := packTab regs K.lown }
  s.setBlocks (mapv (fun _ b => if b.core = core then { b with lbase := packed regs b.lbase } else b) s.blocks)

/-- A base for a new block's local memory (DESIGN CHOICE, assumption 65). -/
def State.allot (s : State) (core n : Nat) : State × Nat :=
  match freeBase (s.regions core) n with
  | some b => (s, b)
  | none =>
    let s := s.compact core
    (s, (freeBase (s.regions core) n).getD 0)

/-- Bytes of a new block's local memory: those another domain held last read as zero. -/
def Core.handOver (K : Core) (base n dom : Nat) : Core :=
  let inR (a : Nat) : Bool := base ≤ a && a < base + n
  { K with
    lmem := keep (fun a _ => !inR a || (look K.lown a).all fun d => d == dom) K.lmem
    stale := K.stale.filter fun r => !staleMeets base n r
    lown := (List.range n).foldl (fun t i => put t (base + i) dom) K.lown }

/-! ## Making blocks resident (R44, R76, R249, R333) -/

/-- The lowest free slot of a core's quarter. -/
def State.freeSlot (s : State) (core q : Nat) : Nat :=
  256 * core + 64 * q + (((List.range 64).find? fun i => (s.group? (256 * core + 64 * q + i)).isNone).getD 0)

/-- A group as placement makes it. -/
def LRec.newGroup (r : LRec) (launch block grp : Nat) : Group :=
  { groupReset with
    launch := launch, block := block, grp := grp, tvec := r.tvec, quota := r.quota
    arms := [{ pathReset with pc := r.entry, lanes := 0xFFFF }] }

/-- Place the groups of a block, each in its quarter; their device slots. -/
def State.placeGroups (s : State) (core q0 : Nat) : List Group → State × List Nat
  | [] => (s, [])
  | G :: r =>
    let x := s.freeSlot core ((q0 + G.grp) % 4)
    match (s.setGroups (put s.groups x G)).placeGroups core q0 r with
    | (s, l) => (s, x :: l)

/-- A core is made ready for a launch: its first block there finds the instruction and constant caches empty (DEDUCED, assumption 37). -/
def State.greet (s : State) (core launch : Nat) : State :=
  if ((s.launch? launch).map Launch.coresSeen).getD [] |>.contains core then s
  else
    (s.modCore core fun K => { K with icache := [], ccache := [], cbad := [] }).modLaunch launch fun L =>
      { L with coresSeen := core :: L.coresSeen }

/-- The image read for a core's turnstile, as loads of domain 0x0000. -/
def State.readImage (s : State) (core dom : Nat) : State × Got :=
  s.syncRead { key := [7, 13, core, dom, (s.ctx dom).tsGen], core := none, launch := 0, dom := 0 } 1 (bits (s.domRec dom) 0 64) 512

/-- The entries of a domain loaded into a core (DEDUCED, assumption 37). -/
def State.setTs (s : State) (core dom : Nat) (b : List Byte) (reload : Bool) : State :=
  s.modCore core fun K =>
    { K with
      ts := put K.ts dom (tsImage b), tsGen := put K.tsGen dom (s.ctx dom).tsGen
      reloads := if reload then put K.reloads dom (get 0 K.reloads dom + 1) else K.reloads }

/-- Whether a core holds a block of a domain. -/
def State.holdsDom (s : State) (core dom : Nat) : Bool := s.blocks.any fun e => e.2.core == core && s.domOf e.2.launch == dom

/-- Load the turnstiles of some cores that hold no block of a domain; whether all are loaded. An image that cannot be read grants
nothing. -/
def State.loadTs (s : State) (dom : Nat) : List Nat → State × Bool
  | [] => (s, true)
  | c :: r =>
    if s.holdsDom c dom then State.loadTs s dom r
    else
      match s.readImage c dom with
      | (s, .wait) => (s, false)
      | (s, .ok b) => State.loadTs (s.setTs c dom b false) dom r
      | (s, .fail _ _) => State.loadTs (s.setTs c dom [] false) dom r

/-- Block `j` of a gang becomes resident. -/
def State.placeBlock (s : State) (launch gang gid j : Nat) (p : Nat × Nat) : State :=
  let r := s.recOf launch
  let dom := s.domOf launch
  let xyz := r.pointAt (gang * r.ngang + j)
  let id := s.ids
  let s := (s.next).greet p.1 launch
  let s := s.invalidate p.1 .dev
  match s.allot p.1 r.lmem with
  | (s, base) =>
    let s := s.modCore p.1 fun K => K.handOver base r.lmem dom
    match s.placeGroups p.1 p.2 ((List.range r.ngrp).map fun g => r.newGroup launch id g) with
    | (s, slots) =>
      let b : Block :=
        { launch := launch, lin := r.linOf xyz, x := xyz.1, y := xyz.2.1, z := xyz.2.2, core := p.1, gang := gid, gblk := j
          lbase := base, lsize := r.lmem, groups := slots, live := slots, bars := [], ended := false
          paid := s.now }
      let s := s.setBlocks (put s.blocks id b)
      s.modGang gid fun K => { K with blocks := K.blocks ++ [id] }

/-- The blocks of a gang become resident together, in their order. -/
def State.placeBlocks (s : State) (launch gang gid j : Nat) : List (Nat × Nat) → State
  | [] => s
  | p :: r => State.placeBlocks (s.placeBlock launch gang gid j p) launch gang gid (j + 1) r

/-- A gang becomes resident at its places. -/
def State.placeGang (s : State) (launch gang : Nat) (plan : List (Nat × Nat)) : State :=
  let gid := s.ids
  let s := s.next.setGangs (put s.gangs gid
    { launch := launch, index := gang, quad := ((plan.head?).map fun p => coreQuad p.1).getD 0, blocks := [], bars := [] })
  let s := s.placeBlocks launch gang gid 0 plan
  s.modLaunch launch fun L =>
    if L.redo.contains gang then { L with redo := L.redo.erase gang } else { L with pos := L.pos + L.lr.ngang }

end Sys2Proof.Machine
end

