-- ==== Sys2Proof/Machine/Image.lean ====
section
/-!
DEFINITION. Images of contexts (R340, R345, R346): their layout, when one is written, and what a loader accepts.
-/

namespace Sys2Proof.Machine

/-! ## Layout (R345, R346) -/

/-- The header of a context image (DESIGN CHOICE, assumption 28). -/
def imageHeader (total dom dev nsec vt st why : Nat) : List Byte :=
  toBytes 4 0x4E394349 ++ toBytes 2 1 ++ toBytes 2 64 ++ toBytes 8 total ++ toBytes 2 dom ++ toBytes 2 dev ++ toBytes 4 nsec
    ++ toBytes 8 vt ++ toBytes 8 st ++ toBytes 4 why ++ List.replicate 20 0

/-- A section of an image: type, owning launch, unit and slot, and the bytes that follow its header (R346). -/
def sectionOf (type serial unit slot : Nat) (body : List Byte) : List Byte :=
  toBytes 2 type ++ toBytes 2 (if 0x000B ≤ type then 1 else 0) ++ toBytes 4 (32 + body.length) ++ toBytes 8 (serial % 2 ^ 48)
    ++ toBytes 8 unit ++ toBytes 8 slot ++ body

/-- The body of a group's section 0x0005: its residual file, as entries of R350 (DESIGN CHOICE, assumption 28). -/
def Ckpt.residBody (ck : Ckpt) (g : Nat) : List Byte := ((look ck.groups g).map fun G => G.resid.flatMap Resid.image).getD []

/-- The window bindings of a launch record from window `w` on. -/
def winBits (w : Nat) : List (Option (Nat × Nat)) → Nat
  | [] => 0
  | x :: r =>
    (match x with
     | some (off, n) => (2 ^ 36 + off + 2 ^ 19 * (n - 1)) * 2 ^ (722 + 37 * w)
     | none => 0) + winBits (w + 1) r

/-- A launch record by its fields (R325). -/
def LRec.toBits (r : LRec) : Nat :=
  r.entry.toNat + r.tvec.toNat * 2 ^ 64 + r.spbase.toNat * 2 ^ 128 + r.cword.toNat * 2 ^ 192 + r.gnode.toNat * 2 ^ 256
    + r.cbase.toNat * 2 ^ 320 + r.nx * 2 ^ 384 + r.ny * 2 ^ 417 + r.nz * 2 ^ 434 + (r.ngrp - 1) * 2 ^ 451 + (r.ngang - 1) * 2 ^ 457
    + r.order * 2 ^ 459 + (r.swz - 1) * 2 ^ 461 + r.pclass * 2 ^ 467 + r.sys.toNat * 2 ^ 469 + (r.quota - 32) / 8 * 2 ^ 470
    + r.opp * 2 ^ 474 + r.idem.toNat * 2 ^ 478 + r.lmem * 2 ^ 479 + r.spsize * 2 ^ 498
    + (((List.range 16).zip r.slack).map fun e => e.2 * 2 ^ (530 + 12 * e.1)).sum + winBits 0 r.cwin

/-- The body of a launch's section 0x0001: its record, and of its admission order and its blocks bytes that are laid out nowhere
(DESIGN CHOICE, assumption 28). -/
def Ckpt.launchBody (ck : Ckpt) (l id : Nat) : List Byte :=
  ((look ck.launches l).map fun L => toBytes 128 L.lr.toBits).getD [] ++ freeBytes id 32

/-- The sections that a checkpoint's image holds; what a section's body holds beyond its header is laid out for the launch record and the
residual file alone (R346, R350) (DESIGN CHOICE, assumption 28). -/
def Ckpt.sections (ck : Ckpt) (id : Nat) : List (List Byte) :=
  let open_ (n : Nat) : List Byte := freeBytes (id + 2 ^ 64 * n) (16 * (Config.freeChoice (id + 2 ^ 64 * n) % 65536))
  let lin (G : Group) : Nat := ((look ck.blocks G.block).map Block.lin).getD 0
  let a := ck.launches.flatMap fun e => [(0x0001, e.1, 0, 0), (0x0008, e.1, 0, 0)]
  let b := ck.blocks.flatMap fun e =>
    [(0x0002, e.2.launch, e.2.lin, 0), (0x0003, e.2.launch, e.2.lin, 0), (0x0007, e.2.launch, e.2.lin, 0)]
  let c := ck.groups.flatMap fun e =>
    let u := lin e.2 + e.2.grp * 2 ^ 32
    [(0x0004, e.2.launch, u, e.1), (0x0005, e.2.launch, u, e.1), (0x0006, e.2.launch, u, e.1)]
  let l := a ++ b ++ c ++ [(0x0009, 0, 0, 0), (0x000A, 0, 0, 0), (0x000B, 0, 0, 0), (0x000C, 0, 0, 0)]
  (l.zip (List.range l.length)).map fun x =>
    sectionOf x.1.1 x.1.2.1 x.1.2.2.1 x.1.2.2.2
      (if x.1.1 = 0x0005 then ck.residBody x.1.2.2.2
       else if x.1.1 = 0x0001 then ck.launchBody x.1.2.1 (id + 2 ^ 64 * x.2)
       else open_ x.2)

/-- The image of a context is written to `IMGBASE`; whether that is done. What it leaves open is drawn at `since`
(DESIGN CHOICE, assumption 28). -/
def State.writeImage (s : State) (d : Nat) (ck : Ckpt) (why since : Nat) : State × Bool :=
  let c := s.ctx d
  let secs := ck.sections since
  let body := secs.flatten
  let img := imageHeader (64 + body.length) d s.fw.dev secs.length (c.vtime / 7) (c.stolen / 7) why ++ body
  match s.devPut [d, 1] (bits (s.domRec d) 384 64) img with
  | (s, true) => (s.modCtx d fun c => { c with pre := c.pre.map fun p => { p with imaged := true } }, true)
  | x => x

/-! ## Banks that another context needs (R340) -/

/-- What a context that was rolled back still holds on the cores: its registers stay in their banks until another needs them. -/
def State.keptUses (s : State) (d : Nat) : List Use :=
  match (s.ctx d).pre with
  | some { saved := some ck, imaged := false, .. } =>
    if ck.groups.any fun e => e.2.preempt.isSome then [] else ck.blocks.map fun e => s.blockUse e.2
  | _ => []

/-- Whether what is placed on some cores, as `t` has it, needs banks that a context holds. -/
def State.needsBanks (s t : State) (d : Nat) (cores : List Nat) : Bool :=
  let kept := s.ctxs.flatMap fun e => s.keptUses e.1
  cores.any fun c => (s.keptUses d).any (fun u => u.core == c) && !coreFits (usesOn (t.uses 0 0 0 ++ kept) c)

/-- The contexts, of those listed, whose banks are needed are written to their images first; whether that is done (R340)
(DESIGN CHOICE, assumption 28). -/
def State.clearBanks (s t : State) (dom : Nat) (cores : List Nat) : List Nat → State × Bool
  | [] => (s, true)
  | d :: r =>
    match (s.ctx d).pre with
    | some { saved := some ck, since := since, .. } =>
      if d = dom || !s.needsBanks t d cores then State.clearBanks s t dom cores r
      else
        match s.writeImage d ck 1 since with
        | (s, false) => (s, false)
        | (s, true) => State.clearBanks s t dom cores r
    | _ => State.clearBanks s t dom cores r

/-! ## What a loader accepts (R346) -/

/-- The device's own reads of an image. -/
def imageWho (d : Nat) : Who := { key := [7, 14, d], core := none, launch := 0, dom := 0 }

/-- Whether a loader takes a section by its header: one of a known type, or one it may skip. -/
def sectionOk (b : List Byte) : Bool :=
  let n := ofBytes b
  32 ≤ bits n 32 32 && bits n 32 32 % 16 == 0 && ((1 ≤ bits n 0 16 && bits n 0 16 ≤ 0x000C) || bits n 16 16 == 1)

/-- Sections are taken one after another; none while a read waits, else whether the loader accepts them all. -/
def State.loadSections (s : State) (d : Nat) : Nat → Nat → State × Option Bool
  | 0, _ => (s, some true)
  | n + 1, a =>
    match s.syncRead (imageWho d) 1 a 32 with
    | (s, .wait) => (s, none)
    | (s, .fail _ _) => (s, some false)
    | (s', .ok b) =>
      if sectionOk b then
        match State.loadSections s' d n (a + bits (ofBytes b) 32 32) with
        | (x, none) => (x.keepAnswers s, none)
        | x => x
      else (s', some false)

/-- Whether a loader accepts the image of a context: `VER` is 1 and it refuses no section; none while a read waits
(DESIGN CHOICE, assumption 28). -/
def State.loadImage (s : State) (d : Nat) : State × Option Bool :=
  let a := bits (s.domRec d) 384 64
  match s.syncRead (imageWho d) 1 a 64 with
  | (s, .wait) => (s, none)
  | (s, .fail _ _) => (s, some false)
  | (s', .ok b) =>
    let n := ofBytes b
    if bits n 0 32 = 0x4E394349 && bits n 32 16 = 1 then
      match s'.loadSections d (bits n 160 32) (a + bits n 48 16) with
      | (x, none) => (x.keepAnswers s, none)
      | x => x
    else (s', some false)

end Sys2Proof.Machine
end

