-- ==== Sys2Proof/Machine/Ring.lean ====
section
/-!
DEFINITION. The ringmaster (R10, R15 to R22, R24, R320 to R331): admission of launches, dispatch streams, the operating point, the end of
blocks, the retirement of gangs, the completion of launches, and the walks of graphs.
-/

namespace Sys2Proof.Machine

/-! ## Completion (R321, R327, R328, R330) -/

/-- Every write is performed at `.dev`: words the sectors own go home (R321), and stores they keep for other devices leave. -/
def State.performAll (s : State) : State :=
  (List.range 12).foldl (fun s x => (s.flushRsc x fun _ => true).sendKept x fun _ => true) s

/-- The word a completion writes: one more completion, and the status (R327). -/
def cwordNew (old : Nat) (status : Byte) : Nat := (old + 1) % 2 ^ 32 + status.toNat * 2 ^ 32

/-- Whether a word stands where other devices may write it: on one, or in a peer page whose frame takes atomics (R231). -/
def State.sharedWord (s : State) (a : Nat) : Bool :=
  match homeOf s.fw a with
  | some (d, h) => d != s.fw.dev || (s.leafOf h a).any fun l => leafAper l.2 == 3 && l.2.testBit 12
  | none => false

/-- Whether writes of a launch's killed groups are still on their way (R327). -/
def State.orphansOf (s : State) (l : Nat) : Bool := s.net.packets.any fun e => e.2.own == .orphan l

/-- The completion word of a launch is updated, in one operation where others may write it; whether that is done. A failed update is entered
in the error report (R353) (DEDUCED, assumption 38). -/
def State.updateWord (s : State) (L : Launch) : State × Bool :=
  let s := s.performAll
  if s.orphansOf L.serial then (s, false)
  else if !L.lr.hasWord then (s, true)
  else
    let a := L.lr.cword.toNat
    let failed (s : State) (c : Byte) : State × Bool := (s.errorRecord L.dom 6 c.toNat 0 a 0 L.serial L.lr.gnode.toNat, true)
    match s.sync (ringWho L.dom [L.serial, 0]) 3 a (.read 8) with
    | (s, .wait) => (s, false)
    | (s, .fail c _) => failed s c
    | (s', .ok b) =>
      let new := cwordNew (ofBytes b) L.status
      let op : SOp := if s.sharedWord a then .atom .cas .n64 (w64 (ofBytes b)) (w64 new) else .write (toBytes 8 new)
      match s'.sync (ringWho L.dom [L.serial, 1]) 3 a op with
      | (s', .wait) => (s'.keepAnswers s, false)
      | (s', .fail c _) => failed s' c
      | (s', .ok x) => (s', !s.sharedWord a || x == b)

/-- Who started a launch or graph learns its status: the handle's tag, the host, or another device. -/
def State.tell (s : State) (dom : Nat) (o : Origin) (status : Byte) : State :=
  match o with
  | .tag core tag gen => s.tagDone core tag gen (status.zeroExtend 64) 0
  | .host =>
    s.flushHost.modPage dom fun p =>
      { p with substat := w64 ((p.substat.toNat / 2 ^ 32 + 1) % 2 ^ 32 * 2 ^ 32 + status.toNat) }
  | .peer src id => s.sendTo src (.reply id { field := 0xFFF, late := false, rmost := false } [status] [])
  | .none => s

/-- A graph ends; its walks are given up. -/
def State.endGraph (s : State) (g : Nat) (status : Byte) : State :=
  match look s.ring.graphs g with
  | none => s
  | some G => (s.setRing { s.ring with graphs := del s.ring.graphs g }).tell G.dom G.origin status

def State.modGraph (s : State) (g : Nat) (f : Graph → Graph) : State :=
  s.setRing { s.ring with graphs := upd s.ring.graphs g f }

/-- A walk comes to a node. -/
def State.putWalk (s : State) (g w node : Nat) : State :=
  s.modGraph g fun G => { G with walks := put G.walks w { node := node, st := .at_ } }

/-- A walk takes edges: the first itself, each other by a new walk; an edge of 0 ends a walk and opens none; a graph without walks
completes. -/
def State.takeEdges (s : State) (g w : Nat) (succ : List Nat) : State :=
  match look s.ring.graphs g with
  | none => s
  | some G =>
    if Config.walkCap + 1 < G.walks.length + (succ.filter fun n => n != 0).length then s.endGraph g 0x27
    else
      let s := s.modGraph g fun G => { G with walks := del G.walks w }
      let s := match succ with
        | [] => s
        | n :: rest =>
          let s := if n = 0 then s else s.putWalk g w n
          rest.foldl (fun s n => if n = 0 then s else s.next.putWalk g s.ids n) s
      if ((look s.ring.graphs g).map Graph.walks).getD [] |>.isEmpty then s.endGraph g 0 else s

/-- The launch of a kernel node has completed. -/
def State.nodeDone (s : State) (g w : Nat) (status : Byte) (succ : List Nat) : State :=
  if status != 0 then s.endGraph g status else s.takeEdges g w succ

/-- The successors a walk waits to take. -/
def State.walkSucc (s : State) (g w : Nat) : List Nat :=
  match (look s.ring.graphs g).bind fun G => look G.walks w with
  | some { st := .launched _ l, .. } => l
  | _ => []

/-- The class of a launch that has completed stays with its handle, by the codes of `setCls` (R35) (DEDUCED, assumption 14). -/
def State.noteClass (s : State) (o : Origin) (cls : Nat) : State :=
  match o with
  | .tag core tag gen =>
    s.modCore core fun K => { K with tags := upd K.tags tag fun t => if t.gen = gen then { t with cls := cls } else t }
  | _ => s

/-- The other devices that hold a launch of this one's until it has completed are told (R322) (DEDUCED, assumption 66). -/
def State.tellHeld (s : State) (L : Launch) : State :=
  L.told.foldl (fun s q =>
    (s.setFab { s.fab with reqs := upd s.fab.reqs q.2 fun r => { r with body := unheld r.body } }).sendTo q.1 (.issued s.fw.dev q.2)) s

/-- A launch has completed and its word is written: its node's successors are taken, or its handle is told (DEDUCED, assumption 61). -/
def State.completed (s : State) (L : Launch) : State :=
  let s := ((s.noteClass L.origin (L.lr.cls + 1)).setLaunches (del s.launches L.serial)).tellHeld L
  match L.walk with
  | some (g, w) => s.nodeDone g w L.status (s.walkSucc g w)
  | none => s.tell L.dom L.origin L.status

/-! ## Admission (R21, R22, R326, R328) -/

/-- How an admission ends: it waits, the launch stands admitted, or it has completed. -/
inductive Admit where
  | wait
  | open (serial : Nat)
  | over (status : Byte)
deriving DecidableEq, Repr

/-- A launch as admission makes it. -/
def newLaunch (serial : Nat) (h : Handoff) (walk : Option (Nat × Nat)) (lr : LRec) (status : Byte) : Launch :=
  { serial := serial, dom := h.dom, recAddr := h.addr, lr := lr, st := .admitted, status := status, origin := h.origin, walk := walk
    early := h.early, issuer := h.issuer, pos := 0, gangsDone := 0, redo := [], opWait := false, bars := [], snap := 0
    told := [], coresSeen := [], resv := [] }

/-- The first check of R326 that a record fails, once it has been read. -/
def State.recStatus (s : State) (dom n : Nat) : Byte :=
  let r := recOfBits n
  if !recOk n dom || !(s.domRec dom).testBit 127 then 0x20
  else if r.blocks % r.ngang != 0 then 0x21
  else if (r.gangIn [] 0).isNone || (r.cls = 0 && (r.planAll []).isNone) then 0x22
  else 0

/-- A launch that ends at its admission completes, once its word is written; `cls` is what its handle keeps of its class. -/
def State.admitOver (s : State) (L : Launch) (cls : Nat) : State × Admit :=
  match s.updateWord L with
  | (s, true) => ((s.noteClass L.origin cls).setRing { s.ring with nextSerial := s.ring.nextSerial + 1 }, .over L.status)
  | (s, false) => (s, .wait)

/-- A change of operating point that a launch asks for begins, unless another is under way (R22). -/
def State.askPoint (s : State) (l : Nat) : State :=
  if s.ring.opReq.isNone then s.setRing { s.ring with opReq := some l } else s

/-- A launch is entered as admitted. The first of its domain gives the context its first checkpoint (DEDUCED, assumption 61). -/
def State.admitOpen (s : State) (L : Launch) : State :=
  let hint := BitVec.ofNat 4 L.lr.opp
  let L : Launch := { L with opWait := hint != 0 && hint != s.ring.opPoint }
  let s := s.setRing { s.ring with nextSerial := s.ring.nextSerial + 1 }
  let s := s.setLaunches (put s.launches L.serial L)
  let s := if L.opWait then s.askPoint L.serial else s
  if (s.ctx L.dom).ckpt.isNone then s.checkpointNow L.dom else s

/-- A launch handed over is admitted, rejected, or waits, as each does until firmware has brought the device up (R355)
(DEDUCED, assumption 61). -/
def State.admitLaunch (s : State) (h : Handoff) (walk : Option (Nat × Nat)) : State × Admit :=
  let c := s.ctx h.dom
  if !s.fw.up || c.stopping || c.pre.isSome || s.broke h.dom then (s, .wait)
  else
    let serial := s.ring.nextSerial
    let new := newLaunch serial h walk
    match s.syncRead (ringWho h.dom [h.addr]) 1 h.addr 128 with
    | (s, .wait) => (s, .wait)
    | (s, .fail x _) => s.admitOver (new recNone x) 3
    | (s, .ok b) =>
      let n := ofBytes b
      let r := recOfBits n
      match s.recStatus h.dom n with
      | 0 =>
        if r.blocks = 0 then s.admitOver (new r 0) (r.cls + 1)
        else if r.cls = 0 then
          match r.planAll (s.uses h.dom 0 0) with
          | none => (s, .wait)
          | some t => (s.admitOpen { new r 0 with resv := t }, .open serial)
        else (s.admitOpen (new r 0), .open serial)
      | x => s.admitOver (new r x) (r.cls + 1)

/-- `LAUNCH_ADMISSION` of the record that stands at a place of the queue. -/
def execLaunchAdmission (l : Nat) (s : State) : Result :=
  .next <| match s.ring.queue[l]? with
    | none => s
    | some h =>
      if h.graph then s
      else
        let drop (s : State) : State := s.setRing { s.ring with queue := s.ring.queue.eraseIdx l }
        match s.admitLaunch h none with
        | (s, .wait) => s
        | (s, .open _) => drop s
        | (s, .over status) => (drop s).tell h.dom h.origin status

/-! ## Dispatch streams (R16, R18, R19, R22) -/

/-- Whether the launch that issued a launch, or its graph, without `.early` has not completed, here or on another device (R322)
(DEDUCED, assumption 66). -/
def State.issuerRuns (s : State) (L : Launch) : Bool :=
  let o := match L.walk with
    | some (g, _) => ((look s.ring.graphs g).map Graph.origin).getD .none
    | none => L.origin
  !L.early && ((s.launch? L.issuer).isSome
    || match o with
       | .peer src id => s.ring.heldFor.contains (src, id)
       | _ => false)

/-- The next gang of a launch to be placed, if one may be placed now. -/
def State.nextGang (s : State) (l : Nat) : Option Nat :=
  match s.launch? l with
  | none => none
  | some L =>
    if L.st != .admitted || L.opWait || (s.ctx L.dom).pre.isSome || s.issuerRuns L
        || (s.broke L.dom && L.lr.cls != 0) then none
    else
      match L.redo with
      | k :: _ => some k
      | [] => if L.pos < L.lr.blocks then some (L.pos / L.lr.ngang) else none

/-- Launches with a gang to place and no stream. -/
def State.unstreamed (s : State) : List Nat :=
  (s.launches.map Prod.fst).filter fun l => (s.nextGang l).isSome && !s.ring.streams.any fun e => e.2.launch == l

def State.setStream (s : State) (n : Nat) (st : DStream) : State := s.setRing { s.ring with streams := put s.ring.streams n st }
def State.dropStream (s : State) (n : Nat) : State := s.setRing { s.ring with streams := del s.ring.streams n }

/-- Age of a gang: admission of its launch, then placement position. -/
def DStream.older (a b : DStream) : Bool := a.launch < b.launch || (a.launch == b.launch && a.gang < b.gang)

/-- The end of a back-off drawn now: 64 to 1,024 cycles. -/
def State.backoffEnd (s : State) : Nat := s.now + Config.cycle * (64 + s.pick 961)

/-- A stream tries to reserve a quad: the younger of two gangs in conflict backs off. -/
def State.tryReserve (s : State) (n : Nat) (st : DStream) (quad : Nat) : State :=
  match s.ring.streams.find? fun e => e.1 != n && e.2.quad == some quad with
  | none => s.setStream n { st with quad := some quad }
  | some x =>
    if st.older x.2 then
      ((s.setStream x.1 { x.2 with quad := none, backoff := some s.backoffEnd }).setStream n { st with quad := some quad }).next
    else (s.setStream n { st with quad := none, backoff := some s.backoffEnd }).next

/-- Whether a stream's gang may go to a quad: a concurrent launch's gang goes where its place is reserved. -/
def State.quadOk (s : State) (st : DStream) (quad : Nat) : Bool :=
  quad < 96 &&
    match (s.launch? st.launch).bind fun L => look L.resv st.gang with
    | some ((c, _) :: _) => coreQuad c == quad
    | _ => true

/-- `GANG_RESERVE`: a stream, taking a launch if it has none, tries to reserve a quad for its gang. -/
def execGangReserve (stream quad : Nat) (s : State) : Result :=
  .next <|
    if 16 ≤ stream then s
    else
      match look s.ring.streams stream with
      | some st =>
        if s.nextGang st.launch != some st.gang && !st.committed then s.dropStream stream
        else if st.committed || st.quad.isSome || st.backoff.isSome || !s.quadOk st quad then s
        else s.tryReserve stream st quad
      | none =>
        match s.unstreamed[s.pick s.unstreamed.length]? with
        | none => s
        | some l =>
          let st : DStream :=
            { launch := l, gang := (s.nextGang l).getD 0, quad := none, plan := [], backoff := none, committed := false }
          let s := s.next
          if s.quadOk st quad then s.tryReserve stream st quad else s.setStream stream st

/-- Some of a list, in a free order. -/
def State.choose {α : Type} (s : State) : Nat → List α → List α
  | 0, _ => []
  | n + 1, l =>
    let i := Config.freeChoice (s.ids + 2 ^ 64 * (n + 8)) % l.length
    match l[i]? with
    | some x => x :: State.choose s n (l.eraseIdx i)
    | none => []

/-- A free choice of places for a gang in a quad (R15, R18): distinct cores, each with a first quarter that fits
(DESIGN CHOICE, assumption 1). -/
def State.choosePlan (s : State) (r : LRec) (l : List Use) (quad : Nat) : Option (List (Nat × Nat)) :=
  let cs := (List.range 4).filterMap fun i =>
    let qs := r.starts l (4 * quad + i)
    (qs[Config.freeChoice (s.ids + 2 ^ 64 * (i + 1)) % qs.length]?).map fun q => (4 * quad + i, q)
  if cs.length < r.ngang then none else some (s.choose r.ngang cs)

/-- `GANG_COMMIT`: the gang is committed to cores of the reservation, or the reservation is released. -/
def execGangCommit (stream : Nat) (s : State) : Result :=
  .next <| match look s.ring.streams stream with
    | none => s
    | some st =>
      match st.quad with
      | none => s
      | some quad =>
        if s.nextGang st.launch != some st.gang then s.dropStream stream
        else
          let plan := match (s.launch? st.launch).bind fun L => look L.resv st.gang with
            | some p => some p
            | none => s.choosePlan (s.recOf st.launch) (s.uses (s.domOf st.launch) st.launch st.gang) quad
          match plan with
          | some p => s.next.setStream stream { st with quad := none, plan := p, committed := true }
          | none => s.setStream stream { st with quad := none }

/-- `GANG_BACKOFF_RETRY`: after its back-off a stream retries on any quad. -/
def execGangBackoffRetry (stream : Nat) (s : State) : Result :=
  .next <| match look s.ring.streams stream with
    | none => s
    | some st =>
      match st.backoff with
      | none => s
      | some t =>
        if s.now < t then s
        else
          let st := { st with backoff := none }
          let quad := s.pick 96
          if s.quadOk st quad then s.next.tryReserve stream st quad else s.next.setStream stream st

/-- `BLOCK_PLACEMENT`: a committed gang becomes resident, once its cores hold its domain's turnstile and what other contexts held in its banks
has been written to their images. -/
def execBlockPlacement (stream : Nat) (s : State) : Result :=
  .next <| match look s.ring.streams stream with
    | none => s
    | some st =>
      if !st.committed then s
      else if s.nextGang st.launch != some st.gang then s.dropStream stream
      else
        match s.clearBanks s (s.domOf st.launch) (st.plan.map Prod.fst) (s.ctxs.map Prod.fst) with
        | (s, false) => s
        | (s, true) =>
          match s.loadTs (s.domOf st.launch) (st.plan.map Prod.fst) with
          | (s, false) => s
          | (s, true) => (s.dropStream stream).placeGang st.launch st.gang st.plan

/-- `OPERATING_POINT_STABLE`: the launch whose change was under way is held no longer, and the next request begins (R22):
the launch admitted first (DESIGN CHOICE, assumption 76). -/
def execOperatingPointStable (granted : Nat) (s : State) : Result :=
  .next <| match s.ring.opReq with
    | none => s
    | some l =>
      let s := s.modLaunch l fun L => { L with opWait := false }
      let nxt := (s.launches.find? fun e => e.2.opWait).map Prod.fst
      s.setRing { s.ring with opPoint := BitVec.ofNat 4 granted, opReq := nxt }

/-! ## The end of blocks, gangs and launches (R20, R24, R321) -/

/-- Everything a block's groups issued has been performed and every command has completed (R24). -/
def State.quiet (s : State) (id : Nat) (b : Block) : Bool :=
  (b.groups.all fun g => (s.grpOf g).accs.isEmpty)
    && !(s.net.packets.any fun e => (ownGroup e.2.own).any fun g => b.groups.contains g)
    && !(s.cmds.any fun e => e.2.block == id && !e.2.done)

/-- A gang retires: its blocks are charged for, and what they hold is freed. -/
def State.retireGang (s : State) (k : Nat) : State :=
  match s.gang? k with
  | none => s
  | some K =>
    let due := (K.blocks.map s.dues).sum
    let s := if due = 0 then s else s.charge (s.domOf K.launch) due
    let s := K.blocks.foldl (fun s b => (s.dropCmds b).dropBlock b) s
    let s := s.setGangs (del s.gangs k)
    s.modLaunch K.launch fun L => { L with gangsDone := L.gangsDone + 1, resv := del L.resv K.index }

/-- Whether a gang is the last of its launch. -/
def State.lastGang (s : State) (k : Nat) (L : Launch) : Bool :=
  !(s.gangs.any fun e => e.1 != k && e.2.launch == L.serial)
    && (L.st == .ending || (L.redo.isEmpty && L.lr.blocks ≤ L.pos))

/-- `BLOCK_END`: a block whose groups have ended and whose work is done ends; its gang retires with its last block, and its launch
completes with its last gang. -/
def execBlockEnd (blk : Nat) (s : State) : Result :=
  .next <| match s.block? blk with
    | none => s
    | some b =>
      if !b.live.isEmpty || !s.quiet blk b || (s.ctx (s.domOf b.launch)).pre.isSome then s
      else
        let s := s.modBlock blk fun b => { b with ended := true }
        let mates := ((s.gang? b.gang).map Gang.blocks).getD []
        if !(mates.all fun m => ((s.block? m).map Block.ended).getD true) then s
        else
          match s.launch? b.launch with
          | none => s.retireGang b.gang
          | some L =>
            if s.lastGang b.gang L then
              match s.updateWord L with
              | (s, false) => s
              | (s, true) => (s.retireGang b.gang).completed L
            else s.retireGang b.gang

/-! ## Graphs (R321, R329, R330) -/

/-- `GRAPH_START`: a graph handed over takes one of the 64 places and opens its first walk. -/
def execGraphStart (s : State) : Result :=
  .next <|
    if Config.graphCap ≤ s.ring.graphs.length then s
    else
      let may (h : Handoff) : Bool := h.graph && !(s.ctx h.dom).stopping && (s.ctx h.dom).pre.isNone
      match s.ring.queue.find? may with
      | none => s
      | some h =>
        let G : Graph :=
          { dom := h.dom, first := h.addr, early := h.early, issuer := h.issuer, origin := h.origin
            walks := [(s.ids + 1, { node := h.addr, st := .at_ })] }
        let s' := s.setRing { s.ring with queue := s.ring.queue.erase h, graphs := put s.ring.graphs s.ids G }
        s'.next.next

/-- A graph whose context runs. -/
def State.graphRuns (s : State) (g : Nat) : Option Graph :=
  match look s.ring.graphs g with
  | none => none
  | some G => if (s.ctx G.dom).stopping || (s.ctx G.dom).pre.isSome then none else some G

/-- A walk that stands at a node, of a graph whose context runs. -/
def State.walkAt (s : State) (g w : Nat) : Option (Graph × Nat) :=
  match s.graphRuns g with
  | none => none
  | some G =>
    match look G.walks w with
    | some { node := n, st := .at_ } => some (G, n)
    | _ => none

/-- An access of a walk failed: it is reported, and ends the graph. -/
def State.walkFails (s : State) (g : Nat) (G : Graph) (addr : Nat) (code : Byte) : State :=
  (s.errorRecord G.dom 6 code.toNat 0 addr 0 0).endGraph g code

/-- The node a walk stands at is read; an invalid one ends the graph. -/
def State.onNode (s : State) (g w : Nat) (f : State → Graph → Nat → Node → State) : State :=
  match s.walkAt g w with
  | none => s
  | some (G, n) =>
    match s.syncRead (ringWho G.dom [g, w, 0]) 1 n 64 with
    | (s, .wait) => s
    | (s, .fail x _) => s.walkFails g G n x
    | (s, .ok b) =>
      match nodeOf b with
      | none => s.endGraph g 0x25
      | some k => f s G n k

/-- A field of a node is stored, and the walk takes its edges. -/
def State.nodeStore (s : State) (g w : Nat) (G : Graph) (addr x : Nat) (succ : List Nat) : State :=
  match s.sync (ringWho G.dom [g, w, 1]) 2 addr (.write (toBytes 4 x)) with
  | (s, .wait) => s
  | (s, .fail c _) => s.walkFails g G addr c
  | (s, .ok _) => s.takeEdges g w succ

/-- What a walk is storing, if it stores a field at an offset of its node. -/
def State.walkStores (s : State) (g w off : Nat) : Option (Graph × Nat × Nat × List Nat) :=
  match s.graphRuns g with
  | none => none
  | some G =>
    match look G.walks w with
    | some { st := .storing addr x succ, .. } => if addr % 64 = off then some (G, addr, x, succ) else none
    | _ => none

/-- Whether a field of a node is being stored by some walk: the fields of one node are updated one at a time (R321). -/
def State.nodeBusy (s : State) (n : Nat) : Bool :=
  s.ring.graphs.any fun g => g.2.walks.any fun w =>
    match w.2.st with
    | .storing addr _ _ => addr / 64 == n / 64
    | _ => false

/-- A node that updates its field at an offset: what `f` gives of the node is stored, and the walk takes the edges given. Once the new value
is fixed the node is not read again. -/
def State.nodeStep (s : State) (g w off : Nat) (f : Node → Option (Nat × List Nat)) : State :=
  match s.walkStores g w off with
  | some (G, addr, x, succ) => s.nodeStore g w G addr x succ
  | none => s.onNode g w fun s G n k =>
    match f k with
    | none => s
    | some (x, succ) =>
      if s.nodeBusy n then s
      else
        (s.modGraph g fun G => { G with walks := put G.walks w { node := n, st := .storing (n + off) x succ } }).nodeStore g w G
          (n + off) x succ

/-- `KERNEL_NODE`: the record's launch is admitted. -/
def execKernelNode (graph walk : Nat) (s : State) : Result :=
  .next <| s.onNode graph walk fun s G n k =>
    match k with
    | .kernel rec succ =>
      (match s.admitLaunch
          { addr := rec, graph := false, early := G.early, dom := G.dom, issuer := G.issuer, origin := .none } (some (graph, walk)) with
       | (s, .wait) => s
       | (s, .open l) =>
         s.modGraph graph fun G => { G with walks := put G.walks walk { node := n, st := .launched l succ } }
       | (s, .over status) => s.nodeDone graph walk status succ)
    | _ => s

/-- Compare a word with a comparand by a code of R89. -/
def condHolds (cmp : Nat) (signed : Bool) (x y : W64) : Bool :=
  match Cmp.ofCode (BitVec.ofNat 4 cmp) with
  | some c => cmpK c (!signed) x y
  | none => false

/-- `CONDITIONAL_NODE`: the word is read with an acquire, and the true or the false successor is taken. -/
def execConditionalNode (graph walk : Nat) (s : State) : Result :=
  .next <| s.onNode graph walk fun s G _ k =>
    match k with
    | .cond cmp signed addr y t f =>
      (match s.syncRead (ringWho G.dom [graph, walk, 2]) 1 addr 8 with
       | (s, .wait) => s
       | (s, .fail x _) => s.walkFails graph G addr x
       | (s, .ok b) => s.takeEdges graph walk [if condHolds cmp signed (w64 (ofBytes b)) (w64 y) then t else f])
    | _ => s

/-- What a loop node does: its new counter and the edge taken (DEDUCED, assumption 39). -/
def Node.loopStep : Node → Option (Nat × List Nat)
  | .loop c bound back out => some (if c + 1 < bound then (c + 1, [back]) else (0, [out]))
  | _ => none

/-- What a join node does: its new arrivals and the edge taken, 0 for an arrival that does not complete the join. -/
def Node.joinStep : Node → Option (Nat × List Nat)
  | .join deps arrivals succ => some (if arrivals + 1 = deps then (0, [succ]) else (arrivals + 1, [0]))
  | _ => none

/-- `LOOP_NODE`: the counter rises; below the bound the back edge is taken, else it returns to 0 and the exit is taken
(DEDUCED, assumption 39). -/
def execLoopNode (graph walk : Nat) (s : State) : Result := .next (s.nodeStep graph walk 8 Node.loopStep)

/-- `JOIN_NODE`: an arrival is counted; the one that completes the join takes the successor, another ends its walk. -/
def execJoinNode (graph walk : Nat) (s : State) : Result := .next (s.nodeStep graph walk 12 Node.joinStep)

end Sys2Proof.Machine
end

