-- ==== Sys2Proof/Machine/HomeEvents.lean ====
section
/-!
DEFINITION. What the homes do with request packets, and what requesters do with their answers (R205 to R241, R267, R299, R300, R306,
R307, R319, R333): service under R228, leaf stores, replicas, clears, negative replies and replays, the slice map, retirement of a
unit, the reload of turnstiles.
-/

namespace Sys2Proof.Machine

/-! ## Arbitration (R306) -/

/-- Packets queued at a point, oldest in order of entry first (DEDUCED, assumption 52). -/
def State.queueAt (s : State) (pt : Point) : Tab Packet :=
  s.net.packets.filter fun e => e.2.phase.moves && e.2.route.head? == some pt

def State.grantsAt (s : State) (pt : Point) : Nat :=
  ((s.net.grants.find? fun g => g.1 == pt).map Prod.snd).getD 0

/-- A grant is counted: how many have gone by since the oldest packet was granted. -/
def State.noteGrant (s : State) (pt : Point) (oldest : Bool) : State :=
  let rest := s.net.grants.filter fun g => g.1 != pt
  s.setNet { s.net with grants := if oldest then rest else (pt, s.grantsAt pt + 1) :: rest }

/-- The one of oldest age; of equals the first. -/
def oldestOf : Tab Packet → Option (Nat × Packet)
  | [] => none
  | e :: r =>
    match oldestOf r with
    | some x => if x.2.age < e.2.age then some x else some e
    | none => some e

/-- The one of least field, and of equals the oldest; background counts as the largest. -/
def leastOf : Tab Packet → Option (Nat × Packet)
  | [] => none
  | e :: r =>
    match leastOf r with
    | some x => if x.2.field < e.2.field || (x.2.field == e.2.field && x.2.age < e.2.age) then some x else some e
    | none => some e

/-- A point grants one of some waiting packets: in at least one grant of eight the oldest, else the one of least field
(DESIGN CHOICE, assumption 5). -/
def State.arbitrate (s : State) (pt : Point) (l : Tab Packet) : Option (State × Nat × Packet) :=
  match (if s.pick 2 = 1 || 7 ≤ s.grantsAt pt then oldestOf l else leastOf l) with
  | some e => some (s.next.noteGrant pt (((oldestOf l).map Prod.fst) == some e.1), e)
  | none => none

/-! ## Answers (R307) -/

/-- A request is answered: the reply starts back with the request's field and mark, or waits at its unit for room on the way (R306). -/
def State.replyTo (s : State) (u i : Nat) (r : Reply) : State :=
  s.modPacket i fun p =>
    if s.roomAt (routeBack p.core u) then { p with phase := .back r, route := routeBack p.core u }
    else { p with phase := .ready r, route := [.homeMem u] }

/-- A request is turned away; that of a command for a stream goes back to its engine, which asks anew. -/
def State.turnAway (s : State) (u i : Nat) (p : Packet) (r : Reply) : State :=
  match p.own with
  | .stream _ => s.dropPacket i
  | _ => s.replyTo u i r

/-! ## Requests passed to another device (R208, R231, R299, R313) -/

/-- A packet as another device is asked for it: the whole line to read, or the lanes' words at their offsets in it. -/
def Packet.rem (p : Packet) : RemOp :=
  let off (q : LaneReq) : Nat := q.addr % 64
  match p.kind with
  | .load => .read 64
  | .pref _ => .pref 64
  | .store => .writes (p.lanes.map fun q => (off q, toBytes p.size q.c.toNat))
  | .atom op => .atoms op p.ty (p.lanes.map fun q => (off q, q.c, q.d))

/-- The values of another device's reply, lane by lane: of a line, or word after word. -/
def Packet.vals (p : Packet) (b : List Byte) : List (Nat × W64) :=
  ((List.range p.lanes.length).zip p.lanes).map fun q =>
    (q.2.lane, w64 (ofBytes ((b.drop (if p.kind == .load then q.2.addr % 64 else p.size * q.1)).take p.size)))

/-- The lanes' words as the slice of their home holds them, if it holds all of them. -/
def State.inSlice (s : State) (p : Packet) : Option (List (Nat × W64)) :=
  let cell (q : LaneReq) (i : Nat) : Option CByte := look s.mem.slice (q.addr + i)
  if p.lanes.all fun q => (List.range p.size).all fun i => (cell q i).isSome then
    some (p.lanes.map fun q => (q.lane, w64 (ofBytes ((List.range p.size).map fun i => ((cell q i).map CByte.val).getD 0))))
  else none

/-- What a packet carries to another device, with what is left of its lifetime (R303, R307, R211, R315). -/
def Packet.carry (p : Packet) (now : Nat) : Carry :=
  { acc := p.acc, va := (p.lanes.map LaneReq.addr).headD 0, field := p.field, late := p.late, life := lifetime - (now - p.born), adm := false }

/-- A load of a peer page is answered at its home; an acquire then drops what its scope says (R273). -/
def State.answerHere (s : State) (u i : Nat) (p : Packet) (vs : List (Nat × W64)) : State :=
  (if p.acq then s.invalidate p.core p.scope else s).replyTo u i (.ok vs 0)

/-- It leaves for the peer, by a link given while that is up (R208, R313); it stays where no link or id is free. -/
def State.passSend (s : State) (i : Nat) (p : Packet) (l : Nat) (via : Option Nat) : State :=
  match s.sendRemote (leafPeer l)
      (fun id => .request s.fw.dev id true (leafFrame l + lineOf p.addr % 65536) p.dom 0 (p.carry s.now) p.rem) (.packet i) 0 via with
  | none => s
  | some (s, id) =>
    let s := if isWrite p.acc then p.lanes.foldl (fun s q => s.passedWrite q.addr p.size) (s.expose p.dom) else s
    s.modPacket i fun p => { p with phase := .remote, remote := some id, route := [] }

/-- A request under aperture peer is answered from the slice, where its scope is not wider than the device, or starts its way to a link of the
peer; with none up it is sent in vain, and fails as R313 says (R231, R273, R299). A line that a running clear has not reached reads as zero; a
write waits for the clear. -/
def State.passOn (s : State) (u i : Nat) (p : Packet) (l : Nat) : State :=
  if s.unclean p.home p.addr then
    match p.kind with
    | .load | .pref _ => s.answerHere u i p (p.lanes.map fun q => (q.lane, 0))
    | _ => s
  else
    match (if p.kind == .load && p.scope.rank < 9 && s.pick 2 = 1 then s.inSlice p else none), s.pickLink (leafPeer l) with
    | some vs, _ => s.next.answerHere u i p vs
    | none, some k =>
      let way := secRoute (unitSector u) (linkSector k) (64 + k) ++ [.rontan k]
      if s.roomAt way then s.next.modPacket i fun p => { p with phase := .passing l, route := way } else s.next
    | none, none => s.next.passSend i p l none

/-! ## Performance at a home (R230, R231, R273, R300) -/

/-- Whether a line homed in another sector may be held as a remote-sector copy. -/
def State.rscMay (s : State) (u l : Nat) (p : Packet) : Bool :=
  unitSector u != coreSector p.core && objPol (s.objEntry (leafObj l)) != 3 && !s.runtimeTable p.addr p.size

/-- Whether a store writes part of a word that has an uncorrectable error (R268). -/
def State.joinsBad (s : State) (p : Packet) : Bool := p.lanes.any fun q => (q.addr % 4 != 0 || p.size % 4 != 0) && s.isBadMem q.addr p.size

/-- Whether a store stays in its sector's copy of the line, which then owns its words. Lines of a read-mostly object may be replicas
elsewhere, so that a write of them is performed at its home (R241) (DEDUCED, assumption 40). -/
def State.keepsInSector (s : State) (u l : Nat) (p : Packet) : Bool :=
  p.kind == .store && s.rscMay u l p && leafAper l != 4 && !objRmost (s.objEntry (leafObj l)) && !s.joinsBad p
    && !(p.rel && 6 ≤ p.scope.rank) && s.pick 2 = 1

/-- A store that has been performed leaves its words unowned in its core's L1. -/
def State.settleL1 (s : State) (p : Packet) : State :=
  p.lanes.foldl (fun (s : State) q =>
    s.setMem (s.mem.renewL1 (l1Key p.core q.addr) (toBytes p.size q.c.toNat))) s

/-- A store registered in its sector's copy of the line. -/
def State.ownInSector (s : State) (la l : Nat) (p : Packet) : State :=
  let s := s.setAD p.home la l p
  p.lanes.foldl (fun s q =>
    let b := toBytes p.size q.c.toNat
    (s.noteStore p.home l q.addr p.size p.dom).fillRsc (coreSector p.core) q.addr b true) s

/-- A line read at its home is kept by the core, and by its sector if the home stands in another. -/
def State.keepLine (s : State) (u l : Nat) (p : Packet) : State :=
  let a := lineOf p.addr
  let b := s.homeBytes p.home l a 64
  let s := match p.kind with
    | .load | .pref false => s.fillL1 p.core a b false
    | _ => s
  if s.rscMay u l p then s.fillRsc (coreSector p.core) a b false else s

/-- The requester's sector drops its copy of a line written at its home. -/
def State.dropInSector (s : State) (p : Packet) : State :=
  s.setMem (s.mem.keepRsc fun k _ => k / 2 ^ 64 != coreSector p.core || !sameLine (k % 2 ^ 64) p.addr)

/-- Its core drops what it holds of the line unowned. -/
def State.dropInCore (s : State) (p : Packet) : State :=
  s.setMem (s.mem.keepL1 fun k own => own || k / 2 ^ 64 != p.core || !sameLine (k % 2 ^ 64) p.addr)

/-- A request performed under a leaf of a memory of this device. Words that its own sector owns go home first. A plain store whose words its
sector owns is answered once they are home (R264). -/
def State.performAt (s : State) (u i : Nat) (p : Packet) (la l : Nat) : State :=
  if s.keepsInSector u l p then
    let s := (s.next.ownInSector la l p).settleL1 p
    if p.rel then s.replyTo u i (.ok (p.lanes.map fun q => (q.lane, 0)) 0)
    else s.modPacket i fun p => { p with phase := .kept la l, route := [.homeMem u] }
  else
    let s := s.next.flushRsc (coreSector p.core) (sameLine p.addr)
    match s.perform p.home la l p with
    | (s, r) =>
      let s := match p.kind with
        | .store => (s.dropInSector p).settleL1 p
        | .atom _ => (s.dropInSector p).dropInCore p
        | _ => s
      let s := if p.acq && p.kind != .store then s.invalidate p.core p.scope else s
      let s := match p.kind, r with
        | .load, .ok _ _ | .pref _, .ok _ _ => s.keepLine u l p
        | _, _ => s
      s.replyTo u i r

/-! ## Replicas (R233, R241) -/

/-- A write that waits for replicas: to a line of a shared object, or one that takes `RMOST` from a shared object's entry
(DEDUCED, assumption 40). -/
def State.waitsForReplicas (s : State) (l : Nat) (p : Packet) : Bool :=
  (p.kind.isStore || (match p.kind with | .atom _ => true | _ => false))
    && (objShared (s.objEntry (leafObj l))
        || p.lanes.any fun q =>
            s.fw.objBase ≤ q.addr && q.addr < s.fw.objBase + 131072 && objShared (s.objEntry ((q.addr - s.fw.objBase) / 32)))

/-- Leaves that the stores of a packet to a structure page change. -/
def State.leavesOf (s : State) (p : Packet) : List (Nat × Nat) := p.lanes.flatMap fun q => s.leavesIn p.home q.addr p.size

/-- Whether such a leaf names an object whose lines other devices may hold (R233). -/
def State.leavesShared (s : State) (p : Packet) : Bool := p.lanes.any fun q => s.leafShared p.home q.addr p.size

/-! ## `HOME_REQUEST_SERVICE` (R228) -/

/-- A request to a structure page is performed at its frame. -/
def State.structAt (s : State) (u i : Nat) (p : Packet) : State :=
  match s.structLanes p.home p p.lanes with
  | (s, vs) =>
    let s := if p.acq && p.kind != .store then s.invalidate p.core p.scope else s
    let s := match p.kind with
      | .store => s.settleL1 p
      | .atom _ => s.dropInCore p
      | _ => s
    s.replyTo u i (.ok vs 0)

/-! ## The ports (R231, R299, R302) -/

/-- The sector at whose stop a CXL port attaches (R302). -/
def cxlSector (port : Nat) : Nat := 3 * (port / 2) + 2 * (port % 2)

/-- Whether a request must go out by a port: a read of words that the slice does not hold, a store that goes past it, or an atomic on host
memory (R231, R240, R258, R318). -/
def State.needsPort (s : State) (l : Nat) (p : Packet) : Bool :=
  match p.kind with
  | .store => (leafAper l == 2 || leafAper l == 4) && p.lanes.any fun q => s.uncached l q.addr
  | .atom _ => leafAper l == 4 || (leafAper l == 2 && (s.inSlice p).isNone)
  | _ => (leafAper l == 2 || leafAper l == 4) && (s.inSlice p).isNone

/-- A request goes from its home to a CXL port or the host port and back, once there is room: it passes the carousel and the crossbars like
any other (R302, R306). -/
def State.toPort (s : State) (u i : Nat) (p : Packet) (l : Nat) : State :=
  let k := cxlPort l p.addr
  let (sec, out, there) : Nat × Nat × List Point :=
    if leafAper l = 2 then (cxlSector k, 96 + k, [.cxl k true, .cxl k false]) else (0, 112, [.host true, .host false])
  let way := secRoute (unitSector u) sec out ++ there ++ secRoute sec (unitSector u) (u % 16) ++ [.homeMem u]
  if s.roomAt way then s.modPacket i fun p => { p with phase := .port, route := way } else s

/-- A request that has been admitted is performed, or waits: for the copies of a page whose leaf it changes, for replicas, or for an
expander, which may stay silent, or return its data with poison (R319) (DESIGN CHOICE, assumption 1). `ready` when it has waited. -/
def State.serveAt (s : State) (u i : Nat) (p : Packet) (ready : Bool) : State :=
  match s.checkIn p.home p with
  | (s, .neg r) => s.replyTo u i r
  | (s, .dropped) => s.dropPacket i
  | (s, .struct) =>
    if !ready && p.kind != .load && (!(s.leavesOf p).isEmpty || s.leavesShared p) then s.modPacket i fun p => { p with phase := .leaf }
    else s.structAt u i p
  | (s, .leaf la l) =>
    if !ready && s.waitsForReplicas l p then s.modPacket i fun p => { p with phase := .replica }
    else if leafAper l = 3 then (s.setAD p.home la l p).passOn u i p l
    else
      match p.phase with
      | .silent _ => s.performAt u i p la l
      | ph =>
        if ph != .port && s.needsPort l p then s.toPort u i p l else
        if leafAper l = 2 && s.needsPort l p && s.pick 3 = 1 then s.next.modPacket i fun p => { p with phase := .silent s.now }
        else if leafAper l = 2 && s.needsPort l p && s.pick 3 = 2 && p.kind != .store then (s.next.unanswered p).performAt u i p la l
        else s.next.performAt u i p la l

/-- Whether a slice-map generation is older than another, modulo 2^16 (R220). -/
def genOlder (a b : W16) : Bool := let d := (b - a).toNat; d != 0 && d < 32768

/-- Whether a home holds a packet back during a retirement: it counts against the limit, beyond which it is answered (R235). -/
def State.heldBack (s : State) (u : Nat) (p : Packet) : Bool :=
  unitOf s.fw p.home == u && (s.home p.home).hold && s.inService p.home ≤ Config.homeCap

/-- Requests a unit could serve: those at its memory queue that its home does not hold back (R235), replies that wait for room, and stores
whose words a sector still owns (DEDUCED, assumption 52). -/
def State.servable (s : State) (u : Nat) : Tab Packet :=
  s.net.packets.filter fun e =>
    e.2.route.head? == some (.homeMem u)
      && (match e.2.phase with | .going | .port | .silent _ | .kept _ _ | .ready _ => true | _ => false) && !s.heldBack u e.2

/-- A store to another device's line that its sector keeps is given up by it, or, once it has been, goes on its way when that has room. -/
def State.letGo (s : State) (i : Nat) (p : Packet) : State :=
  match p.phase with
  | .kept _ 0 => s.sendKept (coreSector p.core) (sameLine p.addr)
  | _ => if s.roomAt p.route.tail then s.modPacket i fun p => { p with phase := .going, route := p.route.tail, born := s.now } else s

/-- `HOME_REQUEST_SERVICE`: a unit serves the request its memory queue grants (DEDUCED, assumption 52). -/
def execHomeRequestService (unit : Nat) (s : State) : Result :=
  .next <| match s.arbitrate (.homeMem unit) (s.servable unit) with
    | none => s
    | some (s, i, p) =>
      match p.phase with
      | .kept _ _ =>
        if p.dev = s.fw.dev then s.flushRsc (coreSector p.core) (sameLine p.addr) else s.letGo i p
      | .ready r => s.replyTo unit i r
      | ph =>
        if genOlder p.smgen s.fw.smgen || unitOf s.fw p.home != unit then s.turnAway unit i p (.nrRedirect s.fw.smgen)
        else if (s.home p.home).hold then s.turnAway unit i p .nrBusy
        else
          match p.own with
          | .stream id => s.serveStream i id p
          | _ => s.serveAt unit i p (ph != .going)

/-- The unit at which a packet waits. -/
def Packet.unit (p : Packet) : Nat := match p.route.head? with | some (.homeMem u) => u | _ => 0

/-- `LEAF_STORE`: the page's lines have been written back and its copies dropped, and the store to the leaf is performed; one whose page
other devices may hold replicas of waits for them. -/
def execLeafStore (pkt : Nat) (s : State) : Result :=
  .next <| match s.packet? pkt with
    | none => s
    | some p =>
      match p.phase with
      | .leaf =>
        if s.leavesShared p then s.modPacket pkt fun p => { p with phase := .replica }
        else s.serveAt p.unit pkt p true
      | _ => s

/-- `REPLICA_INVALIDATION`: every device that may hold a replica has dropped it, and the write is performed (DEDUCED, assumption 40). -/
def execReplicaInvalidation (pkt : Nat) (s : State) : Result :=
  .next <| match s.packet? pkt with
    | none => s
    | some p =>
      match p.phase with
      | .replica => s.serveAt p.unit pkt p true
      | _ => s

/-! ## `UNSCRUBBED_CLEAR_LINE` (R234) -/

/-- The device's own accesses for a home. -/
def homeWho (h page : Nat) : Who := { key := [7, h, page], core := none, launch := 0, dom := 0 }

/-- A clear goes one line further; after the last it clears `UNSCR` and ends. -/
def State.clearNext (s : State) (h : Nat) (c : Clear) : State :=
  let next := if c.next + 1 < 1024 then some { c with next := c.next + 1 } else none
  let s := s.modHome h fun hm => { hm with
    clears := hm.clears.filterMap fun x => if x.page == c.page then next else some x }
  match next, s.leafOf h (c.page * 65536) with
  | none, some (la, l) => s.writeStruct h la (toBytes 8 (bits l 0 64 - (if l.testBit 11 then 2048 else 0)))
  | _, _ => s

/-- Zeros are written to one line of the frame, or sent to the device that holds it. -/
def State.clearLine (s : State) (h : Nat) (c : Clear) (l : Nat) : State :=
  let a := c.page * 65536 + 64 * c.next
  if c.written.contains c.next then s.clearNext h c
  else
    match physKey h l a with
    | some k =>
      (s.setMem ((s.mem.store k (List.replicate 64 0)).keepSlice fun x => lineOf x != a)).clearNext h c
    | none =>
      match s.sync (homeWho h c.page) 2 a (.write (List.replicate 64 0)) with
      | (s, .wait) => s
      | (s, _) => s.clearNext h c

/-- `UNSCRUBBED_CLEAR_LINE`: one of a home's clears goes on. -/
def execUnscrubbedClearLine (home : Nat) (s : State) : Result :=
  .next <|
    let cs := (s.home home).clears
    match cs[s.pick cs.length]? with
    | none => s
    | some c =>
      match s.leafOf home (c.page * 65536) with
      | some (_, l) => s.next.clearLine home c l
      | none => s.next.modHome home fun hm => { hm with clears := hm.clears.filter fun x => x.page != c.page }

/-! ## Negative replies and replays (R212, R213, R229, R230, R267) -/

/-- A request is sent again once its core's queue has room: it hashes its address anew, and keeps its field, its mark and its age. -/
def State.replay (s : State) (i : Nat) : State :=
  (s.modPacket i fun p =>
    if s.hasRoom p.core p.lanes then
      { p with
        phase := .going, route := s.reroute p, smgen := (s.core p.core).smgen, born := s.now, remote := none, told := false
        mark := s.acqMark p.core }
    else { p with phase := .signalled false }).next

/-- What a store that is not performed left in its core's L1 is dropped. -/
def State.dropStored (s : State) (p : Packet) : State :=
  if p.kind == .store then
    s.setMem (s.mem.keepL1 fun k own => !own || k / 2 ^ 64 != p.core || !(p.lanes.any fun q => q.addr ≤ k % 2 ^ 64 && k % 2 ^ 64 < q.addr + p.size))
  else s

/-- The access of a packet fails in all its lanes; a prefetch, or what no group waits for, is dropped. -/
def State.failPacket (s : State) (i : Nat) (p : Packet) (cause : Byte) : State :=
  let s := s.dropStored p
  match p.own with
  | .access g id => (s.dropPacket i).failLanes g id cause p.lanes
  | _ => s.dropPacket i

/-- `NR_FAULT`: the requester holds the request until the fault is signalled; a prefetch is dropped (R262). -/
def execNrFault (pkt : Nat) (s : State) : Result :=
  .next <| match s.packet? pkt with
    | none => s
    | some p =>
      match p.phase with
      | .landed (.nrFault h q) =>
        if (match p.kind with | .pref _ => true | _ => false) then s.dropPacket pkt
        else s.modPacket pkt fun p => { p with
          phase := match look (s.home h).resolved q with
            | some fail => .signalled fail
            | none => .faulted h q }
      | _ => s

/-- `NR_KEY`: a request checked before its core's turnstile was reloaded is checked anew and replayed once; else it fails. -/
def execNrKey (pkt : Nat) (s : State) : Result :=
  .next <| match s.packet? pkt with
    | none => s
    | some p =>
      match p.phase, p.own with
      | .landed .nrKey, .access g _ =>
        let n := get 0 (s.core p.core).reloads p.dom
        if p.keyTries = 0 && n != p.checkedAt then
          (match s.coreCheck p.core (s.grpOf g).launch p.acc p.addr with
           | none => s.failPacket pkt p 4
           | some key => (s.modPacket pkt fun p => { p with key := key, keyTries := 1, checkedAt := n }).replay pkt)
        else s.failPacket pkt p 5
      | .landed .nrKey, _ => s.dropPacket pkt
      | _, _ => s

/-- `NR_BUSY`: the requester waits 32 to 255 cycles. -/
def execNrBusy (pkt : Nat) (s : State) : Result :=
  .next <| match s.packet? pkt with
    | none => s
    | some p =>
      match p.phase with
      | .landed .nrBusy => (s.modPacket pkt fun p => { p with phase := .busy s.busyUntil }).next
      | _ => s

/-- `NR_BUSY_REPLAY`. -/
def execNrBusyReplay (pkt : Nat) (s : State) : Result :=
  .next <| match s.packet? pkt with
    | none => s
    | some p =>
      match p.phase with
      | .busy t => if t ≤ s.now then s.replay pkt else s
      | _ => s

/-- `NR_REDIRECT`: the requester waits for a slice map of the generation named, and replays. -/
def execNrRedirect (pkt : Nat) (s : State) : Result :=
  let go (p : Packet) (g : W16) : State :=
    if genOlder (s.core p.core).smgen g then s.modPacket pkt fun p => { p with phase := .redirected g } else s.replay pkt
  .next <| match s.packet? pkt with
    | none => s
    | some p =>
      match p.phase with
      | .landed (.nrRedirect g) | .redirected g => go p g
      | _ => s

/-- `FAULT_RESOLVED_SIGNAL`: a request held on a fault replays once, or fails. -/
def execFaultResolvedSignal (pkt : Nat) (s : State) : Result :=
  .next <| match s.packet? pkt with
    | none => s
    | some p =>
      match p.phase with
      | .signalled false => s.replay pkt
      | .signalled true => s.failPacket pkt p 5
      | _ => s

/-- A final reply to a request of a group counts where it is marked late (R309). -/
def State.finalLate (s : State) (p : Packet) : State :=
  match p.own with
  | .access g id => (((s.grpOf g).access? id).map fun a => s.replyLate g a p).getD s
  | _ => s

/-- `ERROR_RESPONSE`: the access fails in the packet's lanes; its trap comes once every lane has been answered. -/
def execErrorResponse (pkt : Nat) (s : State) : Result :=
  .next <| match s.packet? pkt with
    | none => s
    | some p =>
      match p.phase with
      | .landed .err => (s.finalLate p).failPacket pkt p 5
      | _ => s

/-! ## The slice map and retirement (R220, R221, R235, R236) -/

/-- Every core of the device has the current map. -/
def State.allInstalled (s : State) : Bool := (List.range 384).all fun c => (s.core c).smgen == s.fw.smgen

/-- Homes that a unit serves. -/
def State.homesOf (s : State) (u : Nat) : List Nat := (List.range 192).filter fun h => unitOf s.fw h == u

/-- The controller assigns homes to a unit. -/
def State.assign (s : State) (hs : List Nat) (u : Nat) : State :=
  s.setFw { s.fw with smap := hs.foldl (fun t h => put t h u) s.fw.smap, smgen := s.fw.smgen + 1 }

/-- `SLICE_MAP_CHANGE`: the controller moves a logical home to another unit of its sector, once every core has the last change. -/
def execSliceMapChange (logical unit : Nat) (s : State) : Result :=
  .next <|
    if 192 ≤ logical || 192 ≤ unit || unitSector logical != unitSector unit || s.fw.retired.contains unit || !s.allInstalled
        || s.fw.retiring.isSome || unitOf s.fw logical == unit then s
    else s.assign [logical] unit

/-- `SLICE_MAP_INSTALL`: a core takes the current map. -/
def execSliceMapInstall (core : Nat) (s : State) : Result :=
  .next <|
    if 384 ≤ core then s
    else s.modCore core fun K => { K with smap := s.fw.smap, smgen := s.fw.smgen }

/-- Whether an address is homed at one of some homes of this device. -/
def State.homedAt (s : State) (hs : List Nat) (a : Nat) : Bool :=
  match homeOf s.fw a with
  | some (d, h) => d == s.fw.dev && hs.contains h
  | none => false

/-- The unit writes its lines back, drops its registrations, and the cores drop their copies. The copies that it holds of other sectors'
lines leave it too. -/
def State.emptyUnit (s : State) (u : Nat) (hs : List Nat) : State :=
  let held := ((s.mem.rsc.filter fun e => e.1 / 2 ^ 64 == unitSector u).map fun e => lineOf (e.1 % 2 ^ 64)).eraseDups.filter fun x =>
    s.rscUnit (unitSector u) x == u
  let s := held.foldl (fun s x => s.evictRsc (unitSector u) x) s
  let mine (a : Nat) : Bool := s.homedAt hs a
  let s := (List.range 12).foldl (fun s x => s.flushRsc x mine) s
  let pages := ((s.mem.slice.map fun e => pageOf e.1).eraseDups).filter fun p => mine (p * 65536)
  let s := pages.foldl (fun s p => s.writeBackRange (p * 65536) (p * 65536 + 65536) true fun _ => true) s
  s.setMem ((s.mem.keepL1 fun k own => own || !mine (k % 2 ^ 64)).keepRsc fun k _ => !mine (k % 2 ^ 64))

/-- Requests held on faults of some homes go to the new unit, where they join their faults again (R235, R237). -/
def State.refault (s : State) (hs : List Nat) : State :=
  let f (ph : Phase) : Phase :=
    match ph with
    | .faulted h _ => if hs.contains h then .redirected s.fw.smgen else ph
    | _ => ph
  s.setNet { s.net with
    packets := mapv (fun _ p => { p with phase := f p.phase }) s.net.packets
    holds := s.net.holds.map fun x => { x with phase := f x.phase } }

/-- A home's outstanding faults as the records of its queue give them (R235). -/
def State.faultsOf (s : State) (h : Nat) : List FaultRec :=
  let fq := (s.home h).fq
  let rd (o n : Nat) : Nat := ((s.readStruct h (fq + o) n).map ofBytes).getD 0
  let res := rd 0x1008 4 % 2 ^ 31
  let pi := rd 0x1000 4 % 2 ^ 31
  ((List.range ((pi + 2 ^ 31 - res) % 2 ^ 31)).take 64).map fun i =>
    let seq := (res + 1 + i) % 2 ^ 31
    { seq := seq, page := pageOf (bits (rd (64 * ((seq + 2 ^ 31 - 1) % 64)) 64) 64 64)
      peers := (((s.home h).faults.find? fun f => f.seq == seq).map FaultRec.peers).getD [] }

/-- `UNIT_RETIREMENT`: unit u's homes move to unit t of its sector; what u holds and has not performed is redirected. -/
def execUnitRetirement (u t : Nat) (s : State) : Result :=
  .next <|
    if 192 ≤ u || 192 ≤ t || u == t || unitSector u != unitSector t || s.fw.retired.contains t || s.fw.retired.contains u
        || s.fw.retiring.isSome || !s.allInstalled then s
    else
      let hs := s.homesOf u
      let s := s.assign hs t
      let s := s.setFw { s.fw with retiring := some (u, t) }
      let s := hs.foldl (fun s h => s.modHome h fun hm => { hm with hold := true }) s
      let held := s.net.packets.filter fun e =>
        e.2.dev == s.fw.dev && hs.contains e.2.home
          && (match e.2.phase with
              | .leaf | .replica | .silent _ | .port | .passing _ => true
              | .going => e.2.route.head? == some (.homeMem u)
              | _ => false)
      ((held.foldl (fun s e => s.turnAway u e.1 e.2 (.nrRedirect s.fw.smgen)) s).emptyUnit u hs).refault hs

/-- `RETIREMENT_TAKEOVER`: the moved homes, with their faults, handed over or rebuilt from their records, are served by the new unit. -/
def execRetirementTakeover (t : Nat) (s : State) : Result :=
  .next <| match s.fw.retiring with
    | none => s
    | some (u, t') =>
      if t != t' then s
      else
        let s := (s.homesOf t).foldl (fun s h => s.modHome h fun hm =>
          { hm with hold := false, faults := if s.pick 2 = 1 && (s.structKey h (pageOf hm.fq)).isSome then s.faultsOf h else hm.faults }) s
        s.next.setFw { s.fw with retiring := none, retired := u :: s.fw.retired }

/-! ## `TURNSTILE_RELOAD` (R333) -/

/-- `TURNSTILE_RELOAD`: a core reloads the image of a domain whose `TSGEN` has been stored. -/
def execTurnstileReload (core : Nat) (s : State) : Result :=
  .next <| match s.staleTs core with
    | [] => s
    | d :: _ =>
      match s.readImage core d with
      | (s, .wait) => s
      | (s, .ok b) => s.setTs core d b true
      | (s, .fail _ _) => s.setTs core d [] true

/-! ## The second tier (R319) -/

/-- `CXL_RESPONSE_TIMEOUT`: an expander has been silent for 10 µs: its line is treated as poisoned, and the access answered so; a store gets
an error response. -/
def execCxlResponseTimeout (pkt : Nat) (s : State) : Result :=
  .next <| match s.packet? pkt with
    | none => s
    | some p =>
      match p.phase with
      | .silent t =>
        if s.now < t + Config.us 10 then s
        else
          (match s.checkIn p.home p with
           | (s, .leaf la l) =>
             if p.kind == .store then (s.unanswered p).replyTo p.unit pkt .err else (s.unanswered p).performAt p.unit pkt p la l
           | (s, .neg r) => s.replyTo p.unit pkt r
           | (s, _) => s.dropPacket pkt)
      | _ => s

/-- `CXL_PORT_DOWN`: a port goes down, or comes back. -/
def execCxlPortDown (port : Nat) (up : Bool) (s : State) : Result :=
  .next <|
    if 8 ≤ port then s
    else
      let rest := s.fw.cxlDown.filter fun x => x != port
      s.setFw { s.fw with cxlDown := if up then rest else port :: rest }

end Sys2Proof.Machine
end

