-- ==== Sys2Proof/Machine/NetEvents.lean ====
section
/-!
DEFINITION. The network inside the device (R299 to R307, R315): what holds a request at its core, hits in the copies above the homes, the
grants of the arbitration points, the slack clock, and lifetimes.
-/

namespace Sys2Proof.Machine

/-! ## What holds a request at its core (R245, R253, R278, R279) -/

/-- Bytes of a request that its core's L1 holds, with whether it owns them. -/
def State.l1Of (s : State) (p : Packet) : List (Option CByte) :=
  p.lanes.flatMap fun q => (List.range p.size).map fun i => look s.mem.l1 (l1Key p.core (q.addr + i))

def State.rscOf (s : State) (p : Packet) : List (Option CByte) :=
  p.lanes.flatMap fun q => (List.range p.size).map fun i => look s.mem.rsc (rscKey (coreSector p.core) (q.addr + i))

/-- Whether a request is a read of a `POLL`. -/
def State.isPoll (s : State) (p : Packet) : Bool :=
  match p.own with
  | .access g id => ((s.grpOf g).access? id).any fun a => a.kind == .poll
  | _ => false

/-- A load that its core's L1 may answer: plain, of a scope below `.gang`, with all its bytes there (R273). -/
def State.l1Hit (s : State) (p : Packet) : Bool :=
  p.kind == .load && !p.acq && !s.isPoll p && p.scope.rank < 3 && (s.l1Of p).all fun b => b.isSome

/-- A load that its sector's remote copies may answer. -/
def State.rscHit (s : State) (p : Packet) : Bool :=
  p.kind == .load && !p.acq && !s.isPoll p && p.scope.rank < 6 && (s.rscOf p).all fun b => b.isSome

def State.ownsIn (s : State) (p : Packet) : Bool := (s.l1Of p).any fun b => b.any CByte.own

/-- Whether a store that its sector keeps of another device's line has not been performed there yet: requests for the line wait, but those
that the sector's copy answers (R300) (DESIGN CHOICE, assumption 69). -/
def State.behindKept (s : State) (p : Packet) : Bool :=
  p.dev != s.fw.dev && !s.rscHit p && s.net.packets.any fun e =>
    (match e.2.phase with | .kept _ _ => true | _ => false) && e.2.dev != s.fw.dev && coreSector e.2.core == coreSector p.core
      && e.2.lanes.any fun q => p.lanes.any fun x => sameLine q.addr x.addr

/-- Whether a request waits at its core (DEDUCED, assumption 30). -/
def State.blocked (s : State) (p : Packet) : Bool :=
  (s.ownsIn p && !s.l1Hit p) || s.behindKept p || (p.kind == .store && !s.l1Room p.core (lineOf p.addr))
    || match p.own with
       | .access g id =>
         s.behindOlder p || s.heldDeferred memOpOf p || (p.rel && !s.relDone g p.mask id p.scope)
       | _ => false

/-! ## Hits (R273, R300) -/

/-- The words of a request in copies. -/
def Packet.fromCopies (p : Packet) (b : List (Option CByte)) : List (Nat × W64) :=
  ((List.range p.lanes.length).zip p.lanes).map fun q =>
    (q.2.lane, w64 (ofBytes (((b.drop (p.size * q.1)).take p.size).map fun c => (c.map CByte.val).getD 0)))

/-- Lanes answered from copies that meet a word with an uncorrectable error which no word owned there has replaced (R268). -/
def State.badLanes (s : State) (p : Packet) (cell : Nat → Option CByte) : Lanes :=
  lanesOf ((p.lanes.filter fun q =>
    (List.range ((q.addr + p.size - 1) / 4 + 1 - q.addr / 4)).any fun i =>
      get false s.mem.bad (q.addr / 4 + i) && !(List.range 4).all fun j => (cell (4 * (q.addr / 4 + i) + j)).any CByte.own).map LaneReq.lane)

/-- A read answered above the home exposes another context whose unperformed or logged write it may have read (R339). -/
def State.noteHit (s : State) (p : Packet) : State :=
  let s := p.lanes.foldl (fun s q => s.noteAccess (some p.dom) q.addr p.size) s
  let others := (s.net.packets.filter fun e =>
    e.2.core == p.core && e.2.kind.isStore && e.2.dom != p.dom
      && e.2.lanes.any fun x => p.lanes.any fun y => rangesMeet x.addr e.2.size y.addr p.size).map fun e => e.2.dom
  others.foldl (fun s d => s.expose d) s

/-! ## `PACKET_GRANT` (R306) -/

/-- The link at which a packet stands. -/
def Packet.via (p : Packet) : Option Nat := match p.route.head? with | some (.rontan l) => some l | _ => none

/-- A request for another device leaves by a Rontan link (R299, R313, R358); it stays where no link or id is free. -/
def State.leaveFor (s : State) (i : Nat) (p : Packet) : State :=
  match s.sendRemote p.dev (fun id => .request s.fw.dev id false (lineOf p.addr) p.dom p.key.toNat (p.carry s.now) p.rem) (.packet i) 0 p.via with
  | none => s
  | some (s, id) =>
    let s := if isWrite p.acc then s.expose p.dom else s
    s.modPacket i fun p => { p with phase := .remote, remote := some id, route := [] }

/-- A packet at a link that has gone down goes on to another of its route set, if one is up and its way has room (R358). -/
def State.otherLink (s : State) (i : Nat) (p : Packet) (dest : Nat) (go : State) : State :=
  match p.via with
  | some l =>
    if (s.link l).up then go
    else
      (match s.pickLink dest with
       | some k =>
         let way := secRoute (linkSector l) (linkSector k) (64 + k) ++ [.rontan k]
         if s.roomAt way then s.next.modPacket i fun p => { p with route := way } else s.next
       | none => go)
  | none => go

/-- Where a copy of a beat splits: at the crossbar of a sector it has come to from another. -/
def Packet.splitsAt (p : Packet) : Option Nat :=
  match p.phase, p.route with
  | .beat .., [_, .xbar t _] => some t
  | _, _ => none

/-- The copies it splits into (R296). -/
def State.splitBeat (s : State) (p : Packet) (t : Nat) : List Packet :=
  match p.phase with
  | .beat sid code src b dests => s.atCrossbar t p.home sid code src b dests p.late
  | _ => []

/-- A packet goes on from the point that granted it: a request that has no further point leaves for another device, a reply that has
none has landed; a copy of a beat splits, or reaches the router of a quad. -/
def State.hop (s : State) (i : Nat) (p : Packet) : State :=
  match p.splitsAt with
  | some t => (s.setNet { s.net with packets := del s.net.packets i }).sendPackets (s.splitBeat p t)
  | none =>
    match p.phase, p.route.tail with
    | .back r, [] => s.modPacket i fun p => { p with phase := .landed r, route := [] }
    | .going, [] => s.otherLink i p p.dev (s.leaveFor i p)
    | .passing l, [] => s.otherLink i p (leafPeer l) (s.passSend i p l p.via)
    | .beat sid code src b dests, [] =>
      (match p.route with
       | .xbar t out :: _ => s.beatLands i (8 * t + (out - 32)) sid code src b dests p.late
       | _ => s)
    | _, r => s.modPacket i fun p => { p with route := r }

/-- A request takes the slice map as its core holds it when it leaves (R221); its source sends it now (R315). -/
def State.stamped (s : State) (p : Packet) : Packet :=
  let p : Packet := { p with born := s.now }
  if p.dev = s.fw.dev then
    { p with smgen := (s.core p.core).smgen, route := routeTo p.core (get p.home (s.core p.core).smap p.home) }
  else p

/-- Whether a store to another device's line stays in its sector's copy of the line, which then owns its words (R300). -/
def State.keepsFar (s : State) (p : Packet) : Bool :=
  p.kind == .store && p.dev != s.fw.dev && !p.route.tail.isEmpty && !s.joinsBad p && !(p.rel && 6 ≤ p.scope.rank) && s.pick 2 = 1

/-- Such a store is registered in the sector's copy, in the slice that holds it. -/
def State.ownFar (s : State) (i : Nat) (p : Packet) : State :=
  let s := p.lanes.foldl (fun s q => s.fillRsc (coreSector p.core) q.addr (toBytes p.size q.c.toNat) true) s
  (s.settleL1 p).modPacket i fun p =>
    { p with phase := .kept 0 0, route := .homeMem (s.rscUnit (coreSector p.core) p.addr) :: p.route.tail }

/-- A request leaves its core: a load may be answered by the copies, a store is written into the L1, a release writes back first. -/
def State.leaveCore (s : State) (i : Nat) (p : Packet) : State :=
  let back := [Point.xbar (coreSector p.core) (quadOut p.core)]
  let rsc (a : Nat) : Option CByte := look s.mem.rsc (rscKey (coreSector p.core) a)
  if s.l1Hit p && (s.ownsIn p || s.pick 2 = 1) then
    let bad := s.badLanes p fun a => look s.mem.l1 (l1Key p.core a)
    (s.next.noteHit p).modPacket i fun p => { p with phase := .landed (.ok (p.fromCopies (s.l1Of p)) bad), route := [] }
  else if s.rscHit p && s.roomAt back && s.pick 2 = 1 then
    (s.next.noteHit p).modPacket i fun p => { p with phase := .back (.ok (p.fromCopies (s.rscOf p)) (s.badLanes p rsc)), route := back }
  else
    let s := s.next
    let s := if p.rel then s.releaseAt p.core p.scope else s
    if s.keepsFar p then s.next.ownFar i p
    else
      let s := if p.kind == .store then p.lanes.foldl (fun s q => s.fillL1 p.core q.addr (toBytes p.size q.c.toNat) true) s else s
      (s.modPacket i fun _ => s.stamped p).hop i (s.stamped p)

/-- Points that could grant something, in order of their first packet. The memory queue of a home grants by serving. -/
def State.points (s : State) : List Point :=
  ((s.net.packets.filterMap fun e =>
    if e.2.phase.moves then e.2.route.head? else none).filter fun pt => match pt with | .homeMem _ => false | _ => true).eraseDups

/-- Whether the queue a packet goes to next has room: each holds at most 16 (R306). -/
def State.roomAhead (s : State) (p : Packet) : Bool :=
  match p.splitsAt with
  | some t => s.roomFor (s.splitBeat p t)
  | none => s.roomAt p.route.tail

/-- Packets a point may grant now: those whose next queue has room; at a core those that nothing holds, at a link none while it is paused for
requests or holds 512 flits (R311, R312) (DEDUCED, assumption 52). -/
def State.grantable (s : State) (pt : Point) : Tab Packet :=
  let q := (s.queueAt pt).filter fun e => s.roomAhead e.2
  match pt with
  | .core _ => q.filter fun e => !s.blocked e.2
  | .rontan l => if (s.link l).up && ((s.link l).paused.contains 0 || 512 ≤ (s.link l).unacked.length) then [] else q
  | _ => q

/-- `PACKET_GRANT`: a point grants one of its packets. -/
def execPacketGrant (point : Nat) (s : State) : Result :=
  .next <| match s.points[point]? with
    | none => s
    | some pt =>
      match s.arbitrate pt (s.grantable pt) with
      | none => s
      | some (s, i, p) =>
        match pt with
        | .core _ => s.leaveCore i p
        | _ => s.hop i p

/-! ## `SLACK_CLOCK_TICK` (R304, R305, R344) -/

/-- Whether a packet is held in a queue, in service, or waiting for a replay; one that another device has counts there. -/
def Packet.waits (p : Packet) : Bool :=
  match p.phase with
  | .going | .port | .passing _ | .back _ | .beat .. => !p.route.isEmpty
  | .remote | .landed _ | .polling _ | .kept _ _ | .near => false
  | _ => true

/-- A finite field falls by 1, and never below 0. -/
def tickField (f : Nat) : Nat := if f = 0xFFF then f else f - 1

def BeatTo.tick (t : BeatTo) : BeatTo := { t with field := tickField t.field }

/-- A finite field falls by 1; at 0 the packet is late. -/
def Packet.tick (p : Packet) : Packet :=
  let ph := match p.phase with
    | .beat sid code src b dests => .beat sid code src b (dests.map BeatTo.tick)
    | x => x
  { p with phase := ph, field := tickField p.field, late := p.late || tickField p.field == 0 }

def State.tickPackets (s : State) : State :=
  s.setNet { s.net with packets := mapv (fun _ p => if p.waits then p.tick else p) s.net.packets }

/-- A synchronous access that has been answered negatively, or waits at its home, counts down like a packet (R230, R304). -/
def State.tickHolds (s : State) : State :=
  s.setNet { s.net with
    holds := s.net.holds.map fun h =>
      if h.phase == .remote then h else { h with field := tickField h.field, late := h.late || tickField h.field == 0 } }

/-- What a request carries counts down: its field, at 0 of which it is late, and, until its home has taken it, its lifetime (R304, R305,
R315). -/
def tickCarry (x : Carry) : Carry :=
  { x with
    field := tickField x.field, late := x.late || tickField x.field == 0
    life := if x.adm then x.life else x.life - Config.slackTick }

/-- What has arrived from another device and waits counts down like a packet (R304). -/
def tickArrived : Instr → Instr
  | .remoteWriteReceive src id phys addr dom ⟨key, x⟩ op => .remoteWriteReceive src id phys addr dom ⟨key, tickCarry x⟩ op
  | .messagePacketReceive src id phys addr dom ⟨key, x⟩ off total b =>
    .messagePacketReceive src id phys addr dom ⟨key, tickCarry x⟩ off total b
  | i => i

/-- What has arrived and waits for as long as its lifetime is discarded (R315). -/
def spent : Instr → Bool
  | .remoteWriteReceive _ _ _ _ _ ⟨_, x⟩ _ | .messagePacketReceive _ _ _ _ _ ⟨_, x⟩ _ _ _ => !x.adm && x.life == 0
  | _ => false

/-- What may still be on a wire does not count down (DESIGN CHOICE, assumption 54). -/
def State.tickInbox (s : State) : State :=
  let n := s.ids
  (s.setInbox ((((List.range s.inbox.length).zip s.inbox).map fun e =>
    if Config.freeChoice (n + 2 ^ 64 * (e.1 + 1)) % 2 = 1 then tickArrived e.2 else e.2).filter fun i => !spent i)).next

/-- The arithmetic clock at the operating point, in MHz: 1.4 GHz, the nominal one, before one has been granted or where the table has none
(R22, R356) (DESIGN CHOICE, assumption 76). -/
def State.clock (s : State) : Nat :=
  match s.ring.opPoint.toNat with
  | 0 => 1400
  | n + 1 => ((s.fw.points[n]?).map Prod.snd).getD 1400

/-- Time passes for a context: with a block resident, or with a block admitted and none resident. -/
def State.tickCtx (s : State) (d : Nat) (c : Ctx) : Ctx :=
  if s.blocks.any fun e => s.domOf e.2.launch == d then
    { c with vtime := c.vtime + Config.slackTick, cycles := c.cycles + 2 * s.clock }
  else if s.launches.any fun e => e.2.dom == d && e.2.st == .admitted then { c with stolen := c.stolen + Config.slackTick }
  else c

/-- `SLACK_CLOCK_TICK`: 2 ns go by (DESIGN CHOICE, assumption 8). -/
def execSlackClockTick (s : State) : Result :=
  .next <|
    let s := s.setNow (s.now + Config.slackTick)
    (s.setCtxs (mapv (fun d c => s.tickCtx d c) s.ctxs)).tickPackets.tickHolds.tickInbox

/-! ## `PACKET_LIFETIME_EXPIRY` (R315) -/

/-- The device that a request which has left its core is on its way to. -/
def State.boundFor (s : State) (p : Packet) : Option Nat :=
  match p.phase, p.route with
  | _, .core _ :: _ => none
  | .going, _ => if p.dev = s.fw.dev then none else some p.dev
  | .passing l, _ => some (leafPeer l)
  | _, _ => none

/-- A request for another device that has been held here for its whole lifetime is discarded; its access still waits for a reply, until
its sends are exhausted. -/
def execPacketLifetimeExpiry (pkt : Nat) (s : State) : Result :=
  .next <| match s.packet? pkt with
    | none => s
    | some p =>
      match s.boundFor p with
      | none => s
      | some dest =>
        if s.now < p.born + lifetime || !s.idFree then s
        else
          let id := s.freeId
          let s := s.setFab { s.fab with
            nextId := (id + 1) % 16777216
            used := s.fab.used ++ [(id, s.now)]
            reqs := put s.fab.reqs id
              { dest := dest, body := .idle, sends := 4, sentAt := p.born + Config.us 24, for_ := .packet pkt, done := none
                failed := false, seen := 0, told := false, link := none, got := [], bad := [] } }
          s.modPacket pkt fun p => { p with phase := .remote, remote := some id, route := [] }

end Sys2Proof.Machine
end

