-- ==== Sys2Proof/Machine/Fabric.lean ====
section
/-!
DEFINITION. The Rontan fabric (R208, R231, R311 to R317, R322, R331, R358): link reliability and pause, replies and signals from other devices,
their requests, dedupe, messages, resends and request ids.
-/

namespace Sys2Proof

/-! ## Operations of remote requests -/

/-- A request is known as a write that must not be performed twice. -/
def RemOp.storing : RemOp → Bool
  | .read _ | .reads _ _ | .pref _ => false
  | _ => true

/-- The bytes a request names, each with what is asked there. -/
def RemOp.parts (addr : Nat) : RemOp → List (Nat × Machine.SOp)
  | .read n => [(addr, .read n)]
  | .write b => [(addr, .write b)]
  | .atom op t c d => [(addr, .atom op t c d)]
  | .reads n offs => offs.map fun o => (addr + o, .read n)
  | .writes l => l.map fun x => (addr + x.1, .write x.2)
  | .atoms op t l => l.map fun x => (addr + x.1, .atom op t x.2.1 x.2.2)
  | .pref n => [(addr, .read n)]
  | .discard _ _ | .launch _ _ => []

/-- The kind of access a request is (R211). -/
def RemOp.acc : RemOp → Nat
  | .read _ | .reads _ _ | .pref _ => 1
  | .write _ | .writes _ | .discard _ _ => 2
  | _ => 3

/-- The atomic a request makes. -/
def RemOp.atomic : RemOp → Option (AtomOp × Ty)
  | .atom op t _ _ | .atoms op t _ => some (op, t)
  | _ => none

end Sys2Proof

namespace Sys2Proof.Machine

/-- The kind of access that a request's sender names, where it may be the request's. -/
def accOf (op : RemOp) (x : Carry) : Nat :=
  if needOf x.acc != needOf op.acc || isWrite x.acc != isWrite op.acc then
    (if op.acc = 1 && x.acc = 4 then 4 else op.acc)
  else if op.acc = 3 then 3
  else if x.acc = 3 then op.acc
  else x.acc

/-! ## Links (R311, R312) -/

/-- Where a sequence number stands among the flits on the wire, of which at most 512 are unacknowledged (DESIGN CHOICE, assumption 49). -/
def Link.place (k : Link) (seq : Nat) : Option Nat := ((k.unacked.take 512).map Prod.fst).findIdx? fun x => x == seq

/-- Flits before a place are acknowledged. -/
def Link.acked (k : Link) (n now : Nat) : Link :=
  if n = 0 then k else { k with unacked := k.unacked.drop n, resends := 0, sentAt := now }

/-- Every unacknowledged flit is sent again. -/
def Link.resent (k : Link) (now : Nat) : Link := { k with resends := k.resends + 1, sentAt := now }

/-- `LINK_ACK`: every flit up to the one named is acknowledged (DESIGN CHOICE, assumption 49). -/
def execLinkAck (link seq : Nat) (s : State) : Result :=
  .next <| match (s.link link).up, (s.link link).place seq with
    | true, some i => s.modLink link fun k => k.acked (i + 1) s.now
    | _, _ => s

/-- `LINK_NAK`: the receiver expects the flit named; it and those after it are sent again (DESIGN CHOICE, assumption 49). -/
def execLinkNak (link seq : Nat) (s : State) : Result :=
  .next <| match (s.link link).up, (s.link link).place seq with
    | true, some i => s.modLink link fun k => (k.acked i s.now).resent s.now
    | _, _ => s

/-- `LINK_ACK_TIMEOUT`: after 1 µs without an acknowledgement every unacknowledged flit is sent again. -/
def execLinkAckTimeout (link : Nat) (s : State) : Result :=
  .next <|
    let k := s.link link
    if k.up && !k.unacked.isEmpty && k.sentAt + Config.us 1 ≤ s.now && k.resends < 8 then s.modLink link fun k => k.resent s.now else s

/-- `LINK_RETRAIN`: a link that has sent one flit again eight times, or is down, retrains; failing, it goes down and loses its flits. One
that was down begins anew: its numbers at 0, with nothing paused (DESIGN CHOICE, assumption 49). -/
def execLinkRetrain (link : Nat) (ok : Bool) (s : State) : Result :=
  .next <|
    let k := s.link link
    if 18 ≤ link || (k.up && k.resends < 8) then s
    else if !ok then s.modLink link fun k => { k with up := false, unacked := [], resends := 0 }
    else if k.up then s.modLink link fun k => { k with resends := 0, sentAt := s.now }
    else s.modLink link fun _ => { linkReset with ackAt := s.now, sentAt := s.now }

/-- `PAUSE_FRAME`: the peer stops or restarts a class of the link; class 1 is never paused. -/
def execPauseFrame (link cls : Nat) (on : Bool) (s : State) : Result :=
  .next <|
    if cls = 1 || 4 ≤ cls then s
    else s.modLink link fun k =>
      { k with paused := if on then cls :: k.paused.filter fun x => x != cls else k.paused.filter fun x => x != cls }

/-- What has arrived in a class that can be paused and has not been taken in (R311). -/
def State.waitingIn (s : State) (cls : Nat) : Nat :=
  (s.inbox.filter fun i => match i with
    | .remoteWriteReceive .. => cls == 0
    | .messagePacketReceive .. => cls == 2
    | _ => false).length

/-- A link's peer is sent pauses for the classes whose buffer is full, and none for the others (R311) (DESIGN CHOICE, assumption 49). -/
def State.paces (s : State) (link : Nat) : State :=
  s.modLink link fun k => { k with pausing := [0, 2].filter fun c => Config.inboxRoom ≤ s.waitingIn c }

/-- A link acknowledges every flit that it has accepted, naming the last (R312) (DESIGN CHOICE, assumption 49). -/
def Link.sendAck (k : Link) (now : Nat) : Link :=
  { k with sinceAck := 0, ackAt := now, lastAck := some (false, (k.expect + 4095) % 4096) }

/-- `ACK_INTERVAL`: flits accepted are acknowledged 100 ns after the last acknowledgement. -/
def execAckInterval (link : Nat) (s : State) : Result :=
  .next <|
    let k := s.link link
    let s := s.paces link
    if k.sinceAck != 0 && k.ackAt + Config.ns 100 ≤ s.now then s.modLink link fun k => k.sendAck s.now else s

/-! ## Answers from other devices (R229, R313, R316, R331) -/

def State.dropReq (s : State) (id : Nat) : State := s.setFab { s.fab with reqs := del s.fab.reqs id }
def State.modReq (s : State) (id : Nat) (f : RemReq → RemReq) : State := s.setFab { s.fab with reqs := upd s.fab.reqs id f }

/-- The way of a reply that came in on a link: to the core, or first to the home that passed the request on (R231, R299, R302). -/
def State.wayBack (s : State) (p : Packet) (link : Option Nat) : List Point :=
  match link with
  | none => if p.dev = s.fw.dev then routeBack p.core (unitOf s.fw p.home) else routeIn p.core none
  | some l =>
    .inlet l :: if p.dev = s.fw.dev then
        let u := unitOf s.fw p.home
        secRoute (linkSector l) (unitSector u) (u % 16) ++ routeBack p.core u
      else routeIn p.core link

/-- A line brought from another device is kept where a load or prefetch brings it: in the core's L1, as the sector's copy, and, under the
leaf of a peer page, in the slice of its home (R231, R262, R300). One that has been written since, or that an acquire has come after, is not
kept (R273), but as a replica (R241) (DESIGN CHOICE, assumption 69). -/
def State.keepFar (s : State) (p : Packet) (b : List Byte) (rep : Bool) : State :=
  let a := lineOf p.addr
  if b.length != 64 then s
  else if p.told then s.setMem (s.mem.forget a 64)
  else
    let s :=
      if p.dev = s.fw.dev then
        (match s.leafOf p.home a with
         | some (_, l) =>
           if leafAper l != 3 || (objPol (s.objEntry (leafObj l)) = 3 && !s.holdsLine a) then s
           else s.allocLine p.home l a fun m => m.clean a b
         | none => s)
      else s
    if p.mark != s.acqMark p.core then (if rep then s.fillRsc (coreSector p.core) a b false true else s)
    else
      let s := if p.kind == .pref true then s else s.fillL1 p.core a b false
      let may :=
        if p.dev = s.fw.dev then (s.leafOf p.home a).any fun l => s.rscMay (unitOf s.fw p.home) l.2 p
        else true
      (if may && s.pick 2 = 1 then s.fillRsc (coreSector p.core) a b false rep else s).next

/-- What a write performed elsewhere means here: copies of its line in the core and its sector are brought up to date or dropped, the slice
copies nothing older, and requests that have read the line are told. -/
def State.wroteFar (s : State) (p : Packet) : State :=
  let s := p.lanes.foldl (fun s q => (s.setMem (s.mem.forget q.addr p.size)).noteWrite q.addr p.size) (s.dropInSector p)
  match p.kind with
  | .store => s.settleL1 p
  | _ => s.dropInCore p

/-- A reply of another device to a packet starts its way to the core, from the link it came in on, with the slack and the mark that it carries
(R303, R305, R307); an access given up after its sends has none. -/
def State.comeBack (s : State) (i : Nat) (link : Option Nat) (r : Reply) (x : Ret) (line : List Byte) : State :=
  match s.packet? i with
  | none => s
  | some p =>
    let s := match r, p.kind with
      | .ok _ _, .store | .ok _ _, .atom _ => s.wroteFar p
      | .ok _ _, _ => s.keepFar p line x.rmost
      | _, _ => s
    let s := match r with
      | .ok _ _ => if p.acq && p.kind != ReqKind.store then s.invalidate p.core p.scope else s
      | _ => s
    let route := s.wayBack p link
    s.next.modPacket i fun p =>
      { p with phase := .back r, route := route, remote := none, field := min p.field x.field, late := p.late || x.late }

/-- Whether a packet still waits for a request's answer. -/
def State.awaits (s : State) (i id : Nat) : Bool :=
  (s.packet? i).any fun p => p.phase == .remote && p.remote == some id

/-- A write of another device has been performed, and its reply is recorded (R314). -/
def State.record (s : State) (src id : Nat) (b : List Byte) : State :=
  s.setFab { s.fab with dedupe := s.fab.dedupe ++ [{ src := src, id := id, at_ := s.now, reply := b }] }

/-- Bytes of a message have been performed; it completes when all have been counted (R316). -/
def State.countUnit (s : State) (src id off n total : Nat) (x : Ret) : State :=
  match s.fab.msgs.find? fun m => m.src == src && m.id == id with
  | none => s
  | some m =>
    let new := !m.units.contains (off / 256)
    let m := if new then { m with units := (off / 256) :: m.units, count := m.count + n } else m
    let rest := s.fab.msgs.filter fun x => !(x.src == src && x.id == id)
    if m.count = total then ((s.setFab { s.fab with msgs := rest }).record src id []).sendTo src (.reply id x [] [])
    else s.setFab { s.fab with msgs := m :: rest }

/-- The operation of a request. -/
def reqOp : FlitBody → Option RemOp
  | .request _ _ _ _ _ _ _ op => some op
  | _ => none

/-- Lanes of a packet whose word another device gave with an uncorrectable error (R268). -/
def Packet.badIn (p : Packet) (bad : List Nat) : Lanes :=
  Sys2Proof.Machine.lanesOf ((((List.range p.lanes.length).zip p.lanes).filter fun q =>
    let o := if p.kind == .load then q.2.addr % 64 else p.size * q.1
    bad.any fun x => o ≤ x && x < o + p.size).map fun q => q.2.lane)

/-- Words that a read of another device has given: which of them have an uncorrectable error is known here until they are read again (R268).
-/
def State.noteBad (s : State) (a n : Nat) (bad : List Nat) : State :=
  (List.range n).foldl (fun s i => if (a + i) % 4 = 0 then s.setBadMem ((a + i) / 4) (bad.contains i) else s) s

/-- A reply to an access of a command was late (R309). -/
def State.lateFor (s : State) (k : List Nat) (late : Bool) : State :=
  match k with
  | 3 :: c :: _ => if late then s.modCmd c fun c => { c with lateAt := some (c.lateAt.getD (w64 (k.getLastD 0))) } else s
  | _ => s

/-- Bytes that a message of a command covers. -/
def messageLen : FlitBody → Nat
  | .message _ _ _ _ _ _ _ _ total _ => total
  | _ => 0

/-- A message of a command has been answered: what the command's core and sector copy of its lines is old (R283). -/
def State.endMessage (s : State) (id c off n : Nat) : State :=
  let s := s.modCmd c fun c => { c with msgs := c.msgs.filter fun x => x != id }
  ((s.cmd? c).map fun k => s.dropLines1 k.core off n).getD s

/-- A reply of another device to a request of this one, which has come in on a link. -/
def State.gotReply (s : State) (link id : Nat) (x : Ret) (b : List Byte) (bad : List Nat) : State :=
  match look s.fab.reqs id with
  | none => s
  | some r =>
    match r.for_ with
    | .packet i =>
      if s.awaits i id then
        ((s.packet? i).map fun p => (s.dropReq id).comeBack i (some link)
          (.ok (if p.kind = ReqKind.store then p.lanes.map fun q => (q.lane, 0) else p.vals b) (p.badIn bad)) x
          (if bad.isEmpty then b else [])).getD s
      else s.dropReq id
    | .command c off => ((s.dropReq id).lateFor [3, c, off] x.late).endMessage id c off (messageLen r.body)
    | .hold k =>
      if r.done.isSome || r.failed then s
      else
        let s := match reqOp r.body with
          | some (.read n) => s.noteBad (k.getLastD 0) n bad
          | _ => s
        (s.lateFor k x.late).modReq id fun r => { r with done := some b, bad := bad }
    | .launch core tag gen =>
      (match b with
       | [] => s.modReq id fun r => { r with done := some (r.done.getD []) }
       | x :: _ =>
         let t := get tagReset (s.core core).tags tag
         if t.owner.isSome && t.gen == gen then (s.dropReq id).tagDone core tag gen (x.zeroExtend 64) 0
         else s.modReq id fun r => { r with done := some b })
    | .forward src rid off n total =>
      let s := s.dropReq id
      if total != 0 then s.countUnit src rid off n total x
      else
        let s := if bad.isEmpty && ((reqOp r.body).map RemOp.storing).getD false then s.record src rid b else s
        s.sendTo src (.reply rid x b bad)

/-- A packet of a message that brings what a command reads: its bytes are kept by their place until all have come (R316). -/
def State.gotData (s : State) (link id : Nat) (x : Ret) (off total : Nat) (b : List Byte) (bad : List Nat) : State :=
  match look s.fab.reqs id with
  | none => s
  | some r =>
    let got := if r.got.any fun q => q.1 == off then r.got else (off, b) :: r.got
    let bads := (bad.map fun i => off + i) ++ r.bad
    let s := s.modReq id fun r => { r with got := got, bad := bads }
    if (got.map fun q => q.2.length).sum < total then s
    else s.gotReply link id x ((got.insertionSort fun p q => p.1 ≤ q.1).flatMap Prod.snd) bads.eraseDups

/-- A request of this device has failed: it got an error response, or no reply to four sends (R313) (DEDUCED, assumption 48). -/
def State.gotError (s : State) (link : Option Nat) (id : Nat) (x : Ret) (code : Byte := 5) : State :=
  match look s.fab.reqs id with
  | none => s
  | some r =>
    match r.for_ with
    | .packet i => if s.awaits i id then (s.dropReq id).comeBack i link .err x [] else s.dropReq id
    | .command c off =>
      let s := ((s.dropReq id).lateFor [3, c, off] x.late).endMessage id c off (messageLen r.body)
      if (s.cmd? c).any fun k => k.done || k.status != 0 then s else s.endCmd c code off
    | .hold k => if r.done.isSome then s else (s.lateFor k x.late).modReq id fun r => { r with failed := true }
    | .launch core tag gen => (s.dropReq id).tagDone core tag gen 5 0
    | .forward src rid _ _ _ => (s.dropReq id).sendTo src (.errorReply rid x)

/-- What a failure found at this device carries. -/
def retNone : Ret := { field := 0xFFF, late := false, rmost := false }

/-- A negative reply of another device as a reply at the requester; its home is known here by a number of its own. -/
def negOf (dest : Nat) : NegReply → Reply
  | .fault h q => .nrFault (remHome dest h) q
  | .key => .nrKey
  | .busy => .nrBusy

/-- The key under which a request waits for its replay: a command's message, a `LAUNCH`, or a request passed on. -/
def RemFor.holdKey (f : RemFor) (id : Nat) : List Nat :=
  match f with
  | .command c _ => [3, c, 8, id]
  | .hold k => k
  | _ => [9, id]

/-- How faults of another device's home ended is remembered for numbers near the last one heard of: a number comes again only after 2^31
others (R210, R212). -/
def State.recent (s : State) (h seq : Nat) : State :=
  s.modHome h fun hm => { hm with resolved := keep (fun q _ => (seq + 2 ^ 31 - q) % 2 ^ 31 < 65536 || (q + 2 ^ 31 - seq) % 2 ^ 31 < 65536) hm.resolved }

/-- A negative reply: the request has not been performed; its requester keeps it, with the slack and the mark it was answered with (R307). -/
def State.gotNeg (s : State) (link id : Nat) (x : Ret) (n : NegReply) : State :=
  match look s.fab.reqs id with
  | none => s
  | some r =>
    let rep := negOf r.dest n
    let s := match rep with | .nrFault h q => s.recent h q | _ => s
    match r.for_ with
    | .packet i => if s.awaits i id then (s.dropReq id).comeBack i (some link) rep x [] else s.dropReq id
    | .hold k =>
      (match s.hold? k with
       | some h =>
         if h.req = id then (s.dropReq id).holdNeg k h.pass h.tries h.at_ (min h.field x.field, h.late || x.late) rep else s.dropReq id
       | none => s.dropReq id)
    | .forward src rid _ _ _ => (s.dropReq id).sendTo src (.neg rid x n)
    | .command _ _ =>
      let k := r.for_.holdKey id
      (s.modReq id fun r => { r with done := some [] }).holdNeg k 0 ((s.hold? k).map Hold.tries |>.getD 0) r.seen (x.field, x.late) rep
    | .launch _ _ _ =>
      if r.done.isSome then s
      else (s.modReq id fun r => { r with done := some [] }).holdNeg (r.for_.holdKey id) 0 0 0 (x.field, x.late) .nrBusy

/-- A fault of another device's home is resolved: what is held on it is signalled. -/
def State.gotSignal (s : State) (src home seq : Nat) (fail : Bool) : State :=
  let h := remHome src home
  ((s.recent h seq).modHome h fun hm => { hm with resolved := put hm.resolved seq fail }).signalHeld h seq fail

/-- The launch that has issued another device's has completed: this device places its blocks (R322). One that comes later is placed at once
(DEDUCED, assumption 66). -/
def State.gotIssued (s : State) (src id : Nat) : State :=
  s.setRing { s.ring with
    heldFor := if s.ring.heldFor.contains (src, id) then s.ring.heldFor.erase (src, id) else (src + 4096, id) :: s.ring.heldFor }

/-! ## `FLIT_RECEIVE` (R312) -/

/-- A packet has crossed a link: its lifetime falls by 1 µs (R315). -/
def crossed (x : Carry) : Carry := { x with life := x.life - Config.us 1, adm := false }

/-- A packet whose lifetime is spent is discarded (R315). -/
def State.takeIn (s : State) (i : Instr) : State := if spent i then s else s.setInbox (s.inbox ++ [i])

/-- What an accepted flit of a link brings. Requests and messages are performed at later steps, in any order. -/
def State.accept (s : State) (link : Nat) (b : FlitBody) : State :=
  match b with
  | .request src id phys addr dom key x op => s.takeIn (.remoteWriteReceive src id phys addr dom ⟨key, crossed x⟩ op)
  | .message src id phys addr dom key x off total bytes =>
    s.takeIn (.messagePacketReceive src id phys addr dom ⟨key, crossed x⟩ off total bytes)
  | .reply id x b bad => s.gotReply link id x b bad
  | .data id x off total b bad => s.gotData link id x off total b bad
  | .errorReply id x => s.gotError (some link) id x
  | .neg id x n => s.gotNeg link id x n
  | .signal src home seq fail => s.gotSignal src home seq fail
  | .issued src id => s.gotIssued src id
  | .part | .idle => s

/-- `FLIT_RECEIVE`: the next flit in sequence that is intact is accepted, and acknowledged with the 64th; another is discarded, with one
negative acknowledgement for each gap, which names the flit expected. -/
def execFlitReceive (link seq : Nat) (good : Bool) (body : FlitBody) (s : State) : Result :=
  .next <|
    let k := s.link link
    if !k.up then s
    else if good && seq = k.expect then
      let s := s.modLink link fun k =>
        let k : Link := { k with expect := (k.expect + 1) % 4096, gapNaked := false, sinceAck := k.sinceAck + 1 }
        if 64 ≤ k.sinceAck then k.sendAck s.now else k
      (s.accept link body).paces link
    else s.modLink link fun k => if k.gapNaked then k else { k with gapNaked := true, lastAck := some (true, k.expect) }

/-! ## Requests of other devices (R208, R227, R228, R231, R241, R314) -/

/-- One part performed at a physical key, without translation or check (DESIGN CHOICE, assumption 25). -/
def State.physPart (s : State) (k : Nat) : SOp → State × List Byte
  | .read n => (s, getRange 0 s.mem.phys k n)
  | .write b => (s.setMem (s.mem.store k b), [])
  | .atom op t c d =>
    let old := getRange 0 s.mem.phys k t.size
    (s.setMem (s.mem.store k (toBytes t.size (atomNew op t (w64 (ofBytes old)) c d).toNat)), old)

/-- The parts of a request to a frame, in the stack that holds it (R231). -/
def State.physParts (s : State) : List (Nat × SOp) → State × List Byte
  | [] => (s, [])
  | q :: r =>
    match s.physPart (Config.freeStack (q.1 / 65536) % 12 * 2 ^ 64 + q.1) q.2 with
    | (s, b) =>
      match State.physParts s r with
      | (s, bs) => (s, b ++ bs)

/-- Places in `n` bytes at an address of words that have an uncorrectable error (R268). -/
def State.badOffs (s : State) (a n : Nat) : List Nat := (List.range n).filter fun i => get false s.mem.bad ((a + i) / 4)

/-- One part performed at its home under a leaf, for an agent outside every context; an atomic leaves a word that has an uncorrectable error
(R268). -/
def State.leafPart (s : State) (h l a : Nat) : SOp → State × List Byte × List Nat
  | .read n => ((s.noteAccess none a n).cacheLines h l a n, s.homeBytes h l a n, s.badOffs a n)
  | .write b => (s.homeWrite h l a b outside, [], [])
  | .atom op t c d =>
    let old := s.homeBytes h l a t.size
    if s.isBadMem a t.size then (s, old, List.range t.size)
    else (s.homeWrite h l a (toBytes t.size (atomNew op t (w64 (ofBytes old)) c d).toNat) outside, old, [])

def State.leafParts (s : State) (h l : Nat) : List (Nat × SOp) → State × List Byte × List Nat
  | [] => (s, [], [])
  | q :: r =>
    match s.leafPart h l q.1 q.2 with
    | (s, b, x) =>
      match State.leafParts s h l r with
      | (s, bs, xs) => (s, b ++ bs, x ++ xs.map fun i => b.length + i)

/-- One part of a request of domain 0x0000 to a structure page, at its frame (R357). -/
def State.structPart (s : State) (h a : Nat) (p : Packet) : SOp → State × List Byte
  | .read n => (s, (s.readStruct h a n).getD [])
  | .write b => (s.structStore h a b outside, [])
  | .atom op t c d =>
    match s.structLane h { p with kind := .atom op, ty := t, size := t.size } { lane := 0, addr := a, c := c, d := d } with
    | (s, v) => (s, toBytes t.size v.toNat)

def State.structParts (s : State) (h : Nat) (p : Packet) : List (Nat × SOp) → State × List Byte
  | [] => (s, [])
  | q :: r =>
    match s.structPart h q.1 p q.2 with
    | (s, b) =>
      match State.structParts s h p r with
      | (s, bs) => (s, b ++ bs)

/-- A reader of a read-mostly object is entered in its sharer vector (R241) (DEDUCED, assumption 40). -/
def State.share1 (s : State) (src l : Nat) : State :=
  let e := s.objEntry (leafObj l)
  if objRmost e && !(bits e 192 64).testBit (src / 64) then
    s.devWrite (s.fw.objBase + 32 * leafObj l + 24) (toBytes 8 (bits e 192 64 ||| 2 ^ (src / 64)))
  else s

/-- A request as its home's checks see it: with the address that made it first (R211), and then its parts; one that the home has admitted
before does not meet its limit again (R228). -/
def outsidePacket (s : State) (x : Carry) (op : RemOp) (addr h dom key : Nat) : Packet :=
  let acc := accOf op x
  let a := if pageOf x.va = pageOf addr then x.va else addr
  let sop : SOp := match op.atomic with
    | some (o, t) => .atom o t 0 0
    | none => if isWrite acc then .write [] else .read 1
  let p := syncPacket { key := [], core := none, launch := 0, dom := dom } acc a sop (BitVec.ofNat 10 key) h s.fw.dev
  let parts := op.parts addr
  let p : Packet := { p with
    lanes := p.lanes ++ parts.map fun q => { lane := 0, addr := q.1, c := 0, d := 0 }
    size := parts.foldl (fun n q => max n q.2.len) 1 }
  let p : Packet := if x.adm then { p with phase := .replica } else p
  match op with
  | .pref _ => { p with kind := .pref true }
  | _ => p

/-- How a home takes a request from outside the device: performed, with its bytes; answered negatively; failed; passed on under the leaf
given; or not yet. -/
inductive Out where
  | done (b : List Byte) (bad : List Nat)
  | neg (r : NegReply)
  | err
  | pass (leaf : Nat)
  | wait
deriving DecidableEq, Repr

/-- Whether an atomic may be performed under a leaf: on host memory only those an AtomicOp carries (R258). -/
def atomOkAt (l : Nat) (a : Option (AtomOp × Ty)) : Bool :=
  match a with
  | some (op, t) => leafAper l != 4 || hostAtomOk op t
  | none => true

/-- The device whose request has joined a fault is told of its end (R212). -/
def State.joinFault (s : State) (src h q : Nat) : State :=
  s.modHome h fun hm => { hm with
    faults := hm.faults.map fun f => if f.seq = q && !f.peers.contains src then { f with peers := src :: f.peers } else f }

/-- Whether a write of some parts must wait for replicas (R233, R241); their answers may be late. -/
def State.outsideHeld (s : State) (l : Nat) (parts : List (Nat × SOp)) : Bool :=
  parts.any (fun q => q.2.writes)
    && (objShared (s.objEntry (leafObj l))
        || parts.any (fun q => (s.entriesIn q.1 q.2.len).any fun id => objShared (s.objEntry id))) && s.pick 2 = 1

/-- Words that an expander no longer gives (R319). -/
def State.expanderGone (s : State) (l : Nat) (p : Packet) (parts : List (Nat × SOp)) : State :=
  if leafAper l = 2 && s.fw.cxlDown.contains (cxlPort l p.addr) then
    parts.foldl (fun s q =>
      match q.2 with
      | .write _ => s
      | o => s.unanswered { p with lanes := [{ lane := 0, addr := q.1, c := 0, d := 0 }], size := o.len }) s
  else s

/-- A request of another device under a leaf (R208, R231, R234, R241, R258) (DEDUCED, assumptions 41 and 42). -/
def State.outsideLeaf (s : State) (src h : Nat) (p : Packet) (la l : Nat) (atomic : Option (AtomOp × Ty)) (parts : List (Nat × SOp)) :
    State × Out :=
  let reads := !parts.any fun q => q.2.writes
  let s1 := s.setAD h la l p
  if !atomOkAt l atomic || (leafAper l = 4 && atomic.isSome && s.hostRefuses p.lanes) then (s.next, .err)
  else if s.outsideHeld l parts then (s.next, .wait)
  else if leafAper l = 3 && parts.any fun q => s.anyUnclean h q.1 q.2.len then
    (if reads && parts.all fun q => s.allUnclean h q.1 q.2.len then
      (s1.share1 src l, .done (parts.flatMap fun q => List.replicate q.2.len 0) [])
     else (s, .wait))
  else
    let s := (if reads then s1.share1 src l else s1).next
    if leafAper l = 3 then (s, .pass l)
    else
      match ((s.flushForHostAtom h l p).expanderGone l p parts).leafParts h l parts with
      | (s, b, x) => (if atomic.isSome && leafAper l = 4 then s.writeBack h l (sameLine p.addr) true else s, .done b x)

/-- A request of another device at a home of this device (R220, R228), which counts it while it holds it during a retirement (R235)
(DEDUCED, assumptions 41 and 42). -/
def State.outsideServe (s : State) (src h : Nat) (p : Packet) (atomic : Option (AtomOp × Ty)) (parts : List (Nat × SOp)) : State × Out :=
  if (s.home h).hold then (s, if Config.homeCap ≤ s.inService h && !p.phase.served then .neg .busy else .wait)
  else
    match s.checkIn h p with
    | (s, .neg (.nrFault _ q)) => (s.joinFault src h q, .neg (.fault h q))
    | (s, .neg .nrKey) => (s, .neg .key)
    | (s, .neg .nrBusy) => (s, .neg .busy)
    | (s, .neg _) => (s, .err)
    | (s, .dropped) => (s, .err)
    | (s, .struct) =>
      if parts.any (fun q => q.2.writes && s.leafShared h q.1 q.2.len) && s.pick 2 = 1 then (s.next, .wait)
      else
        match s.next.structParts h p parts with
        | (s, b) => (s, .done b [])
    | (s, .leaf la l) => s.outsideLeaf src h p la l atomic parts

/-- A request of another device passed on to a third, which holds the page's frame, with its slack and its mark (R208, R307). -/
def State.forward (s : State) (l addr dom : Nat) (x : Carry) (op : RemOp) (f : RemFor) : Option State :=
  (s.sendRemote (leafPeer l) (fun id => .request s.fw.dev id true (leafFrame l + addr % 65536) dom 0 x op) f).map fun r =>
    (op.parts addr).foldl (fun s q => if q.2.writes then s.passedWrite q.1 q.2.len else s) r.1

/-- What an answer to a request carries (R305, R307). -/
def retOf (x : Carry) (rmost : Bool := false) : Ret := { field := x.field, late := x.late, rmost := rmost }

/-- What has arrived cannot be taken yet: its home has it in service (DESIGN CHOICE, assumption 7). -/
def State.later (s : State) (i : Instr) : State :=
  let i := match i with
    | .remoteWriteReceive src id phys addr dom ⟨key, x⟩ op => .remoteWriteReceive src id phys addr dom ⟨key, { x with adm := true }⟩ op
    | .messagePacketReceive src id phys addr dom ⟨key, x⟩ off total b =>
      .messagePacketReceive src id phys addr dom ⟨key, { x with adm := true }⟩ off total b
    | i => i
  s.setInbox (s.inbox ++ [i])

/-- Whether a line of this device is one of a read-mostly object, which another device may keep as a replica (R241). -/
def State.rmostAt (s : State) (a : Nat) : Bool :=
  ((homeOf s.fw a).bind fun d => s.leafOf d.2 a).any fun l => objRmost (s.objEntry (leafObj l.2))

/-- The answer to a read: what a command reads comes as a message, in packets of up to 256 bytes (R316). -/
def readReply (id : Nat) (x : Ret) (engine : Bool) (b : List Byte) (bad : List Nat) : List FlitBody :=
  if engine && !b.isEmpty then
    (List.range ((b.length + 255) / 256)).map fun i =>
      .data id x (256 * i) b.length ((b.drop (256 * i)).take 256) ((bad.filter fun o => o / 256 == i).map fun o => o - 256 * i)
  else [.reply id x b bad]

/-- Whether a request is a command's read. -/
def engineRead (x : Carry) (op : RemOp) : Bool := x.acc == 5 && (match op with | .read _ => true | _ => false)

/-- The answer to a request, with its slack and its mark: a performed write is recorded with its reply (R307, R314)
(DEDUCED, assumption 42). -/
def State.answerTo (s : State) (src id : Nat) (x : Ret) (writes engine : Bool) (o : Out) : State :=
  match o with
  | .done b bad =>
    (readReply id x engine b bad).foldl (fun s f => s.sendTo src f) (if writes && bad.isEmpty then s.record src id b else s)
  | .neg r => s.sendTo src (.neg id x r)
  | .err => s.sendTo src (.errorReply id x)
  | _ => s

/-- A `LAUNCH` of another device is accepted while the ringmaster's queue has room; its completion is told later (R331). Without `.early` its
blocks are placed only once its issuing launch has completed there (R322) (DEDUCED, assumption 66). -/
def State.remoteLaunch (s : State) (src id addr dom : Nat) (graph early : Bool) (x : Ret) : State :=
  if Config.ringCap ≤ s.ring.queue.length then s.sendTo src (.neg id x .busy)
  else
    let known := s.ring.heldFor.contains (src + 4096, id)
    let s := s.setRing { s.ring with
      queue := s.ring.queue ++ [{ addr := addr, graph := graph, early := early || known, dom := dom, issuer := 0, origin := .peer src id }]
      heldFor := if known then s.ring.heldFor.erase (src + 4096, id) else if early then s.ring.heldFor else (src, id) :: s.ring.heldFor }
    (s.record src id []).sendTo src (.reply id x [] [])

/-- Whether a write of another device has been passed on to a third and not been answered yet: one like it is no new request (R314). -/
def State.passedOn (s : State) (src id : Nat) (off : Option Nat) : Bool :=
  s.fab.reqs.any fun e => match e.2.for_ with
    | .forward d i o _ _ => d == src && i == id && off.all fun x => x == o
    | _ => false

/-- `DISCARD` of another device: the lines of an object between two addresses are dropped here; in the page of its address, where that is
homed here, once the home has passed it for a write (R263) (DEDUCED, assumption 32). -/
def State.remoteDiscard (s : State) (src id addr dom key lo hi : Nat) (x : Ret) : State :=
  let drop (s : State) : State := (s.noteAccess none lo (hi - lo)).dropLines outside fun x => lineOf lo ≤ x && x < hi
  let pass := match homeOf s.fw addr with
    | some (dv, h) => dv != s.fw.dev || s.discardLeaf h dom (BitVec.ofNat 10 key) addr
    | none => false
  (if pass then drop s else s).answerTo src id x true false (if pass then .done [] [] else .err)

/-- `REMOTE_WRITE_RECEIVE`: a request of another device is performed at its home; a write once, with its reply recorded
(DEDUCED, assumption 41). -/
def execRemoteWriteReceive (src id : Nat) (phys : Bool) (addr dom : Nat) (pass : Pass) (op : RemOp) (s : State) : Result :=
  let again : Instr := .remoteWriteReceive src id phys addr dom pass op
  let x := retOf pass.x
  let engine := engineRead pass.x op
  .next <|
    match (if op.storing then s.fab.dedupe.find? fun d => d.src == src && d.id == id else none) with
    | some d => s.sendTo src (.reply id x d.reply [])
    | none =>
      if op.storing && s.passedOn src id none then s
      else if engine && s.noRoom src 2 then s.setInbox (s.inbox ++ [again])
      else if op.storing && Config.dedupeCap ≤ s.fab.dedupe.length then s.sendTo src (.neg id x .busy)
      else
        match op with
        | .launch graph early => s.remoteLaunch src id addr dom graph early x
        | .discard lo hi => s.remoteDiscard src id addr dom pass.key lo hi x
        | _ =>
          if phys then
            match s.physParts (op.parts addr) with
            | (s, b) => s.answerTo src id x op.storing engine (.done b [])
          else
            match homeOf s.fw addr with
            | none => s.sendTo src (.errorReply id x)
            | some (dv, h) =>
              if dv != s.fw.dev then s.sendTo src (.errorReply id x)
              else
                match s.outsideServe src h (outsidePacket s pass.x op addr h dom pass.key) op.atomic (op.parts addr) with
                | (s, .wait) => s.later again
                | (s, .pass l) =>
                  (match s.forward l addr dom pass.x op (.forward src id 0 0 0) with
                   | some s => s
                   | none => s.later again)
                | (s, o) => s.answerTo src id (retOf pass.x (s.rmostAt addr)) op.storing engine o

/-- `DEDUPE_ENTRY_EXPIRY`: entries are freed 64 µs after they were written. -/
def execDedupeEntryExpiry (s : State) : Result :=
  .next (s.setFab { s.fab with dedupe := s.fab.dedupe.filter fun d => s.now < d.at_ + Config.us 64 })

/-! ## Messages (R316) -/

/-- The reassembly record of a message, if it has one or one is free. -/
def State.openMessage (s : State) (src id total : Nat) : Option State :=
  if s.fab.msgs.any fun m => m.src == src && m.id == id then some s
  else if Config.messageCap ≤ s.fab.msgs.length || Config.dedupeCap ≤ s.fab.dedupe.length then none
  else some (s.setFab { s.fab with msgs := { src := src, id := id, total := total, count := 0, units := [] } :: s.fab.msgs })

/-- `MESSAGE_PACKET_RECEIVE`: the bytes of a packet are performed and counted; a completed message is answered from its record
(DEDUCED, assumption 41). -/
def execMessagePacketReceive (src id : Nat) (phys : Bool) (addr dom : Nat) (pass : Pass) (off total : Nat) (bytes : List Byte)
    (s : State) : Result :=
  let again : Instr := .messagePacketReceive src id phys addr dom pass off total bytes
  let x := retOf pass.x
  .next <|
    match s.fab.dedupe.find? fun d => d.src == src && d.id == id with
    | some d => s.sendTo src (.reply id x d.reply [])
    | none =>
      if s.passedOn src id (some off) then s
      else
        match s.openMessage src id total with
        | none => s.sendTo src (.neg id x .busy)
        | some s' =>
          if phys then
            match s'.physParts [(addr, .write bytes)] with
            | (s, _) => s.countUnit src id off bytes.length total x
          else
            match homeOf s.fw addr with
            | none => s'.sendTo src (.errorReply id x)
            | some (dv, h) =>
              if dv != s.fw.dev then s'.sendTo src (.errorReply id x)
              else
                match s'.outsideServe src h (outsidePacket s' { pass.x with acc := 6 } (.write bytes) addr h dom pass.key) none [(addr, .write bytes)] with
                | (s, .done _ _) => s.countUnit src id off bytes.length total x
                | (s, .wait) => s.later again
                | (s, .pass l) =>
                  (match s.forward l addr dom pass.x (.write bytes) (.forward src id off bytes.length total) with
                   | some s => s
                   | none => s.later again)
                | (s, o) => s.answerTo src id x false false o

/-! ## Resends and ids (R313, R229) -/

/-- A request or message as it is sent again: with a new lifetime (R315). -/
def mapCarry (f : Carry → Carry) : FlitBody → FlitBody
  | .request src id phys addr dom key x op => .request src id phys addr dom key (f x) op
  | .message src id phys addr dom key x off total b => .message src id phys addr dom key (f x) off total b
  | b => b

/-- A request that got a negative reply is sent again, with a new id, with a new key where it has been checked anew, and with the slack and
the mark that its hold has come to (R230, R307). -/
def State.resendNew (s : State) (id : Nat) (r : RemReq) (key : Option (BitVec 10)) (seen : Nat) : State :=
  let k (old : Nat) : Nat := (key.map BitVec.toNat).getD old
  let h := s.hold? (r.for_.holdKey id)
  let slack (x : Carry) : Carry := { x with field := (h.map Hold.field).getD x.field, late := (h.map Hold.late).getD x.late, life := lifetime }
  let mk (n : Nat) : FlitBody := mapCarry slack (match r.body with
    | .request src _ phys addr dom key x op => .request src n phys addr dom (k key) x op
    | .message src _ phys addr dom key x off total b => .message src n phys addr dom (k key) x off total b
    | b => b)
  match s.sendRemote r.dest mk r.for_ seen with
  | none => s
  | some (s, n) =>
    let tries := (h.map Hold.tries).getD 0
    let s := (s.dropReq id).unhold (r.for_.holdKey id)
    match r.for_ with
    | .command c _ =>
      let s := s.modCmd c fun c => { c with msgs := c.msgs.map fun x => if x = id then n else x }
      if tries = 0 then s else s.addHold (r.for_.holdKey n) 0 .remote tries 0 n (((h.map Hold.field).getD 0xFFF), (h.map Hold.late).getD false)
    | .launch _ _ _ =>
      s.setLaunches (mapv (fun _ L => { L with told := L.told.map fun q => if q.2 = id then (q.1, n) else q }) s.launches)
    | _ => s

/-- A message answered `NR_KEY` is checked anew and sent again, if its core's turnstile has been reloaded since it was checked; else its
command ends (R229). -/
def State.keyAgain (s : State) (req : Nat) (r : RemReq) (h : Hold) : State :=
  let hk := r.for_.holdKey req
  match r.for_, r.body with
  | .command c _, .message _ _ _ addr _ _ _ _ _ _ =>
    (match s.cmd? c with
     | some k =>
       let n := get 0 (s.core k.core).reloads k.dom
       if n = h.at_ then (s.unhold hk).gotError none req retNone
       else
         (match s.coreCheck k.core k.launch 2 addr with
          | some key => s.resendNew req r (some key) n
          | none => (s.unhold hk).gotError none req retNone 4)
     | none => (s.unhold hk).gotError none req retNone)
  | _, _ => (s.unhold hk).gotError none req retNone

/-- A request is sent again with its id, over another link of the route set where one is open (R313, R358). -/
def State.sendAgain (s : State) (id : Nat) (r : RemReq) : State :=
  let b := mapCarry (fun x => { x with life := lifetime }) r.body
  let ls := s.openLinks r.dest (flitCls b)
  let others := ls.filter fun l => r.link != some l
  let l := if others.isEmpty then ls[s.pick ls.length]? else others[s.pick others.length]?
  (s.next.modReq id fun r => { r with sends := r.sends + 1, sentAt := s.now, link := l }).sendAll r.dest b l

/-- `REMOTE_RESEND_TIMEOUT`: a request without a reply is sent again after 8 µs, and fails after four sends; one that got a negative reply
is replayed, or fails. -/
def execRemoteResendTimeout (req : Nat) (s : State) : Result :=
  .next <| match look s.fab.reqs req with
    | none => s
    | some r =>
      match s.hold? (r.for_.holdKey req), r.for_ with
      | some h, .command _ _ | some h, .launch _ _ _ =>
        (match h.phase with
         | .busy t => if t ≤ s.now then s.resendNew req r none r.seen else s
         | .signalled false => s.resendNew req r none r.seen
         | .signalled true => (s.unhold (r.for_.holdKey req)).gotError none req retNone
         | .keyed => s.keyAgain req r h
         | .faulted hm q =>
           (match look (s.home hm).resolved q with
            | some false => s.resendNew req r none r.seen
            | some true => (s.unhold (r.for_.holdKey req)).gotError none req retNone
            | none => s)
         | _ => s)
      | _, _ =>
        if r.done.isSome || r.failed || 0 < unsent r.body || s.now < r.sentAt + Config.us 8 then s
        else if 4 ≤ r.sends then s.gotError none req retNone
        else if s.noRoom r.dest (flitCls r.body) then s
        else s.sendAgain req r

/-- `REQUEST_ID_REUSE`: the oldest id is free 128 µs after its first use, and a request held for want of one is sent. -/
def execRequestIdReuse (s : State) : Result :=
  .next <| match s.fab.used with
    | [] => s
    | u :: rest =>
      if s.now < u.2 + Config.us 128 then s
      else
        let s := s.setFab { s.fab with used := rest }
        let held := s.net.packets.filter fun e =>
          e.2.phase.moves && (match e.2.route with | [.rontan l] => !(s.link l).paused.contains 0 | _ => false)
        match oldestOf held with
        | some (i, p) => s.hop i p
        | none => s

end Sys2Proof.Machine
end

