-- ==== Sys2Proof/Machine/HostPort.lean ====
section
/-!
DEFINITION. The host port (R285 to R289, R318, R334): posted writes and reads of the host by ordering stream, kicks, and submissions.
-/

namespace Sys2Proof.Machine

/-! ## Kicks (R287, R288) -/

/-- `KSTAT` after a kick. -/
def kstatOf (err : Bool) (kop : W64) : W64 :=
  w64 ((if err then 2 ^ 63 else 0) + bits kop.toNat 0 3 * 2 ^ 32 + bits kop.toNat 32 32)

/-- Whether a kick's registers are in order: its code is one of the four, reserved fields are zero, the length is whole lines. -/
def kickOk (base len op : Nat) : Bool :=
  let o := bits op 0 3
  1 ≤ o && o ≤ 4 && bits op 3 29 == 0 && bits base 0 6 == 0 && bits base 57 7 == 0 && bits len 40 24 == 0 && bits len 0 40 % 64 == 0

/-- A write of `KOP`, behind the posted writes `due` of its stream: one code's kick starts, or a kick is rejected; while one is in flight
the write is ignored. -/
def State.kick (s : State) (dom code : Nat) (due : List Nat) (x : W64) : State :=
  let p := s.page dom
  let o := bits x.toNat 0 3
  if p.kick.isSome || (o != code && 1 ≤ o && o ≤ 4) then s
  else
    let s := s.modPage dom fun p => { p with kop := x }
    if !kickOk p.kbase.toNat p.klen.toNat x.toNat then s.modPage dom fun p => { p with kstat := kstatOf true x }
    else if bits p.klen.toNat 0 40 = 0 then s.modPage dom fun p => { p with kstat := kstatOf false x }
    else
      s.modPage dom fun p => { p with kick := some (BitVec.ofNat 3 o, if o = 4 then due else []) }

/-! ## Writes of the registers (R285, R334) -/

/-- A host submission waits in the ringmaster's queue for its admission or start; none while the queue is full. A value that names no record
or node has no effect (DESIGN CHOICE, assumption 46). -/
def State.submit (s : State) (dom : Nat) (graph : Bool) (x : Nat) : Option State :=
  if 2 ^ 57 ≤ x || (if graph then x % 64 != 1 else x % 128 != 0) then some s
  else if Config.ringCap ≤ s.ring.queue.length then none
  else some (s.setRing { s.ring with
    queue := s.ring.queue ++
      [{ addr := if graph then x - 1 else x, graph := graph, early := true, dom := dom, issuer := 0, origin := .host }] })

/-- Writing 1 to `STOP` stops a domain that is not stopped; another value has no effect (R342). -/
def State.askStop (s : State) (dom : Nat) (x : W64) : State :=
  if x != 1 || (s.page dom).tstat.getLsbD 0 then s
  else s.modCtx dom fun c => { c with stopping := true, pre := c.pre.map fun p => { p with why := 2 } }

/-- A register of a domain's page is written, behind the posted writes `due` of its stream; none while the write must wait
(DEDUCED, assumption 26). -/
def State.writeReg (s : State) (dom : Nat) (r : HostReg) (due : List Nat) (x : W64) : Option State :=
  match r with
  | .kbase => some (s.modPage dom fun p => { p with kbase := x })
  | .klen => some (s.modPage dom fun p => { p with klen := x })
  | .kop code => some (s.kick dom code due x)
  | .submit graph => s.submit dom graph x.toNat
  | .stop => some (s.askStop dom x)

/-! ## Streams (R285) -/

/-- A host's access, served as one of domain 0x0000 by an agent outside every context (DEDUCED, assumption 26). -/
def hostWho (stream seq : Nat) : Who := { key := [8, stream, seq], core := none, launch := 0, dom := 0 }

/-- Posted writes of a stream that may be performed: relaxed ones, and the first. -/
def HStream.ready (h : HStream) : List Posted := h.posted.filter fun w => w.relaxed || (h.posted.head?.map Posted.seq) == some w.seq

/-- A posted write of a stream that may be performed is tried. One without Relaxed Ordering is a release at `.sys` for what precedes it
(DEDUCED, assumptions 26 and 41). -/
def State.tryPosted (s : State) (n : Nat) : State :=
  let l := (s.hstream n).ready
  match l[s.pick l.length]? with
  | none => s
  | some w =>
    let s := if w.relaxed then s else s.flushHost
    let drop (s : State) : State := s.modHStream n fun h => { h with posted := h.posted.filter fun x => x.seq != w.seq }
    match w.dst with
    | .own pa => drop (s.next.setMem (s.mem.store (13 * 2 ^ 64 + pa) w.bytes))
    | .device va =>
      match s.next.syncWrite (hostWho n w.seq) 2 va w.bytes with
      | (s, .wait) => s
      | (s, _) => drop s
    | .reg dom r =>
      match s.next.writeReg dom r (((s.hstream n).posted.filter fun x => x.seq < w.seq).map Posted.seq) (w64 (ofBytes w.bytes)) with
      | some s => drop s
      | none => s.next

/-- `HOST_POSTED_WRITE`: a write joins its stream, in order, and one that may be performed is tried; with no bytes, none joins. -/
def execHostPostedWrite (stream : Nat) (relaxed : Bool) (dst : HostDst) (bytes : List Byte) (s : State) : Result :=
  .next <|
    if bytes.isEmpty then s.tryPosted stream
    else
      let w : Posted := { seq := s.ids, relaxed := relaxed, dst := dst, bytes := bytes }
      (s.next.modHStream stream fun h => { h with posted := h.posted ++ [w] }).tryPosted stream

def State.complete1 (s : State) (n : Nat) (b : Option (List Byte)) : State :=
  s.setHost { s.host with replies := s.host.replies ++ [(n, b)] }

/-- A domain's page of registers as the host reads it (R334): what its write-only registers and the rest of it read as is free. `KBASE`,
`KLEN` and `KOP` read as they were written, reserved bits too (DESIGN CHOICE, assumptions 2 and 73). -/
def State.pageBytes (s : State) (dom : Nat) : List Byte :=
  let p := s.page dom
  let f := freeBytes s.ids 4096
  bytes64 p.kbase ++ bytes64 p.klen ++ bytes64 p.kop ++ bytes64 p.kstat ++ f.take 8 ++ bytes64 p.substat ++ (f.drop 8).take 8
    ++ bytes64 p.tstat ++ f.drop 64

/-- The first read of a stream is served once every earlier posted write of the stream has been performed (DEDUCED, assumption 26). -/
def State.tryRead (s : State) (n : Nat) : State :=
  let h := s.hstream n
  match h.reads with
  | [] => s
  | r :: _ =>
    if h.posted.any fun w => w.seq < r.1 then s
    else
      let drop (s : State) : State := s.modHStream n fun h => { h with reads := h.reads.tail }
      match r.2.1 with
      | .page dom off => (drop s.next).complete1 n (some (((s.pageBytes dom).drop off).take r.2.2))
      | .device va =>
        match s.syncRead (hostWho n r.1) 1 va r.2.2 with
        | (s, .wait) => s
        | (s, .ok b) => (drop s).complete1 n (some b)
        | (s, .fail _ _) => (drop s).complete1 n none

/-- `HOST_READ_REQUEST`: a read joins its stream, and the first is served if it may be; a read of no bytes joins none. -/
def execHostReadRequest (stream : Nat) (src : HostSrc) (n : Nat) (s : State) : Result :=
  .next <|
    if n = 0 then s.tryRead stream
    else (s.next.modHStream stream fun h => { h with reads := h.reads ++ [(s.ids, src, n)] }).tryRead stream

/-- `HOST_ATOMICOP_REQUEST`: Unsupported Request; `addr` is of no consequence (R318). -/
def execHostAtomicopRequest (stream _addr : Nat) (s : State) : Result := .next (s.complete1 stream none)

/-! ## Events of the registers (R287, R288, R334) -/

/-- A register write of the host joins its stream as a posted write (R285) (DEDUCED, assumption 26). -/
def State.postReg (s : State) (stream dom : Nat) (r : HostReg) (x : W64) : State :=
  let w : Posted := { seq := s.ids, relaxed := false, dst := .reg dom r, bytes := bytes64 x }
  (s.next.modHStream stream fun h => { h with posted := h.posted ++ [w] }).tryPosted stream

/-- `HOST_REGISTER_WRITE`: `KLEN` or `KBASE` of a domain's page. -/
def execHostRegisterWrite (page : PageAt) (len : Bool) (x : W64) (s : State) : Result :=
  .next (s.postReg page.stream page.dom (if len then .klen else .kbase) x)

/-- `FLUSH` (R288): kick that performs device writes to the range at .sys. -/
def execFlush (dom stream : Nat) (x : W64) (s : State) : Result := .next (s.postReg stream dom (.kop 1) x)
/-- `INVAL` (R288): kick that drops every copy of the range's lines, writing back owned words. -/
def execInval (dom stream : Nat) (x : W64) (s : State) : Result := .next (s.postReg stream dom (.kop 2) x)
/-- `TOHOST` (R288): kick that flushes then invalidates the range. -/
def execTohost (dom stream : Nat) (x : W64) (s : State) : Result := .next (s.postReg stream dom (.kop 3) x)
/-- `TODEV` (R288): kick that performs earlier posted writes of the stream, then invalidates. -/
def execTodev (dom stream : Nat) (x : W64) (s : State) : Result := .next (s.postReg stream dom (.kop 4) x)

/-- `SUBMIT_LAUNCH`: a launch record is handed over as by `LAUNCH.early`, in the order of its stream (R334)
(DESIGN CHOICE, assumption 46). -/
def execSubmitLaunch (page : PageAt) (x : W64) (s : State) : Result := .next (s.postReg page.stream page.dom (.submit false) x)

/-- `SUBMIT_GRAPH`: a graph node is handed over (R334) (DESIGN CHOICE, assumption 46). -/
def execSubmitGraph (page : PageAt) (x : W64) (s : State) : Result := .next (s.postReg page.stream page.dom (.submit true) x)

/-! ## The effect of a kick (R288) -/

/-- The words of a range that sectors own go to their homes; stores they keep for other devices leave (R300). -/
def State.flushSectors (s : State) (p : Nat → Bool) : State := (List.range 12).foldl (fun s x => (s.flushRsc x p).sendKept x p) s

/-- Every device write to a range is performed at `.sys`. -/
def State.kickFlush (s : State) (lo n : Nat) : State :=
  (s.flushSectors fun a => lo ≤ a && a < lo + n).writeBackRange lo (lo + n) false fun l => leafAper l == 4

/-- Every copy of a line of a range is dropped, once it is written back. -/
def State.kickInval (s : State) (lo n : Nat) : State :=
  let inR (a : Nat) : Bool := lo ≤ a && a < lo + n
  ((s.flushSectors inR).writeBackRange lo (lo + n) true fun _ => true).dropCopies inR

/-- Whether a kick's effect must wait: for posted writes before it, for stores that a sector keeps for another device, or for stores that a
core has not sent on. -/
def State.kickWaits (s : State) (op : BitVec 3) (due : List Nat) (lo n : Nat) : Bool :=
  (s.host.streams.any fun e => e.2.posted.any fun w => due.contains w.seq)
    || (s.net.packets.any fun e => match e.2.phase with
        | .kept _ _ => e.2.dev != s.fw.dev && e.2.lanes.any fun q => lo ≤ q.addr && q.addr < lo + n
        | _ => false)
    || (op != 1 && s.mem.l1.any fun e => e.2.own && lo ≤ e.1 % 2 ^ 64 && e.1 % 2 ^ 64 < lo + n)

/-- `KICK_COMPLETION`: the kick takes effect on its range and `KSTAT` is written. -/
def execKickCompletion (dom : Nat) (s : State) : Result :=
  .next <|
    let p := s.page dom
    match p.kick with
    | none => s
    | some (op, due) =>
      let lo := p.kbase.toNat
      let n := bits p.klen.toNat 0 40
      if s.kickWaits op due lo n then s
      else
        let s := s.noteAccess none lo n
        let s := if op = 1 || op = 3 then s.kickFlush lo n else s
        let s := if op = 1 then s else s.kickInval lo n
        s.modPage dom fun p => { p with kstat := kstatOf false p.kop, kick := none }

end Sys2Proof.Machine
end

