-- ==== Sys2Proof/Machine/SafetyNet.lean ====
section
/-!
DEFINITION. Budgets and the safety net (R42, R292, R335, R337 to R344): checkpoints, pre-emption by rollback or by saving, restoring a
context, and stopping a domain.
-/

namespace Sys2Proof.Machine

/-! ## Budgets (R335) -/

/-- What a domain's blocks owe (R335). -/
def State.domDues (s : State) (d : Nat) : Nat := ((s.domBlocks d).map fun e => s.dues e.1).sum

/-- The blocks of a domain have been charged for what they owe. -/
def State.markPaid (s : State) (d : Nat) : State :=
  s.setBlocks (mapv (fun i b => if s.ofDom d b.launch then { b with paid := b.paid + Config.us 1 * s.dues i } else b) s.blocks)

/-- `BUDGET_TICK`: a domain's budget falls by 1 for each microsecond that each of its blocks has stood since it was charged last. -/
def execBudgetTick (dom : Nat) (s : State) : Result :=
  .next (if s.domDues dom = 0 then s else (s.markPaid dom).charge dom (s.domDues dom))

/-- `BUDGET_RESUME`: once the budget is positive again, suspended commands, admission and placement go on. -/
def execBudgetResume (dom : Nat) (s : State) : Result :=
  .next <| if (s.ctx dom).suspended && 0 < s.budget dom then s.modCtx dom fun c => { c with suspended := false } else s

/-! ## Checkpoints (R338) -/

/-- The checkpoint period in microseconds. -/
def ckPer (n : Nat) : Nat := if n = 0 then 50 else max 5 (min 500 n)

/-- A context runs: it has a checkpoint and is not being pre-empted. -/
def Ctx.runs (c : Ctx) : Bool := c.ckpt.isSome && c.pre.isNone

/-- Whether a context's checkpoint is due: at its period, or once its log area is full (DEDUCED, assumption 27). -/
def State.ckDue (s : State) (d : Nat) : Bool :=
  let c := s.ctx d
  c.runs && (c.ckAt + Config.us (ckPer (bits (s.domRec d) 108 10)) ≤ s.now || s.logFull d)

/-- Whether a write of a context is under way (DEDUCED, assumption 55). -/
def State.writesOut (s : State) (d : Nat) : Bool :=
  let mineG (g : Nat) : Bool := (look (s.domGroups d) g).isSome
  let mineC (i : Nat) : Bool := (s.cmd? i).any fun c => c.dom == d
  (s.net.packets.any fun e => e.2.dom == d && e.2.writes && !e.2.performed)
    || (s.net.holds.any fun h => h.isOf mineG mineC && h.phase == .remote)
    || (s.cmds.any fun e => e.2.dom == d && !e.2.msgs.isEmpty)

/-- `CHECKPOINT`: at the period, or when the log area is full, once the context's writes are performed
(DEDUCED, assumptions 27 and 55). -/
def execCheckpoint (dom : Nat) (s : State) : Result :=
  .next <|
    if !s.ckDue dom || s.writesOut dom then s else s.performAll.checkpointNow dom

/-! ## Pre-emption (R340, R341) -/

/-- A path takes the pre-emption-save trap at its next instruction boundary. -/
def Path.saveTrap (p : Path) : Path :=
  if p.open then
    { p with st := .ready, trap := some { cause := 0x0C, detail := 0, tpc := p.pc, taddr := none, resume := p.pc, entry := none } }
  else p

/-- Whether a command of a group has begun and not completed. -/
def State.cmdsOut (s : State) (g : Nat) : Bool := s.cmds.any fun e => e.2.grp == g && e.2.begun && !e.2.done

/-- Every path of a context whose group is in no handler takes the trap, once the commands that its group has begun have completed; the others
are cancelled, as they do not begin (R340). -/
def State.saveTraps (s : State) (d : Nat) : State :=
  (s.domGroups d).foldl (fun s e =>
    if e.2.inTrap.isNone && e.2.preempt.isNone && !s.cmdsOut e.1 then s.modGroup e.1 fun G => { G with arms := G.arms.map Path.saveTrap } else s) s

/-- Every group is saved or has ended, and nothing of the context is under way. -/
def State.allSaved (s : State) (d : Nat) : Bool :=
  ((s.domGroups d).all fun e => e.2.arms.isEmpty || (e.2.preempt.isSome && e.2.accs.all fun a => a.waits == 0))
    && !(s.cmds.any fun e => e.2.dom == d && e.2.begun && !e.2.done)
    && !s.writesOut d

/-- The context leaves the cores, saved. -/
def State.saved (s : State) (d : Nat) : State :=
  let ck := s.performAll.capture d
  (s.performAll.offload d).modCtx d fun c => { c with pre := c.pre.map fun p => { p with saved := some ck } }

/-- `PREEMPTION`: an enclosed context goes back to its checkpoint; an exposed one is saved by its handlers, group by group. -/
def execPreemption (dom : Nat) (s : State) : Result :=
  .next <|
    let c := s.ctx dom
    match c.pre with
    | none =>
      let why := if c.stopping then 2 else 1
      if c.ckpt.isNone then s
      else if !c.exposed then s.rollback dom why
      else (s.modCtx dom fun c => { c with pre := some { since := s.now, why := why, saved := none, imaged := false } }).saveTraps dom
    | some { saved := none, .. } =>
      let s := s.saveTraps dom
      if s.allSaved dom then s.saved dom else s
    | _ => s

/-- `PREEMPTION_HANDLER_TIMEOUT`: a group still in its handler 1 ms after the pre-emption was requested is halted. -/
def execPreemptionHandlerTimeout (grp : Nat) (s : State) : Result :=
  .next <|
    let G := s.grpOf grp
    match (s.ctx (s.domOf G.launch)).pre, G.inTrap with
    | some { since := t, saved := none, .. }, some h =>
      if G.preempt.isNone && t + Config.us 1000 ≤ s.now then s.doubleTrap grp h.cause G.taddr (G.armOf h.arm).pc else s
    | _, _ => s

/-! ## Restoring a context (R42, R69, R248, R337, R340) -/

/-- What a restore has placed: the state, the new slot of each group, the new tag of each old one by core, tag and generation. -/
structure Restore where
  s : State
  slots : Tab Nat
  tags : List ((Nat × Nat × Nat) × (Nat × Nat × Nat))
deriving DecidableEq, Repr

def Restore.slot (r : Restore) (g : Nat) : Nat := get g r.slots g

def Restore.tag (r : Restore) (core tag gen : Nat) : Nat × Nat × Nat :=
  ((r.tags.find? fun e => e.1 == (core, tag, gen)).map Prod.snd).getD (core, tag, gen)

/-- A wait issues anew; an arrival made and a release begun are not made again. -/
def Prog.anew (p : Prog) : Prog :=
  match p with
  | .acc _ | .ticket _ | .join _ _ _ | .mask _ => .none
  | x => x

/-- A saved group as it is placed again: it starts at `TVEC`, in its handler, with `DETAIL` 1, and each lane's D and F are as they
were (R44, R346) (DEDUCED, assumption 43). -/
def Group.restart (G : Group) (t : InTrap) : Group :=
  let cause : W64 := 0x010C
  let p := G.armOf t.arm
  let H : Group := { groupReset with
    launch := G.launch, block := G.block, grp := G.grp, tvec := G.tvec, quota := G.quota, late := G.late, base := G.base, floor := G.floor
    gctl := G.gctl &&& ~~~ 3#64, exm := G.exm ||| G.liveOf p, exited := G.exited, tcause := cause, tpc := G.tpc, taddr := G.taddr
    recon := G.recon, nextEnt := G.nextEnt, accs := G.accs.filter fun a => !a.fails.isEmpty
    inTrap := some { t with prog := t.prog.anew }
    arms := G.arms.map fun p => { p with st := .ready, trap := none, prog := p.prog.anew } }
  let H := (((H.kw 28 cause).kw 29 G.tpc).kw 30 G.taddr).kw 31 (w64 t.frame)
  H.modArm t.arm fun p => { p with pc := G.tvec, prog := .none }

/-- A group as it is placed again. Stores had been performed (DEDUCED, assumption 43). -/
def Group.again (G : Group) : Group :=
  match G.preempt, G.inTrap with
  | some _, some t => G.restart t
  | _, _ =>
    { G with
      preempt := none
      accs := G.accs.filter fun a => a.kind != .store && a.kind != .red
      arms := G.arms.map fun p => { p with trap := if p.trap.any fun t => t.cause == 0x0C then none else p.trap } }

/-- Whether the slots and tiles that some blocks had claimed are free in a quad, under their numbers. -/
def State.claimsFit (s : State) (ck : Ckpt) (bs : List Nat) (quad : Nat) : Bool :=
  ck.slots.all fun q =>
    (q.sOwn.all fun e => !bs.contains e.2 || (look (s.quad quad).sOwn e.1).isNone)
      && q.tOwn.all fun e => !bs.contains e.2 || (look (s.quad quad).tOwn e.1).isNone

/-- Places for a gang of a context, from a quad chosen freely on (DESIGN CHOICE, assumption 44). -/
def State.placeFor (s : State) (ck : Ckpt) (K : Gang) : Option (List (Nat × Nat)) :=
  let r := s.recOf K.launch
  let l := s.uses (s.domOf K.launch) 0 0
  (List.range 96).findSome? fun i =>
    let q := (s.pick 96 + i) % 96
    if s.claimsFit ck K.blocks q then r.gangIn l q else none

/-- The tags of a block are allocated anew on its core; none while it has too few free. -/
def Restore.takeTags (r : Restore) (d core : Nat) : List (Nat × Nat × Tag) → Option Restore
  | [] => some r
  | (oc, n, t) :: rest =>
    match (r.s.core core).freeTagNo with
    | none => none
    | some m =>
      let gen := ((get tagReset (r.s.core core).tags m).gen + 1) % 2 ^ 24
      let old := handleOf t.kind oc t.gen n
      let new := handleOf t.kind core gen m
      let s := r.s.modCore core fun K => { K with tags := put K.tags m { t with gen := gen } }
      let s := s.modCtx d fun c =>
        { c with handles := put (mapv (fun _ h => if h = old then new else h) c.handles) old.toNat new }
      Restore.takeTags { r with s := s, tags := ((oc, n, t.gen), (core, m, gen)) :: r.tags } d core rest

/-- A block of a checkpoint becomes resident again. -/
def Restore.block (r : Restore) (ck : Ckpt) (d b : Nat) (B : Block) (p : Nat × Nat) : Option Restore :=
  let lr := r.s.recOf B.launch
  match ((r.s.greet p.1 B.launch).invalidate p.1 .dev).allot p.1 lr.lmem with
  | (s, base) =>
    let kept := ((ck.lmem.find? fun e => e.1 == b).map Prod.snd).getD []
    let s := s.modCore p.1 fun K =>
      let K := K.handOver base lr.lmem d
      { K with lmem := kept.foldl (fun t e => set 0 t (e.1 - B.lbase + base) e.2)
                 (keep (fun a _ => !(base ≤ a && a < base + lr.lmem)) K.lmem) }
    let fences := ((s.core B.core).fences.map fun f => (f.1, f.2.filter fun i => (look ck.cmds i).isSome)).filter fun f => !f.2.isEmpty
    let s := if p.1 = B.core then s else s.modCore p.1 fun K => { K with fences := fences ++ K.fences }
    match s.placeGroups p.1 p.2 (B.groups.map fun g => (get groupReset ck.groups g).again) with
    | (s, slots) =>
      let m := (B.groups.zip slots).foldl (fun t e => put t e.1 e.2) r.slots
      let s := s.setBlocks (put s.blocks b
        { B with core := p.1, paid := r.s.now, lbase := base, lsize := lr.lmem, groups := slots, live := B.live.map fun g => get g m g })
      Restore.takeTags { r with s := s, slots := m } d p.1 (ck.tags.filter fun t => t.2.2.block == b)

def Restore.blocks (r : Restore) (ck : Ckpt) (d : Nat) : List (Nat × (Nat × Nat)) → Option Restore
  | [] => some r
  | (b, p) :: rest =>
    match look ck.blocks b with
    | none => Restore.blocks r ck d rest
    | some B => (r.block ck d b B p).bind fun r => Restore.blocks r ck d rest

/-- The slots and tiles of some blocks come back, under their numbers, in another quad or the same. -/
def Quad.bring (q : Quad) (qs : QuadSave) (bs : List Nat) : Quad :=
  let sl (n : Nat) : Bool := (look qs.sOwn n).any fun b => bs.contains b
  let tl (n : Nat) : Bool := (look qs.tOwn n).any fun b => bs.contains b
  { q with
    sOwn := restoreTab q.sOwn (keep (fun n _ => sl n) qs.sOwn)
    tOwn := restoreTab q.tOwn (keep (fun n _ => tl n) qs.tOwn)
    elems := restoreTab (keep (fun k _ => !sl (k / 8192)) q.elems) (keep (fun k _ => sl (k / 8192)) qs.elems)
    scales := restoreTab (keep (fun k _ => !sl (k / 128)) q.scales) (keep (fun k _ => sl (k / 128)) qs.scales)
    tiles := restoreTab (keep (fun k _ => !tl (k / 16384)) q.tiles) (keep (fun k _ => tl (k / 16384)) qs.tiles) }

/-- The gangs of a checkpoint are placed one after another (DESIGN CHOICE, assumption 44). -/
def Restore.gangs (r : Restore) (ck : Ckpt) (d : Nat) : List (Nat × Gang) → Option Restore
  | [] => some r
  | (k, K) :: rest =>
    match r.s.placeFor ck K with
    | none => none
    | some p =>
      let quad := ((p.head?).map fun x => coreQuad x.1).getD 0
      let s := r.s.setGangs (put r.s.gangs k { K with quad := quad })
      let s := ck.slots.foldl (fun s qs => s.modQuad quad fun q => q.bring qs K.blocks) s
      (Restore.blocks { r with s := s } ck d (K.blocks.zip p)).bind fun r => Restore.gangs r ck d rest

/-- A barrier's arrivals under the groups' new slots. -/
def Restore.bars (r : Restore) (t : Tab Barrier) : Tab Barrier := mapv (fun _ b => { b with arrived := b.arrived.map r.slot }) t

def Restore.origin (r : Restore) (o : Origin) : Origin :=
  match o with
  | .tag c t g => let x := r.tag c t g; .tag x.1 x.2.1 x.2.2
  | x => x

/-- What names groups and tags by their old numbers is given the new ones. -/
def Restore.rename (r : Restore) (ck : Ckpt) (d : Nat) : State :=
  let s := r.s
  let s := s.setBlocks (mapv (fun i b => if (look ck.blocks i).isSome then { b with bars := r.bars b.bars } else b) s.blocks)
  let s := s.setGangs (mapv (fun i k => if (look ck.gangs i).isSome then { k with bars := r.bars k.bars } else k) s.gangs)
  let s := s.setLaunches (mapv (fun _ L => if L.dom = d then { L with bars := r.bars L.bars, origin := r.origin L.origin } else L) s.launches)
  let s := s.setRing { s.ring with
    graphs := mapv (fun _ g => if g.dom = d then { g with origin := r.origin g.origin } else g) s.ring.graphs
    queue := s.ring.queue.map fun h => if h.dom = d then { h with origin := r.origin h.origin } else h }
  let s := s.setFab { s.fab with
    reqs := mapv (fun _ q => match q.for_ with
      | .launch c t g => let x := r.tag c t g; { q with for_ := .launch x.1 x.2.1 x.2.2 }
      | _ => q) s.fab.reqs }
  s.setGroups (mapv (fun g G =>
    if r.slots.any fun e => e.2 == g then
      { G with arms := G.arms.map fun p => match p.prog with
          | .launch t n m =>
            (match r.tags.find? fun e => e.1.2.1 == t && e.1.2.2 == n && e.2.1 == slotCore g with
             | some e => { p with prog := .launch e.2.2.1 e.2.2.2 m }
             | none => p)
          | _ => p }
    else G) s.groups)

/-- The commands of a checkpoint come back, on their blocks' cores, with their tags and their places in the reservation tables. -/
def Restore.cmds (r : Restore) (ck : Ckpt) (s : State) : State :=
  let s := ck.cmds.foldl (fun s e =>
    let core := ((s.block? e.2.block).map Block.core).getD e.2.core
    let x := r.tag e.2.core e.2.tag e.2.gen
    s.setCmds (put s.cmds e.1 { e.2 with core := core, tag := x.2.1, gen := x.2.2, grp := r.slot e.2.grp })) s
  ck.slots.foldl (fun s q => q.table.foldl (fun s i =>
    match s.cmd? i with
    | some c => s.modQuad (coreQuad c.core) fun q => { q with table := q.table ++ [i] }
    | none => s) s) s

/-- Whether what a domain holds leaves the others that wait for the same their shares (R337). -/
def shareLeft (d mine share : Nat) (used : Nat → Nat) (waits : List Nat) : Bool :=
  mine ≤ share || waits.all fun w => w == d || share ≤ used w

/-- The same for the slots, tiles, table entries and tags of a context that has been placed; a table has 32 entries
(DESIGN CHOICE, assumption 44). -/
def State.sharesLeft (s : State) (d : Nat) (quads cores : List Nat) : Bool :=
  (quads.all fun q =>
    let Q := s.quad q
    ([false, true].all fun t =>
      shareLeft d (s.heldBy q t d) (s.share (inQuad q) (slotMax t)) (s.heldBy q t) ((Q.waits t).map Claim.dom))
      && Q.table.length ≤ Config.resvCap
      && shareLeft d (s.postedBy q d) (s.share (inQuad q) Config.resvCap) (s.postedBy q) (Q.posting.map s.domOfCmd))
    && cores.all fun c =>
      shareLeft d (s.tagsBy c d) (s.share (fun x => x == c) 64) (s.tagsBy c) ((s.core c).tagWait.map TagWait.dom)

/-- Loads and values under way are issued again (R69). -/
def Restore.reissue (r : Restore) (s : State) : State :=
  r.slots.foldl (fun s e => (s.grpOf e.2).accs.foldl (fun s a => s.reissue e.2 a) s) s

/-- The places of concurrent launches that do not stand are reserved again (R21). -/
def State.reserveAgain (s : State) (d : Nat) : List (Nat × Launch) → Option State
  | [] => some s
  | (l, L) :: rest =>
    if L.dom != d || L.lr.cls != 0 || L.st != .admitted then State.reserveAgain s d rest
    else
      match L.lr.plan ((L.resv.map Prod.fst).filter fun k => !(s.standing l).contains k) (s.uses d 0 0) with
      | none => none
      | some t => State.reserveAgain (s.modLaunch l fun L => { L with resv := t }) d rest

/-- Completions of remote launches that came while the context was away. -/
def State.lateLaunches (s : State) : State :=
  s.fab.reqs.foldl (fun s e =>
    match e.2.for_, e.2.done with
    | .launch c t g, some (x :: _) =>
      if (get tagReset (s.core c).tags t).owner.isSome && (get tagReset (s.core c).tags t).gen == g then
        (s.dropReq e.1).tagDone c t g (x.zeroExtend 64) 0
      else s
    | _, _ => s) s

/-- A context as it stands restored; none where it does not fit now. A new checkpoint is taken of it under its new numbers
(DESIGN CHOICE, assumption 44). -/
def State.restored (s : State) (d : Nat) (ck : Ckpt) : Option State :=
  match Restore.gangs { s := s.next, slots := [], tags := [] } ck d ck.gangs with
  | none => none
  | some r =>
    match (r.rename ck d).reserveAgain d (r.rename ck d).launches with
    | none => none
    | some s =>
      let cores := ((s.domBlocks d).map fun e => e.2.core).eraseDups
      if !(r.cmds ck s).sharesLeft d ((cores.map coreQuad).eraseDups) cores then none
      else
      let s := (r.reissue (r.cmds ck s)).lateLaunches
      let s := r.slots.foldl (fun s e =>
        (List.range (s.grpOf e.2).arms.length).foldl (fun s a => if (s.pathOf e.2 a).trap.isNone then s.settlePath e.2 a else s) s) s
      let new := s.capture d
      some (s.modCtx d fun c =>
        { c with pre := none, stopping := false, ckpt := some new, ckAt := s.now, undo := [], logPos := 0, consumed := c.consumed.map fun w => (r.slot w.1, w.2) })

/-- Cores on which a domain's blocks stand. -/
def State.coresOf (s : State) (d : Nat) : List Nat := ((s.domBlocks d).map fun e => e.2.core).eraseDups

/-- The image of a context that stands in one is accepted by the loader; none while that waits (R346) (DESIGN CHOICE, assumption 28). -/
def State.imageOk (s : State) (d : Nat) : State × Option Bool :=
  if ((s.ctx d).pre.map Preempted.imaged).getD false then s.loadImage d else (s, some true)

/-- A context is placed again, once its image, if it stands in one, has been accepted, others have given up the banks it needs, and its cores
hold its turnstile (R333, R340, R346). -/
def State.comeAgain (s : State) (dom : Nat) (ck : Ckpt) : State :=
  match s.imageOk dom with
  | (s, some true) =>
    (match s.restored dom ck with
     | none => s
     | some t =>
       match s.clearBanks t dom (t.coresOf dom) (s.ctxs.map Prod.fst) with
       | (s, false) => s
       | (s, true) =>
         match s.loadTs dom (t.coresOf dom) with
         | (s, false) => s
         | (s, true) =>
           match s.restored dom ck with
           | some t => t.modPage dom fun p => { p with tstat := p.tstat &&& ~~~ 1#64 }
           | none => s)
  | (s, _) => s

/-- `CONTEXT_RESTORE`: a context that stands off the cores is placed again (DESIGN CHOICE, assumption 44). -/
def execContextRestore (dom : Nat) (s : State) : Result :=
  .next <| match (s.ctx dom).pre.bind Preempted.saved with
    | none =>
      if (s.ctx dom).stopping && (s.page dom).tstat.getLsbD 0 then
        (s.modCtx dom fun c => { c with stopping := false }).modPage dom fun p => { p with tstat := p.tstat &&& ~~~ 1#64 }
      else s
    | some ck => if (s.ctx dom).stopping && !(s.page dom).tstat.getLsbD 0 then s else s.comeAgain dom ck

/-! ## Stopping (R292, R342) -/

/-- The dirty-page report: each page's `D` is cleared, and the pages are listed as far as there is room; whether that is done. -/
def State.dirtyReport (s : State) (d : Nat) : State × Bool :=
  let pages := (s.ctx d).dirty.eraseDups
  let r := s.domRec d
  let size := bits r 288 32
  let s := pages.foldl (fun s p =>
    match homeOf s.fw (p * 65536) with
    | some (dv, h) =>
      if dv != s.fw.dev then s
      else
        (match s.leafOf h (p * 65536) with
         | some (la, l) => if l.testBit 10 then s.writeStruct h la (toBytes 8 (bits l 0 64 - 1024)) else s
         | none => s)
    | none => s) s
  let count := min pages.length size + (if size < pages.length then 2 ^ 63 else 0)
  match s.devPut [d, 2] (bits r 448 64) (toBytes 8 count ++ (pages.take size).flatMap fun p => toBytes 8 (p * 65536)) with
  | (s, false) => (s, false)
  | (s, true) => (s.modCtx d fun c => { c with dirty := [] }, true)

/-- The handle of a saved context that a launch or graph was to tell finds its status there. -/
def Ckpt.doneTag (ck : Ckpt) (o : Origin) (status : Byte) : Ckpt :=
  match o with
  | .tag core tag gen =>
    { ck with tags := ck.tags.map fun t =>
        if t.1 == core && t.2.1 == tag && t.2.2.gen == gen then (t.1, t.2.1, { t.2.2 with done := true, status := status.zeroExtend 64 }) else t }
  | _ => ck

/-- A launch or graph that a stop cancels completes with 0x24: who started it learns so, also in a saved context
(DEDUCED, assumption 45). -/
def State.tellStopped (s : State) (d : Nat) (o : Origin) : State :=
  (s.tell d o 0x24).modCtx d fun c =>
    { c with pre := c.pre.map fun p => { p with saved := p.saved.map fun ck => ck.doneTag o 0x24 } }

/-- The completion word of a launch that is cancelled is updated, by its record; whether that is done (R327, R342)
(DEDUCED, assumption 45). -/
def State.cancelWord (s : State) (h : Handoff) : State × Bool :=
  if h.graph then (s, true)
  else
    match s.syncRead (ringWho h.dom [h.addr]) 1 h.addr 128 with
    | (s, .wait) => (s, false)
    | (s, .fail _ _) => (s, true)
    | (s', .ok b) =>
      match s'.updateWord (newLaunch s.ring.nextSerial h none (recOfBits (ofBytes b)) 0x24) with
      | (s', false) => (s'.keepAnswers s, false)
      | x => x

/-- Launches and graphs of a domain that wait in the ringmaster's queue are cancelled, one after another; whether all are
(DEDUCED, assumption 45). -/
def State.cancelQueue (s : State) (d : Nat) : List Handoff → State × Bool
  | [] => (s, true)
  | h :: r =>
    if h.dom != d then State.cancelQueue s d r
    else
      match s.cancelWord h with
      | (s, false) => (s, false)
      | (s, true) =>
        let s := s.setRing { s.ring with queue := s.ring.queue.erase h }
        State.cancelQueue (s.tellStopped d h.origin) d r

/-- The last steps of a stop: the tenant's writes are performed at `.sys`, then the report, then the status, with a release at `.sys`
(R292). They go on later where something is yet to be written on another device. -/
def State.stopped (s : State) (d : Nat) : State :=
  let s := s.performAll.flushHost
  let img := match (s.ctx d).pre with
    | some { since := t, saved := some ck, imaged := false, .. } =>
      if ck.groups.any fun e => e.2.preempt.isSome then (s, true) else s.writeImage d ck 2 t
    | _ => (s, true)
  match img with
  | (s, false) => s
  | (s, true) =>
    match s.cancelQueue d s.ring.queue with
    | (s, false) => s
    | (s, true) =>
      match s.dirtyReport d with
      | (s, false) => s
      | (s, true) =>
        s.flushHost.modPage d fun p => { p with tstat := w64 ((p.tstat.toNat / 2 ^ 32 + 1) % 2 ^ 32 * 2 ^ 32 + 1) }

/-- The last steps follow once the context is off the cores. -/
def State.stopStep (s : State) (dom : Nat) : State :=
  let c := s.ctx dom
  if c.stopping && !(s.page dom).tstat.getLsbD 0 && (c.ckpt.isNone || (c.pre.bind Preempted.saved).isSome) then s.stopped dom else s

/-- `STOP`: a write of 1 joins its stream; another value has no effect, but that a stop under way goes on: the context leaves the cores and
the last steps follow (R342) (DEDUCED, assumption 45). -/
def execStop (page : PageAt) (x : W64) (s : State) : Result :=
  .next (if x = 1 then s.postReg page.stream page.dom .stop x else s.stopStep page.dom)

end Sys2Proof.Machine
end

