-- ==== Sys2Proof/Machine/Firmware.lean ====
section
/-!
DEFINITION. Reset, bring-up and attestation (R176, R216, R220, R355, R356, R358).
-/

namespace Sys2Proof.Machine

/-- `DEVICE_RESET`: registers, slots and tiles take their reset values and every context is lost; what the memories below the homes hold,
the host's among them, is as it was, and time goes on (DESIGN CHOICE, assumption 47). -/
def execDeviceReset (s : State) : Result :=
  .next { State.reset with
    tick := s.tick, now := s.now, ids := s.ids, inbox := s.inbox
    mem := s.mem.lower
    host := { hostReset with replies := s.host.replies } }

/-- A table from a list of its entries. -/
def tabOf {α : Type} (l : List (Nat × α)) : Tab α := l.foldl (fun t e => put t e.1 e.2) []

/-- The distribution and route tables, and the devices they name. -/
def State.setMaps (s : State) (dist : List (Nat × W64)) (routes : List (Nat × List Nat)) : State :=
  s.setFw { s.fw with
    dist := dist.foldl (fun t e => set 0 t e.1 e.2) []
    routes := tabOf routes
    devs := s.fw.dev :: routes.map Prod.fst }

/-- A home's configuration: base and size of its leaf index, its fault queue, its structure map. -/
def State.setHome (s : State) (h lix m fq : Nat) : State := s.modHome h fun hm => { hm with lix := lix, m := m, fq := fq }

/-- The object table's entries are 0 after reset (R239), in the pages mapped now and later, but for what bring-up writes there
(DEDUCED, assumption 83). -/
def State.clearObjects (s : State) (b : Bringup) : State :=
  let pages := (List.range ((b.objBase + 131071) / 65536 + 1 - b.objBase / 65536)).map fun i => b.objBase / 65536 + i
  let s := (s.setFw { s.fw with objDue := pages }).clearTable
  s.setMem (s.mem.storeAll b.mem)

/-- What firmware writes in any bring-up: at most 15 operating points, the nominal one among them (R356) (DESIGN CHOICE, assumption 6). -/
def bringupOk (b : Bringup) : Bool := b.points.length ≤ 15 && b.points.contains (550, 1400)

/-- The tables and registers of a bring-up are written. -/
def State.bringTables (s : State) (b : Bringup) : State :=
  let s := s.setFw { s.fw with
    dev := b.dev, keyBase := b.keyBase, objBase := b.objBase, domBase := b.domBase, points := b.points, rtCores := b.rtCores
    smap := tabOf b.smap, up := true }
  let s := s.setMaps b.dist b.routes
  let s := s.setCores (mapv (fun _ K => { K with smap := s.fw.smap }) ((List.range 384).foldl (fun t c => put t c (s.core c)) s.cores))
  let s := b.homes.foldl (fun s h => s.setHome h.1 h.2.1 h.2.2.1 h.2.2.2) s
  let s := b.structs.foldl (fun s h => s.modHome h.1 fun hm => { hm with structs := h.2 }) s
  (s.setMem (s.mem.storeAll b.mem)).clearObjects b

/-- Whether the runtime's record is one of a concurrent launch with `SYS` set (R355) (DESIGN CHOICE, assumption 6). -/
def State.runtimeOk (s : State) (b : Bringup) : Bool :=
  (s.peekNat b.runtime 128).testBit 469 && bits (s.peekNat b.runtime 128) 467 2 == 0

/-- `FIRMWARE_BRINGUP`: the tables, the slice maps, the homes, the bases, the runtime's cores, and the runtime, whose record is handed over
as a launch of domain 0x0000. Once it has been done it has no further effect; what no firmware writes has none (DESIGN CHOICE, assumption
6). -/
def execFirmwareBringup (b : Bringup) (s : State) : Result :=
  .next <|
    if s.fw.up || !bringupOk b || !(s.bringTables b).runtimeOk b then s
    else
      let s := s.bringTables b
      s.setRing { s.ring with
        queue := s.ring.queue ++
          [{ addr := b.runtime, graph := false, early := true, dom := 0, issuer := 0, origin := .none }] }

/-- `DISTRIBUTION_TABLE_CHANGE`. -/
def execDistributionTableChange (dist : List (Nat × W64)) (routes : List (Nat × List Nat)) (s : State) : Result :=
  .next (s.setMaps dist routes)

/-- An answer to an SPDM request: its response code, and a payload the manual does not lay out
(DESIGN CHOICE, assumption 2; PRESUMED, assumption 58). -/
def State.spdmAnswer (s : State) (code : Nat) (fixed : List Byte) : State :=
  s.next.setFw { s.fw with
    spdm := s.fw.spdm ++ [(code, fixed ++ freeBytes s.ids (Config.freeChoice (s.ids + 2 ^ 64) % 65536))] }

/-- `GET_VERSION`: version 1.2 (R356). -/
def execGetVersion (s : State) : Result := .next (s.spdmAnswer 0x04 [0x00, 0x12])
/-- `GET_CAPABILITIES` (R356): SPDM request for capabilities. -/
def execGetCapabilities (s : State) : Result := .next (s.spdmAnswer 0x61 [])

/-- `NEGOTIATE_ALGORITHMS`: ECDSA on P-384 with SHA-384, or an error. -/
def execNegotiateAlgorithms (p384 sha384 : Bool) (s : State) : Result :=
  .next (s.spdmAnswer (if p384 && sha384 then 0x63 else 0x7F) [])

/-- `GET_DIGESTS` (R356): SPDM request for certificate digests. -/
def execGetDigests (s : State) : Result := .next (s.spdmAnswer 0x01 [])
/-- `GET_CERTIFICATE` (R356): SPDM request for a certificate chain. -/
def execGetCertificate (s : State) : Result := .next (s.spdmAnswer 0x02 [])

/-- `CHALLENGE`: signed with the identity key over the nonce, by a signature the model leaves free. -/
def execChallenge (_nonce : List Byte) (s : State) : Result := .next (s.spdmAnswer 0x03 [])
/-- `GET_MEASUREMENTS` (R356): SPDM request for measurements of the firmware, the runtime image and the operating-point table: the answer is a
function of the table and of images that the model does not hold (DESIGN CHOICE, assumption 2; PRESUMED, assumption 58). -/
def execGetMeasurements (s : State) : Result :=
  .next (s.spdmAnswer 0x60 ((List.range 48).map (Config.measure (s.fw.points.flatMap fun p => [p.1, p.2]))))

end Sys2Proof.Machine
end

