-- ==== Sys2Proof/Machine/Dispatch.lean ====
section
/-!
DEFINITION. One arm per constructor of Instr: each calls the meaning of its instruction or event.
-/

namespace Sys2Proof.Machine

def exec (i : Instr) (s : State) : Host.Outcome State Fault Refusal :=
  match i with
  | .nop g => Sys2Proof.Machine.execNop g s
  | .bra g tgt recon => Sys2Proof.Machine.execBra g tgt recon s
  | .bru uns c a b off => Sys2Proof.Machine.execBru uns c a b off s
  | .bpend r off => Sys2Proof.Machine.execBpend r off s
  | .call g slide off => Sys2Proof.Machine.execCall g slide off s
  | .calli g slide a => Sys2Proof.Machine.execCalli g slide a s
  | .ret g => Sys2Proof.Machine.execRet g s
  | .loopk a off => Sys2Proof.Machine.execLoopk a off s
  | .exit g => Sys2Proof.Machine.execExit g s
  | .iadd g t d a b => Sys2Proof.Machine.execIadd g t d a b s
  | .isub g t d a b => Sys2Proof.Machine.execIsub g t d a b s
  | .imul g t d a b => Sys2Proof.Machine.execImul g t d a b s
  | .imulh g t d a b => Sys2Proof.Machine.execImulh g t d a b s
  | .imad g t d a b c => Sys2Proof.Machine.execImad g t d a b c s
  | .imin g t d a b => Sys2Proof.Machine.execImin g t d a b s
  | .imax g t d a b => Sys2Proof.Machine.execImax g t d a b s
  | .iabs g t d a => Sys2Proof.Machine.execIabs g t d a s
  | .ineg g t d a => Sys2Proof.Machine.execIneg g t d a s
  | .addmin g t d a b c => Sys2Proof.Machine.execAddmin g t d a b c s
  | .addmax g t d a b c => Sys2Proof.Machine.execAddmax g t d a b c s
  | .ilea g t d a b n => Sys2Proof.Machine.execIlea g t d a b n s
  | .and g t d a b => Sys2Proof.Machine.execAnd g t d a b s
  | .or g t d a b => Sys2Proof.Machine.execOr g t d a b s
  | .xor g t d a b => Sys2Proof.Machine.execXor g t d a b s
  | .andn g t d a b => Sys2Proof.Machine.execAndn g t d a b s
  | .not g t d a => Sys2Proof.Machine.execNot g t d a s
  | .shl g t d a b => Sys2Proof.Machine.execShl g t d a b s
  | .shr g t d a b => Sys2Proof.Machine.execShr g t d a b s
  | .sar g t d a b => Sys2Proof.Machine.execSar g t d a b s
  | .rot g t d a b right => Sys2Proof.Machine.execRot g t d a b right s
  | .clz g t d a => Sys2Proof.Machine.execClz g t d a s
  | .popc g t d a => Sys2Proof.Machine.execPopc g t d a s
  | .brev g t d a => Sys2Proof.Machine.execBrev g t d a s
  | .bfx g t d a b => Sys2Proof.Machine.execBfx g t d a b s
  | .bfi g t d a b c => Sys2Proof.Machine.execBfi g t d a b c s
  | .sel g t d a b pc => Sys2Proof.Machine.execSel g t d a b pc s
  | .mov g t d a => Sys2Proof.Machine.execMov g t d a s
  | .movi g t d x => Sys2Proof.Machine.execMovi g t d x s
  | .iset g t p c a b => Sys2Proof.Machine.execIset g t p c a b s
  | .icvt g dt st d a sat => Sys2Proof.Machine.execIcvt g dt st d a sat s
  | .kadd g d a b => Sys2Proof.Machine.execKadd g d a b s
  | .ksub g d a b => Sys2Proof.Machine.execKsub g d a b s
  | .kmul g d a b => Sys2Proof.Machine.execKmul g d a b s
  | .kand g d a b => Sys2Proof.Machine.execKand g d a b s
  | .kor g d a b => Sys2Proof.Machine.execKor g d a b s
  | .kxor g d a b => Sys2Proof.Machine.execKxor g d a b s
  | .kshl g d a b => Sys2Proof.Machine.execKshl g d a b s
  | .kshr g d a b => Sys2Proof.Machine.execKshr g d a b s
  | .kmov g t d a => Sys2Proof.Machine.execKmov g t d a s
  | .kmovi g t d x => Sys2Proof.Machine.execKmovi g t d x s
  | .kset g t d c a b => Sys2Proof.Machine.execKset g t d c a b s
  | .ksel g d a b c => Sys2Proof.Machine.execKsel g d a b c s
  | .vtok g t d a b => Sys2Proof.Machine.execVtok g t d a b s
  | .ktov g t d a => Sys2Proof.Machine.execKtov g t d a s
  | .plog g p a b t => Sys2Proof.Machine.execPlog g p a b t s
  | .vote g d a => Sys2Proof.Machine.execVote g d a s
  | .getx g d => Sys2Proof.Machine.execGetx g d s
  | .setx g a => Sys2Proof.Machine.execSetx g a s
  | .lshift g t d a b c up => Sys2Proof.Machine.execLshift g t d a b c up s
  | .lswz g t d a b => Sys2Proof.Machine.execLswz g t d a b s
  | .lperm g t d a b => Sys2Proof.Machine.execLperm g t d a b s
  | .lbcast g t d a b => Sys2Proof.Machine.execLbcast g t d a b s
  | .lred g op t d a => Sys2Proof.Machine.execLred g op t d a s
  | .xch g t d a b => Sys2Proof.Machine.execXch g t d a b s
  | .fadd g t r sat d a b => Sys2Proof.Machine.execFadd g t r sat d a b s
  | .fsub g t r sat d a b => Sys2Proof.Machine.execFsub g t r sat d a b s
  | .fmul g t r sat d a b => Sys2Proof.Machine.execFmul g t r sat d a b s
  | .ffma g t r sat d a b c => Sys2Proof.Machine.execFfma g t r sat d a b c s
  | .fmin g t d a b => Sys2Proof.Machine.execFmin g t d a b s
  | .fmax g t d a b => Sys2Proof.Machine.execFmax g t d a b s
  | .fset g t p c a b => Sys2Proof.Machine.execFset g t p c a b s
  | .frcp g t d a => Sys2Proof.Machine.execFrcp g t d a s
  | .frsq g t d a => Sys2Proof.Machine.execFrsq g t d a s
  | .fsqrt g t r d a => Sys2Proof.Machine.execFsqrt g t r d a s
  | .fexp2 g t d a => Sys2Proof.Machine.execFexp2 g t d a s
  | .flog2 g t d a => Sys2Proof.Machine.execFlog2 g t d a s
  | .fsin g t d a => Sys2Proof.Machine.execFsin g t d a s
  | .fcos g t d a => Sys2Proof.Machine.execFcos g t d a s
  | .fscale g t r d a b => Sys2Proof.Machine.execFscale g t r d a b s
  | .fclass g t d a => Sys2Proof.Machine.execFclass g t d a s
  | .fdot2 g t r sat d a b c => Sys2Proof.Machine.execFdot2 g t r sat d a b c s
  | .fred g op t r d a => Sys2Proof.Machine.execFred g op t r d a s
  | .fcvt g dt st hi r d a b => Sys2Proof.Machine.execFcvt g dt st hi r d a b s
  | .ftoi g dt st r d a => Sys2Proof.Machine.execFtoi g dt st r d a s
  | .itof g dt st r d a => Sys2Proof.Machine.execItof g dt st r d a s
  | .narrow g dt d a b => Sys2Proof.Machine.execNarrow g dt d a b s
  | .ld g t o sc slk d m => Sys2Proof.Machine.execLd g t o sc slk d m s
  | .st g t o sc slk m c => Sys2Proof.Machine.execSt g t o sc slk m c s
  | .ldu g t o sc slk d m => Sys2Proof.Machine.execLdu g t o sc slk d m s
  | .ldl g t o sc slk d m => Sys2Proof.Machine.execLdl g t o sc slk d m s
  | .stl g t o sc slk m c => Sys2Proof.Machine.execStl g t o sc slk m c s
  | .ldc g t slk d w b x => Sys2Proof.Machine.execLdc g t slk d w b x s
  | .atom g op t loc o sc slk d m c e => Sys2Proof.Machine.execAtom g op t loc o sc slk d m c e s
  | .red g op t loc o sc slk m c => Sys2Proof.Machine.execRed g op t loc o sc slk m c s
  | .poll g t cmp o sc slk d m c => Sys2Proof.Machine.execPoll g t cmp o sc slk d m c s
  | .fence g o sc slk => Sys2Proof.Machine.execFence g o sc slk s
  | .pref g t l2 slk m => Sys2Proof.Machine.execPref g t l2 slk m s
  | .discard g slk a => Sys2Proof.Machine.execDiscard g slk a s
  | .waitc g l n c t => Sys2Proof.Machine.execWaitc g l n c t s
  | .cpy g f kh a b c => Sys2Proof.Machine.execCpy g f kh a b c s
  | .cpg g f kh a b c d len => Sys2Proof.Machine.execCpg g f kh a b c d len s
  | .cpm g f kh a b c d => Sys2Proof.Machine.execCpm g f kh a b c d s
  | .cpyr g t f kh a b c => Sys2Proof.Machine.execCpyr g t f kh a b c s
  | .cpyo g f kh a b c d => Sys2Proof.Machine.execCpyo g f kh a b c d s
  | .cpya g f kh a b c d => Sys2Proof.Machine.execCpya g f kh a b c d s
  | .qfence g m => Sys2Proof.Machine.execQfence g m s
  | .join g d a => Sys2Proof.Machine.execJoin g d a s
  | .test g p a => Sys2Proof.Machine.execTest g p a s
  | .cancel g d a => Sys2Proof.Machine.execCancel g d a s
  | .waitany g d a => Sys2Proof.Machine.execWaitany g d a s
  | .waitall g d a => Sys2Proof.Machine.execWaitall g d a s
  | .ffr g d a => Sys2Proof.Machine.execFfr g d a s
  | .oclaim g d a => Sys2Proof.Machine.execOclaim g d a s
  | .orel g a b => Sys2Proof.Machine.execOrel g a b s
  | .aclaim g d a => Sys2Proof.Machine.execAclaim g d a s
  | .arel g a b => Sys2Proof.Machine.execArel g a b s
  | .mloop g fa fb prio kh kt ka kb nstep ia ib mode => Sys2Proof.Machine.execMloop g fa fb prio kh kt ka kb nstep ia ib mode s
  | .mzero g prio kh kt => Sys2Proof.Machine.execMzero g prio kh kt s
  | .mrowsc g prio kh kt ka => Sys2Proof.Machine.execMrowsc g prio kh kt ka s
  | .bar g lv n sc => Sys2Proof.Machine.execBar g lv n sc s
  | .arrive g lv n sc d c => Sys2Proof.Machine.execArrive g lv n sc d c s
  | .await g lv n sc q => Sys2Proof.Machine.execAwait g lv n sc q s
  | .yield g => Sys2Proof.Machine.execYield g s
  | .mfs g d r => Sys2Proof.Machine.execMfs g d r s
  | .mts g r a => Sys2Proof.Machine.execMts g r a s
  | .mode g a b => Sys2Proof.Machine.execMode g a b s
  | .qxfer g d a n => Sys2Proof.Machine.execQxfer g d a n s
  | .trap g n => Sys2Proof.Machine.execTrap g n s
  | .rft g => Sys2Proof.Machine.execRft g s
  | .snap g d => Sys2Proof.Machine.execSnap g d s
  | .brk g n => Sys2Proof.Machine.execBrk g n s
  | .launch g graph early d a => Sys2Proof.Machine.execLaunch g graph early d a s
  | .fetchBlock grp arm => Sys2Proof.Machine.execFetchBlock grp arm s
  | .blockEnd blk => Sys2Proof.Machine.execBlockEnd blk s
  | .launchAdmission l => Sys2Proof.Machine.execLaunchAdmission l s
  | .blockPlacement stream => Sys2Proof.Machine.execBlockPlacement stream s
  | .gangReserve stream quad => Sys2Proof.Machine.execGangReserve stream quad s
  | .gangCommit stream => Sys2Proof.Machine.execGangCommit stream s
  | .gangBackoffRetry stream => Sys2Proof.Machine.execGangBackoffRetry stream s
  | .operatingPointStable granted => Sys2Proof.Machine.execOperatingPointStable granted s
  | .starvationTimerExpiry grp arm => Sys2Proof.Machine.execStarvationTimerExpiry grp arm s
  | .replyLands pkt => Sys2Proof.Machine.execReplyLands pkt s
  | .residualEntryRun grp entry => Sys2Proof.Machine.execResidualEntryRun grp entry s
  | .trapEntry grp arm => Sys2Proof.Machine.execTrapEntry grp arm s
  | .pollReread pkt => Sys2Proof.Machine.execPollReread pkt s
  | .claimGrant quad tiles => Sys2Proof.Machine.execClaimGrant quad tiles s
  | .claimReleaseFree quad tiles => Sys2Proof.Machine.execClaimReleaseFree quad tiles s
  | .tagAllocate core => Sys2Proof.Machine.execTagAllocate core s
  | .reservationPost quad => Sys2Proof.Machine.execReservationPost quad s
  | .matrixStepGrant quad => Sys2Proof.Machine.execMatrixStepGrant quad s
  | .copyChunk core => Sys2Proof.Machine.execCopyChunk core s
  | .commandCompletion cmd => Sys2Proof.Machine.execCommandCompletion cmd s
  | .launchQueueHandoff => Sys2Proof.Machine.execLaunchQueueHandoff s
  | .graphStart => Sys2Proof.Machine.execGraphStart s
  | .kernelNode graph walk => Sys2Proof.Machine.execKernelNode graph walk s
  | .conditionalNode graph walk => Sys2Proof.Machine.execConditionalNode graph walk s
  | .loopNode graph walk => Sys2Proof.Machine.execLoopNode graph walk s
  | .joinNode graph walk => Sys2Proof.Machine.execJoinNode graph walk s
  | .homeRequestService unit => Sys2Proof.Machine.execHomeRequestService unit s
  | .leafStore pkt => Sys2Proof.Machine.execLeafStore pkt s
  | .replicaInvalidation pkt => Sys2Proof.Machine.execReplicaInvalidation pkt s
  | .unscrubbedClearLine home => Sys2Proof.Machine.execUnscrubbedClearLine home s
  | .nrFault pkt => Sys2Proof.Machine.execNrFault pkt s
  | .nrKey pkt => Sys2Proof.Machine.execNrKey pkt s
  | .nrBusy pkt => Sys2Proof.Machine.execNrBusy pkt s
  | .nrBusyReplay pkt => Sys2Proof.Machine.execNrBusyReplay pkt s
  | .nrRedirect pkt => Sys2Proof.Machine.execNrRedirect pkt s
  | .faultResolvedSignal pkt => Sys2Proof.Machine.execFaultResolvedSignal pkt s
  | .errorResponse pkt => Sys2Proof.Machine.execErrorResponse pkt s
  | .sliceMapChange logical unit => Sys2Proof.Machine.execSliceMapChange logical unit s
  | .sliceMapInstall core => Sys2Proof.Machine.execSliceMapInstall core s
  | .unitRetirement u t => Sys2Proof.Machine.execUnitRetirement u t s
  | .retirementTakeover t => Sys2Proof.Machine.execRetirementTakeover t s
  | .turnstileReload core => Sys2Proof.Machine.execTurnstileReload core s
  | .slackClockTick => Sys2Proof.Machine.execSlackClockTick s
  | .packetGrant point => Sys2Proof.Machine.execPacketGrant point s
  | .sliceStreamBeat stream => Sys2Proof.Machine.execSliceStreamBeat stream s
  | .flitReceive link seq good body => Sys2Proof.Machine.execFlitReceive link seq good body s
  | .linkAck link seq => Sys2Proof.Machine.execLinkAck link seq s
  | .linkNak link seq => Sys2Proof.Machine.execLinkNak link seq s
  | .linkAckTimeout link => Sys2Proof.Machine.execLinkAckTimeout link s
  | .linkRetrain link ok => Sys2Proof.Machine.execLinkRetrain link ok s
  | .pauseFrame link cls on => Sys2Proof.Machine.execPauseFrame link cls on s
  | .remoteResendTimeout req => Sys2Proof.Machine.execRemoteResendTimeout req s
  | .remoteWriteReceive src id phys addr dom pass op => Sys2Proof.Machine.execRemoteWriteReceive src id phys addr dom pass op s
  | .dedupeEntryExpiry => Sys2Proof.Machine.execDedupeEntryExpiry s
  | .packetLifetimeExpiry pkt => Sys2Proof.Machine.execPacketLifetimeExpiry pkt s
  | .messagePacketReceive src id phys addr dom pass off total bytes => Sys2Proof.Machine.execMessagePacketReceive src id phys addr dom pass off total bytes s
  | .hostPostedWrite stream relaxed dst bytes => Sys2Proof.Machine.execHostPostedWrite stream relaxed dst bytes s
  | .hostReadRequest stream src n => Sys2Proof.Machine.execHostReadRequest stream src n s
  | .hostAtomicopRequest stream addr => Sys2Proof.Machine.execHostAtomicopRequest stream addr s
  | .hostRegisterWrite page len x => Sys2Proof.Machine.execHostRegisterWrite page len x s
  | .flush dom stream x => Sys2Proof.Machine.execFlush dom stream x s
  | .inval dom stream x => Sys2Proof.Machine.execInval dom stream x s
  | .tohost dom stream x => Sys2Proof.Machine.execTohost dom stream x s
  | .todev dom stream x => Sys2Proof.Machine.execTodev dom stream x s
  | .kickCompletion dom => Sys2Proof.Machine.execKickCompletion dom s
  | .submitLaunch page x => Sys2Proof.Machine.execSubmitLaunch page x s
  | .submitGraph page x => Sys2Proof.Machine.execSubmitGraph page x s
  | .stop page x => Sys2Proof.Machine.execStop page x s
  | .cxlResponseTimeout pkt => Sys2Proof.Machine.execCxlResponseTimeout pkt s
  | .budgetTick dom => Sys2Proof.Machine.execBudgetTick dom s
  | .budgetResume dom => Sys2Proof.Machine.execBudgetResume dom s
  | .checkpoint dom => Sys2Proof.Machine.execCheckpoint dom s
  | .preemption dom => Sys2Proof.Machine.execPreemption dom s
  | .preemptionHandlerTimeout grp => Sys2Proof.Machine.execPreemptionHandlerTimeout grp s
  | .contextRestore dom => Sys2Proof.Machine.execContextRestore dom s
  | .deviceReset => Sys2Proof.Machine.execDeviceReset s
  | .firmwareBringup b => Sys2Proof.Machine.execFirmwareBringup b s
  | .getVersion => Sys2Proof.Machine.execGetVersion s
  | .getCapabilities => Sys2Proof.Machine.execGetCapabilities s
  | .negotiateAlgorithms p384 sha384 => Sys2Proof.Machine.execNegotiateAlgorithms p384 sha384 s
  | .getDigests => Sys2Proof.Machine.execGetDigests s
  | .getCertificate => Sys2Proof.Machine.execGetCertificate s
  | .challenge nonce => Sys2Proof.Machine.execChallenge nonce s
  | .getMeasurements => Sys2Proof.Machine.execGetMeasurements s
  | .distributionTableChange dist routes => Sys2Proof.Machine.execDistributionTableChange dist routes s
  | .cxlPortDown port up => Sys2Proof.Machine.execCxlPortDown port up s
  | .requestIdReuse => Sys2Proof.Machine.execRequestIdReuse s
  | .ackInterval link => Sys2Proof.Machine.execAckInterval link s

end Sys2Proof.Machine
end

