-- ==== Sys2Proof/Machine/Turn.lean ====
section
/-!
DEFINITION. What a path does at its turn (R62, R68, R74, R124), which paths may have one (R119, R125, R333, R338, R340), and which events
may happen now.
-/

namespace Sys2Proof.Machine

/-! ## What a path does at its turn -/

/-- What a path does: nothing, an event of its own, an illegal sequence (R98), or an instruction. -/
inductive Act where
  | idle
  | event (e : Instr)
  | illegal
  | run (i : Instr)
deriving DecidableEq, Repr

/-- The satisfied entry of the path that runs next. -/
def Cur.entryAct (c : Cur) : Option Act :=
  (c.grp.nextEntry c.arm).map fun e => .event (.residualEntryRun c.g e.id)

/-- Whether a raised trap may be entered now. In a handler, one that is taken at a boundary is held. -/
def Cur.trapNow (c : Cur) : Bool :=
  c.path.trap.any fun t => c.grp.trapReady c.arm t && (c.grp.inTrap.isNone || !t.atBoundary)

/-- What stands at a path's pc: nothing fetched yet, a pad, an illegal sequence, or an instruction (DESIGN CHOICE, assumption 91). -/
def State.fetchAct (s : State) (c : Cur) : Act :=
  match s.icBlock c.core c.grp.launch c.path.pc with
  | none => .event (.fetchBlock c.g (c.arm == 1))
  | some b =>
    match decodeAt b (c.path.pc.toNat % 32) with
    | .pad => .event (.fetchBlock c.g (c.arm == 1))
    | .illegal => .illegal
    | .instr i _ => .run i

/-- What a path does at its turn: a failed access or a raised trap comes first, then satisfied entries, then what stands at its pc. -/
def State.act (s : State) (c : Cur) : Act :=
  if c.failing.isSome then .event (.trapEntry c.g (c.arm == 1))
  else if c.trapNow then .event (.trapEntry c.g (c.arm == 1))
  else
    match c.entryAct with
    | some x => x
    | none =>
      if c.path.trap.any fun t => !(t.atBoundary && c.grp.inTrap.isSome) then .idle
      else if c.path.st == .atRecon || c.path.st == .held then .idle
      else if c.lateDue then .event (.trapEntry c.g (c.arm == 1))
      else if c.grp.atPoint c.arm then .event (.fetchBlock c.g (c.arm == 1))
      else s.fetchAct c

/-- A path comes to an illegal sequence (R98). -/
def State.badWord (s : State) (c : Cur) : State := s.trapAt c 1 none

/-! ## Which paths may have a turn -/

/-- A context whose checkpoint is due issues nothing until it is taken (R338), and one that is being pre-empted only what its saving needs
(R340, R341); a core issues nothing of a domain whose turnstile is to be reloaded (R333). In a handler the group's other path issues nothing
(R125); a path that has yielded issues nothing in the next cycle (R119) (DEDUCED, assumptions 55 and 62). -/
def State.mayAct (s : State) (c : Cur) : Bool :=
  let d := s.domOf c.grp.launch
  let x := s.ctx d
  c.grp.preempt.isNone && !s.ckDue d && !(s.staleTs c.core).contains d
    && (c.grp.inTrap.all fun t => !t.other || t.arm == c.arm)
    && (match s.act c with
        | .idle => false
        | .event _ => true
        | _ => c.path.rest ≤ s.now && (x.pre.isNone || c.grp.inTrap.isSome))

/-! ## Events -/

/-- An event, as against an instruction of a path. -/
def isEvent : Instr → Bool
  | .fetchBlock _ _ | .blockEnd _ | .launchAdmission _ | .blockPlacement _ | .gangReserve _ _ | .gangCommit _
  | .gangBackoffRetry _ | .operatingPointStable _ | .starvationTimerExpiry _ _ | .replyLands _ | .residualEntryRun _ _
  | .trapEntry _ _ | .pollReread _ | .claimGrant _ _ | .claimReleaseFree _ _ | .tagAllocate _ | .reservationPost _
  | .matrixStepGrant _ | .copyChunk _ | .commandCompletion _ | .launchQueueHandoff | .graphStart | .kernelNode _ _
  | .conditionalNode _ _ | .loopNode _ _ | .joinNode _ _ | .homeRequestService _ | .leafStore _ | .replicaInvalidation _
  | .unscrubbedClearLine _ | .nrFault _ | .nrKey _ | .nrBusy _ | .nrBusyReplay _ | .nrRedirect _ | .faultResolvedSignal _
  | .errorResponse _ | .sliceMapChange _ _ | .sliceMapInstall _ | .unitRetirement _ _ | .retirementTakeover _
  | .turnstileReload _ | .slackClockTick | .packetGrant _ | .sliceStreamBeat _ | .flitReceive _ _ _ _ | .linkAck _ _
  | .linkNak _ _ | .linkAckTimeout _ | .linkRetrain _ _ | .pauseFrame _ _ _ | .remoteResendTimeout _
  | .remoteWriteReceive _ _ _ _ _ _ _ | .dedupeEntryExpiry | .packetLifetimeExpiry _
  | .messagePacketReceive _ _ _ _ _ _ _ _ _ | .hostPostedWrite _ _ _ _ | .hostReadRequest _ _ _ | .hostAtomicopRequest _ _
  | .hostRegisterWrite _ _ _ | .flush _ _ _ | .inval _ _ _ | .tohost _ _ _ | .todev _ _ _ | .kickCompletion _
  | .submitLaunch _ _ | .submitGraph _ _ | .stop _ _ | .cxlResponseTimeout _ | .budgetTick _ | .budgetResume _
  | .checkpoint _ | .preemption _ | .preemptionHandlerTimeout _ | .contextRestore _ | .deviceReset | .firmwareBringup _
  | .getVersion | .getCapabilities | .negotiateAlgorithms _ _ | .getDigests | .getCertificate | .challenge _
  | .getMeasurements | .distributionTableChange _ _ | .cxlPortDown _ _ | .requestIdReuse | .ackInterval _ => true
  | _ => false

def whenB (b : Bool) (l : List Instr) : List Instr := if b then l else []

/-- Events of a packet, by where it stands. -/
def packetEvents (dev i : Nat) (p : Packet) : List Instr :=
  match p.phase with
  | .going => whenB (p.dev != dev) [.packetLifetimeExpiry i]
  | .passing _ => [.packetLifetimeExpiry i]
  | .near => [.replyLands i]
  | .leaf => [.leafStore i]
  | .replica => [.replicaInvalidation i]
  | .silent _ => [.cxlResponseTimeout i]
  | .landed (.ok _ _) => [.replyLands i]
  | .landed (.nrFault _ _) => [.nrFault i]
  | .landed .nrKey => [.nrKey i]
  | .landed .nrBusy => [.nrBusy i]
  | .landed (.nrRedirect _) | .redirected _ => [.nrRedirect i]
  | .landed .err => [.errorResponse i]
  | .signalled _ => [.faultResolvedSignal i]
  | .polling _ => [.pollReread i]
  | .busy _ => [.nrBusyReplay i]
  | .port | .kept _ _ | .remote | .back _ | .ready _ | .beat .. | .faulted _ _ | .keyed => []

/-- Events of the groups: expiring timers, and handlers that outlast a pre-emption. -/
def State.groupEvents (s : State) : List Instr :=
  s.groups.flatMap fun e =>
    ((List.range e.2.arms.length).filterMap fun a =>
      match (e.2.armOf a).st with
      | .waiting (some _) => some (Instr.starvationTimerExpiry e.1 (a == 1))
      | _ => none)
    ++ whenB e.2.inTrap.isSome [.preemptionHandlerTimeout e.1]

/-- Events of the cores and quads: tags, chunks, maps, turnstiles, claims, matrix steps; the end of commands and of blocks. -/
def State.engineEvents (s : State) : List Instr :=
  ((List.range 384).flatMap fun c =>
    let K := s.core c
    whenB (!K.tagWait.isEmpty) [.tagAllocate c] ++ whenB (K.smgen != s.fw.smgen) [.sliceMapInstall c]
      ++ whenB (!(s.staleTs c).isEmpty) [.turnstileReload c])
  ++ ((s.cmds.map fun e => e.2.core).eraseDups.map Instr.copyChunk)
  ++ (s.cmds.map fun e => Instr.commandCompletion e.1)
  ++ (s.quads.flatMap fun e =>
    whenB (!e.2.sWait.isEmpty) [.claimGrant e.1 false] ++ whenB (!e.2.tWait.isEmpty) [.claimGrant e.1 true]
      ++ whenB (!e.2.rels.isEmpty) [.claimReleaseFree e.1 false, .claimReleaseFree e.1 true]
      ++ whenB (!e.2.posting.isEmpty) [.reservationPost e.1] ++ whenB (!e.2.table.isEmpty) [.matrixStepGrant e.1])
  ++ (s.blocks.map fun e => Instr.blockEnd e.1)

/-- Events of the ringmaster. -/
def State.ringEvents (s : State) : List Instr :=
  ((List.range s.ring.queue.length).map Instr.launchAdmission)
  ++ [.launchQueueHandoff, .graphStart]
  ++ ((List.range 16).flatMap fun n => (List.range 96).map fun q => Instr.gangReserve n q)
  ++ (s.ring.streams.flatMap fun e => [.gangCommit e.1, .gangBackoffRetry e.1, .blockPlacement e.1])
  ++ (s.ring.graphs.flatMap fun g => g.2.walks.flatMap fun w =>
    [.kernelNode g.1 w.1, .conditionalNode g.1 w.1, .loopNode g.1 w.1, .joinNode g.1 w.1])
  ++ whenB s.ring.opReq.isSome ((List.range 16).map Instr.operatingPointStable)

/-- Events of the network, the homes and the fabric. -/
def State.netEvents (s : State) : List Instr :=
  (s.net.packets.flatMap fun e => packetEvents s.fw.dev e.1 e.2)
  ++ ((List.range s.points.length).map Instr.packetGrant)
  ++ ((s.net.packets.map fun e => e.2.unit).eraseDups.map Instr.homeRequestService)
  ++ (s.net.streams.map fun e => Instr.sliceStreamBeat e.1)
  ++ (s.homes.flatMap fun e => whenB (!e.2.clears.isEmpty) [.unscrubbedClearLine e.1])
  ++ (match s.fw.retiring with | some (_, t) => [.retirementTakeover t] | none => [])
  ++ (s.fab.links.flatMap fun e =>
    [.linkAckTimeout e.1, .ackInterval e.1, .linkRetrain e.1 true, .linkRetrain e.1 false])
  ++ (s.fab.reqs.map fun e => Instr.remoteResendTimeout e.1)
  ++ whenB (!s.fab.dedupe.isEmpty) [.dedupeEntryExpiry]
  ++ whenB (!s.fab.used.isEmpty) [.requestIdReuse]

/-- Events of the host port and of the contexts. A slice may end at any time. -/
def State.tenancyEvents (s : State) : List Instr :=
  (s.host.streams.flatMap fun e =>
    whenB (!e.2.posted.isEmpty) [.hostPostedWrite e.1 false (.own 0) []]
      ++ whenB (!e.2.reads.isEmpty) [.hostReadRequest e.1 (.device 0) 0])
  ++ (s.host.pages.flatMap fun e => whenB e.2.kick.isSome [.kickCompletion e.1])
  ++ (s.ctxs.flatMap fun e =>
    [.budgetTick e.1, .checkpoint e.1, .preemption e.1] ++ whenB e.2.suspended [.budgetResume e.1]
      ++ whenB (e.2.stopping || (e.2.pre.bind Preempted.saved).isSome) [.contextRestore e.1]
      ++ whenB (e.2.stopping && !(s.page e.1).tstat.getLsbD 0) [.stop ⟨e.1, 0⟩ 0])

/-- Every event of the device that may happen now; one whose condition does not hold has no effect (DESIGN CHOICE, assumption 5). -/
def State.events (s : State) : List Instr :=
  .slackClockTick :: (s.groupEvents ++ s.engineEvents ++ s.ringEvents ++ s.netEvents ++ s.tenancyEvents)

/-! ## A program's first instruction (assumption 6) -/

/-- The bytes of an instruction given as a number, in a fetch block (DESIGN CHOICE, assumption 6). -/
def blockBytes (nbits w : Nat) : List Byte :=
  let b := (tableWords (w % 2 ^ nbits)).flatMap bytes32
  (if b.isEmpty then bytes32 (BitVec.ofNat 32 (w % 2 ^ nbits)) else b) ++ List.replicate (32 - max 4 b.length) 0

/-- A launch of one block of one group of domain 0x0000 stands on core 0, its entry at address 0 fetched and its path's turn come
(DESIGN CHOICE, assumption 6). -/
def State.withProgram (s : State) (block : List Byte) : State :=
  let l := s.ring.nextSerial
  let b := s.ids
  let k := s.ids + 1
  let r : LRec := { recNone with nx := 1, ny := 1, nz := 1 }
  let L : Launch :=
    { newLaunch l { addr := 0, graph := false, early := true, dom := 0, issuer := 0, origin := .none } none r 0 with
      pos := 1, coresSeen := [0] }
  let B : Block :=
    { launch := l, lin := 0, x := 0, y := 0, z := 0, core := 0, gang := k, gblk := 0, lbase := 0, lsize := 0, groups := [0]
      live := [0], bars := [], ended := false, paid := s.now }
  let s := s.next.next.setRing { s.ring with nextSerial := l + 1 }
  let s := s.setLaunches (put s.launches l L)
  let s := s.setBlocks (put s.blocks b B)
  let s := s.setGangs (put s.gangs k { launch := l, index := 0, quad := 0, blocks := [b], bars := [] })
  let s := s.setGroups (put s.groups 0 (r.newGroup l b 0))
  (s.modCore 0 fun K => { K with icache := put K.icache (icKey l 0) block }).setTurn (.path 0 0)

end Sys2Proof.Machine
end

