-- ==== Sys2Proof/Machine/Sched.lean ====
section
/-!
DEFINITION. Whose turn it is: which ready paths a quarter may issue (R23, R62, R119), and the free choice among paths, events and the inputs that
wait (assumptions 1 and 5).
-/

namespace Sys2Proof.Machine

/-! ## Ready paths (R23) -/

/-- Rank of a path in its quarter: the system class, then concurrent and parallel launches, then weakly parallel ones
(DESIGN CHOICE, assumption 5; DEDUCED, assumption 62). -/
def State.rank (s : State) (c : Cur) : Nat :=
  let r := s.recOf c.grp.launch
  if r.sys then 0 else if r.pclass = 2 then 2 else 1

/-- Whether an outcome has issued the instruction of a path: it is neither parked nor still in the wait it stood in. -/
def Cur.issued (c : Cur) (r : Result) : Bool :=
  match r with
  | .next t =>
    (match (t.pathOf c.g c.arm).st, c.path.st with
     | .parked, _ => false
     | .waiting _, .waiting _ => false
     | _, _ => true)
  | _ => true

/-- Whether a path is ready: what it does at an issue turn, the run of a satisfied entry or an instruction, can be done now (R23, R62). -/
def State.isReady (s : State) (c : Cur) : Bool :=
  match s.act c with
  | .illegal | .event (.residualEntryRun _ _) => true
  | .run i => c.issued (exec i (s.setTurn (.path c.g c.arm)))
  | _ => false

/-- Every path of the machine. -/
def State.curs (s : State) : List Cur :=
  s.groups.flatMap fun e => (List.range e.2.arms.length).filterMap fun a => s.path? e.1 a

/-- Whether a path takes an issue turn of its quarter, as against an event of its own. -/
def State.issues (s : State) (c : Cur) : Bool :=
  match s.act c with
  | .event (.residualEntryRun _ _) | .illegal | .run _ => true
  | _ => false

/-- Paths that may have the turn: an event of a path always; of the ready paths of a quarter, of the best rank, the one that issued least
recently; a path that is not ready tries again and issues nothing (DESIGN CHOICE, assumption 5; DEDUCED, assumption 62). -/
def State.turns (s : State) : List Cur :=
  let l := s.curs.filter s.mayAct
  let ready := l.filter s.isReady
  let quarter (c : Cur) : Nat := c.g / 64
  l.filter fun c =>
    !s.issues c || !s.isReady c
      || !(ready.any fun d => quarter d == quarter c
            && (s.rank d < s.rank c || (s.rank d == s.rank c && d.path.last < c.path.last)))

/-! ## The choice -/

/-- The stream of a host's access, and whether it may pass those before it (R285). -/
def hostStream : Instr → Option (Nat × Bool)
  | .hostPostedWrite st r _ _ => some (st, r)
  | .hostReadRequest st _ _ => some (st, false)
  | .hostRegisterWrite ⟨_, st⟩ _ _ | .flush _ st _ | .inval _ st _ | .tohost _ st _ | .todev _ st _ | .submitLaunch ⟨_, st⟩ _
  | .submitGraph ⟨_, st⟩ _ | .stop ⟨_, st⟩ _ => some (st, false)
  | _ => none

/-- Whether an input that waits may come now: accesses of one stream come in the host's order, but for those with Relaxed Ordering. -/
def State.mayCome (s : State) (n : Nat) (e : Instr) : Bool :=
  match hostStream e with
  | some (st, false) => (s.inbox.take n).all fun x => (hostStream x).all fun y => y.1 != st
  | _ => true

/-- A mover: the turn, and its place among the inputs that wait, if it is one (DESIGN CHOICE, assumptions 5 and 7). -/
def State.movers (s : State) : List (Turn × Option Nat) :=
  (s.events.map fun e => (.event e, none)) ++ (s.turns.map fun c => (.path c.g c.arm, none))
    ++ ((List.range s.inbox.length).filterMap fun n =>
      (s.inbox[n]?).bind fun e => if isEvent e && s.mayCome n e then some (.event e, some n) else none)

/-- The step ends: the next mover is chosen, and is no longer an input that waits (DESIGN CHOICE, assumptions 1 and 5). -/
def State.settle (s : State) : State :=
  let m := s.movers
  let x := m.getD (Config.freeTurn s.tick % m.length) (.event .slackClockTick, none)
  ((s.setTick (s.tick + 1)).setInbox (match x.2 with | some n => s.inbox.eraseIdx n | none => s.inbox)).setTurn x.1

end Sys2Proof.Machine
end

