-- ==== Sys2Proof/Machine/Step.lean ====
section
/-!
DEFINITION. One step of the device: the mover whose turn it is acts, and the next mover is chosen.
-/

namespace Sys2Proof.Machine

/-- What the mover whose turn it is does. -/
def State.move (s : State) : Host.Outcome State Fault Refusal :=
  match s.turn with
  | .event e => exec e s
  | .path g a =>
    match s.path? g a with
    | none => .fault .noPath
    | some c =>
      match s.act c with
      | .idle => .next s
      | .event e => exec e s
      | .illegal => .next (s.badWord c)
      | .run i => exec i s

def step (s : State) : Host.Outcome State Fault Refusal :=
  match s.move with
  | .next t => .next t.settle
  | .fault r => .fault r
  | .refused r => .refused r

/-- The instruction whose bits are `w`, numbered as the opcode table numbers them, stands where the next step fetches
(DESIGN CHOICE, assumption 6). -/
def State.withFetchWord (s : State) (nbits w : Nat) : State := s.withProgram (blockBytes nbits w)

end Sys2Proof.Machine
end

