-- ==== Sys2Proof/Safety.lean ====
section
/-!
DEFINITION. What a safe run is, and the terms the statements are made of: that an instruction answers a next state, what it leaves
alone (the rest of the machine, the rest of its group), and what an instruction of each shape leaves in its group.
-/

namespace Sys2Proof.Machine

/-! ## Safe runs -/

/-- The turn is one that can be taken: an existing path's, or an event's. -/
def State.turnOk (s : State) : Prop :=
  match s.turn with
  | .path g a => (s.path? g a).isSome = true
  | .event e => isEvent e = true

/-- An instruction answers a next state of which `P` holds. -/
def Answers (s : State) (i : Instr) (P : State → Prop) : Prop := ∃ t, exec i s = .next t ∧ P t

/-! ## What is left alone -/

/-- From `s` to `t` nothing has changed outside group `g`; every byte of memory reads as before. -/
structure Only (s t : State) (g : Nat) : Prop where
  rest : { t with groups := s.groups } = s
  others : ∀ x, x ≠ g → t.group? x = s.group? x
  bytes : ∀ a n, t.peek a n = s.peek a n

/-- A group's residual entries and accesses are the ones it had; reconvergence may have given them to the one arm that is left. -/
structure SameWork (G H : Group) : Prop where
  resid : H.resid.map (fun e => { e with arm := 0 }) = G.resid.map fun e => { e with arm := 0 }
  accs : H.accs.map (fun e => { e with arm := 0 }) = G.accs.map fun e => { e with arm := 0 }

/-- Of a group, only lane registers with their marks, and how its paths stand, have changed: every uniform and system register, window
base, fill floor, `EXM` and quota is as it was. -/
structure LanesOnly (G H : Group) : Prop extends SameWork G H where
  rest : { H with v := G.v, o := G.o, lat := G.lat, p := G.p, pend := G.pend, poison := G.poison, arms := G.arms
                  resid := G.resid, accs := G.accs } = G

/-- Of a group, only uniform registers, and how its paths stand, have changed. -/
structure UniformOnly (G H : Group) : Prop extends SameWork G H where
  rest : { H with k := G.k, arms := G.arms, resid := G.resid, accs := G.accs } = G

/-- Of a group, only how its paths stand has changed. -/
structure PathsOnly (G H : Group) : Prop extends SameWork G H where
  rest : { H with arms := G.arms, resid := G.resid, accs := G.accs } = G

/-! ## Where a path goes -/

/-- No divergence entry of a path stands in the spill area (R32). -/
def Path.onChip (p : Path) : Bool := p.ents.all fun e => e.2.spill.isNone

/-- A path stands at no reconvergence point and has a live lane (R30, R31). -/
def Group.clearAt (G : Group) (p : Path) : Bool :=
  match p.stack with
  | [] => G.arms.length != 2 || (p.pc != G.recon && G.liveOf p != 0)
  | e :: _ => (look p.ents e).all fun d => d.recon != p.pc && G.liveOf p != 0

/-- A path that has issued its instruction and stands at `pc`. -/
def Cur.at (c : Cur) (s : State) (pc : W64) : Path := { c.path with pc := pc, st := .ready, prog := .none, last := s.tick }

/-- The path goes on at `pc`; at a reconvergence point it acts on its divergence instead. -/
def GoesOn (s t : State) (c : Cur) (pc : W64) : Prop := c.grp.clearAt (c.at s pc) = true → t.pathOf c.g c.arm = c.at s pc

/-! ## Per-lane instructions -/

/-- The current path may issue a per-lane instruction with these sources now: its guard and its sources are there and sound, the words of
its constant window are at hand (`b`), and its divergence entries are on chip. -/
structure LaneReady (s : State) (c : Cur) (gd : Guard) (srcs : List LSrc) (b : List Byte) : Prop where
  cur : s.cur = some c
  guard : c.guardWaits gd = 0
  there : c.srcsWait (w64 (ofBytes b)) (c.act gd) srcs = false
  sound : c.poisons (w64 (ofBytes b)) (c.act gd) srcs = []
  words : s.cwFor c (c.act gd) srcs = (s, .ok b)
  chip : c.path.onChip = true

/-- An operand's value in a lane, with the window words at hand. -/
def Cur.arg (c : Cur) (b : List Byte) (ra : ReadAs) (src : Src) (l : Nat) : W64 := c.grp.opnd (w64 (ofBytes b)) l ra src

/-- What a result leaves in its own lane: the destination's words and `lat` hold it and are not pending; nothing else differs (R54, R59,
R81). -/
structure LaneHas (G H : Group) (l : Nat) (t : Ty) (d : Dst) (x : W64) : Prop where
  dst : ∀ q ∈ dstLocs t (G.D l) d, H.rd l q.2 = half q.1 (extend t x) ∧ H.isPend l q.2 = false
  lat : H.rd l .lat = lo32 (extend t x) ∧ H.isPend l .lat = false
  kept : ∀ loc, loc ≠ .lat → (∀ q ∈ dstLocs t (G.D l) d, q.2 ≠ loc) →
    H.rd l loc = G.rd l loc ∧ H.ownersOf l loc = G.ownersOf l loc

/-- What an inactive lane's `lat` holds afterwards: the destination's unchanged value (R54), or its own (R100): assumption 80. -/
def Group.latFrom (G : Group) (l : Nat) (d : Dst) : Loc := if Config.latKept then .lat else dstLow (G.D l) d

/-- What a per-lane instruction with a register destination leaves in its group: results in the active lanes; in the path's other lanes
nothing but what `lat` holds (R54, R100, assumption 80); the other arm's lanes are untouched. -/
structure LanesWritten (G H : Group) (live act : Lanes) (t : Ty) (d : Dst) (r : Nat → W64) : Prop where
  on : ∀ l ∈ act.list, LaneHas G H l t d (r l)
  idle : ∀ l ∈ (live &&& ~~~ act).list, H.rd l .lat = G.rd l (G.latFrom l d) ∧ H.ownersOf l .lat = G.ownersOf l (G.latFrom l d)
    ∧ ∀ loc, loc ≠ .lat → H.rd l loc = G.rd l loc ∧ H.ownersOf l loc = G.ownersOf l loc
  out : ∀ l, l < 16 → l ∉ act.list → l ∉ (live &&& ~~~ act).list →
    ∀ loc, H.rd l loc = G.rd l loc ∧ H.ownersOf l loc = G.ownersOf l loc

/-- A per-lane instruction has been done: result `r` under type `t` in destination `d` of the active lanes, the frame, and the path. -/
structure LaneDone (s u : State) (c : Cur) (pc : W64) (t : Ty) (d : Dst) (act : Lanes) (r : Nat → W64) : Prop where
  only : Only s u c.g
  kept : LanesOnly c.grp (u.grpOf c.g)
  regs : LanesWritten c.grp (u.grpOf c.g) (c.grp.liveOf c.path) act t d r
  path : GoesOn s u c pc

/-- What a per-lane instruction with a predicate destination leaves in its group: a result in each active lane, nothing in `p0` (R53). -/
structure PredWritten (G H : Group) (act : Lanes) (p : BitVec 3) (r : Nat → Bool) : Prop where
  on : ∀ l ∈ act.list, p ≠ 0 → H.pred p.toNat l = r l ∧ H.isPend l (.p p.toNat) = false
  kept : ∀ l, l < 16 → ∀ loc, (l ∉ act.list ∨ p = 0 ∨ loc ≠ .p p.toNat) → H.rd l loc = G.rd l loc

/-- Results `r` under type `t` stand in destination `d` of the lanes `act`, owned by nobody; every other register, `lat` too, is as it was
(R54, R59). -/
structure LanesPut (G H : Group) (act : Lanes) (t : Ty) (d : Dst) (r : Nat → W64) : Prop where
  on : ∀ l ∈ act.list, ∀ q ∈ dstLocs t (G.D l) d, H.rd l q.2 = half q.1 (extend t (r l)) ∧ H.isPend l q.2 = false
  kept : ∀ l, l < 16 → ∀ loc, (l ∉ act.list ∨ ∀ q ∈ dstLocs t (G.D l) d, q.2 ≠ loc) →
    H.rd l loc = G.rd l loc ∧ H.ownersOf l loc = G.ownersOf l loc

structure PredDone (s u : State) (c : Cur) (pc : W64) (p : BitVec 3) (act : Lanes) (r : Nat → Bool) : Prop where
  only : Only s u c.g
  kept : LanesOnly c.grp (u.grpOf c.g)
  regs : PredWritten c.grp (u.grpOf c.g) act p r
  path : GoesOn s u c pc

/-! ## Uniform instructions -/

/-- The current path may issue a per-path instruction with these sources, and has an active lane. -/
structure UniReady (s : State) (c : Cur) (gd : Guard) (srcs : List (ReadAs × Src)) (b : List Byte) : Prop where
  cur : s.cur = some c
  guard : c.guardWaits gd = 0
  some : c.act gd ≠ 0
  words : s.cwFor c (c.act gd) (srcs.map fun q => .op q.1 q.2 none) = (s, .ok b)
  chip : c.path.onChip = true

/-- A uniform operand's value. -/
def Cur.karg (c : Cur) (b : List Byte) (ra : ReadAs) (src : Src) : W64 := c.grp.kopnd (w64 (ofBytes b)) ra src

/-- A `k` register has taken a value; `k0` still reads zero (R53). -/
structure UniDone (s u : State) (c : Cur) (pc : W64) (d : BitVec 5) (x : W64) : Prop where
  only : Only s u c.g
  kept : UniformOnly c.grp (u.grpOf c.g)
  value : d ≠ 0 → (u.grpOf c.g).kr d = x
  others : ∀ j, j ≠ d → (u.grpOf c.g).kr j = c.grp.kr j
  zero : (u.grpOf c.g).kr 0 = 0
  path : GoesOn s u c pc

/-- Nothing but the path has moved. -/
structure PathDone (s u : State) (c : Cur) (pc : W64) : Prop where
  only : Only s u c.g
  kept : PathsOnly c.grp (u.grpOf c.g)
  path : GoesOn s u c pc

/-! ## What lane instructions do, in the words of the statements -/

/-- A source of an instruction's type, read in the active lanes. -/
def srcTy (t : Ty) (a : Src) : LSrc := .op (.ty t) a none

/-- A source of an instruction's type, read in the source lanes that source `j` selects (R109). -/
def srcFrom (k : LaneSel) (j : Nat) (t : Ty) (a : Src) : LSrc := .op (.ty t) a (some (k, j))

/-- A source that is one 32-bit operand whatever the type. -/
def srcOne (a : Src) : LSrc := .op .one a none

/-- Wherever it is ready, a per-lane instruction answers a next state in which destination `d` holds `r` in the active lanes. -/
def LaneDoes (i : Instr) (g : Guard) (srcs : List LSrc) (t : Ty) (d : Dst) (r : Cur → List Byte → Nat → W64) : Prop :=
  ∀ (s : State) (c : Cur) (w : List Byte), LaneReady s c g srcs w →
    Answers s i fun u => LaneDone s u c (c.nextPc i) t d (c.act g) (r c w)

/-- The same for an instruction whose destination is a predicate. -/
def PredDoes (i : Instr) (g : Guard) (srcs : List LSrc) (p : BitVec 3) (r : Cur → List Byte → Nat → Bool) : Prop :=
  ∀ (s : State) (c : Cur) (w : List Byte), LaneReady s c g srcs w →
    Answers s i fun u => PredDone s u c (c.nextPc i) p (c.act g) (r c w)

def Does1 (i : Instr) (g : Guard) (t : Ty) (d : Dst) (a : Src) (f : W64 → W64) : Prop :=
  LaneDoes i g [srcTy t a] t d fun c w l => f (c.arg w (.ty t) a l)

def Does2 (i : Instr) (g : Guard) (t : Ty) (d : Dst) (a b : Src) (f : W64 → W64 → W64) : Prop :=
  LaneDoes i g [srcTy t a, srcTy t b] t d fun c w l => f (c.arg w (.ty t) a l) (c.arg w (.ty t) b l)

def Does3 (i : Instr) (g : Guard) (t : Ty) (d : Dst) (a b e : Src) (f : W64 → W64 → W64 → W64) : Prop :=
  LaneDoes i g [srcTy t a, srcTy t b, srcTy t e] t d fun c w l =>
    f (c.arg w (.ty t) a l) (c.arg w (.ty t) b l) (c.arg w (.ty t) e l)

/-- Wherever it is ready, a uniform instruction answers a next state in which `kd` holds `x`. -/
def UniDoes (i : Instr) (g : Guard) (srcs : List (ReadAs × Src)) (d : BitVec 5) (x : State → Cur → List Byte → W64) : Prop :=
  ∀ (s : State) (c : Cur) (w : List Byte), UniReady s c g srcs w →
    Answers s i fun u => UniDone s u c (c.nextPc i) d (x s c w)

/-- A uniform instruction of two 64-bit operands. -/
def Uni2Does (i : Instr) (g : Guard) (d : BitVec 5) (a b : Src) (f : W64 → W64 → W64) : Prop :=
  UniDoes i g [(.k64, a), (.k64, b)] d fun _ c w => f (c.karg w .k64 a) (c.karg w .k64 b)

/-! ## Instructions that act once for their path, and events -/

/-- The machine has become `r` but for the current group, which is `G`; its path goes on at `pc`. -/
structure Becomes (r u : State) (c : Cur) (pc : W64) (G : Group) : Prop where
  only : Only r u c.g
  grp : { u.grpOf c.g with arms := G.arms, resid := G.resid, accs := G.accs } = G
  work : SameWork G (u.grpOf c.g)
  path : GoesOn r u c pc

/-- The current path may issue an instruction that acts once for it and has no constant-window operand: its guard is there, some lane is
active, no older residual entry remains if the instruction drains (R66), and the path stands in no wait. -/
structure Fresh (s : State) (c : Cur) (gd : Guard) (drains : Bool) : Prop where
  cur : s.cur = some c
  guard : c.guardWaits gd = 0
  some : c.act gd ≠ 0
  drained : drains = true → c.drained = true
  prog : c.path.prog = .none
  chip : c.path.onChip = true

/-- The path has not issued: it tries its instruction again at a later turn, and nothing else has changed. -/
def Parks (s : State) (c : Cur) (i : Instr) : Prop := exec i s = .next (s.modPath c.g c.arm fun p => { p with st := .parked })

/-- An instruction of the current path has taken a residual entry, of lanes `m` and `n` sources, and its path goes on; nothing outside its
group has changed, and no older entry (R61). -/
structure Deferred (s u : State) (c : Cur) (i : Instr) (m : Lanes) (n : Nat) : Prop where
  only : Only s.next u c.g
  path : GoesOn s.next u c (c.nextPc i)
  entry : ∃ e ∈ (u.grpOf c.g).resid, e.id = s.ids ∧ e.pc = c.path.pc ∧ e.mask = m ∧ e.instr = i ∧ e.caps.length = n
  more : (u.grpOf c.g).resid.length = c.grp.resid.length + 1
  regs : ∀ l loc, (u.grpOf c.g).rd l loc = c.grp.rd l loc ∨ loc = .lat

/-! ## Commands -/

/-- A command of the current path that does not complete at once can have tag `n` now, with nobody waiting before it; a tile operation, an
entry of the reservation table too (R180, R199). -/
def TagFree (s : State) (c : Cur) (k : Cmd) (n : Nat) : Prop :=
  (s.core c.core).tagWait = [] ∧ (s.core c.core).freeTagNo = some n ∧ k.ended = false
    ∧ (k.kind.isTile = true → (s.quad (coreQuad c.core)).posting = [] ∧ (s.quad (coreQuad c.core)).table.length < Config.resvCap)

/-- The generation that tag `n` of a core takes next (R197). -/
def State.nextGen (s : State) (core n : Nat) : Nat := ((get tagReset (s.core core).tags n).gen + 1) % 2 ^ 24

/-- A command has been issued with tag `n`: the tag is held under its next generation and not complete, the command is outstanding, behind
the fences of its queue or, a tile operation, posted behind the group's others; the handle names it, and the path goes on (R180, R187,
R197 to R199). -/
structure Took (s u : State) (c : Cur) (pc : W64) (kh : BitVec 5) (k : Cmd) (n : Nat) : Prop where
  held : (get tagReset (u.core c.core).tags n).owner = some c.grp.launch
    ∧ (get tagReset (u.core c.core).tags n).gen = s.nextGen c.core n ∧ (get tagReset (u.core c.core).tags n).done = false
  others : ∀ x, x ≠ n → get tagReset (u.core c.core).tags x = get tagReset (s.core c.core).tags x
  cmd : u.cmd? (get tagReset (u.core c.core).tags n).target
    = some { k with tag := n, gen := s.nextGen c.core n
                    after := if k.kind.isTile then s.tileOps c.g else (s.core c.core).fenced k.queue }
  posted : k.kind.isTile = true → (get tagReset (u.core c.core).tags n).target ∈ (u.quad (coreQuad c.core)).table
  handle : kh ≠ 0 → (u.grpOf c.g).kr kh = handleOf (if k.kind.isTile then 1 else 0) c.core (s.nextGen c.core n) n
  regs : ∀ j, j ≠ kh → (u.grpOf c.g).kr j = c.grp.kr j
  groups : ∀ x, x ≠ c.g → u.group? x = s.group? x
  bytes : ∀ a m, u.peek a m = s.peek a m
  path : GoesOn s u c pc

/-- An instruction issues command `k` with handle `kh`; wherever a tag is free for it, it has been issued. -/
def Issues (s : State) (c : Cur) (i : Instr) (kh : BitVec 5) (k : Cmd) : Prop :=
  exec i s = .next (s.issueCmd c i kh k) ∧ ∀ n, TagFree s c k n → Answers s i fun u => Took s u c (c.nextPc i) kh k n

/-! ## Memory instructions -/

/-- The current path may issue a memory instruction now, in some lanes, with these lane requests and window words: its sources are there
and sound, it follows nothing deferred, and what must drain has drained (R242). -/
structure MemAsked (s : State) (c : Cur) (op : MemOp) (rs : List LaneReq) (ws : List (Nat × Int)) : Prop where
  cur : s.cur = some c
  guard : c.guardWaits op.guard = 0
  some : c.act op.guard ≠ 0
  there : c.srcsWait 0 (c.act op.guard) op.srcs = false
  sound : c.poisons 0 (c.act op.guard) op.srcs = []
  follows : s.mustFollow c memOpOf op (c.act op.guard) = []
  drained : op.drains = true → c.drained = true
  asks : op.ask (c.act op.guard) (c.vals 0 op.srcs) = (rs, ws)
  prog : c.path.prog = .none
  chip : c.path.onChip = true

/-- It may issue, and every check at the core is passed (R242). -/
structure MemReady (s : State) (c : Cur) (op : MemOp) (rs : List LaneReq) (ws : List (Nat × Int)) : Prop extends MemAsked s c op rs ws where
  checks : s.memCheck c.core c.grp.launch c.grp.block op rs ws = none

/-- A local access or window read of active lanes may be performed now: no older access of its lanes that it must follow is outstanding,
sent or deferred; what its release orders is done, and nothing stands to be written back (R63, R245, R253, R274, R278, R279). -/
def LocalNow (s : State) (c : Cur) (op : MemOp) : Prop :=
  (if op.space = .loc then
      s.nearHeld memOpOf (s.nearOf c.g s.ids c.grp.block op (c.act op.guard) (op.ask (c.act op.guard) (c.vals 0 op.srcs)).1)
    else c.grp.acqDue (c.act op.guard) s.ids) = false
    ∧ (op.ord.isRel = true → s.relDone c.g c.path.allLanes s.ids op.scope = true ∧ s.releaseAt c.core op.scope = s)

/-- A local access or window read with values `v` has been made: its record stands in its group with the values, which land at a later step,
its destination is pending until then, `lat` and every other register is as before, and its path goes on (R54, R58, R59). What is left
alone is all but the local memories, the group, and the packet that brings the values; an acquire has been made if it is one. -/
structure Read (s u : State) (c : Cur) (i : Instr) (op : MemOp) (v : Nat → W64) : Prop where
  rest : { u with groups := s.groups, cores := s.cores, quads := s.quads, ids := s.ids
                  net := { u.net with packets := s.net.packets } }
    = if op.ord.isAcq then { s.invalidate c.core op.scope with cores := s.cores } else s
  others : ∀ x, x ≠ c.g → u.group? x = s.group? x
  record : ∃ a ∈ (u.grpOf c.g).accs, a.id = s.ids ∧ a.pc = c.path.pc ∧ a.kind = op.kind ∧ a.lanes = c.act op.guard ∧ a.dst = op.dst
    ∧ a.waits = c.act op.guard ∧ ∀ l ∈ (c.act op.guard).list, get 0 a.vals l = v l
  pending : ∀ d, op.dst = some d → ∀ l ∈ (c.act op.guard).list, ∀ q ∈ dstLocs op.ty (c.grp.D l) d,
    (u.grpOf c.g).isPend l q.2 = true
  kept : ∀ l loc, (op.dst.all fun d => (dstLocs op.ty (c.grp.D l) d).all fun q => q.2 != loc) = true →
    (u.grpOf c.g).rd l loc = c.grp.rd l loc ∧ (u.grpOf c.g).ownersOf l loc = c.grp.ownersOf l loc
  uniform : (u.grpOf c.g).k = c.grp.k ∧ (u.grpOf c.g).exm = c.grp.exm ∧ (u.grpOf c.g).gctl = c.grp.gctl
    ∧ (u.grpOf c.g).base = c.grp.base
  path : GoesOn s u c (c.nextPc i)

/-- A global access has been sent: its record stands in its group, its destination is pending in the active lanes, each line has its packet
at the core, and no byte of memory has changed (R59, R242, R299). -/
structure Sent (s u : State) (c : Cur) (op : MemOp) (rs : List LaneReq) : Prop where
  rest : { u with groups := s.groups, net := { u.net with packets := s.net.packets }, ids := s.ids } = s
  others : ∀ x, x ≠ c.g → u.group? x = s.group? x
  bytes : ∀ a n, u.peek a n = s.peek a n
  record : ∃ a ∈ (u.grpOf c.g).accs, a.id = s.ids ∧ a.pc = c.path.pc ∧ a.kind = op.kind ∧ a.lanes = c.act op.guard
    ∧ a.waits = lanesOf (rs.map LaneReq.lane) ∧ a.dst = op.dst
  pending : ∀ d, op.dst = some d → ∀ l ∈ (c.act op.guard).list, ∀ q ∈ dstLocs op.ty (c.grp.D l) d,
    (u.grpOf c.g).isPend l q.2 = true
  kept : ∀ l loc, (op.dst.all fun d => (dstLocs op.ty (c.grp.D l) d).all fun q => q.2 != loc) = true →
    (u.grpOf c.g).rd l loc = c.grp.rd l loc ∧ (u.grpOf c.g).ownersOf l loc = c.grp.ownersOf l loc
  uniform : (u.grpOf c.g).k = c.grp.k ∧ (u.grpOf c.g).exm = c.grp.exm ∧ (u.grpOf c.g).gctl = c.grp.gctl
    ∧ (u.grpOf c.g).base = c.grp.base
  packets : ∀ ls ∈ byLine rs, ∃ e ∈ u.net.packets, e.2.own = .access c.g s.ids ∧ e.2.lanes = ls ∧ e.2.kind = op.req
    ∧ e.2.acc = op.acc ∧ e.2.scope = op.scope ∧ e.2.size = op.ty.size
  older : ∀ n, n ≤ s.ids → look u.net.packets n = look s.net.packets n

/-! ## Traps -/

/-- A trap can be taken at once: nothing older of the path remains, the group is in no handler, and its frame is stored, which leaves the
machine as `r`, the path still in it (R124, R125). -/
structure TrapReady (s : State) (c : Cur) (t : TrapReq) (r : State) : Prop where
  cur : s.cur = some c
  oldest : c.grp.trapReady c.arm t = true
  outside : c.grp.inTrap = none
  frame : (s.modPath c.g c.arm fun p => { p with trap := some t, st := .ready }).gWrites c.g c.arm
      (s.frameBase c.g (s.domOf c.grp.launch))
      (c.grp.frame c.path ((t.detail ++ t.cause).zeroExtend 64) (t.tpc &&& ~~~ 3#64) (t.taddr.getD c.grp.taddr)
        (if t.entry.isSome then c.path.pc else t.resume)) = (r, .ok [])
  still : (r.path? c.g c.arm).isSome = true

/-- A trap has been taken (R125): the saved registers, `k28` to `k31`, `DEFM` and `OVFT` cleared, the live lanes enabled, the path at the
handler. Everything else of the group's state, and every other group, is as the stores of the frame left it. -/
structure Trapped (s r u : State) (c : Cur) (t : TrapReq) : Prop where
  cause : (u.grpOf c.g).tcause = (t.detail ++ t.cause).zeroExtend 64
  tpc : (u.grpOf c.g).tpc = t.tpc &&& ~~~ 3#64
  taddr : (u.grpOf c.g).taddr = t.taddr.getD c.grp.taddr
  gctl : (u.grpOf c.g).gctl = (r.grpOf c.g).gctl &&& ~~~ 3#64
  exm : (u.grpOf c.g).exm = (r.grpOf c.g).exm ||| (r.grpOf c.g).liveOf c.path
  k28 : (u.grpOf c.g).kr 28 = (t.detail ++ t.cause).zeroExtend 64
  k29 : (u.grpOf c.g).kr 29 = t.tpc &&& ~~~ 3#64
  k30 : (u.grpOf c.g).kr 30 = t.taddr.getD c.grp.taddr
  k31 : (u.grpOf c.g).kr 31 = w64 (s.frameBase c.g (s.domOf c.grp.launch))
  kept : ∀ j : BitVec 5, j ≠ 28 → j ≠ 29 → j ≠ 30 → j ≠ 31 → (u.grpOf c.g).kr j = (r.grpOf c.g).kr j
  inside : (u.grpOf c.g).inTrap.isSome = true
  others : ∀ x, x ≠ c.g → u.group? x = r.group? x
  pc : (u.pathOf c.g c.arm).pc = (r.grpOf c.g).tvec ∧ (u.pathOf c.g c.arm).trap = none

end Sys2Proof.Machine
end

