-- ==== Sys2Proof/Certificates/Slice0/Obligations.lean ====
section
/-!
DEFINITION. The statements for the provers. `LaneDoes`, `UniDoes` and the rest are in Sys2Proof/Safety.lean: they say that the instruction
answers a next state wherever it is ready, what that state holds, and what it leaves alone.
-/

open Sys2Proof Sys2Proof.Machine

/-! ## The machine as a whole -/

/-- Right after reset no context, launch, group, command or packet exists, memory lists nothing (the model's choice, assumption 3), the slack
clock stands at 0 (the model's choice, assumption 12) and firmware has not written its tables (R355, R358); operand slots hold zero elements
and scales of 0x7F (R176), tiles zeros (R177). The turn after reset can be taken (assumption 5 says whose it is). -/
def Obligations.ResetState : Prop :=
  (State.reset.groups = [] ∧ State.reset.blocks = [] ∧ State.reset.launches = [] ∧ State.reset.cmds = [] ∧ State.reset.ctxs = []
      ∧ State.reset.net.packets = [] ∧ State.reset.now = 0 ∧ State.reset.fw.up = false
      ∧ Memory.wf State.reset.mem = true ∧ State.reset.mem = { phys := [], slice := [], l1 := [], rsc := [], bad := [], pols := [], lru := [], reps := [] }
      ∧ ∀ q slot t i, get 0 (State.reset.quad q).elems (slot * 8192 + i) = 0
          ∧ get 0x7F (State.reset.quad q).scales (slot * 128 + i) = 0x7F
          ∧ get 0 (State.reset.quad q).tiles (t * 16384 + i) = 0)
  ∧ (State.reset.turnOk)

/-- From every state whose turn can be taken, a step answers a next state whose turn can be taken: no step of this machine ends in a fault
or a refusal. The model's choices make it so: whose turn it is (assumption 5), an event whose condition does not hold (assumption 9) and a
path that is gone (assumption 10); R23, R39 and R306 say only which movers there are. -/
def Obligations.StepGoesOn : Prop :=
  ∀ s : State, s.turnOk → ∃ t, step s = .next t ∧ t.turnOk

/-- When the turn is a path's, nothing older of the path is due, and its fetched block decodes to an instruction at its pc, a step is that
instruction (R23, R74), followed by the choice of the next mover (`State.settle`, the model's choice: assumptions 1 and 5). When the turn is
an event's, a step is that event, followed by that choice. -/
def Obligations.StepRuns : Prop :=
  (∀ (s : State) (c : Cur) (i : Instr) (len : Nat) (b : List Byte), s.cur = some c → c.path.trap = none → c.grp.failedOf c.arm = none
      → c.grp.nextEntry c.arm = none → c.path.st ≠ .atRecon → c.path.st ≠ .held → c.lateDue = false → c.grp.atPoint c.arm = false
      → s.icBlock c.core c.grp.launch c.path.pc = some b → decodeAt b (c.path.pc.toNat % 32) = .instr i len
      → step s = match exec i s with
          | .next t => .next t.settle
          | .fault r => .fault r
          | .refused r => .refused r)
  ∧ (∀ (s : State) (e : Instr), s.turn = .event e
      → step s = match exec e s with
          | .next t => .next t.settle
          | .fault r => .fault r
          | .refused r => .refused r)

/-- The hard-wired registers: `k0` reads 0 and `p0` reads 1 in every lane of every group, and a write to either changes nothing (R53). -/
def Obligations.HardWired : Prop :=
  ∀ (G : Group) (l : Nat) (x : W64) (y : W32),
    G.kr 0 = 0 ∧ G.kw 0 x = G ∧ G.pred 0 l = true ∧ (∀ m loc, (G.wr l (.p 0) y).rd m loc = G.rd m loc)
      ∧ ∀ i m, (G.wr l (.p 0) y).pred i m = G.pred i m

/-! ## Vector integer instructions -/

/-- Sums, differences, products, minima, maxima, absolute values and addresses: the exact result over the operands' values, modulo the
width of the type (R102, R103). -/
def Obligations.IntegerArithmetic : Prop :=
  ∀ (g : Guard) (t : Ty) (d : Dst) (a b e : Src) (sh : BitVec 4),
    Does2 (.iadd g t d a b) g t d a b (fun x y => t.ofInt (t.toInt x + t.toInt y))
    ∧ Does2 (.isub g t d a b) g t d a b (fun x y => t.ofInt (t.toInt x - t.toInt y))
    ∧ Does2 (.imul g t d a b) g t d a b (fun x y => t.ofInt (t.toInt x * t.toInt y))
    ∧ Does2 (.imulh g t d a b) g t d a b (fun x y => t.ofInt (t.toInt x * t.toInt y / 2 ^ t.width))
    ∧ Does3 (.imad g t d a b e) g t d a b e (fun x y z => t.ofInt (t.toInt x * t.toInt y + t.toInt z))
    ∧ Does2 (.imin g t d a b) g t d a b (fun x y => t.ofInt (min (t.toInt x) (t.toInt y)))
    ∧ Does2 (.imax g t d a b) g t d a b (fun x y => t.ofInt (max (t.toInt x) (t.toInt y)))
    ∧ Does1 (.iabs g t d a) g t d a (fun x => t.ofInt (t.toInt x).natAbs)
    ∧ Does1 (.ineg g t d a) g t d a (fun x => t.ofInt (-t.toInt x))
    ∧ Does3 (.addmin g t d a b e) g t d a b e
        (fun x y z => t.ofInt (min (t.toInt (t.ofInt (t.toInt x + t.toInt y))) (t.toInt z)))
    ∧ Does3 (.addmax g t d a b e) g t d a b e
        (fun x y z => t.ofInt (max (t.toInt (t.ofInt (t.toInt x + t.toInt y))) (t.toInt z)))
    ∧ LaneDoes (.ilea g t d a b sh) g [srcTy t a, srcOne b] t d
        (fun c w l => BitVec.ofInt 64 ((c.arg w (.ty t) a l).toNat + sx 32 (c.arg w .one b l).toNat * 2 ^ sh.toNat))

/-- Bitwise operations, moves and selection (R102, R103). -/
def Obligations.LogicAndMoves : Prop :=
  ∀ (g : Guard) (t : Ty) (d : Dst) (a b : Src) (q : BitVec 3) (x : BitVec 32),
    Does2 (.and g t d a b) g t d a b (fun x y => x &&& y)
    ∧ Does2 (.or g t d a b) g t d a b (fun x y => x ||| y)
    ∧ Does2 (.xor g t d a b) g t d a b (fun x y => x ^^^ y)
    ∧ Does2 (.andn g t d a b) g t d a b (fun x y => x &&& ~~~ y)
    ∧ Does1 (.not g t d a) g t d a (fun x => ~~~ x)
    ∧ Does1 (.mov g t d a) g t d a (fun x => x)
    ∧ Does1 (.movi g t d x) g t d (.imm x) (fun x => x)
    ∧ LaneDoes (.sel g t d a b q) g [srcTy t a, srcTy t b, .pred q] t d
        (fun c w l => if c.grp.pred q.toNat l then c.arg w (.ty t) a l else c.arg w (.ty t) b l)
    ∧ Does1 (.ktov g t d a) g t d a (fun x => x)

/-- Shifts, rotations, counts, bit fields and integer conversions (R102, R104). -/
def Obligations.ShiftsAndFields : Prop :=
  ∀ (g : Guard) (t st : Ty) (d : Dst) (a b e : Src) (right sat : Bool),
    Does2 (.shl g t d a b) g t d a b (fun x n =>
        if t.width ≤ n.toNat % 2 ^ 32 then 0 else w64 (x.toNat * 2 ^ (n.toNat % 2 ^ 32) % 2 ^ t.width))
    ∧ Does2 (.shr g t d a b) g t d a b (fun x n =>
        if t.width ≤ n.toNat % 2 ^ 32 then 0 else w64 (x.toNat % 2 ^ t.width / 2 ^ (n.toNat % 2 ^ 32)))
    ∧ Does2 (.sar g t d a b) g t d a b (fun x n => t.ofInt (sx t.width x.toNat / 2 ^ min (n.toNat % 2 ^ 32) t.width))
    ∧ Does2 (.rot g t d a b right) g t d a b (rotR right t)
    ∧ Does1 (.clz g t d a) g t d a (clzR t)
    ∧ Does1 (.popc g t d a) g t d a (fun x => w64 ((List.range t.width).filter fun i => x.toNat.testBit i).length)
    ∧ Does1 (.brev g t d a) g t d a (brevR t)
    ∧ Does2 (.bfx g t d a b) g t d a b (bfxR t)
    ∧ Does3 (.bfi g t d a b e) g t d a b e bfiR
    ∧ LaneDoes (.icvt g t st d a sat) g [srcTy st a] t d (fun c w l =>
        t.ofInt (if sat then max t.lo (min t.hi (st.toInt (c.arg w (.ty st) a l))) else st.toInt (c.arg w (.ty st) a l)))

/-- What the functions of `ShiftsAndFields` compute, bit by bit: a count of leading zeros is the width for 0 and else names the place of
the highest one; a reversal and a rotation move each bit; a field is cut at bit 31, and one that starts past it is empty: `BFX`
takes its bits to the bottom, with the copies of its highest bit or zeros above, and `BFI` replaces them and no other bit (R102). -/
def Obligations.BitFunctions : Prop :=
  ∀ (t : Ty) (a b c : W64),
    (a.toNat % 2 ^ t.width = 0 → clzR t a = w64 t.width)
    ∧ (∀ n, n < t.width → a.toNat % 2 ^ t.width < 2 ^ (n + 1) → 2 ^ n ≤ a.toNat % 2 ^ t.width → clzR t a = w64 (t.width - 1 - n))
    ∧ (∀ i, i < t.width → (brevR t a).toNat.testBit i = a.toNat.testBit (t.width - 1 - i))
    ∧ (∀ i, i < t.width → (rotR false t a b).toNat.testBit ((i + b.toNat % 2 ^ 32) % t.width) = a.toNat.testBit i)
    ∧ (∀ i, i < t.width → (rotR true t a b).toNat.testBit i = a.toNat.testBit ((i + b.toNat % 2 ^ 32) % t.width))
    ∧ (32 ≤ bits b.toNat 0 8 ∨ bits b.toNat 8 8 = 0 → bfxR t a b = 0)
    ∧ (32 ≤ bits c.toNat 0 8 ∨ bits c.toNat 8 8 = 0 → bfiR a b c = a)
    ∧ (let q := bits b.toNat 0 8
       let n := min (bits b.toNat 8 8) (32 - q)
       0 < n → ∀ i, i < 32 →
        (bfxR .i32 a b).toNat.testBit i = (if i < n then a.toNat.testBit (q + i) else a.toNat.testBit (q + n - 1))
        ∧ (bfxR .n32 a b).toNat.testBit i = (i < n && a.toNat.testBit (q + i)))
    ∧ (let q := bits c.toNat 0 8
       let n := min (bits c.toNat 8 8) (32 - q)
       0 < n → ∀ i, i < 64 → (bfiR a b c).toNat.testBit i = if q ≤ i ∧ i < q + n then b.toNat.testBit (i - q) else a.toNat.testBit i)

/-- Comparisons, predicate logic and votes write a predicate in the active lanes only (R103, R106, R107, R163, R166). -/
def Obligations.Predicates : Prop :=
  ∀ (g : Guard) (t : Ty) (p : BitVec 3) (x : Cmp) (a b : Src) (q r : BitVec 3) (tt : BitVec 4),
    PredDoes (.iset g t p x a b) g [srcTy t a, srcTy t b] p
        (fun c w l => x.onOrd (compare (t.toInt (c.arg w (.ty t) a l)) (t.toInt (c.arg w (.ty t) b l))))
    ∧ PredDoes (.fset g t p x a b) g [srcTy t a, srcTy t b] p (fun c w l => cmpFloat x t (c.arg w (.ty t) a l) (c.arg w (.ty t) b l))
    ∧ PredDoes (.plog g p q r tt) g [.pred q, .pred r] p
        (fun c _ l => tt.getLsbD (2 * (if c.grp.pred q.toNat l then 1 else 0) + (if c.grp.pred r.toNat l then 1 else 0)))
    ∧ PredDoes (.vote g (.any p) q) g [.pred q] p (fun c _ _ => (c.act g).list.any fun l => c.grp.pred q.toNat l)
    ∧ PredDoes (.vote g (.all p) q) g [.pred q] p (fun c _ _ => (c.act g).list.all fun l => c.grp.pred q.toNat l)
    ∧ PredDoes (.fclass g t (.test p b) a) g [srcTy t a, srcOne b] p
        (fun c w l => fclassR t (c.arg w (.ty t) a l) &&& c.arg w .one b l &&& 0x3FF != 0)

/-! ## Vector float instructions -/

/-- Sums, products, fused products and square roots are the exact value rounded once; minima, maxima, scalings, classes, dot products and
reductions are their functions of the values read (R160 to R162, R164 to R168). -/
def Obligations.FloatArithmetic : Prop :=
  ∀ (g : Guard) (t : Ty) (r : Rnd) (sat : Bool) (op : FRedOp) (d : Dst) (a b e : Src),
    Does2 (.fadd g t r sat d a b) g t d a b (elems2 t fun x y =>
        let z := t.fmt.round r ((t.fmt.decode x).add r (t.fmt.decode y)); if sat then t.fmt.sat z else z)
    ∧ Does2 (.fsub g t r sat d a b) g t d a b (elems2 t fun x y =>
        let z := t.fmt.round r ((t.fmt.decode x).add r (t.fmt.decode y).neg); if sat then t.fmt.sat z else z)
    ∧ Does2 (.fmul g t r sat d a b) g t d a b (elems2 t fun x y =>
        let z := t.fmt.round r ((t.fmt.decode x).mul (t.fmt.decode y)); if sat then t.fmt.sat z else z)
    ∧ Does3 (.ffma g t r sat d a b e) g t d a b e (elems3 t fun x y v =>
        let z := t.fmt.round r (((t.fmt.decode x).mul (t.fmt.decode y)).add r (t.fmt.decode v)); if sat then t.fmt.sat z else z)
    ∧ Does2 (.fmin g t d a b) g t d a b (elems2 t (t.fmt.minmax false))
    ∧ Does2 (.fmax g t d a b) g t d a b (elems2 t (t.fmt.minmax true))
    ∧ Does1 (.fsqrt g t r d a) g t d a (fun x => t.pack ((t.elems x).map fun y => t.fmt.round r (sqrtFp (t.fmt.decode y))))
    ∧ LaneDoes (.fscale g t r d a b) g [srcTy t a, srcOne b] t d (fun c w l => fscaleR t r (c.arg w (.ty t) a l) (c.arg w .one b l))
    ∧ LaneDoes (.fclass g t (.code d) a) g [srcTy t a] .n32 d (fun c w l => fclassR t (c.arg w (.ty t) a l))
    ∧ LaneDoes (.fdot2 g t r sat d a b e) g [srcTy t a, srcTy t b, srcTy .f32 e] .f32 d
        (fun c w l => fdot2R t r sat (c.arg w (.ty t) a l) (c.arg w (.ty t) b l) (c.arg w (.ty .f32) e l))
    ∧ LaneDoes (.fred g op t r d a) g [srcTy t a] t d (fun c w _ => fredR op t r (c.act g) fun l => c.arg w (.ty t) a l)

/-- The approximations (whose last bits assumption 4 leaves free), and the conversions between formats (R152, R156, R164, R169 to R173).
-/
def Obligations.FloatFunctions : Prop :=
  ∀ (g : Guard) (t st : Ty) (hi : Bool) (r : Rnd) (d : Dst) (a b : Src),
    Does1 (.frcp g t d a) g t d a (approxTy frcp32 t) ∧ Does1 (.frsq g t d a) g t d a (approxTy frsq32 t)
    ∧ Does1 (.fexp2 g t d a) g t d a (approxTy fexp232 t) ∧ Does1 (.flog2 g t d a) g t d a (approxTy flog232 t)
    ∧ Does1 (.fsin g t d a) g t d a (approxTy fsin32 t) ∧ Does1 (.fcos g t d a) g t d a (approxTy fcos32 t)
    ∧ LaneDoes (.fcvt g t st hi r d a none) g [srcTy st a] t d (fun c w l => fcvtR t st hi r (c.arg w (.ty st) a l) 0)
    ∧ LaneDoes (.fcvt g t st hi r d a (some b)) g [srcTy st a, srcTy .f32 b] t d
        (fun c w l => fcvtR t st hi r (c.arg w (.ty st) a l) (c.arg w (.ty .f32) b l))
    ∧ LaneDoes (.narrow g t d a b) g [srcTy .f32 a, srcTy .f32 b] t d (fun c w l => w64 ((narrowR t (c.act g).list
        (fun m => c.arg w (.ty .f32) a m) fun m => c.arg w (.ty .f32) b m).getD ((c.act g).list.idxOf l) 0))

/-- `ITOF` and `FTOI`: the integer value rounded to the format, the float value rounded to the integer type and clamped to its range; an
integer of zero gives +0, a NaN and a zero give 0, an infinity the end of its sign (R171, R172). -/
def Obligations.IntegerFloatConversion : Prop :=
  (∀ (g : Guard) (t st : Ty) (r : Rnd) (d : Dst) (a : Src),
    LaneDoes (.itof g t st r d a) g [srcTy st a] t d (fun c w l => w64 (t.fmt.round r (Fp.ofInt (st.toInt (c.arg w (.ty st) a l)))))
    ∧ LaneDoes (.ftoi g t st r d a) g [srcTy st a] t d (fun c w l =>
        t.ofInt (roundInt r t.lo t.hi (st.fmt.decode ((c.arg w (.ty st) a l).toNat % 2 ^ st.width)))))
  ∧ ∀ (r : Rnd) (f : Fmt) (lo hi : Int), lo ≤ 0 → 0 ≤ hi →
      f.round r (Fp.ofInt 0) = 0 ∧ roundInt r lo hi .nan = 0 ∧ roundInt r lo hi (.inf false) = hi ∧ roundInt r lo hi (.inf true) = lo
        ∧ ∀ s e, roundInt r lo hi (.fin s 0 e) = 0

/-! ## Lane movement -/

/-- Moves between lanes read the source lane whether or not it is active; a reduction takes the active lanes (R109, R110). -/
def Obligations.LaneMovement : Prop :=
  ∀ (g : Guard) (t : Ty) (d : Dst) (a b e : Src) (op : RedOp),
    LaneDoes (.lshift g t d a b e false) g [srcFrom (.shift false) 2 t a, srcTy t b, srcOne e] t d (fun c w l =>
        let n := (c.arg w .one e l).toNat % 2 ^ 32
        if l < n then c.arg w (.ty t) b l else c.arg w (.ty t) a (l - n))
    ∧ LaneDoes (.lshift g t d a b e true) g [srcFrom (.shift true) 2 t a, srcTy t b, srcOne e] t d (fun c w l =>
        let n := (c.arg w .one e l).toNat % 2 ^ 32
        if 15 < l + n then c.arg w (.ty t) b l else c.arg w (.ty t) a (l + n))
    ∧ LaneDoes (.lswz g t d a b) g [srcFrom .swz 1 t a, srcOne b] t d (fun c w l =>
        c.arg w (.ty t) a (4 * (l / 4) + bits (c.arg w .one b l).toNat (2 * (l % 4)) 2))
    ∧ LaneDoes (.lperm g t d a b) g [srcFrom .perm 1 t a, srcOne b] t d (fun c w l => c.arg w (.ty t) a ((c.arg w .one b l).toNat % 16))
    ∧ LaneDoes (.lbcast g t d a b) g [srcFrom .perm 1 t a, srcTy t b] t d (fun c w l => c.arg w (.ty t) a ((c.arg w (.ty t) b l).toNat % 16))
    ∧ LaneDoes (.lred g op t d a) g [srcTy t a] t d (fun c w _ => lredR op t ((c.act g).list.map fun l => c.arg w (.ty t) a l))

/-! ## Uniform instructions -/

/-- The uniform instructions act once for the path on 64 bits (R80, R101, R105). -/
def Obligations.Uniform : Prop :=
  ∀ (g : Guard) (d : BitVec 5) (a b e : Src) (t : Option Ty) (x : Cmp) (n : BitVec 32),
    Uni2Does (.kadd g d a b) g d a b (fun x y => x + y) ∧ Uni2Does (.ksub g d a b) g d a b (fun x y => x - y)
    ∧ Uni2Does (.kmul g d a b) g d a b (fun x y => x * y) ∧ Uni2Does (.kand g d a b) g d a b (fun x y => x &&& y)
    ∧ Uni2Does (.kor g d a b) g d a b (fun x y => x ||| y) ∧ Uni2Does (.kxor g d a b) g d a b (fun x y => x ^^^ y)
    ∧ Uni2Does (.kshl g d a b) g d a b (fun x y => if 64 ≤ y.toNat then 0 else x <<< y.toNat)
    ∧ Uni2Does (.kshr g d a b) g d a b (fun x y => if 64 ≤ y.toNat then 0 else x >>> y.toNat)
    ∧ UniDoes (.kmov g t d a) g [(kmovRead t, a)] d (fun _ c w => kmovR t (c.karg w (kmovRead t) a))
    ∧ UniDoes (.kmovi g t d n) g [] d (fun _ _ _ => immVal (kmovRead t) n)
    ∧ (let i : Ty := if t = some .n64 then .n64 else .i64
       let q := cmpRead (t == some .n64)
       UniDoes (.kset g t d x a b) g [(q, a), (q, b)] d
        (fun _ c w => if x.onOrd (compare (i.toInt (c.karg w q a)) (i.toInt (c.karg w q b))) then 1 else 0))
    ∧ UniDoes (.ksel g d a b e) g [(.k64, a), (.k64, b), (.k64, e)] d
        (fun _ c w => if c.karg w .k64 e != 0 then c.karg w .k64 a else c.karg w .k64 b)
    ∧ UniDoes (.getx g d) g [] d (fun _ c _ => (c.grp.exm &&& c.path.lanes).zeroExtend 64)
    ∧ ∀ r, UniDoes (.mfs g d r) g [] d (fun s c _ => s.sysReg c r)

/-- `VTOK` reads lane n whether or not it is active, and `VOTE.ballot` sets the bits of the active lanes where its predicate is true; a
lane value or predicate that is pending parks the path (R6, R101, R105, R107). -/
def Obligations.LaneToUniform : Prop :=
  ∀ (g : Guard) (t : Ty) (d : BitVec 5) (a b : Src) (p : BitVec 3) (s : State) (c : Cur) (w : List Byte),
    (UniReady s c g [(.ty t, b)] w →
      let n := (c.karg w (.ty t) b).toNat % 16
      ((∀ q ∈ c.grp.srcLocs n (.ty t) a, c.grp.isPend n q.2 = false ∧ c.grp.isBad n q.2 = false) →
        Answers s (.vtok g t d a b) fun u => UniDone s u c (c.nextPc (.vtok g t d a b)) d
          (if t = .i32 then (lo32 (c.arg w (.ty t) a n)).signExtend 64 else c.arg w (.ty t) a n))
      ∧ ((∃ q ∈ c.grp.srcLocs n (.ty t) a, c.grp.isPend n q.2 = true) → Parks s c (.vtok g t d a b)))
    ∧ (UniReady s c g [] w →
      ((p = 0 ∨ ∀ l ∈ (c.act g).list, c.grp.isPend l (.p p.toNat) = false) →
        Answers s (.vote g (.ballot d) p) fun u => UniDone s u c (c.nextPc (.vote g (.ballot d) p)) d
          ((lanesOf ((c.act g).list.filter fun l => c.grp.pred p.toNat l)).zeroExtend 64))
      ∧ ((p ≠ 0 ∧ ∃ l ∈ (c.act g).list, c.grp.isPend l (.p p.toNat) = true) → Parks s c (.vote g (.ballot d) p)))

/-- With no active lane a per-path instruction changes nothing but its path (R80): shown of the uniform family and its neighbours. `NOP`
and `YIELD` change nothing but their path, which now ranks as one that has just issued (R23, R112, R119). -/
def Obligations.NoActiveLane : Prop :=
  (∀ (i : Instr) (g : Guard) (s : State) (c : Cur), s.cur = some c → c.guardWaits g = 0 → c.act g = 0 → c.path.onChip = true
      → ((∃ d a b, i = .kadd g d a b ∨ i = .ksub g d a b ∨ i = .kmul g d a b ∨ i = .kand g d a b ∨ i = .kor g d a b ∨ i = .kxor g d a b
            ∨ i = .kshl g d a b ∨ i = .kshr g d a b ∨ i = .mode g a b)
          ∨ (∃ t d a, i = .kmov g t d a) ∨ (∃ t d n, i = .kmovi g t d n) ∨ (∃ t d x a b, i = .kset g t d x a b)
          ∨ (∃ d a b e, i = .ksel g d a b e) ∨ (∃ d, i = .getx g d) ∨ (∃ d r, i = .mfs g d r) ∨ (∃ d, i = .snap g d) ∨ i = .rft g
          ∨ (∃ n, i = .brk g n) ∨ (∃ d a n, i = .qxfer g d a n) ∨ (∃ p a, i = .test g p a) ∨ (∃ d a, i = .cancel g d a ∨ i = .ffr g d a)
          ∨ (∃ l st cp tl, i = .waitc g l st cp tl) ∨ i = .yield g ∨ i = .nop g)
      → Answers s i fun u => PathDone s u c (c.nextPc i))
  ∧ (∀ (g : Guard) (s : State) (c : Cur) (w : List Byte), UniReady s c g [] w →
      Answers s (.nop g) (fun u => PathDone s u c (c.nextPc (.nop g)))
      ∧ Answers s (.yield g) (fun u => PathDone s u c (c.nextPc (.yield g))))

/-- `SETX`, and `MTS` to `EXM`, set the mask of the lanes that have not exited and whose guard is true, active or not, and no other bit
(R108). `MTS` writes the writable system registers, ignoring reserved bits (R4, R120); one that names another register is not well-formed, and
an illegal instruction where its words are met (R98, R120). `MODE` changes the bits of `GCTL` that its mask names; a mask that names `DEFM`
traps instead (R128). -/
def Obligations.SystemWrites : Prop :=
  (∀ (g : Guard) (a : Src) (s : State) (c : Cur) (w : List Byte), s.cur = some c → c.maskWaits g = false → c.path.onChip = true
      → s.cwFor c (c.maskLanes g) [.op .k64 a none] = (s, .ok w)
      → let G : Group := { c.grp with exm := (c.grp.exm &&& ~~~ c.maskLanes g) ||| ((c.karg w .k64 a).extractLsb' 0 16 &&& c.maskLanes g) }
        Answers s (.setx g a) (fun u => Becomes s u c (c.nextPc (.setx g a)) G)
        ∧ (c.drained = true → Answers s (.mts g .exm a) fun u => Becomes s u c (c.nextPc (.mts g .exm a)) G)
        ∧ (c.drained = false → Parks s c (.mts g .exm a)))
  ∧ (∀ (g : Guard) (r : SysReg) (a : Src) (ws : List W32), r.writable = false → (Instr.mts g r a).wf = false ∧ decodeWords ws ≠ some (.mts g r a))
  ∧ (∀ (g : Guard) (r : SysReg) (a : Src) (s : State) (c : Cur) (w : List Byte), r.writable = true → r ≠ .exm → UniReady s c g [(.k64, a)] w → c.drained = true
      → Answers s (.mts g r a) fun u => Becomes s u c (c.nextPc (.mts g r a))
          (match r with
            | .gctl => { c.grp with gctl := c.karg w .k64 a &&& gctlMask }
            | .late => { c.grp with late := (lo32 (c.karg w .k64 a)).toNat }
            | .tvec => { c.grp with tvec := c.karg w .k64 a &&& ~~~ 3#64 }
            | .tcause => { c.grp with tcause := c.karg w .k64 a &&& 0xFFFF#64 }
            | .tpc => { c.grp with tpc := c.karg w .k64 a &&& ~~~ 3#64 }
            | .taddr => { c.grp with taddr := c.karg w .k64 a }
            | _ => c.grp))
  ∧ (∀ (g : Guard) (a b : Src) (s : State) (c : Cur) (w : List Byte), UniReady s c g [(.k64, a), (.k64, b)] w →
      ((c.karg w .k64 b).getLsbD 0 = false → Answers s (.mode g a b) fun u => Becomes s u c (c.nextPc (.mode g a b))
        { c.grp with gctl := ((c.grp.gctl &&& ~~~ c.karg w .k64 b) ||| (c.karg w .k64 a &&& c.karg w .k64 b)) &&& gctlMask })
      ∧ ((c.karg w .k64 b).getLsbD 0 = true → exec (.mode g a b) s = .next (s.trapAt c 1 none)))

/-! ## Pending sources and deferral -/

/-- With `DEFM` clear, an instruction with a pending source or a pending guard parks its path and changes nothing else (R60, R65, R100).
With `DEFM` set and an entry free, the same instruction takes a residual entry that holds its address, its mask, and each of its sources, its
destination becomes pending in its lanes, `lat` with it where it produces a vector, and its path goes on (R54, R58, R61). Said of every
per-lane instruction, and of every memory access that does not drain, which is also deferred behind the older deferred stores that it must
follow (R64). -/
def Obligations.PendingSources : Prop :=
  (∀ (s : State) (c : Cur) (i : Instr), s.cur = some c → c.grp.defm = false
      → ((∃ op w, laneOpOf i = some op ∧ s.cwFor c (c.act op.guard ||| c.guardWaits op.guard) op.srcs = (s, .ok w)
            ∧ (c.guardWaits op.guard ≠ 0 ∨ c.srcsWait (w64 (ofBytes w)) (c.act op.guard) op.srcs = true))
          ∨ ∃ op, memOpOf i = some op ∧ c.path.prog = .none
            ∧ (c.guardWaits op.guard ≠ 0 ∨ c.srcsWait 0 (c.act op.guard) op.srcs = true))
      → Parks s c i)
  ∧ (∀ (s : State) (c : Cur) (i : Instr) (op : LaneOp) (w : List Byte), s.cur = some c → c.grp.defm = true
      → c.grp.residUsed < 16 → c.path.onChip = true → laneOpOf i = some op →
      let m := c.act op.guard ||| c.guardWaits op.guard
      s.cwFor c m op.srcs = (s, .ok w)
      → (c.guardWaits op.guard ≠ 0 ∨ c.srcsWait (w64 (ofBytes w)) (c.act op.guard) op.srcs = true)
      → Answers s i fun u => Deferred s u c i m op.srcs.length
          ∧ ∀ l ∈ m.list, (∀ q ∈ op.dst.locs (c.grp.D l), (u.grpOf c.g).isPend l q.2 = true)
              ∧ ∀ t d, op.dst = .reg t d → (u.grpOf c.g).isPend l .lat = true)
  ∧ (∀ (s : State) (c : Cur) (i : Instr) (op : MemOp), s.cur = some c → c.grp.defm = true → c.grp.residUsed < 16
      → c.path.onChip = true → memOpOf i = some op → op.drains = false →
      let m := c.act op.guard ||| c.guardWaits op.guard
      (c.guardWaits op.guard ≠ 0 ∨ c.srcsWait 0 (c.act op.guard) op.srcs = true ∨ s.mustFollow c memOpOf op m ≠ [])
      → Answers s i fun u => Deferred s u c i m op.srcs.length
          ∧ ∀ d, op.dst = some d → ∀ l ∈ m.list, ∀ q ∈ dstLocs op.ty (c.grp.D l) d, (u.grpOf c.g).isPend l q.2 = true)

/-- With no entry free, a path whose instruction must be deferred parks while `OVFT` is clear, and with `OVFT` set raises the
residual-overflow trap, whose `TPC` is the instruction's address, with no other effect; both paths' entries count against the 16 (R67).
Said of every instruction that may be deferred: one of a lane, with a source or its guard pending, and a memory access that does not drain,
with those or an older deferred access it must follow. -/
def Obligations.FullResidualFile : Prop :=
  ∀ (s : State) (c : Cur) (i : Instr), s.cur = some c → c.grp.defm = true → 16 ≤ c.grp.residUsed
    → ((∃ op w, laneOpOf i = some op ∧ s.cwFor c (c.act op.guard ||| c.guardWaits op.guard) op.srcs = (s, .ok w)
          ∧ (c.guardWaits op.guard ≠ 0 ∨ c.srcsWait (w64 (ofBytes w)) (c.act op.guard) op.srcs = true))
        ∨ ∃ op, memOpOf i = some op ∧ op.drains = false
          ∧ (c.guardWaits op.guard ≠ 0 ∨ c.srcsWait 0 (c.act op.guard) op.srcs = true
            ∨ s.mustFollow c memOpOf op (c.act op.guard ||| c.guardWaits op.guard) ≠ []))
    → (c.grp.ovft = false → Parks s c i)
      ∧ (c.grp.ovft = true → exec i s
          = .next (s.raise c.g c.arm
              { cause := 3, detail := 0, tpc := c.path.pc, taddr := none, resume := c.path.pc, entry := none }))

/-! ## Control -/

/-- `BRA`: an empty taken set continues, a full one moves the whole path to the target (R113). `BRA` with lanes on both sides splits a
converged group into two paths: the taken lanes at the target, the others, lanes with `EXM` 0 among them, at the next instruction; a side that
stands at the reconvergence point already waits there, and two that do are one path again (R30, R113). What is deferred or outstanding goes
with its lanes, and is the fall-through side's where it has lanes of both (the model's choice, assumption 78). Of a group that has diverged it
pushes an entry: the fall-through side runs, the taken side is deferred (R31). A path that comes to its newest entry's point lets the
deferred side run, and at the same point again drops the entry and is one path of both sides' lanes; an arm that comes to its group's point
waits for the other, and with it becomes one path (R30, R31). Shown of entries on chip (R32), and of `NOP`: all that go on do so alike. -/
def Obligations.Branches : Prop :=
  (∀ (g : Guard) (tgt recon : BitVec 32) (s : State) (c : Cur), s.cur = some c → c.guardWaits g = 0 → c.path.onChip = true →
      (c.act g = 0 → Answers s (.bra g tgt recon) fun u => PathDone s u c (c.nextPc (.bra g tgt recon)))
      ∧ (c.act g ≠ 0 → c.grp.exmOf c.path &&& ~~~ c.act g = 0 →
          Answers s (.bra g tgt recon) fun u => PathDone s u c (c.path.pc + tgt.signExtend 64)))
  ∧ (∀ (g : Guard) (tgt recon : BitVec 32) (s : State) (c : Cur), s.cur = some c → c.guardWaits g = 0 → c.act g ≠ 0
      → c.grp.exmOf c.path &&& ~~~ c.act g ≠ 0 →
      let rest := c.path.lanes &&& ~~~ c.act g
      let to_ := c.path.pc + tgt.signExtend 64
      let next := c.nextPc (.bra g tgt recon)
      let meet := c.path.pc + recon.signExtend 64
      let side (m : Lanes) : Nat := if m &&& rest = 0 && m &&& c.act g != 0 then 1 else 0
      (c.grp.arms = [c.path] → c.path.stack = [] → c.arm = 0 → Answers s (.bra g tgt recon) fun u => Only s u c.g
          ∧ { u.grpOf c.g with arms := c.grp.arms, recon := c.grp.recon, resid := c.grp.resid, accs := c.grp.accs } = c.grp
          ∧ (u.grpOf c.g).recon = meet
          ∧ (¬ (to_ = meet ∧ next = meet) →
              (u.grpOf c.g).arms.map Path.lanes = [rest, c.act g] ∧ (u.grpOf c.g).arms.map Path.pc = [next, to_]
              ∧ (u.grpOf c.g).arms.map Path.st = [if next = meet then .atRecon else .ready, if to_ = meet then .atRecon else .ready]
              ∧ (u.grpOf c.g).resid = c.grp.resid.map (fun e => { e with arm := side e.mask })
              ∧ (u.grpOf c.g).accs = c.grp.accs.map fun e => { e with arm := side e.lanes })
          ∧ (to_ = meet → next = meet → (u.grpOf c.g).arms.map Path.lanes = [rest ||| c.act g] ∧ (u.grpOf c.g).arms.map Path.pc = [meet]))
      ∧ (∀ x y, c.grp.arms = [x, y] → c.grp.onChip.length < 16 → next ≠ meet → Answers s (.bra g tgt recon) fun u => Only s u c.g
          ∧ { u.grpOf c.g with arms := c.grp.arms, nextEnt := c.grp.nextEnt } = c.grp
          ∧ u.pathOf c.g c.arm = { c.path with
              pc := next, lanes := rest, stack := c.grp.nextEnt :: c.path.stack, st := .ready, prog := .none, last := s.tick
              ents := put c.path.ents c.grp.nextEnt
                { recon := meet, other := { pc := to_, lanes := c.act g, stack := [], prog := .none }, second := false, spill := none } }
          ∧ (u.grpOf c.g).nextEnt = c.grp.nextEnt + 1 ∧ ∀ a, a ≠ c.arm → u.pathOf c.g a = s.pathOf c.g a))
  ∧ (∀ (g : Guard) (s : State) (c : Cur) (w : List Byte), UniReady s c g [] w →
      let pc := c.nextPc (.nop g)
      let p := c.at s pc
      (∀ e rest d, c.path.stack = e :: rest → look c.path.ents e = some d → d.spill = none → d.recon = pc →
        (d.second = false → d.other.stack = [] → d.other.pc ≠ pc → d.other.lanes &&& ~~~ c.grp.exited ≠ 0 →
          Answers s (.nop g) fun u => Only s u c.g ∧ PathsOnly c.grp (u.grpOf c.g)
            ∧ u.pathOf c.g c.arm = { p with
                pc := d.other.pc, lanes := d.other.lanes, prog := d.other.prog
                ents := put c.path.ents e { d with other := { pc := pc, lanes := c.path.lanes, stack := [], prog := .none }, second := true } })
        ∧ (d.second = true →
            let q : Path := { p with lanes := c.path.lanes ||| d.other.lanes, stack := rest, ents := del c.path.ents e }
            c.grp.clearAt q = true →
            Answers s (.nop g) fun u => Only s u c.g ∧ PathsOnly c.grp (u.grpOf c.g) ∧ u.pathOf c.g c.arm = q))
      ∧ (∀ x y, c.grp.arms = [x, y] → c.path.stack = [] → c.grp.recon = pc →
          (∀ o, (if c.arm = 0 then y else x) = o →
            (o.st ≠ .atRecon → Answers s (.nop g) fun u => Only s u c.g ∧ PathsOnly c.grp (u.grpOf c.g)
              ∧ u.pathOf c.g c.arm = { p with st := .atRecon } ∧ u.pathOf c.g (1 - c.arm) = o)
            ∧ (o.st = .atRecon → Answers s (.nop g) fun u => Only s u c.g ∧ PathsOnly c.grp (u.grpOf c.g)
              ∧ (u.grpOf c.g).arms.map Path.lanes = [x.lanes ||| y.lanes] ∧ (u.grpOf c.g).arms.map Path.pc = [pc]
              ∧ (u.grpOf c.g).arms.map Path.st = [.ready]))))

/-- `BRU` moves the whole path if its comparison holds, whatever its lanes; `BPEND` if what it names is pending in an active lane, which a
`k` register never is (R65, R115). `LOOPK` counts its register down modulo 2^64, even with no active lane, and branches while it is not 0
(R116). `k0` reads 0 and keeps no count: it branches always (R53). -/
def Obligations.UniformBranches : Prop :=
  (∀ (uns : Bool) (x : Cmp) (a b : Src) (r : PendName) (off : BitVec 32) (s : State) (c : Cur), s.cur = some c → c.path.onChip = true →
      let t : Ty := if uns then .n64 else .i64
      let holds : Bool := x.onOrd (compare (t.toInt (c.grp.kopnd 0 (cmpRead uns) a)) (t.toInt (c.grp.kopnd 0 (cmpRead uns) b)))
      (holds = true → Answers s (.bru uns x a b off) fun u => PathDone s u c (c.path.pc + off.signExtend 64))
      ∧ (holds = false → Answers s (.bru uns x a b off) fun u => PathDone s u c (c.nextPc (.bru uns x a b off)))
      ∧ (∀ k, c.namePend (.reg (.k k)) = false)
      ∧ (c.namePend r = true → Answers s (.bpend r off) fun u => PathDone s u c (c.path.pc + off.signExtend 64))
      ∧ (c.namePend r = false → Answers s (.bpend r off) fun u => PathDone s u c (c.nextPc (.bpend r off))))
  ∧ (∀ (a : BitVec 5) (off : BitVec 32) (s : State) (c : Cur), s.cur = some c → c.path.onChip = true →
      (c.grp.kr a - 1 = 0 → Answers s (.loopk a off) fun u => UniDone s u c (c.nextPc (.loopk a off)) a 0)
      ∧ (c.grp.kr a - 1 ≠ 0 → Answers s (.loopk a off) fun u => UniDone s u c (c.path.pc + off.signExtend 64) a (c.grp.kr a - 1)))

/-- A full `CALL` or `CALLI` that needs no spill writes each calling lane's link word below its new window, slides the window, and goes to
its target (R45, R116). A full `RET` whose link words are on chip, agree and name a slide slides each returning lane's window back and
goes to the return address (R46, R116). What a position above a window holds when a later slide covers it again is assumption 77. -/
def Obligations.CallsAndReturns : Prop :=
  (∀ (g : Guard) (code : BitVec 2) (i : Instr) (tgt : W64) (s : State) (c : Cur), s.cur = some c → c.guardWaits g = 0 → c.act g ≠ 0
      → c.path.onChip = true → c.grp.exmOf c.path &&& ~~~ c.act g = 0
      → ((∃ off, i = .call g code off ∧ tgt = c.path.pc + off.signExtend 64) ∨ ∃ a, i = .calli g code a ∧ tgt = c.grp.kr a)
      → tgt.extractLsb' 32 25 = (c.nextPc i).extractLsb' 32 25 → tgt.extractLsb' 0 2 = 0
      → code ≠ 0
      → (∀ l ∈ (c.act g).list, c.grp.D l + 8 * code.toNat + 31 ≤ 65535)
      → (∀ l ∈ (c.act g).list, c.grp.D l + 8 * code.toNat + 32 - c.grp.F l ≤ c.grp.quota)
      → Answers s i fun u => Only s u c.g ∧ SameWork c.grp (u.grpOf c.g) ∧ GoesOn s u c tgt
          ∧ (∀ l ∈ (c.act g).list, (u.grpOf c.g).D l = c.grp.D l + 8 * code.toNat
              ∧ (u.grpOf c.g).rd l (.v (c.grp.D l + 8 * code.toNat - 1)) = (c.nextPc i).extractLsb' 2 30 ++ code)
          ∧ (∀ l, l < 16 → l ∉ (c.act g).list → (u.grpOf c.g).D l = c.grp.D l)
          ∧ (∀ l, l < 16 → ∀ loc, (l ∉ (c.act g).list ∨ loc ≠ .v (c.grp.D l + 8 * code.toNat - 1)) →
              (u.grpOf c.g).rd l loc = c.grp.rd l loc)
          ∧ { u.grpOf c.g with v := c.grp.v, base := c.grp.base, pend := c.grp.pend, poison := c.grp.poison, arms := c.grp.arms,
                               resid := c.grp.resid, accs := c.grp.accs } = c.grp)
  ∧ (∀ (g : Guard) (s : State) (c : Cur), s.cur = some c → c.guardWaits g = 0 → c.act g ≠ 0 → c.path.onChip = true
      → c.grp.exmOf c.path &&& ~~~ c.act g = 0
      → (∀ l ∈ (c.act g).list, 0 < c.grp.D l ∧ c.grp.isPend l (.v (c.grp.D l - 1)) = false
          ∧ retAddr c.path.pc (c.grp.link l) = retAddr c.path.pc (c.grp.link (lowLane (c.act g)))
          ∧ ∃ d, retBase (c.grp.D l) (c.grp.link l) = some d ∧ c.grp.F l ≤ d ∧ c.grp.F l ≤ c.grp.D l - 1)
      → Answers s (.ret g) fun u => Only s u c.g ∧ SameWork c.grp (u.grpOf c.g)
          ∧ GoesOn s u c (retAddr c.path.pc (c.grp.link (lowLane (c.act g))))
          ∧ (∀ l ∈ (c.act g).list, (u.grpOf c.g).D l = c.grp.D l - 8 * ((c.grp.link l).extractLsb' 0 2).toNat)
          ∧ (∀ l, l < 16 → l ∉ (c.act g).list → (u.grpOf c.g).D l = c.grp.D l)
          ∧ { u.grpOf c.g with base := c.grp.base, arms := c.grp.arms, resid := c.grp.resid, accs := c.grp.accs } = c.grp)

/-- `EXIT` outside a handler ends its active lanes: they leave `EXM` for good. Where a lane of the group is still enabled, the path that
keeps a live lane goes on with the next instruction; where none is, the group ends, whatever lanes are masked, and holds no path any more
(R24, R116; what becomes of masked lanes is assumption 29). -/
def Obligations.LaneEnd : Prop :=
  ∀ (g : Guard) (s : State) (c : Cur), Fresh s c g true → c.grp.inTrap = none →
    Answers s (.exit g) fun u =>
      (u.grpOf c.g).exited &&& c.act g = c.act g ∧ (u.grpOf c.g).exm &&& c.act g = 0
      ∧ (c.grp.arms = [c.path] → c.path.stack = [] → c.path.ents = [] → c.grp.exm &&& ~~~ c.act g ≠ 0 →
          c.grp.liveOf c.path &&& ~~~ c.act g ≠ 0 →
          (u.pathOf c.g c.arm).pc = c.nextPc (.exit g) ∧ (u.grpOf c.g).exited = c.grp.exited ||| c.act g
          ∧ (u.grpOf c.g).exm = c.grp.exm &&& ~~~ c.act g ∧ Only s u c.g)
      ∧ (c.grp.exm &&& ~~~ c.act g = 0 → (u.grpOf c.g).arms = [] ∧ (u.grpOf c.g).exited = 0xFFFF)
      ∧ (c.grp.arms = [c.path] → c.path.stack = [] → c.path.ents = [] → c.grp.liveOf c.path &&& ~~~ c.act g = 0 →
          (u.grpOf c.g).arms = [])

/-! ## Traps -/

/-- `TRAP` takes the software trap with its number as `DETAIL` and the next instruction's address in `TPC`; `BRK` does so, as a debug
break, where `BRKE` is 1, and else has no effect (R123, R125, R128). `TRAP_ENTRY`: a raised trap whose frame is stored is entered: saved
registers, `k28` to `k31`, `DEFM` and `OVFT` cleared, the path at the handler (R124, R125). An instruction fetch that comes to an illegal
sequence takes the illegal-instruction trap at its own address before anything else is checked (R98). -/
def Obligations.TrapsTaken : Prop :=
  (∀ (g : Guard) (n : BitVec 6) (s r : State) (c : Cur),
      (Fresh s c g true →
        let t : TrapReq := { cause := 0x0E, detail := n.zeroExtend 8, tpc := c.nextPc (.trap g n), taddr := none
                             resume := c.nextPc (.trap g n), entry := none }
        TrapReady s c t r → Answers s (.trap g n) fun u => Trapped s r u c t)
      ∧ (Fresh s c g false →
        let t : TrapReq := { cause := 0x0D, detail := n.zeroExtend 8, tpc := c.nextPc (.brk g n), taddr := none
                             resume := c.nextPc (.brk g n), entry := none }
        (c.grp.brke = true → TrapReady s c t r → Answers s (.brk g n) fun u => Trapped s r u c t)
        ∧ (c.grp.brke = false → Answers s (.brk g n) fun u => PathDone s u c (c.nextPc (.brk g n)))))
  ∧ (∀ (s r : State) (c : Cur) (t : TrapReq), TrapReady s c t r → (s.modPath c.g c.arm fun p => { p with trap := some t, st := .ready }) = s
      → c.grp.failedOf c.arm = none → c.arm < 2
      → Answers s (.trapEntry c.g (c.arm == 1)) fun u => Trapped s r u c t)
  ∧ (∀ (s r : State) (c : Cur) (b : List Byte), c.path.trap = none → c.grp.failedOf c.arm = none
      → c.grp.nextEntry c.arm = none → c.path.st ≠ .atRecon → c.path.st ≠ .held → c.lateDue = false → c.grp.atPoint c.arm = false
      → s.icBlock c.core c.grp.launch c.path.pc = some b → decodeAt b (c.path.pc.toNat % 32) = .illegal
      → let t : TrapReq := { cause := 1, detail := 0, tpc := c.path.pc, taddr := none, resume := c.path.pc, entry := none }
        TrapReady s c t r → ∃ u, step s = .next u.settle ∧ Trapped s r u c t)

/-- A second trap in a handler halts the group: no path is left and its launch will end with status 0x26 (R124, R349). `RFT` outside a
handler is an illegal instruction. In one whose frame can be read it brings back `k28` to `k31`, `GCTL` and the mask of the path's live
lanes from the frame, leaves the handler, and goes on at the address in `TPC` (R126). Stated of a frame without residual entries, whose
reads leave the groups as they are, of another cause than a deferred memory fault, and of a group that holds no more entries than the
residual file has room for, which no instruction exceeds. -/
def Obligations.TrapEnds : Prop :=
  (∀ (s : State) (c : Cur) (t : TrapReq), s.cur = some c → c.path.trap = some t → c.grp.trapReady c.arm t = true
      → c.grp.inTrap.isSome = true → t.atBoundary = false → c.grp.failedOf c.arm = none → c.arm < 2
      → Answers s (.trapEntry c.g (c.arm == 1)) fun u => (u.grpOf c.g).arms = [] ∧ (u.grpOf c.g).inTrap = none
          ∧ ((s.launch? c.grp.launch).isSome = true → (u.launch? c.grp.launch).map Launch.status = some 0x26))
  ∧ (∀ (g : Guard) (s : State) (c : Cur), Fresh s c g false →
      (c.grp.inTrap = none → exec (.rft g) s = .next (s.trapAt c 1 none))
      ∧ ∀ (t : InTrap) (s1 s2 : State) (b b2 : List Byte), c.grp.inTrap = some t → t.saved = [] → c.grp.residUsed ≤ Config.residCap → t.cause ≠ 0x0B →
          s.gRead c.g c.arm t.frame 0x50 = (s1, .ok b) → s1.gRead c.g c.arm (t.frame + 0x80) 72 = (s2, .ok b2) →
          s2.groups = s.groups →
          let word (o : Nat) : W64 := w64 (ofBytes ((b.drop o).take 8))
          Answers s (.rft g) fun u =>
            (∀ j : BitVec 5, 28 ≤ j.toNat → (u.grpOf c.g).kr j = word (8 * (j.toNat - 28)))
            ∧ (∀ j : BitVec 5, j.toNat < 28 → (u.grpOf c.g).kr j = c.grp.kr j)
            ∧ (u.grpOf c.g).gctl = word 0x28 &&& gctlMask ∧ (u.grpOf c.g).inTrap = none
            ∧ (u.grpOf c.g).exm = (c.grp.exm &&& ~~~ c.grp.liveOf c.path) ||| (BitVec.ofNat 16 (word 0x20).toNat &&& c.grp.liveOf c.path)
            ∧ (∀ l pos, (u.grpOf c.g).rd l (.v pos) = c.grp.rd l (.v pos)) ∧ (∀ l i, (u.grpOf c.g).pred i l = c.grp.pred i l)
            ∧ (c.grp.clearAt (c.at s2 c.grp.tpc) = true → (u.pathOf c.g c.arm).pc = c.grp.tpc)
            ∧ ∀ x, x ≠ c.g → u.group? x = s.group? x)

/-! ## Memory instructions -/

/-- A global load, store, atomic or reduction whose checks pass, with room for its packets in the core's queue, is sent: its record, its
pending destination, one packet for each line; `lat` and every other register is as it was, its path goes on, and no byte of memory has
changed yet (R54, R59, R242 to R246, R251, R252, R259, R299, R306). -/
def Obligations.GlobalAccesses : Prop :=
  ∀ (i : Instr) (op : MemOp) (s : State) (c : Cur) (rs : List LaneReq) (ws : List (Nat × Int)),
    (∃ g t o sc slk d m e x, (i = .ld g t o sc slk d m ∧ op = ldOp g t o sc slk d m) ∨ (i = .ldu g t o sc slk d m ∧ op = lduOp g t o sc slk d m)
        ∨ (i = .st g t o sc slk m e ∧ op = stOp g t o sc slk m e)
        ∨ (∃ f, i = .atom g f t false o sc slk d m e x ∧ op = atomOp g f t false o sc slk d m e x)
        ∨ ∃ f, i = .red g f t false o sc slk m e ∧ op = redOp g f t false o sc slk m e)
    → MemReady s c op rs ws → s.hasRoom c.core rs = true → Answers s i fun u => Sent s u c op rs ∧ GoesOn s u c (c.nextPc i)

/-- The address of each lane of an access is the base, the offset scaled by the size of the type, and the displacement, modulo 2^64 (R86).
An access of any form but a prefetch and a window load, with a misaligned address in an active lane, traps before any lane is performed,
with the lowest such lane's address in `TADDR`; with every address aligned and one that its core may not access, or that is outside local
memory, it traps with that address (R123, R242, R244, R247). Of an atomic at a scope below `.gang` this is said of addresses that it may be
performed at, and of a `POLL` where it may wait (R36, R256; the order of the checks is assumption 71). -/
def Obligations.AddressesChecked : Prop :=
  (∀ (op : MemOp) (act : Lanes) (v : Nat → Nat → W64), op.uniform = false →
      (op.ask act v).1.map LaneReq.lane = act.list
        ∧ ∀ q ∈ (op.ask act v).1, q.addr = (v 0 q.lane + BitVec.ofInt 64 (sx 32 (v 1 q.lane).toNat * op.ty.size) + op.disp.signExtend 64).toNat
            ∧ q.c = v 2 q.lane ∧ q.d = v 3 q.lane)
  ∧ (∀ (i : Instr) (op : MemOp) (s : State) (c : Cur) (rs : List LaneReq) (ws : List (Nat × Int)) (q : LaneReq), memOpOf i = some op
      → MemAsked s c op rs ws → op.isPref = false → op.space.isWin = false → (rs.any fun q => op.nowhere q.addr) = false
      → (op.kind = .poll → s.pollLegal c.grp.launch op.scope = true) →
      let aligned (q : LaneReq) : Bool := q.addr % op.ty.size == 0
      let there (q : LaneReq) : Bool := if op.space = .loc then (s.localAt c.grp.block q.addr op.ty.size).isSome
        else (s.coreCheck c.core c.grp.launch op.acc q.addr).isSome
      ((rs.find? fun q => !aligned q) = some q → exec i s = .next (s.trapAt c 6 (some (w64 q.addr))))
      ∧ (rs.all aligned = true → (rs.find? fun q => !there q) = some q → exec i s = .next (s.trapAt c 4 (some (w64 q.addr)))))

/-- A `POLL` that may wait is sent as a load is, and its path begins a recognised wait; one that may not traps. Its answer has met the
condition in every lane at `.stage` (`LandingEvents` says how it comes there): then the `POLL` completes, acquires at its scope if it is an
acquire, and its path goes on (R34 to R36, R260). A prefetch sends one packet for each line of the lanes that pass the checks at the core,
leaves no record, writes no register, and its path goes on (R262). -/
def Obligations.PollsAndPrefetches : Prop :=
  (∀ (g : Guard) (t : Ty) (x : Cmp) (o : Ord) (sc : Scope) (slk : BitVec 4) (d : Dst) (m : Addr) (e : Src) (s : State) (c : Cur)
      (rs : List LaneReq) (ws : List (Nat × Int)),
      let i : Instr := .poll g t x o sc slk d m e
      (MemReady s c (pollOp g t x o sc slk d m e) rs ws → s.hasRoom c.core rs = true → s.pollLegal c.grp.launch sc = true
        → (∀ n, c.path.st ≠ .waiting n) →
        Answers s i fun u => Sent s u c (pollOp g t x o sc slk d m e) rs
          ∧ u.pathOf c.g c.arm = { c.path with prog := .acc s.ids, st := .waiting (c.grp.due s.now) })
      ∧ (MemAsked s c (pollOp g t x o sc slk d m e) rs ws → s.pollLegal c.grp.launch sc = false → exec i s = .next (s.trapAt c 2 none))
      ∧ ∀ n, s.cur = some c → c.path.prog = .stage n → c.path.onChip = true →
          Answers s i fun u => Becomes (if o.isAcq then s.invalidate c.core sc else s) u c (c.nextPc i) c.grp)
  ∧ (∀ (g : Guard) (t : Ty) (l2 : Bool) (slk : BitVec 4) (m : Addr) (s : State) (c : Cur) (rs : List LaneReq) (ws : List (Nat × Int)),
      let i : Instr := .pref g t l2 slk m
      let ok := rs.filter fun q => q.addr % t.size == 0 && (s.coreCheck c.core c.grp.launch 1 q.addr).isSome
      MemAsked s c (prefOp g t l2 slk m) rs ws → s.hasRoom c.core rs = true →
        Answers s i fun u => PathsOnly c.grp (u.grpOf c.g) ∧ GoesOn s u c (c.nextPc i)
          ∧ (∀ ls ∈ byLine ok, ∃ e ∈ u.net.packets, e.2.own = .none ∧ e.2.core = c.core ∧ e.2.lanes = ls ∧ e.2.kind = .pref l2
              ∧ e.2.phase = .going)
          ∧ (∀ n, n < s.ids → look u.net.packets n = look s.net.packets n)
          ∧ { u with groups := s.groups, net := { u.net with packets := s.net.packets }, ids := s.ids } = s
          ∧ (∀ a n, u.peek a n = s.peek a n) ∧ ∀ x, x ≠ c.g → u.group? x = s.group? x)

/-- A store to local memory, once what it must follow is done, writes its bytes in ascending lane order, so that the last of several lanes
stays, and no other byte of any core's local memory, as atomics of `.gang` scope see it; its path goes on (R245, R247, R253, R257). Any
local access that must follow an older one of its lanes issues all the same: its path goes on, its destination is pending, and its request
waits at its core (R61, R63; assumption 64). -/
def Obligations.LocalStores : Prop :=
  (∀ (g : Guard) (t : Ty) (o : Ord) (sc : Scope) (slk : BitVec 4) (m : Addr) (e : Src) (s : State) (c : Cur) (rs : List LaneReq)
    (ws : List (Nat × Int)),
    let i : Instr := .stl g t o sc slk m e
    let n := t.size
    MemReady s c (stlOp g t o sc slk m e) rs ws → LocalNow s c (stlOp g t o sc slk m e) → o.isAcq = false →
      Answers s i fun u => GoesOn s u c (c.nextPc i) ∧ PathsOnly c.grp (u.grpOf c.g)
        ∧ { u with groups := s.groups, cores := s.cores, quads := s.quads, ids := s.ids } = s
        ∧ (∀ x, x ≠ c.g → u.group? x = s.group? x) ∧ (∀ a k, u.peek a k = s.peek a k)
        ∧ (∀ pre q post core a, rs = pre ++ q :: post → s.localAt c.grp.block q.addr n = some (core, a) →
            (∀ r ∈ post, ∀ core' a', s.localAt c.grp.block r.addr n = some (core', a') → core' ≠ core ∨ a + n ≤ a' ∨ a' + n ≤ a) →
            u.gangRead core a n = toBytes n q.c.toNat)
        ∧ ∀ core x, (∀ q ∈ rs, ∀ a, s.localAt c.grp.block q.addr n = some (core, a) → x < a ∨ a + n ≤ x) →
            u.gangRead core x 1 = s.gangRead core x 1)
  ∧ (∀ (i : Instr) (op : MemOp) (s : State) (c : Cur) (rs : List LaneReq) (ws : List (Nat × Int)), memOpOf i = some op → op.space = .loc
      → op.ord.isRel = false → MemReady s c op rs ws
      → s.nearHeld memOpOf (s.nearOf c.g s.ids c.grp.block op (c.act op.guard) rs) = true →
      Answers s i fun u => GoesOn s u c (c.nextPc i) ∧ (∀ x, x ≠ c.g → u.group? x = s.group? x)
        ∧ (∃ a ∈ (u.grpOf c.g).accs, a.id = s.ids ∧ a.pc = c.path.pc ∧ a.kind = op.kind ∧ a.lanes = c.act op.guard)
        ∧ (∃ e ∈ u.net.packets, e.2.own = .access c.g s.ids ∧ e.2.phase = .near ∧ e.2.kind = op.req)
        ∧ (∀ d, op.dst = some d → ∀ l ∈ (c.act op.guard).list, ∀ q ∈ dstLocs op.ty (c.grp.D l) d, (u.grpOf c.g).isPend l q.2 = true)
        ∧ { u with groups := s.groups, net := { u.net with packets := s.net.packets }, ids := s.ids } = s)

/-- A local load brings each active lane the word at its address, which lands at a later step, and changes no byte of local memory (R58,
R245, R247). Where a command has delivered bytes and no acquire has followed, a lane may find what stood there before instead, until it has
found what was delivered (R269, R298; assumption 84). A constant-window load brings each active lane its word or pair of words, zero below
the window, where the words are at hand (R249, R250). An atomic or reduction on local memory, once its release is done, performs its lanes
in ascending order, each finding what the lanes before it have left, and brings its lanes the old words (R254 to R257, R259). One lane of an
atomic: the old word is the result, and the new one of R254 stands at its address, and no other byte of any local memory is changed; below
`.gang` scope with no atomic of `.gang` scope under way, and at `.gang` scope as such atomics see it (R254, R255, R257; assumption 70). -/
def Obligations.LocalReads : Prop :=
  (∀ (g : Guard) (t : Ty) (o : Ord) (sc : Scope) (slk : BitVec 4) (d : Dst) (m : Addr) (s : State) (c : Cur) (rs : List LaneReq)
      (ws : List (Nat × Int)),
      let op := ldlOp g t o sc slk d m
      MemReady s c op rs ws → LocalNow s c op → o.isRel = false →
        Answers s (.ldl g t o sc slk d m) fun u => ∃ v : Nat → W64, Read s u c (.ldl g t o sc slk d m) op v
          ∧ (∀ q ∈ rs, ∀ core x, s.localAt c.grp.block q.addr t.size = some (core, x) → (s.core core).stale.any (staleMeets x t.size) = false →
              v q.lane = w64 (ofBytes (s.gangRead core x t.size)))
          ∧ (∀ core x, u.gangRead core x 1 = s.gangRead core x 1) ∧ ∀ a k, u.peek a k = s.peek a k)
  ∧ (∀ (g : Guard) (t : Ty) (slk : BitVec 4) (d : Dst) (w : BitVec 3) (y : Src) (x : BitVec 32) (s : State) (c : Cur) (rs : List LaneReq)
      (ws : List (Nat × Int)) (b : Nat → List Byte),
      let op := ldcOp g t slk d w y x
      MemReady s c op rs ws → LocalNow s c op
      → (∀ q ∈ ws, (q.2 < 0 → b q.1 = List.replicate 8 0)
          ∧ (0 ≤ q.2 → s.next.cwRead [2, c.g, c.arm] c.core c.grp.launch w.toNat q.2.toNat t.is64 = (s.next, .ok (b q.1)))) →
        Answers s (.ldc g t slk d w y x) fun u => Read s u c (.ldc g t slk d w y x) op (fun l => w64 (ofBytes (b l))) ∧ u.cores = s.cores)
  ∧ (∀ (i : Instr) (op : MemOp) (s : State) (c : Cur) (rs : List LaneReq) (ws : List (Nat × Int)),
      ((∃ g f t o sc slk d m e x, i = .atom g f t true o sc slk d m e x ∧ op = atomOp g f t true o sc slk d m e x)
          ∨ ∃ g f t o sc slk m e, i = .red g f t true o sc slk m e ∧ op = redOp g f t true o sc slk m e)
      → MemReady s c op rs ws → LocalNow s c op →
        let r := s.next.localLanes c.g s.ids c.grp.block op rs
        Answers s i fun u => Read s u c i op (fun l => get 0 r.2 l)
          ∧ u.cores = (if op.ord.isAcq then r.1.invalidate c.core op.scope else r.1).cores ∧ u.quads = r.1.quads)
  ∧ (∀ (s : State) (g id block : Nat) (op : MemOp) (q : LaneReq) (core a : Nat), op.req = .load
      → s.localAt block q.addr op.ty.size = some (core, a) → (s.quad (coreQuad core)).qau = [] →
      let n := op.ty.size
      let r := s.localLane g id block op q
      (r.2 = w64 (ofBytes (s.lmRead core a n)) ∨ (s.core core).stale.any (staleMeets a n) = true ∧ r.2 = w64 (ofBytes (s.lmStale core a n)))
      ∧ (∀ k x, r.1.lmRead k x 1 = s.lmRead k x 1)
      ∧ (r.2 ≠ w64 (ofBytes (s.lmStale core a n)) → (r.1.core core).stale.any (staleMeets a n) = false))
  ∧ (∀ (s : State) (g id block : Nat) (op : MemOp) (f : AtomOp) (q : LaneReq) (core a : Nat), op.req = .atom f
      → s.localAt block q.addr op.ty.size = some (core, a) →
      let n := op.ty.size
      let r := s.localLane g id block op q
      (op.scope.rank < 3 → (s.quad (coreQuad core)).qau = [] →
        r.2 = w64 (ofBytes (s.lmRead core a n))
        ∧ r.1.lmRead core a n = toBytes n (atomNew f op.ty (w64 (ofBytes (s.lmRead core a n))) q.c q.d).toNat
        ∧ (∀ x, x < a ∨ a + n ≤ x → get 0 (r.1.core core).lmem x = get 0 (s.core core).lmem x)
        ∧ ∀ k, k ≠ core → r.1.core k = s.core k)
      ∧ (3 ≤ op.scope.rank →
        r.2 = w64 (ofBytes (s.gangRead core a n))
        ∧ r.1.gangRead core a n = toBytes n (atomNew f op.ty (w64 (ofBytes (s.gangRead core a n))) q.c q.d).toNat
        ∧ (∀ k x, k ≠ core ∨ x < a ∨ a + n ≤ x → r.1.gangRead k x 1 = s.gangRead k x 1) ∧ r.1.cores = s.cores))

/-- A fence goes on once what it orders is done, and parks until then: a release when every older access of its path is performed at its
scope, with what its scope writes back written back; an acquire when no value of an older load is outstanding, with its core's unowned L1
words dropped from `.gang` on; one of both after both (R253, R273, R279). A counted wait goes on when every counter is at most its count,
and parks until then (R264). `DISCARD` traps on an id that names no object, has no effect on an entry that is not valid, and traps on
another domain's object; where every page stands on this device and passes every check, and no other device may hold a replica, it drops the
lines of the object, none of which is left in a slice, and goes on; where pages fail, it drops the others' lines, asks whom it must, and
traps on the lowest (R263). -/
def Obligations.FencesAndWaits : Prop :=
  (∀ (g : Guard) (o : Ord) (sc : Scope) (slk : BitVec 4) (s : State) (c : Cur), Fresh s c g true →
      let i : Instr := .fence g o sc slk
      let due := c.grp.loadsDue c.path.allLanes s.ids
      let done := s.relDone c.g c.path.allLanes s.ids sc
      let r := s.releaseAt c.core sc
      (o = .none → Answers s i fun u => PathDone s u c (c.nextPc i))
      ∧ (o = .rel → done = true → r.groups = s.groups → Answers s i fun u => Becomes r u c (c.nextPc i) c.grp)
      ∧ (o = .acq → due = false → Answers s i fun u => Becomes (s.invalidate c.core sc) u c (c.nextPc i) c.grp
          ∧ (3 ≤ sc.rank → ∀ e ∈ u.mem.l1, e.1 / 2 ^ 64 = c.core → e.2.own = true))
      ∧ (o = .ar → done = true → c.grp.loadsDue c.path.allLanes r.ids = false → r.groups = s.groups →
          Answers s i fun u => Becomes (r.invalidate c.core sc) u c (c.nextPc i) c.grp)
      ∧ (o = .acq → due = true → Parks s c i)
      ∧ (o.isRel = true → done = false → Answers s i fun u =>
          u.pathOf c.g c.arm = { c.path with prog := .stage s.ids, st := .parked }
          ∧ Only (if 6 ≤ sc.rank then s.sendKept (coreSector c.core) fun _ => true else s) u c.g))
  ∧ (∀ (g : Guard) (l st cp tl : BitVec 8) (s : State) (c : Cur), Fresh s c g false →
      let i : Instr := .waitc g l st cp tl
      let n := s.counters c.g
      let met : Prop := n.1 ≤ l.toNat ∧ n.2.1 ≤ st.toNat ∧ n.2.2.1 ≤ cp.toNat ∧ n.2.2.2 ≤ tl.toNat
      (met → Answers s i fun u => PathDone s u c (c.nextPc i)) ∧ (¬ met → Parks s c i))
  ∧ (∀ (g : Guard) (slk : BitVec 4) (a : BitVec 5) (s : State) (c : Cur), Fresh s c g true
      → (c.grp.accs.all fun x => x.lanes &&& c.path.allLanes == 0) = true →
      let i : Instr := .discard g slk a
      let n := (c.grp.kr a).toNat
      ((n = 0 ∨ 4096 ≤ n) → exec i s = .next (s.trapAt c 1 none))
      ∧ (n ≠ 0 → n < 4096 → objV (s.objEntry n) = false → Answers s i fun u => PathDone s u c (c.nextPc i))
      ∧ (n ≠ 0 → n < 4096 → objV (s.objEntry n) = true →
          let dom := s.domOf c.grp.launch
          let obj := bits (s.objEntry n) 128 64
          (dom ≠ bits (s.objEntry n) 48 16 → dom ≠ 0 → exec i s = .next (s.trapAt c 4 (some (w64 obj))))
          ∧ ∀ z b, s.syncRead { key := [7, 12, c.g, c.arm], core := none, launch := 0, dom := 0 } 1 obj 64 = (z, .ok b) →
          let f := footprint (ofBytes b)
          let here : Prop := ∀ p ∈ footPages f, (z.coreCheck c.core c.grp.launch 2 (p * 65536)).isSome = true
            ∧ (homeOf z.fw (p * 65536)).map Prod.fst = some z.fw.dev
          let bad := (footPages f).filter fun p => !z.discardOk c.core c.grp.launch dom p
          let r := z.dropLines dom fun x =>
            lineOf f.1 ≤ x && x < lineOf f.2 + 64 && (footPages f).contains (pageOf x) && !bad.contains (pageOf x)
          ((dom = bits (s.objEntry n) 48 16 ∨ dom = 0) → here → r.discardAsks (r.objEntry n) f = [] →
              (bad = [] → r.groups = s.groups → Answers s i fun u => Becomes r u c (c.nextPc i) c.grp
                ∧ ∀ e ∈ u.mem.slice, ¬ (lineOf f.1 ≤ e.1 ∧ e.1 < lineOf f.2 + 64 ∧ pageOf e.1 ∈ footPages f))
              ∧ (∀ p, bad.head? = some p → exec i s = .next (r.trapAt c 5 (some (w64 (p * 65536))))))))

/-! ## Engine instructions -/

/-- A copy command whose operands are in range and aligned is issued with the operands it reads: wherever a tag is free for it, it holds that
tag, its handle is written, it is outstanding in its queue, and the path goes on; one of length 0 is issued as completed at once (R187, R192,
R194, R197 to R199). -/
def Obligations.CopyCommands : Prop :=
  ∀ (g : Guard) (t : Ty) (f : CopyF) (kh : BitVec 5) (a b x n m : Src) (l : BitVec 16) (s : State) (c : Cur), Fresh s c g true →
    let cmd (k : CmdKind) : Cmd := s.newCmd c k f.scope f.queue.toNat f.slk.toNat 0
    let once (z : Bool) (k : CmdKind) : Cmd := if z then (cmd k).atOnce 0 else cmd k
    (c.kn n < 2 ^ 32 → c.kn a % 4 = 0 → c.kn b % 4 = 0 → c.kn n % 4 = 0 →
      Issues s c (.cpy g f kh a b n) kh (once (c.kn n == 0) (.cpy (c.kop a) (c.kop b) (c.kn n) f.dl f.sl)))
    ∧ (c.kn n < 2 ^ 24 → c.kn x % 4 = 0 →
      Issues s c (.cpg g f kh a b x n l) kh
        (once (c.kn n == 0) (.cpg (c.kop a) (c.kop b) (c.kop x) (c.kn n) (4 * l.toNat) f.dl f.sl f.il)))
    ∧ (64 ≤ c.kn n → c.kn n ≤ 262144 → c.kn m < 2 ^ 32 → c.kn a % 64 = 0 → c.kn b % 64 = 0 → c.kn n % 64 = 0 →
      Issues s c (.cpm g f kh a b n m) kh (once (c.kn m == 0) (.cpm (c.kop a) (c.kop b) (c.kn n) (lo32 (c.kop m)))))
    ∧ (c.kn n < 2 ^ 32 → c.kn a % t.size = 0 → c.kn b % t.size = 0 → c.kn n % t.size = 0 →
      Issues s c (.cpyr g t f kh a b n) kh (once (c.kn n == 0) (.cpyr t (c.kop a) (c.kop b) (c.kn n) f.sl)))

/-- Issuing a command, a copy or a tile operation, with a tag free for it and nobody waiting: the tag is held with the next generation, the
handle names it, the command is outstanding behind the fences of its queue, or in the reservation table behind its group's other operations,
and the path goes on (R180, R187, R197 to R199). -/
def Obligations.CommandTakesTag : Prop :=
  ∀ (s : State) (c : Cur) (i : Instr) (kh : BitVec 5) (k : Cmd) (n : Nat), s.cur = some c → c.path.onChip = true → TagFree s c k n →
    Took s (s.issueCmd c i kh k) c (c.nextPc i) kh k n

/-- A command with a format descriptor reads it, and is refused, checked, or issued, in that order (R188 to R191, R194): where the
descriptor is at hand, sound and accepted, the slots or the tile are claimed, and address and strides aligned, the command is issued with
it, and wherever a tag is free for it, holds that tag, its handle is written, and the path goes on. `MLOOP`, `MZERO` and `MROWSC` check that
their block has claimed what they name, and are issued in the same way (R180, R183, R185). -/
def Obligations.DescriptorAndTileCommands : Prop :=
  ∀ (g : Guard) (f : CopyF) (kh : BitVec 5) (a b e q : Src) (s : State) (c : Cur), Fresh s c g true →
    (∀ (acc : Bool) (r : State) (d : List Byte), c.kn q % 32 = 0 → s.descRead c f.slk.toNat (c.kn q) = (r, .ok d) →
      r.isBadMem (c.kn q) 32 = false →
      let i : Instr := if acc then .cpya g f kh a b e q else .cpyo g f kh a b e q
      let first := c.kn e % 256
      let count := bits (c.kn e) 8 8
      let D := descOf (ofBytes d)
      let kind : CmdKind :=
        if acc then .cpya (w64 (c.kn a)) (c.kn b) first count (BitVec.ofNat 256 (ofBytes d))
        else .cpyo (w64 (c.kn a)) (c.kn b) first count (BitVec.ofNat 256 (ofBytes d))
      let k := r.lateDesc (r.newCmd c kind f.scope f.queue.toNat f.slk.toNat 0) (c.kn q)
      (if acc then first + count ≤ 128 else bits (c.kn e) 16 48 = 0 ∧ 0 < count ∧ count ≤ 128) →
      (∀ x, refusal acc (ofBytes d) first count = some x → exec i s = .next (r.next.issueCmd c i kh (k.atOnce (w64 (0x10 + 256 * x)))))
      ∧ (refusal acc (ofBytes d) first count = none →
          r.claimed (coreQuad c.core) c.grp.block acc (c.kn b) (if acc then 1 else D.nsl + 1) = true →
          c.kn a % memSize D.mfmt = 0 → D.rstr % memSize D.mfmt = 0 → D.cstr % memSize D.mfmt = 0 →
          exec i s = .next (r.next.issueCmd c i kh (if count = 0 then k.atOnce 0 else k))
          ∧ ∀ n, count ≠ 0 → r.cur = some c → TagFree r.next c k n → Answers s i fun u => Took r.next u c (c.nextPc i) kh k n))
    ∧ ∀ (fa fb : Ty) (prio : BitVec 2) (n : BitVec 12) (ia ib : BitVec 4) (mode : MMode),
        let kind : CmdKind := .mloop fa fb (c.kn a) (c.kn b) (c.kn e) (n.toNat + 1) ia.toNat ib.toNat
          (match mode with | .plain => none | .tri kg x => some (c.kop kg, c.maskWord x))
        let cmd (k : CmdKind) : Cmd := { s.newCmd c k .blk 0 0 prio.toNat with entry := 0xFFF }
        let own : Prop := s.claimed (coreQuad c.core) c.grp.block true (c.kn a) 1 = true
        let slots : Prop := ∀ j, j < n.toNat + 1 →
          s.claimed (coreQuad c.core) c.grp.block false (c.kn b + j * ia.toNat) 1 = true
            ∧ s.claimed (coreQuad c.core) c.grp.block false (c.kn e + j * ib.toNat) 1 = true
        (own → slots → Issues s c (.mloop g fa fb prio kh a b e n ia ib mode) kh (cmd kind))
        ∧ (own → Issues s c (.mzero g prio kh a) kh (cmd (.mzero (c.kn a))))
        ∧ (own → c.kn b % 4 = 0 → (s.localAt c.grp.block (c.kn b) 512).isSome = true →
            Issues s c (.mrowsc g prio kh a b) kh (cmd (.mrowsc (c.kn a) (c.kop b))))
        ∧ (¬ own → exec (.mzero g prio kh a) s = .next (s.trapAt c 9 none))

/-- A claim that can be met, with none waiting before it, takes the lowest run of free slots or tiles of its length; one that cannot
waits; a claim of none or of more than there are is an illegal instruction (R178, R179). What a free run is: all of it free, and no lower
one (R179). A release waits while a command names what it frees; then one of what the block has claimed frees it, and another traps (R179). -/
def Obligations.Claims : Prop :=
  (∀ (g : Guard) (d : BitVec 5) (a : Src) (tiles : Bool) (s : State) (c : Cur), Fresh s c g false →
      let i : Instr := if tiles then .aclaim g d a else .oclaim g d a
      let n := c.kn a
      let q := s.quad (coreQuad c.core)
      ((n = 0 ∨ (if tiles then 16 else 256) < n) → exec i s = .next (s.trapAt c 1 none))
      ∧ (∀ first, n ≠ 0 → n ≤ (if tiles then 16 else 256) → q.waits tiles = [] → q.freeRun tiles n = some first →
          ∃ w : Claim, w.block = c.grp.block ∧ w.dom = s.domOf c.grp.launch ∧ w.count = n ∧
          Answers s i fun u =>
            Becomes ((s.next).modQuad (coreQuad c.core) fun q => q.grant tiles first w) u c (c.nextPc i) (c.grp.kw d (w64 first)))
      ∧ (n ≠ 0 → n ≤ (if tiles then 16 else 256) → q.freeRun tiles n = none →
          Answers s i fun u => (u.pathOf c.g c.arm).prog = .ticket s.ids ∧ (u.pathOf c.g c.arm).pc = c.path.pc
            ∧ (((u.quad (coreQuad c.core)).waits tiles).map Claim.id) = (q.waits tiles).map Claim.id ++ [s.ids]))
  ∧ (∀ (q : Quad) (tiles : Bool) (n first : Nat), q.freeRun tiles n = some first →
      (∀ j, j < n → look (q.own tiles) (first + j) = none) ∧ first + n ≤ max n (if tiles then 16 else 256)
        ∧ ∀ x, x < first → ∃ j, j < n ∧ look (q.own tiles) (x + j) ≠ none)
  ∧ (∀ (g : Guard) (a b : Src) (tiles : Bool) (s : State) (c : Cur), Fresh s c g false →
      let i : Instr := if tiles then .arel g a b else .orel g a b
      c.kn a + c.kn b ≤ (if tiles then 16 else 256) →
      (s.named c.grp.block tiles (c.kn a) (c.kn b) = true → Answers s i fun u => (u.pathOf c.g c.arm).prog = .ticket s.ids
          ∧ (u.pathOf c.g c.arm).pc = c.path.pc
          ∧ (u.quad (coreQuad c.core)).rels.map Release.id = (s.quad (coreQuad c.core)).rels.map Release.id ++ [s.ids])
      ∧ (s.named c.grp.block tiles (c.kn a) (c.kn b) = false → s.claimed (coreQuad c.core) c.grp.block tiles (c.kn a) (c.kn b) = false →
          exec i s = .next (s.trapAt c 9 none))
      ∧ (s.claimed (coreQuad c.core) c.grp.block tiles (c.kn a) (c.kn b) = true → s.named c.grp.block tiles (c.kn a) (c.kn b) = false →
          Answers s i fun u =>
            Becomes (s.modQuad (coreQuad c.core) fun q => q.free tiles (c.kn a) (c.kn b) (s.domOf c.grp.launch)) u c (c.nextPc i) c.grp
            ∧ ∀ j, j < c.kn b → look ((u.quad (coreQuad c.core)).own tiles) (c.kn a + j) = none))

/-- `QFENCE` puts every earlier outstanding command of the queues it names before later ones (R187). The handle instructions on a sound
handle: `TEST` reports completion in the active lanes, `FFR` finds the lowest ready tag, `CANCEL` of a command that has not begun ends it
with status 0x11, completes it and gives 1, of a command under way and of a launch gives 0, a `JOIN` of a completed tile operation delivers
its status and frees the tag; a stale handle traps (R201, R202). `WAITANY` and `WAITALL` of no allocated tag give 0 at once; of tags that
are ready enough they report them, with the acquires of the copies reported; else the path waits (R201, R203). A wait that the launch's
class does not allow traps; whether it is allowed is known at once of a command's tag, and of a launch's that has been admitted here (R35,
assumption 14). -/
def Obligations.Handles : Prop :=
  (∀ (g : Guard) (m : BitVec 4) (s : State) (c : Cur), Fresh s c g true →
      Answers s (.qfence g m) fun u => (∀ q, q < 4 → m.getLsbD q = true → ∀ e ∈ s.cmds, e.2.core = c.core → e.2.done = false
            → e.2.kind.isTile = false → m.getLsbD e.2.queue = true → e.1 ∈ (u.core c.core).fenced q)
        ∧ u.cmds = s.cmds ∧ PathsOnly c.grp (u.grpOf c.g) ∧ GoesOn s u c (c.nextPc (.qfence g m)) ∧ ∀ a n, u.peek a n = s.peek a n)
  ∧ (∀ (g : Guard) (d : BitVec 5) (p : BitVec 3) (a : Src) (s : State) (c : Cur), Fresh s c g false →
      let rdy := (s.core c.core).trdy c.grp.launch
      (Answers s (.ffr g d a) fun u => Becomes s u c (c.nextPc (.ffr g d a))
          (c.grp.kw d (w64 (((List.range 64).find? fun t => (rdy &&& c.kop a).getLsbD t).getD 64))))
      ∧ (s.handleTag c (c.kop a) = none → exec (.test g p a) s = .next (s.trapAt c 8 none)
          ∧ exec (.join g d a) s = .next (s.trapAt c 8 none) ∧ exec (.cancel g d a) s = .next (s.trapAt c 8 none))
      ∧ ∀ n t, s.handleTag c (c.kop a) = some (n, t) →
          (Answers s (.test g p a) fun u => PredDone s u c (c.nextPc (.test g p a)) p (c.act g) fun _ => t.done)
          ∧ (∀ k, t.kind ≠ 2 → s.cmd? t.target = some k → k.begun = false → k.done = false → t.done = false
              → k.core = c.core → k.tag = n → k.gen = t.gen → k.lateAt = none → s.joiners c.core n t.gen = []
              → (s.quad (coreQuad c.core)).posting.contains t.target = false →
              Answers s (.cancel g d a) fun u => (d ≠ 0 → (u.grpOf c.g).kr d = 1) ∧ (∀ j, j ≠ d → (u.grpOf c.g).kr j = c.grp.kr j)
                ∧ u.cmd? t.target = some { k with ended := true, status := 0x11, done := true }
                ∧ get tagReset (u.core c.core).tags n = { t with done := true, status := 0x11, taddr := k.taddr }
                ∧ t.target ∉ (u.quad (coreQuad c.core)).table ∧ GoesOn s u c (c.nextPc (.cancel g d a))
                ∧ ∀ y m, u.peek y m = s.peek y m)
          ∧ (t.kind = 2 → Answers s (.cancel g d a) fun u => Becomes s u c (c.nextPc (.cancel g d a)) (c.grp.kw d 0))
          ∧ (∀ k, t.kind ≠ 2 → s.cmd? t.target = some k → (k.begun = true ∨ k.done = true) →
              Answers s (.cancel g d a) fun u => Becomes s u c (c.nextPc (.cancel g d a)) (c.grp.kw d 0))
          ∧ (s.tagKnown c.core n = true → s.tagLegal c.core n = false → exec (.join g d a) s = .next (s.trapAt c 2 none))
          ∧ (t.done = true → t.kind = 1 → t.status.extractLsb' 0 8 = 0 →
              Answers s (.join g d a) fun u => (d ≠ 0 → (u.grpOf c.g).kr d = t.status)
                ∧ (∀ j, j ≠ d → (u.grpOf c.g).kr j = c.grp.kr j)
                ∧ ((look (s.core c.core).tags n).isSome = true → (get tagReset (u.core c.core).tags n).owner = none)
                ∧ (c.grp.clearAt (c.at s (c.path.pc + 8)) = true → (u.pathOf c.g c.arm).pc = c.path.pc + 8))
          ∧ (t.done = false → s.tagKnown c.core n = true → s.tagLegal c.core n = true → (∀ x, c.path.st ≠ .waiting x) →
              Answers s (.join g d a) fun u =>
                u.pathOf c.g c.arm = { c.path with prog := .join n t.gen d, st := .waiting (c.grp.due s.now) } ∧ Only s u c.g))
  ∧ (∀ (g : Guard) (d : BitVec 5) (a : Src) (all : Bool) (s : State) (c : Cur), Fresh s c g false →
      let i : Instr := if all then .waitall g d a else .waitany g d a
      let m := c.kop a &&& (s.core c.core).tagMask c.grp.launch
      let r := (s.core c.core).trdy c.grp.launch &&& m
      let known : Prop := ∀ n, m.getLsbD n = true → s.tagKnown c.core n = true
      (m = 0 → Answers s i fun u => Becomes s u c (c.nextPc i) (c.grp.kw d 0))
      ∧ (m ≠ 0 → known → s.maskLegal c.core m = false → exec i s = .next (s.trapAt c 2 none))
      ∧ (m ≠ 0 → known → s.maskLegal c.core m = true → (if all then r = m else r ≠ 0) →
          Answers s i fun u => Becomes (s.acquireTags c.core r) u c (c.nextPc i) (c.grp.kw d r))
      ∧ (m ≠ 0 → known → s.maskLegal c.core m = true → ¬ (if all then r = m else r ≠ 0) → (∀ x, c.path.st ≠ .waiting x) →
          Answers s i fun u => u.pathOf c.g c.arm = { c.path with prog := .mask m, st := .waiting (c.grp.due s.now) } ∧ Only s u c.g))

/-- `LAUNCH` of an aligned record that its core may read takes a tag and, its release done and the queue with room, hands its record to
the ringmaster: the handle is written and the path goes on; a record that is not aligned, or that its core may not read, traps (R331). -/
def Obligations.Launches : Prop :=
  ∀ (g : Guard) (graph early : Bool) (d a : BitVec 5) (s : State) (c : Cur), Fresh s c g true →
    let i : Instr := .launch g graph early d a
    let ka := (c.grp.kr a).toNat
    (ka % (if graph then 64 else 128) ≠ 0 → exec i s = .next (s.trapAt c 6 (some (w64 ka))))
    ∧ (ka % (if graph then 64 else 128) = 0 → s.coreCheck c.core c.grp.launch 1 ka = none →
        exec i s = .next (s.trapAt c 4 (some (w64 ka))))
    ∧ ∀ n h, ka % (if graph then 64 else 128) = 0 → (s.coreCheck c.core c.grp.launch 1 ka).isSome = true
        → (s.core c.core).tagWait = [] → (s.core c.core).freeTagNo = some n → homeOf s.fw ka = some (s.fw.dev, h)
        → c.grp.accs = [] → (∀ e ∈ s.net.packets, e.2.kind.isStore = false) → s.ring.queue.length < Config.ringCap
        → Answers s i fun u => ∃ gen, (d ≠ 0 → (u.grpOf c.g).kr d = handleOf 2 c.core gen n)
            ∧ u.ring.queue = s.ring.queue ++ [{ addr := ka, graph := graph, early := early, dom := s.domOf c.grp.launch
                                                issuer := c.grp.launch, origin := .tag c.core n gen }]
            ∧ (c.grp.clearAt (c.at s (c.nextPc i)) = true → (u.pathOf c.g c.arm).pc = c.nextPc i)

/-! ## Barriers, quota, snapshots, exchange -/

/-- `ARRIVE`, its release done, counts its arrival and gives the phase it arrived in, and traps on a count above its level's maximum; `BAR`
arrives with a count of 1, and where that completes the phase acquires and goes on, and else waits, and goes on once its phase has passed;
`AWAIT` of a phase that has passed acquires and goes on, of another waits for the phase it was given as it issued; each of them on a launch
barrier in a launch that is not concurrent traps (R25, R26, R35, R118). A barrier's phase completes when as many arrivals as it has live
members have been counted, and has then passed (R26, R27). -/
def Obligations.Barriers : Prop :=
  (∀ (g : Guard) (lv : BarLevel) (n : BitVec 4) (sc : Scope) (d : BitVec 5) (a : Src) (s : State) (c : Cur) (w : List Byte),
      Fresh s c g true → UniReady s c g [(.k64, a)] w → s.barLegal c lv = true →
      let released := s.relDone c.g c.path.allLanes s.ids sc
      let r := s.releaseAt c.core sc
      let q := (r.barOf c lv n.toNat).phase
      let count := (c.grp.arriveCount (w64 (ofBytes w)) a).toNat
      let s' := r.barArrive c lv n.toNat 1
      (released = true → r.groups = s.groups → count ≤ barMax lv → Answers s (.arrive g lv n sc d a) fun u =>
          Becomes (r.barArrive c lv n.toNat count) u c (c.nextPc (.arrive g lv n sc d a)) (c.grp.kw d (q.zeroExtend 64)))
      ∧ (barMax lv < count → exec (.arrive g lv n sc d a) s = .next (s.trapAt c 1 none))
      ∧ (released = true → r.groups = s.groups → (s'.barOf c lv n.toNat).passed q = true → Answers s (.bar g lv n sc) fun u =>
          Becomes (s'.invalidate c.core sc) u c (c.nextPc (.bar g lv n sc)) c.grp)
      ∧ (released = true → r.groups = s.groups → (s'.barOf c lv n.toNat).passed q = false → (∀ x, c.path.st ≠ .waiting x) →
          Answers s (.bar g lv n sc) fun u =>
            u.pathOf c.g c.arm = { c.path with prog := .phase q, st := .waiting (c.grp.due s'.now) } ∧ Only s' u c.g)
      ∧ ((s.barOf c lv n.toNat).passed (lo32 (c.karg w .k64 a)) = true → Answers s (.await g lv n sc a) fun u =>
          Becomes (s.invalidate c.core sc) u c (c.nextPc (.await g lv n sc a)) c.grp)
      ∧ ((s.barOf c lv n.toNat).passed (lo32 (c.karg w .k64 a)) = false → (∀ x, c.path.st ≠ .waiting x) →
          Answers s (.await g lv n sc a) fun u =>
            u.pathOf c.g c.arm = { c.path with prog := .phase (lo32 (c.karg w .k64 a)), st := .waiting (c.grp.due s.now) } ∧ Only s u c.g))
  ∧ (∀ (g : Guard) (lv : BarLevel) (n : BitVec 4) (sc : Scope) (q : W32) (s : State) (c : Cur), s.cur = some c → c.path.onChip = true
      → c.path.prog = .phase q → (s.barOf c lv n.toNat).passed q = true →
      Answers s (.bar g lv n sc) (fun u => Becomes (s.invalidate c.core sc) u c (c.nextPc (.bar g lv n sc)) c.grp)
      ∧ ∀ a, Answers s (.await g lv n sc a) fun u => Becomes (s.invalidate c.core sc) u c (c.nextPc (.await g lv n sc a)) c.grp)
  ∧ (∀ (g : Guard) (n : BitVec 4) (sc : Scope) (d : BitVec 5) (a : Src) (s : State) (c : Cur) (w : List Byte), Fresh s c g true
      → s.barLegal c .launch = false →
      exec (.bar g .launch n sc) s = .next (s.trapAt c 2 none)
      ∧ (UniReady s c g [(.k64, a)] w → exec (.await g .launch n sc a) s = .next (s.trapAt c 2 none)
        ∧ ((c.grp.arriveCount (w64 (ofBytes w)) a).toNat < 2 ^ 32 → exec (.arrive g .launch n sc d a) s = .next (s.trapAt c 2 none))))
  ∧ (∀ (b : Barrier) (g n live : Nat) (q : W32), 0 < live → b.ghosts = 0 → b.count < live →
      (b.count + n < live → (b.arrive g n live).phase = b.phase ∧ (b.arrive g n live).count = b.count + n)
      ∧ (b.count + n = live → (b.arrive g n live).phase = b.phase + 1 ∧ (b.arrive g n live).count = 0 ∧ (b.arrive g n live).arrived = []
          ∧ (b.arrive g n live).passed b.phase = true)
      ∧ b.passed b.phase = false ∧ ({ b with phase := q + 1 } : Barrier).passed q = true)

/-- `QXFER` is refused with 0, and changes nothing else, where no other group of the block in the same quarter has the number it names, or
either quota would leave its bounds; else it moves 8n registers, gives the quota that is left, and its path goes on (R50, R51). Where a lane's
window no longer fits, its lowest units are spilled first (R45). -/
def Obligations.QuotaTransfer : Prop :=
  ∀ (g : Guard) (d : BitVec 5) (a : Src) (n : BitVec 4) (s : State) (c : Cur) (w : List Byte), UniReady s c g [(.k64, a)] w →
    let i : Instr := .qxfer g d a n
    let amt := 8 * n.toNat
    (s.recipient c ((c.karg w .k64 a).toNat % 64) = none → Answers s i fun u => Becomes s u c (c.nextPc i) (c.grp.kw d 0))
    ∧ ∀ r, s.recipient c ((c.karg w .k64 a).toNat % 64) = some r →
        let units := (~~~ c.grp.exited).list.flatMap fun l => c.grp.overUnits (c.grp.quota - amt) l
        ((128 < (s.grpOf r).quota + amt ∨ c.grp.quota < 32 + amt) → Answers s i fun u => Becomes s u c (c.nextPc i) (c.grp.kw d 0))
        ∧ ((s.grpOf r).quota + amt ≤ 128 → 32 + amt ≤ c.grp.quota → (s.group? r).isSome = true →
            ((∀ l ∈ (~~~ c.grp.exited).list, c.grp.D l + 32 - c.grp.F l ≤ c.grp.quota - amt) →
              Answers s i fun u => (u.grpOf c.g).quota = c.grp.quota - amt ∧ (u.grpOf r).quota = (s.grpOf r).quota + amt
                ∧ (d ≠ 0 → (u.grpOf c.g).kr d = w64 (c.grp.quota - amt)) ∧ (∀ j, j ≠ d → (u.grpOf c.g).kr j = c.grp.kr j)
                ∧ GoesOn s u c (c.nextPc i)
                ∧ (∀ x, x ≠ c.g → x ≠ r → u.group? x = s.group? x) ∧ ∀ y k, u.peek y k = s.peek y k)
            ∧ ∀ z b, (units.any fun x => c.grp.unitPend x.1 x.2) = false → s.spillUnits c.g c.arm units = (z, .ok b)
                → (z.path? c.g c.arm).map Cur.path = some c.path → (z.group? r).isSome = true →
              Answers s i fun u => (u.grpOf c.g).quota = c.grp.quota - amt ∧ (u.grpOf r).quota = (z.grpOf r).quota + amt
                ∧ (d ≠ 0 → (u.grpOf c.g).kr d = w64 (c.grp.quota - amt)) ∧ (∀ x, x ≠ c.g → x ≠ r → u.group? x = z.group? x))

/-- `SNAP` counts the launch's snapshots, gives the number, writes a record for each group of the launch's resident blocks, and its path
goes on (R128, R354). `XCH` with a partner's matching half queued exchanges at once: the lanes active on both sides take each other's
values, `lat` and every other register is as it was, and both paths go on; without one it queues its half and waits with its destination
pending; with a partner it may not have it traps (R35, R54, R111). -/
def Obligations.SnapshotAndExchange : Prop :=
  (∀ (g : Guard) (d : BitVec 5) (s : State) (c : Cur) (L : Launch), Fresh s c g false → s.launch? c.grp.launch = some L →
    let groups := (s.blocks.filter fun e => e.2.launch == c.grp.launch).flatMap fun e => e.2.groups
    let r := groups.foldl (fun s x => s.snapGroup (L.snap + 1) x) (s.modLaunch c.grp.launch fun M => { M with snap := L.snap + 1 })
    r.groups = s.groups → Answers s (.snap g d) fun u => Becomes r u c (c.nextPc (.snap g d)) (c.grp.kw d (w64 (L.snap + 1))))
  ∧ (∀ (g : Guard) (t : Ty) (d : Dst) (a : Src) (b : BitVec 5) (s : State) (c : Cur) (n : Nat), s.cur = some c → c.path.prog = .stage n
      → c.path.onChip = true → Answers s (.xch g t d a b) fun u => PathDone s u c (c.nextPc (.xch g t d a b)))
  ∧ ∀ (g : Guard) (t : Ty) (d : Dst) (a : Src) (b : BitVec 5) (s : State) (c : Cur) (x : Nat), Fresh s c g true →
    let i : Instr := .xch g t d a b
    let kb := (c.grp.kr b).toNat
    bits kb 54 10 = 0 → c.srcsWait 0 (c.act g) [srcTy t a] = false → c.poisons 0 (c.act g) [srcTy t a] = [] →
    let tag : BitVec 16 := BitVec.ofNat 16 (bits kb 38 16)
    let mine (l : Nat) : W64 := c.arg [] (.ty t) a l
    ((s.partner c (bits kb 0 38) = .illegal ∨ s.partner c (bits kb 0 38) = .ended) → exec i s = .next (s.trapAt c 2 none))
    ∧ (s.partner c (bits kb 0 38) = .group x →
      ((∀ n, c.path.st ≠ .waiting n) → ((s.grpOf x).xch.find? fun r => r.partner == s.groupNo c.grp && r.tag == tag) = none →
        Answers s i fun u => u.pathOf c.g c.arm = { c.path with prog := .acc s.ids, st := .waiting (c.grp.due s.now) }
          ∧ (∃ r ∈ (u.grpOf c.g).xch, r.id = s.ids ∧ r.partner = bits kb 0 38 ∧ r.tag = tag ∧ r.active = c.act g
              ∧ ∀ l ∈ (c.act g).list, get 0 r.vals l = mine l)
          ∧ (∀ l ∈ (c.act g).list, ∀ q ∈ dstLocs t (c.grp.D l) d, (u.grpOf c.g).isPend l q.2 = true)
          ∧ ∀ y, y ≠ c.g → u.group? y = s.group? y)
      ∧ ∀ r, x ≠ c.g → ((s.grpOf x).xch.find? fun r => r.partner == s.groupNo c.grp && r.tag == tag) = some r →
          Answers s i fun u => LanesPut c.grp (u.grpOf c.g) (c.act g &&& r.active) t d (fun l => get 0 r.vals l)
            ∧ GoesOn s u c (c.nextPc i) ∧ (∀ y, y ≠ c.g → y ≠ x → u.group? y = s.group? y)
            ∧ { u with groups := s.groups } = s ∧ (∀ q ∈ (u.grpOf x).xch, q.id ≠ r.id)
            ∧ ((s.path? x r.arm).isSome = true → (u.pathOf x r.arm).prog = .stage r.id ∧ (u.pathOf x r.arm).st = .ready))

/-! ## Events of paths -/

/-- `FETCH_BLOCK` brings the block of a path that may issue and has none into its core's cache, where it then stands; at a pad it goes on
with the next block (R74 to R76). `STARVATION_TIMER_EXPIRY`: before the time its timer expires a wait goes on as it is; from then on, with
nothing to rotate to, the timer reloads; with a candidate on chip the candidate's deferred side runs, and the side that waited is set aside
(R37 to R39). -/
def Obligations.PathEvents : Prop :=
  (∀ (s r : State) (c : Cur) (b : List Byte), s.cur = some c → c.arm < 2 → c.path.open = true → c.grp.atPoint c.arm = false →
      let key := icKey c.grp.launch c.path.pc.toNat
      (s.icBlock c.core c.grp.launch c.path.pc = none →
        s.sync { key := [4, c.g, c.arm], core := some c.core, launch := c.grp.launch, dom := s.domOf c.grp.launch } 4
            (c.path.pc.toNat / 32 * 32) (.read 32) = (r, .ok b) →
        exec (.fetchBlock c.g (c.arm == 1)) s = .next ((r.fillFetch c.core key b).modPath c.g c.arm fun p => { p with st := .ready })
          ∧ (r.fillFetch c.core key b).icBlock c.core c.grp.launch c.path.pc = some b ∧ (r.fillFetch c.core key b).groups = r.groups)
      ∧ (s.icBlock c.core c.grp.launch c.path.pc = some b → decodeAt b (c.path.pc.toNat % 32) = .pad → c.path.onChip = true →
        Answers s (.fetchBlock c.g (c.arm == 1)) fun u => Only s u c.g
          ∧ (c.grp.clearAt { c.path with pc := (c.path.pc &&& ~~~ 31#64) + 32 } = true →
              (u.pathOf c.g c.arm).pc = (c.path.pc &&& ~~~ 31#64) + 32)))
  ∧ (∀ (s : State) (c : Cur) (t : Nat), s.cur = some c → c.arm < 2 → c.path.st = .waiting (some t) →
      let e : Instr := .starvationTimerExpiry c.g (c.arm == 1)
      (s.now < t → exec e s = .next s)
      ∧ (t ≤ s.now → c.path.candidate = none →
          Answers s e fun u => u.pathOf c.g c.arm = { c.path with st := .waiting (c.grp.due s.now) } ∧ Only s u c.g)
      ∧ ∀ k above below d, t ≤ s.now → c.path.candidate = some (k, above, below) → look c.path.ents k = some d →
          c.path.onChip = true → exec e s = .next ((s.rotate c.g c.arm k above below).settlePath c.g c.arm))

/-- `REPLY_LANDS`: the values of a reply that answers its access's last lanes land in its destination, all lanes at once, where the access
is still the youngest writer, and its record ends; an access that has brought one value, of one lane or uniform, gives it to every lane; no
byte of memory changes (R59, R257, R266). A `POLL`'s reply in which every lane has met its condition ends its access and leaves its path
ready to complete it; the lanes that have not wait to read again (R260). `POLL_REREAD`: such a lane reads again, with room in its core's
queue, when 4,096 cycles have gone by or its home reports a write; not before (R260, R261, R306). `RESIDUAL_ENTRY_RUN`: a satisfied entry of
a lane instruction leaves the file and its results land in the lanes whose guard holds; the lanes a guard has left out get their old value
back (R62). -/
def Obligations.LandingEvents : Prop :=
  (∀ (s : State) (k g id : Nat) (p : Packet) (a : Access) (vals : List (Nat × W64)), s.packet? k = some p → p.phase = .landed (.ok vals 0)
      → p.own = .access g id → (s.grpOf g).access? id = some a → a.kind ≠ .poll → p.late = false → a.fails = [] → p.lanes ≠ []
      → a.waits &&& ~~~ p.lanesOf = 0 → (s.grpOf g).arms ≠ [] → a.bad = 0 →
      let a' : Access := { a with vals := if a.dst.isSome then vals.foldl (fun t q => put t q.1 q.2) a.vals else a.vals, waits := 0 }
      Answers s (.replyLands k) fun u => u.packet? k = none ∧ (∀ x, x ≠ g → u.group? x = s.group? x)
        ∧ (∀ x ∈ (u.grpOf g).accs, x.id ≠ id)
        ∧ (∀ d, a.dst = some d → ∀ l ∈ a.lanes.list, ∀ q ∈ dstLocs a.ty (get 0 a.wb l) d,
            (s.grpOf g).ownersOf l q.2 = [(id, q.2)] → ((s.grpOf g).pend.filter fun x => x.lane == l && x.loc == q.2).length = 1 →
            ((dstLocs a.ty (get 0 a.wb l) d).filter fun r => r.2 == q.2) = [q] →
            (u.grpOf g).rd l q.2 = half q.1 (extend a.ty (if a'.vals.length ≤ 1 then ((a'.vals.head?).map Prod.snd).getD 0 else get 0 a'.vals l))
              ∧ (u.grpOf g).isPend l q.2 = false)
        ∧ (u.grpOf g).k = (s.grpOf g).k ∧ (u.grpOf g).exm = (s.grpOf g).exm ∧ (∀ x n, u.peek x n = s.peek x n)
        ∧ ∀ core x, u.gangRead core x 1 = s.gangRead core x 1)
  ∧ (∀ (s : State) (k g id : Nat) (p : Packet) (a : Access) (vals : List (Nat × W64)), s.packet? k = some p → p.phase = .landed (.ok vals 0)
      → p.own = .access g id → (s.grpOf g).access? id = some a → a.kind = .poll → p.late = false → a.fails = [] → p.lanes ≠ [] →
      (a.unmet vals = [] → a.waits &&& ~~~ p.lanesOf = 0 → (s.path? g a.arm).isSome = true →
        Answers s (.replyLands k) fun u => u.packet? k = none ∧ (u.pathOf g a.arm).prog = .stage id ∧ (u.pathOf g a.arm).st = .ready
          ∧ (∀ x ∈ (u.grpOf g).accs, x.id ≠ id) ∧ (∀ x, x ≠ g → u.group? x = s.group? x))
      ∧ ((∃ q ∈ p.lanes, q.lane ∈ a.unmet vals) → Answers s (.replyLands k) fun u =>
          u.packet? k = some { p with lanes := p.lanes.filter fun q => (a.unmet vals).contains q.lane
                                      phase := .polling (s.now + 4096 * Config.cycle) }
          ∧ ∀ x, x ≠ g → u.group? x = s.group? x))
  ∧ (∀ (s : State) (k g id until_ : Nat) (p : Packet), s.packet? k = some p → p.phase = .polling until_ → p.own = .access g id →
      (s.hasRoom p.core p.lanes = true → (until_ ≤ s.now ∨ s.pollTold p = true) → Answers s (.pollReread k) fun u =>
          (u.packet? k).map Packet.phase = some .going ∧ (u.packet? k).map Packet.lanes = some p.lanes ∧ u.groups = s.groups ∧ u.mem = s.mem)
      ∧ (s.now < until_ → s.pollTold p = false → exec (.pollReread k) s = .next s.next))
  ∧ (∀ (s : State) (g : Nat) (e : Resid) (op : LaneOp), ((s.grpOf g).resid.find? fun x => x.id == e.id) = some e
      → (s.grpOf g).satisfied e = true → laneOpOf e.instr = some op → e.done = false →
      let act := e.active op.guard
      e.badLanes act op.srcs = 0 →
      exec (.residualEntryRun g e.id) s = .next ((s.usedTurn g e).modGroup g fun G =>
        (act.list.foldl (fun (G : Group) l => G.laneLand e.id l op.dst e.wb (op.f act (e.vals op.srcs) l) false)
          { G with resid := G.resid.filter fun x => x.id != e.id }).landOld e (e.mask &&& ~~~ act) op.dst))

/-! ## Events of the engines -/

/-- Claims, tags and reservation entries that wait are served one at a time as room allows, and the path that waited goes on (R178 to R180,
R199, R337); a release that waits frees, or traps, once no command names what it frees (R179). `COPY_CHUNK`: an engine with nothing to serve
does nothing; the copy of up to 4 KiB between local memories that its one queue head is at moves its bytes, ends it, and is charged to its
domain (R186, R195, R335). `SLICE_STREAM_BEAT`: a beat of a stream that serves one command leaves the slice once, as one copy for each of its
quads (R295, R296); a copy that reaches a quad's router stands in the local memory of every target there (R296).
`COMMAND_COMPLETION`: a command whose accesses are done completes, leaves the reservation table, and its tag learns its status (R199). -/
def Obligations.EngineEvents : Prop :=
  (∀ (s : State) (quad core first n id : Nat) (tiles : Bool) (w : Claim) (v : TagWait) (r : Release) (k : Cmd),
      (s.nextClaim quad tiles ((s.quad quad).waits tiles) = some w → (s.quad quad).freeRun tiles w.count = some first →
        exec (.claimGrant quad tiles) s = .next
          (((s.modQuad quad fun q => (q.grant tiles first w).setWaits tiles ((q.waits tiles).filter fun x => x.id != w.id)).modGroup w.grp
              fun G => G.kw w.d (w64 first)).resumeAt w.grp w.arm 8))
      ∧ (((s.quad quad).rels.find? fun r => r.tiles == tiles && !s.named r.block tiles r.first r.count) = some r →
          s.claimed quad r.block tiles r.first r.count = true →
          exec (.claimReleaseFree quad tiles) s = .next
            (((s.modQuad quad fun q => { q with rels := q.rels.filter fun x => x.id != r.id }).modQuad quad fun q =>
              q.free tiles r.first r.count ((s.blockDom r.block).getD 0)).resumeAt r.grp r.arm 8))
      ∧ (∀ x, ((s.quad quad).rels.find? fun r => r.tiles == tiles && !s.named r.block tiles r.first r.count) = some r →
          s.claimed quad r.block tiles r.first r.count = false → s.path? r.grp r.arm = some x →
          exec (.claimReleaseFree quad tiles) s = .next (((s.modQuad quad fun q => { q with rels := q.rels.filter fun y => y.id != r.id }).modPath
            x.g x.arm fun p => { p with prog := .none }).trapAt x 9 none))
      ∧ (s.nextTagWait core (s.core core).tagWait = some v → (s.core core).freeTagNo = some n →
          exec (.tagAllocate core) s = .next
            ((s.modCore core fun K => { K with tagWait := K.tagWait.filter fun x => x.id != v.id }).giveTag v n))
      ∧ (s.nextPost quad (s.quad quad).posting = some id → (s.quad quad).table.length < 32 → s.cmd? id = some k →
          exec (.reservationPost quad) s = .next
            ((s.modQuad quad fun q => { q with table := q.table ++ [id], posting := q.posting.filter fun i => i != id }).resumeAt k.grp k.arm
              k.kind.len)))
  ∧ (∀ (s : State) (g a len : Nat) (c : Cur), s.path? g a = some c → c.path.onChip = true →
      Only s (s.resumeAt g a len) g ∧ PathsOnly c.grp ((s.resumeAt g a len).grpOf g) ∧ GoesOn s (s.resumeAt g a len) c (c.path.pc + w64 len))
  ∧ (∀ (s : State) (core id : Nat) (c : Cmd) (dst src : W64) (len ks bs kd bd : Nat),
      (s.heads core = [] → exec (.copyChunk core) s = .next s)
      ∧ (s.heads core = [(id, c)] → s.cmd? id = some c → c.begun = true → c.room = 0 → c.kind = .cpy dst src len true true →
          0 < len → len ≤ 4096 → c.pos = 0 → s.localAt c.block src.toNat len = some (ks, bs) → s.localAt c.block dst.toNat len = some (kd, bd) →
          rangesMeet (s.spot c.block true src.toNat) len (s.spot c.block true dst.toNat) len = false →
          let r := ((((s.modCore kd fun K => K.deliver bd (s.lmRead ks bs len)).charge c.dom 1).setRoom id 4096).modCmd id fun x =>
            { x with pos := x.pos + len, room := x.room - len }).endOk id
          exec (.copyChunk core) s = .next (r.modCore core fun K => { K with chunks := 0 })
            ∧ r.lmRead kd bd len = s.lmRead ks bs len
            ∧ (r.cmd? id).map Cmd.ended = some true ∧ (r.cmd? id).map Cmd.status = some 0))
  ∧ (∀ (s r : State) (sid : Nat) (st : Stream) (j : StreamReq) (b : List Byte),
      look s.net.streams sid = some st → 64 * st.next < st.len → st.joined = [j] → s.takesBeat st.next j = true →
      s.roomFor (s.beatCopies st sid (2 * st.next) [] [j]) = true → s.beatRead st j.cmd st.next = (r, .ok b) →
      let t := r.chargeBeat (2 * st.next) [j]
      let u := t.setNet { t.net with streams := upd t.net.streams sid fun x =>
        { x with next := x.next + 1, first := some (x.first.getD t.now), joined := [j] } }
      exec (.sliceStreamBeat sid) s = .next ((u.sendPackets (u.beatCopies st sid (2 * st.next) b [j])).trimStream sid)
        ∧ ∀ c, u.cmd? j.cmd = some c → unitSector st.unit = coreSector c.core →
          (u.beatCopies st sid (2 * st.next) b [j]).map Packet.route = c.quads.map fun q => [.xbar (coreSector c.core) (32 + q % 8)])
  ∧ (∀ (s : State) (i quad sid code src len : Nat) (dst so : W64) (mask : W32) (b : List Byte) (t : BeatTo) (c : Cmd), s.cmd? t.cmd = some c
      → c.kind = .cpm dst so len mask →
      s.beatLands i quad sid code src b [t] false
        = (((s.setNet { s.net with packets := del s.net.packets i }).next.cpmDeliver t.cmd c (dst.toNat + 64 * (code / 2)) b
            fun n => coreQuad (32 * coreSector c.core + n) == quad)).trimStream sid)
  ∧ (∀ (s : State) (id : Nat) (c : Cmd) (off n : Nat) (B : Block) (b : List Byte) (on : Nat → Bool), c.targets = [(n, off)] → s.block? off = some B →
      B.ended = false → c.dropped.getLsbD n = false → on n = true → ∀ o, (s.cpmDeliver id c o b on).lmRead B.core (B.lbase + o) b.length = b)
  ∧ (∀ (s : State) (id : Nat) (c : Cmd) (t : Tag), s.cmd? id = some c → c.ended = true → c.done = false → c.msgs = [] → c.scope.rank < 8 →
      (exec (.commandCompletion id) s = .next (s.complete id))
      ∧ (c.lateAt = none → (s.quad (coreQuad c.core)).posting.contains id = false → get tagReset (s.core c.core).tags c.tag = t →
          t.owner.isSome = true → t.gen = c.gen → t.done = false → s.joiners c.core c.tag c.gen = [] →
          Answers s (.commandCompletion id) fun u => u.cmd? id = some { c with done := true }
            ∧ get tagReset (u.core c.core).tags c.tag = { t with done := true, status := c.status, taddr := c.taddr }
            ∧ id ∉ (u.quad (coreQuad c.core)).table ∧ u.groups = s.groups ∧ u.mem = s.mem))

/-- `MATRIX_STEP_GRANT`: the waiting entry of highest priority runs one step, the others wait on; its operation ends with its last step
(R181, R184). Shown of the only entry of its quad: a step of `MLOOP` takes the slots that its strides give, `MZERO` clears its tile,
`MROWSC` multiplies each row by the word of local memory for that row (R183, R185). One K-step adds to every accumulator of the tile the
step sum of its row and column, rounded to FP32; a triangular one leaves out the tiles of 32 that lie above the diagonal, and adds its
masked value above it elsewhere (R151, R184, R185). No other tile, slot or quad changes. -/
def Obligations.Matrix : Prop :=
  (∀ (s : State) (quad id : Nat) (c : Cmd), (s.quad quad).table = [id] → s.cmd? id = some c → c.ended = false → c.begun = true
      → s.cmdsDone c.after = true → (c.kind.reads = true → s.storesDone id c = true) → coreQuad c.core = quad →
      Answers s (.matrixStepGrant quad) fun u =>
        u.cmd? id = some { c with pos := c.pos + 1, ended := c.kind.total ≤ c.pos + 1 } ∧ u.groups = s.groups
        ∧ (∀ q, q ≠ quad → u.quad q = s.quad q) ∧ (∀ k x n, u.lmRead k x n = s.lmRead k x n)
        ∧ (∀ fa fb tile sa sb n ia ib tri, c.kind = .mloop fa fb tile sa sb n ia ib tri →
            u.quad quad = (s.quad quad).mstep fa fb tile (sa + c.pos * ia) (sb + c.pos * ib) tri)
        ∧ (∀ tile, c.kind = .mzero tile → u.quad quad = (s.quad quad).mapTile tile fun _ _ _ => 0)
        ∧ (∀ tile a, c.kind = .mrowsc tile a → (∃ f, u.quad quad = (s.quad quad).mapTile tile f)
            ∧ ∀ i j, i < 128 → j < 128 → ∀ k x, s.localAt c.block (a.toNat + 4 * i) 4 = some (k, x) →
              (u.quad quad).acc tile i j
                = lo32 (fmulR .f32 .rn false (((s.quad quad).acc tile i j).zeroExtend 64) (w64 (ofBytes (s.lmRead k x 4))))))
  ∧ (∀ (q : Quad) (fa fb : Ty) (tile sa sb i j : Nat) (g : W64) (x : W32) (f : Nat → Nat → W32 → W32), i < 128 → j < 128 →
      (q.mstep fa fb tile sa sb none).acc tile i j = accAdd (q.acc tile i j) (q.stepSum fa fb sa sb i j)
      ∧ (q.mstep fa fb tile sa sb (some (g, x))).acc tile i j
        = (if g.toInt < (32 * (j / 32) : Nat) - ((32 * (i / 32) + 31 : Nat) : Int) then q.acc tile i j
           else if g.toInt < (j : Int) - i then accAdd (q.acc tile i j) x.toNat
           else accAdd (q.acc tile i j) (q.stepSum fa fb sa sb i j))
      ∧ (q.mapTile tile f).acc tile i j = f i j (q.acc tile i j)
      ∧ (∀ tri, ∃ f, q.mstep fa fb tile sa sb tri = q.mapTile tile f)
      ∧ (∀ t, t ≠ tile → (q.mapTile tile f).acc t i j = q.acc t i j)
      ∧ { q.mapTile tile f with tiles := q.tiles } = q)

/-! ## Events of the ringmaster -/

/-- Admission of a record of the queue, the hand-over of a waiting `LAUNCH`, the start of a graph, and the four kinds of node a walk comes
to: a loop node counts and takes its back edge below its bound, a join takes its successor at its last arrival; what such a node stores is
fixed when it is read, and its edges are taken once that is stored (R326, R328, R330, R331; assumption 39). -/
def Obligations.Graphs : Prop :=
  ∀ (s r : State) (l graph walk : Nat) (h : Handoff) (b : List Byte) (G : Graph) (n : Nat) (k : Node),
    (∀ v, s.ring.queue[l]? = some h → h.graph = false → s.admitLaunch h none = (r, .open v) →
      exec (.launchAdmission l) s = .next (r.setRing { r.ring with queue := r.ring.queue.eraseIdx l }))
    ∧ (∀ g p tag gen mark (K : Group), s.groups = [(g, K)] → K.arms = [p] → p.prog = .launch tag gen mark
        → s.relDone g p.allLanes mark .dev = true →
        let t := get tagReset (s.core (slotCore g)).tags tag
        (s.releaseAt (slotCore g) .dev).handOver t.target t.graph t.early K.launch (slotCore g) tag gen = some r →
        exec .launchQueueHandoff s = .next (r.goto { g := g, arm := 0, grp := K, path := p } (p.pc + 8)))
    ∧ (s.ring.graphs.length < 64 → s.ring.queue = [h] → h.graph = true → (s.ctx h.dom).stopping = false → (s.ctx h.dom).pre = none →
        exec .graphStart s = .next (s.setRing { s.ring with
          queue := []
          graphs := put s.ring.graphs s.ids
            { dom := h.dom, first := h.addr, early := h.early, issuer := h.issuer, origin := h.origin
              walks := [(s.ids + 1, { node := h.addr, st := .at_ })] } }).next.next)
    ∧ (s.walkAt graph walk = some (G, n) → s.syncRead (ringWho G.dom [graph, walk, 0]) 1 n 64 = (r, .ok b) → nodeOf b = some k →
        (∀ rec succ v r', k = .kernel rec succ → r.admitLaunch
            { addr := rec, graph := false, early := G.early, dom := G.dom, issuer := G.issuer, origin := .none } (some (graph, walk))
              = (r', .open v) →
          exec (.kernelNode graph walk) s = .next
            (r'.modGraph graph fun G => { G with walks := put G.walks walk { node := n, st := .launched v succ } }))
        ∧ (∀ cmp signed addr y t f r' w, k = .cond cmp signed addr y t f → r.syncRead (ringWho G.dom [graph, walk, 2]) 1 addr 8 = (r', .ok w) →
          exec (.conditionalNode graph walk) s = .next
            (r'.takeEdges graph walk [if condHolds cmp signed (w64 (ofBytes w)) (w64 y) then t else f]))
        ∧ (∀ x succ r' w, r.nodeBusy n = false →
          let stores (off : Nat) : State := r.modGraph graph fun G =>
            { G with walks := put G.walks walk { node := n, st := .storing (n + off) x succ } }
          (k.loopStep = some (x, succ) → (stores 8).sync (ringWho G.dom [graph, walk, 1]) 2 (n + 8) (.write (toBytes 4 x)) = (r', .ok w) →
              exec (.loopNode graph walk) s = .next (r'.takeEdges graph walk succ))
          ∧ (k.joinStep = some (x, succ) → (stores 12).sync (ringWho G.dom [graph, walk, 1]) 2 (n + 12) (.write (toBytes 4 x)) = (r', .ok w) →
              exec (.joinNode graph walk) s = .next (r'.takeEdges graph walk succ))))
    ∧ (∀ cnt bound back out, Node.loopStep (.loop cnt bound back out) = some (if cnt + 1 < bound then (cnt + 1, [back]) else (0, [out])))
    ∧ (∀ deps arr succ, Node.joinStep (.join deps arr succ) = some (if arr + 1 = deps then (0, [succ]) else (arr + 1, [0])))
    ∧ (∀ addr x succ r' w, s.sync (ringWho G.dom [graph, walk, 1]) 2 addr (.write (toBytes 4 x)) = (r', .ok w) →
        (s.walkStores graph walk 8 = some (G, addr, x, succ) → exec (.loopNode graph walk) s = .next (r'.takeEdges graph walk succ))
        ∧ (s.walkStores graph walk 12 = some (G, addr, x, succ) → exec (.joinNode graph walk) s = .next (r'.takeEdges graph walk succ)))

/-- Dispatch: a stream reserves a quad for the next gang, commits it to cores, retries after a back-off, and its gang becomes resident once
its cores hold their turnstile; an operating point that is stable holds its launch no longer; a block whose groups have ended and whose work
is done ends, its gang retires with its last block, and its launch completes with its last gang (R15, R16, R18 to R20, R22, R24, R321).
Placing a gang makes its blocks resident, its groups at the entry, and moves its launch on; retiring one takes its blocks with their groups
and commands off; a completed launch is gone, and the host's register or the handle that started it has its status (R19, R24, R331, R334).
-/
def Obligations.Dispatch : Prop :=
  ∀ (s r : State) (n quad l blk : Nat) (st : DStream) (b : Block),
    (look s.ring.streams n = some st → n < 16 → s.nextGang st.launch = some st.gang → st.committed = false → st.quad = none →
        st.backoff = none → s.quadOk st quad = true → (s.ring.streams.find? fun e => e.1 != n && e.2.quad == some quad) = none →
        exec (.gangReserve n quad) s = .next (s.setRing { s.ring with streams := put s.ring.streams n { st with quad := some quad } }))
    ∧ (look s.ring.streams n = some st → st.quad = some quad → s.nextGang st.launch = some st.gang →
        ((s.launch? st.launch).bind fun L => look L.resv st.gang) = none →
        ∀ p, s.choosePlan (s.recOf st.launch) (s.uses (s.domOf st.launch) st.launch st.gang) quad = some p →
        exec (.gangCommit n) s = .next (s.next.setStream n { st with quad := none, plan := p, committed := true }))
    ∧ (∀ t, look s.ring.streams n = some st → st.backoff = some t →
        (s.now < t → exec (.gangBackoffRetry n) s = .next s)
        ∧ (t ≤ s.now → s.quadOk { st with backoff := none } (s.pick 96) = true →
            exec (.gangBackoffRetry n) s = .next (s.next.tryReserve n { st with backoff := none } (s.pick 96))))
    ∧ (∀ z, look s.ring.streams n = some st → st.committed = true → s.nextGang st.launch = some st.gang →
        s.clearBanks s (s.domOf st.launch) (st.plan.map Prod.fst) (s.ctxs.map Prod.fst) = (z, true) →
        z.loadTs (z.domOf st.launch) (st.plan.map Prod.fst) = (r, true) →
        exec (.blockPlacement n) s = .next ((r.dropStream n).placeGang st.launch st.gang st.plan))
    ∧ (∀ granted, s.ring.opReq = some l →
        Answers s (.operatingPointStable granted) fun u => u.ring.opPoint = BitVec.ofNat 4 granted
          ∧ ((s.launch? l).isSome = true → (u.launch? l).map Launch.opWait = some false) ∧ u.groups = s.groups ∧ u.mem = s.mem)
    ∧ (∀ gang plan, let u := s.placeGang l gang plan
        (∀ i p, plan[i]? = some p → ∃ id x, u.block? id = some x ∧ x.launch = l ∧ x.core = p.1 ∧ x.gang = s.ids ∧ x.gblk = i ∧ x.ended = false
            ∧ x.lsize = (s.recOf l).lmem ∧ x.live = x.groups ∧ x.groups.length = (s.recOf l).ngrp)
        ∧ (∀ L, s.launch? l = some L → (u.launch? l).map Launch.pos = some (if L.redo.contains gang then L.pos else L.pos + L.lr.ngang))
        ∧ (∀ p, plan = [p] → (s.recOf l).ngrp = 1 → ∃ slot id x, u.block? id = some x ∧ x.groups = [slot]
            ∧ u.group? slot = some ((s.recOf l).newGroup l id 0) ∧ slot / 256 = p.1))
    ∧ (∀ k K, s.gang? k = some K → (∀ x ∈ K.blocks, (s.block? x).isSome = true) → let u := s.retireGang k
        u.gang? k = none ∧ (∀ x ∈ K.blocks, u.block? x = none ∧ (∀ e ∈ u.cmds, e.2.block ≠ x) ∧ ∀ e ∈ u.groups, e.2.block ≠ x)
        ∧ (u.launch? K.launch).map Launch.gangsDone = (s.launch? K.launch).map fun L => L.gangsDone + 1)
    ∧ (∀ L, let u := s.completed L
        u.launch? L.serial = none
        ∧ (L.walk = none → L.origin = .host → (u.page L.dom).substat
            = w64 (((s.page L.dom).substat.toNat / 2 ^ 32 + 1) % 2 ^ 32 * 2 ^ 32 + L.status.toNat))
        ∧ ∀ core tag t, L.walk = none → get tagReset (s.core core).tags tag = t → L.origin = .tag core tag t.gen → t.owner.isSome = true → t.done = false →
            s.joiners core tag t.gen = [] → get tagReset (u.core core).tags tag
              = { t with cls := L.lr.cls + 1, done := true, status := L.status.zeroExtend 64, taddr := 0 })
    ∧ ∀ K, s.block? blk = some b → b.live = [] → s.quiet blk b = true → (s.ctx (s.domOf b.launch)).pre = none → s.gang? b.gang = some K →
        let s' := s.modBlock blk fun b => { b with ended := true }
        (∀ m B, m ∈ K.blocks → m ≠ blk → s.block? m = some B → B.ended = false → exec (.blockEnd blk) s = .next s')
        ∧ ∀ L, K.blocks = [blk] → s.launch? b.launch = some L →
            (s'.lastGang b.gang L = false → exec (.blockEnd blk) s = .next (s'.retireGang b.gang))
            ∧ (s'.lastGang b.gang L = true → s'.updateWord L = (r, true) →
                exec (.blockEnd blk) s = .next ((r.retireGang b.gang).completed L))

/-! ## Events of homes and requests -/

/-- A request that a home's memory queue grants is redirected where its map is older than the controller's or the unit is not the one its
home is mapped to, answered busy where the home is held, and else served: its reply starts back with what it read, by way of copies of its
page or of replicas if it must wait for them; a store whose words its sector keeps takes them home. A reply waits at its unit for room on its
way back. A running clear goes one line further: zeros stand in that line (R220, R221, R228, R230, R233, R234, R235, R306). -/
def Obligations.HomeService : Prop :=
  ∀ (s r : State) (u k h : Nat) (p : Packet) (x : Clear) (la l : Nat),
    (s.arbitrate (.homeMem u) (s.servable u) = some (r, k, p) → p.phase = .going → (∀ id, p.own ≠ .stream id) →
        ((genOlder p.smgen r.fw.smgen = true ∨ unitOf r.fw p.home ≠ u) →
          exec (.homeRequestService u) s = .next (r.replyTo u k (.nrRedirect r.fw.smgen)))
        ∧ (genOlder p.smgen r.fw.smgen = false → unitOf r.fw p.home = u →
          ((r.home p.home).hold = true → exec (.homeRequestService u) s = .next (r.replyTo u k .nrBusy))
          ∧ ((r.home p.home).hold = false → exec (.homeRequestService u) s = .next (r.serveAt u k p false)
            ∧ ∀ r' t v, r.checkIn p.home p = (r', .leaf la l) → leafAper l = 1 → r'.waitsForReplicas l p = false →
                r'.next.keepsInSector u l p = false → p.acq = false →
                (r'.next.next.flushRsc (coreSector p.core) (sameLine p.addr)).perform p.home la l p = (t, v) →
                ∃ w, exec (.homeRequestService u) s = .next (w.replyTo u k v)
                  ∧ (p.kind = .store → w = (t.dropInSector p).settleL1 p)
                  ∧ (∀ op, p.kind = .atom op → w = (t.dropInSector p).dropInCore p))))
    ∧ (∀ a b, s.arbitrate (.homeMem u) (s.servable u) = some (r, k, p) → p.phase = .kept a b → p.dev = r.fw.dev →
        exec (.homeRequestService u) s = .next (r.flushRsc (coreSector p.core) (sameLine p.addr)))
    ∧ (∀ v, s.arbitrate (.homeMem u) (s.servable u) = some (r, k, p) → p.phase = .ready v →
        exec (.homeRequestService u) s = .next (r.replyTo u k v))
    ∧ (∀ v, s.packet? k = some p → (s.replyTo u k v).packet? k = some (if s.roomAt (routeBack p.core u) then
        { p with phase := .back v, route := routeBack p.core u } else { p with phase := .ready v, route := [.homeMem u] }))
    ∧ (s.packet? k = some p → p.phase = .leaf →
        (s.leavesShared p = true → exec (.leafStore k) s = .next (s.modPacket k fun p => { p with phase := .replica }))
        ∧ (s.leavesShared p = false → exec (.leafStore k) s = .next (s.serveAt p.unit k p true)
            ∧ ∀ r' t vs, s.checkIn p.home p = (r', .struct) → p.acq = false → p.kind = .store → r'.structLanes p.home p p.lanes = (t, vs) →
                exec (.leafStore k) s = .next ((t.settleL1 p).replyTo p.unit k (.ok vs 0))))
    ∧ (s.packet? k = some p → p.phase = .replica → exec (.replicaInvalidation k) s = .next (s.serveAt p.unit k p true)
        ∧ ∀ r', s.checkIn p.home p = (r', .leaf la l) → leafAper l = 1 →
            exec (.replicaInvalidation k) s = .next (r'.next.performAt p.unit k p la l))
    ∧ ((s.home h).clears = [x] → s.leafOf h (x.page * 65536) = some (la, l) →
        exec (.unscrubbedClearLine h) s = .next (s.next.clearLine h x l)
        ∧ ∀ kk, x.next ∉ x.written → physKey h l (x.page * 65536 + 64 * x.next) = some kk → x.next + 1 < 1024 →
            Answers s (.unscrubbedClearLine h) fun u =>
              u.mem = (s.mem.store kk (List.replicate 64 0)).keepSlice (fun y => lineOf y != x.page * 65536 + 64 * x.next)
              ∧ (u.home h).clears = [{ x with next := x.next + 1 }] ∧ u.groups = s.groups)

/-- What a requester does with a negative reply: a fault is waited for, or met as it was resolved; a stale key is checked anew once, a busy
home waited for and the request replayed, a redirected request replayed under the current map, a signalled one replayed or failed, an error
response fails the access in the packet's lanes; a prefetch is dropped. A replay waits for room in its core's queue (R212, R213, R221, R229,
R230, R262, R267, R306). -/
def Obligations.NegativeReplies : Prop :=
  ∀ (s : State) (k h q g id t : Nat) (p : Packet) (gen : W16), s.packet? k = some p →
    ((∀ b, p.kind ≠ .pref b) → p.phase = .landed (.nrFault h q) →
        (look (s.home h).resolved q = none → exec (.nrFault k) s = .next (s.modPacket k fun p => { p with phase := .faulted h q }))
        ∧ ∀ fail, look (s.home h).resolved q = some fail →
          exec (.nrFault k) s = .next (s.modPacket k fun p => { p with phase := .signalled fail }))
    ∧ (∀ b, p.kind = .pref b → p.phase = .landed (.nrFault h q) → exec (.nrFault k) s = .next (s.dropPacket k))
    ∧ (p.phase = .landed .nrKey → p.own = .access g id →
        (p.keyTries ≠ 0 → exec (.nrKey k) s = .next (s.failPacket k p 5))
        ∧ (p.keyTries = 0 → get 0 (s.core p.core).reloads p.dom ≠ p.checkedAt →
          s.coreCheck p.core (s.grpOf g).launch p.acc p.addr = none → exec (.nrKey k) s = .next (s.failPacket k p 4)))
    ∧ (∀ key, p.phase = .landed .nrKey → p.own = .access g id → p.keyTries = 0 → get 0 (s.core p.core).reloads p.dom ≠ p.checkedAt →
        s.coreCheck p.core (s.grpOf g).launch p.acc p.addr = some key →
        exec (.nrKey k) s = .next ((s.modPacket k fun x =>
          { x with key := key, keyTries := 1, checkedAt := get 0 (s.core p.core).reloads p.dom }).replay k))
    ∧ (p.phase = .landed .nrBusy → Answers s (.nrBusy k) fun u => (u.packet? k).map Packet.phase = some (.busy s.busyUntil)
        ∧ s.now + 32 * Config.cycle ≤ s.busyUntil ∧ s.busyUntil ≤ s.now + 255 * Config.cycle)
    ∧ (p.phase = .busy t → (s.now < t → exec (.nrBusyReplay k) s = .next s) ∧ (t ≤ s.now → exec (.nrBusyReplay k) s = .next (s.replay k)))
    ∧ (p.phase = .landed (.nrRedirect gen) →
        (genOlder (s.core p.core).smgen gen = true → exec (.nrRedirect k) s = .next (s.modPacket k fun p => { p with phase := .redirected gen }))
        ∧ (genOlder (s.core p.core).smgen gen = false → exec (.nrRedirect k) s = .next (s.replay k)))
    ∧ (p.phase = .signalled false → exec (.faultResolvedSignal k) s = .next (s.replay k))
    ∧ ((s.replay k).packet? k = some (if s.hasRoom p.core p.lanes then
        { p with phase := .going, route := s.reroute p, smgen := (s.core p.core).smgen, born := s.now, remote := none, told := false
                 mark := s.acqMark p.core } else { p with phase := .signalled false }))
    ∧ (p.phase = .signalled true → exec (.faultResolvedSignal k) s = .next (s.failPacket k p 5))
    ∧ (p.phase = .landed .err → p.late = false → exec (.errorResponse k) s = .next (s.failPacket k p 5))
    ∧ (p.own = .none → p.kind ≠ .store → ∀ c, s.failPacket k p c = s.dropPacket k)
    ∧ ∀ a c, p.own = .access g id → p.kind ≠ .store → (s.grpOf g).access? id = some a → (s.grpOf g).arms ≠ [] → p.lanes ≠ [] →
        s.failPacket k p c = (s.dropPacket k).failLanes g id c p.lanes
        ∧ ∃ b, ((s.failPacket k p c).grpOf g).access? id = some b ∧ b.waits = a.waits &&& ~~~ lanesOf (p.lanes.map LaneReq.lane)
          ∧ ∀ l ∈ p.lanes.map LaneReq.lane, (look b.fails l).isSome = true

/-- The slice map: the controller moves a home within its sector, with a new generation, once every core has the last; each core takes the
current map; a retired unit's homes move whole, are held and emptied, and are served again after the takeover; a core reloads a turnstile
whose generation has been stored (R220, R221, R235, R236, R333). -/
def Obligations.SliceMap : Prop :=
  ∀ (s r : State) (home unit t core d : Nat) (ds : List Nat) (b : List Byte),
    (home < 192 → unit < 192 → unitSector home = unitSector unit → s.fw.retired.contains unit = false → s.allInstalled = true →
        s.fw.retiring = none → unitOf s.fw home ≠ unit →
        exec (.sliceMapChange home unit) s
          = .next (s.setFw { s.fw with smap := put s.fw.smap home unit, smgen := s.fw.smgen + 1 }))
    ∧ (core < 384 → Answers s (.sliceMapInstall core) fun u => (u.core core).smgen = s.fw.smgen ∧ (u.core core).smap = s.fw.smap
        ∧ (∀ k, k ≠ core → u.core k = s.core k) ∧ { u with cores := s.cores } = s)
    ∧ (home < 192 → unit < 192 → home ≠ unit → unitSector home = unitSector unit → s.fw.retired = [] → s.fw.retiring = none →
        s.allInstalled = true → s.net.packets = [] →
        let hs := s.homesOf home
        Answers s (.unitRetirement home unit) fun u =>
          u = ((hs.foldl (fun s h => s.modHome h fun hm => { hm with hold := true })
            ((s.assign hs unit).setFw { (s.assign hs unit).fw with retiring := some (home, unit) })).emptyUnit home hs).refault hs)
    ∧ (s.fw.retiring = some (unit, t) → Answers s (.retirementTakeover t) fun u => u.fw.retiring = none ∧ u.fw.retired = unit :: s.fw.retired
        ∧ (∀ h ∈ s.homesOf t, (u.home h).hold = false) ∧ u.groups = s.groups ∧ u.mem = s.mem)
    ∧ (s.staleTs core = d :: ds → s.readImage core d = (r, .ok b) → exec (.turnstileReload core) s = .next (r.setTs core d b true))

/-! ## Events of the network -/

/-- The slack clock: 2 ns go by; a packet held in a queue, in service or for a replay loses 1 of a finite field and is late at 0; one whose
reply has landed, or that a requester keeps between two reads, keeps it, and a background packet keeps its field (R304, R305). -/
def Obligations.SlackClock : Prop :=
  ∀ s : State, Answers s .slackClockTick fun u => u.now = s.now + 14 ∧ u.groups = s.groups ∧ u.mem = s.mem
    ∧ u.net.packets.map Prod.fst = s.net.packets.map Prod.fst
    ∧ (∀ k p, look s.net.packets k = some p → (p.phase.moves = true → p.route ≠ []) → (∀ v, p.phase ≠ .landed v) →
        (∀ t, p.phase ≠ .polling t) → (∀ a l, p.phase ≠ .kept a l) → p.phase ≠ .remote → p.phase ≠ .near →
        (∀ sid c x b l, p.phase ≠ .beat sid c x b l) → p.field ≠ 0xFFF →
        u.packet? k = some { p with field := p.field - 1, late := p.late || p.field ≤ 1 })
    ∧ (∀ k p, look s.net.packets k = some p → ((∃ v, p.phase = .landed v) ∨ (∃ t, p.phase = .polling t) ∨ ∃ a l, p.phase = .kept a l) →
        u.packet? k = some p)
    ∧ (∀ k p, look s.net.packets k = some p → p.field = 0xFFF → (∀ sid c x b l, p.phase ≠ .beat sid c x b l) → u.packet? k = some p)
    ∧ u.net.holds = s.net.holds.map fun h => if h.phase = .remote ∨ h.field = 0xFFF then h
        else { h with field := h.field - 1, late := h.late || h.field ≤ 1 }

/-- `PACKET_GRANT`: the packet a point grants goes on to the next point of its route, and a reply at the last has landed; from its core it
leaves, or is answered by the copies there; one that no copy can answer goes on under the core's map (R221, R299, R300, R306).
`PACKET_LIFETIME_EXPIRY`: a request for another device held 32 µs is discarded, its access still unanswered (R315). -/
def Obligations.PacketMoves : Prop :=
  ∀ (s r : State) (n k c : Nat) (pt : Point) (p : Packet),
    (s.points[n]? = some pt → s.arbitrate pt (s.grantable pt) = some (r, k, p) → (∀ c, pt ≠ .core c) →
        exec (.packetGrant n) s = .next (r.hop k p))
    ∧ (s.points[n]? = some (.core c) → s.arbitrate (.core c) (s.grantable (.core c)) = some (r, k, p) →
        exec (.packetGrant n) s = .next (r.leaveCore k p))
    ∧ (∀ y x l, p.route = y :: x :: l → p.splitsAt = none → s.hop k p = s.modPacket k fun p => { p with route := x :: l })
    ∧ (∀ y v, p.phase = .back v → p.route = [y] → s.hop k p = s.modPacket k fun p => { p with phase := .landed v, route := [] })
    ∧ (s.l1Hit p = false → s.rscHit p = false → p.rel = false → p.kind ≠ .store →
        s.leaveCore k p = (s.next.modPacket k fun _ => s.next.stamped p).hop k (s.next.stamped p))
    ∧ (∀ t out sid c x b l, p.phase = .beat sid c x b l → p.route = [.xbar t out] →
        s.hop k p = s.beatLands k (8 * t + (out - 32)) sid c x b l p.late)
    ∧ (∀ y t out sid c x b l, p.phase = .beat sid c x b l → p.route = [y, .xbar t out] →
        s.hop k p = (s.setNet { s.net with packets := del s.net.packets k }).sendPackets (s.atCrossbar t p.home sid c x b l p.late))
    ∧ (s.packet? k = some p → p.dev ≠ s.fw.dev → p.phase = .going → (∀ c, p.route.head? ≠ some (.core c)) → p.born + 32 * 7000 ≤ s.now →
        s.idFree = true →
        Answers s (.packetLifetimeExpiry k) fun u => (u.packet? k).map Packet.phase = some .remote ∧ u.groups = s.groups ∧ u.mem = s.mem
          ∧ (∃ q, look u.fab.reqs s.freeId = some q ∧ q.sends = 4 ∧ q.for_ = .packet k))

/-! ## Events of the fabric -/

/-- Link reliability: an acknowledgement drops the flits up to the one it names, a negative one sends that one and those after it again,
as a timeout of 1 µs does; a link that fails to retrain goes down; pauses stop every class but 1; flits in sequence are accepted, others
open a gap, with one negative acknowledgement that names the flit expected; accepted flits are acknowledged with the 64th and within 100 ns,
by the number of the last (R311, R312). What an acknowledgement names, and where a flit stands on the wire, are the model's choices
(assumption 49). -/
def Obligations.Links : Prop :=
  ∀ (s : State) (l seq i cls : Nat) (good : Bool) (body : FlitBody),
    let k := s.link l
    (k.up = true → k.place seq = some i → exec (.linkAck l seq) s = .next (s.modLink l fun k =>
        { k with unacked := k.unacked.drop (i + 1), resends := 0, sentAt := s.now }))
    ∧ (k.up = true → k.place seq = some i → Answers s (.linkNak l seq) fun u =>
        (u.link l).unacked = k.unacked.drop i ∧ (u.link l).resends = (if i = 0 then k.resends else 0) + 1 ∧ (u.link l).sentAt = s.now)
    ∧ (k.up = true → k.unacked ≠ [] → k.sentAt + 7000 ≤ s.now → k.resends < 8 → exec (.linkAckTimeout l) s
        = .next (s.modLink l fun k => { k with resends := k.resends + 1, sentAt := s.now }))
    ∧ (l < 18 → k.up = true → 8 ≤ k.resends → Answers s (.linkRetrain l false) fun u => (u.link l).up = false ∧ (u.link l).unacked = [])
    ∧ (cls ≠ 1 → cls < 4 → Answers s (.pauseFrame l cls true) fun u => (u.link l).paused.contains cls = true)
    ∧ exec (.pauseFrame l 1 true) s = .next s
    ∧ (k.up = true → seq = k.expect → exec (.flitReceive l seq true body) s = .next (((s.modLink l fun k =>
        if k.sinceAck < 63 then { k with expect := (k.expect + 1) % 4096, gapNaked := false, sinceAck := k.sinceAck + 1 }
        else { k with expect := (k.expect + 1) % 4096, gapNaked := false, sinceAck := 0, ackAt := s.now
                      lastAck := some (false, ((k.expect + 1) % 4096 + 4095) % 4096) }).accept l body).paces l))
    ∧ (k.up = true → seq ≠ k.expect ∨ good = false → exec (.flitReceive l seq good body) s = .next (s.modLink l fun k =>
        if k.gapNaked then k else { k with gapNaked := true, lastAck := some (true, k.expect) }))
    ∧ (k.sinceAck ≠ 0 → k.ackAt + 700 ≤ s.now → exec (.ackInterval l) s = .next ((s.paces l).modLink l fun k =>
        { k with sinceAck := 0, ackAt := s.now, lastAck := some (false, (k.expect + 4095) % 4096) }))
    ∧ ∀ c, ((s.paces l).link l).pausing.contains c = true ↔ (c = 0 ∨ c = 2) ∧ Config.inboxRoom ≤ s.waitingIn c

/-- Requests between devices: a write or atomic already performed is answered from its record, and one that has been passed on and not been
answered yet is not performed again; a request to a frame is performed in memory and answered, a write once, its reply recorded; a request to
a home of this device is performed there and answered; an answer keeps the request's slack and mark, and a command's read comes as a message
(R307, R316); records are freed after 64 µs; a message is counted once; a request without reply is sent again after 8 µs and fails after four
sends, over another link where one is open; an id is free again after 128 µs (R231, R313, R314, R316, R358). -/
def Obligations.RemoteRequests : Prop :=
  ∀ (s : State) (src id addr dom key req : Nat) (x : Carry) (y : Ret) (op : RemOp) (d : Dedupe) (q : RemReq) (off total : Nat)
      (bytes : List Byte) (bad : List Nat),
    (op.storing = true → (s.fab.dedupe.find? fun d => d.src == src && d.id == id) = some d →
        exec (.remoteWriteReceive src id false addr dom ⟨key, x⟩ op) s = .next (s.sendTo src (.reply id (retOf x) d.reply [])))
    ∧ (op.storing = true → (s.fab.dedupe.find? fun d => d.src == src && d.id == id) = none → s.passedOn src id none = true →
        exec (.remoteWriteReceive src id false addr dom ⟨key, x⟩ op) s = .next s)
    ∧ (∀ n, op = .read n → (x.acc = 5 → s.noRoom src 2 = false) →
        exec (.remoteWriteReceive src id true addr dom ⟨key, x⟩ op) s
          = .next ((s.physParts [(addr, .read n)]).1.answerTo src id (retOf x) false (x.acc == 5)
              (.done (s.physParts [(addr, .read n)]).2 [])))
    ∧ (op = .write bytes → (s.fab.dedupe.find? fun d => d.src == src && d.id == id) = none → s.passedOn src id none = false →
        s.fab.dedupe.length < Config.dedupeCap →
        exec (.remoteWriteReceive src id true addr dom ⟨key, x⟩ op) s
          = .next ((((s.physParts [(addr, .write bytes)]).1.record src id (s.physParts [(addr, .write bytes)]).2)).sendTo src
              (.reply id (retOf x) (s.physParts [(addr, .write bytes)]).2 [])))
    ∧ (∀ h r b, ((∃ n, op = .read n ∧ (x.acc = 5 → s.noRoom src 2 = false)) ∨ (op = .write bytes ∧ s.passedOn src id none = false
          ∧ (s.fab.dedupe.find? fun d => d.src == src && d.id == id) = none ∧ s.fab.dedupe.length < Config.dedupeCap)) →
        homeOf s.fw addr = some (s.fw.dev, h) →
        s.outsideServe src h (outsidePacket s x op addr h dom key) op.atomic (op.parts addr) = (r, .done b bad) →
        exec (.remoteWriteReceive src id false addr dom ⟨key, x⟩ op) s
          = .next (r.answerTo src id (retOf x (r.rmostAt addr)) op.storing (engineRead x op) (.done b bad)))
    ∧ (retOf x).field = x.field ∧ (retOf x).late = x.late
    ∧ s.answerTo src id y false false (.done bytes bad) = s.sendTo src (.reply id y bytes bad)
    ∧ s.answerTo src id y true false (.done bytes []) = (s.record src id bytes).sendTo src (.reply id y bytes [])
    ∧ (0 < bytes.length → bytes.length ≤ 256 →
        s.answerTo src id y false true (.done bytes []) = s.sendTo src (.data id y 0 bytes.length bytes []))
    ∧ (Answers s .dedupeEntryExpiry fun u => u.fab.dedupe = s.fab.dedupe.filter (fun d => s.now < d.at_ + 64 * 7000) ∧ u.mem = s.mem
        ∧ u.groups = s.groups)
    ∧ ((s.fab.dedupe.find? fun d => d.src == src && d.id == id) = some d →
        exec (.messagePacketReceive src id true addr dom ⟨key, x⟩ off total bytes) s
          = .next (s.sendTo src (.reply id (retOf x) d.reply [])))
    ∧ (∀ s', (s.fab.dedupe.find? fun d => d.src == src && d.id == id) = none → s.passedOn src id (some off) = false →
        s.openMessage src id total = some s' →
        exec (.messagePacketReceive src id true addr dom ⟨key, x⟩ off total bytes) s
          = .next ((s'.physParts [(addr, .write bytes)]).1.countUnit src id off bytes.length total (retOf x)))
    ∧ (look s.fab.reqs req = some q → s.hold? (q.for_.holdKey req) = none → q.done = none → q.failed = false → unsent q.body = 0 →
        (s.now < q.sentAt + 8 * 7000 → exec (.remoteResendTimeout req) s = .next s)
        ∧ (q.sentAt + 8 * 7000 ≤ s.now → 4 ≤ q.sends → exec (.remoteResendTimeout req) s = .next (s.gotError none req retNone))
        ∧ (q.sentAt + 8 * 7000 ≤ s.now → q.sends < 4 → s.noRoom q.dest (flitCls q.body) = false →
            exec (.remoteResendTimeout req) s = .next (s.sendAgain req q)
            ∧ ∀ l, q.link = some l → (∃ e ∈ s.openLinks q.dest (flitCls q.body), e ≠ l) →
                (look (s.sendAgain req q).fab.reqs req).map (fun r => (r.sends, r.sentAt, r.link == some l)) = some (q.sends + 1, s.now, false)))
    ∧ (∀ u rest, s.fab.used = u :: rest → u.2 + 128 * 7000 ≤ s.now → s.net.packets = [] →
        exec .requestIdReuse s = .next (s.setFab { s.fab with used := rest }))

/-! ## Events of the host port and of the second tier -/

/-- Host accesses: a posted write to the host's own memory stands there, behind the write-back of the device's words of host memory unless
it is relaxed; a read of the register page is answered from it; an AtomicOp gets an Unsupported Request; `KLEN` and `KBASE` take what is
written (R279, R285, R287, R318, R334; whose access it counts as is assumption 26, how reserved bits of the page read is assumption 73). -/
def Obligations.HostAccesses : Prop :=
  ∀ (s : State) (n dom off len pa addr : Nat) (x : W64) (relaxed : Bool) (b : List Byte), (s.hstream n).posted = [] →
    (b ≠ [] →
      let s1 := s.next.modHStream n fun h => { h with posted := h.posted ++ [{ seq := s.ids, relaxed := relaxed, dst := .own pa, bytes := b }] }
      let z := if relaxed then s1 else s1.flushHost
      Answers s (.hostPostedWrite n relaxed (.own pa) b) fun u => getRange 0 u.mem.phys (13 * 2 ^ 64 + pa) b.length = b
        ∧ (∀ k, (k < 13 * 2 ^ 64 + pa ∨ 13 * 2 ^ 64 + pa + b.length ≤ k) → get 0 u.mem.phys k = get 0 z.mem.phys k)
        ∧ (u.hstream n).posted = [] ∧ u.groups = s.groups)
    ∧ ((s.hstream n).reads = [] → len ≠ 0 → Answers s (.hostReadRequest n (.page dom off) len) fun u =>
        (∃ y, u.host.replies = s.host.replies ++ [(n, some y)] ∧ y.length = min len (4096 - off)
          ∧ (off = 0 → len = 32 → y = bytes64 (s.page dom).kbase ++ bytes64 (s.page dom).klen ++ bytes64 (s.page dom).kop
              ++ bytes64 (s.page dom).kstat)) ∧ (u.hstream n).reads = []
          ∧ u.mem = s.mem ∧ u.groups = s.groups)
    ∧ (exec (.hostAtomicopRequest n addr) s = .next (s.setHost { s.host with replies := s.host.replies ++ [(n, none)] }))
    ∧ (Answers s (.hostRegisterWrite ⟨dom, n⟩ true x) fun u => (u.page dom).klen = x ∧ (u.page dom).kbase = (s.page dom).kbase
        ∧ (u.hstream n).posted = [] ∧ u.groups = s.groups)
    ∧ Answers s (.hostRegisterWrite ⟨dom, n⟩ false x) fun u => (u.page dom).kbase = x ∧ (u.page dom).klen = (s.page dom).klen
        ∧ (u.hstream n).posted = [] ∧ u.groups = s.groups

/-- Kicks: a write of `KOP`, once those of its stream before it have been performed, starts the kick of its code where the page's registers
are in order, completes at once over no bytes, and with registers out of order sets the error bit; while one is in flight a write is
ignored; a kick completes when nothing it waits for is left (R287, R288). -/
def Obligations.Kicks : Prop :=
  ∀ (s : State) (dom st : Nat) (x : W64) (op : BitVec 3) (due : List Nat),
    let p := s.page dom
    let o := bits x.toNat 0 3
    let i : Instr := if o = 1 then .flush dom st x else if o = 2 then .inval dom st x else if o = 3 then .tohost dom st x else .todev dom st x
    ((s.hstream st).posted = [] →
      (p.kick = none → kickOk p.kbase.toNat p.klen.toNat x.toNat = true →
          Answers s i fun u => (u.page dom).kop = x ∧ (u.hstream st).posted = [] ∧ u.groups = s.groups
            ∧ (bits p.klen.toNat 0 40 ≠ 0 → (u.page dom).kick = some (BitVec.ofNat 3 o, []))
            ∧ (bits p.klen.toNat 0 40 = 0 → (u.page dom).kick = none ∧ (u.page dom).kstat = kstatOf false x))
      ∧ (p.kick = none → kickOk p.kbase.toNat p.klen.toNat x.toNat = false →
          Answers s i fun u => (u.page dom).kstat = kstatOf true x ∧ (u.page dom).kick = none ∧ (u.hstream st).posted = [] ∧ u.groups = s.groups)
      ∧ (p.kick.isSome = true → Answers s i fun u => u.page dom = p ∧ (u.hstream st).posted = [] ∧ u.groups = s.groups))
    ∧ (p.kick = some (op, due) → s.kickWaits op due p.kbase.toNat (bits p.klen.toNat 0 40) = true → exec (.kickCompletion dom) s = .next s)
    ∧ (p.kick = some (op, due) → s.kickWaits op due p.kbase.toNat (bits p.klen.toNat 0 40) = false →
        Answers s (.kickCompletion dom) fun u => (u.page dom).kick = none ∧ (u.page dom).kstat = kstatOf false (u.page dom).kop)

/-- Submissions and stopping: a value that names a record or a node joins the ringmaster's queue once the writes of its stream before it
have been performed, and waits while the queue is full (assumption 46); `STOP` of 1 marks a domain as being stopped, another value has no
effect; an expander silent for 10 µs gives poisoned data, and a store there an error; a CXL port goes down and comes back (R285, R319, R334,
R345). -/
def Obligations.Submissions : Prop :=
  ∀ (s : State) (dom st port k t : Nat) (x : W64) (p : Packet),
    ((s.hstream st).posted = [] →
      (x.toNat % 128 = 0 → x.toNat < 2 ^ 57 →
        (s.ring.queue.length < 1024 → Answers s (.submitLaunch ⟨dom, st⟩ x) fun u => u.ring.queue = s.ring.queue ++
            [{ addr := x.toNat, graph := false, early := true, dom := dom, issuer := 0, origin := .host }]
          ∧ (u.hstream st).posted = [] ∧ u.groups = s.groups)
        ∧ (1024 ≤ s.ring.queue.length → Answers s (.submitLaunch ⟨dom, st⟩ x) fun u => u.ring.queue = s.ring.queue
          ∧ (u.hstream st).posted ≠ [] ∧ u.groups = s.groups))
      ∧ (x.toNat % 64 = 1 → x.toNat < 2 ^ 57 → s.ring.queue.length < 1024 →
        Answers s (.submitGraph ⟨dom, st⟩ x) fun u => u.ring.queue = s.ring.queue ++
            [{ addr := x.toNat - 1, graph := true, early := true, dom := dom, issuer := 0, origin := .host }]
          ∧ (u.hstream st).posted = [] ∧ u.groups = s.groups)
      ∧ ((s.page dom).tstat.getLsbD 0 = false →
        Answers s (.stop ⟨dom, st⟩ 1) fun u => (u.ctx dom).stopping = true ∧ (u.hstream st).posted = [] ∧ u.groups = s.groups))
    ∧ (x ≠ 1 → exec (.stop ⟨dom, st⟩ x) s = .next (s.stopStep dom) ∧ ((s.ctx dom).stopping = false → exec (.stop ⟨dom, st⟩ x) s = .next s))
    ∧ (s.packet? k = some p → p.phase = .silent t → (s.now < t + 10 * 7000 → exec (.cxlResponseTimeout k) s = .next s)
        ∧ ∀ s' la l, t + 10 * 7000 ≤ s.now → s.checkIn p.home p = (s', .leaf la l) →
            exec (.cxlResponseTimeout k) s = .next (if p.kind = .store then (s'.unanswered p).replyTo p.unit k .err
              else (s'.unanswered p).performAt p.unit k p la l))
    ∧ (port < 8 → Answers s (.cxlPortDown port false) (fun u => port ∈ u.fw.cxlDown ∧ u.groups = s.groups ∧ u.mem = s.mem)
        ∧ Answers s (.cxlPortDown port true) fun u => port ∉ u.fw.cxlDown ∧ u.groups = s.groups ∧ u.mem = s.mem)

/-! ## Tenancy and bring-up -/

/-- The safety net: a domain's budget is charged a unit for each microsecond that each of its blocks has stood since it was charged last,
and its copies are held once it is spent; a positive budget ends its suspension; a checkpoint that is due is taken once no write is
outstanding, empties the log and leaves the context enclosed; an enclosed context is rolled back: its undo records are applied, and nothing
of it is left on the cores; an exposed one is saved by its handlers; a handler that outlasts 1 ms is halted (R292, R335, R338 to R341). A
context that was saved is restored when it fits, its pre-emption over; a group saved in its handler starts at its trap vector with `DETAIL`
1, another goes on where it stood (R42, R44, R337, R340). When a restore fits, and its order, are the model's choices (assumptions 43 and
44). -/
def Obligations.SafetyNet : Prop :=
  (∀ (s : State) (dom g n : Nat) (h : InTrap) (pre : Preempted),
      (s.domDues dom = 0 → exec (.budgetTick dom) s = .next s)
      ∧ (s.domDues dom ≠ 0 → exec (.budgetTick dom) s = .next ((s.markPaid dom).charge dom (s.domDues dom)))
      ∧ s.domDues dom = ((s.domBlocks dom).map fun e => s.dues e.1).sum
      ∧ (∀ b B, s.block? b = some B → s.dues b = (s.now - B.paid) / 7000
          ∧ (s.ofDom dom B.launch = true → (s.markPaid dom).block? b = some { B with paid := B.paid + 7000 * ((s.now - B.paid) / 7000) }))
      ∧ (s.budget dom ≤ n → ((s.charge dom n).ctx dom).suspended = true)
      ∧ ((s.ctx dom).suspended = true → 0 < s.budget dom →
          exec (.budgetResume dom) s = .next (s.modCtx dom fun c => { c with suspended := false }))
      ∧ (s.ckDue dom = true → s.writesOut dom = false → exec (.checkpoint dom) s = .next (s.performAll.checkpointNow dom))
      ∧ (let u := s.checkpointNow dom
         (u.ctx dom).ckpt.isSome = true ∧ (u.ctx dom).undo = [] ∧ (u.ctx dom).logPos = 0 ∧ (u.ctx dom).exposed = false
          ∧ ((∀ q ∈ s.quads, q.2.qau = []) → u = s.setCtxs u.ctxs ∧ (u.ctx dom).ckpt = some (s.capture dom) ∧ (u.ctx dom).ckAt = s.now))
      ∧ ((s.ctx dom).pre = none → (s.ctx dom).ckpt.isSome = true → (s.ctx dom).stopping = false →
          exec (.preemption dom) s = .next (if (s.ctx dom).exposed
            then (s.modCtx dom fun c => { c with pre := some { since := s.now, why := 1, saved := none, imaged := false } }).saveTraps dom
            else s.rollback dom 1))
      ∧ ((s.ctx (s.domOf (s.grpOf g).launch)).pre = some pre → pre.saved = none → (s.grpOf g).inTrap = some h → (s.grpOf g).preempt = none →
          pre.since + 1000 * 7000 ≤ s.now → Answers s (.preemptionHandlerTimeout g) fun u => (u.grpOf g).arms = []))
  ∧ (∀ (s : State) (dom why a la l k : Nat) (h : Nat) (x : Byte) (ck : Ckpt), (s.ctx dom).ckpt = some ck →
      let u := s.rollback dom why
      (∃ p, (u.ctx dom).pre = some p ∧ p.why = why ∧ p.saved = some ck ∧ p.imaged = false)
      ∧ (u.ctx dom).undo = [] ∧ (u.ctx dom).logPos = 0 ∧ (u.ctx dom).exposed = false
      ∧ (∀ g, (look (s.domGroups dom) g).isSome = true → u.group? g = none)
      ∧ (∀ b, (look (s.domBlocks dom) b).isSome = true → u.block? b = none)
      ∧ (∀ i c, u.cmd? i = some c → c.dom ≠ dom)
      ∧ (let v := (s.offload dom).setMem ((s.offload dom).mem.keepL1 fun y _ => !(s.storeWords dom).contains y)
         u.mem = (((v.ctx dom).undo.foldl (fun s e => s.restoreByte e.1 e.2) v)).mem)
      ∧ (homeOf s.fw a = some (s.fw.dev, h) → s.readStruct h a 1 = none → s.leafOf h a = some (la, l) → physKey h l a = some k →
          look s.mem.slice a = none → get 0 (s.restoreByte a x).mem.phys k = x))
  ∧ (∀ (s t z r u : State) (dom : Nat) (pre : Preempted) (ck : Ckpt), (s.ctx dom).pre = some pre → pre.saved = some ck → pre.imaged = false
      → (s.ctx dom).stopping = false → s.restored dom ck = some t → s.clearBanks t dom (t.coresOf dom) (s.ctxs.map Prod.fst) = (z, true)
      → z.loadTs dom (t.coresOf dom) = (r, true) → r.restored dom ck = some u →
      exec (.contextRestore dom) s = .next (u.modPage dom fun p => { p with tstat := p.tstat &&& ~~~ 1#64 }))
  ∧ (∀ (s t : State) (dom b : Nat) (ck : Ckpt) (r r' : Restore) (B : Block) (p : Nat × Nat) (G : Group) (i : InTrap),
      (s.restored dom ck = some t → (t.ctx dom).pre = none ∧ (t.ctx dom).stopping = false ∧ (t.ctx dom).ckpt.isSome = true
        ∧ (t.ctx dom).undo = [])
      ∧ (r.block ck dom b B p = some r' →
          (r'.s.block? b).map (fun x => (x.core, x.launch, x.gang, x.lin)) = some (p.1, B.launch, B.gang, B.lin))
      ∧ (G.preempt = none → (∀ p ∈ G.arms, p.trap = none) →
          G.again = { G with accs := G.accs.filter fun a => a.kind != .store && a.kind != .red })
      ∧ (G.preempt.isSome = true → G.inTrap = some i → i.arm < G.arms.length →
          (G.again.armOf i.arm).pc = G.tvec ∧ G.again.tcause = 0x010C ∧ G.again.tpc = G.tpc ∧ G.again.preempt = none
          ∧ get 0 G.again.k 31 = w64 i.frame ∧ (G.again.inTrap.map InTrap.frame) = some i.frame))

/-- Device reset leaves every register, slot, tile, launch and context as after reset, and what the memories below the homes hold (assumption
47); bring-up writes the tables, the slice maps, the operating points and the runtime's cores once, and hands over the runtime's launch as
domain 0x0000's, where its record and its operating points are in order (assumption 6); a change of the distribution table replaces it
(R176, R216, R220, R355, R356, R358). Attestation: each SPDM request is answered by one message, and changes nothing else; algorithms other
than ECDSA on P-384 with SHA-384 are refused (R356; the response codes are PRESUMED, assumption 58, the payloads free). -/
def Obligations.BringUp : Prop :=
  (∀ (s : State) (b : Bringup) (dist : List (Nat × W64)) (routes : List (Nat × List Nat)),
      (Answers s .deviceReset fun u => u.groups = [] ∧ u.blocks = [] ∧ u.launches = [] ∧ u.cores = [] ∧ u.quads = [] ∧ u.ctxs = []
          ∧ u.fw.up = false ∧ u.mem.phys = s.mem.lower.phys ∧ u.now = s.now)
      ∧ (s.fw.up = true → exec (.firmwareBringup b) s = .next s)
      ∧ (s.fw.up = false → b.points.length ≤ 15 → (550, 1400) ∈ b.points → (s.bringTables b).runtimeOk b = true →
        Answers s (.firmwareBringup b) fun u => u.fw.up = true ∧ u.fw.dev = b.dev
          ∧ u.fw.keyBase = b.keyBase ∧ u.fw.objBase = b.objBase ∧ u.fw.domBase = b.domBase ∧ u.fw.points = b.points ∧ u.fw.rtCores = b.rtCores
          ∧ u.fw.smap = tabOf b.smap ∧ (∀ c, c < 384 → (u.core c).smap = tabOf b.smap)
          ∧ ((b.homes.map Prod.fst).Nodup → ∀ h ∈ b.homes, ((u.home h.1).lix, (u.home h.1).m, (u.home h.1).fq) = h.2)
          ∧ (∀ e ∈ b.mem, get 0 u.mem.phys e.1 = get 0 (s.mem.storeAll b.mem).phys e.1)
          ∧ (∀ k, (∀ e ∈ b.mem, e.1 ≠ k) → get 0 u.mem.phys k = get 0 s.mem.phys k ∨ get 0 u.mem.phys k = 0)
          ∧ u.groups = s.groups
          ∧ u.ring.queue = s.ring.queue ++ [{ addr := b.runtime, graph := false, early := true, dom := 0, issuer := 0, origin := .none }])
      ∧ ((s.bringTables b).runtimeOk b = ((((s.bringTables b).peekNat b.runtime 128).testBit 469)
          && bits ((s.bringTables b).peekNat b.runtime 128) 467 2 == 0))
      ∧ Answers s (.distributionTableChange dist routes) fun u => u.fw.devs = s.fw.dev :: routes.map Prod.fst ∧ u.groups = s.groups ∧ u.mem = s.mem)
  ∧ (∀ (s : State) (nonce : List Byte) (i : Instr) (code : Nat),
      ((i = .getVersion ∧ code = 0x04) ∨ (i = .getCapabilities ∧ code = 0x61) ∨ (i = .negotiateAlgorithms true true ∧ code = 0x63)
          ∨ (i = .negotiateAlgorithms false true ∧ code = 0x7F) ∨ (i = .negotiateAlgorithms true false ∧ code = 0x7F)
          ∨ (i = .negotiateAlgorithms false false ∧ code = 0x7F) ∨ (i = .getDigests ∧ code = 0x01) ∨ (i = .getCertificate ∧ code = 0x02)
          ∨ (i = .challenge nonce ∧ code = 0x03) ∨ (i = .getMeasurements ∧ code = 0x60))
      → Answers s i fun u => (∃ payload, u.fw.spdm = s.fw.spdm ++ [(code, payload)])
          ∧ { u with fw := { u.fw with spdm := s.fw.spdm }, ids := s.ids } = s)

/-! ## Encoding -/

/-- Words the spec prints decode to the instructions it prints beside them: one or more of every family (R77, R94, R128, R173, R183, R192,
R243, R331). -/
def Obligations.DecodeWords : Prop :=
  let p : Guard := ⟨false, 0⟩
  decodeWords [0x00000001, 0x00000000] = some (.nop p)
  ∧ decodeWords [0x00410041, 0x00008039] = some (.iadd p .i32 (.v 1) (.v 1) (.inl 4))
  ∧ decodeWords [0x00410042, 0x02008000, 0x00000005] = some (.iadd p .i32 (.v 1) (.v 1) (.imm 5))
  ∧ decodeWords [0x80CC0065, 0x000082F2] = some (.addmin p .i32 (.v 12) (.v 3) (.k 10) (.v 11))
  ∧ decodeWords [0x000AC0E6, 0x01000000, 0x00000001] = some (.kmovi p none 10 1)
  ∧ decodeWords [0x3380010D, 0x00000000] = some (.setx p (.k 14))
  ∧ decodeWords [0x01850142, 0x02420000, 0x000601F0] = some (.fadd p .f32 .rn false (.v 5) (.v 6) (.cw 3 0x1F0))
  ∧ decodeWords [0x8043014D, 0x00022010] = some (.ffma p .f32 .rn false (.v 3) (.v 1) (.o 2) .lat)
  ∧ decodeWords [0x004201C5, 0x20048000] = some (.ftoi p .i32 .f32 .rz (.v 2) (.v 1))
  ∧ decodeWords [0x00002807, 0x00000000, 0xFFFFFFE0, 0x00000040] = some (.bra ⟨true, 2⟩ 0xFFFFFFE0 0x40)
  ∧ decodeWords [0x3340001E, 0x00000000, 0xFFFFFF20] = some (.loopk 13 0xFFFFFF20)
  ∧ decodeWords [0xF1020202, 0x5CC20001, 0x00000000] = some (.ld p .f32 .acq .dev 3 (.v 2) ⟨4, .v 7, 0⟩)
  ∧ decodeWords [0x70C01606, 0x000180C1, 0xFFFFFFFC] = some (.st ⟨false, 5⟩ .n32 .none .lane 0 ⟨3, .v 5, 0xFFFFFFFC⟩ (.v 3))
  ∧ decodeWords [0x3183021B, 0x1C1DB030, 0x00000000, 0x000000E1]
      = some (.atom p .cas .n32 false .none .dev 0 (.v 3) ⟨6, .k 0, 0⟩ (.k 0) (some (.inl 1)))
  ∧ decodeWords [0x728EC2D3, 0x0002B6B2, 0x05A11001, 0x000000CC]
      = some (.mloop p .bf16 .bf16 0 14 (.k 10) (.k 9) (.k 26) 1 1 1 (.tri (.k 12) .ninf))
  ∧ decodeWords [0x300EC283, 0x15403331, 0x00000100, 0x00000000]
      = some (.cpy p ⟨0, .sec, 5, true, false, false⟩ 14 (.k 0) (.k 4) (.k 12))
  ∧ decodeWords [0x3380C29D, 0x00000000] = some (.join p 0 (.k 14))
  ∧ decodeWords [0x00000301, 0x080C0000] = some (.bar p .blk 3 .blk)
  ∧ decodeWords [0x310EC331, 0xC0000000] = some (.launch p true true 14 4)
  ∧ decodeWords [0xFFFFFFFC, 0xFFFFFFFC] = none
  ∧ decodeWords [0x00000000, 0x00000000] = none

/-- Every well-formed instruction that is not an event has an encoding, whose first word gives its length, and the decoder reads it back
from that encoding, every operand and field at every value the entry admits. What the decoder answers is well-formed and has exactly the
words read as its encoding, so that two instructions never share one and no nonzero reserved bit is passed over (R77 to R91, R96, R97). -/
def Obligations.DecodeEncode : Prop :=
  (∀ (i : Instr), i.wf = true → isEvent i = false → ∃ ws, encode i = some ws ∧ decodeWords ws = some i ∧ lenOf (ws.headD 0) = 4 * ws.length)
  ∧ (∀ (ws : List W32) (i : Instr), decodeWords ws = some i → i.wf = true ∧ encode i = some ws)
end

