-- ==== Sys2Proof/Laws/Encoding.lean ====
section
/-!
SUPPORT. The small lemmas of the encoder and the decoder: the words of an instruction's fields give back the fields, each operand field
and code gives back the operand, and an opcode selects its entry of the map.
-/

namespace Sys2Proof.Laws.Encoding

/-! ## Words and fields -/

/-- A length of R73, with the extension words it does not have zero. -/
def LenOk (e : Enc) : Prop := (e.len = 1 ∧ e.x1 = 0 ∧ e.x2 = 0) ∨ (e.len = 2 ∧ e.x2 = 0) ∨ e.len = 3

theorem halves (b : BitVec 64) : b.extractLsb' 32 32 ++ b.extractLsb' 0 32 = b := by
  apply BitVec.eq_of_getElem_eq; intro i hi
  simp only [BitVec.getElem_append, BitVec.getElem_extractLsb']
  split <;> rw [← BitVec.getLsbD_eq_getElem] <;> congr 1 <;> omega

theorem ofBase_base (e : Enc) : Enc.ofBase e.base e.x1 e.x2 = e := by
  cases e
  simp only [Enc.ofBase, Enc.base, Enc.mk.injEq, and_true]
  refine ⟨?_, ?_, ?_, ?_, ?_, ?_, ?_, ?_, ?_, ?_, ?_, ?_⟩ <;>
  (apply BitVec.eq_of_getLsbD_eq; intro i hi
   simp only [BitVec.getLsbD_extractLsb', BitVec.getLsbD_append, hi, decide_true, Bool.true_and]
   repeat first
     | rw [if_neg (by omega)]
     | rw [if_pos (by omega)]
   congr 1; omega)
theorem ofBase_halves (e : Enc) (x y : W32) :
    Enc.ofBase (e.base.extractLsb' 32 32 ++ e.base.extractLsb' 0 32) x y = Enc.ofBase e.base x y :=
  congrArg (fun b => Enc.ofBase b x y) (halves e.base)

theorem ofWords_words (e : Enc) (h : (e.len = 1 ∧ e.x1 = 0 ∧ e.x2 = 0) ∨ (e.len = 2 ∧ e.x2 = 0) ∨ e.len = 3) :
    Enc.ofWords e.words = some e := by
  have h0 := ofBase_base e
  obtain ⟨h, h1, h2⟩ | ⟨h, h1⟩ | h := h
  · rw [h1, h2] at h0
    simp only [Enc.words, h]
    show (if (Enc.ofBase _ 0 0).len = 1 then some (Enc.ofBase _ 0 0) else none) = some e
    rw [ofBase_halves, h0, if_pos h]
  · rw [h1] at h0
    simp only [Enc.words, h]
    show (if (Enc.ofBase _ e.x1 0).len = 2 then some (Enc.ofBase _ e.x1 0) else none) = some e
    rw [ofBase_halves, h0, if_pos h]
  · simp only [Enc.words, h]
    show (if (Enc.ofBase _ e.x1 e.x2).len = 3 then some (Enc.ofBase _ e.x1 e.x2) else none) = some e
    rw [ofBase_halves, h0, if_pos h]

theorem lenOf_words (e : Enc) (h : e.len ≠ 0) : lenOf (e.words.headD 0) = 4 * e.words.length := by
  have q : (e.words.headD 0).extractLsb' 0 2 = e.len := by
    have h0 := congrArg Enc.len (ofBase_base e)
    have : (e.words.headD 0) = e.base.extractLsb' 0 32 := by simp only [Enc.words]; split <;> rfl
    rw [this]
    apply BitVec.eq_of_getLsbD_eq; intro i hi
    have h1 := congrArg (fun b => BitVec.getLsbD b i) h0
    simp only [Enc.ofBase, BitVec.getLsbD_extractLsb', hi] at h1 ⊢
    rw [← h1]
    simp only [Nat.zero_add, decide_true, Bool.true_and, show i < 32 by omega]
  rw [lenOf, q]
  have := e.len.isLt
  have h' : e.len.toNat ≠ 0 := fun k => h (BitVec.eq_of_toNat_eq (by simpa using k))
  simp only [Enc.words]
  obtain k | k | k : e.len.toNat = 1 ∨ e.len.toNat = 2 ∨ e.len.toNat = 3 := by omega
  all_goals simp [k]

/-! ## Operand fields -/

theorem srcOfField_field (s : Src) (h : s.isExt = false) : srcOfField s.field = some s := by
  cases s with
  | v i => revert i; decide
  | o i => revert i; decide
  | lat => decide
  | k i => revert i; decide
  | inl i => revert i; decide
  | imm x => cases h
  | cw w o => cases h

theorem kField_low (k : BitVec 5) : (kField k).extractLsb' 0 5 = k := by revert k; decide
theorem predField_low (k : BitVec 3) : (predField k).extractLsb' 0 3 = k := by revert k; decide

theorem srcOfExt_ext (s : Src) (h : s.isExt = true) : srcOfExt s.ext.1 s.ext.2 = some s := by
  cases s with
  | imm x => rfl
  | cw w o =>
    simp only [Src.ext, srcOfExt]
    show some (Src.cw _ _) = _
    refine congrArg some (congr (congrArg Src.cw ?_) ?_) <;>
    (apply BitVec.eq_of_getLsbD_eq; intro i hi
     simp only [BitVec.getLsbD_extractLsb', BitVec.getLsbD_append, hi, decide_true, Bool.true_and]
     repeat first
       | rw [if_neg (by omega)]
       | rw [if_pos (by omega)]
     congr 1; omega)
  | _ => cases h

theorem xs_append (n k : BitVec 2) : (n ++ k : BitVec 4).extractLsb' 2 2 = n := by revert n k; decide
theorem xk_append (n k : BitVec 2) : (n ++ k : BitVec 4).extractLsb' 0 2 = k := by revert n k; decide

/-! ## Adding an X1 operand -/

@[simp] theorem ext_opc (e : Enc) (n : BitVec 2) (s : Src) : (e.ext n s).opc = e.opc := by unfold Enc.ext; split <;> rfl
@[simp] theorem ext_guard (e : Enc) (n : BitVec 2) (s : Src) : (e.ext n s).guard = e.guard := by unfold Enc.ext; split <;> rfl
@[simp] theorem ext_dlev (e : Enc) (n : BitVec 2) (s : Src) : (e.ext n s).dlev = e.dlev := by unfold Enc.ext; split <;> rfl
@[simp] theorem ext_didx (e : Enc) (n : BitVec 2) (s : Src) : (e.ext n s).didx = e.didx := by unfold Enc.ext; split <;> rfl
@[simp] theorem ext_a (e : Enc) (n : BitVec 2) (s : Src) : (e.ext n s).a = e.a := by unfold Enc.ext; split <;> rfl
@[simp] theorem ext_b (e : Enc) (n : BitVec 2) (s : Src) : (e.ext n s).b = e.b := by unfold Enc.ext; split <;> rfl
@[simp] theorem ext_c (e : Enc) (n : BitVec 2) (s : Src) : (e.ext n s).c = e.c := by unfold Enc.ext; split <;> rfl
@[simp] theorem ext_ty (e : Enc) (n : BitVec 2) (s : Src) : (e.ext n s).ty = e.ty := by unfold Enc.ext; split <;> rfl
@[simp] theorem ext_mod (e : Enc) (n : BitVec 2) (s : Src) : (e.ext n s).mod = e.mod := by unfold Enc.ext; split <;> rfl
@[simp] theorem ext_sub (e : Enc) (n : BitVec 2) (s : Src) : (e.ext n s).sub = e.sub := by unfold Enc.ext; split <;> rfl
@[simp] theorem ext_x2 (e : Enc) (n : BitVec 2) (s : Src) : (e.ext n s).x2 = e.x2 := by unfold Enc.ext; split <;> rfl
theorem ext_no (e : Enc) (n : BitVec 2) (s : Src) (h : s.isExt = false) : e.ext n s = e := by simp [Enc.ext, h]
theorem ext_yes (e : Enc) (n : BitVec 2) (s : Src) (h : s.isExt = true) : e.ext n s = { e with len := 2, x := n ++ s.ext.1, x1 := s.ext.2 } := by simp [Enc.ext, h]
/-! ## Codes -/

theorem ofBits_bits (g : Guard) : Guard.ofBits g.bits = g := by
  obtain ⟨n, p⟩ := g; revert n p; decide
theorem ty_ofCode (t : Ty) : Ty.ofCode t.code = t := by cases t <;> rfl
theorem cmp_ofCode (t : Cmp) : Cmp.ofCode t.code = some t := by cases t <;> rfl
theorem rnd_ofCode (t : Rnd) : Rnd.ofCode t.code = t := by cases t <;> rfl
theorem ord_ofCode (t : Ord) : Ord.ofCode t.code = t := by cases t <;> rfl
theorem scope_ofCode (t : Scope) : Scope.ofCode t.code = some t := by cases t <;> rfl
theorem atomOp_ofCode (t : AtomOp) : AtomOp.ofCode t.code = t := by cases t <;> rfl
theorem redOp_ofCode (t : RedOp) : RedOp.ofCode t.code = some t := by cases t <;> rfl
theorem fredOp_ofCode (t : FRedOp) : FRedOp.ofCode t.code = some t := by cases t <;> rfl
theorem barLevel_ofCode (t : BarLevel) : BarLevel.ofCode t.code = some t := by cases t <;> rfl
theorem sysReg_ofCode (t : SysReg) : SysReg.ofCode t.code = some t := by cases t <;> rfl

theorem low5 (k : BitVec 5) : (0#1 ++ k : BitVec 6).extractLsb' 0 5 = k := by revert k; decide
theorem low3 (k : BitVec 3) : (0#3 ++ k : BitVec 6).extractLsb' 0 3 = k := by revert k; decide

theorem dst_d (e : Enc) (d : Dst) : (e.dst d).d = some d := by
  cases d <;> simp [Enc.d, Enc.dst, Enc.k, Enc.p, low5, low3]

/-! ## Opcodes (R96) -/

theorem opcode_00 (e : Enc) (h : e.opc = 0x00#8) : decodeFields e = (some (.nop e.g)) := by
  unfold decodeFields; rw [h, show ((0x00#8).extractLsb' 4 4).toNat = 0 from by decide]; show decodeControl e = _
  unfold decodeControl; rw [h, show (0x00#8).toNat = 0 from rfl]; rfl
theorem opcode_01 (e : Enc) (h : e.opc = 0x01#8) : decodeFields e = (some (.bra e.g e.x1 e.x2)) := by
  unfold decodeFields; rw [h, show ((0x01#8).extractLsb' 4 4).toNat = 0 from by decide]; show decodeControl e = _
  unfold decodeControl; rw [h, show (0x01#8).toNat = 1 from rfl]; rfl
theorem opcode_02 (e : Enc) (h : e.opc = 0x02#8) : decodeFields e = (do some (.bru (e.ty != 0) (← e.cmp) (← srcOfField e.a) (← srcOfField e.b) e.x1)) := by
  unfold decodeFields; rw [h, show ((0x02#8).extractLsb' 4 4).toNat = 0 from by decide]; show decodeControl e = _
  unfold decodeControl; rw [h, show (0x02#8).toNat = 2 from rfl]; rfl
theorem opcode_03 (e : Enc) (h : e.opc = 0x03#8) : decodeFields e = (if e.sub.getLsbD 0 then some (.bpend (.pred e.pa) e.x1) else do some (.bpend (.reg (← srcOfField e.a)) e.x1)) := by
  unfold decodeFields; rw [h, show ((0x03#8).extractLsb' 4 4).toNat = 0 from by decide]; show decodeControl e = _
  unfold decodeControl; rw [h, show (0x03#8).toNat = 3 from rfl]; rfl
theorem opcode_04 (e : Enc) (h : e.opc = 0x04#8) : decodeFields e = (some (.call e.g (e.mod.extractLsb' 0 2) e.x1)) := by
  unfold decodeFields; rw [h, show ((0x04#8).extractLsb' 4 4).toNat = 0 from by decide]; show decodeControl e = _
  unfold decodeControl; rw [h, show (0x04#8).toNat = 4 from rfl]; rfl
theorem opcode_05 (e : Enc) (h : e.opc = 0x05#8) : decodeFields e = (some (.calli e.g (e.mod.extractLsb' 0 2) e.ka)) := by
  unfold decodeFields; rw [h, show ((0x05#8).extractLsb' 4 4).toNat = 0 from by decide]; show decodeControl e = _
  unfold decodeControl; rw [h, show (0x05#8).toNat = 5 from rfl]; rfl
theorem opcode_06 (e : Enc) (h : e.opc = 0x06#8) : decodeFields e = (some (.ret e.g)) := by
  unfold decodeFields; rw [h, show ((0x06#8).extractLsb' 4 4).toNat = 0 from by decide]; show decodeControl e = _
  unfold decodeControl; rw [h, show (0x06#8).toNat = 6 from rfl]; rfl
theorem opcode_07 (e : Enc) (h : e.opc = 0x07#8) : decodeFields e = (some (.loopk e.ka e.x1)) := by
  unfold decodeFields; rw [h, show ((0x07#8).extractLsb' 4 4).toNat = 0 from by decide]; show decodeControl e = _
  unfold decodeControl; rw [h, show (0x07#8).toNat = 7 from rfl]; rfl
theorem opcode_08 (e : Enc) (h : e.opc = 0x08#8) : decodeFields e = (some (.exit e.g)) := by
  unfold decodeFields; rw [h, show ((0x08#8).extractLsb' 4 4).toNat = 0 from by decide]; show decodeControl e = _
  unfold decodeControl; rw [h, show (0x08#8).toNat = 8 from rfl]; rfl
theorem opcode_10 (e : Enc) (h : e.opc = 0x10#8) : decodeFields e = (e.v2 .iadd) := by
  unfold decodeFields; rw [h, show ((0x10#8).extractLsb' 4 4).toNat = 1 from by decide]; show decodeInt e = _
  unfold decodeInt; rw [h, show (0x10#8).toNat = 16 from rfl]; rfl
theorem opcode_11 (e : Enc) (h : e.opc = 0x11#8) : decodeFields e = (e.v2 .isub) := by
  unfold decodeFields; rw [h, show ((0x11#8).extractLsb' 4 4).toNat = 1 from by decide]; show decodeInt e = _
  unfold decodeInt; rw [h, show (0x11#8).toNat = 17 from rfl]; rfl
theorem opcode_12 (e : Enc) (h : e.opc = 0x12#8) : decodeFields e = (e.v2 .imul) := by
  unfold decodeFields; rw [h, show ((0x12#8).extractLsb' 4 4).toNat = 1 from by decide]; show decodeInt e = _
  unfold decodeInt; rw [h, show (0x12#8).toNat = 18 from rfl]; rfl
theorem opcode_13 (e : Enc) (h : e.opc = 0x13#8) : decodeFields e = (e.v2 .imulh) := by
  unfold decodeFields; rw [h, show ((0x13#8).extractLsb' 4 4).toNat = 1 from by decide]; show decodeInt e = _
  unfold decodeInt; rw [h, show (0x13#8).toNat = 19 from rfl]; rfl
theorem opcode_14 (e : Enc) (h : e.opc = 0x14#8) : decodeFields e = (e.v3 .imad) := by
  unfold decodeFields; rw [h, show ((0x14#8).extractLsb' 4 4).toNat = 1 from by decide]; show decodeInt e = _
  unfold decodeInt; rw [h, show (0x14#8).toNat = 20 from rfl]; rfl
theorem opcode_15 (e : Enc) (h : e.opc = 0x15#8) : decodeFields e = (e.v2 .imin) := by
  unfold decodeFields; rw [h, show ((0x15#8).extractLsb' 4 4).toNat = 1 from by decide]; show decodeInt e = _
  unfold decodeInt; rw [h, show (0x15#8).toNat = 21 from rfl]; rfl
theorem opcode_16 (e : Enc) (h : e.opc = 0x16#8) : decodeFields e = (e.v2 .imax) := by
  unfold decodeFields; rw [h, show ((0x16#8).extractLsb' 4 4).toNat = 1 from by decide]; show decodeInt e = _
  unfold decodeInt; rw [h, show (0x16#8).toNat = 22 from rfl]; rfl
theorem opcode_17 (e : Enc) (h : e.opc = 0x17#8) : decodeFields e = (e.v1 .iabs) := by
  unfold decodeFields; rw [h, show ((0x17#8).extractLsb' 4 4).toNat = 1 from by decide]; show decodeInt e = _
  unfold decodeInt; rw [h, show (0x17#8).toNat = 23 from rfl]; rfl
theorem opcode_18 (e : Enc) (h : e.opc = 0x18#8) : decodeFields e = (e.v1 .ineg) := by
  unfold decodeFields; rw [h, show ((0x18#8).extractLsb' 4 4).toNat = 1 from by decide]; show decodeInt e = _
  unfold decodeInt; rw [h, show (0x18#8).toNat = 24 from rfl]; rfl
theorem opcode_19 (e : Enc) (h : e.opc = 0x19#8) : decodeFields e = (e.v3 .addmin) := by
  unfold decodeFields; rw [h, show ((0x19#8).extractLsb' 4 4).toNat = 1 from by decide]; show decodeInt e = _
  unfold decodeInt; rw [h, show (0x19#8).toNat = 25 from rfl]; rfl
theorem opcode_1A (e : Enc) (h : e.opc = 0x1A#8) : decodeFields e = (e.v3 .addmax) := by
  unfold decodeFields; rw [h, show ((0x1A#8).extractLsb' 4 4).toNat = 1 from by decide]; show decodeInt e = _
  unfold decodeInt; rw [h, show (0x1A#8).toNat = 26 from rfl]; rfl
theorem opcode_1B (e : Enc) (h : e.opc = 0x1B#8) : decodeFields e = (e.v2 (fun g t d a b => .ilea g t d a b e.mod)) := by
  unfold decodeFields; rw [h, show ((0x1B#8).extractLsb' 4 4).toNat = 1 from by decide]; show decodeInt e = _
  unfold decodeInt; rw [h, show (0x1B#8).toNat = 27 from rfl]; rfl
theorem opcode_1C (e : Enc) (h : e.opc = 0x1C#8) : decodeFields e = (e.v2 .and) := by
  unfold decodeFields; rw [h, show ((0x1C#8).extractLsb' 4 4).toNat = 1 from by decide]; show decodeInt e = _
  unfold decodeInt; rw [h, show (0x1C#8).toNat = 28 from rfl]; rfl
theorem opcode_1D (e : Enc) (h : e.opc = 0x1D#8) : decodeFields e = (e.v2 .or) := by
  unfold decodeFields; rw [h, show ((0x1D#8).extractLsb' 4 4).toNat = 1 from by decide]; show decodeInt e = _
  unfold decodeInt; rw [h, show (0x1D#8).toNat = 29 from rfl]; rfl
theorem opcode_1E (e : Enc) (h : e.opc = 0x1E#8) : decodeFields e = (e.v2 .xor) := by
  unfold decodeFields; rw [h, show ((0x1E#8).extractLsb' 4 4).toNat = 1 from by decide]; show decodeInt e = _
  unfold decodeInt; rw [h, show (0x1E#8).toNat = 30 from rfl]; rfl
theorem opcode_1F (e : Enc) (h : e.opc = 0x1F#8) : decodeFields e = (e.v2 .andn) := by
  unfold decodeFields; rw [h, show ((0x1F#8).extractLsb' 4 4).toNat = 1 from by decide]; show decodeInt e = _
  unfold decodeInt; rw [h, show (0x1F#8).toNat = 31 from rfl]; rfl
theorem opcode_20 (e : Enc) (h : e.opc = 0x20#8) : decodeFields e = (e.v1 .not) := by
  unfold decodeFields; rw [h, show ((0x20#8).extractLsb' 4 4).toNat = 2 from by decide]; show decodeInt e = _
  unfold decodeInt; rw [h, show (0x20#8).toNat = 32 from rfl]; rfl
theorem opcode_21 (e : Enc) (h : e.opc = 0x21#8) : decodeFields e = (e.v2 .shl) := by
  unfold decodeFields; rw [h, show ((0x21#8).extractLsb' 4 4).toNat = 2 from by decide]; show decodeInt e = _
  unfold decodeInt; rw [h, show (0x21#8).toNat = 33 from rfl]; rfl
theorem opcode_22 (e : Enc) (h : e.opc = 0x22#8) : decodeFields e = (e.v2 .shr) := by
  unfold decodeFields; rw [h, show ((0x22#8).extractLsb' 4 4).toNat = 2 from by decide]; show decodeInt e = _
  unfold decodeInt; rw [h, show (0x22#8).toNat = 34 from rfl]; rfl
theorem opcode_23 (e : Enc) (h : e.opc = 0x23#8) : decodeFields e = (e.v2 .sar) := by
  unfold decodeFields; rw [h, show ((0x23#8).extractLsb' 4 4).toNat = 2 from by decide]; show decodeInt e = _
  unfold decodeInt; rw [h, show (0x23#8).toNat = 35 from rfl]; rfl
theorem opcode_24 (e : Enc) (h : e.opc = 0x24#8) : decodeFields e = (e.v2 (fun g t d a b => .rot g t d a b (e.sub.getLsbD 0))) := by
  unfold decodeFields; rw [h, show ((0x24#8).extractLsb' 4 4).toNat = 2 from by decide]; show decodeInt e = _
  unfold decodeInt; rw [h, show (0x24#8).toNat = 36 from rfl]; rfl
theorem opcode_25 (e : Enc) (h : e.opc = 0x25#8) : decodeFields e = (e.v1 .clz) := by
  unfold decodeFields; rw [h, show ((0x25#8).extractLsb' 4 4).toNat = 2 from by decide]; show decodeInt e = _
  unfold decodeInt; rw [h, show (0x25#8).toNat = 37 from rfl]; rfl
theorem opcode_26 (e : Enc) (h : e.opc = 0x26#8) : decodeFields e = (e.v1 .popc) := by
  unfold decodeFields; rw [h, show ((0x26#8).extractLsb' 4 4).toNat = 2 from by decide]; show decodeInt e = _
  unfold decodeInt; rw [h, show (0x26#8).toNat = 38 from rfl]; rfl
theorem opcode_27 (e : Enc) (h : e.opc = 0x27#8) : decodeFields e = (e.v1 .brev) := by
  unfold decodeFields; rw [h, show ((0x27#8).extractLsb' 4 4).toNat = 2 from by decide]; show decodeInt e = _
  unfold decodeInt; rw [h, show (0x27#8).toNat = 39 from rfl]; rfl
theorem opcode_28 (e : Enc) (h : e.opc = 0x28#8) : decodeFields e = (e.v2 .bfx) := by
  unfold decodeFields; rw [h, show ((0x28#8).extractLsb' 4 4).toNat = 2 from by decide]; show decodeInt e = _
  unfold decodeInt; rw [h, show (0x28#8).toNat = 40 from rfl]; rfl
theorem opcode_29 (e : Enc) (h : e.opc = 0x29#8) : decodeFields e = (e.v3 .bfi) := by
  unfold decodeFields; rw [h, show ((0x29#8).extractLsb' 4 4).toNat = 2 from by decide]; show decodeInt e = _
  unfold decodeInt; rw [h, show (0x29#8).toNat = 41 from rfl]; rfl
theorem opcode_2A (e : Enc) (h : e.opc = 0x2A#8) : decodeFields e = (e.v2 (fun g t d a b => .sel g t d a b (e.c.extractLsb' 0 3))) := by
  unfold decodeFields; rw [h, show ((0x2A#8).extractLsb' 4 4).toNat = 2 from by decide]; show decodeInt e = _
  unfold decodeInt; rw [h, show (0x2A#8).toNat = 42 from rfl]; rfl
theorem opcode_2B (e : Enc) (h : e.opc = 0x2B#8) : decodeFields e = (e.v1 .mov) := by
  unfold decodeFields; rw [h, show ((0x2B#8).extractLsb' 4 4).toNat = 2 from by decide]; show decodeInt e = _
  unfold decodeInt; rw [h, show (0x2B#8).toNat = 43 from rfl]; rfl
theorem opcode_2C (e : Enc) (h : e.opc = 0x2C#8) : decodeFields e = (do some (.movi e.g e.t (← e.d) e.x1)) := by
  unfold decodeFields; rw [h, show ((0x2C#8).extractLsb' 4 4).toNat = 2 from by decide]; show decodeInt e = _
  unfold decodeInt; rw [h, show (0x2C#8).toNat = 44 from rfl]; rfl
theorem opcode_2D (e : Enc) (h : e.opc = 0x2D#8) : decodeFields e = (do some (.iset e.g e.t e.p (← e.cmp) (← e.sA) (← e.sB))) := by
  unfold decodeFields; rw [h, show ((0x2D#8).extractLsb' 4 4).toNat = 2 from by decide]; show decodeInt e = _
  unfold decodeInt; rw [h, show (0x2D#8).toNat = 45 from rfl]; rfl
theorem opcode_2E (e : Enc) (h : e.opc = 0x2E#8) : decodeFields e = (do some (.icvt e.g e.t e.st (← e.d) (← e.sA) (e.mod.getLsbD 0))) := by
  unfold decodeFields; rw [h, show ((0x2E#8).extractLsb' 4 4).toNat = 2 from by decide]; show decodeInt e = _
  unfold decodeInt; rw [h, show (0x2E#8).toNat = 46 from rfl]; rfl
theorem opcode_30 (e : Enc) (h : e.opc = 0x30#8) : decodeFields e = (e.k2 .kadd) := by
  unfold decodeFields; rw [h, show ((0x30#8).extractLsb' 4 4).toNat = 3 from by decide]; show decodeUniform e = _
  unfold decodeUniform; rw [h, show (0x30#8).toNat = 48 from rfl]; rfl
theorem opcode_31 (e : Enc) (h : e.opc = 0x31#8) : decodeFields e = (e.k2 .ksub) := by
  unfold decodeFields; rw [h, show ((0x31#8).extractLsb' 4 4).toNat = 3 from by decide]; show decodeUniform e = _
  unfold decodeUniform; rw [h, show (0x31#8).toNat = 49 from rfl]; rfl
theorem opcode_32 (e : Enc) (h : e.opc = 0x32#8) : decodeFields e = (e.k2 .kmul) := by
  unfold decodeFields; rw [h, show ((0x32#8).extractLsb' 4 4).toNat = 3 from by decide]; show decodeUniform e = _
  unfold decodeUniform; rw [h, show (0x32#8).toNat = 50 from rfl]; rfl
theorem opcode_33 (e : Enc) (h : e.opc = 0x33#8) : decodeFields e = (e.k2 .kand) := by
  unfold decodeFields; rw [h, show ((0x33#8).extractLsb' 4 4).toNat = 3 from by decide]; show decodeUniform e = _
  unfold decodeUniform; rw [h, show (0x33#8).toNat = 51 from rfl]; rfl
theorem opcode_34 (e : Enc) (h : e.opc = 0x34#8) : decodeFields e = (e.k2 .kor) := by
  unfold decodeFields; rw [h, show ((0x34#8).extractLsb' 4 4).toNat = 3 from by decide]; show decodeUniform e = _
  unfold decodeUniform; rw [h, show (0x34#8).toNat = 52 from rfl]; rfl
theorem opcode_35 (e : Enc) (h : e.opc = 0x35#8) : decodeFields e = (e.k2 .kxor) := by
  unfold decodeFields; rw [h, show ((0x35#8).extractLsb' 4 4).toNat = 3 from by decide]; show decodeUniform e = _
  unfold decodeUniform; rw [h, show (0x35#8).toNat = 53 from rfl]; rfl
theorem opcode_36 (e : Enc) (h : e.opc = 0x36#8) : decodeFields e = (e.k2 .kshl) := by
  unfold decodeFields; rw [h, show ((0x36#8).extractLsb' 4 4).toNat = 3 from by decide]; show decodeUniform e = _
  unfold decodeUniform; rw [h, show (0x36#8).toNat = 54 from rfl]; rfl
theorem opcode_37 (e : Enc) (h : e.opc = 0x37#8) : decodeFields e = (e.k2 .kshr) := by
  unfold decodeFields; rw [h, show ((0x37#8).extractLsb' 4 4).toNat = 3 from by decide]; show decodeUniform e = _
  unfold decodeUniform; rw [h, show (0x37#8).toNat = 55 from rfl]; rfl
theorem opcode_38 (e : Enc) (h : e.opc = 0x38#8) : decodeFields e = (do some (.kmov e.g e.tOpt e.k (← e.sA))) := by
  unfold decodeFields; rw [h, show ((0x38#8).extractLsb' 4 4).toNat = 3 from by decide]; show decodeUniform e = _
  unfold decodeUniform; rw [h, show (0x38#8).toNat = 56 from rfl]; rfl
theorem opcode_39 (e : Enc) (h : e.opc = 0x39#8) : decodeFields e = (some (.kmovi e.g e.tOpt e.k e.x1)) := by
  unfold decodeFields; rw [h, show ((0x39#8).extractLsb' 4 4).toNat = 3 from by decide]; show decodeUniform e = _
  unfold decodeUniform; rw [h, show (0x39#8).toNat = 57 from rfl]; rfl
theorem opcode_3A (e : Enc) (h : e.opc = 0x3A#8) : decodeFields e = (do some (.kset e.g e.tOpt e.k (← e.cmp) (← e.sA) (← e.sB))) := by
  unfold decodeFields; rw [h, show ((0x3A#8).extractLsb' 4 4).toNat = 3 from by decide]; show decodeUniform e = _
  unfold decodeUniform; rw [h, show (0x3A#8).toNat = 58 from rfl]; rfl
theorem opcode_3B (e : Enc) (h : e.opc = 0x3B#8) : decodeFields e = (do some (.ksel e.g e.k (← e.sA) (← e.sB) (← e.sC))) := by
  unfold decodeFields; rw [h, show ((0x3B#8).extractLsb' 4 4).toNat = 3 from by decide]; show decodeUniform e = _
  unfold decodeUniform; rw [h, show (0x3B#8).toNat = 59 from rfl]; rfl
theorem opcode_3C (e : Enc) (h : e.opc = 0x3C#8) : decodeFields e = (do some (.vtok e.g e.t e.k (← e.sA) (← e.sB))) := by
  unfold decodeFields; rw [h, show ((0x3C#8).extractLsb' 4 4).toNat = 3 from by decide]; show decodeUniform e = _
  unfold decodeUniform; rw [h, show (0x3C#8).toNat = 60 from rfl]; rfl
theorem opcode_3D (e : Enc) (h : e.opc = 0x3D#8) : decodeFields e = (e.v1 .ktov) := by
  unfold decodeFields; rw [h, show ((0x3D#8).extractLsb' 4 4).toNat = 3 from by decide]; show decodeUniform e = _
  unfold decodeUniform; rw [h, show (0x3D#8).toNat = 61 from rfl]; rfl
theorem opcode_40 (e : Enc) (h : e.opc = 0x40#8) : decodeFields e = (some (.plog e.g e.p e.pa (e.b.extractLsb' 0 3) e.mod)) := by
  unfold decodeFields; rw [h, show ((0x40#8).extractLsb' 4 4).toNat = 4 from by decide]; show decodeLane e = _
  unfold decodeLane; rw [h, show (0x40#8).toNat = 64 from rfl]; rfl
theorem opcode_41 (e : Enc) (h : e.opc = 0x41#8) : decodeFields e = ((match e.sub.toNat with
           | 0 => some (.vote e.g (.ballot e.k) e.pa)
           | 1 => some (.vote e.g (.any e.p) e.pa)
           | 2 => some (.vote e.g (.all e.p) e.pa)
           | _ => none)) := by
  unfold decodeFields; rw [h, show ((0x41#8).extractLsb' 4 4).toNat = 4 from by decide]; show decodeLane e = _
  unfold decodeLane; rw [h, show (0x41#8).toNat = 65 from rfl]; rfl
theorem opcode_42 (e : Enc) (h : e.opc = 0x42#8) : decodeFields e = (some (.getx e.g e.k)) := by
  unfold decodeFields; rw [h, show ((0x42#8).extractLsb' 4 4).toNat = 4 from by decide]; show decodeLane e = _
  unfold decodeLane; rw [h, show (0x42#8).toNat = 66 from rfl]; rfl
theorem opcode_43 (e : Enc) (h : e.opc = 0x43#8) : decodeFields e = (do some (.setx e.g (← e.sA))) := by
  unfold decodeFields; rw [h, show ((0x43#8).extractLsb' 4 4).toNat = 4 from by decide]; show decodeLane e = _
  unfold decodeLane; rw [h, show (0x43#8).toNat = 67 from rfl]; rfl
theorem opcode_44 (e : Enc) (h : e.opc = 0x44#8) : decodeFields e = (e.v3 (fun g t d a b c => .lshift g t d a b c (e.sub.getLsbD 0))) := by
  unfold decodeFields; rw [h, show ((0x44#8).extractLsb' 4 4).toNat = 4 from by decide]; show decodeLane e = _
  unfold decodeLane; rw [h, show (0x44#8).toNat = 68 from rfl]; rfl
theorem opcode_45 (e : Enc) (h : e.opc = 0x45#8) : decodeFields e = (e.v2 .lswz) := by
  unfold decodeFields; rw [h, show ((0x45#8).extractLsb' 4 4).toNat = 4 from by decide]; show decodeLane e = _
  unfold decodeLane; rw [h, show (0x45#8).toNat = 69 from rfl]; rfl
theorem opcode_46 (e : Enc) (h : e.opc = 0x46#8) : decodeFields e = (e.v2 .lperm) := by
  unfold decodeFields; rw [h, show ((0x46#8).extractLsb' 4 4).toNat = 4 from by decide]; show decodeLane e = _
  unfold decodeLane; rw [h, show (0x46#8).toNat = 70 from rfl]; rfl
theorem opcode_47 (e : Enc) (h : e.opc = 0x47#8) : decodeFields e = (e.v2 .lbcast) := by
  unfold decodeFields; rw [h, show ((0x47#8).extractLsb' 4 4).toNat = 4 from by decide]; show decodeLane e = _
  unfold decodeLane; rw [h, show (0x47#8).toNat = 71 from rfl]; rfl
theorem opcode_48 (e : Enc) (h : e.opc = 0x48#8) : decodeFields e = (do some (.lred e.g (← RedOp.ofCode e.sub) e.t (← e.d) (← e.sA))) := by
  unfold decodeFields; rw [h, show ((0x48#8).extractLsb' 4 4).toNat = 4 from by decide]; show decodeLane e = _
  unfold decodeLane; rw [h, show (0x48#8).toNat = 72 from rfl]; rfl
theorem opcode_49 (e : Enc) (h : e.opc = 0x49#8) : decodeFields e = (do some (.xch e.g e.t (← e.d) (← e.sA) (e.b.extractLsb' 0 5))) := by
  unfold decodeFields; rw [h, show ((0x49#8).extractLsb' 4 4).toNat = 4 from by decide]; show decodeLane e = _
  unfold decodeLane; rw [h, show (0x49#8).toNat = 73 from rfl]; rfl
theorem opcode_50 (e : Enc) (h : e.opc = 0x50#8) : decodeFields e = (e.f2 .fadd) := by
  unfold decodeFields; rw [h, show ((0x50#8).extractLsb' 4 4).toNat = 5 from by decide]; show decodeFloat e = _
  unfold decodeFloat; rw [h, show (0x50#8).toNat = 80 from rfl]; rfl
theorem opcode_51 (e : Enc) (h : e.opc = 0x51#8) : decodeFields e = (e.f2 .fsub) := by
  unfold decodeFields; rw [h, show ((0x51#8).extractLsb' 4 4).toNat = 5 from by decide]; show decodeFloat e = _
  unfold decodeFloat; rw [h, show (0x51#8).toNat = 81 from rfl]; rfl
theorem opcode_52 (e : Enc) (h : e.opc = 0x52#8) : decodeFields e = (e.f2 .fmul) := by
  unfold decodeFields; rw [h, show ((0x52#8).extractLsb' 4 4).toNat = 5 from by decide]; show decodeFloat e = _
  unfold decodeFloat; rw [h, show (0x52#8).toNat = 82 from rfl]; rfl
theorem opcode_53 (e : Enc) (h : e.opc = 0x53#8) : decodeFields e = (e.f3 .ffma) := by
  unfold decodeFields; rw [h, show ((0x53#8).extractLsb' 4 4).toNat = 5 from by decide]; show decodeFloat e = _
  unfold decodeFloat; rw [h, show (0x53#8).toNat = 83 from rfl]; rfl
theorem opcode_54 (e : Enc) (h : e.opc = 0x54#8) : decodeFields e = (e.v2 .fmin) := by
  unfold decodeFields; rw [h, show ((0x54#8).extractLsb' 4 4).toNat = 5 from by decide]; show decodeFloat e = _
  unfold decodeFloat; rw [h, show (0x54#8).toNat = 84 from rfl]; rfl
theorem opcode_55 (e : Enc) (h : e.opc = 0x55#8) : decodeFields e = (e.v2 .fmax) := by
  unfold decodeFields; rw [h, show ((0x55#8).extractLsb' 4 4).toNat = 5 from by decide]; show decodeFloat e = _
  unfold decodeFloat; rw [h, show (0x55#8).toNat = 85 from rfl]; rfl
theorem opcode_56 (e : Enc) (h : e.opc = 0x56#8) : decodeFields e = (do some (.fset e.g e.t e.p (← e.cmp) (← e.sA) (← e.sB))) := by
  unfold decodeFields; rw [h, show ((0x56#8).extractLsb' 4 4).toNat = 5 from by decide]; show decodeFloat e = _
  unfold decodeFloat; rw [h, show (0x56#8).toNat = 86 from rfl]; rfl
theorem opcode_57 (e : Enc) (h : e.opc = 0x57#8) : decodeFields e = (e.v1 .frcp) := by
  unfold decodeFields; rw [h, show ((0x57#8).extractLsb' 4 4).toNat = 5 from by decide]; show decodeFloat e = _
  unfold decodeFloat; rw [h, show (0x57#8).toNat = 87 from rfl]; rfl
theorem opcode_58 (e : Enc) (h : e.opc = 0x58#8) : decodeFields e = (e.v1 .frsq) := by
  unfold decodeFields; rw [h, show ((0x58#8).extractLsb' 4 4).toNat = 5 from by decide]; show decodeFloat e = _
  unfold decodeFloat; rw [h, show (0x58#8).toNat = 88 from rfl]; rfl
theorem opcode_59 (e : Enc) (h : e.opc = 0x59#8) : decodeFields e = (do some (.fsqrt e.g e.t e.r (← e.d) (← e.sA))) := by
  unfold decodeFields; rw [h, show ((0x59#8).extractLsb' 4 4).toNat = 5 from by decide]; show decodeFloat e = _
  unfold decodeFloat; rw [h, show (0x59#8).toNat = 89 from rfl]; rfl
theorem opcode_5A (e : Enc) (h : e.opc = 0x5A#8) : decodeFields e = (e.v1 .fexp2) := by
  unfold decodeFields; rw [h, show ((0x5A#8).extractLsb' 4 4).toNat = 5 from by decide]; show decodeFloat e = _
  unfold decodeFloat; rw [h, show (0x5A#8).toNat = 90 from rfl]; rfl
theorem opcode_5B (e : Enc) (h : e.opc = 0x5B#8) : decodeFields e = (e.v1 .flog2) := by
  unfold decodeFields; rw [h, show ((0x5B#8).extractLsb' 4 4).toNat = 5 from by decide]; show decodeFloat e = _
  unfold decodeFloat; rw [h, show (0x5B#8).toNat = 91 from rfl]; rfl
theorem opcode_5C (e : Enc) (h : e.opc = 0x5C#8) : decodeFields e = (e.v1 .fsin) := by
  unfold decodeFields; rw [h, show ((0x5C#8).extractLsb' 4 4).toNat = 5 from by decide]; show decodeFloat e = _
  unfold decodeFloat; rw [h, show (0x5C#8).toNat = 92 from rfl]; rfl
theorem opcode_5D (e : Enc) (h : e.opc = 0x5D#8) : decodeFields e = (e.v1 .fcos) := by
  unfold decodeFields; rw [h, show ((0x5D#8).extractLsb' 4 4).toNat = 5 from by decide]; show decodeFloat e = _
  unfold decodeFloat; rw [h, show (0x5D#8).toNat = 93 from rfl]; rfl
theorem opcode_5E (e : Enc) (h : e.opc = 0x5E#8) : decodeFields e = (do some (.fscale e.g e.t e.r (← e.d) (← e.sA) (← e.sB))) := by
  unfold decodeFields; rw [h, show ((0x5E#8).extractLsb' 4 4).toNat = 5 from by decide]; show decodeFloat e = _
  unfold decodeFloat; rw [h, show (0x5E#8).toNat = 94 from rfl]; rfl
theorem opcode_5F (e : Enc) (h : e.opc = 0x5F#8) : decodeFields e = (if e.dlev = 3 then do some (.fclass e.g e.t (.test e.p (← e.sB)) (← e.sA))
          else do some (.fclass e.g e.t (.code (← e.d)) (← e.sA))) := by
  unfold decodeFields; rw [h, show ((0x5F#8).extractLsb' 4 4).toNat = 5 from by decide]; show decodeFloat e = _
  unfold decodeFloat; rw [h, show (0x5F#8).toNat = 95 from rfl]; rfl
theorem opcode_60 (e : Enc) (h : e.opc = 0x60#8) : decodeFields e = (e.f3 .fdot2) := by
  unfold decodeFields; rw [h, show ((0x60#8).extractLsb' 4 4).toNat = 6 from by decide]; show decodeFloat e = _
  unfold decodeFloat; rw [h, show (0x60#8).toNat = 96 from rfl]; rfl
theorem opcode_61 (e : Enc) (h : e.opc = 0x61#8) : decodeFields e = (do some (.fred e.g (← FRedOp.ofCode e.sub) e.t e.r (← e.d) (← e.sA))) := by
  unfold decodeFields; rw [h, show ((0x61#8).extractLsb' 4 4).toNat = 6 from by decide]; show decodeFloat e = _
  unfold decodeFloat; rw [h, show (0x61#8).toNat = 97 from rfl]; rfl
theorem opcode_70 (e : Enc) (h : e.opc = 0x70#8) : decodeFields e = (do
          let b ← if e.t.isPacked then e.sB.map some else some none
          some (.fcvt e.g e.t e.st (e.sub.getLsbD 4) e.r (← e.d) (← e.sA) b)) := by
  unfold decodeFields; rw [h, show ((0x70#8).extractLsb' 4 4).toNat = 7 from by decide]; show decodeFloat e = _
  unfold decodeFloat; rw [h, show (0x70#8).toNat = 112 from rfl]; rfl
theorem opcode_71 (e : Enc) (h : e.opc = 0x71#8) : decodeFields e = (do some (.ftoi e.g e.t e.st e.r (← e.d) (← e.sA))) := by
  unfold decodeFields; rw [h, show ((0x71#8).extractLsb' 4 4).toNat = 7 from by decide]; show decodeFloat e = _
  unfold decodeFloat; rw [h, show (0x71#8).toNat = 113 from rfl]; rfl
theorem opcode_72 (e : Enc) (h : e.opc = 0x72#8) : decodeFields e = (do some (.itof e.g e.t e.st e.r (← e.d) (← e.sA))) := by
  unfold decodeFields; rw [h, show ((0x72#8).extractLsb' 4 4).toNat = 7 from by decide]; show decodeFloat e = _
  unfold decodeFloat; rw [h, show (0x72#8).toNat = 114 from rfl]; rfl
theorem opcode_73 (e : Enc) (h : e.opc = 0x73#8) : decodeFields e = (e.v2 .narrow) := by
  unfold decodeFields; rw [h, show ((0x73#8).extractLsb' 4 4).toNat = 7 from by decide]; show decodeFloat e = _
  unfold decodeFloat; rw [h, show (0x73#8).toNat = 115 from rfl]; rfl
theorem opcode_80 (e : Enc) (h : e.opc = 0x80#8) : decodeFields e = (do some (.ld e.g e.t e.o (← e.sc) e.x (← e.d) (← e.addr))) := by
  unfold decodeFields; rw [h, show ((0x80#8).extractLsb' 4 4).toNat = 8 from by decide]; show decodeMem e = _
  unfold decodeMem; rw [h, show (0x80#8).toNat = 128 from rfl]; rfl
theorem opcode_81 (e : Enc) (h : e.opc = 0x81#8) : decodeFields e = (do some (.st e.g e.t e.o (← e.sc) e.x (← e.addr) (← srcOfField e.c))) := by
  unfold decodeFields; rw [h, show ((0x81#8).extractLsb' 4 4).toNat = 8 from by decide]; show decodeMem e = _
  unfold decodeMem; rw [h, show (0x81#8).toNat = 129 from rfl]; rfl
theorem opcode_82 (e : Enc) (h : e.opc = 0x82#8) : decodeFields e = (do some (.ldu e.g e.t e.o (← e.sc) e.x (← e.d) (← e.addr))) := by
  unfold decodeFields; rw [h, show ((0x82#8).extractLsb' 4 4).toNat = 8 from by decide]; show decodeMem e = _
  unfold decodeMem; rw [h, show (0x82#8).toNat = 130 from rfl]; rfl
theorem opcode_83 (e : Enc) (h : e.opc = 0x83#8) : decodeFields e = (do some (.ldl e.g e.t e.o (← e.sc) e.x (← e.d) (← e.addr))) := by
  unfold decodeFields; rw [h, show ((0x83#8).extractLsb' 4 4).toNat = 8 from by decide]; show decodeMem e = _
  unfold decodeMem; rw [h, show (0x83#8).toNat = 131 from rfl]; rfl
theorem opcode_84 (e : Enc) (h : e.opc = 0x84#8) : decodeFields e = (do some (.stl e.g e.t e.o (← e.sc) e.x (← e.addr) (← srcOfField e.c))) := by
  unfold decodeFields; rw [h, show ((0x84#8).extractLsb' 4 4).toNat = 8 from by decide]; show decodeMem e = _
  unfold decodeMem; rw [h, show (0x84#8).toNat = 132 from rfl]; rfl
theorem opcode_85 (e : Enc) (h : e.opc = 0x85#8) : decodeFields e = (do some (.ldc e.g e.t e.x (← e.d) (e.sub.extractLsb' 0 3) (← srcOfField e.b) e.x1)) := by
  unfold decodeFields; rw [h, show ((0x85#8).extractLsb' 4 4).toNat = 8 from by decide]; show decodeMem e = _
  unfold decodeMem; rw [h, show (0x85#8).toNat = 133 from rfl]; rfl
theorem opcode_86 (e : Enc) (h : e.opc = 0x86#8) : decodeFields e = (do
          let d4 ← if e.len = 3 then (srcOfField (e.x2.extractLsb' 0 8)).map some else some none
          some (.atom e.g e.op e.t (e.mod.getLsbD 3) e.o (← e.sc) e.x (← e.d) (← e.addr) (← srcOfField e.c) d4)) := by
  unfold decodeFields; rw [h, show ((0x86#8).extractLsb' 4 4).toNat = 8 from by decide]; show decodeMem e = _
  unfold decodeMem; rw [h, show (0x86#8).toNat = 134 from rfl]; rfl
theorem opcode_87 (e : Enc) (h : e.opc = 0x87#8) : decodeFields e = (do some (.red e.g e.op e.t (e.mod.getLsbD 3) e.o (← e.sc) e.x (← e.addr) (← srcOfField e.c))) := by
  unfold decodeFields; rw [h, show ((0x87#8).extractLsb' 4 4).toNat = 8 from by decide]; show decodeMem e = _
  unfold decodeMem; rw [h, show (0x87#8).toNat = 135 from rfl]; rfl
theorem opcode_88 (e : Enc) (h : e.opc = 0x88#8) : decodeFields e = (do some (.poll e.g e.t (← e.cmp) e.o (← e.sc) e.x (← e.d) (← e.addr) (← srcOfField e.c))) := by
  unfold decodeFields; rw [h, show ((0x88#8).extractLsb' 4 4).toNat = 8 from by decide]; show decodeMem e = _
  unfold decodeMem; rw [h, show (0x88#8).toNat = 136 from rfl]; rfl
theorem opcode_89 (e : Enc) (h : e.opc = 0x89#8) : decodeFields e = (do some (.fence e.g e.o (← e.sc) e.x)) := by
  unfold decodeFields; rw [h, show ((0x89#8).extractLsb' 4 4).toNat = 8 from by decide]; show decodeMem e = _
  unfold decodeMem; rw [h, show (0x89#8).toNat = 137 from rfl]; rfl
theorem opcode_8A (e : Enc) (h : e.opc = 0x8A#8) : decodeFields e = (do some (.pref e.g e.t (e.mod.getLsbD 0) e.x (← e.addr))) := by
  unfold decodeFields; rw [h, show ((0x8A#8).extractLsb' 4 4).toNat = 8 from by decide]; show decodeMem e = _
  unfold decodeMem; rw [h, show (0x8A#8).toNat = 138 from rfl]; rfl
theorem opcode_8B (e : Enc) (h : e.opc = 0x8B#8) : decodeFields e = (some (.discard e.g e.x e.ka)) := by
  unfold decodeFields; rw [h, show ((0x8B#8).extractLsb' 4 4).toNat = 8 from by decide]; show decodeMem e = _
  unfold decodeMem; rw [h, show (0x8B#8).toNat = 139 from rfl]; rfl
theorem opcode_8C (e : Enc) (h : e.opc = 0x8C#8) : decodeFields e = (some (.waitc e.g (e.x1.extractLsb' 0 8) (e.x1.extractLsb' 8 8) (e.x1.extractLsb' 16 8) (e.x1.extractLsb' 24 8))) := by
  unfold decodeFields; rw [h, show ((0x8C#8).extractLsb' 4 4).toNat = 8 from by decide]; show decodeMem e = _
  unfold decodeMem; rw [h, show (0x8C#8).toNat = 140 from rfl]; rfl
theorem opcode_A0 (e : Enc) (h : e.opc = 0xA0#8) : decodeFields e = (do some (.cpy e.g (← e.copyF) e.k (← srcOfField e.a) (← srcOfField e.b) (← srcOfField e.c))) := by
  unfold decodeFields; rw [h, show ((0xA0#8).extractLsb' 4 4).toNat = 10 from by decide]; show decodeEngine e = _
  unfold decodeEngine; rw [h, show (0xA0#8).toNat = 160 from rfl]; rfl
theorem opcode_A1 (e : Enc) (h : e.opc = 0xA1#8) : decodeFields e = (do
          some (.cpg e.g (← e.copyF) e.k (← srcOfField e.a) (← srcOfField e.b) (← srcOfField e.c) (← e.dF) (e.x2.extractLsb' 0 16))) := by
  unfold decodeFields; rw [h, show ((0xA1#8).extractLsb' 4 4).toNat = 10 from by decide]; show decodeEngine e = _
  unfold decodeEngine; rw [h, show (0xA1#8).toNat = 161 from rfl]; rfl
theorem opcode_A2 (e : Enc) (h : e.opc = 0xA2#8) : decodeFields e = (do some (.cpm e.g (← e.copyF) e.k (← srcOfField e.a) (← srcOfField e.b) (← srcOfField e.c) (← e.dF))) := by
  unfold decodeFields; rw [h, show ((0xA2#8).extractLsb' 4 4).toNat = 10 from by decide]; show decodeEngine e = _
  unfold decodeEngine; rw [h, show (0xA2#8).toNat = 162 from rfl]; rfl
theorem opcode_A3 (e : Enc) (h : e.opc = 0xA3#8) : decodeFields e = (do some (.cpyr e.g e.t (← e.copyF) e.k (← srcOfField e.a) (← srcOfField e.b) (← srcOfField e.c))) := by
  unfold decodeFields; rw [h, show ((0xA3#8).extractLsb' 4 4).toNat = 10 from by decide]; show decodeEngine e = _
  unfold decodeEngine; rw [h, show (0xA3#8).toNat = 163 from rfl]; rfl
theorem opcode_A4 (e : Enc) (h : e.opc = 0xA4#8) : decodeFields e = (do some (.cpyo e.g (← e.copyF) e.k (← srcOfField e.a) (← srcOfField e.b) (← srcOfField e.c) (← e.dF))) := by
  unfold decodeFields; rw [h, show ((0xA4#8).extractLsb' 4 4).toNat = 10 from by decide]; show decodeEngine e = _
  unfold decodeEngine; rw [h, show (0xA4#8).toNat = 164 from rfl]; rfl
theorem opcode_A5 (e : Enc) (h : e.opc = 0xA5#8) : decodeFields e = (do some (.cpya e.g (← e.copyF) e.k (← srcOfField e.a) (← srcOfField e.b) (← srcOfField e.c) (← e.dF))) := by
  unfold decodeFields; rw [h, show ((0xA5#8).extractLsb' 4 4).toNat = 10 from by decide]; show decodeEngine e = _
  unfold decodeEngine; rw [h, show (0xA5#8).toNat = 165 from rfl]; rfl
theorem opcode_A6 (e : Enc) (h : e.opc = 0xA6#8) : decodeFields e = (some (.qfence e.g (e.sub.extractLsb' 0 4))) := by
  unfold decodeFields; rw [h, show ((0xA6#8).extractLsb' 4 4).toNat = 10 from by decide]; show decodeEngine e = _
  unfold decodeEngine; rw [h, show (0xA6#8).toNat = 166 from rfl]; rfl
theorem opcode_A7 (e : Enc) (h : e.opc = 0xA7#8) : decodeFields e = (e.h1 .join) := by
  unfold decodeFields; rw [h, show ((0xA7#8).extractLsb' 4 4).toNat = 10 from by decide]; show decodeEngine e = _
  unfold decodeEngine; rw [h, show (0xA7#8).toNat = 167 from rfl]; rfl
theorem opcode_A8 (e : Enc) (h : e.opc = 0xA8#8) : decodeFields e = (do some (.test e.g e.p (← e.sA))) := by
  unfold decodeFields; rw [h, show ((0xA8#8).extractLsb' 4 4).toNat = 10 from by decide]; show decodeEngine e = _
  unfold decodeEngine; rw [h, show (0xA8#8).toNat = 168 from rfl]; rfl
theorem opcode_A9 (e : Enc) (h : e.opc = 0xA9#8) : decodeFields e = (e.h1 .cancel) := by
  unfold decodeFields; rw [h, show ((0xA9#8).extractLsb' 4 4).toNat = 10 from by decide]; show decodeEngine e = _
  unfold decodeEngine; rw [h, show (0xA9#8).toNat = 169 from rfl]; rfl
theorem opcode_AA (e : Enc) (h : e.opc = 0xAA#8) : decodeFields e = (e.h1 .waitany) := by
  unfold decodeFields; rw [h, show ((0xAA#8).extractLsb' 4 4).toNat = 10 from by decide]; show decodeEngine e = _
  unfold decodeEngine; rw [h, show (0xAA#8).toNat = 170 from rfl]; rfl
theorem opcode_AB (e : Enc) (h : e.opc = 0xAB#8) : decodeFields e = (e.h1 .waitall) := by
  unfold decodeFields; rw [h, show ((0xAB#8).extractLsb' 4 4).toNat = 10 from by decide]; show decodeEngine e = _
  unfold decodeEngine; rw [h, show (0xAB#8).toNat = 171 from rfl]; rfl
theorem opcode_AC (e : Enc) (h : e.opc = 0xAC#8) : decodeFields e = (e.h1 .ffr) := by
  unfold decodeFields; rw [h, show ((0xAC#8).extractLsb' 4 4).toNat = 10 from by decide]; show decodeEngine e = _
  unfold decodeEngine; rw [h, show (0xAC#8).toNat = 172 from rfl]; rfl
theorem opcode_B0 (e : Enc) (h : e.opc = 0xB0#8) : decodeFields e = (e.h1 .oclaim) := by
  unfold decodeFields; rw [h, show ((0xB0#8).extractLsb' 4 4).toNat = 11 from by decide]; show decodeEngine e = _
  unfold decodeEngine; rw [h, show (0xB0#8).toNat = 176 from rfl]; rfl
theorem opcode_B1 (e : Enc) (h : e.opc = 0xB1#8) : decodeFields e = (do some (.orel e.g (← srcOfField e.a) (← srcOfField e.b))) := by
  unfold decodeFields; rw [h, show ((0xB1#8).extractLsb' 4 4).toNat = 11 from by decide]; show decodeEngine e = _
  unfold decodeEngine; rw [h, show (0xB1#8).toNat = 177 from rfl]; rfl
theorem opcode_B2 (e : Enc) (h : e.opc = 0xB2#8) : decodeFields e = (e.h1 .aclaim) := by
  unfold decodeFields; rw [h, show ((0xB2#8).extractLsb' 4 4).toNat = 11 from by decide]; show decodeEngine e = _
  unfold decodeEngine; rw [h, show (0xB2#8).toNat = 178 from rfl]; rfl
theorem opcode_B3 (e : Enc) (h : e.opc = 0xB3#8) : decodeFields e = (do some (.arel e.g (← srcOfField e.a) (← srcOfField e.b))) := by
  unfold decodeFields; rw [h, show ((0xB3#8).extractLsb' 4 4).toNat = 11 from by decide]; show decodeEngine e = _
  unfold decodeEngine; rw [h, show (0xB3#8).toNat = 179 from rfl]; rfl
theorem opcode_B4 (e : Enc) (h : e.opc = 0xB4#8) : decodeFields e = (do
          some (.mloop e.g e.t (Ty.ofCode (e.x1.extractLsb' 20 4)) e.prio e.k (← srcOfField e.a) (← srcOfField e.b)
            (← srcOfField e.c) (e.x1.extractLsb' 0 12) (e.x1.extractLsb' 12 4) (e.x1.extractLsb' 16 4) (← e.mmode))) := by
  unfold decodeFields; rw [h, show ((0xB4#8).extractLsb' 4 4).toNat = 11 from by decide]; show decodeEngine e = _
  unfold decodeEngine; rw [h, show (0xB4#8).toNat = 180 from rfl]; rfl
theorem opcode_B5 (e : Enc) (h : e.opc = 0xB5#8) : decodeFields e = (do some (.mzero e.g e.prio e.k (← srcOfField e.a))) := by
  unfold decodeFields; rw [h, show ((0xB5#8).extractLsb' 4 4).toNat = 11 from by decide]; show decodeEngine e = _
  unfold decodeEngine; rw [h, show (0xB5#8).toNat = 181 from rfl]; rfl
theorem opcode_B6 (e : Enc) (h : e.opc = 0xB6#8) : decodeFields e = (do some (.mrowsc e.g e.prio e.k (← srcOfField e.a) (← srcOfField e.b))) := by
  unfold decodeFields; rw [h, show ((0xB6#8).extractLsb' 4 4).toNat = 11 from by decide]; show decodeEngine e = _
  unfold decodeEngine; rw [h, show (0xB6#8).toNat = 182 from rfl]; rfl
theorem opcode_C0 (e : Enc) (h : e.opc = 0xC0#8) : decodeFields e = (do some (.bar e.g (← BarLevel.ofCode e.prio) e.mod (← e.sc))) := by
  unfold decodeFields; rw [h, show ((0xC0#8).extractLsb' 4 4).toNat = 12 from by decide]; show decodeSys e = _
  unfold decodeSys; rw [h, show (0xC0#8).toNat = 192 from rfl]; rfl
theorem opcode_C1 (e : Enc) (h : e.opc = 0xC1#8) : decodeFields e = (do some (.arrive e.g (← BarLevel.ofCode e.prio) e.mod (← e.sc) e.k (← e.sA))) := by
  unfold decodeFields; rw [h, show ((0xC1#8).extractLsb' 4 4).toNat = 12 from by decide]; show decodeSys e = _
  unfold decodeSys; rw [h, show (0xC1#8).toNat = 193 from rfl]; rfl
theorem opcode_C2 (e : Enc) (h : e.opc = 0xC2#8) : decodeFields e = (do some (.await e.g (← BarLevel.ofCode e.prio) e.mod (← e.sc) (← e.sA))) := by
  unfold decodeFields; rw [h, show ((0xC2#8).extractLsb' 4 4).toNat = 12 from by decide]; show decodeSys e = _
  unfold decodeSys; rw [h, show (0xC2#8).toNat = 194 from rfl]; rfl
theorem opcode_C3 (e : Enc) (h : e.opc = 0xC3#8) : decodeFields e = (some (.yield e.g)) := by
  unfold decodeFields; rw [h, show ((0xC3#8).extractLsb' 4 4).toNat = 12 from by decide]; show decodeSys e = _
  unfold decodeSys; rw [h, show (0xC3#8).toNat = 195 from rfl]; rfl
theorem opcode_C4 (e : Enc) (h : e.opc = 0xC4#8) : decodeFields e = (do some (.mfs e.g e.k (← SysReg.ofCode e.sub))) := by
  unfold decodeFields; rw [h, show ((0xC4#8).extractLsb' 4 4).toNat = 12 from by decide]; show decodeSys e = _
  unfold decodeSys; rw [h, show (0xC4#8).toNat = 196 from rfl]; rfl
theorem opcode_C5 (e : Enc) (h : e.opc = 0xC5#8) : decodeFields e = (do some (.mts e.g (← SysReg.ofCode e.sub) (← e.sA))) := by
  unfold decodeFields; rw [h, show ((0xC5#8).extractLsb' 4 4).toNat = 12 from by decide]; show decodeSys e = _
  unfold decodeSys; rw [h, show (0xC5#8).toNat = 197 from rfl]; rfl
theorem opcode_C6 (e : Enc) (h : e.opc = 0xC6#8) : decodeFields e = (do some (.mode e.g (← e.sA) (← e.sB))) := by
  unfold decodeFields; rw [h, show ((0xC6#8).extractLsb' 4 4).toNat = 12 from by decide]; show decodeSys e = _
  unfold decodeSys; rw [h, show (0xC6#8).toNat = 198 from rfl]; rfl
theorem opcode_C7 (e : Enc) (h : e.opc = 0xC7#8) : decodeFields e = (do some (.qxfer e.g e.k (← e.sA) e.mod)) := by
  unfold decodeFields; rw [h, show ((0xC7#8).extractLsb' 4 4).toNat = 12 from by decide]; show decodeSys e = _
  unfold decodeSys; rw [h, show (0xC7#8).toNat = 199 from rfl]; rfl
theorem opcode_C8 (e : Enc) (h : e.opc = 0xC8#8) : decodeFields e = (some (.trap e.g e.sub)) := by
  unfold decodeFields; rw [h, show ((0xC8#8).extractLsb' 4 4).toNat = 12 from by decide]; show decodeSys e = _
  unfold decodeSys; rw [h, show (0xC8#8).toNat = 200 from rfl]; rfl
theorem opcode_C9 (e : Enc) (h : e.opc = 0xC9#8) : decodeFields e = (some (.rft e.g)) := by
  unfold decodeFields; rw [h, show ((0xC9#8).extractLsb' 4 4).toNat = 12 from by decide]; show decodeSys e = _
  unfold decodeSys; rw [h, show (0xC9#8).toNat = 201 from rfl]; rfl
theorem opcode_CA (e : Enc) (h : e.opc = 0xCA#8) : decodeFields e = (some (.snap e.g e.k)) := by
  unfold decodeFields; rw [h, show ((0xCA#8).extractLsb' 4 4).toNat = 12 from by decide]; show decodeSys e = _
  unfold decodeSys; rw [h, show (0xCA#8).toNat = 202 from rfl]; rfl
theorem opcode_CB (e : Enc) (h : e.opc = 0xCB#8) : decodeFields e = (some (.brk e.g e.sub)) := by
  unfold decodeFields; rw [h, show ((0xCB#8).extractLsb' 4 4).toNat = 12 from by decide]; show decodeSys e = _
  unfold decodeSys; rw [h, show (0xCB#8).toNat = 203 from rfl]; rfl
theorem opcode_CC (e : Enc) (h : e.opc = 0xCC#8) : decodeFields e = (some (.launch e.g (e.sub.getLsbD 5) (e.sub.getLsbD 4) e.k e.ka)) := by
  unfold decodeFields; rw [h, show ((0xCC#8).extractLsb' 4 4).toNat = 12 from by decide]; show decodeSys e = _
  unfold decodeSys; rw [h, show (0xCC#8).toNat = 204 from rfl]; rfl

end Sys2Proof.Laws.Encoding
end

