-- ==== Sys2Proof/Laws/Tab.lean ====
section
/-!
SUPPORT. Laws of sparse tables: read after write, and that writing keeps the canonical form.
-/

namespace Sys2Proof.Machine

variable {α : Type}

theorem risingFrom_mono {lo hi : Nat} {t : Tab α} (h : risingFrom hi t = true) (hl : lo ≤ hi) :
    risingFrom lo t = true := by
  cases t with
  | nil => rfl
  | cons e r =>
    simp [risingFrom] at h ⊢
    exact ⟨by omega, h.2⟩

@[simp] theorem look_put_same (t : Tab α) (i : Nat) (x : α) : look (put t i x) i = some x := by
  induction t with
  | nil => simp [put, look]
  | cons e r ih =>
    simp only [put]
    repeat' split
    all_goals simp [look, *]

theorem look_put_other (t : Tab α) {i j : Nat} (x : α) (h : j ≠ i) : look (put t i x) j = look t j := by
  induction t with
  | nil => simp [put, look, h]
  | cons e r ih =>
    simp only [put]
    split
    · subst_vars; simp [look, h]
    · split <;> simp [look, h, ih]

@[simp] theorem look_del_same (t : Tab α) (i : Nat) : look (del t i) i = none := by
  induction t with
  | nil => rfl
  | cons e r ih =>
    simp only [del]
    split
    · exact ih
    · simp [look, *]

theorem look_del_other (t : Tab α) {i j : Nat} (h : j ≠ i) : look (del t i) j = look t j := by
  induction t with
  | nil => rfl
  | cons e r ih =>
    simp only [del]
    split
    · subst_vars; simp [look, h, ih]
    · simp [look, ih]

@[simp] theorem look_mapv (f : Nat → α → α) (t : Tab α) (i : Nat) : look (mapv f t) i = (look t i).map (f i) := by
  induction t with
  | nil => rfl
  | cons e r ih =>
    obtain ⟨k, a⟩ := e
    by_cases h : i = k
    · subst h; simp [look, mapv]
    · simpa [look, mapv, h] using ih

/-- An entry changed is the one looked up. -/
theorem look_upd (t : Tab α) (i j : Nat) (f : α → α) :
    look (upd t i f) j = if j = i then (look t i).map f else look t j := by
  unfold upd
  split
  · split
    · subst_vars; simp [*]
    · rw [look_put_other _ _ ‹_›]
  · split
    · subst_vars; simp [*]
    · rfl

theorem risingFrom_put {lo i : Nat} {t : Tab α} (h : risingFrom lo t = true) (hi : lo ≤ i) (x : α) :
    risingFrom lo (put t i x) = true := by
  induction t generalizing lo with
  | nil => simp [put, risingFrom, hi]
  | cons e r ih =>
    simp [risingFrom] at h
    simp only [put]
    split
    · simp [risingFrom, h]
    · split
      · simp [risingFrom, h, hi]; omega
      · simp [risingFrom, h, ih h.2 (by omega)]

theorem risingFrom_del {lo i : Nat} {t : Tab α} (h : risingFrom lo t = true) : risingFrom lo (del t i) = true := by
  induction t generalizing lo with
  | nil => rfl
  | cons e r ih =>
    simp [risingFrom] at h
    simp only [del]
    split
    · exact risingFrom_mono (ih h.2) (by omega)
    · simp [risingFrom, h, ih h.2]

theorem mem_put {t : Tab α} {i : Nat} {x : α} {e : Nat × α} (h : e ∈ put t i x) : e = (i, x) ∨ e ∈ t := by
  induction t with
  | nil => simpa [put] using h
  | cons c r ih =>
    simp only [put] at h
    split at h
    · subst_vars; simp at h ⊢; tauto
    · split at h
      · simp at h ⊢; tauto
      · simp at h ⊢
        rcases h with h | h
        · tauto
        · rcases ih h with h | h <;> tauto

theorem mem_del {t : Tab α} {i : Nat} {e : Nat × α} (h : e ∈ del t i) : e ∈ t := by
  induction t with
  | nil => simp [del] at h
  | cons c r ih =>
    simp only [del] at h
    split at h
    · exact List.mem_cons_of_mem _ (ih h)
    · simp at h ⊢; tauto

@[simp] theorem get_set_same [DecidableEq α] (d : α) (t : Tab α) (i : Nat) (x : α) : get d (set d t i x) i = x := by
  unfold set get
  split <;> simp [*]

theorem get_set_other [DecidableEq α] (d : α) (t : Tab α) {i j : Nat} (x : α) (hj : j ≠ i) :
    get d (set d t i x) j = get d t j := by
  unfold set get
  split
  · rw [look_del_other _ hj]
  · rw [look_put_other _ _ hj]

theorem rising_set [DecidableEq α] (d : α) {t : Tab α} (h : rising t = true) (i : Nat) (x : α) :
    rising (set d t i x) = true := by
  unfold set
  split
  · exact risingFrom_del h
  · exact risingFrom_put h (Nat.zero_le _) x

theorem rising_put {t : Tab α} (h : rising t = true) (i : Nat) (x : α) : rising (put t i x) = true :=
  risingFrom_put h (Nat.zero_le _) x

theorem rising_del {t : Tab α} (h : rising t = true) (i : Nat) : rising (del t i) = true := risingFrom_del h

theorem rising_upd {t : Tab α} (h : rising t = true) (i : Nat) (f : α → α) : rising (upd t i f) = true := by
  unfold upd
  split
  · exact rising_put h _ _
  · exact h

theorem canon_set [DecidableEq α] (d : α) {t : Tab α} (h : canon d t = true) (i : Nat) (x : α) :
    canon d (set d t i x) = true := by
  simp only [canon, Bool.and_eq_true, List.all_eq_true, bne_iff_ne] at h ⊢
  refine ⟨rising_set d h.1 i x, fun e he => ?_⟩
  unfold set at he
  split at he
  · exact h.2 e (mem_del he)
  · rcases mem_put he with rfl | he
    · assumption
    · exact h.2 e he

theorem canon_setRange [DecidableEq α] (d : α) {t : Tab α} (h : canon d t = true) (i : Nat) (l : List α) :
    canon d (setRange d t i l) = true := by
  induction l generalizing t i with
  | nil => exact h
  | cons x r ih => exact ih (canon_set d h i x) (i + 1)

theorem canon_rising [DecidableEq α] {d : α} {t : Tab α} (h : canon d t = true) : rising t = true := by
  simp only [canon, Bool.and_eq_true] at h
  exact h.1

theorem risingFrom_filter {lo : Nat} {t : Tab α} (h : risingFrom lo t = true) (p : Nat × α → Bool) :
    risingFrom lo (t.filter p) = true := by
  induction t generalizing lo with
  | nil => rfl
  | cons e r ih =>
    simp [risingFrom] at h
    simp only [List.filter]
    split
    · simp [risingFrom, h, ih h.2]
    · exact risingFrom_mono (ih h.2) (by omega)

theorem canon_keep [DecidableEq α] (d : α) {t : Tab α} (h : canon d t = true) (p : Nat → α → Bool) :
    canon d (keep p t) = true := by
  simp only [canon, Bool.and_eq_true, List.all_eq_true, bne_iff_ne] at h ⊢
  exact ⟨risingFrom_filter h.1 _, fun e he => h.2 e (List.mem_of_mem_filter he)⟩

end Sys2Proof.Machine
end

