-- ==== Sys2Proof/Laws/Group.lean ====
section
/-!
SUPPORT. Registers of a group: what reads give after writes, and what a write leaves alone.
-/

namespace Sys2Proof.Machine

/-- What a location reads as after a value has been put into it: `p0` stays true, another predicate holds one bit (R53). -/
def Loc.hold (loc : Loc) (x : W32) : W32 :=
  match loc with
  | .p i => if i = 0 then 1 else if x = 0 then 0 else 1
  | _ => x

theorem one_getLsbD {l m : Nat} (hl : l < 16) : (Lanes.one l).getLsbD m = decide (m = l) := by
  unfold Lanes.one
  rw [BitVec.getLsbD_twoPow]
  simp [hl]
  omega

theorem vKey_inj {l m p q : Nat} (hl : l < 16) (hm : m < 16) (h : vKey l p = vKey m q) : l = m ∧ p = q := by
  unfold vKey at h; omega

theorem oKey_inj {l m p q : Nat} (hl : l < 16) (hm : m < 16) (h : oKey l p = oKey m q) : l = m ∧ p = q := by
  unfold oKey at h; omega

/-- A predicate after a write of one. -/
theorem pred_put (g : Group) {l m i : Nat} (hl : l < 16) (hm : m < 16) (hi : i ≠ 0) (j : Nat) (x : W32) :
    (g.put l (.p i) x).pred j m = if m = l ∧ j = i then decide (x ≠ 0) else g.pred j m := by
  have e : (g.put l (.p i) x).p = set 0 g.p i (if x = 0 then get 0 g.p i &&& ~~~ Lanes.one l else get 0 g.p i ||| Lanes.one l) := by
    simp [Group.put, hi]
  unfold Group.pred
  rw [e]
  by_cases hj : j = i
  · subst hj
    rw [get_set_same]
    by_cases hml : m = l
    · subst hml
      by_cases hx : x = 0 <;> simp only [hx, if_true, if_false] <;> simp [hi, one_getLsbD hl, -BitVec.getLsbD_eq_getElem]; exact hx
    · by_cases hx : x = 0 <;> simp only [hx, if_true, if_false] <;>
        simp [hml, hm, one_getLsbD hl, -BitVec.getLsbD_eq_getElem]
  · rw [get_set_other _ _ _ hj]; simp [hj]

/-- A read after a write of one location of a lane. -/
theorem rd_put (g : Group) {l m : Nat} (hl : l < 16) (hm : m < 16) (loc loc' : Loc) (x : W32) :
    (g.put l loc x).rd m loc' = if m = l ∧ loc' = loc then loc.hold x else g.rd m loc' := by
  cases loc with
  | v p =>
    cases loc' <;> simp only [Group.put, Group.rd, Loc.hold, Loc.v.injEq, reduceCtorEq, and_false, if_false]
    case v q =>
      split
      · rename_i h; obtain ⟨rfl, rfl⟩ := h; simp
      · rename_i h; exact get_set_other _ _ _ fun e => h (vKey_inj hm hl e)
    case p i => rfl
  | o p =>
    cases loc' <;> simp only [Group.put, Group.rd, Loc.hold, Loc.o.injEq, reduceCtorEq, and_false, if_false]
    case o q =>
      split
      · rename_i h; obtain ⟨rfl, rfl⟩ := h; simp
      · rename_i h; exact get_set_other _ _ _ fun e => h (oKey_inj hm hl e)
    case p i => rfl
  | lat =>
    cases loc' <;> simp only [Group.put, Group.rd, Loc.hold, reduceCtorEq, and_false, if_false, and_true]
    case lat =>
      split
      · rename_i h; subst h; simp
      · rename_i h; exact get_set_other _ _ _ h
    case p i => rfl
  | p i =>
    by_cases hi : i = 0
    · subst hi
      simp only [Group.put, if_true, Loc.hold]
      split
      · rename_i h; rw [h.2]; simp [Group.rd, Group.pred]
      · rfl
    · cases loc'
      case p j =>
        simp only [Group.rd, pred_put g hl hm hi, Loc.p.injEq, Loc.hold, if_neg hi]
        split
        · by_cases hx : x = 0 <;> simp [hx]
        · rfl
      all_goals
        simp only [Group.put, if_neg hi, Group.rd, reduceCtorEq, and_false, if_false]

theorem rd_setOwners (g : Group) (l m : Nat) (loc loc' : Loc) (ow : List (Nat × Loc)) :
    (g.setOwners l loc ow).rd m loc' = g.rd m loc' := by
  cases loc' <;> rfl

theorem rd_setBad (g : Group) (l m : Nat) (loc loc' : Loc) (b : Bool) : (g.setBad l loc b).rd m loc' = g.rd m loc' := by
  cases loc' <;> rfl

theorem rd_wr (g : Group) {l m : Nat} (hl : l < 16) (hm : m < 16) (loc loc' : Loc) (x : W32) :
    (g.wr l loc x).rd m loc' = if m = l ∧ loc' = loc then loc.hold x else g.rd m loc' := by
  simp only [Group.wr, rd_setBad, rd_setOwners, rd_put g hl hm]

/-! ## Pending marks -/

theorem ownersOf_setOwners (g : Group) (l m : Nat) (loc loc' : Loc) (ow : List (Nat × Loc)) :
    (g.setOwners l loc ow).ownersOf m loc' = if m = l ∧ loc' = loc then ow else g.ownersOf m loc' := by
  have key : ∀ ps : List Pend, ((ps.filter fun q => !(q.lane == l && q.loc == loc)).find? fun q => q.lane == m && q.loc == loc')
      = if m = l ∧ loc' = loc then none else ps.find? fun q => q.lane == m && q.loc == loc' := by
    intro ps
    induction ps with
    | nil => simp
    | cons q r ih =>
      by_cases hq : q.lane = l ∧ q.loc = loc
      · rw [List.filter_cons_of_neg (by simp [hq]), ih]
        split
        · rfl
        · rename_i h
          rw [List.find?_cons_of_neg]
          simp only [Bool.and_eq_true, beq_iff_eq, not_and]
          intro h1 h2; exact h ⟨by rw [← h1, hq.1], by rw [← h2, hq.2]⟩
      · rw [List.filter_cons_of_pos (by simp; tauto)]
        by_cases hm : q.lane = m ∧ q.loc = loc'
        · rw [List.find?_cons_of_pos (by simp [hm]), List.find?_cons_of_pos (by simp [hm])]
          rw [if_neg]
          rintro ⟨h1, h2⟩; exact hq ⟨by rw [hm.1, h1], by rw [hm.2, h2]⟩
        · rw [List.find?_cons_of_neg (by simp; tauto), List.find?_cons_of_neg (by simp; tauto), ih]
  unfold Group.setOwners Group.ownersOf
  dsimp only
  by_cases hw : ow.isEmpty
  · rw [if_pos hw, key]
    have : ow = [] := by simpa using hw
    subst this
    by_cases h : m = l ∧ loc' = loc
    · rw [if_pos h, if_pos h]
    · rw [if_neg h, if_neg h]
  · rw [if_neg hw]
    by_cases h : m = l ∧ loc' = loc
    · obtain ⟨rfl, rfl⟩ := h
      simp
    · rw [if_neg h, List.find?_cons_of_neg, key, if_neg h]
      simp only [Bool.and_eq_true, beq_iff_eq, not_and]
      intro h1 h2; exact h ⟨h1.symm, h2.symm⟩

theorem ownersOf_put (g : Group) (l m : Nat) (loc loc' : Loc) (x : W32) :
    (g.put l loc x).ownersOf m loc' = g.ownersOf m loc' := by
  cases loc <;> simp only [Group.put] <;> try rfl
  split <;> rfl

theorem ownersOf_setBad (g : Group) (l m : Nat) (loc loc' : Loc) (b : Bool) :
    (g.setBad l loc b).ownersOf m loc' = g.ownersOf m loc' := rfl

theorem ownersOf_wr (g : Group) (l m : Nat) (loc loc' : Loc) (x : W32) :
    (g.wr l loc x).ownersOf m loc' = if m = l ∧ loc' = loc then [] else g.ownersOf m loc' := by
  simp only [Group.wr, ownersOf_setBad, ownersOf_setOwners, ownersOf_put]

/-! ## Uniform registers -/

theorem kr_kw (g : Group) (i j : BitVec 5) (x : W64) :
    (g.kw i x).kr j = if j = i ∧ j ≠ 0 then x else g.kr j := by
  by_cases hj : j = 0
  · rw [if_neg (fun e => e.2 hj)]; simp only [Group.kr, hj, if_true]
  · by_cases hi : i = 0
    · rw [if_neg (fun e => hj (e.1.trans hi))]; simp only [Group.kw, hi, if_true]
    · simp only [Group.kw, Group.kr, if_neg hi, if_neg hj]
      by_cases h : j = i
      · subst h; rw [get_set_same, if_pos ⟨rfl, hj⟩]
      · rw [if_neg (fun e => h e.1)]
        exact get_set_other _ _ _ fun e => h (BitVec.eq_of_toNat_eq e)

theorem rd_kw (g : Group) (i : BitVec 5) (x : W64) (m : Nat) (loc : Loc) : (g.kw i x).rd m loc = g.rd m loc := by
  unfold Group.kw
  split
  · rfl
  · cases loc <;> rfl

theorem kr_put (g : Group) (l : Nat) (loc : Loc) (x : W32) (i : BitVec 5) : (g.put l loc x).kr i = g.kr i := by
  cases loc <;> simp only [Group.put] <;> try rfl
  split <;> rfl

theorem kr_wr (g : Group) (l : Nat) (loc : Loc) (x : W32) (i : BitVec 5) : (g.wr l loc x).kr i = g.kr i :=
  kr_put g l loc x i

end Sys2Proof.Machine
end

