-- ==== Sys2Proof/Laws/Lanes.lean ====
section
/-!
SUPPORT. What a result written at once does to the lanes of a group: one lane at a time, then all of them.
-/

namespace Sys2Proof.Machine

/-! ## One lane at a time -/

/-- Two groups agree in a lane: its registers, their marks, and every window base. -/
structure SameLane (m : Nat) (G H : Group) : Prop where
  rd : ∀ loc, H.rd m loc = G.rd m loc
  owners : ∀ loc, H.ownersOf m loc = G.ownersOf m loc
  base : H.base = G.base

theorem SameLane.refl (m : Nat) (G : Group) : SameLane m G G := ⟨fun _ => rfl, fun _ => rfl, rfl⟩

theorem SameLane.trans {m : Nat} {G H K : Group} (h : SameLane m G H) (k : SameLane m H K) : SameLane m G K :=
  ⟨fun l => (k.rd l).trans (h.rd l), fun l => (k.owners l).trans (h.owners l), k.base.trans h.base⟩

/-- A fold that works on one lane at a time leaves the others alone, and each of its lanes as that lane's own step does. -/
theorem foldl_lanes (f : Group → Nat → Group) (hf : ∀ G l m, l < 16 → m < 16 → m ≠ l → SameLane m G (f G l))
    (ls : List Nat) (hn : ls.Nodup) (hl : ∀ l ∈ ls, l < 16) (G : Group) (m : Nat) (hm : m < 16) :
    (m ∉ ls → SameLane m G (ls.foldl f G)) ∧
    (m ∈ ls → ∃ K, SameLane m G K ∧ SameLane m (f K m) (ls.foldl f G)) := by
  induction ls generalizing G with
  | nil => exact ⟨fun _ => .refl m G, fun h => by simp at h⟩
  | cons x r ih =>
    have hx : x < 16 := hl x (by simp)
    obtain ⟨hxr, hr⟩ := List.nodup_cons.mp hn
    have ih := ih hr (fun l h => hl l (by simp [h])) (f G x)
    refine ⟨fun h => ?_, fun h => ?_⟩
    · simp only [List.mem_cons, not_or] at h
      exact (hf G x m hx hm h.1).trans (ih.1 h.2)
    · by_cases e : m = x
      · subst e
        exact ⟨G, .refl m G, ih.1 hxr⟩
      · have hmr : m ∈ r := by simpa [e] using h
        obtain ⟨K, hK, hK'⟩ := ih.2 hmr
        exact ⟨K, (hf G x m hx hm e).trans hK, hK'⟩

theorem list_nodup (m : Lanes) : m.list.Nodup := List.Nodup.filter _ List.nodup_range
theorem list_lt {m : Lanes} {l : Nat} (h : l ∈ m.list) : l < 16 := by
  simp [Lanes.list] at h; exact h.1
theorem mem_list {m : Lanes} {l : Nat} : l ∈ m.list ↔ l < 16 ∧ m.getLsbD l = true := by
  unfold Lanes.list; rw [List.mem_filter, List.mem_range]

/-! ## Writes of one lane -/

theorem base_put (G : Group) (l : Nat) (loc : Loc) (x : W32) : (G.put l loc x).base = G.base := by
  cases loc <;> simp only [Group.put]
  split <;> rfl

theorem sameLane_wr (G : Group) {l m : Nat} (hl : l < 16) (hm : m < 16) (h : m ≠ l) (loc : Loc) (x : W32) :
    SameLane m G (G.wr l loc x) :=
  ⟨fun loc' => by rw [rd_wr G hl hm, if_neg fun e => h e.1], fun loc' => by rw [ownersOf_wr, if_neg fun e => h e.1],
   base_put G l loc x⟩

theorem sameLane_wrDst (G : Group) {l m : Nat} (hl : l < 16) (hm : m < 16) (h : m ≠ l) (t : Ty) (d : Dst) (x : W64) :
    SameLane m G (G.wrDst l t d x) := by
  unfold Group.wrDst
  generalize dstLocs t (G.D l) d = qs
  induction qs generalizing G with
  | nil => exact .refl m G
  | cons q r ih => exact (sameLane_wr G hl hm h _ _).trans (ih _)

/-- All that `latIdle` can do. -/
theorem latIdle_eq (G : Group) (l : Nat) (d : Dst) : G.latIdle l d = if Config.latKept then G else
    ((G.put l .lat (G.rd l (dstLow (G.D l) d))).setOwners l .lat (G.ownersOf l (dstLow (G.D l) d))).setBad l .lat
      (G.isBad l (dstLow (G.D l) d)) := by
  unfold Group.latIdle
  cases Config.latKept <;> rfl

theorem sameLane_latIdle (G : Group) {l m : Nat} (hl : l < 16) (hm : m < 16) (h : m ≠ l) (d : Dst) :
    SameLane m G (G.latIdle l d) := by
  rw [latIdle_eq]
  split
  · exact .refl m G
  · exact
      ⟨fun loc' => by simp only [rd_setBad, rd_setOwners, rd_put G hl hm, if_neg fun e : m = l ∧ _ => h e.1],
       fun loc' => by simp only [ownersOf_setBad, ownersOf_setOwners, ownersOf_put, if_neg fun e : m = l ∧ _ => h e.1], rfl⟩

/-- What `latIdle` leaves in its own lane. -/
theorem latIdle_own (G : Group) {l : Nat} (hl : l < 16) (d : Dst) :
    (G.latIdle l d).rd l .lat = G.rd l (G.latFrom l d) ∧ (G.latIdle l d).ownersOf l .lat = G.ownersOf l (G.latFrom l d)
    ∧ ∀ loc, loc ≠ .lat → (G.latIdle l d).rd l loc = G.rd l loc ∧ (G.latIdle l d).ownersOf l loc = G.ownersOf l loc := by
  rw [latIdle_eq]
  unfold Group.latFrom
  split
  · exact ⟨rfl, rfl, fun _ _ => ⟨rfl, rfl⟩⟩
  · refine ⟨?_, ?_, fun loc hn => ⟨?_, ?_⟩⟩
    · simp only [rd_setBad, rd_setOwners, rd_put G hl hl, and_self, if_true, Loc.hold]
    · simp only [ownersOf_setBad, ownersOf_setOwners, and_self, if_true]
    · simp only [rd_setBad, rd_setOwners, rd_put G hl hl, hn, and_false, if_false]
    · simp only [ownersOf_setBad, ownersOf_setOwners, ownersOf_put, hn, and_false, if_false]

/-- The words of a destination are different places. -/
theorem dstLocs_pairwise (t : Ty) (b : Nat) (d : Dst) : (dstLocs t b d).Pairwise fun p q => p.2 ≠ q.2 := by
  cases d <;> simp only [dstLocs] <;> split <;> simp

theorem dstLocs_ne {t : Ty} {b : Nat} {d : Dst} {q : Bool × Loc} (h : q ∈ dstLocs t b d) : q.2 ≠ .lat ∧ ∀ i, q.2 ≠ .p i := by
  cases d <;> simp only [dstLocs] at h <;> split at h <;> simp at h <;> aesop

theorem hold_dst {t : Ty} {b : Nat} {d : Dst} {q : Bool × Loc} (h : q ∈ dstLocs t b d) (x : W32) : q.2.hold x = x := by
  have := (dstLocs_ne h).2
  unfold Loc.hold
  split
  · rename_i i e; exact absurd e (this i)
  · rfl

/-- Writing several places one after another. -/
theorem wrs_rd (qs : List (Bool × Loc)) (v : Bool × Loc → W32) (hp : qs.Pairwise fun p q => p.2 ≠ q.2) (G : Group) {l : Nat} (hl : l < 16) :
    (∀ q ∈ qs, (qs.foldl (fun G q => G.wr l q.2 (v q)) G).rd l q.2 = q.2.hold (v q)
      ∧ (qs.foldl (fun G q => G.wr l q.2 (v q)) G).ownersOf l q.2 = []) ∧
    (∀ loc, (∀ q ∈ qs, q.2 ≠ loc) → (qs.foldl (fun G q => G.wr l q.2 (v q)) G).rd l loc = G.rd l loc
      ∧ (qs.foldl (fun G q => G.wr l q.2 (v q)) G).ownersOf l loc = G.ownersOf l loc) := by
  induction qs generalizing G with
  | nil => exact ⟨fun q h => by simp at h, fun _ _ => ⟨rfl, rfl⟩⟩
  | cons p r ih =>
    obtain ⟨h1, h2⟩ := List.pairwise_cons.mp hp
    obtain ⟨ia, ib⟩ := ih h2 (G.wr l p.2 (v p))
    refine ⟨fun q hq => ?_, fun loc h => ?_⟩
    · rcases List.mem_cons.mp hq with rfl | hq
      · obtain ⟨a, b⟩ := ib q.2 (fun q' hq' => (h1 q' hq').symm)
        exact ⟨by simp only [List.foldl_cons]; rw [a, rd_wr G hl hl, if_pos ⟨rfl, rfl⟩],
               by simp only [List.foldl_cons]; rw [b, ownersOf_wr, if_pos ⟨rfl, rfl⟩]⟩
      · exact ia q hq
    · obtain ⟨a, b⟩ := ib loc (fun q hq => h q (by simp [hq]))
      have hp' : loc ≠ p.2 := (h p (by simp)).symm
      exact ⟨by simp only [List.foldl_cons]; rw [a, rd_wr G hl hl, if_neg fun e => hp' e.2],
             by simp only [List.foldl_cons]; rw [b, ownersOf_wr, if_neg fun e => hp' e.2]⟩

theorem base_wr (G : Group) (l : Nat) (loc : Loc) (x : W32) : (G.wr l loc x).base = G.base := base_put G l loc x

theorem base_wrDst (G : Group) (l : Nat) (t : Ty) (d : Dst) (x : W64) : (G.wrDst l t d x).base = G.base := by
  unfold Group.wrDst
  generalize dstLocs t (G.D l) d = qs
  induction qs generalizing G with
  | nil => rfl
  | cons q r ih => exact (ih _).trans (base_wr G l q.2 _)

theorem laneHas (G : Group) {l : Nat} (hl : l < 16) (t : Ty) (d : Dst) (x : W64) :
    LaneHas G ((G.wrDst l t d x).wrLat l t x) l t d x := by
  obtain ⟨ha, hb⟩ := wrs_rd (dstLocs t (G.D l) d) (fun q => half q.1 (extend t x)) (dstLocs_pairwise t (G.D l) d) G hl
  have hd : G.wrDst l t d x = (dstLocs t (G.D l) d).foldl (fun g q => g.wr l q.2 (half q.1 (extend t x))) G := rfl
  refine ⟨fun q hq => ?_, ?_, fun loc h1 h2 => ?_⟩
  · have hne := (dstLocs_ne hq).1
    unfold Group.wrLat Group.isPend
    rw [rd_wr _ hl hl, if_neg fun e => hne e.2, ownersOf_wr, if_neg fun e => hne e.2, hd, (ha q hq).1, (ha q hq).2, hold_dst hq]
    exact ⟨rfl, rfl⟩
  · unfold Group.wrLat Group.isPend
    rw [rd_wr _ hl hl, if_pos ⟨rfl, rfl⟩, ownersOf_wr, if_pos ⟨rfl, rfl⟩]
    exact ⟨rfl, rfl⟩
  · unfold Group.wrLat
    rw [rd_wr _ hl hl, if_neg fun e => h1 e.2, ownersOf_wr, if_neg fun e => h1 e.2, hd]
    exact hb loc h2

/-! ## All lanes -/

/-- Nothing but lane registers and their marks differs. -/
def Group.regsOf (G H : Group) : Prop :=
  { H with v := G.v, o := G.o, lat := G.lat, p := G.p, pend := G.pend, poison := G.poison } = G

theorem Group.regsOf.refl (G : Group) : G.regsOf G := rfl

theorem Group.regsOf.trans {G H K : Group} (h : G.regsOf H) (k : H.regsOf K) : G.regsOf K := by
  unfold Group.regsOf at *; rw [← k] at h; exact h

theorem regsOf_put (G : Group) (l : Nat) (loc : Loc) (x : W32) : G.regsOf (G.put l loc x) := by
  cases loc <;> simp only [Group.put] <;> try rfl
  split <;> rfl

theorem regsOf_wr (G : Group) (l : Nat) (loc : Loc) (x : W32) : G.regsOf (G.wr l loc x) := regsOf_put G l loc x

theorem regsOf_foldl {α : Type} (f : Group → α → Group) (hf : ∀ (G : Group) (x : α), G.regsOf (f G x)) (ls : List α) (G : Group) :
    G.regsOf (ls.foldl f G) := by
  induction ls generalizing G with
  | nil => rfl
  | cons x r ih => exact (hf G x).trans (ih _)

theorem regsOf_wrDst (G : Group) (l : Nat) (t : Ty) (d : Dst) (x : W64) : G.regsOf (G.wrDst l t d x) :=
  regsOf_foldl (fun (g : Group) (q : Bool × Loc) => g.wr l q.2 (half q.1 (extend t x))) (fun G q => regsOf_wr G l q.2 _) _ G

theorem regsOf_laneDone (G : Group) (live act : Lanes) (dst : LDst) (r : Nat → W64) : G.regsOf (G.laneDone live act dst r) := by
  unfold Group.laneDone
  cases dst with
  | pred p => exact regsOf_foldl _ (fun G l => regsOf_wr G l _ _) _ G
  | reg t d =>
    refine (regsOf_foldl (fun (G : Group) (l : Nat) => (G.wrDst l t d (r l)).wrLat l t (r l)) (fun G l => ?_) act.list G).trans
      (regsOf_foldl (fun (G : Group) (l : Nat) => G.latIdle l d) (fun G l => rfl) _ _)
    exact (regsOf_wrDst G l t d _).trans (regsOf_wr _ l .lat _)

theorem LaneHas.same {G H K L : Group} {l : Nat} {t : Ty} {d : Dst} {x : W64} (h : LaneHas G H l t d x) (hl : SameLane l K G)
    (hr : SameLane l H L) : LaneHas K L l t d x := by
  have hD : G.D l = K.D l := by unfold Group.D; rw [hl.base]
  obtain ⟨h1, h2, h3⟩ := h
  rw [hD] at h1 h3
  refine ⟨fun q hq => ?_, ?_, fun loc a b => ?_⟩
  · unfold Group.isPend at *; rw [hr.rd, hr.owners]; exact h1 q hq
  · unfold Group.isPend at *; rw [hr.rd, hr.owners]; exact h2
  · rw [hr.rd, hr.owners, ← hl.rd, ← hl.owners]; exact h3 loc a b

theorem sameLane_step (G : Group) {l m : Nat} (hl : l < 16) (hm : m < 16) (h : m ≠ l) (t : Ty) (d : Dst) (x : W64) :
    SameLane m G ((G.wrDst l t d x).wrLat l t x) :=
  (sameLane_wrDst G hl hm h t d x).trans (sameLane_wr _ hl hm h .lat _)

theorem laneDone_written (G : Group) (live act : Lanes) (t : Ty) (d : Dst) (r : Nat → W64) :
    LanesWritten G (G.laneDone live act (.reg t d) r) live act t d r := by
  have hs : ∀ (G : Group) (l m : Nat), l < 16 → m < 16 → m ≠ l → SameLane m G ((G.wrDst l t d (r l)).wrLat l t (r l)) :=
    fun G l m hl hm h => sameLane_step G hl hm h t d (r l)
  have hi : ∀ (G : Group) (l m : Nat), l < 16 → m < 16 → m ≠ l → SameLane m G (G.latIdle l d) :=
    fun G l m hl hm h => sameLane_latIdle G hl hm h d
  have fa := fun m hm => foldl_lanes (fun G l => (G.wrDst l t d (r l)).wrLat l t (r l)) hs act.list (list_nodup act)
    (fun l h => list_lt h) G m hm
  have fi := fun K m hm => foldl_lanes (fun G l => G.latIdle l d) hi (live &&& ~~~ act).list (list_nodup _)
    (fun l h => list_lt h) K m hm
  have excl : ∀ l, l ∈ act.list → l ∉ (live &&& ~~~ act).list := by
    intro l h h'
    rw [mem_list] at h h'
    simp only [BitVec.getLsbD_and, BitVec.getLsbD_not, h.2] at h'
    simp at h'
  refine ⟨fun l h => ?_, fun l h => ?_, fun l hl h1 h2 => ?_⟩
  · obtain ⟨K, hK, hK'⟩ := (fa l (list_lt h)).2 h
    exact (laneHas K (list_lt h) t d (r l)).same hK (hK'.trans ((fi _ l (list_lt h)).1 (excl l h)))
  · have hl := list_lt h
    have h1 := (fa l hl).1 (fun h' => excl l h' h)
    obtain ⟨K, hK, hK'⟩ := (fi _ l hl).2 h
    have hk := h1.trans hK
    have hD : K.latFrom l d = G.latFrom l d := by unfold Group.latFrom Group.D; rw [hk.base]
    obtain ⟨a, b, e⟩ := latIdle_own K hl d
    rw [hD] at a b
    exact ⟨(hK'.rd .lat).trans (a.trans (hk.rd _)), (hK'.owners .lat).trans (b.trans (hk.owners _)),
      fun loc hn => ⟨(hK'.rd loc).trans ((e loc hn).1.trans (hk.rd _)), (hK'.owners loc).trans ((e loc hn).2.trans (hk.owners _))⟩⟩
  · have h := ((fa l hl).1 h1).trans ((fi _ l hl).1 h2)
    exact fun loc => ⟨h.rd loc, h.owners loc⟩

theorem laneDone_pred (G : Group) (live act : Lanes) (p : BitVec 3) (f : Nat → Bool) :
    PredWritten G (G.laneDone live act (.pred p) fun l => if f l then 1 else 0) act p f := by
  have hs : ∀ (G : Group) (l m : Nat), l < 16 → m < 16 → m ≠ l →
      SameLane m G (G.wr l (.p p.toNat) (lo32 (if f l then 1 else 0))) :=
    fun G l m hl hm h => sameLane_wr G hl hm h _ _
  have fa := fun m hm => foldl_lanes _ hs act.list (list_nodup act) (fun l h => list_lt h) G m hm
  refine ⟨fun l h hp => ?_, fun l hl loc h => ?_⟩
  · have hl := list_lt h
    have hp' : p.toNat ≠ 0 := fun e => hp (BitVec.eq_of_toNat_eq e)
    obtain ⟨K, _, hK'⟩ := (fa l hl).2 h
    constructor
    · have a := hK'.rd (.p p.toNat)
      rw [rd_wr K hl hl, if_pos ⟨rfl, rfl⟩] at a
      change (if Group.pred (G.laneDone live act (.pred p) fun l => if f l then 1 else 0) p.toNat l then (1 : W32) else 0)
        = Loc.hold (.p p.toNat) _ at a
      simp only [Loc.hold, if_neg hp'] at a
      by_cases hf : f l
      · rw [hf]; rw [hf] at a; by_contra hc; rw [if_neg hc] at a; exact absurd a (by decide)
      · have hf : f l = false := by simpa using hf
        rw [hf]; rw [hf] at a; by_contra hc
        rw [if_pos (by simpa using hc)] at a; exact absurd a (by decide)
    · unfold Group.isPend
      show (!(Group.ownersOf _ l _).isEmpty) = false
      refine (congrArg (fun x : List (Nat × Loc) => !x.isEmpty) (hK'.owners _)).trans ?_
      rw [ownersOf_wr, if_pos ⟨rfl, rfl⟩]; rfl
  · by_cases hm : l ∈ act.list
    · obtain ⟨K, hK, hK'⟩ := (fa l hl).2 hm
      refine (hK'.rd loc).trans ?_
      rw [rd_wr K hl hl]
      split
      · rename_i e
        rcases h with h | h | h
        · exact absurd hm h
        · subst h; rw [e.2]; simp [Loc.hold, Group.rd, Group.pred]
        · exact absurd e.2 h
      · exact hK.rd loc
    · exact ((fa l hl).1 hm).rd loc

end Sys2Proof.Machine
end

