-- ==== Sys2Proof/Laws/State.lean ====
section
/-!
SUPPORT. One lemma per field per update of State, each true by definition.
-/

namespace Sys2Proof.Machine

@[simp] theorem setTurn_turn (s : State) (x : Turn) : (s.setTurn x).turn = x := rfl
@[simp] theorem setTurn_tick (s : State) (x : Turn) : (s.setTurn x).tick = s.tick := rfl
@[simp] theorem setTurn_now (s : State) (x : Turn) : (s.setTurn x).now = s.now := rfl
@[simp] theorem setTurn_ids (s : State) (x : Turn) : (s.setTurn x).ids = s.ids := rfl
@[simp] theorem setTurn_inbox (s : State) (x : Turn) : (s.setTurn x).inbox = s.inbox := rfl
@[simp] theorem setTurn_groups (s : State) (x : Turn) : (s.setTurn x).groups = s.groups := rfl
@[simp] theorem setTurn_blocks (s : State) (x : Turn) : (s.setTurn x).blocks = s.blocks := rfl
@[simp] theorem setTurn_gangs (s : State) (x : Turn) : (s.setTurn x).gangs = s.gangs := rfl
@[simp] theorem setTurn_launches (s : State) (x : Turn) : (s.setTurn x).launches = s.launches := rfl
@[simp] theorem setTurn_cores (s : State) (x : Turn) : (s.setTurn x).cores = s.cores := rfl
@[simp] theorem setTurn_quads (s : State) (x : Turn) : (s.setTurn x).quads = s.quads := rfl
@[simp] theorem setTurn_cmds (s : State) (x : Turn) : (s.setTurn x).cmds = s.cmds := rfl
@[simp] theorem setTurn_homes (s : State) (x : Turn) : (s.setTurn x).homes = s.homes := rfl
@[simp] theorem setTurn_mem (s : State) (x : Turn) : (s.setTurn x).mem = s.mem := rfl
@[simp] theorem setTurn_net (s : State) (x : Turn) : (s.setTurn x).net = s.net := rfl
@[simp] theorem setTurn_ring (s : State) (x : Turn) : (s.setTurn x).ring = s.ring := rfl
@[simp] theorem setTurn_fab (s : State) (x : Turn) : (s.setTurn x).fab = s.fab := rfl
@[simp] theorem setTurn_host (s : State) (x : Turn) : (s.setTurn x).host = s.host := rfl
@[simp] theorem setTurn_ctxs (s : State) (x : Turn) : (s.setTurn x).ctxs = s.ctxs := rfl
@[simp] theorem setTurn_fw (s : State) (x : Turn) : (s.setTurn x).fw = s.fw := rfl
@[simp] theorem setTick_turn (s : State) (x : Nat) : (s.setTick x).turn = s.turn := rfl
@[simp] theorem setTick_tick (s : State) (x : Nat) : (s.setTick x).tick = x := rfl
@[simp] theorem setTick_now (s : State) (x : Nat) : (s.setTick x).now = s.now := rfl
@[simp] theorem setTick_ids (s : State) (x : Nat) : (s.setTick x).ids = s.ids := rfl
@[simp] theorem setTick_inbox (s : State) (x : Nat) : (s.setTick x).inbox = s.inbox := rfl
@[simp] theorem setTick_groups (s : State) (x : Nat) : (s.setTick x).groups = s.groups := rfl
@[simp] theorem setTick_blocks (s : State) (x : Nat) : (s.setTick x).blocks = s.blocks := rfl
@[simp] theorem setTick_gangs (s : State) (x : Nat) : (s.setTick x).gangs = s.gangs := rfl
@[simp] theorem setTick_launches (s : State) (x : Nat) : (s.setTick x).launches = s.launches := rfl
@[simp] theorem setTick_cores (s : State) (x : Nat) : (s.setTick x).cores = s.cores := rfl
@[simp] theorem setTick_quads (s : State) (x : Nat) : (s.setTick x).quads = s.quads := rfl
@[simp] theorem setTick_cmds (s : State) (x : Nat) : (s.setTick x).cmds = s.cmds := rfl
@[simp] theorem setTick_homes (s : State) (x : Nat) : (s.setTick x).homes = s.homes := rfl
@[simp] theorem setTick_mem (s : State) (x : Nat) : (s.setTick x).mem = s.mem := rfl
@[simp] theorem setTick_net (s : State) (x : Nat) : (s.setTick x).net = s.net := rfl
@[simp] theorem setTick_ring (s : State) (x : Nat) : (s.setTick x).ring = s.ring := rfl
@[simp] theorem setTick_fab (s : State) (x : Nat) : (s.setTick x).fab = s.fab := rfl
@[simp] theorem setTick_host (s : State) (x : Nat) : (s.setTick x).host = s.host := rfl
@[simp] theorem setTick_ctxs (s : State) (x : Nat) : (s.setTick x).ctxs = s.ctxs := rfl
@[simp] theorem setTick_fw (s : State) (x : Nat) : (s.setTick x).fw = s.fw := rfl
@[simp] theorem setNow_turn (s : State) (x : Nat) : (s.setNow x).turn = s.turn := rfl
@[simp] theorem setNow_tick (s : State) (x : Nat) : (s.setNow x).tick = s.tick := rfl
@[simp] theorem setNow_now (s : State) (x : Nat) : (s.setNow x).now = x := rfl
@[simp] theorem setNow_ids (s : State) (x : Nat) : (s.setNow x).ids = s.ids := rfl
@[simp] theorem setNow_inbox (s : State) (x : Nat) : (s.setNow x).inbox = s.inbox := rfl
@[simp] theorem setNow_groups (s : State) (x : Nat) : (s.setNow x).groups = s.groups := rfl
@[simp] theorem setNow_blocks (s : State) (x : Nat) : (s.setNow x).blocks = s.blocks := rfl
@[simp] theorem setNow_gangs (s : State) (x : Nat) : (s.setNow x).gangs = s.gangs := rfl
@[simp] theorem setNow_launches (s : State) (x : Nat) : (s.setNow x).launches = s.launches := rfl
@[simp] theorem setNow_cores (s : State) (x : Nat) : (s.setNow x).cores = s.cores := rfl
@[simp] theorem setNow_quads (s : State) (x : Nat) : (s.setNow x).quads = s.quads := rfl
@[simp] theorem setNow_cmds (s : State) (x : Nat) : (s.setNow x).cmds = s.cmds := rfl
@[simp] theorem setNow_homes (s : State) (x : Nat) : (s.setNow x).homes = s.homes := rfl
@[simp] theorem setNow_mem (s : State) (x : Nat) : (s.setNow x).mem = s.mem := rfl
@[simp] theorem setNow_net (s : State) (x : Nat) : (s.setNow x).net = s.net := rfl
@[simp] theorem setNow_ring (s : State) (x : Nat) : (s.setNow x).ring = s.ring := rfl
@[simp] theorem setNow_fab (s : State) (x : Nat) : (s.setNow x).fab = s.fab := rfl
@[simp] theorem setNow_host (s : State) (x : Nat) : (s.setNow x).host = s.host := rfl
@[simp] theorem setNow_ctxs (s : State) (x : Nat) : (s.setNow x).ctxs = s.ctxs := rfl
@[simp] theorem setNow_fw (s : State) (x : Nat) : (s.setNow x).fw = s.fw := rfl
@[simp] theorem setIds_turn (s : State) (x : Nat) : (s.setIds x).turn = s.turn := rfl
@[simp] theorem setIds_tick (s : State) (x : Nat) : (s.setIds x).tick = s.tick := rfl
@[simp] theorem setIds_now (s : State) (x : Nat) : (s.setIds x).now = s.now := rfl
@[simp] theorem setIds_ids (s : State) (x : Nat) : (s.setIds x).ids = x := rfl
@[simp] theorem setIds_inbox (s : State) (x : Nat) : (s.setIds x).inbox = s.inbox := rfl
@[simp] theorem setIds_groups (s : State) (x : Nat) : (s.setIds x).groups = s.groups := rfl
@[simp] theorem setIds_blocks (s : State) (x : Nat) : (s.setIds x).blocks = s.blocks := rfl
@[simp] theorem setIds_gangs (s : State) (x : Nat) : (s.setIds x).gangs = s.gangs := rfl
@[simp] theorem setIds_launches (s : State) (x : Nat) : (s.setIds x).launches = s.launches := rfl
@[simp] theorem setIds_cores (s : State) (x : Nat) : (s.setIds x).cores = s.cores := rfl
@[simp] theorem setIds_quads (s : State) (x : Nat) : (s.setIds x).quads = s.quads := rfl
@[simp] theorem setIds_cmds (s : State) (x : Nat) : (s.setIds x).cmds = s.cmds := rfl
@[simp] theorem setIds_homes (s : State) (x : Nat) : (s.setIds x).homes = s.homes := rfl
@[simp] theorem setIds_mem (s : State) (x : Nat) : (s.setIds x).mem = s.mem := rfl
@[simp] theorem setIds_net (s : State) (x : Nat) : (s.setIds x).net = s.net := rfl
@[simp] theorem setIds_ring (s : State) (x : Nat) : (s.setIds x).ring = s.ring := rfl
@[simp] theorem setIds_fab (s : State) (x : Nat) : (s.setIds x).fab = s.fab := rfl
@[simp] theorem setIds_host (s : State) (x : Nat) : (s.setIds x).host = s.host := rfl
@[simp] theorem setIds_ctxs (s : State) (x : Nat) : (s.setIds x).ctxs = s.ctxs := rfl
@[simp] theorem setIds_fw (s : State) (x : Nat) : (s.setIds x).fw = s.fw := rfl
@[simp] theorem setInbox_turn (s : State) (x : List Instr) : (s.setInbox x).turn = s.turn := rfl
@[simp] theorem setInbox_tick (s : State) (x : List Instr) : (s.setInbox x).tick = s.tick := rfl
@[simp] theorem setInbox_now (s : State) (x : List Instr) : (s.setInbox x).now = s.now := rfl
@[simp] theorem setInbox_ids (s : State) (x : List Instr) : (s.setInbox x).ids = s.ids := rfl
@[simp] theorem setInbox_inbox (s : State) (x : List Instr) : (s.setInbox x).inbox = x := rfl
@[simp] theorem setInbox_groups (s : State) (x : List Instr) : (s.setInbox x).groups = s.groups := rfl
@[simp] theorem setInbox_blocks (s : State) (x : List Instr) : (s.setInbox x).blocks = s.blocks := rfl
@[simp] theorem setInbox_gangs (s : State) (x : List Instr) : (s.setInbox x).gangs = s.gangs := rfl
@[simp] theorem setInbox_launches (s : State) (x : List Instr) : (s.setInbox x).launches = s.launches := rfl
@[simp] theorem setInbox_cores (s : State) (x : List Instr) : (s.setInbox x).cores = s.cores := rfl
@[simp] theorem setInbox_quads (s : State) (x : List Instr) : (s.setInbox x).quads = s.quads := rfl
@[simp] theorem setInbox_cmds (s : State) (x : List Instr) : (s.setInbox x).cmds = s.cmds := rfl
@[simp] theorem setInbox_homes (s : State) (x : List Instr) : (s.setInbox x).homes = s.homes := rfl
@[simp] theorem setInbox_mem (s : State) (x : List Instr) : (s.setInbox x).mem = s.mem := rfl
@[simp] theorem setInbox_net (s : State) (x : List Instr) : (s.setInbox x).net = s.net := rfl
@[simp] theorem setInbox_ring (s : State) (x : List Instr) : (s.setInbox x).ring = s.ring := rfl
@[simp] theorem setInbox_fab (s : State) (x : List Instr) : (s.setInbox x).fab = s.fab := rfl
@[simp] theorem setInbox_host (s : State) (x : List Instr) : (s.setInbox x).host = s.host := rfl
@[simp] theorem setInbox_ctxs (s : State) (x : List Instr) : (s.setInbox x).ctxs = s.ctxs := rfl
@[simp] theorem setInbox_fw (s : State) (x : List Instr) : (s.setInbox x).fw = s.fw := rfl
@[simp] theorem setGroups_turn (s : State) (x : Tab Group) : (s.setGroups x).turn = s.turn := rfl
@[simp] theorem setGroups_tick (s : State) (x : Tab Group) : (s.setGroups x).tick = s.tick := rfl
@[simp] theorem setGroups_now (s : State) (x : Tab Group) : (s.setGroups x).now = s.now := rfl
@[simp] theorem setGroups_ids (s : State) (x : Tab Group) : (s.setGroups x).ids = s.ids := rfl
@[simp] theorem setGroups_inbox (s : State) (x : Tab Group) : (s.setGroups x).inbox = s.inbox := rfl
@[simp] theorem setGroups_groups (s : State) (x : Tab Group) : (s.setGroups x).groups = x := rfl
@[simp] theorem setGroups_blocks (s : State) (x : Tab Group) : (s.setGroups x).blocks = s.blocks := rfl
@[simp] theorem setGroups_gangs (s : State) (x : Tab Group) : (s.setGroups x).gangs = s.gangs := rfl
@[simp] theorem setGroups_launches (s : State) (x : Tab Group) : (s.setGroups x).launches = s.launches := rfl
@[simp] theorem setGroups_cores (s : State) (x : Tab Group) : (s.setGroups x).cores = s.cores := rfl
@[simp] theorem setGroups_quads (s : State) (x : Tab Group) : (s.setGroups x).quads = s.quads := rfl
@[simp] theorem setGroups_cmds (s : State) (x : Tab Group) : (s.setGroups x).cmds = s.cmds := rfl
@[simp] theorem setGroups_homes (s : State) (x : Tab Group) : (s.setGroups x).homes = s.homes := rfl
@[simp] theorem setGroups_mem (s : State) (x : Tab Group) : (s.setGroups x).mem = s.mem := rfl
@[simp] theorem setGroups_net (s : State) (x : Tab Group) : (s.setGroups x).net = s.net := rfl
@[simp] theorem setGroups_ring (s : State) (x : Tab Group) : (s.setGroups x).ring = s.ring := rfl
@[simp] theorem setGroups_fab (s : State) (x : Tab Group) : (s.setGroups x).fab = s.fab := rfl
@[simp] theorem setGroups_host (s : State) (x : Tab Group) : (s.setGroups x).host = s.host := rfl
@[simp] theorem setGroups_ctxs (s : State) (x : Tab Group) : (s.setGroups x).ctxs = s.ctxs := rfl
@[simp] theorem setGroups_fw (s : State) (x : Tab Group) : (s.setGroups x).fw = s.fw := rfl
@[simp] theorem setBlocks_turn (s : State) (x : Tab Block) : (s.setBlocks x).turn = s.turn := rfl
@[simp] theorem setBlocks_tick (s : State) (x : Tab Block) : (s.setBlocks x).tick = s.tick := rfl
@[simp] theorem setBlocks_now (s : State) (x : Tab Block) : (s.setBlocks x).now = s.now := rfl
@[simp] theorem setBlocks_ids (s : State) (x : Tab Block) : (s.setBlocks x).ids = s.ids := rfl
@[simp] theorem setBlocks_inbox (s : State) (x : Tab Block) : (s.setBlocks x).inbox = s.inbox := rfl
@[simp] theorem setBlocks_groups (s : State) (x : Tab Block) : (s.setBlocks x).groups = s.groups := rfl
@[simp] theorem setBlocks_blocks (s : State) (x : Tab Block) : (s.setBlocks x).blocks = x := rfl
@[simp] theorem setBlocks_gangs (s : State) (x : Tab Block) : (s.setBlocks x).gangs = s.gangs := rfl
@[simp] theorem setBlocks_launches (s : State) (x : Tab Block) : (s.setBlocks x).launches = s.launches := rfl
@[simp] theorem setBlocks_cores (s : State) (x : Tab Block) : (s.setBlocks x).cores = s.cores := rfl
@[simp] theorem setBlocks_quads (s : State) (x : Tab Block) : (s.setBlocks x).quads = s.quads := rfl
@[simp] theorem setBlocks_cmds (s : State) (x : Tab Block) : (s.setBlocks x).cmds = s.cmds := rfl
@[simp] theorem setBlocks_homes (s : State) (x : Tab Block) : (s.setBlocks x).homes = s.homes := rfl
@[simp] theorem setBlocks_mem (s : State) (x : Tab Block) : (s.setBlocks x).mem = s.mem := rfl
@[simp] theorem setBlocks_net (s : State) (x : Tab Block) : (s.setBlocks x).net = s.net := rfl
@[simp] theorem setBlocks_ring (s : State) (x : Tab Block) : (s.setBlocks x).ring = s.ring := rfl
@[simp] theorem setBlocks_fab (s : State) (x : Tab Block) : (s.setBlocks x).fab = s.fab := rfl
@[simp] theorem setBlocks_host (s : State) (x : Tab Block) : (s.setBlocks x).host = s.host := rfl
@[simp] theorem setBlocks_ctxs (s : State) (x : Tab Block) : (s.setBlocks x).ctxs = s.ctxs := rfl
@[simp] theorem setBlocks_fw (s : State) (x : Tab Block) : (s.setBlocks x).fw = s.fw := rfl
@[simp] theorem setGangs_turn (s : State) (x : Tab Gang) : (s.setGangs x).turn = s.turn := rfl
@[simp] theorem setGangs_tick (s : State) (x : Tab Gang) : (s.setGangs x).tick = s.tick := rfl
@[simp] theorem setGangs_now (s : State) (x : Tab Gang) : (s.setGangs x).now = s.now := rfl
@[simp] theorem setGangs_ids (s : State) (x : Tab Gang) : (s.setGangs x).ids = s.ids := rfl
@[simp] theorem setGangs_inbox (s : State) (x : Tab Gang) : (s.setGangs x).inbox = s.inbox := rfl
@[simp] theorem setGangs_groups (s : State) (x : Tab Gang) : (s.setGangs x).groups = s.groups := rfl
@[simp] theorem setGangs_blocks (s : State) (x : Tab Gang) : (s.setGangs x).blocks = s.blocks := rfl
@[simp] theorem setGangs_gangs (s : State) (x : Tab Gang) : (s.setGangs x).gangs = x := rfl
@[simp] theorem setGangs_launches (s : State) (x : Tab Gang) : (s.setGangs x).launches = s.launches := rfl
@[simp] theorem setGangs_cores (s : State) (x : Tab Gang) : (s.setGangs x).cores = s.cores := rfl
@[simp] theorem setGangs_quads (s : State) (x : Tab Gang) : (s.setGangs x).quads = s.quads := rfl
@[simp] theorem setGangs_cmds (s : State) (x : Tab Gang) : (s.setGangs x).cmds = s.cmds := rfl
@[simp] theorem setGangs_homes (s : State) (x : Tab Gang) : (s.setGangs x).homes = s.homes := rfl
@[simp] theorem setGangs_mem (s : State) (x : Tab Gang) : (s.setGangs x).mem = s.mem := rfl
@[simp] theorem setGangs_net (s : State) (x : Tab Gang) : (s.setGangs x).net = s.net := rfl
@[simp] theorem setGangs_ring (s : State) (x : Tab Gang) : (s.setGangs x).ring = s.ring := rfl
@[simp] theorem setGangs_fab (s : State) (x : Tab Gang) : (s.setGangs x).fab = s.fab := rfl
@[simp] theorem setGangs_host (s : State) (x : Tab Gang) : (s.setGangs x).host = s.host := rfl
@[simp] theorem setGangs_ctxs (s : State) (x : Tab Gang) : (s.setGangs x).ctxs = s.ctxs := rfl
@[simp] theorem setGangs_fw (s : State) (x : Tab Gang) : (s.setGangs x).fw = s.fw := rfl
@[simp] theorem setLaunches_turn (s : State) (x : Tab Launch) : (s.setLaunches x).turn = s.turn := rfl
@[simp] theorem setLaunches_tick (s : State) (x : Tab Launch) : (s.setLaunches x).tick = s.tick := rfl
@[simp] theorem setLaunches_now (s : State) (x : Tab Launch) : (s.setLaunches x).now = s.now := rfl
@[simp] theorem setLaunches_ids (s : State) (x : Tab Launch) : (s.setLaunches x).ids = s.ids := rfl
@[simp] theorem setLaunches_inbox (s : State) (x : Tab Launch) : (s.setLaunches x).inbox = s.inbox := rfl
@[simp] theorem setLaunches_groups (s : State) (x : Tab Launch) : (s.setLaunches x).groups = s.groups := rfl
@[simp] theorem setLaunches_blocks (s : State) (x : Tab Launch) : (s.setLaunches x).blocks = s.blocks := rfl
@[simp] theorem setLaunches_gangs (s : State) (x : Tab Launch) : (s.setLaunches x).gangs = s.gangs := rfl
@[simp] theorem setLaunches_launches (s : State) (x : Tab Launch) : (s.setLaunches x).launches = x := rfl
@[simp] theorem setLaunches_cores (s : State) (x : Tab Launch) : (s.setLaunches x).cores = s.cores := rfl
@[simp] theorem setLaunches_quads (s : State) (x : Tab Launch) : (s.setLaunches x).quads = s.quads := rfl
@[simp] theorem setLaunches_cmds (s : State) (x : Tab Launch) : (s.setLaunches x).cmds = s.cmds := rfl
@[simp] theorem setLaunches_homes (s : State) (x : Tab Launch) : (s.setLaunches x).homes = s.homes := rfl
@[simp] theorem setLaunches_mem (s : State) (x : Tab Launch) : (s.setLaunches x).mem = s.mem := rfl
@[simp] theorem setLaunches_net (s : State) (x : Tab Launch) : (s.setLaunches x).net = s.net := rfl
@[simp] theorem setLaunches_ring (s : State) (x : Tab Launch) : (s.setLaunches x).ring = s.ring := rfl
@[simp] theorem setLaunches_fab (s : State) (x : Tab Launch) : (s.setLaunches x).fab = s.fab := rfl
@[simp] theorem setLaunches_host (s : State) (x : Tab Launch) : (s.setLaunches x).host = s.host := rfl
@[simp] theorem setLaunches_ctxs (s : State) (x : Tab Launch) : (s.setLaunches x).ctxs = s.ctxs := rfl
@[simp] theorem setLaunches_fw (s : State) (x : Tab Launch) : (s.setLaunches x).fw = s.fw := rfl
@[simp] theorem setCores_turn (s : State) (x : Tab Core) : (s.setCores x).turn = s.turn := rfl
@[simp] theorem setCores_tick (s : State) (x : Tab Core) : (s.setCores x).tick = s.tick := rfl
@[simp] theorem setCores_now (s : State) (x : Tab Core) : (s.setCores x).now = s.now := rfl
@[simp] theorem setCores_ids (s : State) (x : Tab Core) : (s.setCores x).ids = s.ids := rfl
@[simp] theorem setCores_inbox (s : State) (x : Tab Core) : (s.setCores x).inbox = s.inbox := rfl
@[simp] theorem setCores_groups (s : State) (x : Tab Core) : (s.setCores x).groups = s.groups := rfl
@[simp] theorem setCores_blocks (s : State) (x : Tab Core) : (s.setCores x).blocks = s.blocks := rfl
@[simp] theorem setCores_gangs (s : State) (x : Tab Core) : (s.setCores x).gangs = s.gangs := rfl
@[simp] theorem setCores_launches (s : State) (x : Tab Core) : (s.setCores x).launches = s.launches := rfl
@[simp] theorem setCores_cores (s : State) (x : Tab Core) : (s.setCores x).cores = x := rfl
@[simp] theorem setCores_quads (s : State) (x : Tab Core) : (s.setCores x).quads = s.quads := rfl
@[simp] theorem setCores_cmds (s : State) (x : Tab Core) : (s.setCores x).cmds = s.cmds := rfl
@[simp] theorem setCores_homes (s : State) (x : Tab Core) : (s.setCores x).homes = s.homes := rfl
@[simp] theorem setCores_mem (s : State) (x : Tab Core) : (s.setCores x).mem = s.mem := rfl
@[simp] theorem setCores_net (s : State) (x : Tab Core) : (s.setCores x).net = s.net := rfl
@[simp] theorem setCores_ring (s : State) (x : Tab Core) : (s.setCores x).ring = s.ring := rfl
@[simp] theorem setCores_fab (s : State) (x : Tab Core) : (s.setCores x).fab = s.fab := rfl
@[simp] theorem setCores_host (s : State) (x : Tab Core) : (s.setCores x).host = s.host := rfl
@[simp] theorem setCores_ctxs (s : State) (x : Tab Core) : (s.setCores x).ctxs = s.ctxs := rfl
@[simp] theorem setCores_fw (s : State) (x : Tab Core) : (s.setCores x).fw = s.fw := rfl
@[simp] theorem setQuads_turn (s : State) (x : Tab Quad) : (s.setQuads x).turn = s.turn := rfl
@[simp] theorem setQuads_tick (s : State) (x : Tab Quad) : (s.setQuads x).tick = s.tick := rfl
@[simp] theorem setQuads_now (s : State) (x : Tab Quad) : (s.setQuads x).now = s.now := rfl
@[simp] theorem setQuads_ids (s : State) (x : Tab Quad) : (s.setQuads x).ids = s.ids := rfl
@[simp] theorem setQuads_inbox (s : State) (x : Tab Quad) : (s.setQuads x).inbox = s.inbox := rfl
@[simp] theorem setQuads_groups (s : State) (x : Tab Quad) : (s.setQuads x).groups = s.groups := rfl
@[simp] theorem setQuads_blocks (s : State) (x : Tab Quad) : (s.setQuads x).blocks = s.blocks := rfl
@[simp] theorem setQuads_gangs (s : State) (x : Tab Quad) : (s.setQuads x).gangs = s.gangs := rfl
@[simp] theorem setQuads_launches (s : State) (x : Tab Quad) : (s.setQuads x).launches = s.launches := rfl
@[simp] theorem setQuads_cores (s : State) (x : Tab Quad) : (s.setQuads x).cores = s.cores := rfl
@[simp] theorem setQuads_quads (s : State) (x : Tab Quad) : (s.setQuads x).quads = x := rfl
@[simp] theorem setQuads_cmds (s : State) (x : Tab Quad) : (s.setQuads x).cmds = s.cmds := rfl
@[simp] theorem setQuads_homes (s : State) (x : Tab Quad) : (s.setQuads x).homes = s.homes := rfl
@[simp] theorem setQuads_mem (s : State) (x : Tab Quad) : (s.setQuads x).mem = s.mem := rfl
@[simp] theorem setQuads_net (s : State) (x : Tab Quad) : (s.setQuads x).net = s.net := rfl
@[simp] theorem setQuads_ring (s : State) (x : Tab Quad) : (s.setQuads x).ring = s.ring := rfl
@[simp] theorem setQuads_fab (s : State) (x : Tab Quad) : (s.setQuads x).fab = s.fab := rfl
@[simp] theorem setQuads_host (s : State) (x : Tab Quad) : (s.setQuads x).host = s.host := rfl
@[simp] theorem setQuads_ctxs (s : State) (x : Tab Quad) : (s.setQuads x).ctxs = s.ctxs := rfl
@[simp] theorem setQuads_fw (s : State) (x : Tab Quad) : (s.setQuads x).fw = s.fw := rfl
@[simp] theorem setCmds_turn (s : State) (x : Tab Cmd) : (s.setCmds x).turn = s.turn := rfl
@[simp] theorem setCmds_tick (s : State) (x : Tab Cmd) : (s.setCmds x).tick = s.tick := rfl
@[simp] theorem setCmds_now (s : State) (x : Tab Cmd) : (s.setCmds x).now = s.now := rfl
@[simp] theorem setCmds_ids (s : State) (x : Tab Cmd) : (s.setCmds x).ids = s.ids := rfl
@[simp] theorem setCmds_inbox (s : State) (x : Tab Cmd) : (s.setCmds x).inbox = s.inbox := rfl
@[simp] theorem setCmds_groups (s : State) (x : Tab Cmd) : (s.setCmds x).groups = s.groups := rfl
@[simp] theorem setCmds_blocks (s : State) (x : Tab Cmd) : (s.setCmds x).blocks = s.blocks := rfl
@[simp] theorem setCmds_gangs (s : State) (x : Tab Cmd) : (s.setCmds x).gangs = s.gangs := rfl
@[simp] theorem setCmds_launches (s : State) (x : Tab Cmd) : (s.setCmds x).launches = s.launches := rfl
@[simp] theorem setCmds_cores (s : State) (x : Tab Cmd) : (s.setCmds x).cores = s.cores := rfl
@[simp] theorem setCmds_quads (s : State) (x : Tab Cmd) : (s.setCmds x).quads = s.quads := rfl
@[simp] theorem setCmds_cmds (s : State) (x : Tab Cmd) : (s.setCmds x).cmds = x := rfl
@[simp] theorem setCmds_homes (s : State) (x : Tab Cmd) : (s.setCmds x).homes = s.homes := rfl
@[simp] theorem setCmds_mem (s : State) (x : Tab Cmd) : (s.setCmds x).mem = s.mem := rfl
@[simp] theorem setCmds_net (s : State) (x : Tab Cmd) : (s.setCmds x).net = s.net := rfl
@[simp] theorem setCmds_ring (s : State) (x : Tab Cmd) : (s.setCmds x).ring = s.ring := rfl
@[simp] theorem setCmds_fab (s : State) (x : Tab Cmd) : (s.setCmds x).fab = s.fab := rfl
@[simp] theorem setCmds_host (s : State) (x : Tab Cmd) : (s.setCmds x).host = s.host := rfl
@[simp] theorem setCmds_ctxs (s : State) (x : Tab Cmd) : (s.setCmds x).ctxs = s.ctxs := rfl
@[simp] theorem setCmds_fw (s : State) (x : Tab Cmd) : (s.setCmds x).fw = s.fw := rfl
@[simp] theorem setHomes_turn (s : State) (x : Tab Home) : (s.setHomes x).turn = s.turn := rfl
@[simp] theorem setHomes_tick (s : State) (x : Tab Home) : (s.setHomes x).tick = s.tick := rfl
@[simp] theorem setHomes_now (s : State) (x : Tab Home) : (s.setHomes x).now = s.now := rfl
@[simp] theorem setHomes_ids (s : State) (x : Tab Home) : (s.setHomes x).ids = s.ids := rfl
@[simp] theorem setHomes_inbox (s : State) (x : Tab Home) : (s.setHomes x).inbox = s.inbox := rfl
@[simp] theorem setHomes_groups (s : State) (x : Tab Home) : (s.setHomes x).groups = s.groups := rfl
@[simp] theorem setHomes_blocks (s : State) (x : Tab Home) : (s.setHomes x).blocks = s.blocks := rfl
@[simp] theorem setHomes_gangs (s : State) (x : Tab Home) : (s.setHomes x).gangs = s.gangs := rfl
@[simp] theorem setHomes_launches (s : State) (x : Tab Home) : (s.setHomes x).launches = s.launches := rfl
@[simp] theorem setHomes_cores (s : State) (x : Tab Home) : (s.setHomes x).cores = s.cores := rfl
@[simp] theorem setHomes_quads (s : State) (x : Tab Home) : (s.setHomes x).quads = s.quads := rfl
@[simp] theorem setHomes_cmds (s : State) (x : Tab Home) : (s.setHomes x).cmds = s.cmds := rfl
@[simp] theorem setHomes_homes (s : State) (x : Tab Home) : (s.setHomes x).homes = x := rfl
@[simp] theorem setHomes_mem (s : State) (x : Tab Home) : (s.setHomes x).mem = s.mem := rfl
@[simp] theorem setHomes_net (s : State) (x : Tab Home) : (s.setHomes x).net = s.net := rfl
@[simp] theorem setHomes_ring (s : State) (x : Tab Home) : (s.setHomes x).ring = s.ring := rfl
@[simp] theorem setHomes_fab (s : State) (x : Tab Home) : (s.setHomes x).fab = s.fab := rfl
@[simp] theorem setHomes_host (s : State) (x : Tab Home) : (s.setHomes x).host = s.host := rfl
@[simp] theorem setHomes_ctxs (s : State) (x : Tab Home) : (s.setHomes x).ctxs = s.ctxs := rfl
@[simp] theorem setHomes_fw (s : State) (x : Tab Home) : (s.setHomes x).fw = s.fw := rfl
@[simp] theorem setMem_turn (s : State) (x : Mem) : (s.setMem x).turn = s.turn := rfl
@[simp] theorem setMem_tick (s : State) (x : Mem) : (s.setMem x).tick = s.tick := rfl
@[simp] theorem setMem_now (s : State) (x : Mem) : (s.setMem x).now = s.now := rfl
@[simp] theorem setMem_ids (s : State) (x : Mem) : (s.setMem x).ids = s.ids := rfl
@[simp] theorem setMem_inbox (s : State) (x : Mem) : (s.setMem x).inbox = s.inbox := rfl
@[simp] theorem setMem_groups (s : State) (x : Mem) : (s.setMem x).groups = s.groups := rfl
@[simp] theorem setMem_blocks (s : State) (x : Mem) : (s.setMem x).blocks = s.blocks := rfl
@[simp] theorem setMem_gangs (s : State) (x : Mem) : (s.setMem x).gangs = s.gangs := rfl
@[simp] theorem setMem_launches (s : State) (x : Mem) : (s.setMem x).launches = s.launches := rfl
@[simp] theorem setMem_cores (s : State) (x : Mem) : (s.setMem x).cores = s.cores := rfl
@[simp] theorem setMem_quads (s : State) (x : Mem) : (s.setMem x).quads = s.quads := rfl
@[simp] theorem setMem_cmds (s : State) (x : Mem) : (s.setMem x).cmds = s.cmds := rfl
@[simp] theorem setMem_homes (s : State) (x : Mem) : (s.setMem x).homes = s.homes := rfl
@[simp] theorem setMem_mem (s : State) (x : Mem) : (s.setMem x).mem = x := rfl
@[simp] theorem setMem_net (s : State) (x : Mem) : (s.setMem x).net = s.net := rfl
@[simp] theorem setMem_ring (s : State) (x : Mem) : (s.setMem x).ring = s.ring := rfl
@[simp] theorem setMem_fab (s : State) (x : Mem) : (s.setMem x).fab = s.fab := rfl
@[simp] theorem setMem_host (s : State) (x : Mem) : (s.setMem x).host = s.host := rfl
@[simp] theorem setMem_ctxs (s : State) (x : Mem) : (s.setMem x).ctxs = s.ctxs := rfl
@[simp] theorem setMem_fw (s : State) (x : Mem) : (s.setMem x).fw = s.fw := rfl
@[simp] theorem setNet_turn (s : State) (x : Net) : (s.setNet x).turn = s.turn := rfl
@[simp] theorem setNet_tick (s : State) (x : Net) : (s.setNet x).tick = s.tick := rfl
@[simp] theorem setNet_now (s : State) (x : Net) : (s.setNet x).now = s.now := rfl
@[simp] theorem setNet_ids (s : State) (x : Net) : (s.setNet x).ids = s.ids := rfl
@[simp] theorem setNet_inbox (s : State) (x : Net) : (s.setNet x).inbox = s.inbox := rfl
@[simp] theorem setNet_groups (s : State) (x : Net) : (s.setNet x).groups = s.groups := rfl
@[simp] theorem setNet_blocks (s : State) (x : Net) : (s.setNet x).blocks = s.blocks := rfl
@[simp] theorem setNet_gangs (s : State) (x : Net) : (s.setNet x).gangs = s.gangs := rfl
@[simp] theorem setNet_launches (s : State) (x : Net) : (s.setNet x).launches = s.launches := rfl
@[simp] theorem setNet_cores (s : State) (x : Net) : (s.setNet x).cores = s.cores := rfl
@[simp] theorem setNet_quads (s : State) (x : Net) : (s.setNet x).quads = s.quads := rfl
@[simp] theorem setNet_cmds (s : State) (x : Net) : (s.setNet x).cmds = s.cmds := rfl
@[simp] theorem setNet_homes (s : State) (x : Net) : (s.setNet x).homes = s.homes := rfl
@[simp] theorem setNet_mem (s : State) (x : Net) : (s.setNet x).mem = s.mem := rfl
@[simp] theorem setNet_net (s : State) (x : Net) : (s.setNet x).net = x := rfl
@[simp] theorem setNet_ring (s : State) (x : Net) : (s.setNet x).ring = s.ring := rfl
@[simp] theorem setNet_fab (s : State) (x : Net) : (s.setNet x).fab = s.fab := rfl
@[simp] theorem setNet_host (s : State) (x : Net) : (s.setNet x).host = s.host := rfl
@[simp] theorem setNet_ctxs (s : State) (x : Net) : (s.setNet x).ctxs = s.ctxs := rfl
@[simp] theorem setNet_fw (s : State) (x : Net) : (s.setNet x).fw = s.fw := rfl
@[simp] theorem setRing_turn (s : State) (x : Ring) : (s.setRing x).turn = s.turn := rfl
@[simp] theorem setRing_tick (s : State) (x : Ring) : (s.setRing x).tick = s.tick := rfl
@[simp] theorem setRing_now (s : State) (x : Ring) : (s.setRing x).now = s.now := rfl
@[simp] theorem setRing_ids (s : State) (x : Ring) : (s.setRing x).ids = s.ids := rfl
@[simp] theorem setRing_inbox (s : State) (x : Ring) : (s.setRing x).inbox = s.inbox := rfl
@[simp] theorem setRing_groups (s : State) (x : Ring) : (s.setRing x).groups = s.groups := rfl
@[simp] theorem setRing_blocks (s : State) (x : Ring) : (s.setRing x).blocks = s.blocks := rfl
@[simp] theorem setRing_gangs (s : State) (x : Ring) : (s.setRing x).gangs = s.gangs := rfl
@[simp] theorem setRing_launches (s : State) (x : Ring) : (s.setRing x).launches = s.launches := rfl
@[simp] theorem setRing_cores (s : State) (x : Ring) : (s.setRing x).cores = s.cores := rfl
@[simp] theorem setRing_quads (s : State) (x : Ring) : (s.setRing x).quads = s.quads := rfl
@[simp] theorem setRing_cmds (s : State) (x : Ring) : (s.setRing x).cmds = s.cmds := rfl
@[simp] theorem setRing_homes (s : State) (x : Ring) : (s.setRing x).homes = s.homes := rfl
@[simp] theorem setRing_mem (s : State) (x : Ring) : (s.setRing x).mem = s.mem := rfl
@[simp] theorem setRing_net (s : State) (x : Ring) : (s.setRing x).net = s.net := rfl
@[simp] theorem setRing_ring (s : State) (x : Ring) : (s.setRing x).ring = x := rfl
@[simp] theorem setRing_fab (s : State) (x : Ring) : (s.setRing x).fab = s.fab := rfl
@[simp] theorem setRing_host (s : State) (x : Ring) : (s.setRing x).host = s.host := rfl
@[simp] theorem setRing_ctxs (s : State) (x : Ring) : (s.setRing x).ctxs = s.ctxs := rfl
@[simp] theorem setRing_fw (s : State) (x : Ring) : (s.setRing x).fw = s.fw := rfl
@[simp] theorem setFab_turn (s : State) (x : Fabric) : (s.setFab x).turn = s.turn := rfl
@[simp] theorem setFab_tick (s : State) (x : Fabric) : (s.setFab x).tick = s.tick := rfl
@[simp] theorem setFab_now (s : State) (x : Fabric) : (s.setFab x).now = s.now := rfl
@[simp] theorem setFab_ids (s : State) (x : Fabric) : (s.setFab x).ids = s.ids := rfl
@[simp] theorem setFab_inbox (s : State) (x : Fabric) : (s.setFab x).inbox = s.inbox := rfl
@[simp] theorem setFab_groups (s : State) (x : Fabric) : (s.setFab x).groups = s.groups := rfl
@[simp] theorem setFab_blocks (s : State) (x : Fabric) : (s.setFab x).blocks = s.blocks := rfl
@[simp] theorem setFab_gangs (s : State) (x : Fabric) : (s.setFab x).gangs = s.gangs := rfl
@[simp] theorem setFab_launches (s : State) (x : Fabric) : (s.setFab x).launches = s.launches := rfl
@[simp] theorem setFab_cores (s : State) (x : Fabric) : (s.setFab x).cores = s.cores := rfl
@[simp] theorem setFab_quads (s : State) (x : Fabric) : (s.setFab x).quads = s.quads := rfl
@[simp] theorem setFab_cmds (s : State) (x : Fabric) : (s.setFab x).cmds = s.cmds := rfl
@[simp] theorem setFab_homes (s : State) (x : Fabric) : (s.setFab x).homes = s.homes := rfl
@[simp] theorem setFab_mem (s : State) (x : Fabric) : (s.setFab x).mem = s.mem := rfl
@[simp] theorem setFab_net (s : State) (x : Fabric) : (s.setFab x).net = s.net := rfl
@[simp] theorem setFab_ring (s : State) (x : Fabric) : (s.setFab x).ring = s.ring := rfl
@[simp] theorem setFab_fab (s : State) (x : Fabric) : (s.setFab x).fab = x := rfl
@[simp] theorem setFab_host (s : State) (x : Fabric) : (s.setFab x).host = s.host := rfl
@[simp] theorem setFab_ctxs (s : State) (x : Fabric) : (s.setFab x).ctxs = s.ctxs := rfl
@[simp] theorem setFab_fw (s : State) (x : Fabric) : (s.setFab x).fw = s.fw := rfl
@[simp] theorem setHost_turn (s : State) (x : HostPort) : (s.setHost x).turn = s.turn := rfl
@[simp] theorem setHost_tick (s : State) (x : HostPort) : (s.setHost x).tick = s.tick := rfl
@[simp] theorem setHost_now (s : State) (x : HostPort) : (s.setHost x).now = s.now := rfl
@[simp] theorem setHost_ids (s : State) (x : HostPort) : (s.setHost x).ids = s.ids := rfl
@[simp] theorem setHost_inbox (s : State) (x : HostPort) : (s.setHost x).inbox = s.inbox := rfl
@[simp] theorem setHost_groups (s : State) (x : HostPort) : (s.setHost x).groups = s.groups := rfl
@[simp] theorem setHost_blocks (s : State) (x : HostPort) : (s.setHost x).blocks = s.blocks := rfl
@[simp] theorem setHost_gangs (s : State) (x : HostPort) : (s.setHost x).gangs = s.gangs := rfl
@[simp] theorem setHost_launches (s : State) (x : HostPort) : (s.setHost x).launches = s.launches := rfl
@[simp] theorem setHost_cores (s : State) (x : HostPort) : (s.setHost x).cores = s.cores := rfl
@[simp] theorem setHost_quads (s : State) (x : HostPort) : (s.setHost x).quads = s.quads := rfl
@[simp] theorem setHost_cmds (s : State) (x : HostPort) : (s.setHost x).cmds = s.cmds := rfl
@[simp] theorem setHost_homes (s : State) (x : HostPort) : (s.setHost x).homes = s.homes := rfl
@[simp] theorem setHost_mem (s : State) (x : HostPort) : (s.setHost x).mem = s.mem := rfl
@[simp] theorem setHost_net (s : State) (x : HostPort) : (s.setHost x).net = s.net := rfl
@[simp] theorem setHost_ring (s : State) (x : HostPort) : (s.setHost x).ring = s.ring := rfl
@[simp] theorem setHost_fab (s : State) (x : HostPort) : (s.setHost x).fab = s.fab := rfl
@[simp] theorem setHost_host (s : State) (x : HostPort) : (s.setHost x).host = x := rfl
@[simp] theorem setHost_ctxs (s : State) (x : HostPort) : (s.setHost x).ctxs = s.ctxs := rfl
@[simp] theorem setHost_fw (s : State) (x : HostPort) : (s.setHost x).fw = s.fw := rfl
@[simp] theorem setCtxs_turn (s : State) (x : Tab Ctx) : (s.setCtxs x).turn = s.turn := rfl
@[simp] theorem setCtxs_tick (s : State) (x : Tab Ctx) : (s.setCtxs x).tick = s.tick := rfl
@[simp] theorem setCtxs_now (s : State) (x : Tab Ctx) : (s.setCtxs x).now = s.now := rfl
@[simp] theorem setCtxs_ids (s : State) (x : Tab Ctx) : (s.setCtxs x).ids = s.ids := rfl
@[simp] theorem setCtxs_inbox (s : State) (x : Tab Ctx) : (s.setCtxs x).inbox = s.inbox := rfl
@[simp] theorem setCtxs_groups (s : State) (x : Tab Ctx) : (s.setCtxs x).groups = s.groups := rfl
@[simp] theorem setCtxs_blocks (s : State) (x : Tab Ctx) : (s.setCtxs x).blocks = s.blocks := rfl
@[simp] theorem setCtxs_gangs (s : State) (x : Tab Ctx) : (s.setCtxs x).gangs = s.gangs := rfl
@[simp] theorem setCtxs_launches (s : State) (x : Tab Ctx) : (s.setCtxs x).launches = s.launches := rfl
@[simp] theorem setCtxs_cores (s : State) (x : Tab Ctx) : (s.setCtxs x).cores = s.cores := rfl
@[simp] theorem setCtxs_quads (s : State) (x : Tab Ctx) : (s.setCtxs x).quads = s.quads := rfl
@[simp] theorem setCtxs_cmds (s : State) (x : Tab Ctx) : (s.setCtxs x).cmds = s.cmds := rfl
@[simp] theorem setCtxs_homes (s : State) (x : Tab Ctx) : (s.setCtxs x).homes = s.homes := rfl
@[simp] theorem setCtxs_mem (s : State) (x : Tab Ctx) : (s.setCtxs x).mem = s.mem := rfl
@[simp] theorem setCtxs_net (s : State) (x : Tab Ctx) : (s.setCtxs x).net = s.net := rfl
@[simp] theorem setCtxs_ring (s : State) (x : Tab Ctx) : (s.setCtxs x).ring = s.ring := rfl
@[simp] theorem setCtxs_fab (s : State) (x : Tab Ctx) : (s.setCtxs x).fab = s.fab := rfl
@[simp] theorem setCtxs_host (s : State) (x : Tab Ctx) : (s.setCtxs x).host = s.host := rfl
@[simp] theorem setCtxs_ctxs (s : State) (x : Tab Ctx) : (s.setCtxs x).ctxs = x := rfl
@[simp] theorem setCtxs_fw (s : State) (x : Tab Ctx) : (s.setCtxs x).fw = s.fw := rfl
@[simp] theorem setFw_turn (s : State) (x : Firm) : (s.setFw x).turn = s.turn := rfl
@[simp] theorem setFw_tick (s : State) (x : Firm) : (s.setFw x).tick = s.tick := rfl
@[simp] theorem setFw_now (s : State) (x : Firm) : (s.setFw x).now = s.now := rfl
@[simp] theorem setFw_ids (s : State) (x : Firm) : (s.setFw x).ids = s.ids := rfl
@[simp] theorem setFw_inbox (s : State) (x : Firm) : (s.setFw x).inbox = s.inbox := rfl
@[simp] theorem setFw_groups (s : State) (x : Firm) : (s.setFw x).groups = s.groups := rfl
@[simp] theorem setFw_blocks (s : State) (x : Firm) : (s.setFw x).blocks = s.blocks := rfl
@[simp] theorem setFw_gangs (s : State) (x : Firm) : (s.setFw x).gangs = s.gangs := rfl
@[simp] theorem setFw_launches (s : State) (x : Firm) : (s.setFw x).launches = s.launches := rfl
@[simp] theorem setFw_cores (s : State) (x : Firm) : (s.setFw x).cores = s.cores := rfl
@[simp] theorem setFw_quads (s : State) (x : Firm) : (s.setFw x).quads = s.quads := rfl
@[simp] theorem setFw_cmds (s : State) (x : Firm) : (s.setFw x).cmds = s.cmds := rfl
@[simp] theorem setFw_homes (s : State) (x : Firm) : (s.setFw x).homes = s.homes := rfl
@[simp] theorem setFw_mem (s : State) (x : Firm) : (s.setFw x).mem = s.mem := rfl
@[simp] theorem setFw_net (s : State) (x : Firm) : (s.setFw x).net = s.net := rfl
@[simp] theorem setFw_ring (s : State) (x : Firm) : (s.setFw x).ring = s.ring := rfl
@[simp] theorem setFw_fab (s : State) (x : Firm) : (s.setFw x).fab = s.fab := rfl
@[simp] theorem setFw_host (s : State) (x : Firm) : (s.setFw x).host = s.host := rfl
@[simp] theorem setFw_ctxs (s : State) (x : Firm) : (s.setFw x).ctxs = s.ctxs := rfl
@[simp] theorem setFw_fw (s : State) (x : Firm) : (s.setFw x).fw = x := rfl

/-! The changes of one entry. -/

@[simp] theorem modCore_turn (s : State) (n : Nat) (f : Core → Core) : (s.modCore n f).turn = s.turn := rfl
@[simp] theorem modCore_tick (s : State) (n : Nat) (f : Core → Core) : (s.modCore n f).tick = s.tick := rfl
@[simp] theorem modCore_now (s : State) (n : Nat) (f : Core → Core) : (s.modCore n f).now = s.now := rfl
@[simp] theorem modCore_ids (s : State) (n : Nat) (f : Core → Core) : (s.modCore n f).ids = s.ids := rfl
@[simp] theorem modCore_inbox (s : State) (n : Nat) (f : Core → Core) : (s.modCore n f).inbox = s.inbox := rfl
@[simp] theorem modCore_groups (s : State) (n : Nat) (f : Core → Core) : (s.modCore n f).groups = s.groups := rfl
@[simp] theorem modCore_blocks (s : State) (n : Nat) (f : Core → Core) : (s.modCore n f).blocks = s.blocks := rfl
@[simp] theorem modCore_gangs (s : State) (n : Nat) (f : Core → Core) : (s.modCore n f).gangs = s.gangs := rfl
@[simp] theorem modCore_launches (s : State) (n : Nat) (f : Core → Core) : (s.modCore n f).launches = s.launches := rfl
@[simp] theorem modCore_cores (s : State) (n : Nat) (f : Core → Core) : (s.modCore n f).cores = put s.cores n (f (s.core n)) := rfl
@[simp] theorem modCore_quads (s : State) (n : Nat) (f : Core → Core) : (s.modCore n f).quads = s.quads := rfl
@[simp] theorem modCore_cmds (s : State) (n : Nat) (f : Core → Core) : (s.modCore n f).cmds = s.cmds := rfl
@[simp] theorem modCore_homes (s : State) (n : Nat) (f : Core → Core) : (s.modCore n f).homes = s.homes := rfl
@[simp] theorem modCore_mem (s : State) (n : Nat) (f : Core → Core) : (s.modCore n f).mem = s.mem := rfl
@[simp] theorem modCore_net (s : State) (n : Nat) (f : Core → Core) : (s.modCore n f).net = s.net := rfl
@[simp] theorem modCore_ring (s : State) (n : Nat) (f : Core → Core) : (s.modCore n f).ring = s.ring := rfl
@[simp] theorem modCore_fab (s : State) (n : Nat) (f : Core → Core) : (s.modCore n f).fab = s.fab := rfl
@[simp] theorem modCore_host (s : State) (n : Nat) (f : Core → Core) : (s.modCore n f).host = s.host := rfl
@[simp] theorem modCore_ctxs (s : State) (n : Nat) (f : Core → Core) : (s.modCore n f).ctxs = s.ctxs := rfl
@[simp] theorem modCore_fw (s : State) (n : Nat) (f : Core → Core) : (s.modCore n f).fw = s.fw := rfl
@[simp] theorem modQuad_turn (s : State) (n : Nat) (f : Quad → Quad) : (s.modQuad n f).turn = s.turn := rfl
@[simp] theorem modQuad_tick (s : State) (n : Nat) (f : Quad → Quad) : (s.modQuad n f).tick = s.tick := rfl
@[simp] theorem modQuad_now (s : State) (n : Nat) (f : Quad → Quad) : (s.modQuad n f).now = s.now := rfl
@[simp] theorem modQuad_ids (s : State) (n : Nat) (f : Quad → Quad) : (s.modQuad n f).ids = s.ids := rfl
@[simp] theorem modQuad_inbox (s : State) (n : Nat) (f : Quad → Quad) : (s.modQuad n f).inbox = s.inbox := rfl
@[simp] theorem modQuad_groups (s : State) (n : Nat) (f : Quad → Quad) : (s.modQuad n f).groups = s.groups := rfl
@[simp] theorem modQuad_blocks (s : State) (n : Nat) (f : Quad → Quad) : (s.modQuad n f).blocks = s.blocks := rfl
@[simp] theorem modQuad_gangs (s : State) (n : Nat) (f : Quad → Quad) : (s.modQuad n f).gangs = s.gangs := rfl
@[simp] theorem modQuad_launches (s : State) (n : Nat) (f : Quad → Quad) : (s.modQuad n f).launches = s.launches := rfl
@[simp] theorem modQuad_cores (s : State) (n : Nat) (f : Quad → Quad) : (s.modQuad n f).cores = s.cores := rfl
@[simp] theorem modQuad_quads (s : State) (n : Nat) (f : Quad → Quad) : (s.modQuad n f).quads = put s.quads n (f (s.quad n)) := rfl
@[simp] theorem modQuad_cmds (s : State) (n : Nat) (f : Quad → Quad) : (s.modQuad n f).cmds = s.cmds := rfl
@[simp] theorem modQuad_homes (s : State) (n : Nat) (f : Quad → Quad) : (s.modQuad n f).homes = s.homes := rfl
@[simp] theorem modQuad_mem (s : State) (n : Nat) (f : Quad → Quad) : (s.modQuad n f).mem = s.mem := rfl
@[simp] theorem modQuad_net (s : State) (n : Nat) (f : Quad → Quad) : (s.modQuad n f).net = s.net := rfl
@[simp] theorem modQuad_ring (s : State) (n : Nat) (f : Quad → Quad) : (s.modQuad n f).ring = s.ring := rfl
@[simp] theorem modQuad_fab (s : State) (n : Nat) (f : Quad → Quad) : (s.modQuad n f).fab = s.fab := rfl
@[simp] theorem modQuad_host (s : State) (n : Nat) (f : Quad → Quad) : (s.modQuad n f).host = s.host := rfl
@[simp] theorem modQuad_ctxs (s : State) (n : Nat) (f : Quad → Quad) : (s.modQuad n f).ctxs = s.ctxs := rfl
@[simp] theorem modQuad_fw (s : State) (n : Nat) (f : Quad → Quad) : (s.modQuad n f).fw = s.fw := rfl
@[simp] theorem modHome_turn (s : State) (n : Nat) (f : Home → Home) : (s.modHome n f).turn = s.turn := rfl
@[simp] theorem modHome_tick (s : State) (n : Nat) (f : Home → Home) : (s.modHome n f).tick = s.tick := rfl
@[simp] theorem modHome_now (s : State) (n : Nat) (f : Home → Home) : (s.modHome n f).now = s.now := rfl
@[simp] theorem modHome_ids (s : State) (n : Nat) (f : Home → Home) : (s.modHome n f).ids = s.ids := rfl
@[simp] theorem modHome_inbox (s : State) (n : Nat) (f : Home → Home) : (s.modHome n f).inbox = s.inbox := rfl
@[simp] theorem modHome_groups (s : State) (n : Nat) (f : Home → Home) : (s.modHome n f).groups = s.groups := rfl
@[simp] theorem modHome_blocks (s : State) (n : Nat) (f : Home → Home) : (s.modHome n f).blocks = s.blocks := rfl
@[simp] theorem modHome_gangs (s : State) (n : Nat) (f : Home → Home) : (s.modHome n f).gangs = s.gangs := rfl
@[simp] theorem modHome_launches (s : State) (n : Nat) (f : Home → Home) : (s.modHome n f).launches = s.launches := rfl
@[simp] theorem modHome_cores (s : State) (n : Nat) (f : Home → Home) : (s.modHome n f).cores = s.cores := rfl
@[simp] theorem modHome_quads (s : State) (n : Nat) (f : Home → Home) : (s.modHome n f).quads = s.quads := rfl
@[simp] theorem modHome_cmds (s : State) (n : Nat) (f : Home → Home) : (s.modHome n f).cmds = s.cmds := rfl
@[simp] theorem modHome_homes (s : State) (n : Nat) (f : Home → Home) : (s.modHome n f).homes = put s.homes n (f (s.home n)) := rfl
@[simp] theorem modHome_mem (s : State) (n : Nat) (f : Home → Home) : (s.modHome n f).mem = s.mem := rfl
@[simp] theorem modHome_net (s : State) (n : Nat) (f : Home → Home) : (s.modHome n f).net = s.net := rfl
@[simp] theorem modHome_ring (s : State) (n : Nat) (f : Home → Home) : (s.modHome n f).ring = s.ring := rfl
@[simp] theorem modHome_fab (s : State) (n : Nat) (f : Home → Home) : (s.modHome n f).fab = s.fab := rfl
@[simp] theorem modHome_host (s : State) (n : Nat) (f : Home → Home) : (s.modHome n f).host = s.host := rfl
@[simp] theorem modHome_ctxs (s : State) (n : Nat) (f : Home → Home) : (s.modHome n f).ctxs = s.ctxs := rfl
@[simp] theorem modHome_fw (s : State) (n : Nat) (f : Home → Home) : (s.modHome n f).fw = s.fw := rfl
@[simp] theorem modCtx_turn (s : State) (n : Nat) (f : Ctx → Ctx) : (s.modCtx n f).turn = s.turn := rfl
@[simp] theorem modCtx_tick (s : State) (n : Nat) (f : Ctx → Ctx) : (s.modCtx n f).tick = s.tick := rfl
@[simp] theorem modCtx_now (s : State) (n : Nat) (f : Ctx → Ctx) : (s.modCtx n f).now = s.now := rfl
@[simp] theorem modCtx_ids (s : State) (n : Nat) (f : Ctx → Ctx) : (s.modCtx n f).ids = s.ids := rfl
@[simp] theorem modCtx_inbox (s : State) (n : Nat) (f : Ctx → Ctx) : (s.modCtx n f).inbox = s.inbox := rfl
@[simp] theorem modCtx_groups (s : State) (n : Nat) (f : Ctx → Ctx) : (s.modCtx n f).groups = s.groups := rfl
@[simp] theorem modCtx_blocks (s : State) (n : Nat) (f : Ctx → Ctx) : (s.modCtx n f).blocks = s.blocks := rfl
@[simp] theorem modCtx_gangs (s : State) (n : Nat) (f : Ctx → Ctx) : (s.modCtx n f).gangs = s.gangs := rfl
@[simp] theorem modCtx_launches (s : State) (n : Nat) (f : Ctx → Ctx) : (s.modCtx n f).launches = s.launches := rfl
@[simp] theorem modCtx_cores (s : State) (n : Nat) (f : Ctx → Ctx) : (s.modCtx n f).cores = s.cores := rfl
@[simp] theorem modCtx_quads (s : State) (n : Nat) (f : Ctx → Ctx) : (s.modCtx n f).quads = s.quads := rfl
@[simp] theorem modCtx_cmds (s : State) (n : Nat) (f : Ctx → Ctx) : (s.modCtx n f).cmds = s.cmds := rfl
@[simp] theorem modCtx_homes (s : State) (n : Nat) (f : Ctx → Ctx) : (s.modCtx n f).homes = s.homes := rfl
@[simp] theorem modCtx_mem (s : State) (n : Nat) (f : Ctx → Ctx) : (s.modCtx n f).mem = s.mem := rfl
@[simp] theorem modCtx_net (s : State) (n : Nat) (f : Ctx → Ctx) : (s.modCtx n f).net = s.net := rfl
@[simp] theorem modCtx_ring (s : State) (n : Nat) (f : Ctx → Ctx) : (s.modCtx n f).ring = s.ring := rfl
@[simp] theorem modCtx_fab (s : State) (n : Nat) (f : Ctx → Ctx) : (s.modCtx n f).fab = s.fab := rfl
@[simp] theorem modCtx_host (s : State) (n : Nat) (f : Ctx → Ctx) : (s.modCtx n f).host = s.host := rfl
@[simp] theorem modCtx_ctxs (s : State) (n : Nat) (f : Ctx → Ctx) : (s.modCtx n f).ctxs = put s.ctxs n (f (s.ctx n)) := rfl
@[simp] theorem modCtx_fw (s : State) (n : Nat) (f : Ctx → Ctx) : (s.modCtx n f).fw = s.fw := rfl
@[simp] theorem modGroup_turn (s : State) (n : Nat) (f : Group → Group) : (s.modGroup n f).turn = s.turn := rfl
@[simp] theorem modGroup_tick (s : State) (n : Nat) (f : Group → Group) : (s.modGroup n f).tick = s.tick := rfl
@[simp] theorem modGroup_now (s : State) (n : Nat) (f : Group → Group) : (s.modGroup n f).now = s.now := rfl
@[simp] theorem modGroup_ids (s : State) (n : Nat) (f : Group → Group) : (s.modGroup n f).ids = s.ids := rfl
@[simp] theorem modGroup_inbox (s : State) (n : Nat) (f : Group → Group) : (s.modGroup n f).inbox = s.inbox := rfl
@[simp] theorem modGroup_groups (s : State) (n : Nat) (f : Group → Group) : (s.modGroup n f).groups = upd s.groups n f := rfl
@[simp] theorem modGroup_blocks (s : State) (n : Nat) (f : Group → Group) : (s.modGroup n f).blocks = s.blocks := rfl
@[simp] theorem modGroup_gangs (s : State) (n : Nat) (f : Group → Group) : (s.modGroup n f).gangs = s.gangs := rfl
@[simp] theorem modGroup_launches (s : State) (n : Nat) (f : Group → Group) : (s.modGroup n f).launches = s.launches := rfl
@[simp] theorem modGroup_cores (s : State) (n : Nat) (f : Group → Group) : (s.modGroup n f).cores = s.cores := rfl
@[simp] theorem modGroup_quads (s : State) (n : Nat) (f : Group → Group) : (s.modGroup n f).quads = s.quads := rfl
@[simp] theorem modGroup_cmds (s : State) (n : Nat) (f : Group → Group) : (s.modGroup n f).cmds = s.cmds := rfl
@[simp] theorem modGroup_homes (s : State) (n : Nat) (f : Group → Group) : (s.modGroup n f).homes = s.homes := rfl
@[simp] theorem modGroup_mem (s : State) (n : Nat) (f : Group → Group) : (s.modGroup n f).mem = s.mem := rfl
@[simp] theorem modGroup_net (s : State) (n : Nat) (f : Group → Group) : (s.modGroup n f).net = s.net := rfl
@[simp] theorem modGroup_ring (s : State) (n : Nat) (f : Group → Group) : (s.modGroup n f).ring = s.ring := rfl
@[simp] theorem modGroup_fab (s : State) (n : Nat) (f : Group → Group) : (s.modGroup n f).fab = s.fab := rfl
@[simp] theorem modGroup_host (s : State) (n : Nat) (f : Group → Group) : (s.modGroup n f).host = s.host := rfl
@[simp] theorem modGroup_ctxs (s : State) (n : Nat) (f : Group → Group) : (s.modGroup n f).ctxs = s.ctxs := rfl
@[simp] theorem modGroup_fw (s : State) (n : Nat) (f : Group → Group) : (s.modGroup n f).fw = s.fw := rfl
@[simp] theorem modBlock_turn (s : State) (n : Nat) (f : Block → Block) : (s.modBlock n f).turn = s.turn := rfl
@[simp] theorem modBlock_tick (s : State) (n : Nat) (f : Block → Block) : (s.modBlock n f).tick = s.tick := rfl
@[simp] theorem modBlock_now (s : State) (n : Nat) (f : Block → Block) : (s.modBlock n f).now = s.now := rfl
@[simp] theorem modBlock_ids (s : State) (n : Nat) (f : Block → Block) : (s.modBlock n f).ids = s.ids := rfl
@[simp] theorem modBlock_inbox (s : State) (n : Nat) (f : Block → Block) : (s.modBlock n f).inbox = s.inbox := rfl
@[simp] theorem modBlock_groups (s : State) (n : Nat) (f : Block → Block) : (s.modBlock n f).groups = s.groups := rfl
@[simp] theorem modBlock_blocks (s : State) (n : Nat) (f : Block → Block) : (s.modBlock n f).blocks = upd s.blocks n f := rfl
@[simp] theorem modBlock_gangs (s : State) (n : Nat) (f : Block → Block) : (s.modBlock n f).gangs = s.gangs := rfl
@[simp] theorem modBlock_launches (s : State) (n : Nat) (f : Block → Block) : (s.modBlock n f).launches = s.launches := rfl
@[simp] theorem modBlock_cores (s : State) (n : Nat) (f : Block → Block) : (s.modBlock n f).cores = s.cores := rfl
@[simp] theorem modBlock_quads (s : State) (n : Nat) (f : Block → Block) : (s.modBlock n f).quads = s.quads := rfl
@[simp] theorem modBlock_cmds (s : State) (n : Nat) (f : Block → Block) : (s.modBlock n f).cmds = s.cmds := rfl
@[simp] theorem modBlock_homes (s : State) (n : Nat) (f : Block → Block) : (s.modBlock n f).homes = s.homes := rfl
@[simp] theorem modBlock_mem (s : State) (n : Nat) (f : Block → Block) : (s.modBlock n f).mem = s.mem := rfl
@[simp] theorem modBlock_net (s : State) (n : Nat) (f : Block → Block) : (s.modBlock n f).net = s.net := rfl
@[simp] theorem modBlock_ring (s : State) (n : Nat) (f : Block → Block) : (s.modBlock n f).ring = s.ring := rfl
@[simp] theorem modBlock_fab (s : State) (n : Nat) (f : Block → Block) : (s.modBlock n f).fab = s.fab := rfl
@[simp] theorem modBlock_host (s : State) (n : Nat) (f : Block → Block) : (s.modBlock n f).host = s.host := rfl
@[simp] theorem modBlock_ctxs (s : State) (n : Nat) (f : Block → Block) : (s.modBlock n f).ctxs = s.ctxs := rfl
@[simp] theorem modBlock_fw (s : State) (n : Nat) (f : Block → Block) : (s.modBlock n f).fw = s.fw := rfl
@[simp] theorem modGang_turn (s : State) (n : Nat) (f : Gang → Gang) : (s.modGang n f).turn = s.turn := rfl
@[simp] theorem modGang_tick (s : State) (n : Nat) (f : Gang → Gang) : (s.modGang n f).tick = s.tick := rfl
@[simp] theorem modGang_now (s : State) (n : Nat) (f : Gang → Gang) : (s.modGang n f).now = s.now := rfl
@[simp] theorem modGang_ids (s : State) (n : Nat) (f : Gang → Gang) : (s.modGang n f).ids = s.ids := rfl
@[simp] theorem modGang_inbox (s : State) (n : Nat) (f : Gang → Gang) : (s.modGang n f).inbox = s.inbox := rfl
@[simp] theorem modGang_groups (s : State) (n : Nat) (f : Gang → Gang) : (s.modGang n f).groups = s.groups := rfl
@[simp] theorem modGang_blocks (s : State) (n : Nat) (f : Gang → Gang) : (s.modGang n f).blocks = s.blocks := rfl
@[simp] theorem modGang_gangs (s : State) (n : Nat) (f : Gang → Gang) : (s.modGang n f).gangs = upd s.gangs n f := rfl
@[simp] theorem modGang_launches (s : State) (n : Nat) (f : Gang → Gang) : (s.modGang n f).launches = s.launches := rfl
@[simp] theorem modGang_cores (s : State) (n : Nat) (f : Gang → Gang) : (s.modGang n f).cores = s.cores := rfl
@[simp] theorem modGang_quads (s : State) (n : Nat) (f : Gang → Gang) : (s.modGang n f).quads = s.quads := rfl
@[simp] theorem modGang_cmds (s : State) (n : Nat) (f : Gang → Gang) : (s.modGang n f).cmds = s.cmds := rfl
@[simp] theorem modGang_homes (s : State) (n : Nat) (f : Gang → Gang) : (s.modGang n f).homes = s.homes := rfl
@[simp] theorem modGang_mem (s : State) (n : Nat) (f : Gang → Gang) : (s.modGang n f).mem = s.mem := rfl
@[simp] theorem modGang_net (s : State) (n : Nat) (f : Gang → Gang) : (s.modGang n f).net = s.net := rfl
@[simp] theorem modGang_ring (s : State) (n : Nat) (f : Gang → Gang) : (s.modGang n f).ring = s.ring := rfl
@[simp] theorem modGang_fab (s : State) (n : Nat) (f : Gang → Gang) : (s.modGang n f).fab = s.fab := rfl
@[simp] theorem modGang_host (s : State) (n : Nat) (f : Gang → Gang) : (s.modGang n f).host = s.host := rfl
@[simp] theorem modGang_ctxs (s : State) (n : Nat) (f : Gang → Gang) : (s.modGang n f).ctxs = s.ctxs := rfl
@[simp] theorem modGang_fw (s : State) (n : Nat) (f : Gang → Gang) : (s.modGang n f).fw = s.fw := rfl
@[simp] theorem modLaunch_turn (s : State) (n : Nat) (f : Launch → Launch) : (s.modLaunch n f).turn = s.turn := rfl
@[simp] theorem modLaunch_tick (s : State) (n : Nat) (f : Launch → Launch) : (s.modLaunch n f).tick = s.tick := rfl
@[simp] theorem modLaunch_now (s : State) (n : Nat) (f : Launch → Launch) : (s.modLaunch n f).now = s.now := rfl
@[simp] theorem modLaunch_ids (s : State) (n : Nat) (f : Launch → Launch) : (s.modLaunch n f).ids = s.ids := rfl
@[simp] theorem modLaunch_inbox (s : State) (n : Nat) (f : Launch → Launch) : (s.modLaunch n f).inbox = s.inbox := rfl
@[simp] theorem modLaunch_groups (s : State) (n : Nat) (f : Launch → Launch) : (s.modLaunch n f).groups = s.groups := rfl
@[simp] theorem modLaunch_blocks (s : State) (n : Nat) (f : Launch → Launch) : (s.modLaunch n f).blocks = s.blocks := rfl
@[simp] theorem modLaunch_gangs (s : State) (n : Nat) (f : Launch → Launch) : (s.modLaunch n f).gangs = s.gangs := rfl
@[simp] theorem modLaunch_launches (s : State) (n : Nat) (f : Launch → Launch) : (s.modLaunch n f).launches = upd s.launches n f := rfl
@[simp] theorem modLaunch_cores (s : State) (n : Nat) (f : Launch → Launch) : (s.modLaunch n f).cores = s.cores := rfl
@[simp] theorem modLaunch_quads (s : State) (n : Nat) (f : Launch → Launch) : (s.modLaunch n f).quads = s.quads := rfl
@[simp] theorem modLaunch_cmds (s : State) (n : Nat) (f : Launch → Launch) : (s.modLaunch n f).cmds = s.cmds := rfl
@[simp] theorem modLaunch_homes (s : State) (n : Nat) (f : Launch → Launch) : (s.modLaunch n f).homes = s.homes := rfl
@[simp] theorem modLaunch_mem (s : State) (n : Nat) (f : Launch → Launch) : (s.modLaunch n f).mem = s.mem := rfl
@[simp] theorem modLaunch_net (s : State) (n : Nat) (f : Launch → Launch) : (s.modLaunch n f).net = s.net := rfl
@[simp] theorem modLaunch_ring (s : State) (n : Nat) (f : Launch → Launch) : (s.modLaunch n f).ring = s.ring := rfl
@[simp] theorem modLaunch_fab (s : State) (n : Nat) (f : Launch → Launch) : (s.modLaunch n f).fab = s.fab := rfl
@[simp] theorem modLaunch_host (s : State) (n : Nat) (f : Launch → Launch) : (s.modLaunch n f).host = s.host := rfl
@[simp] theorem modLaunch_ctxs (s : State) (n : Nat) (f : Launch → Launch) : (s.modLaunch n f).ctxs = s.ctxs := rfl
@[simp] theorem modLaunch_fw (s : State) (n : Nat) (f : Launch → Launch) : (s.modLaunch n f).fw = s.fw := rfl
@[simp] theorem modCmd_turn (s : State) (n : Nat) (f : Cmd → Cmd) : (s.modCmd n f).turn = s.turn := rfl
@[simp] theorem modCmd_tick (s : State) (n : Nat) (f : Cmd → Cmd) : (s.modCmd n f).tick = s.tick := rfl
@[simp] theorem modCmd_now (s : State) (n : Nat) (f : Cmd → Cmd) : (s.modCmd n f).now = s.now := rfl
@[simp] theorem modCmd_ids (s : State) (n : Nat) (f : Cmd → Cmd) : (s.modCmd n f).ids = s.ids := rfl
@[simp] theorem modCmd_inbox (s : State) (n : Nat) (f : Cmd → Cmd) : (s.modCmd n f).inbox = s.inbox := rfl
@[simp] theorem modCmd_groups (s : State) (n : Nat) (f : Cmd → Cmd) : (s.modCmd n f).groups = s.groups := rfl
@[simp] theorem modCmd_blocks (s : State) (n : Nat) (f : Cmd → Cmd) : (s.modCmd n f).blocks = s.blocks := rfl
@[simp] theorem modCmd_gangs (s : State) (n : Nat) (f : Cmd → Cmd) : (s.modCmd n f).gangs = s.gangs := rfl
@[simp] theorem modCmd_launches (s : State) (n : Nat) (f : Cmd → Cmd) : (s.modCmd n f).launches = s.launches := rfl
@[simp] theorem modCmd_cores (s : State) (n : Nat) (f : Cmd → Cmd) : (s.modCmd n f).cores = s.cores := rfl
@[simp] theorem modCmd_quads (s : State) (n : Nat) (f : Cmd → Cmd) : (s.modCmd n f).quads = s.quads := rfl
@[simp] theorem modCmd_cmds (s : State) (n : Nat) (f : Cmd → Cmd) : (s.modCmd n f).cmds = upd s.cmds n f := rfl
@[simp] theorem modCmd_homes (s : State) (n : Nat) (f : Cmd → Cmd) : (s.modCmd n f).homes = s.homes := rfl
@[simp] theorem modCmd_mem (s : State) (n : Nat) (f : Cmd → Cmd) : (s.modCmd n f).mem = s.mem := rfl
@[simp] theorem modCmd_net (s : State) (n : Nat) (f : Cmd → Cmd) : (s.modCmd n f).net = s.net := rfl
@[simp] theorem modCmd_ring (s : State) (n : Nat) (f : Cmd → Cmd) : (s.modCmd n f).ring = s.ring := rfl
@[simp] theorem modCmd_fab (s : State) (n : Nat) (f : Cmd → Cmd) : (s.modCmd n f).fab = s.fab := rfl
@[simp] theorem modCmd_host (s : State) (n : Nat) (f : Cmd → Cmd) : (s.modCmd n f).host = s.host := rfl
@[simp] theorem modCmd_ctxs (s : State) (n : Nat) (f : Cmd → Cmd) : (s.modCmd n f).ctxs = s.ctxs := rfl
@[simp] theorem modCmd_fw (s : State) (n : Nat) (f : Cmd → Cmd) : (s.modCmd n f).fw = s.fw := rfl
@[simp] theorem modPage_turn (s : State) (n : Nat) (f : HostPage → HostPage) : (s.modPage n f).turn = s.turn := rfl
@[simp] theorem modPage_tick (s : State) (n : Nat) (f : HostPage → HostPage) : (s.modPage n f).tick = s.tick := rfl
@[simp] theorem modPage_now (s : State) (n : Nat) (f : HostPage → HostPage) : (s.modPage n f).now = s.now := rfl
@[simp] theorem modPage_ids (s : State) (n : Nat) (f : HostPage → HostPage) : (s.modPage n f).ids = s.ids := rfl
@[simp] theorem modPage_inbox (s : State) (n : Nat) (f : HostPage → HostPage) : (s.modPage n f).inbox = s.inbox := rfl
@[simp] theorem modPage_groups (s : State) (n : Nat) (f : HostPage → HostPage) : (s.modPage n f).groups = s.groups := rfl
@[simp] theorem modPage_blocks (s : State) (n : Nat) (f : HostPage → HostPage) : (s.modPage n f).blocks = s.blocks := rfl
@[simp] theorem modPage_gangs (s : State) (n : Nat) (f : HostPage → HostPage) : (s.modPage n f).gangs = s.gangs := rfl
@[simp] theorem modPage_launches (s : State) (n : Nat) (f : HostPage → HostPage) : (s.modPage n f).launches = s.launches := rfl
@[simp] theorem modPage_cores (s : State) (n : Nat) (f : HostPage → HostPage) : (s.modPage n f).cores = s.cores := rfl
@[simp] theorem modPage_quads (s : State) (n : Nat) (f : HostPage → HostPage) : (s.modPage n f).quads = s.quads := rfl
@[simp] theorem modPage_cmds (s : State) (n : Nat) (f : HostPage → HostPage) : (s.modPage n f).cmds = s.cmds := rfl
@[simp] theorem modPage_homes (s : State) (n : Nat) (f : HostPage → HostPage) : (s.modPage n f).homes = s.homes := rfl
@[simp] theorem modPage_mem (s : State) (n : Nat) (f : HostPage → HostPage) : (s.modPage n f).mem = s.mem := rfl
@[simp] theorem modPage_net (s : State) (n : Nat) (f : HostPage → HostPage) : (s.modPage n f).net = s.net := rfl
@[simp] theorem modPage_ring (s : State) (n : Nat) (f : HostPage → HostPage) : (s.modPage n f).ring = s.ring := rfl
@[simp] theorem modPage_fab (s : State) (n : Nat) (f : HostPage → HostPage) : (s.modPage n f).fab = s.fab := rfl
@[simp] theorem modPage_ctxs (s : State) (n : Nat) (f : HostPage → HostPage) : (s.modPage n f).ctxs = s.ctxs := rfl
@[simp] theorem modPage_fw (s : State) (n : Nat) (f : HostPage → HostPage) : (s.modPage n f).fw = s.fw := rfl
@[simp] theorem modHStream_turn (s : State) (n : Nat) (f : HStream → HStream) : (s.modHStream n f).turn = s.turn := rfl
@[simp] theorem modHStream_tick (s : State) (n : Nat) (f : HStream → HStream) : (s.modHStream n f).tick = s.tick := rfl
@[simp] theorem modHStream_now (s : State) (n : Nat) (f : HStream → HStream) : (s.modHStream n f).now = s.now := rfl
@[simp] theorem modHStream_ids (s : State) (n : Nat) (f : HStream → HStream) : (s.modHStream n f).ids = s.ids := rfl
@[simp] theorem modHStream_inbox (s : State) (n : Nat) (f : HStream → HStream) : (s.modHStream n f).inbox = s.inbox := rfl
@[simp] theorem modHStream_groups (s : State) (n : Nat) (f : HStream → HStream) : (s.modHStream n f).groups = s.groups := rfl
@[simp] theorem modHStream_blocks (s : State) (n : Nat) (f : HStream → HStream) : (s.modHStream n f).blocks = s.blocks := rfl
@[simp] theorem modHStream_gangs (s : State) (n : Nat) (f : HStream → HStream) : (s.modHStream n f).gangs = s.gangs := rfl
@[simp] theorem modHStream_launches (s : State) (n : Nat) (f : HStream → HStream) : (s.modHStream n f).launches = s.launches := rfl
@[simp] theorem modHStream_cores (s : State) (n : Nat) (f : HStream → HStream) : (s.modHStream n f).cores = s.cores := rfl
@[simp] theorem modHStream_quads (s : State) (n : Nat) (f : HStream → HStream) : (s.modHStream n f).quads = s.quads := rfl
@[simp] theorem modHStream_cmds (s : State) (n : Nat) (f : HStream → HStream) : (s.modHStream n f).cmds = s.cmds := rfl
@[simp] theorem modHStream_homes (s : State) (n : Nat) (f : HStream → HStream) : (s.modHStream n f).homes = s.homes := rfl
@[simp] theorem modHStream_mem (s : State) (n : Nat) (f : HStream → HStream) : (s.modHStream n f).mem = s.mem := rfl
@[simp] theorem modHStream_net (s : State) (n : Nat) (f : HStream → HStream) : (s.modHStream n f).net = s.net := rfl
@[simp] theorem modHStream_ring (s : State) (n : Nat) (f : HStream → HStream) : (s.modHStream n f).ring = s.ring := rfl
@[simp] theorem modHStream_fab (s : State) (n : Nat) (f : HStream → HStream) : (s.modHStream n f).fab = s.fab := rfl
@[simp] theorem modHStream_ctxs (s : State) (n : Nat) (f : HStream → HStream) : (s.modHStream n f).ctxs = s.ctxs := rfl
@[simp] theorem modHStream_fw (s : State) (n : Nat) (f : HStream → HStream) : (s.modHStream n f).fw = s.fw := rfl
@[simp] theorem modLink_turn (s : State) (n : Nat) (f : Link → Link) : (s.modLink n f).turn = s.turn := rfl
@[simp] theorem modLink_tick (s : State) (n : Nat) (f : Link → Link) : (s.modLink n f).tick = s.tick := rfl
@[simp] theorem modLink_now (s : State) (n : Nat) (f : Link → Link) : (s.modLink n f).now = s.now := rfl
@[simp] theorem modLink_ids (s : State) (n : Nat) (f : Link → Link) : (s.modLink n f).ids = s.ids := rfl
@[simp] theorem modLink_inbox (s : State) (n : Nat) (f : Link → Link) : (s.modLink n f).inbox = s.inbox := rfl
@[simp] theorem modLink_groups (s : State) (n : Nat) (f : Link → Link) : (s.modLink n f).groups = s.groups := rfl
@[simp] theorem modLink_blocks (s : State) (n : Nat) (f : Link → Link) : (s.modLink n f).blocks = s.blocks := rfl
@[simp] theorem modLink_gangs (s : State) (n : Nat) (f : Link → Link) : (s.modLink n f).gangs = s.gangs := rfl
@[simp] theorem modLink_launches (s : State) (n : Nat) (f : Link → Link) : (s.modLink n f).launches = s.launches := rfl
@[simp] theorem modLink_cores (s : State) (n : Nat) (f : Link → Link) : (s.modLink n f).cores = s.cores := rfl
@[simp] theorem modLink_quads (s : State) (n : Nat) (f : Link → Link) : (s.modLink n f).quads = s.quads := rfl
@[simp] theorem modLink_cmds (s : State) (n : Nat) (f : Link → Link) : (s.modLink n f).cmds = s.cmds := rfl
@[simp] theorem modLink_homes (s : State) (n : Nat) (f : Link → Link) : (s.modLink n f).homes = s.homes := rfl
@[simp] theorem modLink_mem (s : State) (n : Nat) (f : Link → Link) : (s.modLink n f).mem = s.mem := rfl
@[simp] theorem modLink_net (s : State) (n : Nat) (f : Link → Link) : (s.modLink n f).net = s.net := rfl
@[simp] theorem modLink_ring (s : State) (n : Nat) (f : Link → Link) : (s.modLink n f).ring = s.ring := rfl
@[simp] theorem modLink_host (s : State) (n : Nat) (f : Link → Link) : (s.modLink n f).host = s.host := rfl
@[simp] theorem modLink_ctxs (s : State) (n : Nat) (f : Link → Link) : (s.modLink n f).ctxs = s.ctxs := rfl
@[simp] theorem modLink_fw (s : State) (n : Nat) (f : Link → Link) : (s.modLink n f).fw = s.fw := rfl
@[simp] theorem modPacket_turn (s : State) (n : Nat) (f : Packet → Packet) : (s.modPacket n f).turn = s.turn := rfl
@[simp] theorem modPacket_tick (s : State) (n : Nat) (f : Packet → Packet) : (s.modPacket n f).tick = s.tick := rfl
@[simp] theorem modPacket_now (s : State) (n : Nat) (f : Packet → Packet) : (s.modPacket n f).now = s.now := rfl
@[simp] theorem modPacket_ids (s : State) (n : Nat) (f : Packet → Packet) : (s.modPacket n f).ids = s.ids := rfl
@[simp] theorem modPacket_inbox (s : State) (n : Nat) (f : Packet → Packet) : (s.modPacket n f).inbox = s.inbox := rfl
@[simp] theorem modPacket_groups (s : State) (n : Nat) (f : Packet → Packet) : (s.modPacket n f).groups = s.groups := rfl
@[simp] theorem modPacket_blocks (s : State) (n : Nat) (f : Packet → Packet) : (s.modPacket n f).blocks = s.blocks := rfl
@[simp] theorem modPacket_gangs (s : State) (n : Nat) (f : Packet → Packet) : (s.modPacket n f).gangs = s.gangs := rfl
@[simp] theorem modPacket_launches (s : State) (n : Nat) (f : Packet → Packet) : (s.modPacket n f).launches = s.launches := rfl
@[simp] theorem modPacket_cores (s : State) (n : Nat) (f : Packet → Packet) : (s.modPacket n f).cores = s.cores := rfl
@[simp] theorem modPacket_quads (s : State) (n : Nat) (f : Packet → Packet) : (s.modPacket n f).quads = s.quads := rfl
@[simp] theorem modPacket_cmds (s : State) (n : Nat) (f : Packet → Packet) : (s.modPacket n f).cmds = s.cmds := rfl
@[simp] theorem modPacket_homes (s : State) (n : Nat) (f : Packet → Packet) : (s.modPacket n f).homes = s.homes := rfl
@[simp] theorem modPacket_mem (s : State) (n : Nat) (f : Packet → Packet) : (s.modPacket n f).mem = s.mem := rfl
@[simp] theorem modPacket_ring (s : State) (n : Nat) (f : Packet → Packet) : (s.modPacket n f).ring = s.ring := rfl
@[simp] theorem modPacket_fab (s : State) (n : Nat) (f : Packet → Packet) : (s.modPacket n f).fab = s.fab := rfl
@[simp] theorem modPacket_host (s : State) (n : Nat) (f : Packet → Packet) : (s.modPacket n f).host = s.host := rfl
@[simp] theorem modPacket_ctxs (s : State) (n : Nat) (f : Packet → Packet) : (s.modPacket n f).ctxs = s.ctxs := rfl
@[simp] theorem modPacket_fw (s : State) (n : Nat) (f : Packet → Packet) : (s.modPacket n f).fw = s.fw := rfl
@[simp] theorem next_turn (s : State) : s.next.turn = s.turn := rfl
@[simp] theorem next_tick (s : State) : s.next.tick = s.tick := rfl
@[simp] theorem next_now (s : State) : s.next.now = s.now := rfl
@[simp] theorem next_ids (s : State) : s.next.ids = s.ids + 1 := rfl
@[simp] theorem next_inbox (s : State) : s.next.inbox = s.inbox := rfl
@[simp] theorem next_groups (s : State) : s.next.groups = s.groups := rfl
@[simp] theorem next_blocks (s : State) : s.next.blocks = s.blocks := rfl
@[simp] theorem next_gangs (s : State) : s.next.gangs = s.gangs := rfl
@[simp] theorem next_launches (s : State) : s.next.launches = s.launches := rfl
@[simp] theorem next_cores (s : State) : s.next.cores = s.cores := rfl
@[simp] theorem next_quads (s : State) : s.next.quads = s.quads := rfl
@[simp] theorem next_cmds (s : State) : s.next.cmds = s.cmds := rfl
@[simp] theorem next_homes (s : State) : s.next.homes = s.homes := rfl
@[simp] theorem next_mem (s : State) : s.next.mem = s.mem := rfl
@[simp] theorem next_net (s : State) : s.next.net = s.net := rfl
@[simp] theorem next_ring (s : State) : s.next.ring = s.ring := rfl
@[simp] theorem next_fab (s : State) : s.next.fab = s.fab := rfl
@[simp] theorem next_host (s : State) : s.next.host = s.host := rfl
@[simp] theorem next_ctxs (s : State) : s.next.ctxs = s.ctxs := rfl
@[simp] theorem next_fw (s : State) : s.next.fw = s.fw := rfl
@[simp] theorem modPath_turn (s : State) (g a : Nat) (f : Path → Path) : (s.modPath g a f).turn = s.turn := rfl
@[simp] theorem modPath_tick (s : State) (g a : Nat) (f : Path → Path) : (s.modPath g a f).tick = s.tick := rfl
@[simp] theorem modPath_now (s : State) (g a : Nat) (f : Path → Path) : (s.modPath g a f).now = s.now := rfl
@[simp] theorem modPath_ids (s : State) (g a : Nat) (f : Path → Path) : (s.modPath g a f).ids = s.ids := rfl
@[simp] theorem modPath_inbox (s : State) (g a : Nat) (f : Path → Path) : (s.modPath g a f).inbox = s.inbox := rfl
@[simp] theorem modPath_blocks (s : State) (g a : Nat) (f : Path → Path) : (s.modPath g a f).blocks = s.blocks := rfl
@[simp] theorem modPath_gangs (s : State) (g a : Nat) (f : Path → Path) : (s.modPath g a f).gangs = s.gangs := rfl
@[simp] theorem modPath_launches (s : State) (g a : Nat) (f : Path → Path) : (s.modPath g a f).launches = s.launches := rfl
@[simp] theorem modPath_cores (s : State) (g a : Nat) (f : Path → Path) : (s.modPath g a f).cores = s.cores := rfl
@[simp] theorem modPath_quads (s : State) (g a : Nat) (f : Path → Path) : (s.modPath g a f).quads = s.quads := rfl
@[simp] theorem modPath_cmds (s : State) (g a : Nat) (f : Path → Path) : (s.modPath g a f).cmds = s.cmds := rfl
@[simp] theorem modPath_homes (s : State) (g a : Nat) (f : Path → Path) : (s.modPath g a f).homes = s.homes := rfl
@[simp] theorem modPath_mem (s : State) (g a : Nat) (f : Path → Path) : (s.modPath g a f).mem = s.mem := rfl
@[simp] theorem modPath_net (s : State) (g a : Nat) (f : Path → Path) : (s.modPath g a f).net = s.net := rfl
@[simp] theorem modPath_ring (s : State) (g a : Nat) (f : Path → Path) : (s.modPath g a f).ring = s.ring := rfl
@[simp] theorem modPath_fab (s : State) (g a : Nat) (f : Path → Path) : (s.modPath g a f).fab = s.fab := rfl
@[simp] theorem modPath_host (s : State) (g a : Nat) (f : Path → Path) : (s.modPath g a f).host = s.host := rfl
@[simp] theorem modPath_ctxs (s : State) (g a : Nat) (f : Path → Path) : (s.modPath g a f).ctxs = s.ctxs := rfl
@[simp] theorem modPath_fw (s : State) (g a : Nat) (f : Path → Path) : (s.modPath g a f).fw = s.fw := rfl
@[simp] theorem modPath_groups (s : State) (g a : Nat) (f : Path → Path) :
    (s.modPath g a f).groups = upd s.groups g fun G => G.modArm a f := rfl

end Sys2Proof.Machine
end

