-- ==== Sys2Proof/Laws/Paths.lean ====
section
/-!
SUPPORT. Paths of a group: reconvergence moves paths and does nothing else while no divergence entry is spilled; where a path stands after it
has issued.
-/

namespace Sys2Proof.Machine

/-- Only how a group's paths stand has changed between `s` and `t`. -/
structure Moved (s t : State) (g : Nat) : Prop where
  rest : { t with groups := s.groups } = s
  others : ∀ x, x ≠ g → t.group? x = s.group? x
  grp : { t.grpOf g with arms := (s.grpOf g).arms, resid := (s.grpOf g).resid, accs := (s.grpOf g).accs } = s.grpOf g
  resid : (t.grpOf g).resid.map (fun e => { e with arm := 0 }) = (s.grpOf g).resid.map fun e => { e with arm := 0 }
  accs : (t.grpOf g).accs.map (fun e => { e with arm := 0 }) = (s.grpOf g).accs.map fun e => { e with arm := 0 }

theorem Moved.refl (s : State) (g : Nat) : Moved s s g := ⟨rfl, fun _ _ => rfl, rfl, rfl, rfl⟩

theorem Moved.trans {s t u : State} {g : Nat} (h : Moved s t g) (k : Moved t u g) : Moved s u g := by
  refine ⟨?_, fun x hx => (k.others x hx).trans (h.others x hx), ?_, k.resid.trans h.resid, k.accs.trans h.accs⟩
  · have a := h.rest; have b := k.rest
    rw [← b] at a; exact a
  · have a := h.grp; have b := k.grp
    rw [← b] at a; exact a

theorem group?_modGroup (s : State) (g x : Nat) (f : Group → Group) :
    (s.modGroup g f).group? x = if x = g then (s.group? g).map f else s.group? x := look_upd _ _ _ _

theorem grpOf_modGroup (s : State) (g : Nat) (f : Group → Group) (h : (s.group? g).isSome) :
    (s.modGroup g f).grpOf g = f (s.grpOf g) := by
  unfold State.grpOf
  rw [group?_modGroup, if_pos rfl]
  cases hg : s.group? g with
  | none => rw [hg] at h; simp at h
  | some G => rfl

theorem modGroup_none (s : State) (g : Nat) (f : Group → Group) (h : s.group? g = none) : s.modGroup g f = s := by
  unfold State.modGroup upd
  unfold State.group? at h
  rw [h]
  rfl

theorem modGroup_rest (s : State) (g : Nat) (f : Group → Group) : { s.modGroup g f with groups := s.groups } = s := rfl

theorem Moved.mod (s : State) (g : Nat) (f : Group → Group)
    (hf : ∀ G : Group, { f G with arms := G.arms, resid := G.resid, accs := G.accs } = G)
    (hr : ∀ G : Group, (f G).resid.map (fun e => { e with arm := 0 }) = G.resid.map fun e => { e with arm := 0 })
    (ha : ∀ G : Group, (f G).accs.map (fun e => { e with arm := 0 }) = G.accs.map fun e => { e with arm := 0 }) :
    Moved s (s.modGroup g f) g := by
  by_cases h : (s.group? g).isSome
  · refine ⟨modGroup_rest s g f, fun x hx => ?_, ?_, ?_, ?_⟩
    · rw [group?_modGroup, if_neg hx]
    · rw [grpOf_modGroup s g f h]; exact hf _
    · rw [grpOf_modGroup s g f h]; exact hr _
    · rw [grpOf_modGroup s g f h]; exact ha _
  · rw [modGroup_none s g f (by simpa using h)]; exact Moved.refl s g

theorem Moved.path (s : State) (g a : Nat) (f : Path → Path) : Moved s (s.modPath g a f) g :=
  Moved.mod s g _ (fun _ => rfl) (fun _ => rfl) (fun _ => rfl)

theorem Moved.meet (s : State) (g a : Nat) (f : Path → Path) : Moved s (s.modGroup g fun G => (G.modArm a f).meet) g := by
  refine Moved.mod s g _ (fun G => ?_) (fun G => ?_) (fun G => ?_) <;> unfold Group.meet <;> (repeat' split) <;>
    first
    | rfl
    | (simp [Group.modArm])

theorem armOf_modArm (G : Group) (a : Nat) (f : Path → Path) (h : (G.arm? a).isSome) : (G.modArm a f).armOf a = f (G.armOf a) := by
  unfold Group.armOf Group.arm? Group.modArm at *
  simp only [List.getElem?_modify]
  cases hp : G.arms[a]? with
  | none => rw [hp] at h; simp at h
  | some p => simp

theorem pathOf_modPath (s : State) (g a : Nat) (f : Path → Path) (h : (s.path? g a).isSome) :
    (s.modPath g a f).pathOf g a = f (s.pathOf g a) := by
  unfold State.path? at h
  cases hg : s.group? g with
  | none => rw [hg] at h; simp at h
  | some G =>
    rw [hg] at h
    have hG : s.grpOf g = G := by unfold State.grpOf; rw [hg]; rfl
    unfold State.pathOf State.modPath
    rw [grpOf_modGroup _ _ _ (by rw [hg]; rfl), hG, armOf_modArm]
    simpa using h

theorem path?_isSome_of_stack {s : State} {g a : Nat} (h : (s.pathOf g a).stack ≠ []) : (s.path? g a).isSome := by
  unfold State.path?
  unfold State.pathOf State.grpOf Group.armOf at h
  cases hg : s.group? g with
  | none => rw [hg] at h; exact absurd rfl h
  | some G =>
    rw [hg] at h
    cases hp : G.arm? a with
    | none => simp only [Option.getD_some, hp] at h; exact absurd rfl h
    | some p => simp [hp]

theorem refill_onChip {s : State} {g a e : Nat} (h : (s.pathOf g a).onChip = true) : s.refill g a e = (s, .ok []) := by
  unfold State.refill
  have : (look (s.pathOf g a).ents e).bind DivE.spill = none := by
    cases hl : look (s.pathOf g a).ents e with
    | none => rfl
    | some d =>
      have hm : ∀ t : Tab DivE, t.all (fun e => e.2.spill.isNone) = true → look t e = some d → d.spill = none := by
        intro t ht
        induction t with
        | nil => intro h; simp [look] at h
        | cons x r ih =>
          simp only [List.all_cons, Bool.and_eq_true] at ht
          intro h
          simp only [look] at h
          split at h
          · simp only [Option.some.injEq] at h; subst h; simpa using ht.1
          · exact ih ht.2 h
      exact hm _ h hl
  rw [this]

theorem onChip_del {p : Tab DivE} (h : p.all (fun e => e.2.spill.isNone) = true) (e : Nat) :
    (del p e).all (fun e => e.2.spill.isNone) = true := by
  rw [List.all_eq_true] at h ⊢
  exact fun x hx => h x (mem_del hx)

theorem onChip_put {p : Tab DivE} (h : p.all (fun e => e.2.spill.isNone) = true) (e : Nat) (d : DivE) (hd : d.spill = none) :
    (put p e d).all (fun e => e.2.spill.isNone) = true := by
  rw [List.all_eq_true] at h ⊢
  intro x hx
  rcases mem_put hx with rfl | hx
  · simp [hd]
  · exact h x hx

/-- Reconvergence moves paths and does nothing else, as long as no entry is spilled. -/
theorem arrive_moved (n : Nat) (s : State) (g a : Nat) (h : (s.pathOf g a).onChip = true) : Moved s (s.arrive n g a) g := by
  induction n generalizing s with
  | zero => exact Moved.refl s g
  | succ n ih =>
    unfold State.arrive
    dsimp only
    split
    · split
      · exact Moved.meet s g a _
      · exact Moved.refl s g
    · rename_i e rest hst
      have hs : (s.path? g a).isSome := path?_isSome_of_stack (by show ((s.grpOf g).armOf a).stack ≠ []; rw [hst]; simp)
      split
      · exact Moved.refl s g
      · rename_i d hd
        split
        · exact Moved.refl s g
        · rw [refill_onChip h]
          dsimp only
          split
          · refine (Moved.path s g a _).trans (ih _ ?_)
            rw [pathOf_modPath s g a _ hs]
            exact onChip_del h e
          · refine (Moved.path s g a _).trans (ih _ ?_)
            rw [pathOf_modPath s g a _ hs]
            exact onChip_put h e _ rfl

theorem settlePath_moved (s : State) (g a : Nat) (h : (s.pathOf g a).onChip = true) : Moved s (s.settlePath g a) g :=
  arrive_moved _ s g a h

theorem settlePath_clear {s : State} {g a : Nat} (h : (s.grpOf g).clearAt (s.pathOf g a) = true) : s.settlePath g a = s := by
  unfold State.settlePath Group.arriveFuel
  unfold Group.clearAt at h
  unfold State.arrive
  dsimp only
  unfold State.pathOf at h
  split
  · rename_i hst
    rw [hst] at h
    simp only [Bool.or_eq_true, Bool.and_eq_true, bne_iff_ne, ne_eq] at h
    rw [if_neg]
    simp only [Bool.and_eq_true, Bool.or_eq_true, decide_eq_true_eq, not_and]
    tauto
  · rename_i e rest hst
    rw [hst] at h
    split
    · rfl
    · rename_i d hd
      simp only [hd, Option.all_some, Bool.and_eq_true, bne_iff_ne, ne_eq] at h
      rw [if_pos]
      simp only [Bool.and_eq_true, bne_iff_ne, ne_eq]
      exact ⟨fun e => h.1 e.symm, h.2⟩

/-! ## After issue -/

theorem Moved.work {s t : State} {g : Nat} (h : Moved s t g) : SameWork (s.grpOf g) (t.grpOf g) := ⟨h.resid, h.accs⟩

theorem peek_groups (s : State) (x : Tab Group) (a n : Nat) : State.peek { s with groups := x } a n = s.peek a n := rfl

/-- Memory reads the same in states that differ in their groups alone. -/
theorem peek_of_rest {s t : State} (h : { t with groups := s.groups } = s) (a n : Nat) : t.peek a n = s.peek a n := by
  rw [← peek_groups t s.groups a n, h]

theorem Moved.only {s t : State} {g : Nat} (h : Moved s t g) : Only s t g := ⟨h.rest, h.others, peek_of_rest h.rest⟩

theorem Only.modGroup (s : State) (g : Nat) (f : Group → Group) : Only s (s.modGroup g f) g :=
  ⟨rfl, fun x hx => by rw [group?_modGroup, if_neg hx], peek_of_rest rfl⟩

theorem Only.trans {s t u : State} {g : Nat} (h : Only s t g) (k : Only t u g) : Only s u g := by
  have e : { u with groups := s.groups } = s := by
    have a := h.rest; have b := k.rest
    rw [← b] at a; exact a
  exact ⟨e, fun x hx => (k.others x hx).trans (h.others x hx), peek_of_rest e⟩

/-- What the current path's state says of the machine. -/
theorem cur_spec {s : State} {c : Cur} (h : s.cur = some c) :
    s.turn = .path c.g c.arm ∧ s.group? c.g = some c.grp ∧ c.grp.arm? c.arm = some c.path := by
  unfold State.cur at h
  split at h
  · rename_i g a ht
    unfold State.path? at h
    cases hg : s.group? g with
    | none => rw [hg] at h; simp at h
    | some G =>
      rw [hg] at h
      cases hp : G.arm? a with
      | none => simp [hp] at h
      | some p =>
        simp only [hp, Option.map_some, Option.some.injEq] at h
        subst h
        exact ⟨ht, hg, hp⟩
  · simp at h

theorem cur_grpOf {s : State} {c : Cur} (h : s.cur = some c) : s.grpOf c.g = c.grp := by
  unfold State.grpOf; rw [(cur_spec h).2.1]; rfl

theorem cur_pathOf {s : State} {c : Cur} (h : s.cur = some c) : s.pathOf c.g c.arm = c.path := by
  unfold State.pathOf Group.armOf; rw [cur_grpOf h, (cur_spec h).2.2]; rfl

/-- A move of a path of a group that stands like the current one. -/
theorem goto_of {s r : State} {c : Cur} {G : Group} (hG : r.group? c.g = some G) (hp : c.grp.arm? c.arm = some c.path)
    (ha : G.arms = c.grp.arms) (hr : G.recon = c.grp.recon) (he : G.exited = c.grp.exited) (ht : r.tick = s.tick)
    (hc : c.path.onChip = true) (pc : W64) : Moved r (r.goto c pc) c.g ∧ GoesOn s (r.goto c pc) c pc := by
  have hG' : r.grpOf c.g = G := by unfold State.grpOf; rw [hG]; rfl
  have harm : G.arm? c.arm = some c.path := by unfold Group.arm? at *; rw [ha, hp]
  have hs : (r.path? c.g c.arm).isSome := by unfold State.path?; rw [hG]; simp [harm]
  have hP : r.pathOf c.g c.arm = c.path := by unfold State.pathOf Group.armOf; rw [hG', harm]; rfl
  have h1 := Moved.path r c.g c.arm fun p => { p with pc := pc, st := .ready, prog := .none, last := r.tick }
  have hq : (r.modPath c.g c.arm fun p => { p with pc := pc, st := .ready, prog := .none, last := r.tick }).pathOf c.g c.arm
      = c.at s pc := by
    rw [pathOf_modPath _ _ _ _ hs, hP, ht]; rfl
  refine ⟨h1.trans (settlePath_moved _ _ _ (by rw [hq]; exact hc)), fun hcl => ?_⟩
  unfold State.goto
  rw [settlePath_clear]
  · exact hq
  · rw [hq]
    have hg2 : (r.modPath c.g c.arm fun p => { p with pc := pc, st := .ready, prog := .none, last := r.tick }).grpOf c.g
        = G.modArm c.arm fun p => { p with pc := pc, st := .ready, prog := .none, last := s.tick } := by
      unfold State.modPath
      rw [grpOf_modGroup _ _ _ (by rw [hG]; rfl), hG', ht]
    rw [hg2]
    unfold Group.clearAt at hcl ⊢
    simpa only [Group.modArm, Group.liveOf, List.length_modify, ha, hr, he] using hcl

/-- A change of the current group that keeps its paths, then a move of the path. -/
theorem goto_spec {s : State} {c : Cur} (h : s.cur = some c) (hc : c.path.onChip = true) (f : Group → Group)
    (ha : (f c.grp).arms = c.grp.arms) (hr : (f c.grp).recon = c.grp.recon) (he : (f c.grp).exited = c.grp.exited) (pc : W64) :
    Moved (s.modGroup c.g f) ((s.modGroup c.g f).goto c pc) c.g ∧ GoesOn s ((s.modGroup c.g f).goto c pc) c pc := by
  obtain ⟨_, hg, hp⟩ := cur_spec h
  exact goto_of (by rw [group?_modGroup, if_pos rfl, hg]; rfl) hp ha hr he rfl hc pc

/-- A move of the current path alone. -/
theorem goto_alone {s : State} {c : Cur} (h : s.cur = some c) (hc : c.path.onChip = true) (pc : W64) :
    Moved s (s.goto c pc) c.g ∧ GoesOn s (s.goto c pc) c pc := by
  obtain ⟨_, hg, hp⟩ := cur_spec h
  exact goto_of hg hp rfl rfl rfl rfl hc pc

end Sys2Proof.Machine
end

