-- ==== Sys2Proof/Laws/Issue.lean ====
section
/-!
SUPPORT. What issuing does, said once for each shape of instruction: per-lane, uniform, and one that only moves its path.
-/

namespace Sys2Proof.Machine

/-- A lane instruction on the current path. -/
theorem onPath_cur {s : State} {c : Cur} (h : s.cur = some c) (f : Cur → State) : s.onPath f = .next (f c) := by
  unfold State.onPath; rw [h]

/-- Everything a move of the current path leaves, after a change of its group. -/
theorem goto_only {s : State} {c : Cur} (h : s.cur = some c) (hc : c.path.onChip = true) (f : Group → Group)
    (ha : (f c.grp).arms = c.grp.arms) (hr : (f c.grp).recon = c.grp.recon) (he : (f c.grp).exited = c.grp.exited) (pc : W64) :
    Only s ((s.modGroup c.g f).goto c pc) c.g
      ∧ SameWork (f c.grp) (((s.modGroup c.g f).goto c pc).grpOf c.g)
      ∧ { ((s.modGroup c.g f).goto c pc).grpOf c.g with arms := (f c.grp).arms, resid := (f c.grp).resid, accs := (f c.grp).accs } = f c.grp
      ∧ GoesOn s ((s.modGroup c.g f).goto c pc) c pc := by
  obtain ⟨hm, hp⟩ := goto_spec h hc f ha hr he pc
  have hG : (s.modGroup c.g f).grpOf c.g = f c.grp := by
    rw [grpOf_modGroup _ _ _ (by rw [(cur_spec h).2.1]; rfl), cur_grpOf h]
  exact ⟨(Only.modGroup s c.g f).trans hm.only, hG ▸ hm.work, hG ▸ hm.grp, hp⟩

/-- Two groups that differ in their paths and work alone read the same. -/
theorem rd_of_paths {G H : Group} (h : { H with arms := G.arms, resid := G.resid, accs := G.accs } = G) (l : Nat) (loc : Loc) :
    H.rd l loc = G.rd l loc ∧ H.ownersOf l loc = G.ownersOf l loc := by
  rw [← h]; exact ⟨by cases loc <;> rfl, rfl⟩

theorem pred_of_paths {G H : Group} (h : { H with arms := G.arms, resid := G.resid, accs := G.accs } = G) (i l : Nat) :
    H.pred i l = G.pred i l := by rw [← h]; rfl

theorem kr_of_paths {G H : Group} (h : { H with arms := G.arms, resid := G.resid, accs := G.accs } = G) (i : BitVec 5) :
    H.kr i = G.kr i := by rw [← h]; rfl

theorem lanesOnly_of {G K H : Group} (h : G.regsOf K) (w : SameWork K H)
    (k : { H with arms := K.arms, resid := K.resid, accs := K.accs } = K) : LanesOnly G H := by
  unfold Group.regsOf at h
  have hr : K.resid = G.resid := by have q := congrArg Group.resid h; exact q
  have ha : K.accs = G.accs := by have q := congrArg Group.accs h; exact q
  have hm : K.arms = G.arms := by have q := congrArg Group.arms h; exact q
  refine ⟨⟨hr ▸ w.resid, ha ▸ w.accs⟩, ?_⟩
  rw [← k] at h
  rw [hm, hr, ha] at h
  exact h

/-- A per-lane instruction that is ready issues at once: it writes and its path goes on. -/
theorem issueLane_ready {s : State} {c : Cur} {i : Instr} {op : LaneOp} {b : List Byte} (h : LaneReady s c op.guard op.srcs b) :
    laneExec i op s = .next ((s.modGroup c.g fun G => G.laneDone (G.liveOf c.path) (c.act op.guard) op.dst
      (op.f (c.act op.guard) (c.vals (w64 (ofBytes b)) op.srcs))).goto c (c.nextPc i)) := by
  unfold laneExec
  rw [onPath_cur h.cur]
  unfold State.issueLane
  have ha : c.act op.guard ||| 0 = c.act op.guard := by simp
  have ha' : c.act op.guard ||| c.guardWaits op.guard = c.act op.guard := by rw [h.guard]; simp
  simp only [ha', h.words]
  rw [h.guard, h.there]
  simp only [bne_self_eq_false, Bool.or_self, Bool.false_eq_true, if_false, h.sound, List.isEmpty_nil, if_true]
  rfl

theorem laneDone_arms (G : Group) (live act : Lanes) (dst : LDst) (r : Nat → W64) :
    (G.laneDone live act dst r).arms = G.arms ∧ (G.laneDone live act dst r).recon = G.recon
      ∧ (G.laneDone live act dst r).exited = G.exited := by
  have h := regsOf_laneDone G live act dst r
  unfold Group.regsOf at h
  refine ⟨?_, ?_, ?_⟩
  · have q := congrArg Group.arms h; exact q
  · have q := congrArg Group.recon h; exact q
  · have q := congrArg Group.exited h; exact q

theorem laneExec_done {s : State} {c : Cur} {i : Instr} {op : LaneOp} {b : List Byte} {t : Ty} {d : Dst}
    (h : LaneReady s c op.guard op.srcs b) (hd : op.dst = .reg t d) :
    ∃ u, laneExec i op s = .next u ∧ LaneDone s u c (c.nextPc i) t d (c.act op.guard)
      (op.f (c.act op.guard) (c.vals (w64 (ofBytes b)) op.srcs)) := by
  refine ⟨_, issueLane_ready h, ?_⟩
  rw [hd]
  generalize op.f (c.act op.guard) (c.vals (w64 (ofBytes b)) op.srcs) = r
  obtain ⟨h1, h2, h3⟩ := laneDone_arms c.grp (c.grp.liveOf c.path) (c.act op.guard) (.reg t d) r
  obtain ⟨a, w, k, p⟩ := goto_only h.cur h.chip (fun G => G.laneDone (G.liveOf c.path) (c.act op.guard) (.reg t d) r) h1 h2 h3 (c.nextPc i)
  refine ⟨a, lanesOnly_of (regsOf_laneDone _ _ _ _ _) w k, ?_, p⟩
  have hw := laneDone_written c.grp (c.grp.liveOf c.path) (c.act op.guard) t d r
  refine ⟨fun l hl => ?_, fun l hl => ?_, fun l hl h1 h2 loc => ?_⟩
  · exact (hw.on l hl).same (.refl l _) ⟨fun loc => (rd_of_paths k l loc).1, fun loc => (rd_of_paths k l loc).2, by have q := congrArg Group.base k; exact q⟩
  · obtain ⟨x, y, z⟩ := hw.idle l hl
    exact ⟨(rd_of_paths k l _).1.trans x, (rd_of_paths k l _).2.trans y,
      fun loc hn => ⟨(rd_of_paths k l _).1.trans (z loc hn).1, (rd_of_paths k l _).2.trans (z loc hn).2⟩⟩
  · obtain ⟨x, y⟩ := hw.out l hl h1 h2 loc
    exact ⟨(rd_of_paths k l _).1.trans x, (rd_of_paths k l _).2.trans y⟩

theorem laneExec_pred {s : State} {c : Cur} {i : Instr} {op : LaneOp} {b : List Byte} {p : BitVec 3} {f : Nat → Bool}
    (h : LaneReady s c op.guard op.srcs b) (hd : op.dst = .pred p)
    (hf : op.f (c.act op.guard) (c.vals (w64 (ofBytes b)) op.srcs) = fun l => if f l then 1 else 0) :
    ∃ u, laneExec i op s = .next u ∧ PredDone s u c (c.nextPc i) p (c.act op.guard) f := by
  refine ⟨_, issueLane_ready h, ?_⟩
  rw [hd, hf]
  obtain ⟨h1, h2, h3⟩ := laneDone_arms c.grp (c.grp.liveOf c.path) (c.act op.guard) (.pred p) fun l => if f l then 1 else 0
  obtain ⟨a, w, k, q⟩ := goto_only h.cur h.chip
    (fun G => G.laneDone (G.liveOf c.path) (c.act op.guard) (.pred p) fun l => if f l then 1 else 0) h1 h2 h3 (c.nextPc i)
  refine ⟨a, lanesOnly_of (regsOf_laneDone _ _ _ _ _) w k, ?_, q⟩
  have hw := laneDone_pred c.grp (c.grp.liveOf c.path) (c.act op.guard) p f
  refine ⟨fun l hl hp => ?_, fun l hl loc hh => ?_⟩
  · obtain ⟨x, y⟩ := hw.on l hl hp
    refine ⟨(pred_of_paths k _ _).trans x, ?_⟩
    unfold Group.isPend at y ⊢
    rw [(rd_of_paths k l _).2]; exact y
  · exact (rd_of_paths k l _).1.trans (hw.kept l hl loc hh)

/-! ## Uniform instructions -/

theorem regs_kw (G : Group) (d : BitVec 5) (x : W64) : { G.kw d x with k := G.k } = G := by
  unfold Group.kw; split <;> rfl

/-- A change of one `k` register, then a move of the path. -/
theorem kw_done {s : State} {c : Cur} (h : s.cur = some c) (hc : c.path.onChip = true) (d : BitVec 5) (x : W64) (pc : W64) :
    UniDone s ((s.modGroup c.g fun G => G.kw d x).goto c pc) c pc d x := by
  have e := regs_kw c.grp d x
  obtain ⟨a, w, k, p⟩ := goto_only h hc (fun G => G.kw d x) (by have q := congrArg Group.arms e; exact q)
    (by have q := congrArg Group.recon e; exact q) (by have q := congrArg Group.exited e; exact q) pc
  have hr : (c.grp.kw d x).resid = c.grp.resid := by have q := congrArg Group.resid e; exact q
  have ha : (c.grp.kw d x).accs = c.grp.accs := by have q := congrArg Group.accs e; exact q
  refine ⟨a, ⟨⟨hr ▸ w.resid, ha ▸ w.accs⟩, ?_⟩, fun hd => ?_, fun j hj => ?_, ?_, p⟩
  · have hm : (c.grp.kw d x).arms = c.grp.arms := by have q := congrArg Group.arms e; exact q
    rw [← k] at e
    rw [hm, hr, ha] at e
    exact e
  · rw [kr_of_paths k, kr_kw, if_pos ⟨rfl, hd⟩]
  · rw [kr_of_paths k, kr_kw, if_neg fun e => hj e.1]
  · simp only [Group.kr, if_true]

/-- A per-path instruction that is ready has its effect once. -/
theorem issuePath_ready {s : State} {c : Cur} {i : Instr} {gd : Guard} {srcs : List (ReadAs × Src)} {b : List Byte}
    (h : UniReady s c gd srcs b) (f : Group → W64 → Lanes → Group) :
    s.issuePath c i gd srcs f = (s.modGroup c.g fun G => f G (w64 (ofBytes b)) (c.act gd)).goto c (c.nextPc i) := by
  unfold State.issuePath
  rw [h.guard]
  simp only [bne_self_eq_false, Bool.false_eq_true, if_false, h.words, if_neg h.some]
  rfl

/-- A per-path instruction that writes one `k` register from its sources. -/
theorem issuePath_kw {s : State} {c : Cur} {i : Instr} {gd : Guard} {srcs : List (ReadAs × Src)} {b : List Byte}
    (h : UniReady s c gd srcs b) (d : BitVec 5) (f : Group → W64 → Lanes → W64) :
    UniDone s (s.issuePath c i gd srcs fun G cw act => G.kw d (f G cw act)) c (c.nextPc i) d
      (f c.grp (w64 (ofBytes b)) (c.act gd)) := by
  rw [issuePath_ready h]
  have e : (s.modGroup c.g fun G => G.kw d (f G (w64 (ofBytes b)) (c.act gd)))
      = s.modGroup c.g fun G => G.kw d (f c.grp (w64 (ofBytes b)) (c.act gd)) := by
    unfold State.modGroup upd
    have hg := (cur_spec h.cur).2.1
    unfold State.group? at hg
    rw [hg]
  rw [e]
  exact kw_done h.cur h.chip d _ _

/-- A move of the path alone. -/
theorem goto_done {s : State} {c : Cur} (h : s.cur = some c) (hc : c.path.onChip = true) (pc : W64) : PathDone s (s.goto c pc) c pc := by
  obtain ⟨hm, hp⟩ := goto_alone h hc pc
  have hG := cur_grpOf h
  exact ⟨hm.only, ⟨hG ▸ hm.work, hG ▸ hm.grp⟩, hp⟩

/-! ## Instructions that act once for their path -/

theorem cwFor_nil (s : State) (c : Cur) (m : Lanes) : s.cwFor c m [] = (s, .ok []) := by
  unfold State.cwFor; split <;> rfl

theorem once_ready {s : State} {c : Cur} {i : Instr} {gd : Guard} {drains : Bool} {srcs : List (ReadAs × Src)} {b : List Byte}
    {f : State → W64 → State} (hg : c.guardWaits gd = 0) (ha : c.act gd ≠ 0) (hd : drains = true → c.drained = true)
    (hw : s.cwFor c (c.act gd) (srcs.map fun q => .op q.1 q.2 none) = (s, .ok b)) :
    s.once c i gd drains srcs f = f s (w64 (ofBytes b)) := by
  unfold State.once
  have : (drains && !c.drained) = false := by cases drains <;> simp_all
  rw [hg, this, if_neg (by simp), if_neg ha, hw]

theorem once_fresh {s : State} {c : Cur} {i : Instr} {gd : Guard} {drains : Bool} {f : State → W64 → State} (h : Fresh s c gd drains) :
    s.once c i gd drains [] f = f s (w64 (ofBytes [])) := once_ready h.guard h.some h.drained (cwFor_nil _ _ _)

theorem once_idle {s : State} {c : Cur} {i : Instr} {gd : Guard} {srcs : List (ReadAs × Src)}
    {f : State → W64 → State} (hg : c.guardWaits gd = 0) (ha : c.act gd = 0) :
    s.once c i gd false srcs f = s.advance c i := by
  unfold State.once
  rw [hg, if_neg (by simp), if_pos ha]

theorem issuePath_idle {s : State} {c : Cur} {i : Instr} {gd : Guard} {srcs : List (ReadAs × Src)} {f}
    (hg : c.guardWaits gd = 0) (ha : c.act gd = 0) :
    s.issuePath c i gd srcs f = s.advance c i := by
  unfold State.issuePath
  rw [hg, if_neg (by simp)]
  simp [State.cwFor, ha]

/-- A change of the current group that keeps its paths, then a move of the path. -/
theorem goto_becomes {r : State} {c : Cur} {G : Group} (hp : c.grp.arm? c.arm = some c.path) (hG : r.group? c.g = some G)
    (ha : G.arms = c.grp.arms) (hr : G.recon = c.grp.recon) (he : G.exited = c.grp.exited)
    (hc : c.path.onChip = true) (pc : W64) : Becomes r (r.goto c pc) c pc G := by
  obtain ⟨m, p⟩ := goto_of (s := r) hG hp ha hr he rfl hc pc
  have hG' : r.grpOf c.g = G := by unfold State.grpOf; rw [hG]; rfl
  exact ⟨m.only, hG' ▸ m.grp, hG' ▸ m.work, p⟩

theorem mod_becomes {s : State} {c : Cur} (h : s.cur = some c) (f : Group → Group)
    (ha : (f c.grp).arms = c.grp.arms) (hr : (f c.grp).recon = c.grp.recon) (he : (f c.grp).exited = c.grp.exited) 
    (hc : c.path.onChip = true) (pc : W64) : Becomes s ((s.modGroup c.g f).goto c pc) c pc (f c.grp) := by
  obtain ⟨_, hg, hp⟩ := cur_spec h
  obtain ⟨a, w, k, q⟩ := goto_only h hc f ha hr he pc
  exact ⟨a, k, w, q⟩
end Sys2Proof.Machine
end

