-- ==== Sys2Proof/Laws/Memory.lean ====
section
/-!
SUPPORT. Every operation on memory keeps its canonical form, and memory after reset has it; a read after a write.
-/

namespace Sys2Proof.Machine

variable {α β : Type}

theorem foldl_keeps {P : β → Prop} (f : β → α → β) (hf : ∀ t x, P t → P (f t x)) (l : List α) {t : β} (h : P t) :
    P (l.foldl f t) := by
  induction l generalizing t with
  | nil => exact h
  | cons x r ih => exact ih (hf t x h)

theorem risingFrom_mapv {lo : Nat} {t : Tab α} (f : Nat → α → α) (h : risingFrom lo t = true) :
    risingFrom lo (mapv f t) = true := by
  induction t generalizing lo with
  | nil => rfl
  | cons e r ih =>
    obtain ⟨k, a⟩ := e
    simp only [mapv, List.map_cons, risingFrom, Bool.and_eq_true] at h ⊢
    exact ⟨h.1, ih h.2⟩

theorem rising_keep {t : Tab α} (h : rising t = true) (p : Nat → α → Bool) : rising (keep p t) = true := risingFrom_filter h _

theorem rising_fillBytes (k : Nat) (own : Bool) {t : Tab CByte} (h : rising t = true) (b : List Byte) :
    rising (fillBytes k own t b) = true := by
  induction b generalizing k t with
  | nil => exact h
  | cons x r ih =>
    refine ih (k + 1) ?_
    show rising (if _ then _ else _) = true
    split
    · exact h
    · exact rising_put h _ _

theorem rising_renew (k : Nat) {t : Tab CByte} (h : rising t = true) (b : List Byte) : rising (renew k t b) = true := by
  refine foldl_keeps (P := fun t => rising t = true) _ (fun t x h => ?_) _ h
  split
  · exact rising_put h _ _
  · exact h

/-- The six tables of a memory in canonical form. -/
theorem wf_iff (m : Mem) : Memory.wf m = true ↔
    canon 0 m.phys = true ∧ rising m.slice = true ∧ rising m.l1 = true ∧ rising m.rsc = true ∧ canon false m.bad = true ∧
      rising m.pols = true := by
  simp only [Memory.wf, Bool.and_eq_true, and_assoc]

theorem reset_memory_wf : Memory.wf State.reset.mem = true := by decide

theorem store_wf {m : Mem} (h : Memory.wf m = true) (k : Nat) (b : List Byte) : Memory.wf (m.store k b) = true := by
  rw [wf_iff] at h ⊢
  exact ⟨canon_setRange 0 h.1 k b, h.2⟩

theorem storeAll_wf {m : Mem} (h : Memory.wf m = true) (l : List (Nat × Byte)) : Memory.wf (m.storeAll l) = true := by
  rw [wf_iff] at h ⊢
  exact ⟨foldl_keeps (P := fun t => canon 0 t = true) _ (fun t e h => canon_set 0 h _ _) l h.1, h.2⟩

theorem dirty_wf {m : Mem} (h : Memory.wf m = true) (a : Nat) (b : List Byte) : Memory.wf (m.dirty a b) = true := by
  rw [wf_iff] at h ⊢
  exact ⟨h.1, foldl_keeps (P := fun t => rising t = true) _ (fun t e h => rising_put h _ _) _ h.2.1, h.2.2⟩

theorem forget_wf {m : Mem} (h : Memory.wf m = true) (a n : Nat) : Memory.wf (m.forget a n) = true := by
  rw [wf_iff] at h ⊢
  exact ⟨h.1, foldl_keeps (P := fun t => rising t = true) _ (fun t e h => rising_del h _) _ h.2.1, h.2.2⟩

theorem clear_wf {m : Mem} (h : Memory.wf m = true) (p : Nat → Bool) : Memory.wf (m.clear p) = true := by
  rw [wf_iff] at h ⊢
  exact ⟨canon_keep 0 h.1 fun k _ => !p k, h.2⟩

theorem setPol_wf {m : Mem} (h : Memory.wf m = true) (line : Nat) (p : Option Nat) : Memory.wf (m.setPol line p) = true := by
  rw [wf_iff] at h ⊢
  refine ⟨h.1, h.2.1, h.2.2.1, h.2.2.2.1, h.2.2.2.2.1, ?_⟩
  cases p with
  | none => exact rising_del h.2.2.2.2.2 _
  | some x => exact rising_put h.2.2.2.2.2 _ _

theorem clean_wf {m : Mem} (h : Memory.wf m = true) (a : Nat) (b : List Byte) : Memory.wf (m.clean a b) = true := by
  rw [wf_iff] at h ⊢
  refine ⟨h.1, foldl_keeps (P := fun t => rising t = true) _ (fun t e h => ?_) _ h.2.1, h.2.2⟩
  split
  · exact h
  · exact rising_put h _ _

theorem cache_wf {m : Mem} (h : Memory.wf m = true) (k a n : Nat) : Memory.wf (m.cache k a n) = true := clean_wf h _ _

theorem writeBack_wf {m : Mem} (h : Memory.wf m = true) (key : Nat → Option Nat) (p : Nat → Bool) (drop : Bool) :
    Memory.wf (m.writeBack key p drop) = true := by
  rw [wf_iff] at h ⊢
  refine ⟨foldl_keeps (P := fun t => canon 0 t = true) _ (fun t e h => ?_) _ h.1, ?_, h.2.2⟩
  · split
    · split
      · exact canon_set 0 h _ _
      · exact h
    · exact h
  · show rising (if drop then _ else _) = true
    split
    · exact rising_keep h.2.1 _
    · exact risingFrom_mapv _ h.2.1

theorem keepSlice_wf {m : Mem} (h : Memory.wf m = true) (p : Nat → Bool) : Memory.wf (m.keepSlice p) = true := by
  rw [wf_iff] at h ⊢
  exact ⟨h.1, rising_keep h.2.1 (fun k _ => p k), h.2.2⟩

theorem keepL1_wf {m : Mem} (h : Memory.wf m = true) (p : Nat → Bool → Bool) : Memory.wf (m.keepL1 p) = true := by
  rw [wf_iff] at h ⊢
  exact ⟨h.1, h.2.1, rising_keep h.2.2.1 (fun k c => p k c.own), h.2.2.2⟩

theorem keepRsc_wf {m : Mem} (h : Memory.wf m = true) (p : Nat → Bool → Bool) : Memory.wf (m.keepRsc p) = true := by
  rw [wf_iff] at h ⊢
  exact ⟨h.1, h.2.1, h.2.2.1, rising_keep h.2.2.2.1 (fun k c => p k c.own), h.2.2.2.2⟩

theorem disown_wf {m : Mem} (h : Memory.wf m = true) (p : Nat → Bool) : Memory.wf (m.disown p) = true := by
  rw [wf_iff] at h ⊢
  exact ⟨h.1, h.2.1, h.2.2.1,
    risingFrom_mapv (fun k (c : CByte) => if p k then { c with own := false } else c) h.2.2.2.1, h.2.2.2.2⟩

theorem fillL1_wf {m : Mem} (h : Memory.wf m = true) (k : Nat) (own : Bool) (b : List Byte) :
    Memory.wf (m.fillL1 k own b) = true := by
  rw [wf_iff] at h ⊢
  exact ⟨h.1, h.2.1, rising_fillBytes k own h.2.2.1 b, h.2.2.2⟩

theorem fillRsc_wf {m : Mem} (h : Memory.wf m = true) (k : Nat) (own : Bool) (b : List Byte) :
    Memory.wf (m.fillRsc k own b) = true := by
  rw [wf_iff] at h ⊢
  exact ⟨h.1, h.2.1, h.2.2.1, rising_fillBytes k own h.2.2.2.1 b, h.2.2.2.2⟩

theorem renewL1_wf {m : Mem} (h : Memory.wf m = true) (k : Nat) (b : List Byte) : Memory.wf (m.renewL1 k b) = true := by
  rw [wf_iff] at h ⊢
  exact ⟨h.1, h.2.1, rising_renew k h.2.2.1 b, h.2.2.2⟩

theorem renewRsc_wf {m : Mem} (h : Memory.wf m = true) (k : Nat) (b : List Byte) : Memory.wf (m.renewRsc k b) = true := by
  rw [wf_iff] at h ⊢
  exact ⟨h.1, h.2.1, h.2.2.1, rising_renew k h.2.2.2.1 b, h.2.2.2.2⟩

theorem setBad_wf {m : Mem} (h : Memory.wf m = true) (w : Nat) (b : Bool) : Memory.wf (m.setBad w b) = true := by
  rw [wf_iff] at h ⊢
  exact ⟨h.1, h.2.1, h.2.2.1, h.2.2.2.1, canon_set false h.2.2.2.2.1 w b, h.2.2.2.2.2⟩

theorem lower_wf {m : Mem} (h : Memory.wf m = true) : Memory.wf m.lower = true := by
  rw [wf_iff] at h ⊢
  exact ⟨h.1, rfl, rfl, rfl, rfl, rfl⟩

/-! ## Reads after writes -/

theorem get_setRange_other [DecidableEq α] (d : α) (t : Tab α) (i j : Nat) (l : List α)
    (hj : j < i ∨ i + l.length ≤ j) : get d (setRange d t i l) j = get d t j := by
  induction l generalizing t i with
  | nil => rfl
  | cons x r ih =>
    simp only [setRange, List.length_cons] at hj ⊢
    rw [ih _ (i + 1) (by omega), get_set_other d t x (by omega)]

/-- A byte stored below the homes is the byte read. -/
theorem get_setRange_same [DecidableEq α] (d : α) (t : Tab α) (i n : Nat) (l : List α)
    (hn : n < l.length) : get d (setRange d t i l) (i + n) = l[n] := by
  induction l generalizing t i n with
  | nil => simp at hn
  | cons x r ih =>
    simp only [setRange]
    cases n with
    | zero =>
      show get d (setRange d (set d t i x) (i + 1) r) i = x
      rw [get_setRange_other d _ (i + 1) i r (by omega), get_set_same d]
    | succ n =>
      have := ih (set d t i x) (i + 1) n (by simpa using hn)
      rw [show i + (n + 1) = i + 1 + n by omega, this]; rfl

end Sys2Proof.Machine
end

