-- ==== Sys2Proof/Laws/PerInstr.lean ====
section
/-!
SUPPORT. The per-instruction family `Encoding`: the fields an instruction is encoded in have a length of R73, and the extension words that
length does not have are zero; one lemma per constructor. An event has no encoding.
-/

namespace Sys2Proof.Laws.Encoding

def Statement (i : Instr) : Prop := ∀ e, encodeFields i = some e → LenOk e

/-- 64 bits, or 96 through an X1 operand. -/
def Short (e : Enc) : Prop := (e.len = 1 ∧ e.x1 = 0 ∧ e.x2 = 0) ∨ (e.len = 2 ∧ e.x2 = 0)

theorem short_lenOk {e : Enc} (h : Short e) : LenOk e := h.elim .inl fun h => .inr (.inl h)

theorem short_ext {e : Enc} (h : Short e) (n : BitVec 2) (s : Src) : Short (e.ext n s) := by
  unfold Enc.ext
  split
  · exact .inr ⟨rfl, h.elim (fun h => h.2.2) fun h => h.2⟩
  · exact h

theorem short_enc0 (o : BitVec 8) (g : Guard) : Short (enc0 o g) := .inl ⟨rfl, rfl, rfl⟩

theorem short_dst {e : Enc} (h : Short e) (d : Dst) : Short (e.dst d) := by cases d <;> exact h

theorem short_srcA {e : Enc} (h : Short e) (s : Src) : Short (e.srcA s) := short_ext (e := { e with a := s.field }) h 1 s
theorem short_srcB {e : Enc} (h : Short e) (s : Src) : Short (e.srcB s) := short_ext (e := { e with b := s.field }) h 2 s
theorem short_srcC {e : Enc} (h : Short e) (s : Src) : Short (e.srcC s) := short_ext (e := { e with c := s.field }) h 3 s

theorem short_v1 (o : BitVec 8) (g : Guard) (t : Ty) (d : Dst) (a : Src) : Short (encV1 o g t d a) :=
  short_srcA (short_dst (e := { enc0 o g with ty := t.code }) (short_enc0 o g) d) a

theorem short_v2 (o : BitVec 8) (g : Guard) (t : Ty) (d : Dst) (a b : Src) : Short (encV2 o g t d a b) :=
  short_srcB (short_v1 o g t d a) b

theorem short_v3 (o : BitVec 8) (g : Guard) (t : Ty) (d : Dst) (a b c : Src) : Short (encV3 o g t d a b c) :=
  short_srcC (short_v2 o g t d a b) c

theorem short_f (o : BitVec 8) (g : Guard) (t : Ty) (r : Rnd) (sat : Bool) (d : Dst) (a b : Src) :
    Short (encF o g t r sat d a b) := short_v2 o g t d a b

theorem short_k2 (o : BitVec 8) (g : Guard) (k : BitVec 5) (a b : Src) : Short (encK2 o g k a b) :=
  short_srcB (short_srcA (e := (enc0 o g).kd k) (short_enc0 o g) a) b

theorem memory_dst {e : Enc} (h : e.len = 2 ∧ e.x2 = 0) (d : Dst) : (e.dst d).len = 2 ∧ (e.dst d).x2 = 0 := by cases d <;> exact h

theorem nop (g : Guard) : Statement (.nop g) := fun _ h => by cases h; exact .inl ⟨rfl, rfl, rfl⟩
theorem bra (g : Guard) (tgt : BitVec 32) (recon : BitVec 32) : Statement (.bra g tgt recon) :=
  fun _ h => by cases h; exact .inr (.inr rfl)
theorem bru (uns : Bool) (c : Cmp) (a : Src) (b : Src) (off : BitVec 32) : Statement (.bru uns c a b off) :=
  fun _ h => by cases h; exact .inr (.inl ⟨rfl, rfl⟩)
theorem bpend (r : PendName) (off : BitVec 32) : Statement (.bpend r off) :=
  fun _ h => by cases r <;> cases h <;> exact .inr (.inl ⟨rfl, rfl⟩)
theorem call (g : Guard) (slide : BitVec 2) (off : BitVec 32) : Statement (.call g slide off) :=
  fun _ h => by cases h; exact .inr (.inl ⟨rfl, rfl⟩)
theorem calli (g : Guard) (slide : BitVec 2) (a : BitVec 5) : Statement (.calli g slide a) :=
  fun _ h => by cases h; exact .inl ⟨rfl, rfl, rfl⟩
theorem ret (g : Guard) : Statement (.ret g) := fun _ h => by cases h; exact .inl ⟨rfl, rfl, rfl⟩
theorem loopk (a : BitVec 5) (off : BitVec 32) : Statement (.loopk a off) := fun _ h => by cases h; exact .inr (.inl ⟨rfl, rfl⟩)
theorem exit (g : Guard) : Statement (.exit g) := fun _ h => by cases h; exact .inl ⟨rfl, rfl, rfl⟩
theorem iadd (g : Guard) (t : Ty) (d : Dst) (a : Src) (b : Src) : Statement (.iadd g t d a b) :=
  fun _ h => by cases h; exact short_lenOk (short_v2 _ _ _ _ _ _)
theorem isub (g : Guard) (t : Ty) (d : Dst) (a : Src) (b : Src) : Statement (.isub g t d a b) :=
  fun _ h => by cases h; exact short_lenOk (short_v2 _ _ _ _ _ _)
theorem imul (g : Guard) (t : Ty) (d : Dst) (a : Src) (b : Src) : Statement (.imul g t d a b) :=
  fun _ h => by cases h; exact short_lenOk (short_v2 _ _ _ _ _ _)
theorem imulh (g : Guard) (t : Ty) (d : Dst) (a : Src) (b : Src) : Statement (.imulh g t d a b) :=
  fun _ h => by cases h; exact short_lenOk (short_v2 _ _ _ _ _ _)
theorem imad (g : Guard) (t : Ty) (d : Dst) (a : Src) (b : Src) (c : Src) : Statement (.imad g t d a b c) :=
  fun _ h => by cases h; exact short_lenOk (short_v3 _ _ _ _ _ _ _)
theorem imin (g : Guard) (t : Ty) (d : Dst) (a : Src) (b : Src) : Statement (.imin g t d a b) :=
  fun _ h => by cases h; exact short_lenOk (short_v2 _ _ _ _ _ _)
theorem imax (g : Guard) (t : Ty) (d : Dst) (a : Src) (b : Src) : Statement (.imax g t d a b) :=
  fun _ h => by cases h; exact short_lenOk (short_v2 _ _ _ _ _ _)
theorem iabs (g : Guard) (t : Ty) (d : Dst) (a : Src) : Statement (.iabs g t d a) :=
  fun _ h => by cases h; exact short_lenOk (short_v1 _ _ _ _ _)
theorem ineg (g : Guard) (t : Ty) (d : Dst) (a : Src) : Statement (.ineg g t d a) :=
  fun _ h => by cases h; exact short_lenOk (short_v1 _ _ _ _ _)
theorem addmin (g : Guard) (t : Ty) (d : Dst) (a : Src) (b : Src) (c : Src) : Statement (.addmin g t d a b c) :=
  fun _ h => by cases h; exact short_lenOk (short_v3 _ _ _ _ _ _ _)
theorem addmax (g : Guard) (t : Ty) (d : Dst) (a : Src) (b : Src) (c : Src) : Statement (.addmax g t d a b c) :=
  fun _ h => by cases h; exact short_lenOk (short_v3 _ _ _ _ _ _ _)
theorem ilea (g : Guard) (t : Ty) (d : Dst) (a : Src) (b : Src) (n : BitVec 4) : Statement (.ilea g t d a b n) :=
  fun _ h => by cases h; exact short_lenOk (short_v2 _ _ _ _ _ _)
theorem and (g : Guard) (t : Ty) (d : Dst) (a : Src) (b : Src) : Statement (.and g t d a b) :=
  fun _ h => by cases h; exact short_lenOk (short_v2 _ _ _ _ _ _)
theorem or (g : Guard) (t : Ty) (d : Dst) (a : Src) (b : Src) : Statement (.or g t d a b) :=
  fun _ h => by cases h; exact short_lenOk (short_v2 _ _ _ _ _ _)
theorem xor (g : Guard) (t : Ty) (d : Dst) (a : Src) (b : Src) : Statement (.xor g t d a b) :=
  fun _ h => by cases h; exact short_lenOk (short_v2 _ _ _ _ _ _)
theorem andn (g : Guard) (t : Ty) (d : Dst) (a : Src) (b : Src) : Statement (.andn g t d a b) :=
  fun _ h => by cases h; exact short_lenOk (short_v2 _ _ _ _ _ _)
theorem not (g : Guard) (t : Ty) (d : Dst) (a : Src) : Statement (.not g t d a) :=
  fun _ h => by cases h; exact short_lenOk (short_v1 _ _ _ _ _)
theorem shl (g : Guard) (t : Ty) (d : Dst) (a : Src) (b : Src) : Statement (.shl g t d a b) :=
  fun _ h => by cases h; exact short_lenOk (short_v2 _ _ _ _ _ _)
theorem shr (g : Guard) (t : Ty) (d : Dst) (a : Src) (b : Src) : Statement (.shr g t d a b) :=
  fun _ h => by cases h; exact short_lenOk (short_v2 _ _ _ _ _ _)
theorem sar (g : Guard) (t : Ty) (d : Dst) (a : Src) (b : Src) : Statement (.sar g t d a b) :=
  fun _ h => by cases h; exact short_lenOk (short_v2 _ _ _ _ _ _)
theorem rot (g : Guard) (t : Ty) (d : Dst) (a : Src) (b : Src) (right : Bool) : Statement (.rot g t d a b right) :=
  fun _ h => by cases h; exact short_lenOk (short_v2 _ _ _ _ _ _)
theorem clz (g : Guard) (t : Ty) (d : Dst) (a : Src) : Statement (.clz g t d a) :=
  fun _ h => by cases h; exact short_lenOk (short_v1 _ _ _ _ _)
theorem popc (g : Guard) (t : Ty) (d : Dst) (a : Src) : Statement (.popc g t d a) :=
  fun _ h => by cases h; exact short_lenOk (short_v1 _ _ _ _ _)
theorem brev (g : Guard) (t : Ty) (d : Dst) (a : Src) : Statement (.brev g t d a) :=
  fun _ h => by cases h; exact short_lenOk (short_v1 _ _ _ _ _)
theorem bfx (g : Guard) (t : Ty) (d : Dst) (a : Src) (b : Src) : Statement (.bfx g t d a b) :=
  fun _ h => by cases h; exact short_lenOk (short_v2 _ _ _ _ _ _)
theorem bfi (g : Guard) (t : Ty) (d : Dst) (a : Src) (b : Src) (c : Src) : Statement (.bfi g t d a b c) :=
  fun _ h => by cases h; exact short_lenOk (short_v3 _ _ _ _ _ _ _)
theorem sel (g : Guard) (t : Ty) (d : Dst) (a : Src) (b : Src) (pc : BitVec 3) : Statement (.sel g t d a b pc) :=
  fun _ h => by cases h; exact short_lenOk (short_v2 _ _ _ _ _ _)
theorem mov (g : Guard) (t : Ty) (d : Dst) (a : Src) : Statement (.mov g t d a) :=
  fun _ h => by cases h; exact short_lenOk (short_v1 _ _ _ _ _)
theorem movi (g : Guard) (t : Ty) (d : Dst) (x : BitVec 32) : Statement (.movi g t d x) :=
  fun _ h => by cases h; exact short_lenOk (short_v1 _ _ _ _ _)
theorem iset (g : Guard) (t : Ty) (p : BitVec 3) (c : Cmp) (a : Src) (b : Src) : Statement (.iset g t p c a b) :=
  fun _ h => by cases h; exact short_lenOk (short_srcB (short_srcA (.inl ⟨rfl, rfl, rfl⟩) a) b)
theorem icvt (g : Guard) (dt : Ty) (st : Ty) (d : Dst) (a : Src) (sat : Bool) : Statement (.icvt g dt st d a sat) :=
  fun _ h => by cases h; exact short_lenOk (short_v1 _ _ _ _ _)
theorem kadd (g : Guard) (d : BitVec 5) (a : Src) (b : Src) : Statement (.kadd g d a b) :=
  fun _ h => by cases h; exact short_lenOk (short_k2 _ _ _ _ _)
theorem ksub (g : Guard) (d : BitVec 5) (a : Src) (b : Src) : Statement (.ksub g d a b) :=
  fun _ h => by cases h; exact short_lenOk (short_k2 _ _ _ _ _)
theorem kmul (g : Guard) (d : BitVec 5) (a : Src) (b : Src) : Statement (.kmul g d a b) :=
  fun _ h => by cases h; exact short_lenOk (short_k2 _ _ _ _ _)
theorem kand (g : Guard) (d : BitVec 5) (a : Src) (b : Src) : Statement (.kand g d a b) :=
  fun _ h => by cases h; exact short_lenOk (short_k2 _ _ _ _ _)
theorem kor (g : Guard) (d : BitVec 5) (a : Src) (b : Src) : Statement (.kor g d a b) :=
  fun _ h => by cases h; exact short_lenOk (short_k2 _ _ _ _ _)
theorem kxor (g : Guard) (d : BitVec 5) (a : Src) (b : Src) : Statement (.kxor g d a b) :=
  fun _ h => by cases h; exact short_lenOk (short_k2 _ _ _ _ _)
theorem kshl (g : Guard) (d : BitVec 5) (a : Src) (b : Src) : Statement (.kshl g d a b) :=
  fun _ h => by cases h; exact short_lenOk (short_k2 _ _ _ _ _)
theorem kshr (g : Guard) (d : BitVec 5) (a : Src) (b : Src) : Statement (.kshr g d a b) :=
  fun _ h => by cases h; exact short_lenOk (short_k2 _ _ _ _ _)
theorem kmov (g : Guard) (t : Option Ty) (d : BitVec 5) (a : Src) : Statement (.kmov g t d a) :=
  fun _ h => by cases h; exact short_lenOk (short_srcA (.inl ⟨rfl, rfl, rfl⟩) a)
theorem kmovi (g : Guard) (t : Option Ty) (d : BitVec 5) (x : BitVec 32) : Statement (.kmovi g t d x) :=
  fun _ h => by cases h; exact short_lenOk (short_srcA (.inl ⟨rfl, rfl, rfl⟩) (.imm x))
theorem kset (g : Guard) (t : Option Ty) (d : BitVec 5) (c : Cmp) (a : Src) (b : Src) : Statement (.kset g t d c a b) :=
  fun _ h => by cases h; exact short_lenOk (short_srcB (short_srcA (.inl ⟨rfl, rfl, rfl⟩) a) b)
theorem ksel (g : Guard) (d : BitVec 5) (a : Src) (b : Src) (c : Src) : Statement (.ksel g d a b c) :=
  fun _ h => by cases h; exact short_lenOk (short_srcC (short_k2 _ _ _ _ _) c)
theorem vtok (g : Guard) (t : Ty) (d : BitVec 5) (a : Src) (b : Src) : Statement (.vtok g t d a b) :=
  fun _ h => by cases h; exact short_lenOk (short_srcB (short_srcA (.inl ⟨rfl, rfl, rfl⟩) a) b)
theorem ktov (g : Guard) (t : Ty) (d : Dst) (a : Src) : Statement (.ktov g t d a) :=
  fun _ h => by cases h; exact short_lenOk (short_v1 _ _ _ _ _)
theorem plog (g : Guard) (p : BitVec 3) (a : BitVec 3) (b : BitVec 3) (t : BitVec 4) : Statement (.plog g p a b t) :=
  fun _ h => by cases h; exact .inl ⟨rfl, rfl, rfl⟩
theorem vote (g : Guard) (d : VoteDst) (a : BitVec 3) : Statement (.vote g d a) :=
  fun _ h => by cases d <;> cases h <;> exact .inl ⟨rfl, rfl, rfl⟩
theorem getx (g : Guard) (d : BitVec 5) : Statement (.getx g d) := fun _ h => by cases h; exact .inl ⟨rfl, rfl, rfl⟩
theorem setx (g : Guard) (a : Src) : Statement (.setx g a) :=
  fun _ h => by cases h; exact short_lenOk (short_srcA (.inl ⟨rfl, rfl, rfl⟩) a)
theorem lshift (g : Guard) (t : Ty) (d : Dst) (a : Src) (b : Src) (c : Src) (up : Bool) : Statement (.lshift g t d a b c up) :=
  fun _ h => by cases h; exact short_lenOk (short_v3 _ _ _ _ _ _ _)
theorem lswz (g : Guard) (t : Ty) (d : Dst) (a : Src) (b : Src) : Statement (.lswz g t d a b) :=
  fun _ h => by cases h; exact short_lenOk (short_v2 _ _ _ _ _ _)
theorem lperm (g : Guard) (t : Ty) (d : Dst) (a : Src) (b : Src) : Statement (.lperm g t d a b) :=
  fun _ h => by cases h; exact short_lenOk (short_v2 _ _ _ _ _ _)
theorem lbcast (g : Guard) (t : Ty) (d : Dst) (a : Src) (b : Src) : Statement (.lbcast g t d a b) :=
  fun _ h => by cases h; exact short_lenOk (short_v2 _ _ _ _ _ _)
theorem lred (g : Guard) (op : RedOp) (t : Ty) (d : Dst) (a : Src) : Statement (.lred g op t d a) :=
  fun _ h => by cases h; exact short_lenOk (short_v1 _ _ _ _ _)
theorem xch (g : Guard) (t : Ty) (d : Dst) (a : Src) (b : BitVec 5) : Statement (.xch g t d a b) :=
  fun _ h => by cases h; exact short_lenOk (short_v1 _ _ _ _ _)
theorem fadd (g : Guard) (t : Ty) (r : Rnd) (sat : Bool) (d : Dst) (a : Src) (b : Src) : Statement (.fadd g t r sat d a b) :=
  fun _ h => by cases h; exact short_lenOk (short_v2 _ _ _ _ _ _)
theorem fsub (g : Guard) (t : Ty) (r : Rnd) (sat : Bool) (d : Dst) (a : Src) (b : Src) : Statement (.fsub g t r sat d a b) :=
  fun _ h => by cases h; exact short_lenOk (short_v2 _ _ _ _ _ _)
theorem fmul (g : Guard) (t : Ty) (r : Rnd) (sat : Bool) (d : Dst) (a : Src) (b : Src) : Statement (.fmul g t r sat d a b) :=
  fun _ h => by cases h; exact short_lenOk (short_v2 _ _ _ _ _ _)
theorem ffma (g : Guard) (t : Ty) (r : Rnd) (sat : Bool) (d : Dst) (a : Src) (b : Src) (c : Src) : Statement (.ffma g t r sat d a b c) :=
  fun _ h => by cases h; exact short_lenOk (short_srcC (short_f _ _ _ _ _ _ _ _) c)
theorem fmin (g : Guard) (t : Ty) (d : Dst) (a : Src) (b : Src) : Statement (.fmin g t d a b) :=
  fun _ h => by cases h; exact short_lenOk (short_v2 _ _ _ _ _ _)
theorem fmax (g : Guard) (t : Ty) (d : Dst) (a : Src) (b : Src) : Statement (.fmax g t d a b) :=
  fun _ h => by cases h; exact short_lenOk (short_v2 _ _ _ _ _ _)
theorem fset (g : Guard) (t : Ty) (p : BitVec 3) (c : Cmp) (a : Src) (b : Src) : Statement (.fset g t p c a b) :=
  fun _ h => by cases h; exact short_lenOk (short_srcB (short_srcA (.inl ⟨rfl, rfl, rfl⟩) a) b)
theorem frcp (g : Guard) (t : Ty) (d : Dst) (a : Src) : Statement (.frcp g t d a) :=
  fun _ h => by cases h; exact short_lenOk (short_v1 _ _ _ _ _)
theorem frsq (g : Guard) (t : Ty) (d : Dst) (a : Src) : Statement (.frsq g t d a) :=
  fun _ h => by cases h; exact short_lenOk (short_v1 _ _ _ _ _)
theorem fsqrt (g : Guard) (t : Ty) (r : Rnd) (d : Dst) (a : Src) : Statement (.fsqrt g t r d a) :=
  fun _ h => by cases h; exact short_lenOk (short_v1 _ _ _ _ _)
theorem fexp2 (g : Guard) (t : Ty) (d : Dst) (a : Src) : Statement (.fexp2 g t d a) :=
  fun _ h => by cases h; exact short_lenOk (short_v1 _ _ _ _ _)
theorem flog2 (g : Guard) (t : Ty) (d : Dst) (a : Src) : Statement (.flog2 g t d a) :=
  fun _ h => by cases h; exact short_lenOk (short_v1 _ _ _ _ _)
theorem fsin (g : Guard) (t : Ty) (d : Dst) (a : Src) : Statement (.fsin g t d a) :=
  fun _ h => by cases h; exact short_lenOk (short_v1 _ _ _ _ _)
theorem fcos (g : Guard) (t : Ty) (d : Dst) (a : Src) : Statement (.fcos g t d a) :=
  fun _ h => by cases h; exact short_lenOk (short_v1 _ _ _ _ _)
theorem fscale (g : Guard) (t : Ty) (r : Rnd) (d : Dst) (a : Src) (b : Src) : Statement (.fscale g t r d a b) :=
  fun _ h => by cases h; exact short_lenOk (short_v2 _ _ _ _ _ _)
theorem fclass (g : Guard) (t : Ty) (d : ClassDst) (a : Src) : Statement (.fclass g t d a) := fun _ h => by
  cases d <;> cases h
  · exact short_lenOk (short_v1 _ _ _ _ _)
  · exact short_lenOk (short_srcB (short_srcA (.inl ⟨rfl, rfl, rfl⟩) a) _)
theorem fdot2 (g : Guard) (t : Ty) (r : Rnd) (sat : Bool) (d : Dst) (a : Src) (b : Src) (c : Src) : Statement (.fdot2 g t r sat d a b c) :=
  fun _ h => by cases h; exact short_lenOk (short_srcC (short_f _ _ _ _ _ _ _ _) c)
theorem fred (g : Guard) (op : FRedOp) (t : Ty) (r : Rnd) (d : Dst) (a : Src) : Statement (.fred g op t r d a) :=
  fun _ h => by cases h; exact short_lenOk (short_v1 _ _ _ _ _)
theorem fcvt (g : Guard) (dt : Ty) (st : Ty) (hi : Bool) (r : Rnd) (d : Dst) (a : Src) (b : Option Src) : Statement (.fcvt g dt st hi r d a b) :=
  fun _ h => by
  cases b <;> cases h
  · exact short_lenOk (short_v1 0x70 g dt d a)
  · exact short_lenOk (short_srcB (e := { encV1 0x70 g dt d a with mod := r.mod, sub := 0#1 ++ BitVec.ofBool hi ++ st.code })
      (short_v1 0x70 g dt d a) _)
theorem ftoi (g : Guard) (dt : Ty) (st : Ty) (r : Rnd) (d : Dst) (a : Src) : Statement (.ftoi g dt st r d a) :=
  fun _ h => by cases h; exact short_lenOk (short_v1 _ _ _ _ _)
theorem itof (g : Guard) (dt : Ty) (st : Ty) (r : Rnd) (d : Dst) (a : Src) : Statement (.itof g dt st r d a) :=
  fun _ h => by cases h; exact short_lenOk (short_v1 _ _ _ _ _)
theorem narrow (g : Guard) (dt : Ty) (d : Dst) (a : Src) (b : Src) : Statement (.narrow g dt d a b) :=
  fun _ h => by cases h; exact short_lenOk (short_v2 _ _ _ _ _ _)
theorem ld (g : Guard) (t : Ty) (o : Ord) (sc : Scope) (slk : BitVec 4) (d : Dst) (m : Addr) : Statement (.ld g t o sc slk d m) :=
  fun _ h => by cases h; exact .inr (.inl (memory_dst ⟨rfl, rfl⟩ d))
theorem st (g : Guard) (t : Ty) (o : Ord) (sc : Scope) (slk : BitVec 4) (m : Addr) (c : Src) : Statement (.st g t o sc slk m c) :=
  fun _ h => by cases h; exact .inr (.inl ⟨rfl, rfl⟩)
theorem ldu (g : Guard) (t : Ty) (o : Ord) (sc : Scope) (slk : BitVec 4) (d : Dst) (m : Addr) : Statement (.ldu g t o sc slk d m) :=
  fun _ h => by cases h; exact .inr (.inl (memory_dst ⟨rfl, rfl⟩ d))
theorem ldl (g : Guard) (t : Ty) (o : Ord) (sc : Scope) (slk : BitVec 4) (d : Dst) (m : Addr) : Statement (.ldl g t o sc slk d m) :=
  fun _ h => by cases h; exact .inr (.inl (memory_dst ⟨rfl, rfl⟩ d))
theorem stl (g : Guard) (t : Ty) (o : Ord) (sc : Scope) (slk : BitVec 4) (m : Addr) (c : Src) : Statement (.stl g t o sc slk m c) :=
  fun _ h => by cases h; exact .inr (.inl ⟨rfl, rfl⟩)
theorem ldc (g : Guard) (t : Ty) (slk : BitVec 4) (d : Dst) (w : BitVec 3) (b : Src) (x : BitVec 32) : Statement (.ldc g t slk d w b x) :=
  fun _ h => by cases h; cases d <;> exact .inr (.inl ⟨rfl, rfl⟩)
theorem atom (g : Guard) (op : AtomOp) (t : Ty) (loc : Bool) (o : Ord) (sc : Scope) (slk : BitVec 4) (d : Dst) (m : Addr) (c : Src) (e : Option Src) : Statement (.atom g op t loc o sc slk d m c e) :=
  fun _ h => by
  cases e <;> cases h
  · exact .inr (.inl (memory_dst ⟨rfl, rfl⟩ d))
  · exact .inr (.inr rfl)
theorem red (g : Guard) (op : AtomOp) (t : Ty) (loc : Bool) (o : Ord) (sc : Scope) (slk : BitVec 4) (m : Addr) (c : Src) : Statement (.red g op t loc o sc slk m c) :=
  fun _ h => by cases h; exact .inr (.inl ⟨rfl, rfl⟩)
theorem poll (g : Guard) (t : Ty) (cmp : Cmp) (o : Ord) (sc : Scope) (slk : BitVec 4) (d : Dst) (m : Addr) (c : Src) : Statement (.poll g t cmp o sc slk d m c) :=
  fun _ h => by cases h; exact .inr (.inl (memory_dst ⟨rfl, rfl⟩ d))
theorem fence (g : Guard) (o : Ord) (sc : Scope) (slk : BitVec 4) : Statement (.fence g o sc slk) :=
  fun _ h => by cases h; exact .inl ⟨rfl, rfl, rfl⟩
theorem pref (g : Guard) (t : Ty) (l2 : Bool) (slk : BitVec 4) (m : Addr) : Statement (.pref g t l2 slk m) :=
  fun _ h => by cases h; exact .inr (.inl ⟨rfl, rfl⟩)
theorem discard (g : Guard) (slk : BitVec 4) (a : BitVec 5) : Statement (.discard g slk a) :=
  fun _ h => by cases h; exact .inl ⟨rfl, rfl, rfl⟩
theorem waitc (g : Guard) (l : BitVec 8) (n : BitVec 8) (c : BitVec 8) (t : BitVec 8) : Statement (.waitc g l n c t) :=
  fun _ h => by cases h; exact .inr (.inl ⟨rfl, rfl⟩)
theorem cpy (g : Guard) (f : CopyF) (kh : BitVec 5) (a : Src) (b : Src) (c : Src) : Statement (.cpy g f kh a b c) :=
  fun _ h => by cases h; exact .inr (.inr rfl)
theorem cpg (g : Guard) (f : CopyF) (kh : BitVec 5) (a : Src) (b : Src) (c : Src) (d : Src) (len : BitVec 16) : Statement (.cpg g f kh a b c d len) :=
  fun _ h => by cases h; exact .inr (.inr rfl)
theorem cpm (g : Guard) (f : CopyF) (kh : BitVec 5) (a : Src) (b : Src) (c : Src) (d : Src) : Statement (.cpm g f kh a b c d) :=
  fun _ h => by cases h; exact .inr (.inr rfl)
theorem cpyr (g : Guard) (t : Ty) (f : CopyF) (kh : BitVec 5) (a : Src) (b : Src) (c : Src) : Statement (.cpyr g t f kh a b c) :=
  fun _ h => by cases h; exact .inr (.inr rfl)
theorem cpyo (g : Guard) (f : CopyF) (kh : BitVec 5) (a : Src) (b : Src) (c : Src) (d : Src) : Statement (.cpyo g f kh a b c d) :=
  fun _ h => by cases h; exact .inr (.inr rfl)
theorem cpya (g : Guard) (f : CopyF) (kh : BitVec 5) (a : Src) (b : Src) (c : Src) (d : Src) : Statement (.cpya g f kh a b c d) :=
  fun _ h => by cases h; exact .inr (.inr rfl)
theorem qfence (g : Guard) (m : BitVec 4) : Statement (.qfence g m) := fun _ h => by cases h; exact .inl ⟨rfl, rfl, rfl⟩
theorem join (g : Guard) (d : BitVec 5) (a : Src) : Statement (.join g d a) :=
  fun _ h => by cases h; exact short_lenOk (short_srcA (.inl ⟨rfl, rfl, rfl⟩) a)
theorem test (g : Guard) (p : BitVec 3) (a : Src) : Statement (.test g p a) :=
  fun _ h => by cases h; exact short_lenOk (short_srcA (.inl ⟨rfl, rfl, rfl⟩) a)
theorem cancel (g : Guard) (d : BitVec 5) (a : Src) : Statement (.cancel g d a) :=
  fun _ h => by cases h; exact short_lenOk (short_srcA (.inl ⟨rfl, rfl, rfl⟩) a)
theorem waitany (g : Guard) (d : BitVec 5) (a : Src) : Statement (.waitany g d a) :=
  fun _ h => by cases h; exact short_lenOk (short_srcA (.inl ⟨rfl, rfl, rfl⟩) a)
theorem waitall (g : Guard) (d : BitVec 5) (a : Src) : Statement (.waitall g d a) :=
  fun _ h => by cases h; exact short_lenOk (short_srcA (.inl ⟨rfl, rfl, rfl⟩) a)
theorem ffr (g : Guard) (d : BitVec 5) (a : Src) : Statement (.ffr g d a) :=
  fun _ h => by cases h; exact short_lenOk (short_srcA (.inl ⟨rfl, rfl, rfl⟩) a)
theorem oclaim (g : Guard) (d : BitVec 5) (a : Src) : Statement (.oclaim g d a) :=
  fun _ h => by cases h; exact short_lenOk (short_srcA (.inl ⟨rfl, rfl, rfl⟩) a)
theorem orel (g : Guard) (a : Src) (b : Src) : Statement (.orel g a b) := fun _ h => by cases h; exact .inl ⟨rfl, rfl, rfl⟩
theorem aclaim (g : Guard) (d : BitVec 5) (a : Src) : Statement (.aclaim g d a) :=
  fun _ h => by cases h; exact short_lenOk (short_srcA (.inl ⟨rfl, rfl, rfl⟩) a)
theorem arel (g : Guard) (a : Src) (b : Src) : Statement (.arel g a b) := fun _ h => by cases h; exact .inl ⟨rfl, rfl, rfl⟩
theorem mloop (g : Guard) (fa : Ty) (fb : Ty) (prio : BitVec 2) (kh : BitVec 5) (kt : Src) (ka : Src) (kb : Src) (nstep : BitVec 12) (ia : BitVec 4) (ib : BitVec 4) (mode : MMode) : Statement (.mloop g fa fb prio kh kt ka kb nstep ia ib mode) :=
  fun _ h => by cases h; exact .inr (.inr rfl)
theorem mzero (g : Guard) (prio : BitVec 2) (kh : BitVec 5) (kt : Src) : Statement (.mzero g prio kh kt) :=
  fun _ h => by cases h; exact .inl ⟨rfl, rfl, rfl⟩
theorem mrowsc (g : Guard) (prio : BitVec 2) (kh : BitVec 5) (kt : Src) (ka : Src) : Statement (.mrowsc g prio kh kt ka) :=
  fun _ h => by cases h; exact .inl ⟨rfl, rfl, rfl⟩
theorem bar (g : Guard) (lv : BarLevel) (n : BitVec 4) (sc : Scope) : Statement (.bar g lv n sc) :=
  fun _ h => by cases h; exact .inl ⟨rfl, rfl, rfl⟩
theorem arrive (g : Guard) (lv : BarLevel) (n : BitVec 4) (sc : Scope) (d : BitVec 5) (c : Src) : Statement (.arrive g lv n sc d c) :=
  fun _ h => by cases h; exact short_lenOk (short_srcA (.inl ⟨rfl, rfl, rfl⟩) c)
theorem await (g : Guard) (lv : BarLevel) (n : BitVec 4) (sc : Scope) (q : Src) : Statement (.await g lv n sc q) :=
  fun _ h => by cases h; exact short_lenOk (short_srcA (.inl ⟨rfl, rfl, rfl⟩) q)
theorem yield (g : Guard) : Statement (.yield g) := fun _ h => by cases h; exact .inl ⟨rfl, rfl, rfl⟩
theorem mfs (g : Guard) (d : BitVec 5) (r : SysReg) : Statement (.mfs g d r) := fun _ h => by cases h; exact .inl ⟨rfl, rfl, rfl⟩
theorem mts (g : Guard) (r : SysReg) (a : Src) : Statement (.mts g r a) :=
  fun _ h => by cases h; exact short_lenOk (short_srcA (.inl ⟨rfl, rfl, rfl⟩) a)
theorem mode (g : Guard) (a : Src) (b : Src) : Statement (.mode g a b) :=
  fun _ h => by cases h; exact short_lenOk (short_srcB (short_srcA (.inl ⟨rfl, rfl, rfl⟩) a) b)
theorem qxfer (g : Guard) (d : BitVec 5) (a : Src) (n : BitVec 4) : Statement (.qxfer g d a n) :=
  fun _ h => by cases h; exact short_lenOk (short_srcA (.inl ⟨rfl, rfl, rfl⟩) a)
theorem trap (g : Guard) (n : BitVec 6) : Statement (.trap g n) := fun _ h => by cases h; exact .inl ⟨rfl, rfl, rfl⟩
theorem rft (g : Guard) : Statement (.rft g) := fun _ h => by cases h; exact .inl ⟨rfl, rfl, rfl⟩
theorem snap (g : Guard) (d : BitVec 5) : Statement (.snap g d) := fun _ h => by cases h; exact .inl ⟨rfl, rfl, rfl⟩
theorem brk (g : Guard) (n : BitVec 6) : Statement (.brk g n) := fun _ h => by cases h; exact .inl ⟨rfl, rfl, rfl⟩
theorem launch (g : Guard) (graph : Bool) (early : Bool) (d : BitVec 5) (a : BitVec 5) : Statement (.launch g graph early d a) :=
  fun _ h => by cases h; exact .inl ⟨rfl, rfl, rfl⟩
theorem fetchBlock (grp : Nat) (arm : Bool) : Statement (.fetchBlock grp arm) := fun _ h => nomatch h
theorem blockEnd (blk : Nat) : Statement (.blockEnd blk) := fun _ h => nomatch h
theorem launchAdmission (l : Nat) : Statement (.launchAdmission l) := fun _ h => nomatch h
theorem blockPlacement (stream : Nat) : Statement (.blockPlacement stream) := fun _ h => nomatch h
theorem gangReserve (stream : Nat) (quad : Nat) : Statement (.gangReserve stream quad) := fun _ h => nomatch h
theorem gangCommit (stream : Nat) : Statement (.gangCommit stream) := fun _ h => nomatch h
theorem gangBackoffRetry (stream : Nat) : Statement (.gangBackoffRetry stream) := fun _ h => nomatch h
theorem operatingPointStable (granted : Nat) : Statement (.operatingPointStable granted) := fun _ h => nomatch h
theorem starvationTimerExpiry (grp : Nat) (arm : Bool) : Statement (.starvationTimerExpiry grp arm) := fun _ h => nomatch h
theorem replyLands (pkt : Nat) : Statement (.replyLands pkt) := fun _ h => nomatch h
theorem residualEntryRun (grp : Nat) (entry : Nat) : Statement (.residualEntryRun grp entry) := fun _ h => nomatch h
theorem trapEntry (grp : Nat) (arm : Bool) : Statement (.trapEntry grp arm) := fun _ h => nomatch h
theorem pollReread (pkt : Nat) : Statement (.pollReread pkt) := fun _ h => nomatch h
theorem claimGrant (quad : Nat) (tiles : Bool) : Statement (.claimGrant quad tiles) := fun _ h => nomatch h
theorem claimReleaseFree (quad : Nat) (tiles : Bool) : Statement (.claimReleaseFree quad tiles) := fun _ h => nomatch h
theorem tagAllocate (core : Nat) : Statement (.tagAllocate core) := fun _ h => nomatch h
theorem reservationPost (quad : Nat) : Statement (.reservationPost quad) := fun _ h => nomatch h
theorem matrixStepGrant (quad : Nat) : Statement (.matrixStepGrant quad) := fun _ h => nomatch h
theorem copyChunk (core : Nat) : Statement (.copyChunk core) := fun _ h => nomatch h
theorem commandCompletion (cmd : Nat) : Statement (.commandCompletion cmd) := fun _ h => nomatch h
theorem launchQueueHandoff : Statement (.launchQueueHandoff) := fun _ h => nomatch h
theorem graphStart : Statement (.graphStart) := fun _ h => nomatch h
theorem kernelNode (graph : Nat) (walk : Nat) : Statement (.kernelNode graph walk) := fun _ h => nomatch h
theorem conditionalNode (graph : Nat) (walk : Nat) : Statement (.conditionalNode graph walk) := fun _ h => nomatch h
theorem loopNode (graph : Nat) (walk : Nat) : Statement (.loopNode graph walk) := fun _ h => nomatch h
theorem joinNode (graph : Nat) (walk : Nat) : Statement (.joinNode graph walk) := fun _ h => nomatch h
theorem homeRequestService (unit : Nat) : Statement (.homeRequestService unit) := fun _ h => nomatch h
theorem leafStore (pkt : Nat) : Statement (.leafStore pkt) := fun _ h => nomatch h
theorem replicaInvalidation (pkt : Nat) : Statement (.replicaInvalidation pkt) := fun _ h => nomatch h
theorem unscrubbedClearLine (home : Nat) : Statement (.unscrubbedClearLine home) := fun _ h => nomatch h
theorem nrFault (pkt : Nat) : Statement (.nrFault pkt) := fun _ h => nomatch h
theorem nrKey (pkt : Nat) : Statement (.nrKey pkt) := fun _ h => nomatch h
theorem nrBusy (pkt : Nat) : Statement (.nrBusy pkt) := fun _ h => nomatch h
theorem nrBusyReplay (pkt : Nat) : Statement (.nrBusyReplay pkt) := fun _ h => nomatch h
theorem nrRedirect (pkt : Nat) : Statement (.nrRedirect pkt) := fun _ h => nomatch h
theorem faultResolvedSignal (pkt : Nat) : Statement (.faultResolvedSignal pkt) := fun _ h => nomatch h
theorem errorResponse (pkt : Nat) : Statement (.errorResponse pkt) := fun _ h => nomatch h
theorem sliceMapChange (logical : Nat) (unit : Nat) : Statement (.sliceMapChange logical unit) := fun _ h => nomatch h
theorem sliceMapInstall (core : Nat) : Statement (.sliceMapInstall core) := fun _ h => nomatch h
theorem unitRetirement (u : Nat) (t : Nat) : Statement (.unitRetirement u t) := fun _ h => nomatch h
theorem retirementTakeover (t : Nat) : Statement (.retirementTakeover t) := fun _ h => nomatch h
theorem turnstileReload (core : Nat) : Statement (.turnstileReload core) := fun _ h => nomatch h
theorem slackClockTick : Statement (.slackClockTick) := fun _ h => nomatch h
theorem packetGrant (point : Nat) : Statement (.packetGrant point) := fun _ h => nomatch h
theorem sliceStreamBeat (stream : Nat) : Statement (.sliceStreamBeat stream) := fun _ h => nomatch h
theorem flitReceive (link : Nat) (seq : Nat) (good : Bool) (body : FlitBody) : Statement (.flitReceive link seq good body) :=
  fun _ h => nomatch h
theorem linkAck (link : Nat) (seq : Nat) : Statement (.linkAck link seq) := fun _ h => nomatch h
theorem linkNak (link : Nat) (seq : Nat) : Statement (.linkNak link seq) := fun _ h => nomatch h
theorem linkAckTimeout (link : Nat) : Statement (.linkAckTimeout link) := fun _ h => nomatch h
theorem linkRetrain (link : Nat) (ok : Bool) : Statement (.linkRetrain link ok) := fun _ h => nomatch h
theorem pauseFrame (link : Nat) (cls : Nat) (on : Bool) : Statement (.pauseFrame link cls on) := fun _ h => nomatch h
theorem remoteResendTimeout (req : Nat) : Statement (.remoteResendTimeout req) := fun _ h => nomatch h
theorem remoteWriteReceive (src : Nat) (id : Nat) (phys : Bool) (addr : Nat) (dom : Nat) (pass : Pass) (op : RemOp) : Statement (.remoteWriteReceive src id phys addr dom pass op) :=
  fun _ h => nomatch h
theorem dedupeEntryExpiry : Statement (.dedupeEntryExpiry) := fun _ h => nomatch h
theorem packetLifetimeExpiry (pkt : Nat) : Statement (.packetLifetimeExpiry pkt) := fun _ h => nomatch h
theorem messagePacketReceive (src : Nat) (id : Nat) (phys : Bool) (addr : Nat) (dom : Nat) (pass : Pass) (off : Nat) (total : Nat) (bytes : List Byte) : Statement (.messagePacketReceive src id phys addr dom pass off total bytes) :=
  fun _ h => nomatch h
theorem hostPostedWrite (stream : Nat) (relaxed : Bool) (dst : HostDst) (bytes : List Byte) : Statement (.hostPostedWrite stream relaxed dst bytes) :=
  fun _ h => nomatch h
theorem hostReadRequest (stream : Nat) (src : HostSrc) (n : Nat) : Statement (.hostReadRequest stream src n) := fun _ h => nomatch h
theorem hostAtomicopRequest (stream : Nat) (addr : Nat) : Statement (.hostAtomicopRequest stream addr) := fun _ h => nomatch h
theorem hostRegisterWrite (page : PageAt) (len : Bool) (x : W64) : Statement (.hostRegisterWrite page len x) :=
  fun _ h => nomatch h
theorem flush (dom : Nat) (stream : Nat) (x : W64) : Statement (.flush dom stream x) := fun _ h => nomatch h
theorem inval (dom : Nat) (stream : Nat) (x : W64) : Statement (.inval dom stream x) := fun _ h => nomatch h
theorem tohost (dom : Nat) (stream : Nat) (x : W64) : Statement (.tohost dom stream x) := fun _ h => nomatch h
theorem todev (dom : Nat) (stream : Nat) (x : W64) : Statement (.todev dom stream x) := fun _ h => nomatch h
theorem kickCompletion (dom : Nat) : Statement (.kickCompletion dom) := fun _ h => nomatch h
theorem submitLaunch (page : PageAt) (x : W64) : Statement (.submitLaunch page x) :=
  fun _ h => nomatch h
theorem submitGraph (page : PageAt) (x : W64) : Statement (.submitGraph page x) :=
  fun _ h => nomatch h
theorem stop (page : PageAt) (x : W64) : Statement (.stop page x) :=
  fun _ h => nomatch h
theorem cxlResponseTimeout (pkt : Nat) : Statement (.cxlResponseTimeout pkt) := fun _ h => nomatch h
theorem budgetTick (dom : Nat) : Statement (.budgetTick dom) := fun _ h => nomatch h
theorem budgetResume (dom : Nat) : Statement (.budgetResume dom) := fun _ h => nomatch h
theorem checkpoint (dom : Nat) : Statement (.checkpoint dom) := fun _ h => nomatch h
theorem preemption (dom : Nat) : Statement (.preemption dom) := fun _ h => nomatch h
theorem preemptionHandlerTimeout (grp : Nat) : Statement (.preemptionHandlerTimeout grp) := fun _ h => nomatch h
theorem contextRestore (dom : Nat) : Statement (.contextRestore dom) := fun _ h => nomatch h
theorem deviceReset : Statement (.deviceReset) := fun _ h => nomatch h
theorem firmwareBringup (b : Bringup) : Statement (.firmwareBringup b) := fun _ h => nomatch h
theorem getVersion : Statement (.getVersion) := fun _ h => nomatch h
theorem getCapabilities : Statement (.getCapabilities) := fun _ h => nomatch h
theorem negotiateAlgorithms (p384 : Bool) (sha384 : Bool) : Statement (.negotiateAlgorithms p384 sha384) := fun _ h => nomatch h
theorem getDigests : Statement (.getDigests) := fun _ h => nomatch h
theorem getCertificate : Statement (.getCertificate) := fun _ h => nomatch h
theorem challenge (nonce : List Byte) : Statement (.challenge nonce) := fun _ h => nomatch h
theorem getMeasurements : Statement (.getMeasurements) := fun _ h => nomatch h
theorem distributionTableChange (dist : List (Nat × W64)) (routes : List (Nat × List Nat)) : Statement (.distributionTableChange dist routes) :=
  fun _ h => nomatch h
theorem cxlPortDown (port : Nat) (up : Bool) : Statement (.cxlPortDown port up) := fun _ h => nomatch h
theorem requestIdReuse : Statement (.requestIdReuse) := fun _ h => nomatch h
theorem ackInterval (link : Nat) : Statement (.ackInterval link) := fun _ h => nomatch h

end Sys2Proof.Laws.Encoding
end

