-- ==== Sys2Proof/Laws/Traps.lean ====
section
/-!
SUPPORT. Taking a trap: everything it leaves, once its frame is stored.
-/

namespace Sys2Proof.Machine

/-! ## A wait set aside -/

/-- The uniform and system registers, the masks and how many paths there are: what a wait set aside does not change. -/
structure Group.sysSame (G H : Group) : Prop where
  k : H.k = G.k
  gctl : H.gctl = G.gctl
  exm : H.exm = G.exm
  exited : H.exited = G.exited
  tvec : H.tvec = G.tvec
  arms : H.arms.length = G.arms.length

theorem Group.sysSame.refl (G : Group) : G.sysSame G := ⟨rfl, rfl, rfl, rfl, rfl, rfl⟩

theorem Group.sysSame.trans {G H K : Group} (h : G.sysSame H) (k : H.sysSame K) : G.sysSame K :=
  ⟨k.k.trans h.k, k.gctl.trans h.gctl, k.exm.trans h.exm, k.exited.trans h.exited, k.tvec.trans h.tvec, k.arms.trans h.arms⟩

theorem sysSame_forsake (G : Group) (w : Nat) (l : List Nat) : G.sysSame (l.foldl (fun G l => G.forsake w l) G) := by
  induction l generalizing G with
  | nil => exact .refl G
  | cons x r ih => exact Group.sysSame.trans (H := G.forsake w x) ⟨rfl, rfl, rfl, rfl, rfl, rfl⟩ (ih _)

theorem sysSame_modArm (G : Group) (a : Nat) (f : Path → Path) : G.sysSame (G.modArm a f) :=
  ⟨rfl, rfl, rfl, rfl, rfl, by simp [Group.modArm]⟩

theorem unqueue_groups (s : State) (core id : Nat) : (s.unqueue core id).groups = s.groups := by
  unfold State.unqueue
  split <;> rfl

/-- A group without a wait's access or exchange. -/
def Group.unawait (id : Nat) (G : Group) : Group :=
  let G := (List.range 16).foldl (fun (G : Group) l => G.forsake id l) G
  { G with accs := G.accs.filter fun x => x.id != id, xch := G.xch.filter fun x => x.id != id }

/-- What a wait set aside does to its group. -/
def wdGroup (a : Nat) (w : Option Nat) (G : Group) : Group :=
  (match w with
    | some id => G.unawait id
    | none => G).modArm a fun p => { p with prog := .none }

theorem sysSame_unawait (id : Nat) (G : Group) : G.sysSame (G.unawait id) := by
  have h := sysSame_forsake G id (List.range 16)
  unfold Group.unawait
  generalize (List.range 16).foldl (fun (G : Group) l => G.forsake id l) G = K at h
  exact h.trans ⟨rfl, rfl, rfl, rfl, rfl, rfl⟩

theorem sysSame_wd (a : Nat) (w : Option Nat) (G : Group) : G.sysSame (wdGroup a w G) := by
  cases w with
  | none => exact sysSame_modArm _ a _
  | some id => exact (sysSame_unawait id G).trans (sysSame_modArm _ a _)

theorem withdraw_eq (s : State) (g a : Nat) : ∃ (t : State) (w : Option Nat), t.groups = s.groups ∧
    ((s.withdraw g a) = t.modGroup g (wdGroup a w) ∨ s.withdraw g a = s
      ∨ ∃ f : Group → Group, ∃ id, w = some id ∧ s.withdraw g a = (t.modGroup g f).modPath g a (fun p => { p with prog := .none })
        ∧ ∀ G, (f G).modArm a (fun p => { p with prog := .none }) = wdGroup a w G) := by
  unfold State.withdraw
  split
  · rename_i id _
    exact ⟨s.setNet { s.net with packets := keep (fun _ p => p.own != .access g id) s.net.packets }, some id, rfl,
      .inr (.inr ⟨Group.unawait id, id, rfl, rfl, fun _ => rfl⟩)⟩
  · rename_i id _
    exact ⟨s.unqueue (slotCore g) id, none, unqueue_groups _ _ _, .inl rfl⟩
  · rename_i tag _ _ _
    exact ⟨s.freeTag (slotCore g) tag, none, rfl, .inl rfl⟩
  · exact ⟨s, none, rfl, .inl rfl⟩
  · exact ⟨s, none, rfl, .inl rfl⟩
  · exact ⟨s, none, rfl, .inr (.inl rfl)⟩

/-- A wait set aside leaves every other group alone, and of its own all registers. -/
theorem withdraw_group (s : State) (g a x : Nat) :
    ∃ f : Group → Group, (∀ G : Group, G.sysSame (f G)) ∧
      (s.withdraw g a).group? x = if x = g then (s.group? g).map f else s.group? x := by
  obtain ⟨t, w, ht, h | h | ⟨f, id, hw, h, hf⟩⟩ := withdraw_eq s g a
  · refine ⟨wdGroup a w, sysSame_wd a w, ?_⟩
    rw [h, group?_modGroup]
    unfold State.group?
    rw [ht]
  · refine ⟨fun G => G, .refl, ?_⟩
    rw [h]
    split
    · rename_i e; subst e; simp
    · rfl
  · refine ⟨wdGroup a w, sysSame_wd a w, ?_⟩
    rw [h]
    unfold State.modPath
    rw [group?_modGroup, group?_modGroup, if_pos rfl, group?_modGroup]
    unfold State.group?
    rw [ht]
    split
    · rw [Option.map_map]
      exact congrArg (fun k => Option.map k _) (funext fun G => hf G)
    · rfl

/-! ## Trap entry (R125) -/

/-- What trap entry leaves of a group (R125). -/
def Group.entered (G : Group) (a : Nat) (lanes : Lanes) (p : Path) (base : Nat) (t : TrapReq) (taddr resume : W64) : Group :=
  let cause : W64 := (t.detail ++ t.cause).zeroExtend 64
  let G : Group := { G with
    tcause := cause, tpc := t.tpc &&& ~~~ 3#64, taddr := taddr
    inTrap := some { arm := a, other := G.arms.length == 2, lanes := lanes, frame := base, resume := resume, cause := t.cause, gctl := G.gctl
                     prog := (G.armOf a).prog, lat := G.latCap, saved := G.resid }
    resid := []
    exm := G.exm ||| G.liveOf p
    gctl := G.gctl &&& ~~~ 3#64 }
  let G := (((G.kw 28 cause).kw 29 (t.tpc &&& ~~~ 3#64)).kw 30 taddr).kw 31 (w64 base)
  G.modArm a fun p => { p with pc := G.tvec, st := .ready, prog := .none, trap := none }

theorem kr_entered (G : Group) (a : Nat) (lanes : Lanes) (p : Path) (base : Nat) (t : TrapReq) (taddr resume : W64) (j : BitVec 5) :
    (G.entered a lanes p base t taddr resume).kr j =
      if j = 31 then w64 base else if j = 30 then taddr else if j = 29 then t.tpc &&& ~~~ 3#64
      else if j = 28 then (t.detail ++ t.cause).zeroExtend 64 else G.kr j := by
  show (((((_ : Group).kw 28 _).kw 29 _).kw 30 _).kw 31 _).kr j = _
  rw [kr_kw, kr_kw, kr_kw, kr_kw]
  by_cases h1 : j = 31
  · subst h1; rw [if_pos (by decide), if_pos rfl]
  by_cases h2 : j = 30
  · subst h2; rw [if_neg (by decide), if_pos (by decide), if_neg (by decide), if_pos rfl]
  by_cases h3 : j = 29
  · subst h3; rw [if_neg (by decide), if_neg (by decide), if_pos (by decide), if_neg (by decide), if_neg (by decide), if_pos rfl]
  by_cases h4 : j = 28
  · subst h4
    rw [if_neg (by decide), if_neg (by decide), if_neg (by decide), if_pos (by decide), if_neg (by decide), if_neg (by decide),
      if_neg (by decide), if_pos rfl]
  rw [if_neg (by tauto), if_neg (by tauto), if_neg (by tauto), if_neg (by tauto), if_neg h1, if_neg h2, if_neg h3, if_neg h4]
  rfl

theorem armOf_entered (G : Group) (a : Nat) (lanes : Lanes) (p : Path) (base : Nat) (t : TrapReq) (taddr resume : W64)
    (h : (G.arm? a).isSome) :
    (G.entered a lanes p base t taddr resume).armOf a = { G.armOf a with pc := G.tvec, st := .ready, prog := .none, trap := none } := by
  show (Group.modArm _ a _).armOf a = _
  refine (armOf_modArm _ a _ ?_).trans rfl
  exact h

/-- A raised trap that can be taken, whose frame can be stored, is taken. -/
theorem trapEntry_ok {s r : State} {g a : Nat} {t : TrapReq} (htrap : ((s.grpOf g).armOf a).trap = some t)
    (hready : (s.grpOf g).trapReady a t = true) (hin : (s.grpOf g).inTrap = none)
    (hf : s.gWrites g a (s.frameBase g (s.domOf (s.grpOf g).launch))
      ((s.grpOf g).frame ((s.grpOf g).armOf a) ((t.detail ++ t.cause).zeroExtend 64) (t.tpc &&& ~~~ 3#64) (t.taddr.getD (s.grpOf g).taddr)
        (if t.entry.isSome then ((s.grpOf g).armOf a).pc else t.resume)) = (r, .ok [])) :
    s.trapEntry g a = (r.withdraw g a).modGroup g fun G =>
      G.entered a ((s.grpOf g).armOf a).lanes ((s.grpOf g).armOf a) (s.frameBase g (s.domOf (s.grpOf g).launch)) t
        (t.taddr.getD (s.grpOf g).taddr) (if t.entry.isSome then ((s.grpOf g).armOf a).pc else t.resume) := by
  unfold State.trapEntry
  simp only [htrap, hready, Bool.not_true, Bool.false_eq_true, if_false, hin, Option.isSome_none, hf]
  rfl

/-- A trap that is raised where it can be taken is taken. -/
theorem raise_trapped {s r : State} {c : Cur} {t : TrapReq} (h : TrapReady s c t r) : Trapped s r (s.raise c.g c.arm t) c t := by
  obtain ⟨ht, hg, hp⟩ := cur_spec h.cur
  have hG := grpOf_modGroup s c.g (fun G => G.modArm c.arm fun p => { p with trap := some t, st := .ready }) (by rw [hg]; rfl)
  rw [cur_grpOf h.cur] at hG
  have hP : (c.grp.modArm c.arm fun p => { p with trap := some t, st := .ready }).armOf c.arm = { c.path with trap := some t, st := .ready } := by
    rw [armOf_modArm _ _ _ (by rw [hp]; rfl)]
    unfold Group.armOf; rw [hp]; rfl
  have hready : (c.grp.modArm c.arm fun p => { p with trap := some t, st := .ready }).trapReady c.arm t = true := by
    have := h.oldest
    unfold Group.trapReady at this ⊢
    unfold Group.residOf at this ⊢
    rw [hP]
    simp only [Group.armOf, hp] at this
    exact this
  have e : s.raise c.g c.arm t = (r.withdraw c.g c.arm).modGroup c.g fun G =>
      G.entered c.arm c.path.lanes { c.path with trap := some t, st := .ready } (s.frameBase c.g (s.domOf c.grp.launch)) t
        (t.taddr.getD c.grp.taddr) (if t.entry.isSome then c.path.pc else t.resume) := by
    unfold State.raise
    have := trapEntry_ok (s := s.modPath c.g c.arm fun p => { p with trap := some t, st := .ready }) (r := r) (g := c.g) (a := c.arm) (t := t)
      (by unfold State.modPath; rw [hG, hP]) (by unfold State.modPath; rw [hG]; exact hready) (by unfold State.modPath; rw [hG]; exact h.outside)
      (by
        have hf := h.frame
        unfold State.modPath at hf ⊢
        rw [hG, hP]
        exact hf)
    rw [this]
    unfold State.modPath
    rw [hG, hP]
    rfl
  obtain ⟨f, hf, hw⟩ := withdraw_group r c.g c.arm c.g
  rw [if_pos rfl] at hw
  have hr : ∃ R, r.group? c.g = some R ∧ (R.arm? c.arm).isSome := by
    have := h.still
    unfold State.path? at this
    cases hR : r.group? c.g with
    | none => rw [hR] at this; simp at this
    | some R => rw [hR] at this; exact ⟨R, rfl, by simpa using this⟩
  obtain ⟨R, hR, hRa⟩ := hr
  have hRg : r.grpOf c.g = R := by unfold State.grpOf; rw [hR]; rfl
  have hu : (s.raise c.g c.arm t).grpOf c.g = (f R).entered c.arm c.path.lanes { c.path with trap := some t, st := .ready }
      (s.frameBase c.g (s.domOf c.grp.launch)) t (t.taddr.getD c.grp.taddr) (if t.entry.isSome then c.path.pc else t.resume) := by
    rw [e, grpOf_modGroup _ _ _ (by rw [hw, hR]; rfl)]
    unfold State.grpOf
    rw [hw, hR]; rfl
  have q := hf R
  have hfa : ((f R).arm? c.arm).isSome := by
    unfold Group.arm? at hRa ⊢
    simp only [isSome_getElem?, q.arms] at hRa ⊢
    exact hRa
  constructor
  · rw [hu]; rfl
  · rw [hu]; rfl
  · rw [hu]; rfl
  · rw [hu, hRg, ← q.gctl]; rfl
  · rw [hu, hRg, ← q.exm]
    unfold Group.liveOf
    rw [← q.exited]; rfl
  · rw [hu, kr_entered]; rfl
  · rw [hu, kr_entered]; rfl
  · rw [hu, kr_entered]; rfl
  · rw [hu, kr_entered]; rfl
  · intro j h1 h2 h3 h4
    rw [hu, hRg, kr_entered, if_neg h4, if_neg h3, if_neg h2, if_neg h1]
    unfold Group.kr; rw [q.k]
  · rw [hu]; rfl
  · intro x hx
    rw [e, group?_modGroup, if_neg hx]
    obtain ⟨f', _, hw'⟩ := withdraw_group r c.g c.arm x
    rw [hw', if_neg hx]
  · have hpc : ((s.raise c.g c.arm t).pathOf c.g c.arm) = { (f R).armOf c.arm with pc := (f R).tvec, st := .ready, prog := .none, trap := none } := by
      unfold State.pathOf
      rw [hu, armOf_entered _ _ _ _ _ _ _ _ hfa]
    rw [hpc, hRg]
    exact ⟨q.tvec, rfl⟩

end Sys2Proof.Machine
end

