-- ==== Sys2Proof/Tests/Slice0.lean ====
section
/-!
SUPPORT. Tests: ill-formed instructions are refused; words written from the encodings of the spec decode; single steps give the results
the spec works out; and, for each statement with hypotheses, states that meet them (`test_meets_…`).
-/

namespace Sys2Proof.Tests

open Sys2Proof Sys2Proof.Machine

/-! ## Ill-formed instructions (R97) -/

def p0 : Guard := ⟨false, 0⟩

/-- Control and integer: offsets not multiples of 4, slides of 0, float types, odd pairs, `lat` as a pair, two operands in X1. -/
theorem test_wf_integer : (([.bra p0 2 0, .bra p0 4 1, .bru false .num (.k 1) (.k 2) 0, .bru false .eq (.v 1) (.k 2) 0, .bru false .eq (.k 1) (.k 2) 2,
    .bpend (.reg (.inl 1)) 4, .bpend (.pred 1) 3, .call p0 0 4, .call p0 1 2, .calli p0 0 3, .loopk 1 2, .iadd p0 .f32 (.v 1) (.v 2) (.v 3),
    .iadd p0 .i64 (.v 1) (.v 2) (.v 4), .iadd p0 .i64 (.v 2) (.v 3) (.v 4), .iadd p0 .i64 (.v 2) (.v 4) .lat,
    .iadd p0 .i32 (.v 1) (.imm 1) (.imm 2), .isub p0 .oq4 (.v 1) (.v 2) (.v 3), .imul p0 .n64 (.o 1) (.v 2) (.v 4),
    .imulh p0 .i8 (.v 1) (.v 2) (.v 3), .imad p0 .f16 (.v 1) (.v 2) (.v 3) (.v 4), .imin p0 .bf16 (.v 1) (.v 2) (.v 3), .imax p0 .e4m3 (.v 1) (.v 2) (.v 3),
    .iabs p0 .n32 (.v 1) (.v 2), .ineg p0 .f32 (.v 1) (.v 2), .addmin p0 .i16 (.v 1) (.v 2) (.v 3) (.v 4), .addmax p0 .n8 (.v 1) (.v 2) (.v 3) (.v 4),
    .ilea p0 .n32 (.v 1) (.v 2) (.v 3) 1, .and p0 .i32 (.v 1) (.v 2) (.v 3), .or p0 .f32 (.v 1) (.v 2) (.v 3), .xor p0 .n16 (.v 1) (.v 2) (.v 3),
    .andn p0 .i64 (.v 2) (.v 2) (.v 4), .not p0 .i32 (.v 1) (.v 2), .shl p0 .n8 (.v 1) (.v 2) (.v 3), .shr p0 .f32 (.v 1) (.v 2) (.v 3),
    .sar p0 .i16 (.v 1) (.v 2) (.v 3), .rot p0 .i32 (.v 1) (.v 2) (.v 3) false, .clz p0 .i32 (.v 1) (.v 2), .popc p0 .f32 (.v 1) (.v 2),
    .brev p0 .n8 (.v 1) (.v 2), .bfx p0 .n64 (.v 2) (.v 2) (.v 4), .bfi p0 .i32 (.v 1) (.v 2) (.v 3) (.v 4), .sel p0 .e5m2 (.v 1) (.v 2) (.v 3) 1,
    .mov p0 .oq4 (.v 1) (.v 2), .movi p0 .e4m3 (.v 1) 1, .iset p0 .n32 1 .num (.v 1) (.v 2), .icvt p0 .f32 .i32 (.v 1) (.v 2) true] : List Instr).all
      fun i => !i.wf) = true := by decide

/-- Uniform, lane and float: lane sources where only uniform ones stand, odd window offsets, wrong types, inline constants of 8-bit
floats. -/
theorem test_wf_float : (([.kadd p0 1 (.v 1) (.k 2), .kadd p0 1 (.cw 0 1) (.k 2), .ksub p0 1 (.imm 1) (.cw 0 2), .kmul p0 1 .lat (.k 1), .kand p0 1 (.o 1) (.k 1),
    .kor p0 1 (.k 1) (.v 1), .kxor p0 1 (.k 1) (.o 1), .kshl p0 1 (.k 1) .lat, .kshr p0 1 (.v 1) (.v 2), .kmov p0 (some .i8) 1 (.k 2), .kmovi p0 (some .i32) 1 5,
    .kset p0 (some .n32) 1 .eq (.k 1) (.k 2), .kset p0 none 1 .nan (.k 1) (.k 2), .ksel p0 1 (.k 1) (.k 2) (.v 1), 
    .vtok p0 .i64 1 (.v 2) (.k 2), .ktov p0 .n32 (.v 1) (.v 2), .setx p0 (.v 1), .lshift p0 .i32 (.v 1) (.v 2) (.v 3) (.v 4) true,
    .lswz p0 .f32 (.v 1) (.v 2) (.v 3), .lperm p0 .n8 (.v 1) (.v 2) (.v 3), .lbcast p0 .n32 (.v 1) (.v 2) (.v 3), .lred p0 .add .i8 (.v 1) (.v 2),
    .xch p0 .n32 (.v 1) (.k 2) 3, .fadd p0 .i32 .rn false (.v 1) (.v 2) (.v 3), .fsub p0 .e4m3 .rn false (.v 1) (.v 2) (.v 3),
    .fmul p0 .n32 .rn false (.v 1) (.v 2) (.v 3), .ffma p0 .f32 .rn false (.v 1) (.imm 1) (.cw 0 0) (.v 3), .fmin p0 .i32 (.v 1) (.v 2) (.v 3),
    .fmax p0 .e5m2 (.v 1) (.v 2) (.v 3), .fset p0 .f16x2 1 .eq (.v 1) (.v 2), .frcp p0 .i32 (.v 1) (.v 2), .frsq p0 .oq4 (.v 1) (.v 2),
    .fsqrt p0 .e4m3 .rn (.v 1) (.v 2), .fexp2 p0 .n64 (.v 2) (.v 4), .flog2 p0 .i8 (.v 1) (.v 2), .fsin p0 .i32 (.v 1) (.v 2), .fcos p0 .i32 (.v 1) (.v 2),
    .fscale p0 .i32 .rn (.v 1) (.v 2) (.v 3), .fclass p0 .bf16x2 (.code (.v 1)) (.v 2), .fclass p0 .e4m3 (.code (.v 1)) (.inl 1),
    .fdot2 p0 .f32 .rn false (.v 1) (.v 2) (.v 3) (.v 4), .fred p0 .min .f32 .rz (.v 1) (.v 2), .fred p0 .add .f16x2 .rn (.v 1) (.v 2),
    .fcvt p0 .f32 .f32 false .rn (.v 1) (.v 2) none, .fcvt p0 .f32 .f16 true .rn (.v 1) (.v 2) none, .fcvt p0 .f16x2 .f32 false .rn (.v 1) (.v 2) none,
    .ftoi p0 .f32 .f16 .rn (.v 1) (.v 2), .itof p0 .i32 .f32 .rn (.v 1) (.v 2), .narrow p0 .f32 (.v 1) (.v 2) (.v 3)] : List Instr).all
      fun i => !i.wf) = true := by decide

/-- Memory, engines, matrix, synchronisation: orders and scopes an entry does not list, operands that are no `k` register, counts and
selectors out of range. -/
theorem test_wf_memory : (([.ld p0 .oq4 .none .lane 0 (.v 1) ⟨1, .k 0, 0⟩, .ld p0 .n32 .none .dev 0 (.v 1) ⟨1, .k 0, 0⟩,
    .ld p0 .n32 .rel .dev 0 (.v 1) ⟨1, .k 0, 0⟩, .ld p0 .n32 .acq .lane 0 (.v 1) ⟨1, .k 0, 0⟩, .ld p0 .n32 .none .lane 0 (.v 1) ⟨1, .inl 1, 0⟩,
    .st p0 .n32 .acq .dev 0 ⟨1, .k 0, 0⟩ (.v 1), .st p0 .n32 .none .lane 0 ⟨1, .k 0, 0⟩ (.imm 1), .ldu p0 .n32 .none .lane 0 (.v 1) ⟨1, .v 0, 0⟩,
    .ldl p0 .n32 .acq .quad 0 (.v 1) ⟨1, .k 0, 0⟩, .stl p0 .n64 .none .lane 0 ⟨1, .k 0, 0⟩ (.v 1), .ldc p0 .i8 0 (.v 1) 0 (.k 0) 0,
    .atom p0 .cas .n32 false .none .dev 0 (.v 1) ⟨1, .k 0, 0⟩ (.v 2) none, .atom p0 .add .n32 false .none .dev 0 (.v 1) ⟨1, .k 0, 0⟩ (.v 2) (some (.v 3)),
    .atom p0 .and .f32 false .none .dev 0 (.v 1) ⟨1, .k 0, 0⟩ (.v 2) none, .atom p0 .add .n32 true .none .dev 0 (.v 1) ⟨1, .k 0, 0⟩ (.v 2) none,
    .atom p0 .add .n32 false .none .lane 0 (.v 1) ⟨1, .k 0, 0⟩ (.v 2) none, .red p0 .exch .n32 false .none .dev 0 ⟨1, .k 0, 0⟩ (.v 2),
    .red p0 .cas .n32 false .none .dev 0 ⟨1, .k 0, 0⟩ (.v 2), .poll p0 .n32 .num .none .lane 0 (.v 1) ⟨1, .k 0, 0⟩ (.v 2), .poll p0 .f16 .eq .none .lane 0 (.v 1) ⟨1, .k 0, 0⟩ (.v 2),
    .fence p0 .none .dev 0, .fence p0 .rel .lane 0, .pref p0 .oq4 false 0 ⟨1, .k 0, 0⟩, .cpy p0 ⟨0, .grp, 0, false, false, false⟩ 1 (.k 1) (.k 2) (.k 3),
    .cpy p0 ⟨0, .dev, 0, false, false, true⟩ 1 (.k 1) (.k 2) (.k 3), .cpg p0 ⟨0, .dev, 0, false, false, true⟩ 1 (.k 1) (.k 2) (.k 3) (.k 4) 0,
    .cpm p0 ⟨0, .dev, 0, true, false, false⟩ 1 (.k 1) (.k 2) (.k 3) (.k 4), .cpyr p0 .oq4 ⟨0, .dev, 0, false, false, false⟩ 1 (.k 1) (.k 2) (.k 3),
    .cpyo p0 ⟨0, .dev, 0, false, false, false⟩ 1 (.k 1) (.v 2) (.k 3) (.k 4), .cpya p0 ⟨0, .dev, 0, false, true, false⟩ 1 (.k 1) (.k 2) (.k 3) (.k 4),
    .qfence p0 0, .join p0 1 (.v 1), .test p0 1 (.imm 1), .cancel p0 1 .lat, .waitany p0 1 (.o 1), .waitall p0 1 (.cw 0 0), .ffr p0 1 (.v 1),
    .oclaim p0 1 (.imm 1), .orel p0 (.k 1) (.v 1), .aclaim p0 1 (.v 1), .arel p0 .lat (.k 1), .mloop p0 .bf16 .f16 0 1 (.k 1) (.k 2) (.k 3) 0 0 0 .plain,
    .mloop p0 .f32 .f32 0 1 (.k 1) (.k 2) (.k 3) 0 0 0 .plain, .mloop p0 .bf16 .bf16 0 1 (.k 1) (.k 2) (.k 3) 0 0 0 (.tri (.imm 1) .zero),
    .mzero p0 0 1 (.v 1), .mrowsc p0 0 1 (.k 1) (.imm 1), .bar p0 .gang 4 .blk, .arrive p0 .launch 2 .blk 1 (.k 1), .await p0 .blk 0 .blk (.v 1),
    .mts p0 .coreid (.k 1), .mts p0 .gctl (.v 1), .mode p0 (.imm 1) (.imm 2), .mode p0 (.inl 2) (.k 5), .qxfer p0 1 (.k 1) 0, .qxfer p0 1 (.k 1) 13] : List Instr).all
      fun i => !i.wf) = true := by decide

/-- Words with a nonzero unused or reserved field, a length the opcode does not have, or an opcode not assigned decode to nothing (R79, R83
to R85, R96, R97): `NOP` with a type, `IADD` with a source C, with `XS` 0 and an `XK`, with a reserved window bit, `LD` of 64 bits, opcode
0xD0. -/
theorem test_decode_refuses : decodeWords [0x00000001, 0x00020000] = none ∧ decodeWords [0x00410041, 0x00008079] = none
    ∧ decodeWords [0x00410041, 0x00408039] = none ∧ decodeWords [0x00410042, 0x02408000, 0x00100000] = none
    ∧ decodeWords [0xF1020201, 0x5CC20001] = none ∧ decodeWords [0x00000341, 0x00000000] = none := by decide

/-- A pad is not an instruction; a zeroed word is an illegal one; a 96-bit instruction at offset 0x14 ends with its block, at 0x18 it
would cross it (R74, R97, R99). -/
theorem test_decode_block : decodeAt (List.replicate 32 0) 0 = .illegal
    ∧ decodeAt (bytes32 0xFFFFFFFC ++ List.replicate 28 0) 0 = .pad
    ∧ decodeAt (List.replicate 0x14 0 ++ bytes32 0x00410042 ++ bytes32 0x02008000 ++ bytes32 5) 0x14
      = .instr (.iadd p0 .i32 (.v 1) (.v 1) (.imm 5)) 12
    ∧ decodeAt (List.replicate 0x18 0 ++ bytes32 0x00410042 ++ bytes32 0x02008000) 0x18 = .illegal := by decide

/-! ## Decoding: words written from the layout of R77 and the opcode map of R96, one or more for each instruction -/

theorem test_decode_nop : decodeWords [0x00000001, 0x00000000] = some (.nop ⟨false, 0⟩) := by decide
theorem test_decode_bra : decodeWords [0x00002807, 0x00000000, 0xFFFFFFE0, 0x00000040] = some (.bra ⟨true, 2⟩ 0xFFFFFFE0 0x40) := by decide
theorem test_decode_bru : decodeWords [0xF480000A, 0x0009C039, 0x00000024] = some (.bru true .lt (.k 18) (.inl 7) 0x24) := by decide
theorem test_decode_bpend : decodeWords [0x3180000E, 0x04000000, 0x00000100] = some (.bpend (.pred 6) 0x100) := by decide
theorem test_decode_call : decodeWords [0x00000012, 0x00080000, 0x00000040] = some (.call ⟨false, 0⟩ 2 0x40) := by decide
theorem test_decode_calli : decodeWords [0x32400C15, 0x000C0000] = some (.calli ⟨false, 3⟩ 3 9) := by decide
theorem test_decode_ret : decodeWords [0x00002419, 0x00000000] = some (.ret ⟨true, 1⟩) := by decide
theorem test_decode_loopk : decodeWords [0x3340001E, 0x00000000, 0xFFFFFF20] = some (.loopk 13 0xFFFFFF20) := by decide
theorem test_decode_exit : decodeWords [0x00001021, 0x00000000] = some (.exit ⟨false, 4⟩) := by decide
theorem test_decode_iadd : decodeWords [0x81020041, 0x0000C011] = some (.iadd ⟨false, 0⟩ .i64 (.v 2) (.v 4) (.o 6)) := by decide
theorem test_decode_isub : decodeWords [0xF1434045, 0x00014007] = some (.isub ⟨false, 0⟩ .n16 (.o 3) (.k 5) (.v 31)) := by decide
theorem test_decode_imul : decodeWords [0xE0078049, 0x0000003A] = some (.imul ⟨false, 0⟩ .i8 (.vo 7) .lat (.inl 11)) := by decide
theorem test_decode_imulh : decodeWords [0x8040004D, 0x00018000] = some (.imulh ⟨false, 0⟩ .n32 (.v 0) (.v 1) (.v 2)) := by decide
theorem test_decode_imad : decodeWords [0x42430051, 0x0000A010] = some (.imad ⟨false, 0⟩ .i32 (.v 3) (.v 9) (.o 1) .lat) := by decide
theorem test_decode_imin : decodeWords [0xC1440055, 0x00010037] = some (.imin ⟨false, 0⟩ .n8 (.v 4) (.v 5) (.k 31)) := by decide
theorem test_decode_imax : decodeWords [0xBBC04059, 0x00004001] = some (.imax ⟨false, 0⟩ .i16 (.o 0) (.inl 15) (.v 6)) := by decide
theorem test_decode_iabs : decodeWords [0x11C7005D, 0x00008000] = some (.iabs ⟨false, 0⟩ .i32 (.v 7) (.o 7)) := by decide
theorem test_decode_ineg : decodeWords [0x30880061, 0x0001C000] = some (.ineg ⟨false, 0⟩ .n64 (.v 8) (.k 2)) := by decide
theorem test_decode_addmin : decodeWords [0x80CC0065, 0x000082F2] = some (.addmin ⟨false, 0⟩ .i32 (.v 12) (.v 3) (.k 10) (.v 11)) := by decide
theorem test_decode_addmax : decodeWords [0x471E0069, 0x0001F278] = some (.addmax ⟨false, 0⟩ .n64 (.v 30) (.v 28) (.inl 1) (.k 9)) := by decide
theorem test_decode_ilea : decodeWords [0x7184006D, 0x0031C001] = some (.ilea ⟨false, 0⟩ .n64 (.v 4) (.k 6) (.v 5) 12) := by decide
theorem test_decode_and : decodeWords [0xC1020071, 0x00018030] = some (.and ⟨false, 0⟩ .n32 (.v 2) (.v 4) (.k 3)) := by decide
theorem test_decode_or : decodeWords [0x01020075, 0x0001C031] = some (.or ⟨false, 0⟩ .n64 (.v 2) (.v 4) (.k 4)) := by decide
theorem test_decode_xor : decodeWords [0x41020079, 0x00018031] = some (.xor ⟨false, 0⟩ .n32 (.v 2) (.v 4) (.k 5)) := by decide
theorem test_decode_andn : decodeWords [0x8102007D, 0x0001C031] = some (.andn ⟨false, 0⟩ .n64 (.v 2) (.v 4) (.k 6)) := by decide
theorem test_decode_not : decodeWords [0x00438081, 0x00018000] = some (.not ⟨false, 0⟩ .n32 (.vo 3) (.v 1)) := by decide
theorem test_decode_shl : decodeWords [0x80810085, 0x00008039] = some (.shl ⟨false, 0⟩ .i32 (.v 1) (.v 2) (.inl 6)) := by decide
theorem test_decode_shr : decodeWords [0x41020089, 0x0001C030] = some (.shr ⟨false, 0⟩ .n64 (.v 2) (.v 4) (.k 1)) := by decide
theorem test_decode_sar : decodeWords [0x4206008D, 0x0000C039] = some (.sar ⟨false, 0⟩ .i64 (.v 6) (.v 8) (.inl 5)) := by decide
theorem test_decode_rot : decodeWords [0x02890091, 0x04018039] = some (.rot ⟨false, 0⟩ .n32 (.v 9) (.v 10) (.inl 4) true) := by decide
theorem test_decode_clz : decodeWords [0x01840095, 0x0001C000] = some (.clz ⟨false, 0⟩ .n64 (.v 4) (.v 6)) := by decide
theorem test_decode_popc : decodeWords [0x20024099, 0x00018000] = some (.popc ⟨false, 0⟩ .n32 (.o 2) .lat) := by decide
theorem test_decode_brev : decodeWords [0x31C0009D, 0x00018000] = some (.brev ⟨false, 0⟩ .n32 (.v 0) (.k 7)) := by decide
theorem test_decode_bfx : decodeWords [0xC08100A1, 0x00008000] = some (.bfx ⟨false, 0⟩ .i32 (.v 1) (.v 2) (.v 3)) := by decide
theorem test_decode_bfi : decodeWords [0xC08100A5, 0x0001B100] = some (.bfi ⟨false, 0⟩ .n32 (.v 1) (.v 2) (.v 3) (.k 4)) := by decide
theorem test_decode_sel : decodeWords [0xC08100A9, 0x00023140] = some (.sel ⟨false, 0⟩ .f32 (.v 1) (.v 2) (.v 3) 5) := by decide
theorem test_decode_mov : decodeWords [0x110700AD, 0x00028000] = some (.mov ⟨false, 0⟩ .bf16 (.v 7) (.o 4)) := by decide
theorem test_decode_movi : decodeWords [0x000C00B2, 0x01018000, 0x7FFF1234] = some (.movi ⟨false, 0⟩ .n32 (.v 12) 0x7FFF1234) := by decide
theorem test_decode_iset : decodeWords [0x0102C0B6, 0x02158000, 0x00000064] = some (.iset ⟨false, 0⟩ .n32 2 .ge (.v 4) (.imm 100)) := by decide
theorem test_decode_icvt : decodeWords [0x010300B9, 0x08040000] = some (.icvt ⟨false, 0⟩ .i8 .i32 (.v 3) (.v 4) true) := by decide
theorem test_decode_kadd : decodeWords [0xB04AC0C1, 0x00000030] = some (.kadd ⟨false, 0⟩ 10 (.k 1) (.k 2)) := by decide
theorem test_decode_ksub : decodeWords [0x779FC0C5, 0x00000038] = some (.ksub ⟨false, 0⟩ 31 (.k 30) (.inl 1)) := by decide
theorem test_decode_kmul : decodeWords [0x3943C0C9, 0x00000031] = some (.kmul ⟨false, 0⟩ 3 (.inl 5) (.k 4)) := by decide
theorem test_decode_kand : decodeWords [0xB144C0CD, 0x0000003A] = some (.kand ⟨false, 0⟩ 4 (.k 5) (.inl 10)) := by decide
theorem test_decode_kor : decodeWords [0xF185C0D1, 0x00000031] = some (.kor ⟨false, 0⟩ 5 (.k 6) (.k 7)) := by decide
theorem test_decode_kxor : decodeWords [0x7206C0D5, 0x00000032] = some (.kxor ⟨false, 0⟩ 6 (.k 8) (.k 9)) := by decide
theorem test_decode_kshl : decodeWords [0xF287C0D9, 0x00000038] = some (.kshl ⟨false, 0⟩ 7 (.k 10) (.inl 3)) := by decide
theorem test_decode_kshr : decodeWords [0x32C8C0DD, 0x00000039] = some (.kshr ⟨false, 0⟩ 8 (.k 11) (.inl 4)) := by decide
theorem test_decode_kmov : decodeWords [0x0009C0E2, 0x01400000, 0x0009FFFE] = some (.kmov ⟨false, 0⟩ none 9 (.cw 4 0x1FFFE)) := by decide
theorem test_decode_kmovi : decodeWords [0x000AC0E6, 0x01000000, 0x00000001] = some (.kmovi ⟨false, 0⟩ none 10 1) := by decide
theorem test_decode_kset : decodeWords [0x730BC0E9, 0x0009C033] = some (.kset ⟨false, 0⟩ (some .n64) 11 .lt (.k 12) (.k 13)) := by decide
theorem test_decode_ksel : decodeWords [0xB04CC0ED, 0x000038F0] = some (.ksel ⟨false, 0⟩ 12 (.k 1) (.k 2) (.inl 3)) := by decide
theorem test_decode_vtok : decodeWords [0xC1CEC0F1, 0x00018030] = some (.vtok ⟨false, 0⟩ .n32 14 (.v 7) (.k 3)) := by decide
theorem test_decode_ktov : decodeWords [0x350500F5, 0x00018000] = some (.ktov ⟨false, 0⟩ .n32 (.v 5) (.k 20)) := by decide
theorem test_decode_plog : decodeWords [0xF081C101, 0x00240030] = some (.plog ⟨false, 0⟩ 1 2 3 0b1001) := by decide
theorem test_decode_vote : decodeWords [0x3144C105, 0x08000000] = some (.vote ⟨false, 0⟩ (.all 4) 5) := by decide
theorem test_decode_getx : decodeWords [0x000EC109, 0x00000000] = some (.getx ⟨false, 0⟩ 14) := by decide
theorem test_decode_setx : decodeWords [0x3380010D, 0x00000000] = some (.setx ⟨false, 0⟩ (.k 14)) := by decide
theorem test_decode_lshift : decodeWords [0x00810111, 0x0401B878] = some (.lshift ⟨false, 0⟩ .n32 (.v 1) (.v 2) (.inl 0) (.inl 1) true) := by decide
theorem test_decode_lswz : decodeWords [0xC0810115, 0x00018000] = some (.lswz ⟨false, 0⟩ .n32 (.v 1) (.v 2) (.v 3)) := by decide
theorem test_decode_lperm : decodeWords [0x01440119, 0x00018020] = some (.lperm ⟨false, 0⟩ .n32 (.v 4) (.v 5) .lat) := by decide
theorem test_decode_lbcast : decodeWords [0x81C6011D, 0x00018030] = some (.lbcast ⟨false, 0⟩ .n32 (.v 6) (.v 7) (.k 2)) := by decide
theorem test_decode_lred : decodeWords [0x02480121, 0x14018000] = some (.lred ⟨false, 0⟩ .xor .n32 (.v 8) (.v 9)) := by decide
theorem test_decode_xch : decodeWords [0x41030125, 0x00018035] = some (.xch ⟨false, 0⟩ .n32 (.v 3) (.v 4) 21) := by decide
theorem test_decode_fadd : decodeWords [0x41850141, 0x00020010] = some (.fadd ⟨false, 0⟩ .f32 .rn false (.v 5) (.v 6) (.o 1)) := by decide
theorem test_decode_fsub : decodeWords [0xC0810145, 0x00164030] = some (.fsub ⟨false, 0⟩ .f16 .rz true (.v 1) (.v 2) (.k 3)) := by decide
theorem test_decode_fmul : decodeWords [0x80814149, 0x000BC039] = some (.fmul ⟨false, 0⟩ .bf16x2 .rm false (.o 1) (.v 2) (.inl 6)) := by decide
theorem test_decode_ffma : decodeWords [0x8043014D, 0x00022010] = some (.ffma ⟨false, 0⟩ .f32 .rn false (.v 3) (.v 1) (.o 2) .lat) := by decide
theorem test_decode_fmin : decodeWords [0xC0810151, 0x00020000] = some (.fmin ⟨false, 0⟩ .f32 (.v 1) (.v 2) (.v 3)) := by decide
theorem test_decode_fmax : decodeWords [0x01440155, 0x00038020] = some (.fmax ⟨false, 0⟩ .f16x2 (.v 4) (.v 5) .lat) := by decide
theorem test_decode_fset : decodeWords [0xC343C159, 0x0002003B] = some (.fset ⟨false, 0⟩ .f32 3 .eq (.v 13) (.inl 15)) := by decide
theorem test_decode_frcp : decodeWords [0x0081015D, 0x00020000] = some (.frcp ⟨false, 0⟩ .f32 (.v 1) (.v 2)) := by decide
theorem test_decode_frsq : decodeWords [0x11030161, 0x00024000] = some (.frsq ⟨false, 0⟩ .f16 (.v 3) (.o 4)) := by decide
theorem test_decode_fsqrt : decodeWords [0x01850165, 0x000E0000] = some (.fsqrt ⟨false, 0⟩ .f32 .rp (.v 5) (.v 6)) := by decide
theorem test_decode_fexp2 : decodeWords [0x03CF0169, 0x00020000] = some (.fexp2 ⟨false, 0⟩ .f32 (.v 15) (.v 15)) := by decide
theorem test_decode_flog2 : decodeWords [0x0207016D, 0x00028000] = some (.flog2 ⟨false, 0⟩ .bf16 (.v 7) (.v 8)) := by decide
theorem test_decode_fsin : decodeWords [0x02890171, 0x00020000] = some (.fsin ⟨false, 0⟩ .f32 (.v 9) (.v 10)) := by decide
theorem test_decode_fcos : decodeWords [0x030B0175, 0x00038000] = some (.fcos ⟨false, 0⟩ .f16x2 (.v 11) (.v 12)) := by decide
theorem test_decode_fscale : decodeWords [0x00810179, 0x0006003B] = some (.fscale ⟨false, 0⟩ .f32 .rz (.v 1) (.v 2) (.inl 12)) := by decide
theorem test_decode_fclass : decodeWords [0xC085C17D, 0x00020030] = some (.fclass ⟨false, 0⟩ .f32 (.test 5 (.k 3)) (.v 2)) := by decide
theorem test_decode_fdot2 : decodeWords [0x41030181, 0x0013C181] = some (.fdot2 ⟨false, 0⟩ .bf16x2 .rn true (.v 3) (.v 4) (.v 5) (.v 6)) := by decide
theorem test_decode_fred : decodeWords [0x00C40185, 0x0C020000] = some (.fred ⟨false, 0⟩ .addx .f32 .rn (.v 4) (.v 3)) := by decide
theorem test_decode_fcvt : decodeWords [0x031001C1, 0x7C020000] = some (.fcvt ⟨false, 0⟩ .f32 .bf16x2 true .rn (.v 16) (.v 12) none) := by decide
theorem test_decode_ftoi : decodeWords [0x004201C5, 0x20048000] = some (.ftoi ⟨false, 0⟩ .i32 .f32 .rz (.v 2) (.v 1)) := by decide
theorem test_decode_itof : decodeWords [0x104201C9, 0x140A0000] = some (.itof ⟨false, 0⟩ .f32 .n16 .rm (.v 2) (.o 1)) := by decide
theorem test_decode_narrow : decodeWords [0x004201CD, 0x2002C038] = some (.narrow ⟨false, 0⟩ .e4m3 (.v 2) (.v 1) (.inl 0)) := by decide
theorem test_decode_ld : decodeWords [0xF1020202, 0x5CC20001, 0x00000000] = some (.ld ⟨false, 0⟩ .f32 .acq .dev 3 (.v 2) ⟨4, .v 7, 0⟩) := by decide
theorem test_decode_st : decodeWords [0x70C01606, 0x000180C1, 0xFFFFFFFC] = some (.st ⟨false, 5⟩ .n32 .none .lane 0 ⟨3, .v 5, 0xFFFFFFFC⟩ (.v 3)) := by decide
theorem test_decode_ldu : decodeWords [0x3206020A, 0x0001C030, 0x00000010] = some (.ldu ⟨false, 0⟩ .n64 .none .lane 0 (.v 6) ⟨8, .k 0, 16⟩) := by decide
theorem test_decode_ldl : decodeWords [0x7002820E, 0x48418000, 0x00000000] = some (.ldl ⟨false, 0⟩ .n32 .acq .blk 1 (.vo 2) ⟨0, .v 1, 0⟩) := by decide
theorem test_decode_stl : decodeWords [0xF0400212, 0x0002A010, 0x00000008] = some (.stl ⟨false, 0⟩ .bf16 .none .lane 0 ⟨1, .o 3, 8⟩ .lat) := by decide
theorem test_decode_ldc : decodeWords [0x00090216, 0x08020001, 0x00000003] = some (.ldc ⟨false, 0⟩ .f32 0 (.v 9) 2 (.v 4) 3) := by decide
theorem test_decode_atom : decodeWords [0x3183021B, 0x1C1DB030, 0x00000000, 0x000000E1] = some (.atom ⟨false, 0⟩ .cas .n32 false .none .dev 0 (.v 3) ⟨6, .k 0, 0⟩ (.k 0) (some (.inl 1))) := by decide
theorem test_decode_red : decodeWords [0xB100021E, 0x1C81B840, 0x00000000] = some (.red ⟨false, 0⟩ .add .n32 false .none .dev 2 ⟨4, .v 2, 0⟩ (.inl 1)) := by decide
theorem test_decode_poll : decodeWords [0x310A0222, 0x5C1585C2, 0x00000000] = some (.poll ⟨false, 0⟩ .n32 .ge .acq .dev 0 (.v 10) ⟨4, .v 8, 0⟩ (.v 23)) := by decide
theorem test_decode_fence : decodeWords [0x00000225, 0x9C000000] = some (.fence ⟨false, 0⟩ .rel .dev 0) := by decide
theorem test_decode_pref : decodeWords [0xF080022A, 0x01060000, 0x00000040] = some (.pref ⟨false, 0⟩ .f32 true 4 ⟨2, .v 3, 64⟩) := by decide
theorem test_decode_discard : decodeWords [0x31C0022D, 0x00000000] = some (.discard ⟨false, 0⟩ 0 7) := by decide
theorem test_decode_waitc : decodeWords [0x00000232, 0x00000000, 0x00000002] = some (.waitc ⟨false, 0⟩ 2 0 0 0) := by decide
theorem test_decode_cpy : decodeWords [0x300EC283, 0x15403331, 0x00000100, 0x00000000] = some (.cpy ⟨false, 0⟩ ⟨0, .sec, 5, true, false, false⟩ 14 (.k 0) (.k 4) (.k 12)) := by decide
theorem test_decode_cpg : decodeWords [0xB049C287, 0x880030F0, 0x000005C4, 0x00000010] = some (.cpg ⟨false, 0⟩ ⟨2, .blk, 0, true, false, true⟩ 9 (.k 1) (.k 2) (.k 3) (.k 4) 16) := by decide
theorem test_decode_cpm : decodeWords [0x300EC28B, 0x0C803331, 0x000000CD, 0x00000000] = some (.cpm ⟨false, 0⟩ ⟨0, .gang, 2, false, false, false⟩ 14 (.k 0) (.k 4) (.k 12) (.k 13)) := by decide
theorem test_decode_cpyr : decodeWords [0xB046C28F, 0x1C023A70, 0x00000200, 0x00000000] = some (.cpyr ⟨false, 0⟩ .f32 ⟨0, .dev, 0, false, true, false⟩ 6 (.k 1) (.k 2) (.inl 9)) := by decide
theorem test_decode_cpyo : decodeWords [0x34CEC293, 0x48003375, 0x000000D6, 0x00000000] = some (.cpyo ⟨false, 0⟩ ⟨1, .blk, 0, false, false, false⟩ 14 (.k 19) (.k 20) (.k 13) (.k 22)) := by decide
theorem test_decode_cpya : decodeWords [0x30C2C297, 0xEFC03831, 0x000000C5, 0x00000000] = some (.cpya ⟨false, 0⟩ ⟨3, .sys, 15, false, false, false⟩ 2 (.k 3) (.k 4) (.inl 0) (.k 5)) := by decide
theorem test_decode_qfence : decodeWords [0x00000299, 0x0C000000] = some (.qfence ⟨false, 0⟩ 3) := by decide
theorem test_decode_join : decodeWords [0x3380C29D, 0x00000000] = some (.join ⟨false, 0⟩ 0 (.k 14)) := by decide
theorem test_decode_test : decodeWords [0x3382C2A1, 0x00000000] = some (.test ⟨false, 0⟩ 2 (.k 14)) := by decide
theorem test_decode_cancel : decodeWords [0x33C3C2A5, 0x00000000] = some (.cancel ⟨false, 0⟩ 3 (.k 15)) := by decide
theorem test_decode_waitany : decodeWords [0x3404C2A9, 0x00000000] = some (.waitany ⟨false, 0⟩ 4 (.k 16)) := by decide
theorem test_decode_waitall : decodeWords [0x3AC5C2AD, 0x00000000] = some (.waitall ⟨false, 0⟩ 5 (.inl 11)) := by decide
theorem test_decode_ffr : decodeWords [0x3446C2B1, 0x00000000] = some (.ffr ⟨false, 0⟩ 6 (.k 17)) := by decide
theorem test_decode_oclaim : decodeWords [0x3409C2C1, 0x00000000] = some (.oclaim ⟨false, 0⟩ 9 (.k 16)) := by decide
theorem test_decode_orel : decodeWords [0xF24002C5, 0x00000038] = some (.orel ⟨false, 0⟩ (.k 9) (.inl 3)) := by decide
theorem test_decode_aclaim : decodeWords [0x388AC2C9, 0x00000000] = some (.aclaim ⟨false, 0⟩ 10 (.inl 2)) := by decide
theorem test_decode_arel : decodeWords [0x728002CD, 0x00000038] = some (.arel ⟨false, 0⟩ (.k 10) (.inl 1)) := by decide
theorem test_decode_mloop : decodeWords [0x728EC2D3, 0x0002B6B2, 0x05A11001, 0x000000CC] = some (.mloop ⟨false, 0⟩ .bf16 .bf16 0 14 (.k 10) (.k 9) (.k 26) 1 1 1 (.tri (.k 12) .ninf)) := by decide
theorem test_decode_mzero : decodeWords [0x328EC2D5, 0xC0000000] = some (.mzero ⟨false, 0⟩ 3 14 (.k 10)) := by decide
theorem test_decode_mrowsc : decodeWords [0xF4CEC2D9, 0x00000036] = some (.mrowsc ⟨false, 0⟩ 0 14 (.k 19) (.k 27)) := by decide
theorem test_decode_bar : decodeWords [0x00000301, 0x480C0000] = some (.bar ⟨false, 0⟩ .gang 3 .blk) := by decide
theorem test_decode_arrive : decodeWords [0x0006C306, 0x9D040000, 0x000001F4] = some (.arrive ⟨false, 0⟩ .launch 1 .dev 6 (.imm 500)) := by decide
theorem test_decode_await : decodeWords [0x31800309, 0x003C0000] = some (.await ⟨false, 0⟩ .blk 15 .lane (.k 6)) := by decide
theorem test_decode_yield : decodeWords [0x00003F0D, 0x00000000] = some (.yield ⟨true, 7⟩) := by decide
theorem test_decode_mfs : decodeWords [0x0003C311, 0x40000000] = some (.mfs ⟨false, 0⟩ 3 .coreid) := by decide
theorem test_decode_mts : decodeWords [0x30C00315, 0x20000000] = some (.mts ⟨false, 0⟩ .tvec (.k 3)) := by decide
theorem test_decode_mode : decodeWords [0x70800319, 0x00000031] = some (.mode ⟨false, 0⟩ (.k 2) (.k 5)) := by decide
theorem test_decode_qxfer : decodeWords [0x3843C31D, 0x00300000] = some (.qxfer ⟨false, 0⟩ 3 (.inl 1) 12) := by decide
theorem test_decode_trap : decodeWords [0x00000321, 0xFC000000] = some (.trap ⟨false, 0⟩ 63) := by decide
theorem test_decode_rft : decodeWords [0x00000325, 0x00000000] = some (.rft ⟨false, 0⟩) := by decide
theorem test_decode_snap : decodeWords [0x0005C329, 0x00000000] = some (.snap ⟨false, 0⟩ 5) := by decide
theorem test_decode_brk : decodeWords [0x0000032D, 0x24000000] = some (.brk ⟨false, 0⟩ 9) := by decide
theorem test_decode_launch : decodeWords [0x310EC331, 0xC0000000] = some (.launch ⟨false, 0⟩ true true 14 4) := by decide

/-! ## Small states -/

/-- One group of 16 lanes, converged, about to issue, as after a launch of one block (assumption 6). -/
def w0 : State := State.reset.withFetchWord 64 0x0000803900410041

/-- A state's current path. -/
def curOf (s : State) : Cur := s.cur.getD { g := 0, arm := 0, grp := groupReset, path := pathReset }

/-- Group 0 of `w0`, changed. -/
def wg (f : Group → Group) : State := w0.modGroup 0 f

/-- Group 0 of `w0` on its path with more of the machine changed. -/
def wp (f : Path → Path) : State := w0.modPath 0 0 f

/-- Group 0 after an instruction. -/
def after (i : Instr) (f : Group → Group) : Group :=
  match exec i (wg f) with
  | .next t => t.grpOf 0
  | _ => groupReset

/-- Registers of a lane set by number: `v` registers in every lane. -/
def vs (l : List (Nat × W32)) (G : Group) : Group :=
  l.foldl (fun G q => (List.range 16).foldl (fun G l => G.put l (.v q.1) q.2) G) G

/-- `v4` and predicate 1 of lane 3 await an access. -/
def pendG (G : Group) : Group :=
  { G with pend := [{ lane := 3, loc := .v 4, owners := [(9, .v 4)] }, { lane := 3, loc := .p 1, owners := [(9, .p 1)] }] }

/-- A residual entry of lane 3 that is satisfied. -/
def resid0 : Resid :=
  { id := 5, arm := 0, pc := 0, instr := .iadd p0 .i32 (.v 1) (.v 2) (.v 4), words := [], mask := 8, gcap := none
    caps := [{ reg := none, vals := [], bad := 0, await := [] }, { reg := none, vals := [], bad := 0, await := [] }]
    olds := [], wb := [], after := [], failed := false, done := false, result := [] }

/-- The residual file full, a source pending, `DEFM` set. -/
def fullG (G : Group) : Group := { pendG G with gctl := 0x601, resid := List.replicate 16 resid0 }

/-! ## What the hypotheses of the statements meet -/

theorem lane_ready : LaneReady w0 (curOf w0) p0 [srcTy .i32 (.v 1), srcTy .i32 (.v 4)] [] :=
  ⟨by decide, by decide, by decide, by decide, rfl, by decide⟩

theorem uni_ready : UniReady w0 (curOf w0) p0 [(.k64, .k 31), (.k64, .inl 6)] [] :=
  ⟨by decide, by decide, by decide, rfl, by decide⟩

theorem fresh : Fresh w0 (curOf w0) p0 true := ⟨by decide, by decide, by decide, fun _ => by decide, rfl, by decide⟩

theorem fresh' : Fresh w0 (curOf w0) p0 false := ⟨by decide, by decide, by decide, fun _ => by decide, rfl, by decide⟩

theorem test_meets_StepGoesOn : State.reset.turnOk ∧ w0.turnOk :=
  ⟨(by decide : isEvent .slackClockTick = true), (by decide : (w0.path? 0 0).isSome = true)⟩

theorem test_meets_StepRuns : (w0.cur = some (curOf w0) ∧ (curOf w0).path.trap = none ∧ (curOf w0).grp.failedOf 0 = none
      ∧ (curOf w0).grp.nextEntry 0 = none ∧ (curOf w0).path.st ≠ .atRecon ∧ (curOf w0).path.st ≠ .held ∧ (curOf w0).path.late = none
      ∧ (curOf w0).grp.atPoint 0 = false
      ∧ w0.icBlock 0 (curOf w0).grp.launch 0 = some (blockBytes 64 0x0000803900410041)
      ∧ decodeAt (blockBytes 64 0x0000803900410041) 0 = .instr (.iadd p0 .i32 (.v 1) (.v 1) (.inl 4)) 8)
    ∧ State.reset.turn = .event .slackClockTick := by decide

theorem test_meets_IntegerArithmetic : LaneReady w0 (curOf w0) p0 [srcTy .i64 (.v 14)] []
    ∧ LaneReady w0 (curOf w0) p0 [srcTy .i32 (.v 1), srcTy .i32 .lat] []
    ∧ LaneReady w0 (curOf w0) p0 [srcTy .n8 (.v 15), srcTy .n8 (.o 63), srcTy .n8 (.imm 0xFFFFFFFF)] []
    ∧ LaneReady w0 (curOf w0) ⟨true, 7⟩ [srcTy .i64 (.v 2), srcOne (.v 1)] [] :=
  ⟨⟨by decide, by decide, by decide, by decide, rfl, by decide⟩, ⟨by decide, by decide, by decide, by decide, rfl, by decide⟩,
    ⟨by decide, by decide, by decide, by decide, rfl, by decide⟩, ⟨by decide, by decide, by decide, by decide, rfl, by decide⟩⟩

theorem test_meets_LogicAndMoves : LaneReady w0 (curOf w0) p0 [srcTy .n32 (.v 1), srcTy .n32 (.v 15), .pred 7] []
    ∧ LaneReady w0 (curOf w0) p0 [srcTy .n32 (.imm 5)] [] :=
  ⟨⟨by decide, by decide, by decide, by decide, rfl, by decide⟩, ⟨by decide, by decide, by decide, by decide, rfl, by decide⟩⟩

theorem test_meets_ShiftsAndFields : LaneReady w0 (curOf w0) p0 [srcTy .n64 (.v 2), srcTy .n64 (.v 4)] []
    ∧ LaneReady w0 (curOf w0) p0 [srcTy .n32 (.v 2), srcTy .n32 (.v 4), srcTy .n32 (.v 5)] []
    ∧ LaneReady w0 (curOf w0) p0 [srcTy .i8 (.k 3)] [] :=
  ⟨⟨by decide, by decide, by decide, by decide, rfl, by decide⟩, ⟨by decide, by decide, by decide, by decide, rfl, by decide⟩,
    ⟨by decide, by decide, by decide, by decide, rfl, by decide⟩⟩

/-- A value of zero; of one leading one; the highest bit; a field at bit 32 and one of width 0; the whole word and a field cut at bit 31. -/
theorem test_meets_BitFunctions : (0 : W64).toNat % 2 ^ Ty.n32.width = 0
    ∧ (0 < Ty.n32.width ∧ (1 : W64).toNat % 2 ^ Ty.n32.width < 2 ^ (0 + 1) ∧ 2 ^ 0 ≤ (1 : W64).toNat % 2 ^ Ty.n32.width)
    ∧ (63 < Ty.n64.width ∧ (0x8000000000000000 : W64).toNat % 2 ^ Ty.n64.width < 2 ^ (63 + 1)
      ∧ 2 ^ 63 ≤ (0x8000000000000000 : W64).toNat % 2 ^ Ty.n64.width)
    ∧ 32 ≤ bits (0x0120 : W64).toNat 0 8 ∧ bits (0x001F : W64).toNat 8 8 = 0
    ∧ 0 < min (bits (0x2000 : W64).toNat 8 8) (32 - bits (0x2000 : W64).toNat 0 8)
    ∧ min (bits (0xFF1F : W64).toNat 8 8) (32 - bits (0xFF1F : W64).toNat 0 8) = 1 := by decide

theorem test_meets_Predicates : LaneReady w0 (curOf w0) p0 [.pred 1, .pred 7] []
    ∧ LaneReady w0 (curOf w0) p0 [.pred 0] [] ∧ LaneReady w0 (curOf w0) p0 [srcTy .f32 (.v 1), srcOne (.inl 31)] [] :=
  ⟨⟨by decide, by decide, by decide, by decide, rfl, by decide⟩, ⟨by decide, by decide, by decide, by decide, rfl, by decide⟩,
    ⟨by decide, by decide, by decide, by decide, rfl, by decide⟩⟩

theorem test_meets_FloatArithmetic : LaneReady w0 (curOf w0) p0 [srcTy .f16x2 (.v 1)] []
    ∧ LaneReady w0 (curOf w0) p0 [srcTy .f32 (.v 1), srcTy .f32 (.inl 16)] []
    ∧ LaneReady w0 (curOf w0) p0 [srcTy .bf16x2 (.v 1), srcTy .bf16x2 (.v 2), srcTy .f32 (.v 3)] [] :=
  ⟨⟨by decide, by decide, by decide, by decide, rfl, by decide⟩, ⟨by decide, by decide, by decide, by decide, rfl, by decide⟩,
    ⟨by decide, by decide, by decide, by decide, rfl, by decide⟩⟩

theorem test_meets_FloatFunctions : LaneReady w0 (curOf w0) p0 [srcTy .e4m3 (.v 1)] []
    ∧ LaneReady w0 (curOf w0) p0 [srcTy .f32 (.v 1), srcTy .f32 (.o 0)] [] :=
  ⟨⟨by decide, by decide, by decide, by decide, rfl, by decide⟩, ⟨by decide, by decide, by decide, by decide, rfl, by decide⟩⟩

theorem test_meets_IntegerFloatConversion : LaneReady w0 (curOf w0) p0 [srcTy .i64 (.v 2)] []
    ∧ Ty.n32.lo ≤ 0 ∧ 0 ≤ Ty.n32.hi ∧ Ty.i64.lo ≤ 0 ∧ 0 ≤ Ty.i64.hi :=
  ⟨⟨by decide, by decide, by decide, by decide, rfl, by decide⟩, by decide⟩

theorem test_meets_LaneMovement : LaneReady w0 (curOf w0) p0 [srcFrom (.shift true) 0 .i32 (.v 1), srcTy .i32 (.v 2), srcOne (.inl 15)] []
    ∧ LaneReady w0 (curOf w0) p0 [srcFrom .swz 1 .n64 (.v 2), srcTy .n64 (.v 4)] [] ∧ LaneReady w0 (curOf w0) p0 [srcTy .n32 (.v 1)] [] :=
  ⟨⟨by decide, by decide, by decide, by decide, rfl, by decide⟩, ⟨by decide, by decide, by decide, by decide, rfl, by decide⟩,
    ⟨by decide, by decide, by decide, by decide, rfl, by decide⟩⟩

theorem test_meets_Uniform : UniReady w0 (curOf w0) p0 [] [] ∧ UniReady w0 (curOf w0) p0 [(.k64, .k 0)] []
    ∧ UniReady w0 (curOf w0) p0 [(.k64, .k 31), (.k64, .inl 6)] [] ∧ UniReady w0 (curOf w0) p0 [(.k64, .k 1), (.k64, .k 2), (.k64, .k 3)] [] :=
  ⟨⟨by decide, by decide, by decide, rfl, by decide⟩, ⟨by decide, by decide, by decide, rfl, by decide⟩, uni_ready,
    ⟨by decide, by decide, by decide, rfl, by decide⟩⟩

theorem test_meets_LaneToUniform : UniReady (wg pendG) (curOf (wg pendG)) p0 [(.ty .n32, .inl 15)] []
    ∧ (∀ q ∈ (curOf (wg pendG)).grp.srcLocs 15 (.ty .n32) (.v 4), (curOf (wg pendG)).grp.isPend 15 q.2 = false
      ∧ (curOf (wg pendG)).grp.isBad 15 q.2 = false)
    ∧ (∃ q ∈ (curOf (wg pendG)).grp.srcLocs 3 (.ty .n32) (.v 4), (curOf (wg pendG)).grp.isPend 3 q.2 = true)
    ∧ UniReady (wg pendG) (curOf (wg pendG)) p0 [] []
    ∧ (∀ l ∈ ((curOf (wg pendG)).act p0).list, (curOf (wg pendG)).grp.isPend l (.p 2) = false)
    ∧ ∃ l ∈ ((curOf (wg pendG)).act p0).list, (curOf (wg pendG)).grp.isPend l (.p 1) = true :=
  ⟨⟨by decide, by decide, by decide, rfl, by decide⟩, by decide, by decide, ⟨by decide, by decide, by decide, rfl, by decide⟩, by decide,
    by decide⟩

/-- No lane is enabled; or all are. -/
theorem test_meets_NoActiveLane : ((wg fun G => { G with exm := 0 }).cur = some (curOf (wg fun G => { G with exm := 0 }))
      ∧ (curOf (wg fun G => { G with exm := 0 })).guardWaits p0 = 0 ∧ (curOf (wg fun G => { G with exm := 0 })).act p0 = 0
      ∧ (curOf (wg fun G => { G with exm := 0 })).path.onChip = true)
    ∧ UniReady w0 (curOf w0) p0 [] [] :=
  ⟨by decide, by decide, by decide, by decide, rfl, by decide⟩

theorem test_meets_SystemWrites : (w0.cur = some (curOf w0) ∧ (curOf w0).maskWaits p0 = false ∧ (curOf w0).path.onChip = true
      ∧ w0.cwFor (curOf w0) ((curOf w0).maskLanes p0) [.op .k64 (.k 1) none] = (w0, .ok []) ∧ (curOf w0).drained = true)
    ∧ (curOf (wg fullG)).drained = false ∧ (wg fullG).cur = some (curOf (wg fullG)) ∧ (curOf (wg fullG)).maskWaits p0 = false
    ∧ UniReady w0 (curOf w0) p0 [(.k64, .k 3)] [] ∧ UniReady w0 (curOf w0) p0 [(.k64, .inl 0), (.k64, .inl 1)] []
    ∧ UniReady w0 (curOf w0) p0 [(.k64, .inl 0), (.k64, .inl 4)] []
    ∧ ((curOf w0).karg [] .k64 (.inl 4)).getLsbD 0 = false ∧ ((curOf w0).karg [] .k64 (.inl 1)).getLsbD 0 = true
    ∧ SysReg.gstat.writable = false ∧ SysReg.tpc.writable = true :=
  ⟨⟨by decide, by decide, by decide, rfl, by decide⟩, by decide, by decide, by decide, ⟨by decide, by decide, by decide, rfl, by decide⟩,
    ⟨by decide, by decide, by decide, rfl, by decide⟩, ⟨by decide, by decide, by decide, rfl, by decide⟩, by decide, by decide, by decide, by decide⟩

def sd : State := wg fun G => { pendG G with gctl := 0x601 }

/-- A deferred local access of lane 3 whose offset is pending. -/
def near0 (i : Instr) (n : Nat) : Resid :=
  { resid0 with instr := i, caps := [⟨none, [], 0, []⟩, ⟨none, [], 0, [(3, false, 9, .v 4)]⟩] ++ List.replicate n ⟨none, [], 0, []⟩ }

/-- A deferred local store stands in the residual file. -/
def sn (i : Instr) (n : Nat) : State := wg fun G => { pendG G with gctl := 0x601, resid := [near0 i n] }

def snl : State := sn (.stl p0 .n32 .none .lane 0 ⟨0, .v 4, 0⟩ (.v 1)) 1

/-- A pending source with `DEFM` clear; a pending guard; and with `DEFM` set, the file empty, and with one entry free; a load behind a
deferred store. -/
theorem test_meets_PendingSources : ((wg pendG).cur = some (curOf (wg pendG)) ∧ (curOf (wg pendG)).grp.defm = false
      ∧ (wg pendG).cwFor (curOf (wg pendG)) ((curOf (wg pendG)).act p0 ||| (curOf (wg pendG)).guardWaits p0) [srcTy .i32 (.v 4), srcTy .i32 (.v 1)]
        = (wg pendG, .ok []) ∧ (curOf (wg pendG)).srcsWait 0 ((curOf (wg pendG)).act p0) [srcTy .i32 (.v 4), srcTy .i32 (.v 1)] = true
      ∧ (curOf (wg pendG)).guardWaits ⟨false, 1⟩ ≠ 0)
    ∧ (sd.cur = some (curOf sd) ∧ (curOf sd).grp.defm = true ∧ (curOf sd).grp.residUsed < 16 ∧ (curOf sd).guardWaits p0 = 0
      ∧ (curOf sd).path.onChip = true ∧ sd.cwFor (curOf sd) ((curOf sd).act p0) [srcTy .i32 (.v 1), srcTy .i32 (.v 4)] = (sd, .ok [])
      ∧ (curOf sd).srcsWait 0 ((curOf sd).act p0) [srcTy .i32 (.v 1), srcTy .i32 (.v 4)] = true)
    ∧ laneOpOf (.iadd p0 .i32 (.v 2) (.v 1) (.v 4)) = some (iaddOp p0 .i32 (.v 2) (.v 1) (.v 4))
    ∧ (let op := ldOp p0 .n32 .none .lane 0 (.v 1) ⟨0, .v 4, 0⟩
       memOpOf (.ld p0 .n32 .none .lane 0 (.v 1) ⟨0, .v 4, 0⟩) = some op ∧ op.drains = false ∧ (curOf sd).path.prog = .none
        ∧ (curOf sd).srcsWait 0 ((curOf sd).act p0) op.srcs = true)
    ∧ (snl.cur = some (curOf snl) ∧ (curOf snl).grp.defm = true ∧ (curOf snl).grp.residUsed < 16 ∧ (curOf snl).path.onChip = true
      ∧ snl.mustFollow (curOf snl) memOpOf (ldlOp p0 .n32 .none .lane 0 (.v 1) ⟨0, .v 7, 0⟩)
          ((curOf snl).act p0 ||| (curOf snl).guardWaits p0) ≠ []) :=
  ⟨⟨by decide, by decide, rfl, by decide, by decide⟩, ⟨by decide, by decide, by decide, by decide, by decide, rfl, by decide⟩, rfl, by decide,
    by decide⟩

def sf (ovft : Bool) : State := wg fun G => { fullG G with gctl := if ovft then 0x603 else 0x601 }

theorem test_meets_FullResidualFile : ∀ b : Bool, (sf b).cur = some (curOf (sf b)) ∧ (curOf (sf b)).grp.defm = true
    ∧ 16 ≤ (curOf (sf b)).grp.residUsed
    ∧ (∃ op w, laneOpOf (.iadd p0 .i32 (.v 2) (.v 1) (.v 4)) = some op
      ∧ (sf b).cwFor (curOf (sf b)) ((curOf (sf b)).act op.guard ||| (curOf (sf b)).guardWaits op.guard) op.srcs = (sf b, .ok w)
      ∧ (curOf (sf b)).srcsWait 0 ((curOf (sf b)).act op.guard) op.srcs = true)
    ∧ (∃ op, memOpOf (.ldl p0 .n32 .none .lane 0 (.v 2) ⟨0, .v 4, 0⟩) = some op ∧ op.drains = false
      ∧ (curOf (sf b)).srcsWait 0 ((curOf (sf b)).act op.guard) op.srcs = true)
    ∧ (curOf (sf b)).grp.ovft = b
  | true => ⟨by decide, by decide, by decide, ⟨_, [], rfl, rfl, by decide⟩, ⟨_, rfl, by decide, by decide⟩, by decide⟩
  | false => ⟨by decide, by decide, by decide, ⟨_, [], rfl, rfl, by decide⟩, ⟨_, rfl, by decide, by decide⟩, by decide⟩

/-- Predicate 1 holds in lanes 0 to 7. -/
def halfG (G : Group) : Group := { G with p := [(1, 0x00FF)] }

def noneG (G : Group) : Group := { G with exm := 0 }

/-- Two arms: lanes 0 to 11 at address 0 with the entries given, the others at 0x80, before or at the group's reconvergence point. -/
def armsG (recon : W64) (ents : Tab DivE) (met : Bool) (G : Group) : Group :=
  { halfG G with
    recon := recon
    arms := [{ pathReset with lanes := 0x0FFF, stack := ents.map Prod.fst, ents := ents },
             { pathReset with lanes := 0xF000, pc := if met then recon else 0x80, st := if met then .atRecon else .ready }] }

/-- An entry whose deferred side, lanes 8 to 11, stands at 0x40, or has come to the point at 8. -/
def entry0 (second : Bool) : DivE :=
  { recon := 8, other := { pc := if second then 8 else 0x40, lanes := 0x0F00, stack := [], prog := .none }, second := second, spill := none }

def wn (recon : W64) (ents : Tab DivE) (met : Bool) : State := wg (armsG recon ents met)

/-- A `BRA` of a diverged group, an entry at its point for the first and the second time, an arm at its point before and after the other. -/
theorem test_meets_Branches_stack :
    (let c := curOf (wn 0x500 [] false)
     (wn 0x500 [] false).cur = some c ∧ c.guardWaits ⟨false, 1⟩ = 0 ∧ c.act ⟨false, 1⟩ ≠ 0 ∧ c.grp.exmOf c.path &&& ~~~ c.act ⟨false, 1⟩ ≠ 0
      ∧ c.grp.arms.length = 2 ∧ c.grp.onChip.length < 16 ∧ c.nextPc (.bra ⟨false, 1⟩ 0x40 0x80) ≠ c.path.pc + (0x80 : W32).signExtend 64)
    ∧ (let s := wn 0x500 [(3, entry0 false)] false
       UniReady s (curOf s) p0 [] [] ∧ (curOf s).path.stack = [3] ∧ look (curOf s).path.ents 3 = some (entry0 false)
        ∧ (curOf s).nextPc (.nop p0) = 8 ∧ (entry0 false).other.pc ≠ 8 ∧ (entry0 false).other.lanes &&& ~~~ (curOf s).grp.exited ≠ 0)
    ∧ (let s := wn 0x500 [(3, entry0 true)] false
       let c := curOf s
       UniReady s c p0 [] [] ∧ look c.path.ents 3 = some (entry0 true)
        ∧ c.grp.clearAt { c.at s 8 with lanes := c.path.lanes ||| 0x0F00, stack := [], ents := del c.path.ents 3 } = true)
    ∧ ∀ met : Bool, let s := wn 8 [] met
       UniReady s (curOf s) p0 [] [] ∧ (curOf s).path.stack = [] ∧ (curOf s).grp.recon = 8 ∧ (curOf s).grp.arms.length = 2
        ∧ ((curOf s).grp.arms.map fun p => p.st == .atRecon) = [false, met] :=
  ⟨by decide, ⟨⟨by decide, by decide, by decide, rfl, by decide⟩, by decide⟩,
    ⟨⟨by decide, by decide, by decide, rfl, by decide⟩, by decide⟩,
    fun | true => ⟨⟨by decide, by decide, by decide, rfl, by decide⟩, by decide⟩
        | false => ⟨⟨by decide, by decide, by decide, rfl, by decide⟩, by decide⟩⟩

theorem test_meets_Branches : ((wg noneG).cur = some (curOf (wg noneG)) ∧ (curOf (wg noneG)).act p0 = 0)
    ∧ (w0.cur = some (curOf w0) ∧ (curOf w0).guardWaits p0 = 0 ∧ (curOf w0).path.onChip = true ∧ (curOf w0).act p0 ≠ 0
      ∧ (curOf w0).grp.exmOf (curOf w0).path &&& ~~~ (curOf w0).act p0 = 0)
    ∧ let c := curOf (wg halfG)
      (wg halfG).cur = some c ∧ c.guardWaits ⟨false, 1⟩ = 0 ∧ c.act ⟨false, 1⟩ ≠ 0 ∧ c.grp.exmOf c.path &&& ~~~ c.act ⟨false, 1⟩ ≠ 0
        ∧ c.grp.arms = [c.path] ∧ c.path.stack = [] ∧ c.arm = 0
        ∧ c.path.pc + (0x40 : W32).signExtend 64 ≠ c.path.pc + (0x80 : W32).signExtend 64
        ∧ c.nextPc (.bra ⟨false, 1⟩ 0x40 0x80) ≠ c.path.pc + (0x80 : W32).signExtend 64 := by decide

/-- A comparison that holds and one that does not; a pending register and one that is not; a count of 1 and of 0. -/
theorem test_meets_UniformBranches : (wg pendG).cur = some (curOf (wg pendG)) ∧ (curOf (wg pendG)).path.onChip = true
    ∧ cmpK .eq false ((curOf w0).grp.kopnd 0 .k64 (.k 1)) ((curOf w0).grp.kopnd 0 .k64 (.k 2)) = true
    ∧ cmpK .ne false ((curOf w0).grp.kopnd 0 .k64 (.k 1)) ((curOf w0).grp.kopnd 0 .k64 (.k 2)) = false
    ∧ (curOf (wg pendG)).namePend (.reg (.v 4)) = true ∧ (curOf (wg pendG)).namePend (.reg (.v 5)) = false
    ∧ (curOf (wg fun G => { G with k := [(1, 1)] })).grp.kr 1 - 1 = 0 ∧ (curOf w0).grp.kr 1 - 1 ≠ 0 := by decide

/-- The last window base a call may slide from. -/
def callG (G : Group) : Group :=
  { G with quota := 40, base := (List.range 16).map fun l => (l, 65496), floor := (List.range 16).map fun l => (l, 65496)
           k := [(3, 0xFFFFFFFC)] }

/-- Every lane returns to 0x40, from a window slid by 8. -/
def retG (G : Group) : Group :=
  { vs [(7, 0x41)] G with base := (List.range 16).map fun l => (l, 8) }

theorem test_meets_CallsAndReturns :
    (let c := curOf (wg callG)
     (wg callG).cur = some c ∧ c.guardWaits p0 = 0 ∧ c.act p0 ≠ 0 ∧ c.path.onChip = true ∧ c.grp.exmOf c.path &&& ~~~ c.act p0 = 0
      ∧ (c.path.pc + (0x7FFFFFFC : W32).signExtend 64).extractLsb' 32 25 = (c.nextPc (.call p0 1 0x7FFFFFFC)).extractLsb' 32 25
      ∧ (c.path.pc + (0x7FFFFFFC : W32).signExtend 64).extractLsb' 0 2 = 0
      ∧ (c.grp.kr 3).extractLsb' 32 25 = (c.nextPc (.calli p0 1 3)).extractLsb' 32 25 ∧ (c.grp.kr 3).extractLsb' 0 2 = 0
      ∧ (∀ l ∈ (c.act p0).list, c.grp.D l + 8 * (1 : BitVec 2).toNat + 31 ≤ 65535)
      ∧ ∀ l ∈ (c.act p0).list, c.grp.D l + 8 * (1 : BitVec 2).toNat + 32 - c.grp.F l ≤ c.grp.quota)
    ∧ (let c := curOf (wg retG)
       (wg retG).cur = some c ∧ c.guardWaits p0 = 0 ∧ c.act p0 ≠ 0 ∧ c.path.onChip = true
      ∧ c.grp.exmOf c.path &&& ~~~ c.act p0 = 0
      ∧ ∀ l ∈ (c.act p0).list, 0 < c.grp.D l ∧ c.grp.isPend l (.v (c.grp.D l - 1)) = false
        ∧ retAddr c.path.pc (c.grp.link l) = retAddr c.path.pc (c.grp.link (lowLane (c.act p0)))
        ∧ retBase (c.grp.D l) (c.grp.link l) = some 0 ∧ c.grp.F l ≤ 0 ∧ c.grp.F l ≤ c.grp.D l - 1) := by decide

theorem test_meets_LaneEnd : Fresh (wg halfG) (curOf (wg halfG)) ⟨false, 1⟩ true ∧ Fresh (wg halfG) (curOf (wg halfG)) p0 true
    ∧ (curOf (wg halfG)).grp.inTrap = none ∧ (curOf (wg halfG)).grp.arms = [(curOf (wg halfG)).path]
    ∧ (curOf (wg halfG)).path.stack = [] ∧ (curOf (wg halfG)).path.ents = []
    ∧ (curOf (wg halfG)).grp.liveOf (curOf (wg halfG)).path &&& ~~~ (curOf (wg halfG)).act ⟨false, 1⟩ ≠ 0
    ∧ (curOf (wg halfG)).grp.liveOf (curOf (wg halfG)).path &&& ~~~ (curOf (wg halfG)).act p0 = 0
    ∧ (curOf (wg halfG)).grp.exm &&& ~~~ (curOf (wg halfG)).act ⟨false, 1⟩ ≠ 0
    ∧ (curOf (wg halfG)).grp.exm &&& ~~~ (curOf (wg halfG)).act p0 = 0 :=
  ⟨⟨by decide, by decide, by decide +kernel, fun _ => by decide +kernel, rfl, by decide +kernel⟩, ⟨by decide, by decide, by decide +kernel, fun _ => by decide +kernel, rfl, by decide +kernel⟩,
    by decide⟩

/-! ### Memory -/

/-- Home 0 of device 0 takes addresses below 2^41; the core may read, write and run them as domain 0x0000; page 0, where the trap frames
stand, is a structure page. -/
def wm : State :=
  (((w0.setFw { w0.fw with dist := [(0, 0x8000000000000100)], devs := [0] }).modCore 0 fun K =>
    { K with ts := [(0, [0xF + (0x1FFFFFFFFFF <<< 80)])] }).modHome 0 fun hm => { hm with structs := [1 <<< 63] })

/-- The stores of a trap's frame. -/
def frameOf (s : State) (t : TrapReq) : State × Got :=
  (s.modPath (curOf s).g (curOf s).arm fun p => { p with trap := some t, st := .ready }).gWrites (curOf s).g (curOf s).arm
    (s.frameBase (curOf s).g (s.domOf (curOf s).grp.launch))
    ((curOf s).grp.frame (curOf s).path ((t.detail ++ t.cause).zeroExtend 64) (t.tpc &&& ~~~ 3#64) (t.taddr.getD (curOf s).grp.taddr)
      (if t.entry.isSome then (curOf s).path.pc else t.resume))

theorem trap_ready (s : State) (t : TrapReq)
    (h : s.cur = some (curOf s) ∧ (curOf s).grp.trapReady (curOf s).arm t = true ∧ (curOf s).grp.inTrap = none
      ∧ (frameOf s t).2 = .ok [] ∧ ((frameOf s t).1.path? (curOf s).g (curOf s).arm).isSome = true) :
    TrapReady s (curOf s) t (frameOf s t).1 :=
  ⟨h.1, h.2.1, h.2.2.1, Prod.ext rfl h.2.2.2.1, h.2.2.2.2⟩

def trap14 : TrapReq := { cause := 0x0E, detail := 63, tpc := 8, taddr := none, resume := 8, entry := none }
def trap13 : TrapReq := { cause := 0x0D, detail := 0, tpc := 8, taddr := none, resume := 8, entry := none }
def trap1 : TrapReq := { cause := 1, detail := 0, tpc := 0, taddr := none, resume := 0, entry := none }

/-- Breaks enabled. -/
def wmb : State := wm.modGroup 0 fun G => { G with gctl := 0x1600 }

/-- A trap raised. -/
def wmt : State := wm.modPath 0 0 fun p => { p with trap := some trap14, st := .ready }

/-- A zeroed word at the path's pc. -/
def wmi : State := wm.modCore 0 fun K => { K with icache := [(icKey 1 0, List.replicate 32 0)] }

theorem test_meets_TrapsTaken :
    (Fresh wm (curOf wm) p0 true ∧ TrapReady wm (curOf wm) trap14 ((frameOf wm trap14).1))
    ∧ (Fresh wmb (curOf wmb) p0 false ∧ TrapReady wmb (curOf wmb) trap13 ((frameOf wmb trap13).1) ∧ (curOf wmb).grp.brke = true)
    ∧ (Fresh wm (curOf wm) p0 false ∧ (curOf wm).grp.brke = false)
    ∧ (TrapReady wmt (curOf wmt) trap14 ((frameOf wmt trap14).1) ∧ (wmt.modPath 0 0 fun p => { p with trap := some trap14, st := .ready }) = wmt
      ∧ (curOf wmt).grp.failedOf 0 = none ∧ (curOf wmt).arm < 2)
    ∧ (TrapReady wmi (curOf wmi) trap1 ((frameOf wmi trap1).1)
      ∧ (curOf wmi).path.trap = none ∧ (curOf wmi).grp.failedOf 0 = none ∧ (curOf wmi).grp.nextEntry 0 = none ∧ (curOf wmi).path.st ≠ .atRecon
      ∧ (curOf wmi).path.st ≠ .held ∧ (curOf wmi).path.late = none ∧ (curOf wmi).grp.atPoint 0 = false
      ∧ wmi.icBlock 0 (curOf wmi).grp.launch (curOf wmi).path.pc = some (List.replicate 32 0)
      ∧ decodeAt (List.replicate 32 0) ((curOf wmi).path.pc.toNat % 32) = .illegal) :=
  ⟨⟨⟨by decide, by decide, by decide +kernel, fun _ => by decide +kernel, rfl, by decide +kernel⟩,
      trap_ready _ _ (by decide +kernel)⟩,
    ⟨⟨by decide, by decide, by decide +kernel, fun _ => by decide +kernel, rfl, by decide +kernel⟩,
      trap_ready _ _ (by decide +kernel), by decide⟩,
    ⟨⟨by decide, by decide, by decide +kernel, fun _ => by decide +kernel, rfl, by decide +kernel⟩, by decide +kernel⟩,
    ⟨trap_ready _ _ (by decide +kernel), by decide +kernel, by decide +kernel⟩,
    trap_ready _ _ (by decide +kernel), by decide +kernel⟩

/-- A group in a handler, its frame at address 0. -/
def handlerG (G : Group) : Group :=
  { G with inTrap := some { arm := 0, other := false, lanes := 0xFFFF, frame := 0, resume := 8, cause := 0x0E, gctl := 0x600, prog := .none
                            lat := { reg := none, vals := [], bad := 0, await := [] }, saved := [] } }

def wmh : State := wm.modGroup 0 handlerG

theorem test_meets_TrapEnds :
    (let s := wmt.modGroup 0 handlerG
     s.cur = some (curOf s) ∧ (curOf s).path.trap = some trap14 ∧ (curOf s).grp.trapReady 0 trap14 = true
      ∧ (curOf s).grp.inTrap.isSome = true ∧ trap14.atBoundary = false ∧ (curOf s).grp.failedOf 0 = none ∧ (curOf s).arm < 2 ∧ (s.launch? 1).isSome = true)
    ∧ Fresh w0 (curOf w0) p0 false ∧ (curOf w0).grp.inTrap = none
    ∧ Fresh wmh (curOf wmh) p0 false
    ∧ (curOf wmh).grp.residUsed ≤ Config.residCap
    ∧ ((curOf wmh).grp.inTrap.map fun t => (t.saved.length, t.cause != 0x0B, t.frame)) = some (0, true, 0)
    ∧ (wmh.gRead 0 0 0 0x50).2 = .ok (List.replicate 0x50 0)
    ∧ ((wmh.gRead 0 0 0 0x50).1.gRead 0 0 0x80 72).2 = .ok (List.replicate 72 0)
    ∧ ((wmh.gRead 0 0 0 0x50).1.gRead 0 0 0x80 72).1.groups = wmh.groups :=
  ⟨by decide +kernel, fresh', by decide, ⟨by decide, by decide, by decide +kernel, fun _ => by decide +kernel, rfl, by decide +kernel⟩, by decide +kernel⟩

/-! ### Memory instructions -/

def asked (s : State) (op : MemOp) : List LaneReq × List (Nat × Int) := op.ask ((curOf s).act op.guard) ((curOf s).vals 0 op.srcs)

/-- A memory instruction may issue, decided. -/
def memAsked (s : State) (op : MemOp) : Bool :=
  let c := curOf s
  s.cur == some c && c.guardWaits op.guard == 0 && c.act op.guard != 0 && !c.srcsWait 0 (c.act op.guard) op.srcs
    && c.poisons 0 (c.act op.guard) op.srcs == [] && s.mustFollow c memOpOf op (c.act op.guard) == [] && (!op.drains || c.drained)
    && c.path.prog == .none && c.path.onChip

/-- It is ready, decided. -/
def memReady (s : State) (op : MemOp) : Bool :=
  memAsked s op && s.memCheck (curOf s).core (curOf s).grp.launch (curOf s).grp.block op (asked s op).1 (asked s op).2 == none

/-- A memory instruction may issue, or is ready, with the requests it makes. -/
def MemMay (s : State) (op : MemOp) : Prop := MemAsked s (curOf s) op (asked s op).1 (asked s op).2

def MemMeets (s : State) (op : MemOp) : Prop := MemReady s (curOf s) op (asked s op).1 (asked s op).2

theorem mem_may (s : State) (op : MemOp) (h : memAsked s op = true) : MemMay s op := by
  simp only [memAsked, Bool.and_eq_true, beq_iff_eq, bne_iff_ne, Bool.not_eq_true', Bool.or_eq_true] at h
  obtain ⟨⟨⟨⟨⟨⟨⟨⟨a, b⟩, d⟩, e⟩, f⟩, k⟩, l⟩, n⟩, o⟩ := h
  exact ⟨a, b, d, e, f, k, fun x => by simpa [x] using l, rfl, n, o⟩

theorem mem_ready (s : State) (op : MemOp) (h : memReady s op = true) : MemMeets s op := by
  simp only [memReady, Bool.and_eq_true, beq_iff_eq] at h
  exact ⟨mem_may s op h.1, h.2⟩

/-- Lane numbers in `v7`; 512 bytes of local memory; 4,096 in `k5`, 1 in `k6`. -/
def wl : State :=
  (wm.modGroup 0 fun G =>
    let G := (List.range 16).foldl (fun (G : Group) l => G.put l (.v 7) (BitVec.ofNat 32 l)) G
    { G with k := [(5, 4096), (6, 1)] }).modLaunch 1 fun L => { L with lr := { L.lr with lmem := 512 } }

/-- Sixteen words, one line; a line for each lane; the last word of the window of local memory. -/
theorem test_meets_GlobalAccesses : MemMeets wl (ldOp p0 .n32 .none .lane 0 (.v 1) ⟨0, .v 7, 0⟩)
    ∧ MemMeets wl (ldOp p0 .n64 .acq .dev 15 (.v 2) ⟨5, .v 7, 0⟩)
    ∧ MemMeets wl (lduOp p0 .n64 .none .lane 0 (.v 2) ⟨5, .k 0, 0⟩)
    ∧ MemMeets wl (stOp p0 .n8 .rel .dev 0 ⟨0, .v 7, 0xFFFF⟩ (.v 1))
    ∧ MemMeets wl (atomOp p0 .cas .n32 false .none .dev 0 (.v 1) ⟨0, .v 7, 0⟩ (.v 2) (some (.v 3)))
    ∧ MemMeets wl (redOp p0 .add .n64 false .none .dev 0 ⟨0, .v 7, 0⟩ (.v 2))
    ∧ wl.hasRoom 0 (asked wl (ldOp p0 .n64 .acq .dev 15 (.v 2) ⟨5, .v 7, 0⟩)).1 = true :=
  ⟨mem_ready _ _ (by decide +kernel), mem_ready _ _ (by decide +kernel), mem_ready _ _ (by decide +kernel), mem_ready _ _ (by decide +kernel),
    mem_ready _ _ (by decide +kernel), mem_ready _ _ (by decide +kernel), by decide +kernel⟩

/-- Every lane's address misaligned by 2: the lowest lane is named. -/
theorem test_meets_AddressesChecked : (ldOp p0 .n32 .none .lane 0 (.v 1) ⟨0, .v 7, 2⟩).uniform = false
    ∧ (let op := ldOp p0 .n32 .none .lane 0 (.v 1) ⟨0, .v 7, 2⟩
       let c := curOf wl
       wl.cur = some c ∧ c.guardWaits p0 = 0 ∧ c.act p0 ≠ 0 ∧ c.srcsWait 0 (c.act p0) op.srcs = false ∧ c.poisons 0 (c.act p0) op.srcs = []
        ∧ wl.mustFollow c memOpOf op (c.act p0) = []
        ∧ ((op.ask (c.act p0) (c.vals 0 op.srcs)).1.find? fun q => q.addr % Ty.n32.size != 0) = some ⟨0, 2, 0, 0⟩)
    ∧ (let op := stOp p0 .n64 .rel .dev 0 ⟨0, .v 7, 4⟩ (.v 2)
       let c := curOf wl
       c.srcsWait 0 (c.act p0) op.srcs = false ∧ c.poisons 0 (c.act p0) op.srcs = [] ∧ wl.mustFollow c memOpOf op (c.act p0) = []
        ∧ c.drained = true
        ∧ ((op.ask (c.act p0) (c.vals 0 op.srcs)).1.find? fun q => q.addr % Ty.n64.size != 0) = some ⟨0, 4, 0, 0⟩) := by decide +kernel

/-- Aligned addresses outside local memory, or that no window of the core covers; a `POLL` that may wait, at a misaligned one; an atomic of
`.gang` scope on a gang-shared address that is not there. -/
theorem test_meets_AddressesChecked_forms :
    (let op := ldlOp p0 .n32 .none .lane 0 (.v 1) ⟨5, .v 7, 0⟩
     MemMay wl op ∧ ((asked wl op).1.all fun q => q.addr % 4 == 0) = true
      ∧ ((asked wl op).1.find? fun q => !(wl.localAt (curOf wl).grp.block q.addr 4).isSome) = some ⟨0, 4096, 0, 0⟩)
    ∧ (let op := atomOp p0 .add .n32 true .none .gang 0 (.v 1) ⟨0, .v 7, 0x80000200⟩ (.v 2) none
       let s := wl.modGroup 0 fun G => { G with k := [(1, 0x100000000)] }
       let op' := atomOp p0 .add .n32 true .none .gang 0 (.v 1) ⟨1, .v 7, 0x80000200⟩ (.v 2) none
       MemMay s op' ∧ ((asked s op').1.any fun q => op.nowhere q.addr) = false
        ∧ ((asked s op').1.find? fun q => !(s.localAt (curOf s).grp.block q.addr 4).isSome) = some ⟨0, 0x80000200, 0, 0⟩)
    ∧ (let s := wl.modGroup 0 fun G => { G with k := [(1, 1 <<< 56)] }
       let op := lduOp p0 .n32 .none .lane 0 (.v 1) ⟨1, .k 0, 0⟩
       MemMay s op ∧ (asked s op).1 = [⟨0, 2 ^ 56, 0, 0⟩] ∧ s.coreCheck (curOf s).core (curOf s).grp.launch op.acc (2 ^ 56) = none)
    ∧ (let op := pollOp p0 .n32 .ne .none .dev 0 (.v 1) ⟨0, .v 7, 2⟩ (.v 2)
       MemMay wl op ∧ wl.pollLegal (curOf wl).grp.launch .dev = true ∧ op.isPref = false ∧ op.space.isWin = false
        ∧ ((asked wl op).1.find? fun q => q.addr % 4 != 0) = some ⟨0, 2, 0, 0⟩) :=
  ⟨⟨mem_may _ _ (by decide +kernel), by decide +kernel⟩, ⟨mem_may _ _ (by decide +kernel), by decide +kernel⟩,
    ⟨mem_may _ _ (by decide +kernel), by decide +kernel⟩, mem_may _ _ (by decide +kernel), by decide +kernel⟩

theorem ready_here (s : State) (h : (curOf s).path.st = .ready) : ∀ n, (curOf s).path.st ≠ .waiting n := by
  intro n; rw [h]; simp

theorem test_meets_PollsAndPrefetches : MemMeets wl (pollOp p0 .n32 .ne .none .dev 0 (.v 1) ⟨0, .v 7, 0⟩ (.v 2))
    ∧ wl.hasRoom 0 (asked wl (pollOp p0 .n32 .ne .none .dev 0 (.v 1) ⟨0, .v 7, 0⟩ (.v 2))).1 = true
    ∧ wl.pollLegal (curOf wl).grp.launch .dev = true ∧ (∀ n, (curOf wl).path.st ≠ .waiting n)
    ∧ (let s := wl.modLaunch 1 fun L => { L with lr := { L.lr with pclass := 2 } }
       MemMay s (pollOp p0 .n32 .ne .none .dev 0 (.v 1) ⟨0, .v 7, 2⟩ (.v 2))
        ∧ s.pollLegal (curOf s).grp.launch .dev = false)
    ∧ (let s := wl.modPath 0 0 fun p => { p with prog := .stage 4 }
       s.cur = some (curOf s) ∧ (curOf s).path.prog = .stage 4 ∧ (curOf s).path.onChip = true)
    ∧ MemMay wl (prefOp p0 .n64 true 0 ⟨0, .v 7, 4⟩) ∧ wl.hasRoom 0 (asked wl (prefOp p0 .n64 true 0 ⟨0, .v 7, 4⟩)).1 = true :=
  ⟨mem_ready _ _ (by decide +kernel), by decide +kernel, by decide +kernel, ready_here _ (by decide +kernel),
    ⟨mem_may _ _ (by decide +kernel), by decide +kernel⟩, by decide +kernel, mem_may _ _ (by decide +kernel), by decide +kernel⟩

/-- The store of `test_meets_LocalStores`: lanes 0 and 15 to the first and the last word of 16. -/
def stl0 : MemOp := stlOp p0 .n32 .none .lane 0 ⟨0, .v 7, 0⟩ (.v 1)

theorem test_meets_LocalStores : MemMeets wl stl0 ∧ LocalNow wl (curOf wl) stl0
    ∧ (asked wl stl0).1 = (asked wl stl0).1.take 15 ++ (⟨15, 60, 0, 0⟩ : LaneReq) :: []
    ∧ wl.localAt (curOf wl).grp.block 60 4 = some (0, 60)
    ∧ ∀ q ∈ (asked wl stl0).1, ∀ core a, wl.localAt (curOf wl).grp.block q.addr 4 = some (core, a) → 64 < a ∨ a + 4 ≤ 64 := by
  refine ⟨mem_ready _ _ (by decide +kernel), by unfold LocalNow; decide +kernel, by decide +kernel, by decide +kernel, ?_⟩
  intro q hq core a h
  have : ((asked wl stl0).1.all fun q => (wl.localAt (curOf wl).grp.block q.addr 4).all fun x => x.2 + 4 ≤ 64) = true := by decide +kernel
  have := List.all_eq_true.mp this q hq
  rw [h] at this
  exact .inr (by simpa using this)

/-- A local load of lane 3 is deferred, of an offset that is pending. -/
def wnear : State :=
  { wl.modGroup 0 fun G => { pendG G with gctl := 0x601, resid := [near0 (.ldl p0 .n32 .none .lane 0 (.v 2) ⟨0, .v 4, 0⟩) 0] } with ids := 20 }

theorem test_meets_LocalStores_near : memOpOf (.stl p0 .n32 .none .lane 0 ⟨0, .v 7, 0⟩ (.v 1)) = some stl0 ∧ stl0.space = .loc ∧ stl0.ord.isRel = false
    ∧ MemMeets wnear stl0
    ∧ wnear.nearHeld memOpOf (wnear.nearOf 0 wnear.ids (curOf wnear).grp.block stl0 ((curOf wnear).act p0) (asked wnear stl0).1) = true :=
  ⟨rfl, rfl, rfl, mem_ready _ _ (by decide +kernel), by decide +kernel⟩

/-- Window 0 is 16 words from the record's base, of which the core's cache holds the first. -/
def wcw : State :=
  let s := wl.modLaunch 1 fun L => { L with lr := { L.lr with cwin := [some (0, 16)] } }
  let k := constKey 1 (((s.recOf 1).cwAddr 0 0).getD 0)
  s.modCore 0 fun K => { K with ccache := [(k, 9), (k + 1, 0), (k + 2, 0), (k + 3, 0)] }

/-- Eight bytes delivered at 508. -/
def wstale : State := wl.modCore 0 fun K => K.deliver 508 [1, 2, 3, 4, 5, 6, 7, 8]

/-- Loads within the block's local memory, of bytes just delivered too, which may be seen or not; window words at hand, and below the
window; a releasing atomic of `.blk` scope and one of `.gang` scope. -/
theorem test_meets_LocalReads : (MemMeets wl (ldlOp p0 .n32 .none .lane 0 (.v 1) ⟨0, .v 7, 448⟩)
      ∧ LocalNow wl (curOf wl) (ldlOp p0 .n32 .none .lane 0 (.v 1) ⟨0, .v 7, 448⟩) ∧ wl.localAt (curOf wl).grp.block 508 4 = some (0, 508)
      ∧ (wl.core 0).stale.any (staleMeets 508 4) = false)
    ∧ (MemMeets wcw (ldcOp p0 .n32 0 (.v 1) 0 (.k 0) 0) ∧ LocalNow wcw (curOf wcw) (ldcOp p0 .n32 0 (.v 1) 0 (.k 0) 0)
      ∧ ∀ q ∈ (asked wcw (ldcOp p0 .n32 0 (.v 1) 0 (.k 0) 0)).2, 0 ≤ q.2
        ∧ wcw.next.cwRead [2, 0, 0] 0 1 0 q.2.toNat false = (wcw.next, .ok [9, 0, 0, 0]))
    ∧ (MemMeets wcw (ldcOp p0 .n32 0 (.v 1) 0 (.k 0) 0xFFFFFFFF)
      ∧ ∀ q ∈ (asked wcw (ldcOp p0 .n32 0 (.v 1) 0 (.k 0) 0xFFFFFFFF)).2, q.2 < 0)
    ∧ (let op := atomOp p0 .cas .n32 true .rel .blk 0 (.v 1) ⟨0, .v 7, 0⟩ (.v 2) (some (.v 3))
       MemMeets wl op ∧ LocalNow wl (curOf wl) op ∧ op.req = .atom .cas ∧ op.scope.rank < 3 ∧ (wl.quad (coreQuad 0)).qau = [])
    ∧ (let op := redOp p0 .add .n32 true .none .gang 0 ⟨0, .v 7, 0⟩ (.v 2)
       MemMeets wl op ∧ LocalNow wl (curOf wl) op ∧ op.req = .atom .add ∧ 3 ≤ op.scope.rank)
    ∧ ((ldlOp p0 .n32 .none .lane 0 (.v 1) ⟨0, .v 7, 448⟩).req = .load ∧ wstale.localAt (curOf wstale).grp.block 508 4 = some (0, 508)
      ∧ (wstale.quad (coreQuad 0)).qau = [] ∧ (wstale.core 0).stale.any (staleMeets 508 4) = true
      ∧ wstale.lmRead 0 508 4 = [1, 2, 3, 4] ∧ wstale.lmStale 0 508 4 = [0, 0, 0, 0] ∧ ((wstale.invalidate 0 .blk).core 0).stale = []) :=
  ⟨⟨mem_ready _ _ (by decide +kernel), by unfold LocalNow; decide +kernel, by decide +kernel⟩,
    ⟨mem_ready _ _ (by decide +kernel), by unfold LocalNow; decide +kernel, by decide +kernel⟩, ⟨mem_ready _ _ (by decide +kernel), by decide +kernel⟩,
    ⟨mem_ready _ _ (by decide +kernel), by unfold LocalNow; decide +kernel, by decide +kernel⟩,
    ⟨mem_ready _ _ (by decide +kernel), by unfold LocalNow; decide +kernel, by decide +kernel⟩, by decide +kernel⟩

/-- Object 1 is valid, of domain 0x0000 or 7, and lies in page 0, whose leaf is at 0x100; its descriptor, of one byte at 0, at 0x200. -/
def wo (dom : Byte) : State :=
  wl.setMem { wl.mem with phys := [(7, 0x80), (9, 1), (32, 1), (38, dom), (49, 2), (257, 0x20)].filter fun q => q.2 != 0 }

/-- An older load of lane 0 not answered. -/
def acc0 : Access :=
  { id := 1, arm := 0, pc := 0, kind := .load, space := .glob, ty := .n32, scope := .lane, acq := false, rel := false, lanes := 1, waits := 1, dst := some (.v 1)
    wb := [], vals := [], bad := 0, fails := [], cause := 0, entry := none, addrs := [], cmp := .eq, cvals := [], slk := 0 }

def wa : State := wl.modGroup 0 fun G => { G with accs := [acc0] }

theorem fresh_of (s : State) (h : s.cur = some (curOf s) ∧ (curOf s).guardWaits p0 = 0 ∧ (curOf s).act p0 ≠ 0 ∧ (curOf s).drained = true
    ∧ (curOf s).path.prog = .none ∧ (curOf s).path.onChip = true) (b : Bool) : Fresh s (curOf s) p0 b :=
  ⟨h.1, h.2.1, h.2.2.1, fun _ => h.2.2.2.1, h.2.2.2.2.1, h.2.2.2.2.2⟩

/-- Page 0 has its leaf, or none. -/
def wod (leaf : Bool) : State :=
  (wo 0).setMem { (wo 0).mem with phys := (wo 0).mem.phys.filter fun q => leaf || q.1 != 257 }

/-- The shape record of object 1 can be read; every page of it stands here and passes every check but those of `bad`; no other device is to be
asked. -/
def discards (s : State) (bad : List Nat) : Bool :=
  match s.syncRead { key := [7, 12, 0, 0], core := none, launch := 0, dom := 0 } 1 (bits (s.objEntry 1) 128 64) 64 with
  | (z, .ok b) =>
    let f := footprint (ofBytes b)
    let r := z.dropLines 0 fun x =>
      lineOf f.1 ≤ x && x < lineOf f.2 + 64 && (footPages f).contains (pageOf x) && !bad.contains (pageOf x)
    ((footPages f).all fun p => (z.coreCheck 0 1 2 (p * 65536)).isSome && (homeOf z.fw (p * 65536)).map Prod.fst == some z.fw.dev)
      && ((footPages f).filter fun p => !z.discardOk 0 1 0 p) == bad && r.discardAsks (r.objEntry 1) f == [] && r.groups == s.groups
  | _ => false

theorem test_meets_FencesAndWaits : Fresh wl (curOf wl) p0 true ∧ wl.relDone 0 (curOf wl).path.allLanes wl.ids .node = true
    ∧ (wl.releaseAt 0 .node).groups = wl.groups ∧ (curOf wl).grp.loadsDue (curOf wl).path.allLanes (wl.releaseAt 0 .node).ids = false
    ∧ (curOf wl).grp.loadsDue (curOf wl).path.allLanes wl.ids = false
    ∧ (Fresh wa (curOf wa) p0 true ∧ (curOf wa).grp.loadsDue (curOf wa).path.allLanes wa.ids = true
      ∧ wa.relDone 0 (curOf wa).path.allLanes wa.ids .node = false)
    ∧ (Fresh wa (curOf wa) p0 false ∧ wa.counters 0 = (1, 0, 0, 0))
    ∧ ((curOf wl).grp.accs.all fun x => x.lanes &&& (curOf wl).path.allLanes == 0) = true
    ∧ ((curOf wl).grp.kr 0).toNat = 0 ∧ 4096 ≤ ((curOf wl).grp.kr 5).toNat
    ∧ (((curOf wl).grp.kr 6).toNat = 1 ∧ objV (wl.objEntry 1) = false)
    ∧ (let s := (wo 7).modLaunch 1 fun L => { L with dom := 3 }
       Fresh s (curOf s) p0 true ∧ objV (s.objEntry 1) = true ∧ s.domOf 1 ≠ bits (s.objEntry 1) 48 16 ∧ s.domOf 1 ≠ 0)
    ∧ (Fresh (wod true) (curOf (wod true)) p0 true
      ∧ ((curOf (wod true)).grp.accs.all fun x => x.lanes &&& (curOf (wod true)).path.allLanes == 0) = true
      ∧ objV ((wod true).objEntry 1) = true ∧ (wod true).domOf 1 = bits ((wod true).objEntry 1) 48 16 ∧ discards (wod true) [] = true)
    ∧ (Fresh (wod false) (curOf (wod false)) p0 true ∧ objV ((wod false).objEntry 1) = true ∧ (wod false).domOf 1 = 0
      ∧ discards (wod false) [0] = true) :=
  ⟨fresh_of _ (by decide +kernel) _, by decide +kernel, by decide +kernel, by decide +kernel, by decide +kernel,
    ⟨fresh_of _ (by decide +kernel) _, by decide +kernel⟩, ⟨fresh_of _ (by decide +kernel) _, by decide +kernel⟩, by decide +kernel,
    by decide +kernel, by decide +kernel, by decide +kernel, ⟨fresh_of _ (by decide +kernel) _, by decide +kernel⟩,
    ⟨fresh_of _ (by decide +kernel) _, by decide +kernel⟩, fresh_of _ (by decide +kernel) _, by decide +kernel⟩

/-! ### Engines, handles, launches, barriers -/

/-- `k1` holds the greatest aligned length of a copy, `k2` of a `CPG`, `k3` of a `CPM`, `k4` 128, the rows of a window. -/
def wk : State :=
  wl.modGroup 0 fun G => { G with k := [(1, 0xFFFFFFFC), (2, 0xFFFFFF), (3, 262144), (4, 128 * 256), (5, 4096), (6, 1), (7, 257)] }

/-- Block 1 has claimed tile 0 and slots 0 and 255. -/
def wt : State := wk.modQuad 0 fun q => { q with tOwn := [(0, 1)], sOwn := [(0, 1), (255, 1)] }

theorem test_meets_CopyCommands : Fresh wk (curOf wk) p0 true
    ∧ ((curOf wk).kn (.k 1) < 2 ^ 32 ∧ (curOf wk).kn (.k 0) % 4 = 0 ∧ (curOf wk).kn (.k 1) % 4 = 0)
    ∧ ((curOf wk).kn (.k 2) < 2 ^ 24 ∧ (curOf wk).kn (.k 5) % 4 = 0)
    ∧ (64 ≤ (curOf wk).kn (.k 3) ∧ (curOf wk).kn (.k 3) ≤ 262144 ∧ (curOf wk).kn (.k 1) < 2 ^ 32 ∧ (curOf wk).kn (.k 5) % 64 = 0
      ∧ (curOf wk).kn (.k 3) % 64 = 0)
    ∧ ((curOf wk).kn (.k 1) < 2 ^ 32 ∧ (curOf wk).kn (.k 5) % Ty.f32.size = 0 ∧ (curOf wk).kn (.k 1) % Ty.f32.size = 0)
    ∧ TagFree wk (curOf wk) (wk.newCmd (curOf wk) (.cpy 0 0 64 false false) .dev 3 0 0) 0 :=
  ⟨fresh_of _ (by decide +kernel) _, by decide +kernel, by decide +kernel, by decide +kernel, by decide +kernel,
    by unfold TagFree; decide +kernel⟩

/-- A copy of 64 bytes: the command of `test_meets_CommandTakesTag`. -/
def cmd0 : Cmd := wk.newCmd (curOf wk) (.cpy 0 0 64 false false) .dev 3 0 0

/-- A tile operation. -/
def cmdz : Cmd := wk.newCmd (curOf wk) (.mzero 0) .blk 0 0 0

theorem test_meets_CommandTakesTag : wk.cur = some (curOf wk) ∧ (curOf wk).path.onChip = true ∧ TagFree wk (curOf wk) cmd0 0
    ∧ cmdz.kind.isTile = true ∧ TagFree wk (curOf wk) cmdz 0 := by unfold TagFree; decide +kernel

/-- Descriptors: of one slot of `.i8` for `CPYO`, of `.i8` for `CPYA`, each in its role; at 0x400, which `k8` holds. -/
def wdesc (acc : Bool) : State :=
  let s := wk.modQuad 0 fun q => { q with tOwn := [(0, 1)], sOwn := [(0, 1), (255, 1)] }
  (s.setMem { s.mem with phys := if acc then [(0x400, 0x80), (0x401, 2)] else [(0x412, 0)] }).modGroup 0 fun G => { G with k := G.k ++ [(8, 0x400)] }

def descBytes (acc : Bool) : List Byte := if acc then [0x80, 2] ++ List.replicate 30 0 else List.replicate 32 0

/-- A descriptor is read, accepted, and what its command names is claimed. -/
def descMeets (acc : Bool) (rows : Nat) : Bool :=
  let s := wdesc acc
  let c := curOf s
  let r := s.descRead c 0 (c.kn (.k 8))
  let D := descOf (ofBytes (descBytes acc))
  let k := r.1.lateDesc (r.1.newCmd c (if acc then .cpya 0 0 0 rows (BitVec.ofNat 256 (ofBytes (descBytes acc)))
    else .cpyo 0 0 0 rows (BitVec.ofNat 256 (ofBytes (descBytes acc)))) .dev 0 0 0) (c.kn (.k 8))
  c.kn (.k 8) % 32 == 0 && r.2 == .ok (descBytes acc) && !r.1.isBadMem (c.kn (.k 8)) 32
    && refusal acc (ofBytes (descBytes acc)) 0 rows == none && r.1.claimed (coreQuad c.core) c.grp.block acc 0 1
    && D.rstr % memSize D.mfmt == 0 && D.cstr % memSize D.mfmt == 0 && r.1.cur == some c
    && (r.1.next.core c.core).tagWait == [] && (r.1.next.core c.core).freeTagNo == some 0 && !k.ended && !k.kind.isTile

/-- A window of 128 rows; a descriptor of zeros, which `CPYA` refuses; what the block has claimed, and what it has not. -/
theorem test_meets_DescriptorAndTileCommands : Fresh wt (curOf wt) p0 true
    ∧ (let e := (curOf wt).kn (.k 4)
       bits e 16 48 = 0 ∧ 0 < bits e 8 8 ∧ bits e 8 8 ≤ 128 ∧ e % 256 + bits e 8 8 ≤ 128
        ∧ refusal true (ofBytes (List.replicate 32 0)) (e % 256) (bits e 8 8) = some 2)
    ∧ ((curOf wt).kn (.k 0) % 32 = 0 ∧ (wt.descRead (curOf wt) 0 ((curOf wt).kn (.k 0))).2 = .ok (List.replicate 32 0)
      ∧ (wt.descRead (curOf wt) 0 ((curOf wt).kn (.k 0))).1.isBadMem ((curOf wt).kn (.k 0)) 32 = false)
    ∧ (descMeets false 128 = true ∧ descMeets true 1 = true)
    ∧ wt.claimed 0 (curOf wt).grp.block true ((curOf wt).kn (.k 0)) 1 = true
    ∧ (∀ j, j < (0 : BitVec 12).toNat + 1 → wt.claimed 0 (curOf wt).grp.block false ((curOf wt).kn (.k 0) + j * 15) 1 = true)
    ∧ ((curOf wt).kn (.k 0) % 4 = 0 ∧ (wt.localAt (curOf wt).grp.block ((curOf wt).kn (.k 0)) 512).isSome = true)
    ∧ Fresh wk (curOf wk) p0 true ∧ ¬ wk.claimed 0 (curOf wk).grp.block true ((curOf wk).kn (.k 0)) 1 = true := by
  refine ⟨fresh_of _ (by decide +kernel) _, by decide +kernel, by decide +kernel, by decide +kernel, by decide +kernel,
    fun j h => ?_, by decide +kernel, fresh_of _ (by decide +kernel) _, by decide +kernel⟩
  have : j = 0 := by simp at h; omega
  subst this
  decide +kernel

/-- Claims of none, of one more than there are, of one, of all 256 where slots are held; a release of what is claimed and of more. -/
theorem test_meets_Claims : Fresh wt (curOf wt) p0 false ∧ (curOf wt).kn (.k 0) = 0 ∧ 256 < (curOf wt).kn (.k 7)
    ∧ ((curOf wt).kn (.k 6) = 1 ∧ (wt.quad 0).waits false = [] ∧ (wt.quad 0).freeRun false 1 = some 1 ∧ (wt.quad 0).freeRun true 1 = some 1)
    ∧ (wt.quad 0).freeRun false 255 = none ∧ (wt.quad 0).freeRun true 16 = none
    ∧ ((wk.quad 0).freeRun true 16 = some 0 ∧ (wk.quad 0).freeRun false 256 = some 0)
    ∧ ((curOf wt).kn (.k 0) + (curOf wt).kn (.k 6) ≤ 16
      ∧ wt.claimed 0 (curOf wt).grp.block true 0 1 = true ∧ wt.named (curOf wt).grp.block true 0 1 = false
      ∧ wt.claimed 0 (curOf wt).grp.block true 0 2 = false ∧ wt.named (curOf wt).grp.block true 0 2 = false)
    ∧ (let s := wt.setCmds [(77, wt.newCmd (curOf wt) (.mzero 0) .blk 0 0 0)]
       Fresh s (curOf s) p0 false ∧ s.named (curOf s).grp.block true 0 1 = true) :=
  ⟨fresh_of _ (by decide +kernel) _, by decide +kernel, by decide +kernel, by decide +kernel, by decide +kernel, by decide +kernel,
    by decide +kernel, by decide +kernel, fresh_of _ (by decide +kernel) _, by decide +kernel⟩

/-- Tag 0 of core 0 is held by the launch, for what `kind` says; its handle is 0, which `k0` holds. `k6` holds 1. -/
def wh (kind : BitVec 2) (done : Bool) : State :=
  wk.modCore 0 fun K => { K with tags := [(0, { tagReset with owner := some 1, kind := kind, done := done, target := 77 })] }

def wcmd (begun : Bool) : State := (wh 0 false).setCmds [(77, { cmd0 with begun := begun })]

theorem test_meets_Handles : Fresh wk (curOf wk) p0 true ∧ wk.handleTag (curOf wk) ((curOf wk).kop (.k 0)) = none
    ∧ (Fresh (wh 1 true) (curOf (wh 1 true)) p0 false
      ∧ (wh 1 true).handleTag (curOf (wh 1 true)) ((curOf (wh 1 true)).kop (.k 0))
        = some (0, { tagReset with owner := some 1, kind := 1, done := true, target := 77 })
      ∧ (wh 1 true).tagKnown 0 0 = true ∧ (wh 1 true).tagLegal 0 0 = true ∧ (look ((wh 1 true).core 0).tags 0).isSome = true ∧ (tagReset.status).extractLsb' 0 8 = 0)
    ∧ (Fresh (wh 1 false) (curOf (wh 1 false)) p0 false
      ∧ (wh 1 false).handleTag (curOf (wh 1 false)) ((curOf (wh 1 false)).kop (.k 0))
        = some (0, { tagReset with owner := some 1, kind := 1, done := false, target := 77 })
      ∧ (wh 1 false).tagKnown 0 0 = true ∧ (wh 1 false).tagLegal 0 0 = true ∧ ∀ x, (curOf (wh 1 false)).path.st ≠ .waiting x)
    ∧ (Fresh (wh 2 false) (curOf (wh 2 false)) p0 false
      ∧ (wh 2 false).handleTag (curOf (wh 2 false)) ((curOf (wh 2 false)).kop (.k 0))
        = some (0, { tagReset with owner := some 1, kind := 2, target := 77 })
      ∧ (wh 2 false).tagKnown 0 0 = true ∧ (wh 2 false).tagLegal 0 0 = false
      ∧ (curOf (wh 2 false)).kop (.k 6) &&& ((wh 2 false).core 0).tagMask 1 = 1 ∧ (wh 2 false).maskLegal 0 1 = false)
    ∧ (∀ b : Bool, Fresh (wcmd b) (curOf (wcmd b)) p0 false
      ∧ (wcmd b).handleTag (curOf (wcmd b)) ((curOf (wcmd b)).kop (.k 0)) = some (0, { tagReset with owner := some 1, target := 77 })
      ∧ (wcmd b).cmd? 77 = some { cmd0 with begun := b })
    ∧ (cmd0.done = false ∧ cmd0.core = (curOf (wcmd false)).core ∧ cmd0.tag = 0 ∧ cmd0.gen = tagReset.gen ∧ cmd0.lateAt = none
      ∧ (wcmd false).joiners 0 0 tagReset.gen = [] ∧ ((wcmd false).quad 0).posting.contains 77 = false)
    ∧ (curOf (wh 1 true)).kop (.k 0) &&& ((wh 1 true).core 0).tagMask 1 = 0
    ∧ ((curOf (wh 1 true)).kop (.k 6) &&& ((wh 1 true).core 0).tagMask 1 = 1 ∧ (wh 1 true).maskLegal 0 1 = true
      ∧ ((wh 1 true).core 0).trdy 1 &&& 1 = 1)
    ∧ ((curOf (wh 1 false)).kop (.k 6) &&& ((wh 1 false).core 0).tagMask 1 = 1 ∧ (wh 1 false).maskLegal 0 1 = true
      ∧ ((wh 1 false).core 0).trdy 1 &&& 1 = 0) :=
  ⟨fresh_of _ (by decide +kernel) _, by decide +kernel, ⟨fresh_of _ (by decide +kernel) _, by decide +kernel⟩,
    ⟨fresh_of _ (by decide +kernel) _, by decide +kernel, by decide +kernel, by decide +kernel, ready_here _ (by decide +kernel)⟩,
    ⟨fresh_of _ (by decide +kernel) _, by decide +kernel⟩,
    fun b => by cases b <;> exact ⟨fresh_of _ (by decide +kernel) _, by decide +kernel⟩, by decide +kernel, by decide +kernel⟩

/-- A record at 0 that the core may read, one misaligned at 1, and one at 0 of a core with no turnstile. -/
theorem test_meets_Launches : Fresh wk (curOf wk) p0 true ∧ ((curOf wk).grp.kr 6).toNat % 64 ≠ 0
    ∧ (Fresh w0 (curOf w0) p0 true ∧ ((curOf w0).grp.kr 0).toNat % 128 = 0 ∧ w0.coreCheck 0 1 1 0 = none)
    ∧ ((wk.coreCheck 0 1 1 0).isSome = true ∧ (wk.core 0).tagWait = [] ∧ (wk.core 0).freeTagNo = some 0
      ∧ homeOf wk.fw ((curOf wk).grp.kr 0).toNat = some (wk.fw.dev, 0) ∧ (curOf wk).grp.accs = []
      ∧ (∀ e ∈ wk.net.packets, e.2.kind.isStore = false) ∧ wk.ring.queue.length < Config.ringCap) :=
  ⟨fresh_of _ (by decide +kernel) _, by decide +kernel, ⟨fresh_of _ (by decide +kernel) _, by decide +kernel⟩, by decide +kernel⟩

/-- The block's barrier 0 in phase 1. -/
def wbar : State := wk.modBlock 1 fun b => { b with bars := [(0, { phase := 1, count := 0, arrived := [], ghosts := 0 })] }

/-- A second group of the block in the same quarter, with quotas as given. -/
def wx (q0 q1 : Nat) : State :=
  ((wk.modGroup 0 fun G => { G with quota := q0 }).setGroups ((wk.modGroup 0 fun G => { G with quota := q0 }).groups
    ++ [(1, { recNone.newGroup 1 1 1 with quota := q1 })])).modBlock 1 fun b => { b with live := [0, 1], groups := [0, 1] }

/-- A barrier arrival, its release done: whether its phase has then passed. -/
def arrival (s : State) : Option Bool :=
  let c := curOf s
  let r := s.releaseAt c.core .blk
  if s.relDone c.g c.path.allLanes s.ids .blk && r.groups == s.groups then
    some (((r.barArrive c .blk 0 1).barOf c .blk 0).passed (r.barOf c .blk 0).phase)
  else none

theorem test_meets_Barriers : (Fresh wk (curOf wk) p0 true ∧ UniReady wk (curOf wk) p0 [(.k64, .k 6)] [] ∧ wk.barLegal (curOf wk) .blk = true
      ∧ ((curOf wk).grp.arriveCount (w64 (ofBytes [])) (.k 6)).toNat ≤ barMax .blk ∧ arrival wk = some true)
    ∧ (barMax .blk < ((curOf wk).grp.arriveCount (w64 (ofBytes [])) (.k 7)).toNat
      ∧ UniReady wk (curOf wk) p0 [(.k64, .k 7)] [])
    ∧ (Fresh (wx 40 40) (curOf (wx 40 40)) p0 true ∧ arrival (wx 40 40) = some false ∧ ∀ x, (curOf (wx 40 40)).path.st ≠ .waiting x)
    ∧ (UniReady wk (curOf wk) p0 [(.k64, .k 0)] [] ∧ (wk.barOf (curOf wk) .blk 0).passed (lo32 ((curOf wk).karg [] .k64 (.k 0))) = false
      ∧ (∀ x, (curOf wk).path.st ≠ .waiting x))
    ∧ (Fresh wbar (curOf wbar) p0 true ∧ UniReady wbar (curOf wbar) p0 [(.k64, .k 0)] []
      ∧ (wbar.barOf (curOf wbar) .blk 0).passed (lo32 ((curOf wbar).karg [] .k64 (.k 0))) = true)
    ∧ (let s := wbar.modPath 0 0 fun p => { p with prog := .phase 0 }
       s.cur = some (curOf s) ∧ (curOf s).path.onChip = true ∧ (curOf s).path.prog = .phase 0 ∧ (s.barOf (curOf s) .blk 0).passed 0 = true)
    ∧ (let s := wk.modLaunch 1 fun L => { L with lr := { L.lr with pclass := 2 } }
       Fresh s (curOf s) p0 true ∧ s.barLegal (curOf s) .launch = false ∧ UniReady s (curOf s) p0 [(.k64, .k 6)] []
        ∧ ((curOf s).grp.arriveCount (w64 (ofBytes [])) (.k 6)).toNat < 2 ^ 32)
    ∧ (0 < 2 ∧ barReset.ghosts = 0 ∧ barReset.count < 2 ∧ barReset.count + 1 < 2) ∧ barReset.count + 2 = 2 :=
  ⟨⟨fresh_of _ (by decide +kernel) _, ⟨by decide +kernel, by decide +kernel, by decide +kernel, rfl, by decide +kernel⟩, by decide +kernel⟩,
    ⟨by decide +kernel, ⟨by decide +kernel, by decide +kernel, by decide +kernel, rfl, by decide +kernel⟩⟩,
    ⟨fresh_of _ (by decide +kernel) _, by decide +kernel, ready_here _ (by decide +kernel)⟩,
    ⟨⟨by decide +kernel, by decide +kernel, by decide +kernel, rfl, by decide +kernel⟩, by decide +kernel, ready_here _ (by decide +kernel)⟩,
    ⟨fresh_of _ (by decide +kernel) _, ⟨by decide +kernel, by decide +kernel, by decide +kernel, rfl, by decide +kernel⟩, by decide +kernel⟩,
    by decide +kernel, ⟨fresh_of _ (by decide +kernel) _, by decide +kernel,
      ⟨by decide +kernel, by decide +kernel, by decide +kernel, rfl, by decide +kernel⟩, by decide +kernel⟩, by decide +kernel⟩

/-- The same with every lane's window slid by 8, and a spill area. -/
def wxs : State :=
  ((wx 40 40).modGroup 0 fun G => { G with base := (List.range 16).map fun l => (l, 8) }).modLaunch 1 fun L =>
    { L with lr := { L.lr with spsize := 8192 } }

/-- The spills of a transfer of 8 registers, decided. -/
def spills (s : State) : Bool :=
  let c := curOf s
  let units := (~~~ c.grp.exited).list.flatMap fun l => c.grp.overUnits (c.grp.quota - 8) l
  let z := s.spillUnits c.g c.arm units
  units != [] && !(units.any fun x => c.grp.unitPend x.1 x.2) && z.2 == .ok [] && (z.1.path? c.g c.arm).map Cur.path == some c.path
    && (z.1.group? 1).isSome

theorem test_meets_QuotaTransfer : UniReady wk (curOf wk) p0 [(.k64, .k 6)] [] ∧ wk.recipient (curOf wk) 1 = none
    ∧ (UniReady (wx 40 128) (curOf (wx 40 128)) p0 [(.k64, .k 6)] [] ∧ (wx 40 128).recipient (curOf (wx 40 128)) 1 = some 1
      ∧ 128 < ((wx 40 128).grpOf 1).quota + 8)
    ∧ (curOf (wx 32 120)).grp.quota < 32 + 8
    ∧ (UniReady (wx 40 120) (curOf (wx 40 120)) p0 [(.k64, .k 6)] []
      ∧ (wx 40 120).recipient (curOf (wx 40 120)) (((curOf (wx 40 120)).karg [] .k64 (.k 6)).toNat % 64) = some 1
      ∧ ((wx 40 120).grpOf 1).quota + 8 ≤ 128 ∧ 32 + 8 ≤ (curOf (wx 40 120)).grp.quota
      ∧ (∀ l ∈ (~~~ (curOf (wx 40 120)).grp.exited).list,
        (curOf (wx 40 120)).grp.D l + 32 - (curOf (wx 40 120)).grp.F l ≤ (curOf (wx 40 120)).grp.quota - 8)
      ∧ ((wx 40 120).group? 1).isSome = true)
    ∧ (UniReady wxs (curOf wxs) p0 [(.k64, .k 6)] [] ∧ wxs.recipient (curOf wxs) 1 = some 1 ∧ (wxs.grpOf 1).quota + 8 ≤ 128
      ∧ 32 + 8 ≤ (curOf wxs).grp.quota ∧ spills wxs = true) :=
  ⟨⟨by decide +kernel, by decide +kernel, by decide +kernel, rfl, by decide +kernel⟩, by decide +kernel,
    ⟨⟨by decide +kernel, by decide +kernel, by decide +kernel, rfl, by decide +kernel⟩, by decide +kernel⟩, by decide +kernel,
    ⟨⟨by decide +kernel, by decide +kernel, by decide +kernel, rfl, by decide +kernel⟩, by decide +kernel⟩,
    ⟨by decide +kernel, by decide +kernel, by decide +kernel, rfl, by decide +kernel⟩, by decide +kernel⟩

/-- A partner, group 0 of block 1 of the launch, on core 4, with or without its half queued. -/
def wxch (l : List XchRec) : State :=
  (((wk.setGroups (wk.groups ++ [(1024, { recNone.newGroup 1 9 0 with xch := l })])).setBlocks (wk.blocks ++
    [(9, { launch := 1, lin := 1, x := 1, y := 0, z := 0, core := 4, gang := 10, gblk := 0, lbase := 0, lsize := 0, groups := [1024]
           live := [1024], bars := [], ended := false, paid := 0 })])).modLaunch 1 fun L => { L with pos := 2, lr := { L.lr with nx := 2 } })

def half1 : XchRec := { id := 3, arm := 0, partner := 0, tag := 0, ty := .n32, dst := .v 1, active := 0xFFFF, vals := [] }

/-- A snapshot leaves the groups of the launch as they are. -/
def snaps (s : State) : Bool :=
  let groups := (s.blocks.filter fun e => e.2.launch == 1).flatMap fun e => e.2.groups
  groups != [] && (groups.foldl (fun s x => s.snapGroup 1 x) (s.modLaunch 1 fun M => { M with snap := 1 })).groups == s.groups

theorem test_meets_SnapshotAndExchange :
    (Fresh wk (curOf wk) p0 false ∧ (wk.launch? 1).map Launch.snap = some 0 ∧ snaps wk = true)
    ∧ (let s := wk.modPath 0 0 fun p => { p with prog := .stage 3 }
       s.cur = some (curOf s) ∧ (curOf s).path.prog = .stage 3 ∧ (curOf s).path.onChip = true)
    ∧ (Fresh wk (curOf wk) p0 true ∧ bits ((curOf wk).grp.kr 6).toNat 54 10 = 0
      ∧ wk.partner (curOf wk) (bits ((curOf wk).grp.kr 6).toNat 0 38) = .illegal)
    ∧ (let s := wxch []
       let c := curOf s
       Fresh s c p0 true ∧ bits (c.grp.kr 6).toNat 54 10 = 0 ∧ c.srcsWait 0 (c.act p0) [srcTy .n32 (.v 7)] = false
        ∧ c.poisons 0 (c.act p0) [srcTy .n32 (.v 7)] = [] ∧ s.partner c (bits (c.grp.kr 6).toNat 0 38) = .group 1024
        ∧ (∀ n, c.path.st ≠ .waiting n)
        ∧ ((s.grpOf 1024).xch.find? fun r => r.partner == s.groupNo c.grp && r.tag == 0) = none)
    ∧ (let s := wxch [half1]
       let c := curOf s
       Fresh s c p0 true ∧ s.partner c (bits (c.grp.kr 6).toNat 0 38) = .group 1024 ∧ 1024 ≠ c.g
        ∧ ((s.grpOf 1024).xch.find? fun r => r.partner == s.groupNo c.grp && r.tag == 0) = some half1 ∧ (s.path? 1024 half1.arm).isSome = true) :=
  ⟨⟨fresh_of _ (by decide +kernel) _, by decide +kernel⟩, by decide +kernel, ⟨fresh_of _ (by decide +kernel) _, by decide +kernel⟩,
    ⟨fresh_of _ (by decide +kernel) _, by decide +kernel, by decide +kernel, by decide +kernel, by decide +kernel, ready_here _ (by decide +kernel),
      by decide +kernel⟩, fresh_of _ (by decide +kernel) _, by decide +kernel⟩

/-! ### Events of paths -/

/-- Page 0 may be run, and nothing is cached; or a pad stands at the pc. -/
def wf0 (c : Tab (List Byte)) : State := wm.modCore 0 fun K => { K with icache := c }

def padBlock : List Byte := bytes32 0xFFFFFFFC ++ List.replicate 28 0

/-- A wait whose timer expires at time 100, a side deferred or none. -/
def ww (now : Nat) (side : Bool) : State :=
  (w0.setNow now).modPath 0 0 fun p => { p with
    st := .waiting (some 100)
    stack := if side then [0] else []
    lanes := if side then 0x00FF else 0xFFFF
    ents := if side then [(0, { recon := 0x80, other := { pc := 0x40, lanes := 0xFF00, stack := [], prog := .none }, second := false, spill := none })]
      else [] }

theorem test_meets_PathEvents :
    (let s := wf0 []
     let c := curOf s
     s.cur = some c ∧ c.arm < 2 ∧ c.path.open = true ∧ c.grp.atPoint c.arm = false ∧ s.icBlock c.core c.grp.launch c.path.pc = none
      ∧ (s.sync { key := [4, c.g, c.arm], core := some c.core, launch := c.grp.launch, dom := s.domOf c.grp.launch } 4
          (c.path.pc.toNat / 32 * 32) (.read 32)).2 = .ok (List.replicate 32 0))
    ∧ (let s := wf0 [(icKey 1 0, padBlock)]
       let c := curOf s
       s.cur = some c ∧ c.path.open = true ∧ c.grp.atPoint c.arm = false ∧ s.icBlock c.core c.grp.launch c.path.pc = some padBlock
        ∧ decodeAt padBlock (c.path.pc.toNat % 32) = .pad ∧ c.path.onChip = true)
    ∧ (let c := curOf (ww 99 false)
       (ww 99 false).cur = some c ∧ c.arm < 2 ∧ c.path.st = .waiting (some 100) ∧ (ww 99 false).now < 100)
    ∧ (let s := ww 100 false
       s.cur = some (curOf s) ∧ 100 ≤ s.now ∧ (curOf s).path.candidate = none)
    ∧ (let s := ww 100 true
       s.cur = some (curOf s) ∧ (curOf s).path.candidate = some (0, [], []) ∧ (look (curOf s).path.ents 0).isSome = true
        ∧ (curOf s).path.onChip = true ∧ (curOf s).path.st = .waiting (some 100)) := by decide +kernel

/-- A packet of the load `acc0` of lane 0, answered with 5. -/
def pk (ph : Phase) : Packet :=
  { own := .access 0 1, core := 0, kind := .load, acc := 1, ty := .n32, size := 4, lanes := [⟨0, 0, 0, 0⟩], home := 0, dev := 0, dom := 0, key := 0
    scope := .lane, acq := false, rel := false, smgen := 0, keyTries := 0, checkedAt := 0, field := 2, age := 0, late := false, route := []
    phase := ph, remote := none, born := 0, all := 0, told := false, mark := 0 }

/-- That packet in a machine whose group waits for it in `v1`. -/
def wpk (ph : Phase) : State :=
  (wl.setNet { wl.net with packets := [(2, pk ph)] }).modGroup 0 fun G =>
    { G with accs := [acc0], pend := [{ lane := 0, loc := .v 1, owners := [(1, .v 1)] }] }

/-- A `POLL` of lane 0 for 5, and its packet. -/
def poll0 : Access := { acc0 with kind := .poll, cvals := [(0, 5)] }

def wpoll (ph : Phase) : State :=
  (wl.setNet { wl.net with packets := [(2, pk ph)] }).modGroup 0 fun G => { G with accs := [poll0] }

theorem test_meets_LandingEvents :
    (let s := wpk (.landed (.ok [(0, 5), (1, 6)] 0))
     s.packet? 2 = some (pk (.landed (.ok [(0, 5), (1, 6)] 0))) ∧ (s.grpOf 0).access? 1 = some acc0 ∧ acc0.kind ≠ .poll ∧ acc0.fails = []
      ∧ acc0.waits &&& ~~~ (pk (.landed (.ok [(0, 5), (1, 6)] 0))).lanesOf = 0 ∧ (s.grpOf 0).arms ≠ [] ∧ acc0.bad = 0
      ∧ (s.grpOf 0).ownersOf 0 (.v 1) = [(1, .v 1)] ∧ ((s.grpOf 0).pend.filter fun x => x.lane == 0 && x.loc == .v 1).length = 1
      ∧ 2 ≤ ([(0, (5 : W64)), (1, 6)].foldl (fun t q => put t q.1 q.2) acc0.vals).length
      ∧ (dstLocs .n32 (get 0 acc0.wb 0) (.v 1)).map Prod.snd = [.v 1])
    ∧ (let s := wpoll (.landed (.ok [(0, 5)] 0))
       s.packet? 2 = some (pk (.landed (.ok [(0, 5)] 0))) ∧ (s.grpOf 0).access? 1 = some poll0 ∧ poll0.unmet [(0, 5)] = []
        ∧ poll0.waits &&& ~~~ (pk (.landed (.ok [(0, 5)] 0))).lanesOf = 0 ∧ (s.path? 0 poll0.arm).isSome = true)
    ∧ (let s := wpoll (.landed (.ok [(0, 0)] 0))
       s.packet? 2 = some (pk (.landed (.ok [(0, 0)] 0))) ∧ ∃ q ∈ (pk (.landed (.ok [(0, 0)] 0))).lanes, q.lane ∈ poll0.unmet [(0, 0)])
    ∧ (let s := (wpoll (.polling 5)).setNet { (wpoll (.polling 5)).net with packets := [(2, { pk (.polling 5) with told := true })] }
       s.packet? 2 = some { pk (.polling 5) with told := true } ∧ s.pollTold { pk (.polling 5) with told := true } = true
        ∧ s.hasRoom 0 (pk (.polling 5)).lanes = true)
    ∧ (let s := wpoll (.polling 5)
       s.packet? 2 = some (pk (.polling 5)) ∧ s.now < 5 ∧ s.pollTold (pk (.polling 5)) = false)
    ∧ (let s := wl.modGroup 0 fun G => { G with resid := [resid0] }
       ((s.grpOf 0).resid.find? fun x => x.id == resid0.id) = some resid0 ∧ (s.grpOf 0).satisfied resid0 = true
        ∧ ((laneOpOf resid0.instr).map fun op => resid0.badLanes (resid0.active op.guard) op.srcs) = some 0 ∧ resid0.done = false) := by decide +kernel

/-! ### Events of the engines -/

/-- A local copy of 64 bytes, begun, without deadline. -/
def cmd1 : Cmd := { wk.newCmd (curOf wk) (.cpy 0 64 64 true true) .blk 0 0 0 with begun := true, entry := 0xFFF }

/-- A multicast of 128 bytes from address 0 to its own block alone. -/
def cmd2 : Cmd := { wk.newCmd (curOf wk) (.cpm 0 0 128 1) .blk 0 0 0 with begun := true, entry := 0xFFF, targets := [(0, 1)] }

def gotLen : Got → Nat
  | .ok b => b.length
  | _ => 0

/-- Its stream, before the second beat. -/
def join0 : StreamReq := { cmd := 77, missed := [], field := 0xFFF, since := 0 }

def stream0 : Stream := { unit := 0, src := 0, len := 128, next := 1, first := some 0, obj := 0, touched := false, joined := [join0] }

/-- A budget of 256, and a command outstanding. -/
def wcp (c : Cmd) : State := (wk.setCmds [(77, c)]).setMem { wk.mem with phys := [(17, 1)] }

def claim0 : Claim := { id := 8, block := 1, dom := 0, grp := 0, arm := 0, d := 1, count := 16 }
def rel0 : Release := { id := 8, block := 1, grp := 0, arm := 0, tiles := true, first := 0, count := 1 }
def tw0 : TagWait :=
  { id := 8, block := 1, dom := 0, launch := 1, grp := 0, arm := 0, d := 1, len := 16, cmd := some cmd1, graph := false, early := false, target := 0 }

theorem test_meets_EngineEvents :
    (let s := wk.modQuad 0 fun q => { q with tWait := [claim0] }
     s.nextClaim 0 true ((s.quad 0).waits true) = some claim0 ∧ (s.quad 0).freeRun true claim0.count = some 0)
    ∧ (let s := wt.modQuad 0 fun q => { q with rels := [rel0] }
       ((s.quad 0).rels.find? fun r => r.tiles == true && !s.named r.block true r.first r.count) = some rel0
        ∧ s.claimed 0 rel0.block true rel0.first rel0.count = true)
    ∧ (let s := wk.modQuad 0 fun q => { q with rels := [rel0] }
       ((s.quad 0).rels.find? fun r => r.tiles == true && !s.named r.block true r.first r.count) = some rel0
        ∧ s.claimed 0 rel0.block true rel0.first rel0.count = false ∧ (s.path? rel0.grp rel0.arm).isSome = true
        ∧ (curOf s).path.onChip = true)
    ∧ (let s := wk.modCore 0 fun K => { K with tagWait := [tw0] }
       s.nextTagWait 0 (s.core 0).tagWait = some tw0 ∧ (s.core 0).freeTagNo = some 0)
    ∧ (let s := (wcp cmd1).modQuad 0 fun q => { q with posting := [77] }
       s.nextPost 0 (s.quad 0).posting = some 77 ∧ (s.quad 0).table.length < 32 ∧ s.cmd? 77 = some cmd1)
    ∧ (let s := wcp cmd1
       s.heads 0 = [(77, cmd1)] ∧ s.cmd? 77 = some cmd1 ∧ cmd1.begun = true ∧ s.streaming 77 = false ∧ cmd1.kind = .cpy 0 64 64 true true
        ∧ cmd1.pos = 0 ∧ s.localAt cmd1.block 64 64 = some (0, 64) ∧ s.localAt cmd1.block 0 64 = some (0, 0)
        ∧ rangesMeet (s.spot cmd1.block true 64) 64 (s.spot cmd1.block true 0) 64 = false)
    ∧ wk.heads 0 = []
    ∧ (let s := (wcp cmd2).setNet { wk.net with streams := [(3, stream0)] }
       look s.net.streams 3 = some stream0 ∧ 64 * stream0.next < stream0.len ∧ stream0.joined = [join0] ∧ s.takesBeat stream0.next join0 = true
        ∧ s.roomFor (s.beatCopies stream0 3 2 [] [join0]) = true
        ∧ gotLen (s.beatRead stream0 77 1).2 = 64
        ∧ (((s.beatRead stream0 77 1).1.chargeBeat 2 [join0]).cmd? 77).map (fun c => coreSector c.core) = some (unitSector stream0.unit))
    ∧ (let s := wcp cmd2
       s.cmd? 77 = some cmd2 ∧ cmd2.kind = .cpm 0 0 128 1)
    ∧ (cmd2.targets = [(0, 1)] ∧ ((wcp cmd2).block? 1).map Block.ended = some false ∧ cmd2.dropped.getLsbD 0 = false)
    ∧ (let c := { cmd1 with ended := true }
       let s := (wcp c).modCore 0 fun K => { K with tags := [(0, { tagReset with owner := some 1, target := 77 })] }
       s.cmd? 77 = some c ∧ cmd1.done = false ∧ cmd1.msgs = [] ∧ cmd1.scope.rank < 8 ∧ cmd1.lateAt = none
        ∧ (s.quad 0).posting.contains 77 = false ∧ get tagReset (s.core 0).tags 0 = { tagReset with owner := some 1, target := 77 }
        ∧ tagReset.gen = cmd1.gen ∧ tagReset.done = false ∧ s.joiners 0 0 cmd1.gen = []) := by decide +kernel

theorem test_meets_Matrix :
    (let c : Cmd := { wk.newCmd (curOf wk) (.mzero 0) .blk 0 0 0 with begun := true }
     let s := (wk.setCmds [(77, c)]).modQuad 0 fun q => { q with table := [77] }
     (s.quad 0).table = [77] ∧ s.cmd? 77 = some c ∧ c.ended = false ∧ c.begun = true ∧ s.cmdsDone c.after = true ∧ coreQuad c.core = 0)
    ∧ (let c : Cmd := { wk.newCmd (curOf wk) (.mrowsc 0 0) .blk 0 0 0 with begun := true }
       let s := (wk.setCmds [(77, c)]).modQuad 0 fun q => { q with table := [77] }
       (s.quad 0).table = [77] ∧ s.cmd? 77 = some c ∧ c.kind.reads = true ∧ s.storesDone 77 c = true ∧ s.localAt c.block (4 * 127) 4 = some (0, 508))
    ∧ (let c : Cmd := { wk.newCmd (curOf wk) (.mloop .bf16 .bf16 0 0 255 1 0 0 (some (0, 0))) .blk 0 0 0 with begun := true }
       let s := (wk.setCmds [(77, c)]).modQuad 0 fun q => { q with table := [77] }
       (s.quad 0).table = [77] ∧ s.cmd? 77 = some c ∧ c.kind.reads = false)
    ∧ (0 < 128 ∧ 127 < 128 ∧ (1 : Nat) ≠ 0)
    ∧ ((0 : W64).toInt < (32 * (127 / 32) : Nat) - ((32 * (0 / 32) + 31 : Nat) : Int) ∧ ¬ (0 : W64).toInt < (32 * (1 / 32) : Nat) - ((32 * (0 / 32) + 31 : Nat) : Int)
      ∧ (0 : W64).toInt < (1 : Int) - 0 ∧ ¬ (0 : W64).toInt < (0 : Int) - 0) := by decide +kernel

/-! ### Events of the ringmaster -/

/-- Domain 0x0000's record: its turnstile image at 0x4000, valid, a budget of 256; the image admits every page. -/
def dom0 : List (Nat × Byte) := [(1, 0x40), (15, 0x80), (17, 1)]

def image0 : List (Nat × Byte) :=
  [(0x4000, 0x0F), (0x400A, 0xFF), (0x400B, 0xFF), (0x400C, 0xFF), (0x400D, 0xFF), (0x400E, 0xFF), (0x400F, 1)]

/-- A kernel node at 0x1000 for the record at 0x2000, a launch of one block. -/
def kernel0 : List (Nat × Byte) := [(0x1000, 1), (0x1009, 0x20), (0x2030, 1), (0x2034, 2), (0x2036, 4)]

def handoff0 (graph : Bool) : Handoff :=
  { addr := if graph then 0x1000 else 0x2000, graph := graph, early := true, dom := 0, issuer := 0, origin := .none }

def graph0 : Graph :=
  { dom := 0, first := 0x1000, early := true, issuer := 0, origin := .none, walks := [(6, { node := 0x1000, st := .at_ })] }

/-- A ringmaster with a queue and graphs over this memory. -/
def wr (m : List (Nat × Byte)) (q : List Handoff) (gs : Tab Graph) : State :=
  ((wk.setMem { wk.mem with phys := dom0 ++ m ++ image0 }).setRing { wk.ring with queue := q, graphs := gs }).setFw { wk.fw with up := true }

def node0 (m : List (Nat × Byte)) : State × Got := (wr m [] [(5, graph0)]).syncRead (ringWho 0 [5, 6, 0]) 1 0x1000 64

def bytesOf : Got → List Byte
  | .ok b => b
  | _ => []

/-- The node that a walk at 0x1000 comes to. -/
def nodeAt (m : List (Nat × Byte)) : Option Node := nodeOf (bytesOf (node0 m).2)

/-- A path whose `LAUNCH` of the record at 0x2000 under tag 0 waits for the queue. -/
def wlq : State :=
  ((wr kernel0 [] []).modCore 0 fun K => { K with tags := [(0, { tagReset with owner := some 1, kind := 2, target := 0x2000 })] }).modPath 0 0 fun p =>
    { p with prog := .launch 0 0 1 }

def isOpen : Admit → Bool
  | .open _ => true
  | _ => false

theorem test_meets_Graphs :
    ((wr kernel0 [handoff0 false] []).ring.queue[0]? = some (handoff0 false)
      ∧ isOpen ((wr kernel0 [handoff0 false] []).admitLaunch (handoff0 false) none).2 = true)
    ∧ (wlq.groups.map Prod.fst = [0] ∧ (wlq.grpOf 0).arms.map Path.prog = [.launch 0 0 1] ∧ wlq.relDone 0 (wlq.pathOf 0 0).allLanes 1 .dev = true
      ∧ ((wlq.releaseAt (slotCore 0) .dev).handOver 0x2000 false false 1 (slotCore 0) 0 0).isSome = true)
    ∧ ((wr kernel0 [handoff0 true] []).ring.graphs.length < 64 ∧ (wr kernel0 [handoff0 true] []).ring.queue = [handoff0 true]
      ∧ ((wr kernel0 [handoff0 true] []).ctx 0).stopping = false ∧ ((wr kernel0 [handoff0 true] []).ctx 0).pre = none)
    ∧ ((wr kernel0 [] [(5, graph0)]).walkAt 5 6 = some (graph0, 0x1000)
      ∧ nodeAt kernel0 = some (.kernel 0x2000 [])
      ∧ isOpen ((node0 kernel0).1.admitLaunch
        { addr := 0x2000, graph := false, early := true, dom := 0, issuer := 0, origin := .none } (some (5, 6))).2 = true)
    ∧ (nodeAt [(0x1000, 2), (0x1009, 0x30)] = some (.cond 0 false 0x3000 0 0 0)
      ∧ gotLen ((node0 [(0x1000, 2), (0x1009, 0x30)]).1.syncRead (ringWho 0 [5, 6, 2]) 1 0x3000 8).2 = 8)
    ∧ (nodeAt [(0x1000, 3), (0x1010, 2)] = some (.loop 0 2 0 0)
      ∧ ((node0 [(0x1000, 3), (0x1010, 2)]).1.sync (ringWho 0 [5, 6, 1]) 2 0x1008 (.write (toBytes 4 1))).2 = .ok [])
    ∧ (nodeAt [(0x1000, 4), (0x1008, 1)] = some (.join 1 0 0)
      ∧ ((node0 [(0x1000, 4), (0x1008, 1)]).1.sync (ringWho 0 [5, 6, 1]) 2 0x100C (.write (toBytes 4 0))).2 = .ok [])
    ∧ ((node0 [(0x1000, 3), (0x1010, 2)]).1.nodeBusy 0x1000 = false ∧ (Node.loop 0 2 0 0).loopStep = some (1, [0]) ∧ (Node.join 1 0 7).joinStep = some (0, [7]))
    ∧ (let s (off : Nat) := wr [(0x1000, 3)] [] [(5, { graph0 with walks := [(6, { node := 0x1000, st := .storing (0x1000 + off) 1 [0] })] })]
       ((s 8).walkStores 5 6 8).map Prod.snd = some (0x1008, 1, [0]) ∧ ((s 12).walkStores 5 6 12).map Prod.snd = some (0x100C, 1, [0])
        ∧ ((s 8).sync (ringWho 0 [5, 6, 1]) 2 0x1008 (.write (toBytes 4 1))).2 = .ok []) := by decide +kernel

/-- The launch's only gang not yet placed, with stream 15 at some point of its work. -/
def dstream (quad : Option Nat) (back : Option Nat) (committed : Bool) : DStream :=
  { launch := 1, gang := 0, quad := quad, plan := if committed then [(1, 0)] else [], backoff := back, committed := committed }

def wds (st : DStream) (now : Nat) : State :=
  (((wr [] [] []).setRing { wk.ring with streams := [(15, st)], opReq := some 1 }).modLaunch 1 fun L => { L with pos := 0 }).setNow now

/-- A free choice of a quad is a quad. -/
theorem quad_free (s : State) (st : DStream) (h : ((s.launch? st.launch).bind fun L => look L.resv st.gang) = none) :
    s.quadOk st (s.pick 96) = true := by
  have : s.pick 96 < 96 := Nat.mod_lt _ (by omega)
  simp [State.quadOk, h, this]

/-- Four cores with room give a plan for a gang of one block. -/
theorem plan_free (s : State) (r : LRec) (l : List Use) (q : Nat) (h : ∀ i ∈ List.range 4, 0 < (r.starts l (4 * q + i)).length) (hr : r.ngang ≤ 4) :
    ∃ p, s.choosePlan r l q = some p := by
  have e : ∀ k c, 0 < (r.starts l c).length → ∃ y, (r.starts l c)[Config.freeChoice k % (r.starts l c).length]? = some y := fun k c hc =>
    ⟨_, List.getElem?_eq_getElem (Nat.mod_lt _ hc)⟩
  obtain ⟨a0, h0⟩ := e (s.ids + 2 ^ 64 * (0 + 1)) _ (h 0 (by simp))
  obtain ⟨a1, h1⟩ := e (s.ids + 2 ^ 64 * (1 + 1)) _ (h 1 (by simp))
  obtain ⟨a2, h2⟩ := e (s.ids + 2 ^ 64 * (2 + 1)) _ (h 2 (by simp))
  obtain ⟨a3, h3⟩ := e (s.ids + 2 ^ 64 * (3 + 1)) _ (h 3 (by simp))
  unfold State.choosePlan
  simp only [show List.range 4 = [0, 1, 2, 3] from rfl, List.filterMap_cons, h0, h1, h2, h3, Option.map_some, List.filterMap_nil,
    List.length_cons, List.length_nil]
  rw [if_neg (by omega)]
  exact ⟨_, rfl⟩

/-- The launch's block ended; beside it, or not, another block of its gang or another gang. -/
def wbe (mate gang2 : Bool) : State :=
  let s := (wk.modBlock 1 fun b => { b with live := [] }).modGang 2 fun K => { K with blocks := if mate then [1, 9] else [1] }
  let s := s.setBlocks (s.blocks ++ [(9, { launch := 1, lin := 1, x := 1, y := 0, z := 0, core := 1, gang := 2, gblk := 1, lbase := 0, lsize := 0
                                           groups := [256], live := [256], bars := [], ended := false, paid := 0 })])
  if gang2 then s.setGangs (s.gangs ++ [(10, { launch := 1, index := 1, quad := 1, blocks := [], bars := [] })]) else s

theorem test_meets_Dispatch :
    (let s := wds (dstream none none false) 0
     look s.ring.streams 15 = some (dstream none none false) ∧ s.nextGang 1 = some 0 ∧ s.quadOk (dstream none none false) 95 = true
      ∧ (s.ring.streams.find? fun e => e.1 != 15 && e.2.quad == some 95) = none)
    ∧ (let s := wds (dstream (some 95) none false) 0
       look s.ring.streams 15 = some (dstream (some 95) none false) ∧ s.nextGang 1 = some 0
        ∧ ((s.launch? 1).bind fun L => look L.resv 0) = none
        ∧ ∃ p, s.choosePlan (s.recOf 1) (s.uses 0 1 0) 95 = some p)
    ∧ (let s := wds (dstream none (some 70) false) 69
       look s.ring.streams 15 = some (dstream none (some 70) false) ∧ s.now < 70)
    ∧ (let s := wds (dstream none (some 70) false) 70
       70 ≤ s.now ∧ s.quadOk { dstream none (some 70) false with backoff := none } (s.pick 96) = true)
    ∧ (let s := wds (dstream none none true) 0
       look s.ring.streams 15 = some (dstream none none true) ∧ s.nextGang 1 = some 0
        ∧ (s.clearBanks s (s.domOf 1) ((dstream none none true).plan.map Prod.fst) (s.ctxs.map Prod.fst)).2 = true
        ∧ ((s.clearBanks s (s.domOf 1) ((dstream none none true).plan.map Prod.fst) (s.ctxs.map Prod.fst)).1.loadTs 0
            ((dstream none none true).plan.map Prod.fst)).2 = true
        ∧ ((dstream none none true).plan = [(1, 0)] ∧ (s.recOf 1).ngrp = 1 ∧ (s.launch? 1).isSome = true))
    ∧ ((wk.gang? 2).map Gang.blocks = some [1] ∧ (wk.block? 1).isSome = true)
    ∧ (let s := wk.modCore 0 fun K => { K with tags := [(0, { tagReset with owner := some 1, kind := 2, target := 0x2000 })] }
       ((get tagReset (s.core 0).tags 0).owner.isSome = true ∧ (get tagReset (s.core 0).tags 0).done = false ∧ s.joiners 0 0 tagReset.gen = []))
    ∧ (wds (dstream none none false) 0).ring.opReq = some 1 := by
  refine ⟨by decide +kernel, ⟨by decide +kernel, by decide +kernel, by decide +kernel, plan_free _ _ _ _ (by decide +kernel) (by decide +kernel)⟩,
    by decide +kernel, ⟨by decide +kernel, quad_free _ _ (by decide +kernel)⟩, by decide +kernel, by decide +kernel, by decide +kernel,
    by decide +kernel⟩

theorem test_meets_Dispatch_ends :
    (((wbe true false).block? 1).map fun b => (b.live, (wbe true false).quiet 1 b, b.launch, b.gang)) = some ([], true, 1, 2)
    ∧ ((wbe true false).ctx 0).pre = none ∧ ((wbe true false).gang? 2).map Gang.blocks = some [1, 9]
    ∧ (((wbe true false).block? 9).map Block.ended = some false)
    ∧ (((wbe false true).block? 1).map fun b => (b.live, (wbe false true).quiet 1 b)) = some ([], true)
    ∧ ((wbe false true).gang? 2).map Gang.blocks = some [1]
    ∧ (((wbe false true).launch? 1).map fun L => ((wbe false true).modBlock 1 fun b => { b with ended := true }).lastGang 2 L) = some false
    ∧ (((wbe false false).block? 1).map fun b => (b.live, (wbe false false).quiet 1 b)) = some ([], true)
    ∧ (((wbe false false).launch? 1).map fun L =>
        let s' := (wbe false false).modBlock 1 fun b => { b with ended := true }
        (s'.lastGang 2 L, (s'.updateWord L).2)) = some (true, true) := by decide +kernel

/-! ### Events of homes and requests -/

theorem arb_one (s : State) (pt : Point) (e : Nat × Packet) : s.arbitrate pt [e] = some (s.next.noteGrant pt true, e) := by
  have o : oldestOf [e] = some e := rfl
  have m : leastOf [e] = some e := rfl
  simp [State.arbitrate, o, m]

/-- Unit 0 serves packet 2, the only one that it could. -/
theorem serves_two (s : State) (p : Packet) (h : s.servable 0 = [(2, p)]) :
    s.arbitrate (.homeMem 0) (s.servable 0) = some (s.next.noteGrant (.homeMem 0) true, 2, p) := by rw [h]; exact arb_one _ _ _

/-- A packet at a point of its route. -/
def wq (r : List Point) (ph : Phase) (gen : W16) : State :=
  (wl.setNet { wl.net with packets := [(2, { pk ph with route := r })] }).setFw { wl.fw with smgen := gen }

/-- Page 1 has a leaf at 0x110, in the second tier; page 0 one at 0x100. -/
def leaves : List (Nat × Byte) := [(7, 0x80), (9, 1), (64, 1), (71, 0x80), (72, 0x10), (73, 1), (0x101, 0x20), (0x111, 0x40)]

def clear0 : Clear := { page := 0, next := 1023, written := [] }

/-- Page 1 has a leaf at 0x110 in the first tier, of no object or of object 1, whose lines other devices may hold. -/
def leaf1 (obj : Bool) : List (Nat × Byte) :=
  if obj then [(7, 0x80), (9, 1), (32, 3), (56, 1), (0x111, 0x20), (0x11E, 0x10)]
  else [(64, 1), (71, 0x80), (72, 0x10), (73, 1), (0x111, 0x20)]

/-- Packet 2 stands at home 0 over that memory, with a lane at an address. -/
def pk2 (a : Nat) (ph : Phase) : Packet := { pk ph with lanes := [⟨0, a, 0, 0⟩], route := [.homeMem 0] }

def wsv (obj : Bool) (p : Packet) : State :=
  (wl.setMem { wl.mem with phys := leaf1 obj }).setNet { wl.net with packets := [(2, p)] }

/-- Its home performs it, or structure bytes are, decided. -/
def performs (s : State) (p : Packet) : Bool :=
  match s.checkIn p.home p with
  | (r, .leaf _ l) => leafAper l == 1 && !r.waitsForReplicas l p && !r.next.keepsInSector 0 l p && !p.acq
  | _ => false

def structs (s : State) (p : Packet) : Bool :=
  match s.checkIn p.home p with
  | (_, .struct) => !p.acq
  | _ => false

/-- Home 0 is held, with more requests in service than it may have. -/
def whold : State :=
  (wl.setNet { wl.net with packets := (2, pk2 0 .going) :: (List.range 257).map fun i => (i + 3, pk .leaf) }).modHome 0 fun hm => { hm with hold := true }

theorem test_meets_HomeService :
    (let p := pk2 65536 .going
     let r := (wsv false p).next.noteGrant (.homeMem 0) true
     (wsv false p).arbitrate (.homeMem 0) ((wsv false p).servable 0) = some (r, 2, p)
      ∧ genOlder p.smgen r.fw.smgen = false ∧ unitOf r.fw p.home = 0 ∧ (r.home p.home).hold = false ∧ performs r p = true)
    ∧ (let p := pk2 0 .going
       (wq [.homeMem 0] .going 1).arbitrate (.homeMem 0) ((wq [.homeMem 0] .going 1).servable 0)
          = some ((wq [.homeMem 0] .going 1).next.noteGrant (.homeMem 0) true, 2, p)
        ∧ genOlder p.smgen ((wq [.homeMem 0] .going 1).next.noteGrant (.homeMem 0) true).fw.smgen = true)
    ∧ (let r := whold.next.noteGrant (.homeMem 0) true
       whold.arbitrate (.homeMem 0) (whold.servable 0) = some (r, 2, pk2 0 .going)
        ∧ genOlder (pk2 0 .going).smgen r.fw.smgen = false ∧ unitOf r.fw (pk2 0 .going).home = 0 ∧ (r.home (pk2 0 .going).home).hold = true)
    ∧ (let s := wsv false (pk2 65536 (.kept 0x110 0))
       s.arbitrate (.homeMem 0) (s.servable 0) = some (s.next.noteGrant (.homeMem 0) true, 2, pk2 65536 (.kept 0x110 0)))
    ∧ ((wsv true (pk2 0x110 .leaf)).packet? 2 = some (pk2 0x110 .leaf) ∧ (wsv true (pk2 0x110 .leaf)).leavesShared (pk2 0x110 .leaf) = true)
    ∧ ((wsv false (pk2 0x110 .leaf)).packet? 2 = some (pk2 0x110 .leaf) ∧ (wsv false (pk2 0x110 .leaf)).leavesShared (pk2 0x110 .leaf) = false
      ∧ structs (wsv false (pk2 0x110 .leaf)) (pk2 0x110 .leaf) = true)
    ∧ ((wsv false (pk2 65536 .replica)).packet? 2 = some (pk2 65536 .replica) ∧ performs (wsv false (pk2 65536 .replica)) (pk2 65536 .replica) = true)
    ∧ (let x : Clear := { page := 1, next := 1022, written := [] }
       let s := (wsv false (pk2 65536 .going)).modHome 0 fun hm => { hm with clears := [x] }
       (s.home 0).clears = [x] ∧ ∃ l, s.leafOf 0 (x.page * 65536) = some (0x110, l) ∧ x.next ∉ x.written
        ∧ (physKey 0 l (x.page * 65536 + 64 * x.next)).isSome = true ∧ x.next + 1 < 1024) :=
  ⟨⟨serves_two _ _ (by decide +kernel), by decide +kernel⟩, ⟨serves_two _ _ (by decide +kernel), by decide +kernel⟩,
    ⟨serves_two _ _ (by decide +kernel), by decide +kernel⟩, serves_two _ _ (by decide +kernel), by decide +kernel, by decide +kernel,
    by decide +kernel, by decide +kernel, 0x2000, by decide +kernel⟩

/-- A packet whose key has been found stale once. -/
def wk1 : State := wl.setNet { wl.net with packets := [(2, { pk (.landed .nrKey) with keyTries := 1 })] }

theorem test_meets_NegativeReplies :
    ((wpk (.landed (.nrFault 0 9))).packet? 2 = some (pk (.landed (.nrFault 0 9))) ∧ look ((wpk (.landed (.nrFault 0 9))).home 0).resolved 9 = none)
    ∧ look (((wpk (.landed (.nrFault 0 9))).modHome 0 fun hm => { hm with resolved := [(9, true)] }).home 0).resolved 9 = some true
    ∧ ((wl.setNet { wl.net with packets := [(2, { pk (.landed (.nrFault 0 9)) with kind := .pref true })] }).packet? 2).map Packet.kind
      = some (.pref true)
    ∧ wk1.packet? 2 = some { pk (.landed .nrKey) with keyTries := 1 }
    ∧ (let s := (wpk (.landed .nrKey)).modCore 0 fun K => { K with reloads := [(0, 1)], ts := [] }
       s.packet? 2 = some (pk (.landed .nrKey)) ∧ get 0 (s.core 0).reloads 0 ≠ (pk (.landed .nrKey)).checkedAt
        ∧ s.coreCheck 0 (s.grpOf 0).launch 1 (pk (.landed .nrKey)).addr = none)
    ∧ (let s := (wpk (.landed .nrKey)).modCore 0 fun K => { K with reloads := [(0, 1)] }
       s.packet? 2 = some (pk (.landed .nrKey)) ∧ get 0 (s.core 0).reloads 0 ≠ (pk (.landed .nrKey)).checkedAt
        ∧ (s.coreCheck 0 (s.grpOf 0).launch 1 (pk (.landed .nrKey)).addr).isSome = true)
    ∧ (wpk (.landed .nrBusy)).packet? 2 = some (pk (.landed .nrBusy))
    ∧ ((wpk (.busy 9)).packet? 2 = some (pk (.busy 9)) ∧ (wpk (.busy 9)).now < 9 ∧ 9 ≤ ((wpk (.busy 9)).setNow 9).now)
    ∧ ((wpk (.landed (.nrRedirect 1))).packet? 2 = some (pk (.landed (.nrRedirect 1))) ∧ genOlder ((wpk (.landed (.nrRedirect 1))).core 0).smgen 1 = true
      ∧ genOlder ((wpk (.landed (.nrRedirect 0))).core 0).smgen 0 = false)
    ∧ (wpk (.signalled false)).packet? 2 = some (pk (.signalled false)) ∧ (wpk (.signalled true)).packet? 2 = some (pk (.signalled true))
    ∧ ((wpk (.landed .err)).packet? 2 = some (pk (.landed .err)) ∧ (pk (.landed .err)).late = false ∧ (pk (.landed .err)).kind ≠ .store
      ∧ ((wpk (.landed .err)).grpOf 0).access? 1 = some acc0 ∧ ((wpk (.landed .err)).grpOf 0).arms ≠ [] ∧ (pk (.landed .err)).lanes ≠ []) := by
  decide +kernel

theorem test_meets_SliceMap :
    (0 < 192 ∧ 15 < 192 ∧ unitSector 0 = unitSector 15 ∧ w0.fw.retired.contains 15 = false ∧ w0.allInstalled = true ∧ w0.fw.retiring = none
      ∧ unitOf w0.fw 0 ≠ 15)
    ∧ 383 < 384 ∧ (w0.fw.retired = [] ∧ w0.net.packets = [])
    ∧ (w0.setFw { w0.fw with retiring := some (0, 15) }).fw.retiring = some (0, 15)
    ∧ (let s := (wk.setMem { wk.mem with phys := dom0 ++ image0 }).modCtx 0 fun c => { c with tsGen := 1 }
       s.staleTs 0 = [0] ∧ gotLen (s.readImage 0 0).2 = 512) := by decide +kernel

/-! ### Events of the network and the fabric -/

def hold0 (ph : Phase) : Hold := { key := [1], pass := 0, phase := ph, tries := 0, at_ := 0, req := 0, field := 1, late := false }

theorem test_meets_SlackClock :
    (look (wq [.core 0] .going 0).net.packets 2 = some { pk .going with route := [.core 0] } ∧ (pk .going).field ≠ 0xFFF ∧ ¬ (pk .going).field ≤ 1)
    ∧ (look (wpk (.busy 9)).net.packets 2 = some (pk (.busy 9)) ∧ (Phase.busy 9).moves = false)
    ∧ (look (wpk (.landed .nrKey)).net.packets 2 = some (pk (.landed .nrKey)))
    ∧ (let s := w0.setNet { w0.net with packets := [(2, { pk .going with field := 0xFFF }), (3, { pk .going with route := [.core 0], field := 1 })] }
       (look s.net.packets 2).map Packet.field = some 0xFFF ∧ (look s.net.packets 3).map Packet.field = some 1)
    ∧ (look (wpk (.polling 9)).net.packets 2 = some (pk (.polling 9)) ∧ look (wpk (.kept 0x110 0)).net.packets 2 = some (pk (.kept 0x110 0)))
    ∧ (let s := w0.setNet { w0.net with holds := [hold0 .keyed, hold0 .remote] }
       s.net.holds.map (fun h => decide (h.phase = .remote ∨ h.field = 0xFFF)) = [false, true]) := by decide +kernel

/-- A request for another device held 32 µs at the core. -/
def far0 : Packet := { pk .going with dev := 64, route := [.rontan 0] }

theorem test_meets_PacketMoves :
    ((wq [.slice 0, .homeMem 0] .going 0).points[0]? = some (.slice 0)
      ∧ ∃ r, (wq [.slice 0, .homeMem 0] .going 0).arbitrate (.slice 0) ((wq [.slice 0, .homeMem 0] .going 0).grantable (.slice 0))
        = some (r, 2, { pk .going with route := [.slice 0, .homeMem 0] }))
    ∧ ((wq [.core 0, .slice 0] .going 0).points[0]? = some (.core 0)
      ∧ ∃ r, (wq [.core 0, .slice 0] .going 0).arbitrate (.core 0) ((wq [.core 0, .slice 0] .going 0).grantable (.core 0))
        = some (r, 2, { pk .going with route := [.core 0, .slice 0] }))
    ∧ (let p := { pk .going with route := [.core 0, .slice 0] }
       (wq [.core 0, .slice 0] .going 0).l1Hit p = false ∧ (wq [.core 0, .slice 0] .going 0).rscHit p = false ∧ p.rel = false ∧ p.kind ≠ .store)
    ∧ (let s := (wl.setNet { wl.net with packets := [(2, far0)] }).setNow (32 * 7000)
       s.packet? 2 = some far0 ∧ far0.dev ≠ s.fw.dev ∧ far0.phase = .going ∧ (∀ c, far0.route.head? ≠ some (.core c))
        ∧ far0.born + 32 * 7000 ≤ s.now ∧ s.idFree = true)
    ∧ ((pk .going).splitsAt = none ∧ { pk (.back .nrKey) with route := [.core 0] }.phase = .back .nrKey
      ∧ { pk (.beat 1 0 0 [] []) with route := [.xbar 0 32] }.splitsAt = none
      ∧ { pk (.beat 1 0 0 [] []) with route := [.slice 0, .xbar 0 32] }.splitsAt = some 0) := by
  refine ⟨⟨by decide +kernel, ?_⟩, ⟨by decide +kernel, ?_⟩, by decide +kernel, ⟨by decide +kernel, by decide +kernel, by decide +kernel, ?_, by decide +kernel,
    by decide +kernel⟩, by decide +kernel⟩
  · rw [show (wq [.slice 0, .homeMem 0] .going 0).grantable (.slice 0) = [(2, { pk .going with route := [.slice 0, .homeMem 0] })] by decide +kernel]
    exact ⟨_, arb_one _ _ _⟩
  · rw [show (wq [.core 0, .slice 0] .going 0).grantable (.core 0) = [(2, { pk .going with route := [.core 0, .slice 0] })] by decide +kernel]
    exact ⟨_, arb_one _ _ _⟩
  · intro c h; cases h

/-- Link 17 with one flit, number 4095, not acknowledged; `resends` of it. -/
def wlink (resends : Nat) : State :=
  (w0.modLink 17 fun k => { k with unacked := [(4095, .idle)], resends := resends, sinceAck := 62 + resends }).setNow 7000

theorem test_meets_Links :
    (((wlink 0).link 17).up = true ∧ ((wlink 0).link 17).place 4095 = some 0 ∧ ((wlink 0).link 17).unacked ≠ []
      ∧ ((wlink 0).link 17).sentAt + 7000 ≤ (wlink 0).now ∧ ((wlink 7).link 17).resends < 8)
    ∧ (17 < 18 ∧ 8 ≤ ((wlink 8).link 17).resends) ∧ ((0 : Nat) ≠ 1 ∧ 3 < 4)
    ∧ (0 = ((wlink 0).link 17).expect ∧ ((wlink 0).link 17).sinceAck < 63 ∧ ¬ ((wlink 1).link 17).sinceAck < 63 ∧ 1 ≠ ((wlink 0).link 17).expect)
    ∧ (((wlink 0).link 17).sinceAck ≠ 0 ∧ ((wlink 0).link 17).ackAt + 700 ≤ (wlink 0).now) := by decide +kernel

def req0 (sends : Nat) : RemReq :=
  { dest := 64, body := .idle, sends := sends, sentAt := 0, for_ := .packet 2, done := none, failed := false, seen := 0
    told := false, link := some 0, got := [], bad := [] }

def dedupe0 : Dedupe := { src := 64, id := 5, at_ := 0, reply := [] }

def wrem (sends now : Nat) : State :=
  (w0.setFab { w0.fab with dedupe := [dedupe0], reqs := [(9, req0 sends)], used := [(1, 0)] }).setNow now

def carry0 : Carry := { acc := 1, va := 65536, field := 0xFFF, late := false, life := lifetime, adm := false }

/-- A read and a write of page 1 by device 64 are performed at home 0. -/
def outside (op : RemOp) : Bool :=
  let s := wsv false (pk .leaf)
  match s.outsideServe 64 0 (outsidePacket s carry0 op 65536 0 0 0) op.atomic (op.parts 65536) with
  | (_, .done _ b) => b == []
  | _ => false

theorem test_meets_RemoteRequests : RemOp.storing (.write []) = true
    ∧ (homeOf (wsv false (pk .leaf)).fw 65536 = some ((wsv false (pk .leaf)).fw.dev, 0) ∧ (wsv false (pk .leaf)).noRoom 64 2 = false
      ∧ (wsv false (pk .leaf)).passedOn 64 5 none = false
      ∧ outside (.read 4) = true ∧ outside (.write [1, 2, 3, 4]) = true ∧ (wsv false (pk .leaf)).fab.dedupe.length < Config.dedupeCap
      ∧ ((wsv false (pk .leaf)).fab.dedupe.find? fun d => d.src == 64 && d.id == 5) = none)
    ∧ ((wrem 1 0).fab.dedupe.find? fun d => d.src == 64 && d.id == 5) = some dedupe0
    ∧ (RemOp.read 4 = .read 4 ∧ (wrem 1 0).noRoom 64 2 = false ∧ (wrem 1 0).passedOn 64 6 (some 0) = false)
    ∧ (let s := (wrem 1 0).setFab { (wrem 1 0).fab with reqs := [(9, { req0 1 with for_ := .forward 64 6 0 4 4 })] }
       (s.fab.dedupe.find? fun d => d.src == 64 && d.id == 6) = none ∧ s.passedOn 64 6 none = true)
    ∧ ((wrem 1 0).fab.dedupe.find? fun d => d.src == 64 && d.id == 6) = none ∧ ((wrem 1 0).openMessage 64 6 128).isSome = true
    ∧ (look (wrem 1 0).fab.reqs 9 = some (req0 1) ∧ (wrem 1 0).hold? ((req0 1).for_.holdKey 9) = none ∧ (req0 1).done = none ∧ (req0 1).failed = false
      ∧ unsent (req0 1).body = 0 ∧ (wrem 1 55999).now < (req0 1).sentAt + 8 * 7000)
    ∧ (look (wrem 4 56000).fab.reqs 9 = some (req0 4) ∧ (req0 4).sentAt + 8 * 7000 ≤ (wrem 4 56000).now ∧ 4 ≤ (req0 4).sends)
    ∧ (let s := (wrem 3 56000).setFw { w0.fw with routes := [(64, [0, 1])] }
       (req0 3).sentAt + 8 * 7000 ≤ s.now ∧ (req0 3).sends < 4 ∧ s.noRoom (req0 3).dest (flitCls (req0 3).body) = false
        ∧ (req0 3).link = some 0 ∧ ∃ e ∈ s.openLinks (req0 3).dest (flitCls (req0 3).body), e ≠ 0)
    ∧ ((wrem 1 896000).fab.used = [(1, 0)] ∧ 0 + 128 * 7000 ≤ (wrem 1 896000).now ∧ (wrem 1 896000).net.packets = []) := by decide +kernel

/-! ### The host port, tenancy -/

theorem test_meets_HostAccesses : (w0.hstream 3).posted = [] ∧ ([1] : List Byte) ≠ [] ∧ (w0.hstream 3).reads = [] ∧ (8 : Nat) ≠ 0 := by decide +kernel

/-- A page with a length, a base in order or not, and a kick in flight or none. -/
def wpg (base len : W64) (kick : Option (BitVec 3 × List Nat)) (posted : List Posted) : State :=
  (w0.modPage 7 fun p => { p with klen := len, kbase := base, kick := kick }).modHStream 0 fun h => { h with posted := posted }

def posted0 : Posted := { seq := 4, relaxed := false, dst := .own 0, bytes := [1] }

theorem test_meets_Kicks :
    (((wpg 64 64 none []).hstream 0).posted = [] ∧ ((wpg 64 64 none []).page 7).kick = none
      ∧ kickOk ((wpg 64 64 none []).page 7).kbase.toNat ((wpg 64 64 none []).page 7).klen.toNat (4 : W64).toNat = true
      ∧ bits ((wpg 64 64 none []).page 7).klen.toNat 0 40 ≠ 0)
    ∧ (kickOk ((wpg 64 0 none []).page 7).kbase.toNat ((wpg 64 0 none []).page 7).klen.toNat (1 : W64).toNat = true
      ∧ bits ((wpg 64 0 none []).page 7).klen.toNat 0 40 = 0)
    ∧ kickOk ((wpg 1 64 none []).page 7).kbase.toNat ((wpg 1 64 none []).page 7).klen.toNat (1 : W64).toNat = false
    ∧ (((wpg 64 64 (some (1, [])) []).hstream 0).posted = [] ∧ ((wpg 64 64 (some (1, [])) []).page 7).kick.isSome = true)
    ∧ ((wpg 64 64 (some (1, [4])) [posted0]).page 7).kick = some (1, [4])
    ∧ (wpg 64 64 (some (1, [4])) [posted0]).kickWaits 1 [4] 64 64 = true ∧ (wpg 64 64 (some (1, [4])) []).kickWaits 1 [4] 64 64 = false := by
  decide +kernel

/-- A packet for the line of page 1, whose expander has been silent. -/
def silent0 : Packet := { pk (.silent 0) with lanes := [⟨0, 65536, 0, 0⟩] }

/-- A context with a checkpoint. -/
def wctx (f : Ctx → Ctx) : State := (wr [] [] []).modCtx 0 fun c => f { c with ckpt := some (State.reset.capture 0) }

def isLeaf : Served → Bool
  | .leaf _ _ => true
  | _ => false

theorem test_meets_Submissions : ((0x2000 : W64).toNat % 128 = 0 ∧ (0x2000 : W64).toNat < 2 ^ 57 ∧ w0.ring.queue.length < 1024)
    ∧ (w0.hstream 3).posted = []
    ∧ (let s := w0.setRing { w0.ring with queue := List.replicate 1024 (handoff0 false) }
       1024 ≤ s.ring.queue.length ∧ (s.hstream 3).posted = [])
    ∧ (0x1001 : W64).toNat % 64 = 1
    ∧ (((wctx id).page 0).tstat.getLsbD 0 = false ∧ ((wctx id).hstream 0).posted = []) ∧ ((2 : W64) ≠ 1 ∧ ((wctx id).ctx 0).stopping = false)
    ∧ (let s := (wl.setMem { wl.mem with phys := leaves }).setNet { wl.net with packets := [(2, silent0)] }
       s.packet? 2 = some silent0 ∧ s.now < 0 + 10 * 7000 ∧ isLeaf ((s.setNow 70000).checkIn silent0.home silent0).2 = true
        ∧ silent0.kind ≠ .store ∧ isLeaf ((s.setNow 70000).checkIn 0 { silent0 with kind := .store, acc := 2 }).2 = true) ∧ 7 < 8 := by
  decide +kernel

def pre0 (saved : Option Ckpt) : Preempted := { since := 0, why := 1, saved := saved, imaged := false }

/-- A context that holds a launch in the queue, off the cores. -/
def wq0 (c : Option Preempted) : State :=
  (((((wr [] [handoff0 false] []).setGroups []).setBlocks []).setGangs []).setLaunches []).modCtx 0 fun x => { x with pre := c }

def ck0 : Ckpt := (wq0 none).capture 0

/-- Its banks are clear, its turnstiles loaded, and then it is restored. -/
def restores (s : State) : Bool :=
  match s.restored 0 ck0 with
  | none => false
  | some t =>
    match s.clearBanks t 0 (t.coresOf 0) (s.ctxs.map Prod.fst) with
    | (z, true) => (match z.loadTs 0 (t.coresOf 0) with
      | (r, true) => (r.restored 0 ck0).isSome
      | _ => false)
    | _ => false

theorem test_meets_SafetyNet : (w0.domDues 5 = 0 ∧ (w0.setNow 7000).domDues 0 ≠ 0)
    ∧ ((w0.block? 1).isSome = true ∧ (w0.block? 1).map (fun B => w0.ofDom 0 B.launch) = some true) ∧ (wctx id).budget 0 ≤ 256
    ∧ (((wctx fun c => { c with suspended := true }).ctx 0).suspended = true ∧ 0 < (wctx fun c => { c with suspended := true }).budget 0)
    ∧ (let s := (wctx id).setNow (2 ^ 40)
       s.ckDue 0 = true ∧ s.writesOut 0 = false ∧ ∀ q ∈ s.quads, q.2.qau = [])
    ∧ (((wctx id).ctx 0).pre = none ∧ ((wctx id).ctx 0).ckpt.isSome = true ∧ ((wctx id).ctx 0).exposed = false ∧ ((wctx id).ctx 0).stopping = false
      ∧ ((wctx fun c => { c with exposed := true }).ctx 0).exposed = true)
    ∧ (let s := ((wctx fun c => { c with pre := some (pre0 none) }).modGroup 0 handlerG).setNow 7000000
       (s.ctx (s.domOf (s.grpOf 0).launch)).pre = some (pre0 none) ∧ (s.grpOf 0).inTrap.isSome = true ∧ (s.grpOf 0).preempt = none
        ∧ (pre0 none).since + 1000 * 7000 ≤ s.now) := by decide +kernel

/-- A rollback has groups, blocks and commands to take away; a byte of page 1 stands at its home alone. -/
theorem test_meets_SafetyNet_rollback :
    ((look ((wctx id).domGroups 0) 0).isSome = true ∧ (look ((wctx id).domBlocks 0) 1).isSome = true)
    ∧ (let s := (wsv false (pk .leaf)).modCtx 0 fun c => { c with ckpt := some (State.reset.capture 0) }
       homeOf s.fw 65536 = some (s.fw.dev, 0) ∧ s.readStruct 0 65536 1 = none
        ∧ (s.leafOf 0 65536).any (fun x => (physKey 0 x.2 65536).isSome) = true ∧ look s.mem.slice 65536 = none
        ∧ (s.ctx 0).ckpt.isSome = true) := by decide +kernel

theorem test_meets_SafetyNet_restore :
    (let s := wq0 (some (pre0 (some ck0)))
     (s.ctx 0).pre = some (pre0 (some ck0)) ∧ (s.ctx 0).stopping = false ∧ restores s = true ∧ ck0.queue = [handoff0 false])
    ∧ ((wq0 none).restored 0 ck0).isSome = true
    ∧ ((wctx id).block? 1).any (fun B =>
        (Restore.block { s := wctx id, slots := [], tags := [] } ((wctx id).capture 0) 0 1 B (1, 0)).isSome) = true
    ∧ (groupReset.preempt = none ∧ ∀ p ∈ ((wctx id).grpOf 0).arms, p.trap = none)
    ∧ (let G := { handlerG ((wctx id).grpOf 0) with preempt := some 0 }
       G.preempt.isSome = true ∧ G.inTrap.map (fun i => decide (i.arm < G.arms.length)) = some true) := by decide +kernel

/-- A bring-up of one home with its structure page, and the record of a concurrent launch with `SYS` set as the runtime's. -/
def bring0 : Bringup :=
  { dev := 0, dist := [(0, 0x8000000000000100)], routes := [], homes := [(0, (0, 4, 0))], structs := [(0, [1 <<< 63])], keyBase := 0, objBase := 0
    domBase := 0, runtime := 0x2000, smap := [], rtCores := [383], points := [(550, 1400)], mem := [(0x203A, 0x20)] }

theorem test_meets_BringUp : State.reset.fw.up = false ∧ bring0.points.length ≤ 15 ∧ (550, 1400) ∈ bring0.points
    ∧ (State.reset.bringTables bring0).runtimeOk bring0 = true ∧ (bring0.homes.map Prod.fst).Nodup
    ∧ (State.reset.setFw { State.reset.fw with up := true }).fw.up = true := by decide +kernel

theorem test_meets_DecodeEncode : Instr.wf (.iadd p0 .i32 (.v 1) (.v 1) (.imm 5)) = true ∧ isEvent (.iadd p0 .i32 (.v 1) (.v 1) (.imm 5)) = false
    ∧ decodeWords [0x00410042, 0x02008000, 0x00000005] = some (.iadd p0 .i32 (.v 1) (.v 1) (.imm 5)) := by decide

/-! ## Single steps, with the results the spec works out -/

/-- `v1` of lane 0 after an instruction. -/
def v1After (i : Instr) (f : Group → Group) : W32 := (after i f).rd 0 (.v 1)

/-- R104: −300 to `.i8`, saturated, and to `.n8`. -/
theorem test_step_icvt : v1After (.icvt p0 .i8 .i32 (.v 1) (.v 2) true) (vs [(2, 0xFFFFFED4)]) = 0xFFFFFF80
    ∧ v1After (.icvt p0 .n8 .i32 (.v 1) (.v 2) false) (vs [(2, 0xFFFFFED4)]) = 212 := by decide +kernel

/-- R102, R103 by hand: a sum that wraps, a high product of the most negative numbers, a shift by the width, a field past bit 31. -/
theorem test_step_integer : v1After (.iadd p0 .i32 (.v 1) (.v 2) (.v 3)) (vs [(2, 0x7FFFFFFF), (3, 1)]) = 0x80000000
    ∧ v1After (.imulh p0 .i32 (.v 1) (.v 2) (.v 2)) (vs [(2, 0x80000000)]) = 0x40000000
    ∧ v1After (.imulh p0 .n32 (.v 1) (.v 2) (.v 2)) (vs [(2, 0xFFFFFFFF)]) = 0xFFFFFFFE
    ∧ v1After (.shl p0 .n32 (.v 1) (.v 2) (.v 3)) (vs [(2, 1), (3, 32)]) = 0
    ∧ v1After (.sar p0 .i32 (.v 1) (.v 2) (.v 3)) (vs [(2, 0x80000000), (3, 40)]) = 0xFFFFFFFF
    ∧ v1After (.clz p0 .n32 (.v 1) (.v 2)) (vs [(2, 0x00010000)]) = 15
    ∧ v1After (.bfx p0 .n32 (.v 1) (.v 2) (.v 3)) (vs [(2, 0xABCD1234), (3, 0x0804)]) = 0x23
    ∧ v1After (.andn p0 .n32 (.v 1) (.v 2) (.v 3)) (vs [(2, 0xFF), (3, 0x0F)]) = 0xF0 := by decide +kernel

/-- A source that is also the destination; a pair's carry into its high word. -/
theorem test_step_overlap : v1After (.iadd p0 .i32 (.v 1) (.v 1) (.v 1)) (vs [(1, 21)]) = 42
    ∧ (after (.iadd p0 .i64 (.v 2) (.v 2) (.v 4)) (vs [(2, 0xFFFFFFFF), (3, 0), (4, 1), (5, 0)])).rd 0 (.v 3) = 1 := by decide +kernel

/-- R174. -/
theorem test_step_float : v1After (.fadd p0 .f32 .rn false (.v 1) (.v 2) (.v 3)) (vs [(2, 0x7F800000), (3, 0xFF800000)]) = 0x7FC00000
    ∧ v1After (.fmul p0 .f32 .rn false (.v 1) (.v 2) (.v 3)) (vs [(2, 0x40000000), (3, 0x7F800001)]) = 0x7FC00000
    ∧ v1After (.fadd p0 .f32 .rn true (.v 1) (.v 2) (.v 3)) (vs [(2, 0x3F400000), (3, 0x3F000000)]) = 0x3F800000
    ∧ v1After (.fmul p0 .f32 .rn true (.v 1) (.v 2) (.v 3)) (vs [(2, 0xBF000000), (3, 0x3F000000)]) = 0
    ∧ v1After (.fmin p0 .f32 (.v 1) (.v 2) (.v 3)) (vs [(2, 0x7FC01234), (3, 0x40000000)]) = 0x40000000
    ∧ v1After (.fmax p0 .f32 (.v 1) (.v 2) (.v 3)) (vs [(2, 0x80000000), (3, 0)]) = 0
    ∧ v1After (.fmax p0 .f32 (.v 1) (.v 2) (.v 3)) (vs [(2, 0x7FC01234), (3, 0xFF800001)]) = 0x7FC00000 := by decide +kernel

/-- R174, and R160: (+0 × −1) + (−0) is −0. -/
theorem test_step_scale : v1After (.fscale p0 .f32 .rn (.v 1) (.v 2) (.v 3)) (vs [(2, 0x3F800000), (3, 200)]) = 0x7F800000
    ∧ v1After (.fscale p0 .f32 .rz (.v 1) (.v 2) (.v 3)) (vs [(2, 0x3F800000), (3, 200)]) = 0x7F7FFFFF
    ∧ v1After (.fscale p0 .f32 .rn (.v 1) (.v 2) (.v 3)) (vs [(2, 0x3F800000), (3, 0xFFFFFF6A)]) = 0
    ∧ v1After (.ffma p0 .f32 .rn false (.v 1) (.v 2) (.v 3) (.v 4)) (vs [(2, 0), (3, 0xBF800000), (4, 0x80000000)]) = 0x80000000 := by decide +kernel

/-- R174: conversions. -/
theorem test_step_convert : v1After (.ftoi p0 .i32 .f32 .rn (.v 1) (.v 2)) (vs [(2, 0x40200000)]) = 2
    ∧ v1After (.ftoi p0 .i32 .f32 .rm (.v 1) (.v 2)) (vs [(2, 0xC0200000)]) = 0xFFFFFFFD
    ∧ v1After (.ftoi p0 .i32 .f32 .rn (.v 1) (.v 2)) (vs [(2, 0x4F32D05E)]) = 0x7FFFFFFF
    ∧ v1After (.ftoi p0 .i32 .f32 .rn (.v 1) (.v 2)) (vs [(2, 0x7FC00000)]) = 0
    ∧ v1After (.ftoi p0 .n8 .f32 .rn (.v 1) (.v 2)) (vs [(2, 0xC0600000)]) = 0
    ∧ v1After (.itof p0 .f32 .i32 .rn (.v 1) (.v 2)) (vs [(2, 16777217)]) = 0x4B800000
    ∧ v1After (.itof p0 .e4m3 .n32 .rn (.v 1) (.v 2)) (vs [(2, 1000)]) = 0x7E
    ∧ v1After (.fcvt p0 .e4m3 .f32 false .rn (.v 1) (.v 2) none) (vs [(2, 0x7F800000)]) = 0x7E
    ∧ v1After (.fcvt p0 .e4m3 .f32 false .rn (.v 1) (.v 2) none) (vs [(2, 0x7FC00000)]) = 0x7F
    ∧ v1After (.fcvt p0 .f16x2 .f32 false .rn (.v 1) (.v 2) (some (.v 3))) (vs [(2, 0x3F800000), (3, 0x40000000)]) = 0x40003C00 := by decide +kernel

/-- The groups of R168 and R173: 2^24 in lane 0 of `v2` and 1.0 elsewhere; four active lanes, and three, of 1.0625. -/
def redG (G : Group) : Group := (vs [(2, 0x3F800000)] G).put 0 (.v 2) 0x4B800000

theorem test_step_fred : v1After (.fred p0 .add .f32 .rn (.v 1) (.v 2)) redG = 0x4B800007
    ∧ v1After (.fred p0 .addx .f32 .rn (.v 1) (.v 2)) redG = 0x4B800008 := by decide +kernel

def narrowAfter (m : Lanes) : List W32 :=
  let G := after (.narrow p0 .e4m3 (.v 1) (.v 2) (.v 3)) fun G => { vs [(1, 0xAA), (2, 0x3F880000), (3, 0x3F800000)] G with exm := m }
  (List.range 4).map fun l => G.rd l (.v 1)

theorem test_step_narrow : narrowAfter 0xF = [0x38, 0x39, 0x38, 0x39] ∧ narrowAfter 0xD = [0x38, 0xAA, 0x39, 0x38] := by decide +kernel

/-- R151: the step sum of 2^24, 1 and 1 is exact, and added to 1 gives 16,777,220. -/
theorem test_step_matrix :
    let q : Quad := { quadReset with
      elems := [(0, 0x80), (1, 0x4B), (2, 0x80), (3, 0x3F), (4, 0x80), (5, 0x3F), (8192, 0x80), (8193, 0x3F), (8194, 0x80), (8195, 0x3F), (8196, 0x80), (8197, 0x3F)]
      scales := [(0, 0x7F), (128, 0x7F)], tiles := [(0, 0x3F800000)] }
    q.stepSum .bf16 .bf16 0 1 0 0 = 0x4B800001 ∧ accAdd 0x3F800000 0x4B800001 = 0x4B800002 := by decide +kernel

/-- R218: the home of the worked address; R219: its place. -/
theorem test_home : homeOf { firmReset with dev := 9, devs := [9], dist := [(5, 0x8000000900006030)] } 0x00005A5C3F120044 = some (9, 81)
    ∧ unitSector 81 = 5 ∧ unitSector 37 = 2 := by decide +kernel

/-- R102, R107, R110 by hand: a shift of lanes, a sum over three active lanes, a ballot of them. -/
theorem test_step_lanes :
    (let G := after (.lshift p0 .n32 (.v 1) (.v 2) (.v 3) (.inl 1) false) fun G =>
       (List.range 16).foldl (fun (G : Group) l => G.put l (.v 2) (BitVec.ofNat 32 l)) (vs [(3, 99)] G)
     (G.rd 0 (.v 1), G.rd 1 (.v 1), G.rd 15 (.v 1)) = (99, 0, 14))
    ∧ (let G := after (.lred p0 .add .n32 (.v 1) (.v 2)) fun G => { vs [(1, 5), (2, 3)] G with exm := 0x8003 }
       (G.rd 0 (.v 1), G.rd 15 (.v 1), G.rd 2 (.v 1)) = (9, 9, 5))
    ∧ (after (.vote p0 (.ballot 4) 1) fun G => { G with p := [(1, 0xFF0F)], exm := 0x00FF }).kr 4 = 0x0F := by decide +kernel

/-- R53, R105, R116, R121: `k0` keeps nothing; a logical shift; a count; reserved bits of `GCTL` are not set. -/
theorem test_step_uniform : (after (.kadd p0 0 (.inl 1) (.inl 1)) id).kr 0 = 0
    ∧ (after (.kshr p0 4 (.k 5) (.inl 4)) fun G => { G with k := [(5, 0x8000000000000000)] }).kr 4 = 0x0800000000000000
    ∧ ((after (.loopk 5 0x40) fun G => { G with k := [(5, 1)] }).armOf 0).pc = 12
    ∧ ((after (.loopk 5 0x40) fun G => { G with k := [(5, 2)] }).armOf 0).pc = 0x40
    ∧ (after (.mts p0 .gctl (.k 5)) fun G => { G with k := [(5, 0xFFFFFFFFFFFFFFFF)] }).gctl = 0x1F07 := by decide +kernel

/-- R30, R113: a branch taken by lanes 0 to 7 makes two paths. -/
theorem test_step_bra : ((after (.bra ⟨false, 1⟩ 0x40 0x80) halfG).arms.map fun p => (p.pc, p.lanes)) = [(16, 0xFF00), (0x40, 0x00FF)] := by decide +kernel

/-- R45, R46: the worked calls of a lane at quota 40; the first moves no unit, the return uses the link at position 7. -/
theorem test_step_call :
    (let G := after (.call p0 1 0x100) fun G => { G with quota := 40 }
     (G.D 0, G.F 0, G.rd 0 (.v 7), (G.armOf 0).pc) = (8, 0, 13, 0x100))
    ∧ (let G := after (.ret p0) retG
       (G.D 0, G.F 0, (G.armOf 0).pc) = (0, 0, 0x40)) := by decide +kernel

/-- R125: `TRAP` 5 in a group whose frame can be stored. -/
theorem test_step_trap :
    (match exec (.trap p0 5) wm with
     | .next t => ((t.grpOf 0).tcause, (t.grpOf 0).tpc, (t.pathOf 0 0).pc, (t.grpOf 0).inTrap.isSome, (t.grpOf 0).kr 28)
     | _ => (0, 0, 1, false, 0)) = (0x50E, 8, 0, true, 0x50E) := by decide +kernel

/-- R59, R256: a store to local memory by lane order, and the load that reads it. -/
theorem test_step_local :
    (match exec (.stl p0 .n32 .none .lane 0 ⟨0, .k 0, 4⟩ (.v 7)) wl with
     | .next t => t.lmRead 0 0 12
     | _ => []) = [0, 0, 0, 0, 15, 0, 0, 0, 0, 0, 0, 0] := by decide +kernel

end Sys2Proof.Tests
end

/-!
PROOFS. O15 (R105, R107): what `VTOK` does when all that it reads is at hand, and the window operand for which the statement fails.
-/

namespace Sys2Proof.Machine

/-! ## `VTOK` (R105) -/

/-- A change of the current group reads that group as it stands. -/
theorem modGroup_cur {s : State} {c : Cur} (h : s.cur = some c) (f : Group → Group) :
    s.modGroup c.g f = s.modGroup c.g fun _ => f c.grp := by
  obtain ⟨-, hg, -⟩ := cur_spec h
  unfold State.group? at hg
  unfold State.modGroup upd
  rw [hg]

/-- `VTOK` issues when the words of both its operands are at hand and the lane's value is there and sound: `kd` takes that value. -/
theorem vtok_done {s : State} {c : Cur} {g : Guard} {t : Ty} {a b : Src} {bs : List Byte} (d : BitVec 5)
    (hc : s.cur = some c) (hguard : c.guardWaits g = 0) (hact : c.act g ≠ 0) (hchip : c.path.onChip = true)
    (hwords : s.cwFor c (c.act g) [.op (.ty t) a none, .op (.ty t) b none] = (s, .ok bs))
    (hlane : ∀ q ∈ c.grp.srcLocs ((c.karg bs (.ty t) b).toNat % 16) (.ty t) a,
      c.grp.isPend ((c.karg bs (.ty t) b).toNat % 16) q.2 = false ∧ c.grp.isBad ((c.karg bs (.ty t) b).toNat % 16) q.2 = false) :
    Answers s (.vtok g t d a b) fun u => UniDone s u c (c.nextPc (.vtok g t d a b)) d
      (vtokR t (c.arg bs (.ty t) a ((c.karg bs (.ty t) b).toNat % 16))) := by
  have hpend := List.any_eq_false.mpr fun q hq => by simpa using (hlane q hq).1
  have hbad := List.any_eq_false.mpr fun q hq => by simpa using (hlane q hq).2
  refine ⟨_, ?_, kw_done hc hchip d _ _⟩
  show execVtok g t d a b s = _
  unfold Cur.karg at hpend hbad
  simp only [execVtok, onPath_cur hc, hwords, hguard, bne_self_eq_false, Bool.false_eq_true, if_false, if_neg hact, hpend, hbad]
  rw [modGroup_cur hc, modGroup_cur hc fun G => G.kw d _]
  rfl

/-! ## Why the statement of `VTOK` fails -/

/-- One converged group about to issue, whose launch binds window 0 to the one word at address 0; the word, 9, is in the constant cache. -/
def windowState : State :=
  ((State.reset.withFetchWord 64 0x0000803900410041).modLaunch 1 fun L => { L with lr := { L.lr with cwin := [some (0, 1)] } }).modCore 0
    fun K => { K with ccache := [(constKey 1 0, 9), (constKey 1 0 + 1, 0), (constKey 1 0 + 2, 0), (constKey 1 0 + 3, 0)] }

/-- The path of `windowState`. -/
def windowCur : Cur := windowState.cur.getD { g := 0, arm := 0, grp := groupReset, path := pathReset }

/-- `VTOK.n32 k1, c0[0], k0`: source A stands in a constant window (R85). -/
def windowVtok : Instr := .vtok ⟨false, 0⟩ .n32 1 (.cw 0 0) (.k 0)

/-- The instruction is one that programs may hold: R84 and R105 allow an X1 operand as source A. -/
theorem windowVtok_decodes : windowVtok.wf = true ∧ (encode windowVtok).bind decodeWords = some windowVtok := by decide

/-- The hypotheses of O15 about `windowVtok` hold; they ask for the window words of source B alone, and `k0` has none. -/
theorem windowVtok_ready : UniReady windowState windowCur ⟨false, 0⟩ [(.ty .n32, .k 0)] [] :=
  ⟨by decide, by decide, by decide, rfl, by decide⟩

/-- The model reads the words that the instruction needs, source A's among them. -/
theorem windowVtok_words : windowState.cwFor windowCur (windowCur.act ⟨false, 0⟩) [.op (.ty .n32) (.cw 0 0) none, .op (.ty .n32) (.k 0) none]
    = (windowState, .ok [9, 0, 0, 0]) := rfl

/-- `windowVtok` leaves the window's word in `k1`. -/
theorem windowVtok_done : Answers windowState windowVtok fun u => (u.grpOf windowCur.g).kr 1 = 9 := by
  obtain ⟨hc, hguard, hact, -, hchip⟩ := windowVtok_ready
  obtain ⟨u, hu, hdone⟩ := vtok_done 1 hc hguard hact hchip windowVtok_words (by simp [Group.srcLocs])
  exact ⟨u, hu, (hdone.value (by decide)).trans (by decide)⟩

/-- Refutes O15: its clause of `VTOK` supposes the constant-window words of source B alone at hand, and evaluates source A with them. A
well-formed `VTOK` may read source A from a window (R84, R85, R105): in `windowState` it then writes the window's word, 9, where the
statement demands 0. -/
theorem not_laneToUniform : ¬ Obligations.LaneToUniform := by
  intro h
  obtain ⟨hvtok, -⟩ := h ⟨false, 0⟩ .n32 1 (.cw 0 0) (.k 0) 0 windowState windowCur []
  obtain ⟨claimed, -⟩ := hvtok windowVtok_ready
  obtain ⟨u, hu, hdone⟩ := claimed (by simp [Group.srcLocs])
  obtain ⟨u', hu', nine⟩ := windowVtok_done
  have same : u = u' := by simpa using hu.symm.trans hu'
  have zero : (u.grpOf windowCur.g).kr 1 = 0 := (hdone.value (by decide)).trans (by decide)
  rw [same, nine] at zero
  exact absurd zero (by decide)

end Sys2Proof.Machine

/-!
PROOFS. O4 (R53): the hard-wired registers.
-/

namespace Sys2Proof.Machine

/-- Settles O4: register 0 and predicate 0 are read and written apart from the tables, and marks are not read. -/
theorem hardWired : Obligations.HardWired := by
  intro G l x y
  refine ⟨rfl, rfl, rfl, fun m loc => ?_, fun _ _ => rfl⟩
  calc (G.wr l (.p 0) y).rd m loc
      _ = (G.put l (.p 0) y).rd m loc := by rw [Group.wr, rd_setBad, rd_setOwners]
      _ = G.rd m loc := rfl

end Sys2Proof.Machine

/-!
PROOFS. What marking destinations pending does to a group (R54, R58): support of O18, O19, O26.
-/

namespace Sys2Proof.Machine

/-! ## Folds -/

/-- A fold reaches what one of its elements establishes, where its steps keep that, and keep what establishing it needs. -/
theorem foldl_reaches {α β : Type} {Q P : β → Prop} (f : β → α → β) (hQ : ∀ b a, Q b → Q (f b a)) (hP : ∀ b a, P b → P (f b a))
    {x : α} (hx : ∀ b, Q b → P (f b x)) {l : List α} (hl : x ∈ l) {b : β} (hb : Q b) : P (l.foldl f b) := by
  induction l generalizing b with
  | nil => simp at hl
  | cons y r ih =>
    rcases List.mem_cons.mp hl with rfl | hr
    · exact foldl_keeps f hP r (hx b hb)
    · exact ih hr (hQ b y hb)

/-! ## Marking destinations pending (R54, R58) -/

/-- Nothing but pending marks differs. -/
def Group.pendsOf (G H : Group) : Prop := { H with pend := G.pend } = G

/-- Nothing but `lat` and the marks of lane registers differs. -/
def Group.marksOf (G H : Group) : Prop := { H with lat := G.lat, pend := G.pend, poison := G.poison } = G

theorem Group.marksOf.trans {G H K : Group} (h : G.marksOf H) (k : H.marksOf K) : G.marksOf K := by
  unfold Group.marksOf at *; rw [← k] at h; exact h

theorem Group.pendsOf.trans {G H K : Group} (h : G.pendsOf H) (k : H.pendsOf K) : G.pendsOf K := by
  unfold Group.pendsOf at *; rw [← k] at h; exact h

theorem Group.pendsOf.marks {G H : Group} (h : G.pendsOf H) : G.marksOf H := by
  unfold Group.pendsOf Group.marksOf at *; rw [← h]

theorem Group.pendsOf.rd {G H : Group} (h : G.pendsOf H) (l : Nat) (loc : Loc) : H.rd l loc = G.rd l loc := by
  rw [← h]; cases loc <;> rfl

theorem Group.marksOf.rd {G H : Group} (h : G.marksOf H) (l : Nat) {loc : Loc} (hl : loc ≠ .lat) : H.rd l loc = G.rd l loc := by
  rw [← h]
  cases loc with
  | lat => exact absurd rfl hl
  | _ => rfl

/-- What a move of a path looks at is as it was. -/
theorem Group.marksOf.stands {G H : Group} (h : G.marksOf H) : H.arms = G.arms ∧ H.recon = G.recon ∧ H.exited = G.exited := by
  rw [← h]; exact ⟨rfl, rfl, rfl⟩

theorem Group.marksOf.resid {G H : Group} (h : G.marksOf H) : H.resid = G.resid := by rw [← h]

theorem Group.marksOf.D {G H : Group} (h : G.marksOf H) (l : Nat) : H.D l = G.D l := by rw [← h]; rfl

theorem pendsOf_addOwner (G : Group) (l : Nat) (loc : Loc) (w : Nat × Loc) : G.pendsOf (G.addOwner l loc w) := by
  unfold Group.addOwner; split <;> rfl

theorem ownersOf_addOwner (G : Group) (l m : Nat) (loc loc' : Loc) (w : Nat × Loc) :
    (G.addOwner l loc w).ownersOf m loc' = if loc ≠ .p 0 ∧ m = l ∧ loc' = loc then w :: G.ownersOf l loc else G.ownersOf m loc' := by
  unfold Group.addOwner
  by_cases h : loc = .p 0
  · rw [if_pos h, if_neg fun e => e.1 h]
  · rw [if_neg h, ownersOf_setOwners]; simp [h]

theorem isPend_iff (G : Group) (l : Nat) (loc : Loc) : G.isPend l loc = true ↔ G.ownersOf l loc ≠ [] := by
  simp [Group.isPend]

/-- One lane's words of a destination become pending for a write. -/
def Group.pendLane (w : Nat) (dst : LDst) (G : Group) (l : Nat) : Group :=
  (dst.locs (G.D l)).foldl (fun G x => G.addOwner l x.2 (w, x.2)) G

theorem pendsOf_foldl {α : Type} (f : Group → α → Group) (hf : ∀ (G : Group) (x : α), G.pendsOf (f G x)) (ls : List α) (G : Group) :
    G.pendsOf (ls.foldl f G) :=
  foldl_keeps (P := fun H => G.pendsOf H) f (fun _ x h => h.trans (hf _ x)) ls rfl

theorem pendsOf_pendLane (w : Nat) (dst : LDst) (G : Group) (l : Nat) : G.pendsOf (G.pendLane w dst l) :=
  pendsOf_foldl _ (fun _ _ => pendsOf_addOwner _ _ _ _) _ G

/-- No word of a destination is `p0`. -/
theorem locs_ne_p0 {b : Nat} {dst : LDst} {q : Bool × Loc} (h : q ∈ dst.locs b) : q.2 ≠ .p 0 := by
  cases dst with
  | reg t d => exact (dstLocs_ne h).2 0
  | pred p =>
    by_cases hp : p = 0
    · simp [LDst.locs, hp] at h
    · obtain rfl : q = (false, .p p.toNat) := by simpa only [LDst.locs, if_neg hp, List.mem_singleton] using h
      exact fun e => hp (BitVec.eq_of_toNat_eq (Loc.p.inj e))

theorem isPend_addOwner_keeps {G : Group} {m : Nat} {loc' : Loc} (h : G.isPend m loc' = true) (l : Nat) (loc : Loc) (w : Nat × Loc) :
    (G.addOwner l loc w).isPend m loc' = true := by
  rw [isPend_iff] at *
  rw [ownersOf_addOwner]
  split
  · simp
  · exact h

theorem isPend_pendLane_keeps {G : Group} {m : Nat} {loc : Loc} (h : G.isPend m loc = true) (w : Nat) (dst : LDst) (l : Nat) :
    (G.pendLane w dst l).isPend m loc = true :=
  foldl_keeps (P := fun H => Group.isPend H m loc = true) _ (fun _ _ h => isPend_addOwner_keeps h _ _ _) _ h

theorem isPend_pendLane (G : Group) (w : Nat) (dst : LDst) (l : Nat) {q : Bool × Loc} (hq : q ∈ dst.locs (G.D l)) :
    (G.pendLane w dst l).isPend l q.2 = true := by
  refine foldl_reaches (Q := fun _ => True) (P := fun H => Group.isPend H l q.2 = true) _ (fun _ _ _ => trivial)
    (fun _ _ h => isPend_addOwner_keeps h _ _ _) (fun H _ => ?_) hq trivial
  rw [isPend_iff, ownersOf_addOwner, if_pos ⟨locs_ne_p0 hq, rfl, rfl⟩]
  simp

theorem ownersOf_pendLane (G : Group) (w : Nat) (dst : LDst) (l m : Nat) {loc : Loc} (h : ∀ q ∈ dst.locs (G.D m), q.2 ≠ loc) :
    (G.pendLane w dst l).ownersOf m loc = G.ownersOf m loc := by
  unfold Group.pendLane
  by_cases hm : m = l
  · subst hm
    revert h
    generalize dst.locs (G.D m) = qs
    intro h
    induction qs generalizing G with
    | nil => rfl
    | cons q r ih =>
      refine (ih _ fun q' hq' => h q' (by simp [hq'])).trans ?_
      rw [ownersOf_addOwner, if_neg fun e => h q (by simp) e.2.2.symm]
  · refine foldl_keeps (P := fun H => Group.ownersOf H m loc = G.ownersOf m loc) _ (fun H q hH => ?_) _ rfl
    rw [ownersOf_addOwner, if_neg fun e => hm e.2.1]; exact hH

/-- Every word of a destination in some lanes becomes pending for a write. -/
def Group.pendLanes (w : Nat) (dst : LDst) (G : Group) (m : Lanes) : Group := m.list.foldl (Group.pendLane w dst) G

theorem lanePend_quiet (G : Group) (w : Nat) (live m : Lanes) (dst : LDst) : G.lanePend w live m dst false = G.pendLanes w dst m := by
  cases dst <;> rfl

theorem pendsOf_pendLanes (G : Group) (w : Nat) (dst : LDst) (m : Lanes) : G.pendsOf (G.pendLanes w dst m) :=
  pendsOf_foldl _ (fun _ _ => pendsOf_pendLane _ _ _ _) _ G

theorem isPend_pendLanes (G : Group) (w : Nat) (dst : LDst) {m : Lanes} {l : Nat} (hl : l ∈ m.list) {q : Bool × Loc}
    (hq : q ∈ dst.locs (G.D l)) : (G.pendLanes w dst m).isPend l q.2 = true := by
  refine foldl_reaches (Q := fun H => Group.pendsOf G H) (P := fun H => Group.isPend H l q.2 = true) _
    (fun H x h => h.trans (pendsOf_pendLane w dst H x)) (fun _ _ h => isPend_pendLane_keeps h _ _ _) (fun H hH => ?_) hl rfl
  exact isPend_pendLane H w dst l (by rw [hH.marks.D]; exact hq)

theorem ownersOf_pendLanes (G : Group) (w : Nat) (dst : LDst) (m : Lanes) {l : Nat} {loc : Loc} (h : ∀ q ∈ dst.locs (G.D l), q.2 ≠ loc) :
    (G.pendLanes w dst m).ownersOf l loc = G.ownersOf l loc := by
  refine (foldl_keeps (P := fun H => G.pendsOf H ∧ Group.ownersOf H l loc = G.ownersOf l loc) _ (fun H x hH => ?_) m.list ⟨rfl, rfl⟩).2
  refine ⟨hH.1.trans (pendsOf_pendLane w dst H x), (ownersOf_pendLane H w dst x l ?_).trans hH.2⟩
  rw [hH.1.marks.D]; exact h

/-- `lat` of some lanes becomes pending as the destination is (R54). -/
def Group.pendLats (w : Nat) (d : Dst) (G : Group) (m : Lanes) : Group :=
  m.list.foldl (fun G l => G.setOwners l .lat [(w, dstLow (G.D l) d)]) G

theorem lanePend_follow (G : Group) (w : Nat) (live m : Lanes) (t : Ty) (d : Dst) :
    G.lanePend w live m (.reg t d) true
      = (live &&& ~~~ m).list.foldl (fun G l => G.latIdle l d) ((G.pendLanes w (.reg t d) m).pendLats w d m) := rfl

theorem marksOf_foldl {α : Type} (f : Group → α → Group) (hf : ∀ (G : Group) (x : α), G.marksOf (f G x)) (ls : List α) (G : Group) :
    G.marksOf (ls.foldl f G) :=
  foldl_keeps (P := fun H => G.marksOf H) f (fun _ x h => h.trans (hf _ x)) ls rfl

theorem marksOf_pendLats (G : Group) (w : Nat) (d : Dst) (m : Lanes) : G.marksOf (G.pendLats w d m) :=
  marksOf_foldl _ (fun G l => show G.marksOf (G.setOwners l .lat _) from rfl) _ G

theorem marksOf_latIdle (G : Group) (l : Nat) (d : Dst) : G.marksOf (G.latIdle l d) := rfl

theorem marksOf_lanePend (G : Group) (w : Nat) (live m : Lanes) (dst : LDst) : G.marksOf (G.lanePend w live m dst true) := by
  cases dst with
  | pred p => exact (pendsOf_pendLanes G w (.pred p) m).marks
  | reg t d =>
    rw [lanePend_follow]
    exact ((pendsOf_pendLanes G w _ m).marks.trans (marksOf_pendLats _ w d m)).trans
      (marksOf_foldl _ (fun H x => marksOf_latIdle H x d) _ _)

/-- What `latIdle` does to the marks of places: `lat` of its own lane alone. -/
theorem isPend_latIdle (G : Group) (l m : Nat) (d : Dst) {loc : Loc} (h : loc ≠ .lat ∨ m ≠ l) :
    (G.latIdle l d).isPend m loc = G.isPend m loc := by
  rw [latIdle_eq]
  split
  · rfl
  · unfold Group.isPend
    rw [ownersOf_setBad, ownersOf_setOwners, if_neg (by tauto), ownersOf_put]

theorem isPend_setOwners_lat (G : Group) (l m : Nat) (w : Nat × Loc) {loc : Loc} (h : G.isPend m loc = true) :
    (G.setOwners l .lat [w]).isPend m loc = true := by
  rw [isPend_iff] at *
  rw [ownersOf_setOwners]
  split
  · simp
  · exact h

/-- A destination that has become pending is pending in its lanes, and `lat` with it where a vector is produced (R54, R58). -/
theorem lanePend_pends (G : Group) (w : Nat) (live : Lanes) {m : Lanes} (dst : LDst) {l : Nat} (hl : l ∈ m.list) :
    (∀ q ∈ dst.locs (G.D l), (G.lanePend w live m dst true).isPend l q.2 = true)
      ∧ ∀ t d, dst = .reg t d → (G.lanePend w live m dst true).isPend l .lat = true := by
  cases dst with
  | pred p => exact ⟨fun q hq => isPend_pendLanes G w (.pred p) hl hq, fun t d h => by cases h⟩
  | reg t d =>
    rw [lanePend_follow]
    have out : ∀ x ∈ (live &&& ~~~ m).list, l ≠ x := by
      rintro x hx rfl
      rw [mem_list] at hl hx
      simp [hl.2] at hx
    have idle : ∀ (H : Group) (loc : Loc), H.isPend l loc = true →
        ((live &&& ~~~ m).list.foldl (fun G x => G.latIdle x d) H).isPend l loc = true := by
      intro H loc
      revert out
      generalize (live &&& ~~~ m).list = xs
      intro out h
      induction xs generalizing H with
      | nil => exact h
      | cons x r ih =>
        exact ih _ (fun y hy => out y (by simp [hy])) ((isPend_latIdle H x l d (.inr (out x (by simp)))).trans h)
    refine ⟨fun q hq => idle _ _ ?_, fun _ _ _ => idle _ _ ?_⟩
    · exact foldl_keeps (P := fun H => Group.isPend H l q.2 = true) _ (fun _ _ h => isPend_setOwners_lat _ _ _ _ h) _
        (isPend_pendLanes G w _ hl hq)
    · refine foldl_reaches (Q := fun _ => True) (P := fun H => Group.isPend H l .lat = true) _ (fun _ _ _ => trivial)
        (fun _ _ h => isPend_setOwners_lat _ _ _ _ h) (fun H _ => ?_) hl trivial
      rw [isPend_iff, ownersOf_setOwners, if_pos ⟨rfl, rfl⟩]
      simp

end Sys2Proof.Machine

/-!
PROOFS. O18 and O19 (R60 to R67): instructions that park, are deferred, or find the residual file full.
-/

namespace Sys2Proof.Machine

/-! ## What `exec` does with an instruction of a lane, and with a memory access -/

theorem exec_lane {i : Instr} {op : LaneOp} (h : laneOpOf i = some op) (s : State) : exec i s = laneExec i op s := by
  unfold laneOpOf at h
  split at h <;> cases h <;> rfl

/-- A `POLL` alone has stages of its own. -/
theorem exec_mem {s : State} {c : Cur} {i : Instr} {op : MemOp} (hc : s.cur = some c) (h : memOpOf i = some op)
    (hp : op.kind = .poll → c.path.prog = .none) : exec i s = .next (s.issueMem memOpOf c i op) := by
  rw [← onPath_cur hc (fun c => s.issueMem memOpOf c i op)]
  unfold memOpOf at h
  split at h <;> cases h
  case h_9 g t cmp o sc slk d m e =>
    show execPoll g t cmp o sc slk d m e s = _
    unfold execPoll
    rw [onPath_cur hc, onPath_cur hc, hp rfl]
  all_goals rfl

theorem kind_ne_poll {op : MemOp} (h : op.drains = false) : op.kind ≠ .poll := by
  intro e
  simp [MemOp.drains, e] at h

/-! ## Instructions that must wait (R60, R61, R67) -/

/-- A lane instruction with a pending source or guard is deferred or parks. -/
theorem issueLane_waits {s : State} {c : Cur} {i : Instr} {op : LaneOp} {w : List Byte}
    (hw : s.cwFor c (c.act op.guard ||| c.guardWaits op.guard) op.srcs = (s, .ok w))
    (h : c.guardWaits op.guard ≠ 0 ∨ c.srcsWait (w64 (ofBytes w)) (c.act op.guard) op.srcs = true) :
    s.issueLane c i op = if c.grp.defm then
      s.defer c i op.guard op.srcs (some op.dst) true (w64 (ofBytes w)) (c.act op.guard) (c.guardWaits op.guard) [] else s.park c := by
  unfold State.issueLane
  simp only [hw]
  rw [if_pos (by simpa using h)]

theorem exec_lane_waits {s : State} {c : Cur} {i : Instr} {op : LaneOp} {w : List Byte} (hc : s.cur = some c) (hi : laneOpOf i = some op)
    (hw : s.cwFor c (c.act op.guard ||| c.guardWaits op.guard) op.srcs = (s, .ok w))
    (h : c.guardWaits op.guard ≠ 0 ∨ c.srcsWait (w64 (ofBytes w)) (c.act op.guard) op.srcs = true) :
    exec i s = .next (if c.grp.defm then
      s.defer c i op.guard op.srcs (some op.dst) true (w64 (ofBytes w)) (c.act op.guard) (c.guardWaits op.guard) [] else s.park c) := by
  rw [exec_lane hi, laneExec, onPath_cur hc, issueLane_waits hw h]

/-- A memory access that waits for a source, its guard or an older deferred one parks with `DEFM` clear. -/
theorem issueMem_parks {s : State} {c : Cur} {i : Instr} {op : MemOp} (hd : c.grp.defm = false)
    (h : c.guardWaits op.guard ≠ 0 ∨ c.srcsWait 0 (c.act op.guard) op.srcs = true) : s.issueMem memOpOf c i op = s.park c := by
  unfold State.issueMem
  dsimp only
  split
  · rfl
  · rw [if_pos (by simp only [Bool.or_eq_true, bne_iff_ne]; exact .inl h), if_pos (by simp [hd])]

/-- With `DEFM` set, one that does not drain is deferred. -/
theorem issueMem_defers {s : State} {c : Cur} {i : Instr} {op : MemOp} (hd : c.grp.defm = true) (hq : op.drains = false)
    (h : c.guardWaits op.guard ≠ 0 ∨ c.srcsWait 0 (c.act op.guard) op.srcs = true
      ∨ s.mustFollow c memOpOf op (c.act op.guard ||| c.guardWaits op.guard) ≠ []) :
    s.issueMem memOpOf c i op = s.defer c i op.guard op.srcs op.ldst false 0 (c.act op.guard) (c.guardWaits op.guard)
      (s.mustFollow c memOpOf op (c.act op.guard ||| c.guardWaits op.guard)) := by
  unfold State.issueMem
  dsimp only
  rw [if_neg (by simp [hq]), if_pos (by simp only [Bool.or_eq_true, bne_iff_ne, Bool.not_eq_true', List.isEmpty_eq_false_iff, or_assoc]; exact h),
    if_neg (by simp [hq, hd])]

theorem defer_full {s : State} {c : Cur} {i : Instr} {gd : Guard} {srcs : List LSrc} {dst : Option LDst} {follow : Bool} {cw : W64}
    {act gp : Lanes} {after : List Nat} (h : 16 ≤ c.grp.residUsed) :
    s.defer c i gd srcs dst follow cw act gp after = if c.grp.ovft then s.trapAt c 3 none else s.park c := by
  unfold State.defer
  rw [if_pos (show Config.residCap ≤ c.grp.residUsed from h)]

/-- One entry more in the residual file. -/
def Group.addResid (G : Group) (e : Resid) : Group := { G with resid := G.resid ++ [e] }

theorem rd_addResid (G : Group) (e : Resid) (l : Nat) (loc : Loc) : (G.addResid e).rd l loc = G.rd l loc := by cases loc <;> rfl

/-- A group that has taken a residual entry, whose destination has become pending. -/
def Group.withEntry (G : Group) (e : Resid) (p : Path) (m : Lanes) (dst : Option LDst) (follow : Bool) : Group :=
  match dst with
  | some d => (G.addResid e).lanePend e.id (G.liveOf p) m d follow
  | none => G.addResid e

theorem withEntry_follow (G : Group) (e : Resid) (p : Path) (m : Lanes) (d : LDst) :
    G.withEntry e p m (some d) true = (G.addResid e).lanePend e.id (G.liveOf p) m d true := rfl

theorem withEntry_quiet (G : Group) (e : Resid) (p : Path) (m : Lanes) (d : LDst) :
    G.withEntry e p m (some d) false = (G.addResid e).pendLanes e.id d m := lanePend_quiet _ _ _ _ _

theorem marksOf_withEntry (G : Group) (e : Resid) (p : Path) (m : Lanes) (dst : Option LDst) (follow : Bool) :
    (G.addResid e).marksOf (G.withEntry e p m dst follow) := by
  match dst, follow with
  | none, _ => rfl
  | some d, true => exact marksOf_lanePend _ _ _ _ d
  | some d, false => rw [withEntry_quiet]; exact (pendsOf_pendLanes _ _ d m).marks

theorem defer_room {s : State} {c : Cur} {i : Instr} {gd : Guard} {srcs : List LSrc} {dst : Option LDst} {follow : Bool} {cw : W64}
    {act gp : Lanes} {after : List Nat} (h : c.grp.residUsed < 16) :
    s.defer c i gd srcs dst follow cw act gp after = (s.next.modGroup c.g fun G =>
      G.withEntry (c.entry s.ids i gd srcs dst cw act gp after) c.path (act ||| gp) dst follow).goto c (c.nextPc i) := by
  unfold State.defer
  rw [if_neg (show ¬ Config.residCap ≤ c.grp.residUsed from by simpa [Config.residCap] using h)]
  rfl

/-- An entry of one group's file stands in the other's, under whichever arm. -/
theorem SameWork.resid_mem {G H : Group} (h : SameWork G H) {e : Resid} (he : e ∈ G.resid) : ∃ n, { e with arm := n } ∈ H.resid := by
  have : ({ e with arm := 0 } : Resid) ∈ H.resid.map fun e => { e with arm := 0 } := by rw [h.resid]; exact List.mem_map_of_mem he
  obtain ⟨x, hx, same⟩ := List.mem_map.mp this
  refine ⟨x.arm, ?_⟩
  rw [← show x = { e with arm := x.arm } from congrArg (fun y : Resid => { y with arm := x.arm }) same]
  exact hx

/-- A deferral with room in the file: the entry is there, the path has gone on, and the group is as `withEntry` leaves it. -/
theorem defer_deferred {s : State} {c : Cur} {i : Instr} {gd : Guard} {srcs : List LSrc} {dst : Option LDst} {follow : Bool} {cw : W64}
    {act gp : Lanes} {after : List Nat} (hc : s.cur = some c) (hchip : c.path.onChip = true) (h : c.grp.residUsed < 16) :
    let u := s.defer c i gd srcs dst follow cw act gp after
    Deferred s u c i (act ||| gp) srcs.length
      ∧ ∀ l loc, (u.grpOf c.g).isPend l loc
        = (c.grp.withEntry (c.entry s.ids i gd srcs dst cw act gp after) c.path (act ||| gp) dst follow).isPend l loc := by
  dsimp only
  rw [defer_room h]
  set e := c.entry s.ids i gd srcs dst cw act gp after with he
  have marks := marksOf_withEntry c.grp e c.path (act ||| gp) dst follow
  obtain ⟨harms, hrecon, hexited⟩ := marks.stands
  have hresid : (c.grp.withEntry e c.path (act ||| gp) dst follow).resid = c.grp.resid ++ [e] := marks.resid
  obtain ⟨only, work, rest, path⟩ := goto_only (s := s.next) hc hchip (fun G => G.withEntry e c.path (act ||| gp) dst follow)
    harms hrecon hexited (c.nextPc i)
  refine ⟨⟨only, path, ?_, ?_, fun l loc => ?_⟩, fun l loc => ?_⟩
  · obtain ⟨n, hn⟩ := work.resid_mem (e := e) (by rw [hresid]; simp)
    exact ⟨_, hn, rfl, rfl, rfl, rfl, List.length_map _⟩
  · simpa [hresid] using congrArg List.length work.resid
  · by_cases hl : loc = .lat
    · exact .inr hl
    · exact .inl ((rd_of_paths rest l loc).1.trans ((marks.rd l hl).trans (rd_addResid _ e l loc)))
  · unfold Group.isPend
    rw [(rd_of_paths rest l loc).2]

/-- Settles O18: whoever waits parks, or is deferred as `defer_deferred` says, the destination pending as `withEntry` leaves it. -/
theorem pendingSources : Obligations.PendingSources := by
  refine ⟨fun s c i hc hd h => ?_, ?_, ?_⟩
  · obtain ⟨op, w, hi, hw, h⟩ | ⟨op, hi, hp, h⟩ := h
    · rw [Parks, exec_lane_waits hc hi hw h, hd]; rfl
    · rw [Parks, exec_mem hc hi fun _ => hp, issueMem_parks hd h]; rfl
  · intro s c i op w hc hd hroom hchip hi m hw h
    obtain ⟨deferred, pends⟩ := defer_deferred (i := i) (gd := op.guard) (srcs := op.srcs) (dst := some op.dst) (follow := true)
      (cw := w64 (ofBytes w)) (act := c.act op.guard) (gp := c.guardWaits op.guard) (after := []) hc hchip hroom
    refine ⟨_, (exec_lane_waits hc hi hw h).trans (by rw [if_pos hd]), deferred, fun l hl => ?_⟩
    simp only [pends, withEntry_follow]
    exact lanePend_pends (c.grp.addResid _) _ _ op.dst hl
  · intro s c i op hc hd hroom hchip hi hq m h
    obtain ⟨deferred, pends⟩ := defer_deferred (i := i) (gd := op.guard) (srcs := op.srcs) (dst := op.ldst) (follow := false)
      (cw := 0) (act := c.act op.guard) (gp := c.guardWaits op.guard) (after := s.mustFollow c memOpOf op m) hc hchip hroom
    refine ⟨_, (exec_mem hc hi fun e => absurd e (kind_ne_poll hq)).trans (by rw [issueMem_defers hd hq h]), deferred,
      fun d hdst l hl q hql => ?_⟩
    have hdst : op.ldst = some (.reg op.ty d) := by rw [MemOp.ldst, hdst]; rfl
    rw [pends, hdst, withEntry_quiet]
    exact isPend_pendLanes (c.grp.addResid _) _ (.reg op.ty d) hl hql

/-- Settles O19: whoever waits with `DEFM` set is deferred, and a deferral finds the file full. -/
theorem fullResidualFile : Obligations.FullResidualFile := by
  intro s c i hc hd hfull h
  have deferred : exec i s = .next (if c.grp.ovft then s.trapAt c 3 none else s.park c) := by
    obtain ⟨op, w, hi, hw, h⟩ | ⟨op, hi, hq, h⟩ := h
    · rw [exec_lane_waits hc hi hw h, if_pos hd, defer_full hfull]
    · rw [exec_mem hc hi fun e => absurd e (kind_ne_poll hq), issueMem_defers hd hq h, defer_full hfull]
  refine ⟨fun ho => ?_, fun ho => ?_⟩
  · rw [Parks, deferred, ho]; rfl
  · rw [deferred, ho]; rfl

end Sys2Proof.Machine

/-!
PROOFS. O26 (R242 to R246, R299): global accesses that are sent.
-/

namespace Sys2Proof.Machine

/-! ## Packets queued one after another (R299) -/

theorem mem_put_other {α : Type} {t : Tab α} {i : Nat} {e : Nat × α} (he : e ∈ t) (h : e.1 ≠ i) (x : α) : e ∈ put t i x := by
  induction t with
  | nil => simp at he
  | cons y r ih =>
    simp only [put]
    rcases List.mem_cons.mp he with rfl | hr
    · rw [if_neg fun e => h e.symm]
      split <;> simp
    · split
      · simp [hr]
      · split
        · simp [hr]
        · simp [ih hr]

theorem mem_put_same {α : Type} (t : Tab α) (i : Nat) (x : α) : (i, x) ∈ put t i x := by
  induction t with
  | nil => simp [put]
  | cons y r ih =>
    simp only [put]
    split
    · subst_vars; simp
    · split
      · simp
      · simp [ih]

/-- From `s` to `t` packets have been queued under new identifiers, and nothing else has changed. -/
structure Queued (s t : State) : Prop where
  rest : { t with net := { t.net with packets := s.net.packets }, ids := s.ids } = s
  ids : s.ids ≤ t.ids
  older : ∀ n, n < s.ids → look t.net.packets n = look s.net.packets n

theorem Queued.refl (s : State) : Queued s s := ⟨rfl, Nat.le_refl _, fun _ _ => rfl⟩

theorem Queued.trans {s t u : State} (h : Queued s t) (k : Queued t u) : Queued s u :=
  ⟨(congrArg (fun x : State => { x with net := { x.net with packets := s.net.packets }, ids := s.ids }) k.rest).trans h.rest,
    h.ids.trans k.ids, fun n hn => (k.older n (by have := h.ids; omega)).trans (h.older n hn)⟩

theorem Queued.groups {s t : State} (h : Queued s t) : t.groups = s.groups := by rw [← h.rest]

theorem Queued.tick {s t : State} (h : Queued s t) : t.tick = s.tick := by rw [← h.rest]

theorem Moved.net {s t : State} {g : Nat} (h : Moved s t g) : t.net = s.net := by rw [← h.rest]

theorem queued_one (s : State) (p : Packet) : Queued s (s.sendPackets [p]) :=
  ⟨rfl, Nat.le_succ _, fun n hn => look_put_other _ _ (by omega)⟩

/-- A packet that was queued under an identifier already taken, from an earlier state. -/
def State.holds (s : State) (core launch : Nat) (own : ReqOf) (r : Req) (f : Nat) (l : List LaneReq) : Prop :=
  ∃ e ∈ s.net.packets, e.1 < s.ids ∧ ∃ t : State, e.2 = t.packetFor core launch own r f l

/-- The packets of an access are queued, one for each line. -/
theorem inject_queued (s : State) (core launch : Nat) (own : ReqOf) (r : Req) (rs : List LaneReq) :
    Queued s (s.inject core launch own r rs)
      ∧ ∀ l ∈ byLine rs, (s.inject core launch own r rs).holds core launch own r (s.slackField launch r.slk.toNat) l := by
  refine ⟨foldl_keeps (P := Queued s) _ (fun t l h => h.trans (queued_one t _)) _ (.refl s), fun l hl => ?_⟩
  refine foldl_reaches (Q := fun _ => True) (P := fun t => State.holds t core launch own r (s.slackField launch r.slk.toNat) l) _
    (fun _ _ _ => trivial) (fun t x h => ?_) (fun t _ => ?_) hl trivial
  · obtain ⟨e, he, hid, hp⟩ := h
    exact ⟨e, mem_put_other he (by omega) _, by show e.1 < t.ids + 1; omega, hp⟩
  · exact ⟨_, mem_put_same _ _ _, Nat.lt_succ_self _, t, rfl⟩

/-! ## Global accesses (R242, R245) -/

/-- A memory instruction whose sources are there, that follows nothing, comes to its checks (R242). -/
theorem issueMem_asked {s : State} {c : Cur} {i : Instr} {op : MemOp} {rs : List LaneReq} {ws : List (Nat × Int)}
    (h : MemAsked s c op rs ws) : s.issueMem memOpOf c i op = s.doMem memOpOf c i op (c.act op.guard) := by
  have follows : s.mustFollow c memOpOf op (c.act op.guard ||| c.guardWaits op.guard) = [] := by rw [h.guard]; simpa using h.follows
  have drained : ¬ ((op.drains && !c.drained) = true) := by
    intro e
    simp only [Bool.and_eq_true, Bool.not_eq_true'] at e
    simp [h.drained e.1] at e
  unfold State.issueMem
  dsimp only
  rw [if_neg drained, follows, if_neg (by have := h.there; simp [h.guard]; exact this), if_neg h.some, h.sound]
  rfl

/-- An access of one group is outstanding in the other, under whichever arm. -/
theorem SameWork.accs_mem {G H : Group} (h : SameWork G H) {a : Access} (ha : a ∈ G.accs) : ∃ n, { a with arm := n } ∈ H.accs := by
  have : ({ a with arm := 0 } : Access) ∈ H.accs.map fun a => { a with arm := 0 } := by rw [h.accs]; exact List.mem_map_of_mem ha
  obtain ⟨x, hx, same⟩ := List.mem_map.mp this
  refine ⟨x.arm, ?_⟩
  rw [← show x = { a with arm := x.arm } from congrArg (fun y : Access => { y with arm := x.arm }) same]
  exact hx

theorem doMem_glob {s : State} {c : Cur} {i : Instr} {op : MemOp} {rs : List LaneReq} {ws : List (Nat × Int)} (h : MemReady s c op rs ws)
    (hglob : op.space = .glob) (hpoll : op.kind ≠ .poll) (hpref : op.isPref = false) (hroom : s.hasRoom c.core rs = true) :
    s.doMem memOpOf c i op (c.act op.guard) = (s.sendGlobal c op (c.act op.guard) rs).goto c (c.nextPc i) := by
  unfold State.doMem
  simp only [h.asks, hpref, Bool.false_eq_true, if_false, hpoll, decide_false, Bool.false_and, h.checks, hglob, hroom, Bool.not_true]
  rfl

/-- The record of an access that its path sends now (R59). -/
def Cur.record (c : Cur) (id : Nat) (op : MemOp) (rs : List LaneReq) : Access :=
  accessOf id c.arm c.path.pc (op.toReq (c.act op.guard)) (c.act op.guard) rs (c.grp.bases (c.act op.guard)) none

/-- One access more is outstanding. -/
def Group.addAccess (G : Group) (a : Access) : Group := { G with accs := G.accs ++ [a] }

/-- The uniform registers, `EXM`, `GCTL` and the window bases are what pending marks leave alone. -/
theorem Group.pendsOf.uniform {G H : Group} (h : G.pendsOf H) : H.k = G.k ∧ H.exm = G.exm ∧ H.gctl = G.gctl ∧ H.base = G.base := by
  rw [← h]; exact ⟨rfl, rfl, rfl, rfl⟩

theorem uniform_of_paths {G H : Group} (h : { H with arms := G.arms, resid := G.resid, accs := G.accs } = G) :
    H.k = G.k ∧ H.exm = G.exm ∧ H.gctl = G.gctl ∧ H.base = G.base := by
  rw [← h]; exact ⟨rfl, rfl, rfl, rfl⟩

/-- A group of which an access has been sent, its destination pending. -/
def Group.withAccess (G : Group) (a : Access) (m : Lanes) (dst : Option LDst) : Group :=
  match dst with
  | some d => (G.addAccess a).pendLanes a.id d m
  | none => G.addAccess a

theorem pendsOf_withAccess (G : Group) (a : Access) (m : Lanes) (dst : Option LDst) : (G.addAccess a).pendsOf (G.withAccess a m dst) := by
  cases dst with
  | none => rfl
  | some d => exact pendsOf_pendLanes _ _ d m

theorem sendGlobal_eq (s : State) (c : Cur) (op : MemOp) (rs : List LaneReq) :
    s.sendGlobal c op (c.act op.guard) rs = (s.modGroup c.g fun G => G.withAccess (c.record s.ids op rs) (c.act op.guard) op.ldst).next.inject
      c.core c.grp.launch (.access c.g s.ids) (op.toReq (c.act op.guard)) rs := by
  have hgroup : (fun G : Group => G.withAccess (c.record s.ids op rs) (c.act op.guard) op.ldst)
      = fun G : Group => match op.ldst with
        | some d => (G.addAccess (c.record s.ids op rs)).lanePend s.ids ((G.addAccess (c.record s.ids op rs)).liveOf c.path) (c.act op.guard) d false
        | none => G.addAccess (c.record s.ids op rs) := by
    funext G
    cases op.ldst with
    | none => rfl
    | some d => exact (lanePend_quiet _ _ _ _ _).symm
  rw [hgroup]
  rfl

/-- A global access that is sent: what it leaves. -/
theorem sendGlobal_sent {s : State} {c : Cur} (op : MemOp) (rs : List LaneReq) (pc : W64) (hc : s.cur = some c) (hchip : c.path.onChip = true) :
    Sent s ((s.sendGlobal c op (c.act op.guard) rs).goto c pc) c op rs
      ∧ GoesOn s ((s.sendGlobal c op (c.act op.guard) rs).goto c pc) c pc := by
  obtain ⟨-, hg, hp⟩ := cur_spec hc
  rw [sendGlobal_eq]
  set a := c.record s.ids op rs with ha
  set K := c.grp.withAccess a (c.act op.guard) op.ldst with hK
  set s1 := (s.modGroup c.g fun G => G.withAccess a (c.act op.guard) op.ldst).next with hs1
  obtain ⟨queued, lines⟩ := inject_queued s1 c.core c.grp.launch (.access c.g s.ids) (op.toReq (c.act op.guard)) rs
  set r := s1.inject c.core c.grp.launch (.access c.g s.ids) (op.toReq (c.act op.guard)) rs with hr
  have pends := pendsOf_withAccess c.grp a (c.act op.guard) op.ldst
  obtain ⟨harms, hrecon, hexited⟩ := pends.marks.stands
  have group? : ∀ x, r.group? x = if x = c.g then some K else s.group? x := fun x => by
    unfold State.group?
    rw [queued.groups]
    exact (group?_modGroup s c.g x _).trans (by rw [hg]; rfl)
  have hrG : r.group? c.g = some K := by rw [group?, if_pos rfl]
  have hrg : r.grpOf c.g = K := by unfold State.grpOf; rw [hrG]; rfl
  obtain ⟨moved, goes⟩ := goto_of (s := s) hrG hp harms hrecon hexited queued.tick hchip pc
  have paths := hrg ▸ moved.grp
  have rd := rd_of_paths paths
  have rest : { r.goto c pc with groups := s.groups, net := { (r.goto c pc).net with packets := s.net.packets }, ids := s.ids } = s :=
    (congrArg (fun t : State => { t with groups := s.groups, net := { t.net with packets := s.net.packets }, ids := s.ids }) moved.rest).trans
      (congrArg (fun t : State => { t with groups := s.groups, ids := s.ids }) queued.rest)
  refine ⟨⟨rest, fun x hx => ?_, fun b n => ?_, ?_, fun d hd l hl q hq => ?_, fun l loc h => ?_, ?_, fun l hl => ?_, fun n hn => ?_⟩, goes⟩
  · rw [moved.others x hx, group?, if_neg hx]
  · have peek := congrArg (fun t : State => t.peek b n) rest
    exact peek
  · have outstanding : K.accs = c.grp.accs ++ [a] := by have q := congrArg Group.accs pends; exact q
    obtain ⟨n, hn⟩ := (hrg ▸ moved.work).accs_mem (a := a) (by rw [outstanding]; simp)
    exact ⟨_, hn, rfl, rfl, rfl, rfl, rfl, rfl⟩
  · unfold Group.isPend
    rw [(rd l q.2).2, hK, show op.ldst = some (.reg op.ty d) by rw [MemOp.ldst, hd]; rfl]
    exact isPend_pendLanes (c.grp.addAccess a) _ (.reg op.ty d) hl hq
  · refine ⟨(rd l loc).1.trans ((pends.rd l loc).trans (by cases loc <;> rfl)), (rd l loc).2.trans ?_⟩
    rw [hK]
    unfold Group.withAccess MemOp.ldst
    cases hd : op.dst with
    | none => rfl
    | some d =>
      rw [hd] at h
      exact ownersOf_pendLanes (c.grp.addAccess a) _ (.reg op.ty d) _ fun q hq => by simpa using List.all_eq_true.mp h q hq
  · obtain ⟨h1, h2, h3, h4⟩ := uniform_of_paths paths
    obtain ⟨k1, k2, k3, k4⟩ := pends.uniform
    exact ⟨h1.trans k1, h2.trans k2, h3.trans k3, h4.trans k4⟩
  · obtain ⟨e, he, -, t, hp⟩ := lines l hl
    rw [moved.net]
    exact ⟨e, he, by rw [hp]; exact ⟨rfl, rfl, rfl, rfl, rfl, rfl⟩⟩
  · rw [moved.net]
    exact queued.older n (Nat.lt_succ_of_le hn)

/-- Settles O26: the five forms differ in what they send; each is a global access of its path that no stage of its own holds back. -/
theorem globalAccesses : Obligations.GlobalAccesses := by
  intro i op s c rs ws hi h hroom
  have form : memOpOf i = some op ∧ op.space = .glob ∧ op.kind ≠ .poll ∧ op.isPref = false := by
    obtain ⟨g, t, o, sc, slk, d, m, e, x, hi⟩ := hi
    obtain ⟨rfl, rfl⟩ | ⟨rfl, rfl⟩ | ⟨rfl, rfl⟩ | ⟨f, rfl, rfl⟩ | ⟨f, rfl, rfl⟩ := hi <;>
      exact ⟨rfl, rfl, nofun, rfl⟩
  obtain ⟨hop, hglob, hpoll, hpref⟩ := form
  exact ⟨_, by rw [exec_mem h.cur hop fun e => absurd e hpoll, issueMem_asked h.toMemAsked, doMem_glob h hglob hpoll hpref hroom],
    sendGlobal_sent op rs _ h.cur h.chip⟩

end Sys2Proof.Machine

/-!
PROOFS. O30 (R245, R279): why the statement of the local reads fails.
-/

namespace Sys2Proof.Machine

/-! ## Why the statement of the local reads fails -/

/-- The place of a core's latest acquire among the requests (R279). -/
def State.acqPlace (s : State) (core : Nat) : Nat := get 0 s.net.acqs (4096 + core)

/-- An acquire's place is the identifier that is next when it is made. -/
theorem acqPlace_invalidate (s : State) (core : Nat) (sc : Scope) : (s.invalidate core sc).acqPlace core = s.ids := by
  have hids : (s.fresh core).ids = s.ids := by unfold State.fresh; split <;> rfl
  have hother : ∀ (t : State) (k : Nat), k ≠ 4096 + core → (t.countAcq k).acqPlace core = t.acqPlace core := fun t k hk => by
    simp [State.acqPlace, State.countAcq, get, look_put_other _ _ hk.symm]
  unfold State.invalidate
  dsimp only
  split
  · rw [hother _ _ (by unfold coreSector; omega)]
    split
    · rw [hother _ _ (by omega)]; simpa [State.acqPlace, get] using hids
    · simpa [State.acqPlace, get] using hids
  · split
    · rw [hother _ _ (by omega)]; simpa [State.acqPlace, get] using hids
    · simpa [State.acqPlace, get] using hids

/-- O30 has an acquiring access placed as if it were made before its own identifier is taken. -/
theorem Read.acqPlace {s u : State} {c : Cur} {i : Instr} {op : MemOp} {v : Nat → W64} (h : Read s u c i op v) (ha : op.ord.isAcq = true) :
    u.acqPlace c.core = s.ids := by
  have rest := congrArg (fun t : State => t.acqPlace c.core) h.rest
  rw [if_pos ha] at rest
  exact rest.trans (acqPlace_invalidate s c.core op.scope)

/-- One converged group about to issue, in a block with 512 bytes of local memory. -/
def acqState : State :=
  (State.reset.withFetchWord 64 0x0000803900410041).modLaunch 1 fun L => { L with lr := { L.lr with lmem := 512 } }

/-- The path of `acqState`. -/
def acqCur : Cur := acqState.cur.getD { g := 0, arm := 0, grp := groupReset, path := pathReset }

/-- `LDL.n32.acq.blk v1, [k0 + k0]`. -/
def acqLoad : Instr := .ldl ⟨false, 0⟩ .n32 .acq .blk 0 (.v 1) ⟨0, .k 0, 0⟩

/-- What `acqLoad` does as a memory operation. -/
def acqOp : MemOp := ldlOp ⟨false, 0⟩ .n32 .acq .blk 0 (.v 1) ⟨0, .k 0, 0⟩

/-- The instruction is one that programs may hold: R243 lets a local load acquire at `.blk` scope. -/
theorem acqLoad_decodes : acqLoad.wf = true ∧ (encode acqLoad).bind decodeWords = some acqLoad := by decide

/-- What the lanes of `acqLoad` ask for: every lane the word at local address 0. -/
def acqAsk : List LaneReq × List (Nat × Int) := acqOp.ask (acqCur.act acqOp.guard) (acqCur.vals 0 acqOp.srcs)

/-- The hypotheses of O30 about `acqLoad` hold in `acqState`. -/
theorem acqLoad_ready : MemReady acqState acqCur acqOp acqAsk.1 acqAsk.2 :=
  { cur := by decide, guard := by decide, some := by decide, there := by decide, sound := by decide, follows := by decide
    drained := by decide, asks := rfl, prog := by decide, chip := by decide, checks := by decide }

theorem acqLoad_now : LocalNow acqState acqCur acqOp := by
  unfold LocalNow; decide

/-- The model makes the acquire after the load has taken its identifier. -/
theorem acqLoad_place : Answers acqState acqLoad fun u => u.acqPlace acqCur.core = acqState.ids + 1 := ⟨_, rfl, by decide⟩

/-- Refutes O30 by `acqLoad`, which programs may hold (`acqLoad_decodes`): its clause of local loads and its clause of local atomics frame
what is left alone (`Read.rest`) by an invalidation made from the state before the access. An acquire remembers its place among the requests
as the next identifier (`State.invalidate`, R279), and the access has taken one before it acquires: after the acquiring load of `acqState` the
core's latest acquire stands at identifier 4, where the statement demands 3. -/
theorem not_localReads : ¬ Obligations.LocalReads := by
  intro h
  obtain ⟨u, hu, v, hread, -⟩ := h.1 ⟨false, 0⟩ .n32 .acq .blk 0 (.v 1) ⟨0, .k 0, 0⟩ acqState acqCur acqAsk.1 acqAsk.2 acqLoad_ready
    acqLoad_now rfl
  obtain ⟨u', hu', place⟩ := acqLoad_place
  have same : u = u' := by simpa using hu.symm.trans hu'
  rw [← same, hread.acqPlace rfl] at place
  exact absurd place (by decide)

end Sys2Proof.Machine

/-!
PROOFS. O22 (R45, R46, R116): calls and returns.
-/

namespace Sys2Proof.Machine

/-! ## Windows (R43, R45, R46) -/

/-- Nothing but the window bases and the stack registers with their marks differs. -/
def Group.stackOf (G H : Group) : Prop := { H with v := G.v, base := G.base, pend := G.pend, poison := G.poison } = G

theorem Group.stackOf.trans {G H K : Group} (h : G.stackOf H) (k : H.stackOf K) : G.stackOf K := by
  unfold Group.stackOf at *; rw [← k] at h; exact h

/-- A calling lane's link word has been written below its new window, and its window has slid (R45). -/
def Group.slideLane (n : Nat) (link : W32) (G : Group) (l : Nat) : Group :=
  { (G.wr l (.v (G.D l + n - 1)) link) with base := set 0 G.base l (G.D l + n) }

theorem D_setBase (G : Group) (t : Tab Nat) (l m x : Nat) :
    Group.D { G with base := set 0 t l x } m = if m = l then x else get 0 t m := by
  unfold Group.D
  split
  · subst_vars; exact get_set_same 0 t _ x
  · exact get_set_other 0 t x ‹_›

theorem D_slideLane (n : Nat) (link : W32) (G : Group) (l m : Nat) :
    (G.slideLane n link l).D m = if m = l then G.D l + n else G.D m := D_setBase _ _ _ _ _

theorem rd_slideLane (n : Nat) (link : W32) (G : Group) {l m : Nat} (hl : l < 16) (hm : m < 16) (loc : Loc) :
    (G.slideLane n link l).rd m loc = if m = l ∧ loc = .v (G.D l + n - 1) then link else G.rd m loc :=
  (show (G.slideLane n link l).rd m loc = (G.wr l (.v (G.D l + n - 1)) link).rd m loc by cases loc <;> rfl).trans
    (rd_wr G hl hm (.v (G.D l + n - 1)) loc link)

theorem stackOf_slideLane (n : Nat) (link : W32) (G : Group) (l : Nat) : G.stackOf (G.slideLane n link l) := rfl

/-- The windows of some lanes slid one after another: each slides as it stood, and the others stay. -/
theorem slideLanes_spec (n : Nat) (link : W32) (G : Group) (ls : List Nat) (hn : ls.Nodup) (h16 : ∀ l ∈ ls, l < 16) :
    G.stackOf (ls.foldl (Group.slideLane n link) G)
      ∧ (∀ m, (ls.foldl (Group.slideLane n link) G).D m = if m ∈ ls then G.D m + n else G.D m)
      ∧ ∀ m, m < 16 → ∀ loc, (ls.foldl (Group.slideLane n link) G).rd m loc
          = if m ∈ ls ∧ loc = .v (G.D m + n - 1) then link else G.rd m loc := by
  induction ls generalizing G with
  | nil => exact ⟨rfl, fun m => by simp, fun m _ loc => by simp⟩
  | cons x r ih =>
    obtain ⟨hx, hr⟩ := List.nodup_cons.mp hn
    obtain ⟨stack, hD, hrd⟩ := ih (G.slideLane n link x) hr fun l hl => h16 l (by simp [hl])
    refine ⟨(stackOf_slideLane n link G x).trans stack, fun m => ?_, fun m hm loc => ?_⟩
    · rw [List.foldl_cons, hD, D_slideLane]
      by_cases e : m = x
      · subst e; simp [hx]
      · simp [e]
    · rw [List.foldl_cons, hrd m hm, D_slideLane, rd_slideLane n link G (h16 x (by simp)) hm]
      by_cases e : m = x
      · subst e; simp [hx]
      · simp [e]

theorem overUnits_nil {G : Group} {q l : Nat} (h : G.D l + 32 - G.F l ≤ q) : G.overUnits q l = [] := by
  unfold Group.overUnits
  rw [show (G.D l + 32 - G.F l - q + 7) / 8 = 0 by omega]; rfl

theorem underUnits_nil {G : Group} {l d : Nat} (h : G.F l ≤ d) : G.underUnits l d = [] := by
  unfold Group.underUnits
  rw [show (G.F l - d + 7) / 8 = 0 by omega]; rfl

theorem flatMap_nil {α β : Type} {ls : List α} {f : α → List β} (h : ∀ l ∈ ls, f l = []) : ls.flatMap f = [] := by
  simpa [List.flatMap_eq_nil_iff] using h

/-- A call of lanes whose windows fit where they slide to spills nothing (R45). -/
theorem callSlide_fits {s : State} {c : Cur} {m : Lanes} {code : BitVec 2} {ret : W64} (hc : s.cur = some c)
    (hmax : ∀ l ∈ m.list, c.grp.D l + 8 * code.toNat + 31 ≤ 65535)
    (hfit : ∀ l ∈ m.list, c.grp.D l + 8 * code.toNat + 32 - c.grp.F l ≤ c.grp.quota) :
    s.callSlide c m code ret = .on (s.modGroup c.g fun _ => m.list.foldl (Group.slideLane (8 * code.toNat) (linkWord code ret)) c.grp) := by
  obtain ⟨stack, hD, -⟩ := slideLanes_spec (8 * code.toNat) (linkWord code ret) c.grp m.list (list_nodup m) fun l h => list_lt h
  set G := m.list.foldl (Group.slideLane (8 * code.toNat) (linkWord code ret)) c.grp with hG
  have floor : ∀ l, G.F l = c.grp.F l := fun l => by
    have q := congrArg (fun K : Group => K.F l) stack; exact q
  have units : (m.list.flatMap fun l => G.overUnits c.grp.quota l) = [] := flatMap_nil fun l hl =>
    overUnits_nil (by rw [hD, if_pos hl, floor]; exact hfit l hl)
  have short : (m.list.any fun l => decide (65535 < c.grp.D l + slideOf code + 31)) = false := List.any_eq_false.mpr fun l hl => by
    have := hmax l hl
    exact fun h => absurd (of_decide_eq_true h) (by unfold slideOf; omega)
  unfold State.callSlide
  simp only [cur_grpOf hc, short, Bool.false_eq_true, if_false]
  rw [show (m.list.foldl (fun (G : Group) l =>
      { (G.wr l (.v (G.D l + slideOf code - 1)) (linkWord code ret)) with base := set 0 G.base l (G.D l + slideOf code) }) c.grp) = G from rfl,
    units]
  rfl

theorem call_full {s : State} {c : Cur} {i : Instr} {g : Guard} {code : BitVec 2} {tgt : W64} (hc : s.cur = some c) (hguard : c.guardWaits g = 0)
    (hact : c.act g ≠ 0) (hfull : c.grp.exmOf c.path &&& ~~~ c.act g = 0)
    (hregion : tgt.extractLsb' 32 25 = (c.nextPc i).extractLsb' 32 25) (halign : tgt.extractLsb' 0 2 = 0)
    (hmax : ∀ l ∈ (c.act g).list, c.grp.D l + 8 * code.toNat + 31 ≤ 65535)
    (hfit : ∀ l ∈ (c.act g).list, c.grp.D l + 8 * code.toNat + 32 - c.grp.F l ≤ c.grp.quota) :
    s.call c i g code tgt = (s.modGroup c.g fun _ =>
      (c.act g).list.foldl (Group.slideLane (8 * code.toNat) (linkWord code (c.nextPc i))) c.grp).goto c tgt := by
  have hsplit : s.forSplit c (c.act g) = .on s := by unfold State.forSplit Cur.enabled; rw [if_pos (by simp [hfull])]
  unfold State.call
  rw [hguard, if_neg (by simp), if_neg hact]
  simp only [hsplit, callSlide_fits hc hmax hfit, hregion, halign, bne_self_eq_false, Bool.or_self, Bool.false_eq_true, if_false]
  unfold State.branchLanes Cur.enabled
  rw [if_pos hfull]

theorem exec_call {s : State} {c : Cur} {g : Guard} {code : BitVec 2} {i : Instr} {tgt : W64} (hc : s.cur = some c)
    (hi : (∃ off, i = .call g code off ∧ tgt = c.path.pc + off.signExtend 64) ∨ ∃ a, i = .calli g code a ∧ tgt = c.grp.kr a) :
    exec i s = .next (s.call c i g code tgt) := by
  obtain ⟨off, rfl, rfl⟩ | ⟨a, rfl, rfl⟩ := hi
  · exact onPath_cur hc _
  · exact onPath_cur hc _

/-- A full return whose link words are on chip and agree slides the windows back and fills nothing (R46). -/
theorem retSlide_fits {s : State} {c : Cur} {m : Lanes} (hc : s.cur = some c)
    (h : ∀ l ∈ m.list, 0 < c.grp.D l ∧ c.grp.isPend l (.v (c.grp.D l - 1)) = false
      ∧ retAddr c.path.pc (c.grp.link l) = retAddr c.path.pc (c.grp.link (lowLane m))
      ∧ ∃ d, retBase (c.grp.D l) (c.grp.link l) = some d ∧ c.grp.F l ≤ d ∧ c.grp.F l ≤ c.grp.D l - 1) :
    s.retSlide c m = (.on (s.modGroup c.g fun H =>
      { H with base := m.list.foldl (fun t l => set 0 t l ((retBase (c.grp.D l) (c.grp.link l)).getD 0)) H.base }),
      retAddr c.path.pc (c.grp.link (lowLane m))) := by
  have deep : (m.list.any fun l => decide (c.grp.D l = 0)) = false := List.any_eq_false.mpr fun l hl => by
    have := (h l hl).1; simpa using by omega
  have need : ((m.list.filter fun l => decide (c.grp.D l - 1 < c.grp.F l)).map fun l => (l, c.grp.F l - 8)) = [] := by
    rw [List.filter_eq_nil_iff.mpr fun l hl => ?_]; rfl
    obtain ⟨-, -, -, d, -, -, hF⟩ := h l hl
    simpa using hF
  have there : (m.list.any fun l => c.grp.isPend l (.v (c.grp.D l - 1))) = false := List.any_eq_false.mpr fun l hl => by simp [(h l hl).2.1]
  have agree : (m.list.any fun l => (retBase (c.grp.D l) (c.grp.link l)).isNone
      || retAddr c.path.pc (c.grp.link l) != retAddr c.path.pc (c.grp.link (lowLane m))) = false := List.any_eq_false.mpr fun l hl => by
    obtain ⟨-, -, hret, d, hd, -⟩ := h l hl
    simp [hd, hret]
  have units : (m.list.flatMap fun l => c.grp.underUnits l ((retBase (c.grp.D l) (c.grp.link l)).getD 0)) = [] := flatMap_nil fun l hl => by
    obtain ⟨-, -, -, d, hd, hF, -⟩ := h l hl
    rw [hd]; exact underUnits_nil hF
  unfold State.retSlide
  simp only [deep, Bool.false_eq_true, if_false, need, State.fillUnits, cur_grpOf hc, there, agree, units]

/-- A table whose entries for some lanes have been set. -/
theorem get_setLanes (f : Nat → Nat) (ls : List Nat) (t : Tab Nat) (k : Nat) :
    get 0 (ls.foldl (fun t l => set 0 t l (f l)) t) k = if k ∈ ls then f k else get 0 t k := by
  induction ls generalizing t with
  | nil => simp
  | cons x r ih =>
    rw [List.foldl_cons, ih]
    by_cases e : k = x
    · subst e; simp [get_set_same]
    · simp [e, get_set_other 0 t (f x) e]

theorem exec_ret {s : State} {c : Cur} {g : Guard} (hc : s.cur = some c) (hguard : c.guardWaits g = 0)
    (hact : c.act g ≠ 0) (hfull : c.grp.exmOf c.path &&& ~~~ c.act g = 0)
    (h : ∀ l ∈ (c.act g).list, 0 < c.grp.D l ∧ c.grp.isPend l (.v (c.grp.D l - 1)) = false
      ∧ retAddr c.path.pc (c.grp.link l) = retAddr c.path.pc (c.grp.link (lowLane (c.act g)))
      ∧ ∃ d, retBase (c.grp.D l) (c.grp.link l) = some d ∧ c.grp.F l ≤ d ∧ c.grp.F l ≤ c.grp.D l - 1) :
    exec (.ret g) s = .next ((s.modGroup c.g fun H =>
      { H with base := (c.act g).list.foldl (fun t l => set 0 t l ((retBase (c.grp.D l) (c.grp.link l)).getD 0)) H.base }).goto c
        (retAddr c.path.pc (c.grp.link (lowLane (c.act g))))) := by
  have hsplit : s.forSplit c (c.act g) = .on s := by unfold State.forSplit Cur.enabled; rw [if_pos (by simp [hfull])]
  show execRet g s = _
  unfold execRet
  rw [onPath_cur hc, hguard, if_neg (by simp), if_neg hact]
  simp only [hsplit, retSlide_fits hc h]
  unfold State.branchLanes Cur.enabled
  rw [if_pos hfull]

theorem D_of_paths {G H : Group} (h : { H with arms := G.arms, resid := G.resid, accs := G.accs } = G) (l : Nat) : H.D l = G.D l := by
  rw [← h]; rfl

/-- A return by a link word that names a slide slides back by it. -/
theorem retBase_some {d e : Nat} {link : W32} (h : retBase d link = some e) : e = d - 8 * (link.extractLsb' 0 2).toNat := by
  unfold retBase at h
  dsimp only at h
  split at h
  · simp at h
  · exact (Option.some.inj h).symm

/-- Settles O22, by the fold of its lanes' slides: nothing is spilled or filled, and the whole path goes on at one address. -/
theorem callsAndReturns : Obligations.CallsAndReturns := by
  refine ⟨fun g code i tgt s c hc hguard hact hchip hfull hi hregion halign _ hmax hfit => ?_,
    fun g s c hc hguard hact hchip hfull h => ?_⟩
  · obtain ⟨stack, hD, hrd⟩ := slideLanes_spec (8 * code.toNat) (linkWord code (c.nextPc i)) c.grp (c.act g).list (list_nodup _)
      fun l hl => list_lt hl
    refine ⟨_, by rw [exec_call hc hi, call_full hc hguard hact hfull hregion halign hmax hfit], ?_⟩
    set G := (c.act g).list.foldl (Group.slideLane (8 * code.toNat) (linkWord code (c.nextPc i))) c.grp
    have harms : G.arms = c.grp.arms := by have q := congrArg Group.arms stack; exact q
    have hrecon : G.recon = c.grp.recon := by have q := congrArg Group.recon stack; exact q
    have hexited : G.exited = c.grp.exited := by have q := congrArg Group.exited stack; exact q
    have hresid : G.resid = c.grp.resid := by have q := congrArg Group.resid stack; exact q
    have haccs : G.accs = c.grp.accs := by have q := congrArg Group.accs stack; exact q
    obtain ⟨only, work, rest, goes⟩ := goto_only hc hchip (fun _ => G) harms hrecon hexited tgt
    refine ⟨only, ⟨hresid ▸ work.resid, haccs ▸ work.accs⟩, goes, fun l hl => ⟨?_, ?_⟩, fun l _ hl => ?_, fun l h16 loc hl => ?_, ?_⟩
    · rw [D_of_paths rest, hD, if_pos hl]
    · rw [(rd_of_paths rest l _).1, hrd l (list_lt hl), if_pos ⟨hl, rfl⟩]; rfl
    · rw [D_of_paths rest, hD, if_neg hl]
    · rw [(rd_of_paths rest l _).1, hrd l h16, if_neg (by tauto)]
    · rw [← rest] at stack
      rw [harms, hresid, haccs] at stack
      exact stack
  · refine ⟨_, exec_ret hc hguard hact hfull h, ?_⟩
    obtain ⟨only, work, rest, goes⟩ := goto_only hc hchip (fun H : Group =>
      { H with base := (c.act g).list.foldl (fun t l => set 0 t l ((retBase (c.grp.D l) (c.grp.link l)).getD 0)) H.base }) rfl rfl rfl
      (retAddr c.path.pc (c.grp.link (lowLane (c.act g))))
    refine ⟨only, ⟨work.resid, work.accs⟩, goes, fun l hl => ?_, fun l _ hl => ?_, ?_⟩
    · obtain ⟨-, -, -, d, hd, -⟩ := h l hl
      rw [D_of_paths rest]
      refine (get_setLanes (fun l => (retBase (c.grp.D l) (c.grp.link l)).getD 0) _ _ l).trans ?_
      rw [if_pos hl, hd]
      exact retBase_some hd
    · rw [D_of_paths rest]
      exact (get_setLanes (fun l => (retBase (c.grp.D l) (c.grp.link l)).getD 0) _ _ l).trans (if_neg hl)
    · have q := congrArg (fun K : Group => { K with base := c.grp.base }) rest
      exact q

end Sys2Proof.Machine

/-!
PROOFS. O39 (R50, R51): quota transfer.
-/

namespace Sys2Proof.Machine

/-! ## Quota (R50, R51) -/

/-- The quota one group gives has gone to the other, and a `k` register of the giver says what is left (R51). -/
def State.granted (s : State) (g r : Nat) (d : BitVec 5) (left amt : Nat) : State :=
  (s.modGroup g fun G => ({ G with quota := left }).kw d (w64 left)).modGroup r fun G => { G with quota := G.quota + amt }

theorem group?_granted (s : State) {g r : Nat} (h : r ≠ g) (d : BitVec 5) (left amt x : Nat) :
    (s.granted g r d left amt).group? x
      = if x = r then (s.group? r).map fun G => { G with quota := G.quota + amt }
        else if x = g then (s.group? g).map fun G => ({ G with quota := left }).kw d (w64 left)
        else s.group? x := by
  unfold State.granted
  rw [group?_modGroup, group?_modGroup, group?_modGroup, if_neg h]

theorem quota_kw (G : Group) (d : BitVec 5) (x : W64) : (G.kw d x).quota = G.quota := by
  have q := congrArg Group.quota (regs_kw G d x); exact q

theorem stands_kw (G : Group) (d : BitVec 5) (x : W64) :
    (G.kw d x).arms = G.arms ∧ (G.kw d x).recon = G.recon ∧ (G.kw d x).exited = G.exited := by
  unfold Group.kw; split <;> exact ⟨rfl, rfl, rfl⟩

/-- What a transfer leaves whose path then goes on, in a state in which that path stands as `c` has it. -/
theorem granted_goto {z : State} {c : Cur} {r : Nat} (hz : z.group? c.g = some c.grp) (hp : c.grp.arm? c.arm = some c.path) (hr : r ≠ c.g)
    (hs : (z.group? r).isSome = true) (hchip : c.path.onChip = true) (d : BitVec 5) (left amt : Nat) (pc : W64) :
    let u := (z.granted c.g r d left amt).goto c pc
    ((u.grpOf c.g).quota = left ∧ (u.grpOf r).quota = (z.grpOf r).quota + amt
      ∧ (d ≠ 0 → (u.grpOf c.g).kr d = w64 left) ∧ (∀ j, j ≠ d → (u.grpOf c.g).kr j = c.grp.kr j))
    ∧ GoesOn z u c pc ∧ (∀ x, x ≠ c.g → x ≠ r → u.group? x = z.group? x) ∧ ∀ y k, u.peek y k = z.peek y k := by
  have own : (z.granted c.g r d left amt).group? c.g = some (({ c.grp with quota := left }).kw d (w64 left)) := by
    rw [group?_granted z hr, if_neg (Ne.symm hr), if_pos rfl, hz]; rfl
  obtain ⟨harms, hrecon, hexited⟩ := stands_kw { c.grp with quota := left } d (w64 left)
  obtain ⟨moved, goes⟩ := goto_of (s := z) own hp harms hrecon hexited rfl hchip pc
  have grp : (z.granted c.g r d left amt).grpOf c.g = ({ c.grp with quota := left }).kw d (w64 left) := by
    unfold State.grpOf; rw [own]; rfl
  have paths := grp ▸ moved.grp
  refine ⟨⟨?_, ?_, fun hd => ?_, fun j hj => ?_⟩, goes, fun x hx hxr => ?_, moved.only.bytes⟩
  · have q := congrArg Group.quota paths
    exact q.trans (quota_kw _ d _)
  · unfold State.grpOf
    rw [moved.others r hr, group?_granted z hr, if_pos rfl]
    obtain ⟨R, hR⟩ := Option.isSome_iff_exists.mp hs
    rw [hR]; rfl
  · rw [kr_of_paths paths, kr_kw, if_pos ⟨rfl, hd⟩]
  · rw [kr_of_paths paths, kr_kw, if_neg fun e => hj e.1]; rfl
  · rw [moved.others x hx, group?_granted z hr, if_neg hxr, if_neg hx]

theorem recipient_ne {s : State} {c : Cur} {n r : Nat} (h : s.recipient c n = some r) : r ≠ c.g := by
  have := List.find?_some h
  simp only [Bool.and_eq_true, bne_iff_ne] at this
  exact this.1.2

/-- A `QXFER` that may issue: its two refusals, and what it does with units to spill (R50, R51). -/
theorem exec_qxfer {g : Guard} {d : BitVec 5} {a : Src} {n : BitVec 4} {s : State} {c : Cur} {w : List Byte}
    (h : UniReady s c g [(.k64, a)] w) :
    let amt := 8 * n.toNat
    let refused := (s.modGroup c.g fun G => G.kw d 0).goto c (c.nextPc (.qxfer g d a n))
    exec (.qxfer g d a n) s = .next (match s.recipient c ((c.karg w .k64 a).toNat % 64) with
      | none => refused
      | some r =>
        if 128 < (s.grpOf r).quota + amt || c.grp.quota < 32 + amt then refused
        else
          let units := (~~~ c.grp.exited).list.flatMap fun l => c.grp.overUnits (c.grp.quota - amt) l
          if units.any fun u => c.grp.unitPend u.1 u.2 then s.park c
          else
            match s.spillUnits c.g c.arm units with
            | (s, .wait) => (s.modGroup c.g fun _ => c.grp).park c
            | (s, .fail x ad) => (s.modGroup c.g fun _ => c.grp).spillTrap c x ad
            | (s, .ok _) => (s.granted c.g r d (c.grp.quota - amt) amt).goto c (c.nextPc (.qxfer g d a n))) := by
  show execQxfer g d a n s = _
  unfold execQxfer
  rw [onPath_cur h.cur]
  exact congrArg Host.Outcome.next (once_ready h.guard h.some (by simp) h.words)


/-- Settles O39, by what a granted transfer leaves: of the issuing path's own state where no unit is spilled, else of the one after the spill. -/
theorem quotaTransfer : Obligations.QuotaTransfer := by
  intro g d a n s c w h i amt
  obtain ⟨-, hgrp, hpath⟩ := cur_spec h.cur
  have refused : Becomes s ((s.modGroup c.g fun G => G.kw d 0).goto c (c.nextPc i)) c (c.nextPc i) (c.grp.kw d 0) :=
    let ⟨harms, hrecon, hexited⟩ := stands_kw c.grp d 0
    mod_becomes h.cur (fun G => G.kw d 0) harms hrecon hexited h.chip _
  refine ⟨fun hnone => ⟨_, by rw [exec_qxfer h, hnone], refused⟩, ?_⟩
  intro r hr units
  have hne : r ≠ c.g := recipient_ne hr
  refine ⟨fun hbound => ⟨_, ?_, refused⟩, fun hto hfrom hsome => ?_⟩
  · rw [exec_qxfer h, hr]
    exact congrArg Host.Outcome.next (if_pos (by simpa using hbound))
  have issued : ∀ z b, (units.any fun x => c.grp.unitPend x.1 x.2) = false → s.spillUnits c.g c.arm units = (z, .ok b) →
      exec i s = .next ((z.granted c.g r d (c.grp.quota - amt) amt).goto c (c.nextPc i)) := fun z b hpend hspill => by
    rw [exec_qxfer h, hr]
    refine congrArg Host.Outcome.next ((if_neg (by simp; omega)).trans ((if_neg (by rw [hpend]; simp)).trans ?_))
    rw [hspill]
  refine ⟨fun hfit => ?_, fun z b hpend hspill hthere hsomez => ?_⟩
  · have none : units = [] := flatMap_nil fun l hl => overUnits_nil (hfit l hl)
    obtain ⟨⟨own, other, kd, kj⟩, goes, others, bytes⟩ :=
      granted_goto hgrp hpath hne hsome h.chip d (c.grp.quota - amt) amt (c.nextPc i)
    exact ⟨_, issued s [] (by rw [none]; rfl) (by rw [none]; rfl), own, other, kd, kj, goes, others, bytes⟩
  · obtain ⟨Z, hZ, hP⟩ : ∃ Z, z.group? c.g = some Z ∧ Z.arm? c.arm = some c.path := by
      unfold State.path? at hthere
      cases hz : z.group? c.g with
      | none => rw [hz] at hthere; simp at hthere
      | some Z => rw [hz] at hthere; exact ⟨Z, rfl, by simpa using hthere⟩
    obtain ⟨⟨own, other, kd, -⟩, -, others, -⟩ :=
      granted_goto (c := { c with grp := Z }) hZ hP hne hsomez h.chip d (c.grp.quota - amt) amt (c.nextPc i)
    exact ⟨_, issued z b hpend hspill, own, other, kd, others⟩

end Sys2Proof.Machine

/-!
PROOFS. O42 (R59, R62, R257, R260, R261): replies that land, polls that read again, entries that run.
-/

namespace Sys2Proof.Machine

/-! ## A value that lands (R59) -/

/-- The pending marks of a place. -/
def Group.marksAt (G : Group) (l : Nat) (loc : Loc) : List Pend := G.pend.filter fun q => q.lane == l && q.loc == loc

theorem mem_marksAt {G : Group} {l : Nat} {loc : Loc} {r : Pend} : r ∈ G.marksAt l loc ↔ r ∈ G.pend ∧ r.lane = l ∧ r.loc = loc := by
  simp [Group.marksAt]

theorem ownersOf_eq (G : Group) (l : Nat) (loc : Loc) : G.ownersOf l loc = ((G.marksAt l loc).head?.map Pend.owners).getD [] := by
  unfold Group.ownersOf Group.marksAt
  rw [List.head?_filter]
  cases G.pend.find? fun q => q.lane == l && q.loc == loc <;> rfl

/-- A place with one mark, of one owner. -/
theorem marksAt_one {G : Group} {l : Nat} {loc : Loc} {w : Nat × Loc} (how : G.ownersOf l loc = [w])
    (hone : (G.marksAt l loc).length = 1) : G.marksAt l loc = [{ lane := l, loc := loc, owners := [w] }] := by
  obtain ⟨r, hr⟩ := List.length_eq_one_iff.mp hone
  have hmem : r ∈ G.marksAt l loc := by rw [hr]; simp
  obtain ⟨-, rfl, rfl⟩ := mem_marksAt.mp hmem
  rw [ownersOf_eq, hr] at how
  rw [hr, ← show r.owners = [w] from how]

/-- What one mark that a landing write owns takes. -/
def Group.landMark (w l : Nat) (loc : Loc) (x : W32) (bad : Bool) (G : Group) (q : Pend) : Group :=
  ((G.put l q.loc x).setBad l q.loc bad).setOwners l q.loc (q.owners.takeWhile fun ow => ow != (w, loc))

/-- A place's marks and value, as a landing may change them. -/
def Group.stateAt (G : Group) (l : Nat) (loc : Loc) : List Pend × W32 := (G.marksAt l loc, G.rd l loc)

theorem marksAt_setOwners_same (G : Group) (l : Nat) (loc : Loc) : (G.setOwners l loc []).marksAt l loc = [] := by
  simp [Group.setOwners, Group.marksAt, List.filter_filter]

theorem marksAt_setOwners_other (G : Group) {l m : Nat} {loc loc' : Loc} (h : ¬ (m = l ∧ loc' = loc)) (ow : List (Nat × Loc)) :
    (G.setOwners m loc' ow).marksAt l loc = G.marksAt l loc := by
  have rest : ((G.pend.filter fun q => !(q.lane == m && q.loc == loc')).filter fun q => q.lane == l && q.loc == loc) = G.marksAt l loc := by
    rw [List.filter_filter]
    refine List.filter_congr fun q _ => ?_
    by_cases hq : q.lane = l ∧ q.loc = loc
    · obtain ⟨rfl, rfl⟩ := hq
      have hne : (q.lane == m && q.loc == loc') = false := by simpa using fun a b => h ⟨a.symm, b.symm⟩
      simp [hne]
    · simp only [Bool.and_eq_left_iff_imp, Bool.and_eq_true, beq_iff_eq]
      exact fun e => absurd e hq
  unfold Group.setOwners Group.marksAt
  dsimp only
  split
  · exact rest
  · rw [List.filter_cons, if_neg (by simpa using h)]; exact rest

theorem marksAt_put (G : Group) (l m : Nat) (loc loc' : Loc) (x : W32) : (G.put m loc' x).marksAt l loc = G.marksAt l loc := by
  unfold Group.put
  split
  · rfl
  · rfl
  · rfl
  · split <;> rfl

theorem stateAt_landMark_other (G : Group) {w l m : Nat} {loc loc' : Loc} {x : W32} {bad : Bool} {q : Pend} (hl : l < 16) (hm : m < 16)
    (h : ¬ (m = l ∧ q.loc = loc)) : (G.landMark w m loc' x bad q).stateAt l loc = G.stateAt l loc := by
  unfold Group.landMark Group.stateAt
  rw [marksAt_setOwners_other _ h, rd_setOwners, rd_setBad, rd_put G hm hl, if_neg fun e => h ⟨e.1.symm, e.2.symm⟩]
  exact congrArg (·, _) (marksAt_put G l m loc q.loc x)

theorem land_eq (G : Group) (w l : Nat) (loc : Loc) (x : W32) (bad : Bool) :
    ∃ H : Group, H.pend = G.pend ∧ (∀ m loc', H.stateAt m loc' = G.stateAt m loc')
      ∧ G.land w l loc x bad
        = (G.pend.filter fun q => q.lane == l && q.owners.contains (w, loc)).foldl (Group.landMark w l loc x bad) H := by
  refine ⟨_, ?_, ?_, rfl⟩
  · rfl
  · intro m loc'; cases loc' <;> rfl

/-- A write that lands elsewhere, or that no mark of a place names, leaves the place. -/
theorem stateAt_land_other (G : Group) {w l m : Nat} {loc loc' : Loc} (x : W32) (bad : Bool) (hl : l < 16) (hm : m < 16)
    (h : m = l → ∀ r ∈ G.marksAt l loc, (w, loc') ∉ r.owners) : (G.land w m loc' x bad).stateAt l loc = G.stateAt l loc := by
  obtain ⟨H, -, same, eq⟩ := land_eq G w m loc' x bad
  rw [eq]
  refine List.foldlRecOn (motive := fun K => Group.stateAt K l loc = G.stateAt l loc) _ _ (same l loc) fun K hK q hq => ?_
  simp only [List.mem_filter, Bool.and_eq_true, beq_iff_eq, List.contains_iff_mem] at hq
  obtain ⟨hpend, hlane, howns⟩ := hq
  refine (stateAt_landMark_other K hl hm fun e => ?_).trans hK
  exact h e.1 q (mem_marksAt.mpr ⟨hpend, hlane.trans e.1, e.2⟩) howns

/-- The youngest and only writer of a place lands there. -/
theorem stateAt_land_own (G : Group) {w l : Nat} {loc : Loc} (x : W32) (bad : Bool) (hl : l < 16) (hx : loc.hold x = x)
    (h : G.marksAt l loc = [{ lane := l, loc := loc, owners := [(w, loc)] }]) : (G.land w l loc x bad).stateAt l loc = ([], x) := by
  obtain ⟨H, -, -, eq⟩ := land_eq G w l loc x bad
  rw [eq]
  have own : ∀ K : Group, (K.landMark w l loc x bad { lane := l, loc := loc, owners := [(w, loc)] }).stateAt l loc = ([], x) := fun K => by
    simp [Group.landMark, Group.stateAt, marksAt_setOwners_same, rd_setOwners, rd_setBad, rd_put K hl hl, hx]
  have there : ({ lane := l, loc := loc, owners := [(w, loc)] } : Pend)
      ∈ G.pend.filter fun q => q.lane == l && q.owners.contains (w, loc) := by
    have := (mem_marksAt (G := G) (l := l) (loc := loc)).mp (h ▸ List.mem_singleton_self _)
    simpa using this.1
  obtain ⟨before, after, split⟩ := List.append_of_mem there
  rw [split, List.foldl_append, List.foldl_cons]
  refine List.foldlRecOn (motive := fun K => Group.stateAt K l loc = ([], x)) _ _ (own _) fun K hK q hq => ?_
  have hmem : q ∈ G.pend.filter fun q => q.lane == l && q.owners.contains (w, loc) := by rw [split]; simp [hq]
  simp only [List.mem_filter, Bool.and_eq_true, beq_iff_eq] at hmem
  by_cases hloc : q.loc = loc
  · have := h ▸ mem_marksAt.mpr ⟨hmem.1, hmem.2.1, hloc⟩
    rw [List.mem_singleton.mp this]
    exact own K
  · exact (stateAt_landMark_other K hl hl fun e => hloc e.2).trans hK

/-- A write that lands in a destination of another lane, or of which no mark of a place is left, leaves the place. -/
theorem stateAt_landDst_other (G : Group) {w l m : Nat} {loc : Loc} (t : Ty) (d : Dst) (wb : Tab Nat) (x : W64) (bad : Bool)
    (hl : l < 16) (hm : m < 16) (h : m = l → G.marksAt l loc = []) : (G.landDst w m t d wb x bad).stateAt l loc = G.stateAt l loc := by
  unfold Group.landDst
  refine List.foldlRecOn (motive := fun K => Group.stateAt K l loc = G.stateAt l loc) _ _ rfl fun K hK q _ => ?_
  refine (stateAt_land_other K _ _ hl hm fun e r hr => ?_).trans hK
  rw [show K.marksAt l loc = G.marksAt l loc from congrArg Prod.fst hK, h e] at hr
  simp at hr

theorem stateAt_landDst_own (G : Group) {w l : Nat} (t : Ty) (d : Dst) (wb : Tab Nat) (x : W64) (bad : Bool) (hl : l < 16)
    {q : Bool × Loc} (hq : q ∈ dstLocs t (get 0 wb l) d) (huniq : ((dstLocs t (get 0 wb l) d).filter fun r => r.2 == q.2) = [q])
    (h : G.marksAt l q.2 = [{ lane := l, loc := q.2, owners := [(w, q.2)] }]) :
    (G.landDst w l t d wb x bad).stateAt l q.2 = ([], half q.1 (extend t x)) := by
  unfold Group.landDst
  obtain ⟨before, after, split⟩ := List.append_of_mem hq
  have hbefore : ∀ r ∈ before, r.2 ≠ q.2 := fun r hr e => by
    rw [split, List.filter_append, List.filter_cons, if_pos (by simp)] at huniq
    have : r ∈ before.filter fun r => r.2 == q.2 := by simp [hr, e]
    cases hb : before.filter fun r => r.2 == q.2 with
    | nil => rw [hb] at this; simp at this
    | cons y ys => rw [hb] at huniq; simp at huniq
  rw [split, List.foldl_append, List.foldl_cons]
  set B := before.foldl (fun g q => g.land w l q.2 (half q.1 (extend t x)) bad) G
  have hB : B.stateAt l q.2 = G.stateAt l q.2 :=
    List.foldlRecOn (motive := fun K => Group.stateAt K l q.2 = G.stateAt l q.2) _ _ rfl fun K hK r hr =>
      (stateAt_land_other K _ _ hl hl fun _ y hy => by
        rw [show K.marksAt l q.2 = G.marksAt l q.2 from congrArg Prod.fst hK, h, List.mem_singleton] at hy
        simpa [hy] using hbefore r hr).trans hK
  refine List.foldlRecOn (motive := fun K => Group.stateAt K l q.2 = ([], half q.1 (extend t x))) _ _ ?_ fun K hK r _ => ?_
  · exact stateAt_land_own B _ bad hl (hold_dst hq _) ((congrArg Prod.fst hB).trans h)
  · refine (stateAt_land_other K _ _ hl hl fun _ y hy => ?_).trans hK
    rw [show K.marksAt l q.2 = [] from congrArg Prod.fst hK] at hy
    simp at hy

/-! ## What a landing leaves -/

/-- Nothing but lane registers with their marks, and what waits for their values, differs. -/
def Group.landingOf (G H : Group) : Prop :=
  { H with v := G.v, o := G.o, lat := G.lat, p := G.p, pend := G.pend, poison := G.poison, resid := G.resid, inTrap := G.inTrap } = G

theorem Group.landingOf.trans {G H K : Group} (h : G.landingOf H) (k : H.landingOf K) : G.landingOf K := by
  unfold Group.landingOf at *; rw [← k] at h; exact h

theorem Group.landingOf.foldl {α : Type} {f : Group → α → Group} (hf : ∀ (G : Group) (x : α), G.landingOf (f G x)) (xs : List α)
    (G : Group) :
    G.landingOf (xs.foldl f G) :=
  foldl_keeps (P := fun H => G.landingOf H) f (fun _ x h => h.trans (hf _ x)) xs rfl

theorem Group.regsOf.landing {G H : Group} (h : G.regsOf H) : G.landingOf H := by
  unfold Group.regsOf Group.landingOf at *; rw [← h]

theorem landingOf_landMark (w l : Nat) (loc : Loc) (x : W32) (bad : Bool) (G : Group) (q : Pend) : G.landingOf (G.landMark w l loc x bad q) :=
  Group.regsOf.landing (regsOf_put G l q.loc x)

theorem landingOf_land (G : Group) (w l : Nat) (loc : Loc) (x : W32) (bad : Bool) : G.landingOf (G.land w l loc x bad) :=
  Group.landingOf.trans (H := { G with
    resid := G.resid.map fun e => e.deliver l w loc x bad
    inTrap := G.inTrap.map fun t => { t with saved := t.saved.map fun e => e.deliver l w loc x bad, lat := t.lat.deliver l w loc x bad } })
    rfl (.foldl (landingOf_landMark w l loc x bad) _ _)

/-- The values of an access land; its record is still there. -/
def Group.landValues (a : Access) (G : Group) : Group :=
  match a.dst with
  | some d =>
    a.lanes.list.foldl (fun (G : Group) l =>
      G.landDst a.id l a.ty d a.wb (if a.isUniform then ((a.vals.head?).map Prod.snd).getD 0 else get 0 a.vals l) (a.badIn l)) G
  | none => G

theorem landAccess_eq (G : Group) (a : Access) :
    G.landAccess a = { G.landValues a with accs := (G.landValues a).accs.filter fun x => x.id != a.id } := rfl

theorem landingOf_landValues (G : Group) (a : Access) : G.landingOf (G.landValues a) := by
  unfold Group.landValues
  cases a.dst with
  | none => rfl
  | some d => exact .foldl (fun H l => .foldl (fun K q => landingOf_land K _ _ _ _ _) _ H) _ G

/-- An access that ends leaves every uniform register, `EXM` and how the group's paths stand, and no record of its own. -/
theorem landAccess_keeps (G : Group) (a : Access) :
    (G.landAccess a).k = G.k ∧ (G.landAccess a).exm = G.exm ∧ (G.landAccess a).arms = G.arms
      ∧ ∀ x ∈ (G.landAccess a).accs, x.id ≠ a.id := by
  have h := landingOf_landValues G a
  unfold Group.landingOf at h
  rw [landAccess_eq]
  refine ⟨?_, ?_, ?_, fun x hx => by simpa using (List.mem_filter.mp hx).2⟩
  · have q := congrArg Group.k h; exact q
  · have q := congrArg Group.exm h; exact q
  · have q := congrArg Group.arms h; exact q

/-- Where an access is a place's only writer, its value stands there, and the place is pending no more. -/
theorem landAccess_place (G : Group) (a : Access) {d : Dst} (hd : a.dst = some d) {l : Nat} (hl : l ∈ a.lanes.list)
    {q : Bool × Loc} (hq : q ∈ dstLocs a.ty (get 0 a.wb l) d) (huniq : ((dstLocs a.ty (get 0 a.wb l) d).filter fun r => r.2 == q.2) = [q])
    (how : G.ownersOf l q.2 = [(a.id, q.2)]) (hone : (G.marksAt l q.2).length = 1) :
    (G.landAccess a).rd l q.2
        = half q.1 (extend a.ty (if a.vals.length ≤ 1 then ((a.vals.head?).map Prod.snd).getD 0 else get 0 a.vals l))
      ∧ (G.landAccess a).isPend l q.2 = false := by
  have marks := marksAt_one how hone
  have h16 := list_lt hl
  obtain ⟨before, after, split⟩ := List.append_of_mem hl
  have nodup := list_nodup a.lanes
  rw [split] at nodup
  have lt : ∀ m, m ∈ before ∨ m ∈ after → m < 16 := fun m hm => list_lt (m := a.lanes) (by rw [split]; simp; tauto)
  have landed : (G.landValues a).stateAt l q.2
      = ([], half q.1 (extend a.ty (if a.isUniform then ((a.vals.head?).map Prod.snd).getD 0 else get 0 a.vals l))) := by
    unfold Group.landValues
    rw [hd]
    simp only [split, List.foldl_append, List.foldl_cons]
    generalize hB : before.foldl _ G = B
    have keep : B.stateAt l q.2 = G.stateAt l q.2 := by
      rw [← hB]
      refine List.foldlRecOn (motive := fun K => Group.stateAt K l q.2 = G.stateAt l q.2) _ _ rfl fun K hK m hm => ?_
      refine (stateAt_landDst_other K _ _ _ _ _ h16 (lt m (.inl hm)) fun e => ?_).trans hK
      subst e
      exact absurd (List.mem_cons_self) (List.disjoint_of_nodup_append nodup hm)
    refine List.foldlRecOn (motive := fun K => Group.stateAt K l q.2 = _) _ _ ?_ fun K hK m hm => ?_
    · exact stateAt_landDst_own B _ _ _ _ _ h16 hq huniq ((congrArg Prod.fst keep).trans marks)
    · exact (stateAt_landDst_other K _ _ _ _ _ h16 (lt m (.inr hm)) fun _ => congrArg Prod.fst hK).trans hK
  have place : (G.landAccess a).stateAt l q.2 = (G.landValues a).stateAt l q.2 := by
    rw [landAccess_eq]; unfold Group.stateAt; cases q.2 <;> rfl
  rw [landed] at place
  refine ⟨(congrArg Prod.snd place).trans ?_, ?_⟩
  · simp [Access.isUniform]
  · rw [Group.isPend, ownersOf_eq, show (G.landAccess a).marksAt l q.2 = [] from congrArg Prod.fst place]; rfl

/-! ## Local atomics that come to stand (R257) -/

/-- Nothing but cores and quads differs. -/
def State.localsOf (s t : State) : Prop := { t with cores := s.cores, quads := s.quads } = s

theorem State.localsOf.trans {s t u : State} (h : s.localsOf t) (k : t.localsOf u) : s.localsOf u := by
  unfold State.localsOf at *; rw [← k] at h; exact h

/-- One atomic under way is performed in its core, where it is one of the quad's. -/
def State.landAtom (q : Nat) (s : State) (x : QAtom) : State :=
  if coreQuad x.core = q then s.modCore x.core fun K => K.store x.addr x.bytes else s

theorem localsOf_landAtom (q : Nat) (s : State) (x : QAtom) : s.localsOf (s.landAtom q x) := by
  unfold State.landAtom; split <;> rfl

/-- Atomics that come to stand are the older ones, up to some number. -/
theorem landAtoms_eq (s : State) (q : Nat) (p : QAtom → Bool) : s.landAtoms q p = s ∨ ∃ n, s.landAtoms q p
    = (((s.quad q).qau.take n).foldl (State.landAtom q) s).modQuad q fun Q => { Q with qau := Q.qau.drop n } := by
  unfold State.landAtoms
  dsimp only
  split
  · exact .inl rfl
  · exact .inr ⟨_, rfl⟩

theorem localsOf_landAtoms (s : State) (q : Nat) (p : QAtom → Bool) : s.localsOf (s.landAtoms q p) := by
  obtain h | ⟨n, h⟩ := landAtoms_eq s q p
  · rw [h]; rfl
  · rw [h]
    exact (foldl_keeps (P := fun t => s.localsOf t) _ (fun t x h => h.trans (localsOf_landAtom q t x)) _ rfl :
      s.localsOf (((s.quad q).qau.take n).foldl (State.landAtom q) s)).trans rfl

/-- Atomics on a core's local memory, performed one after another. -/
def storeAtoms (core : Nat) (l : List QAtom) (t : Tab Byte) : Tab Byte :=
  (l.filter fun x => x.core == core).foldl (fun t x => setRange 0 t x.addr x.bytes) t

theorem storeAtoms_append (core : Nat) (l r : List QAtom) (t : Tab Byte) :
    storeAtoms core (l ++ r) t = storeAtoms core r (storeAtoms core l t) := by
  unfold storeAtoms; rw [List.filter_append, List.foldl_append]

theorem storeAtoms_cons (core : Nat) (x : QAtom) (l : List QAtom) (t : Tab Byte) :
    storeAtoms core (x :: l) t = storeAtoms core l (if x.core = core then setRange 0 t x.addr x.bytes else t) := by
  unfold storeAtoms
  by_cases h : x.core = core <;> simp [h]

theorem get_setRange_congr {t u : Tab Byte} {k : Nat} (h : get 0 t k = get 0 u k) (i : Nat) (l : List Byte) :
    get 0 (setRange 0 t i l) k = get 0 (setRange 0 u i l) k := by
  by_cases hk : k < i ∨ i + l.length ≤ k
  · rw [get_setRange_other 0 t i k l hk, get_setRange_other 0 u i k l hk, h]
  · obtain ⟨n, rfl⟩ := Nat.exists_eq_add_of_le (show i ≤ k by omega)
    rw [get_setRange_same 0 t i n l (by omega), get_setRange_same 0 u i n l (by omega)]

/-- A byte is what the atomics that meet it leave, the others passed over. -/
theorem get_meets (core k : Nat) (l : List QAtom) {t u : Tab Byte} (h : get 0 t k = get 0 u k) :
    get 0 ((l.filter fun x => x.meets core k 1).foldl (fun t x => setRange 0 t x.addr x.bytes) t) k = get 0 (storeAtoms core l u) k := by
  induction l generalizing t u with
  | nil => exact h
  | cons x r ih =>
    rw [storeAtoms_cons]
    by_cases hm : x.meets core k 1 = true
    · have hc : x.core = core := by simp only [QAtom.meets, Bool.and_eq_true, beq_iff_eq] at hm; exact hm.1.1
      rw [List.filter_cons, if_pos hm, if_pos hc]
      exact ih (get_setRange_congr h _ _)
    · rw [List.filter_cons, if_neg hm]
      refine ih (h.trans ?_)
      split
      · refine (get_setRange_other 0 u _ _ _ ?_).symm
        simp_all [QAtom.meets]; omega
      · rfl

theorem gangRead_one (s : State) (core k : Nat) :
    s.gangRead core k 1 = [get 0 (storeAtoms core (s.quad (coreQuad core)).qau (s.core core).lmem) k] :=
  congrArg (fun x => [x]) (get_meets core k _ rfl)

theorem core_modCore (s : State) (c d : Nat) (f : Core → Core) : (s.modCore c f).core d = if d = c then f (s.core c) else s.core d := by
  unfold State.core State.modCore get
  split
  · subst_vars; exact congrArg (·.getD coreReset) (look_put_same _ _ _)
  · exact congrArg (·.getD coreReset) (look_put_other _ _ ‹_›)

theorem quad_modQuad (s : State) (p q : Nat) (f : Quad → Quad) : (s.modQuad p f).quad q = if q = p then f (s.quad p) else s.quad q := by
  unfold State.quad State.modQuad get
  split
  · subst_vars; exact congrArg (·.getD quadReset) (look_put_same _ _ _)
  · exact congrArg (·.getD quadReset) (look_put_other _ _ ‹_›)

theorem lmem_landAtom (q : Nat) (s : State) (x : QAtom) (core : Nat) : ((s.landAtom q x).core core).lmem
    = if coreQuad core = q ∧ x.core = core then setRange 0 (s.core core).lmem x.addr x.bytes else (s.core core).lmem := by
  unfold State.landAtom
  by_cases hc : x.core = core
  · subst hc
    by_cases hq : coreQuad x.core = q
    · rw [if_pos hq, core_modCore, if_pos rfl, if_pos ⟨hq, rfl⟩]; rfl
    · rw [if_neg hq, if_neg (show ¬ (coreQuad x.core = q ∧ x.core = x.core) from fun e => hq e.1)]
  · rw [if_neg (show ¬ (coreQuad core = q ∧ x.core = core) from fun e => hc e.2)]
    by_cases hq : coreQuad x.core = q
    · rw [if_pos hq, core_modCore, if_neg (Ne.symm hc)]
    · rw [if_neg hq]

theorem lmem_landAtom_foldl (q : Nat) (l : List QAtom) (s : State) (core : Nat) : ((l.foldl (State.landAtom q) s).core core).lmem
    = if coreQuad core = q then storeAtoms core l (s.core core).lmem else (s.core core).lmem := by
  induction l generalizing s with
  | nil => split <;> rfl
  | cons x r ih =>
    rw [List.foldl_cons, ih, lmem_landAtom, storeAtoms_cons]
    by_cases hq : coreQuad core = q <;> simp [hq]

theorem quads_landAtom_foldl (q : Nat) (l : List QAtom) (s : State) : (l.foldl (State.landAtom q) s).quads = s.quads :=
  foldl_keeps (P := fun t => State.quads t = s.quads) _ (fun t x h => by
    refine Eq.trans ?_ h
    unfold State.landAtom; split <;> rfl) l rfl

/-- Atomics that come to stand read as they did before (R257). -/
theorem gangRead_landAtoms (s : State) (q : Nat) (p : QAtom → Bool) (core k : Nat) :
    (s.landAtoms q p).gangRead core k 1 = s.gangRead core k 1 := by
  rw [gangRead_one, gangRead_one]
  obtain h | ⟨n, h⟩ := landAtoms_eq s q p
  · rw [h]
  · rw [h]
    set t := ((s.quad q).qau.take n).foldl (State.landAtom q) s with ht
    have hq : ∀ x, t.quad x = s.quad x := fun x => congrArg (fun T => get quadReset T x) (quads_landAtom_foldl q _ s)
    have hc : (t.core core).lmem = _ := lmem_landAtom_foldl q ((s.quad q).qau.take n) s core
    rw [quad_modQuad, show ((t.modQuad q fun Q => { Q with qau := Q.qau.drop n }).core core) = t.core core from rfl, hc]
    by_cases e : coreQuad core = q
    · rw [if_pos e, if_pos e, hq, e, ← storeAtoms_append, List.take_append_drop]
    · rw [if_neg e, if_neg e, hq]

/-- An access's atomics come to stand, with every older one. -/
def State.landOwn (s : State) (g id : Nat) : State := s.landAtoms (coreQuad (slotCore g)) fun x => x.grp == g && x.acc == id

theorem group?_landOwn (s : State) (g id x : Nat) : (s.landOwn g id).group? x = s.group? x := by
  have e := congrArg (fun t : State => t.group? x) (localsOf_landAtoms s (coreQuad (slotCore g)) fun x => x.grp == g && x.acc == id); exact e

theorem grpOf_landOwn (s : State) (g id x : Nat) : (s.landOwn g id).grpOf x = s.grpOf x := by
  unfold State.grpOf; rw [group?_landOwn]

theorem peek_landOwn (s : State) (g id x n : Nat) : (s.landOwn g id).peek x n = s.peek x n := by
  have e := congrArg (fun t : State => t.peek x n) (localsOf_landAtoms s (coreQuad (slotCore g)) fun x => x.grp == g && x.acc == id); exact e

theorem packet?_landOwn (s : State) (g id k : Nat) : (s.landOwn g id).packet? k = s.packet? k := by
  have e := congrArg (fun t : State => t.packet? k) (localsOf_landAtoms s (coreQuad (slotCore g)) fun x => x.grp == g && x.acc == id); exact e

theorem now_landOwn (s : State) (g id : Nat) : (s.landOwn g id).now = s.now := by
  have e := congrArg State.now (localsOf_landAtoms s (coreQuad (slotCore g)) fun x => x.grp == g && x.acc == id); exact e

theorem gangRead_landOwn (s : State) (g id core x : Nat) : (s.landOwn g id).gangRead core x 1 = s.gangRead core x 1 :=
  gangRead_landAtoms _ _ _ core x

/-! ## Replies (R59, R260) -/

theorem reportPoison_sound (s : State) (g : Nat) (a : Access) (p : Packet) : s.reportPoison g a p 0 = s := by
  have none : (p.lanes.filter fun q => (0 : Lanes).getLsbD q.lane) = [] := by simp
  unfold State.reportPoison
  rw [none]
  cases a.dst <;> rfl

/-- What an answered access has become: the values of a reply are there, and its lanes do not wait any more. -/
def Access.answer (a : Access) (met : List (Nat × W64)) (done : Lanes) : Access :=
  { a with vals := if a.dst.isSome then met.foldl (fun t q => put t q.1 q.2) a.vals else a.vals, waits := a.waits &&& ~~~ done }

/-- The packet of a reply goes, or waits with the lanes that read again. -/
def State.takeReply (s : State) (k : Nat) (p : Packet) (again : List Nat) : State :=
  if (p.lanes.filter fun q => again.contains q.lane).isEmpty then s.dropPacket k
  else s.modPacket k fun x =>
    { x with lanes := p.lanes.filter fun q => again.contains q.lane, phase := .polling (s.now + 4096 * Config.cycle) }

/-- The lanes of an access that read again after a reply (R260). -/
def Access.again (a : Access) (vals : List (Nat × W64)) : List Nat := if a.kind = .poll then a.unmet vals else []

theorem landReply_sound (s : State) (k g : Nat) {p : Packet} {a : Access} (vals : List (Nat × W64)) (hlate : p.late = false)
    (hlanes : p.lanes ≠ []) :
    s.landReply k g p a vals 0 = ((s.takeReply k p (a.again vals)).modGroup g fun G => G.modAccess a.id fun a' =>
      a'.answer (vals.filter fun q => !(a.again vals).contains q.1) (p.lanesOf &&& ~~~ lanesOf (a.again vals))).answered g a.id := by
  have sound : (s.replyLate g a p).reportPoison g a p 0 = s := by
    rw [State.replyLate, hlate, if_neg (by simp), reportPoison_sound]
  have clean : ∀ b : Lanes, b ||| 0 = b := fun b => BitVec.or_zero
  unfold State.landReply State.takeReply Access.again Access.answer
  simp only [sound, clean, bne_self_eq_false, Bool.and_false, Bool.false_eq_true, if_false, List.isEmpty_iff, if_neg hlanes]

theorem packet?_takeReply (s : State) {k : Nat} {p : Packet} (hp : s.packet? k = some p) (again : List Nat) :
    (s.takeReply k p again).packet? k = if (p.lanes.filter fun q => again.contains q.lane).isEmpty then none
      else some { p with lanes := p.lanes.filter fun q => again.contains q.lane, phase := .polling (s.now + 4096 * Config.cycle) } := by
  unfold State.takeReply
  split
  · exact look_del_same _ _
  · refine (look_upd _ _ _ _).trans ?_
    rw [if_pos rfl]
    exact congrArg (Option.map _) hp

theorem group?_takeReply (s : State) (k : Nat) (p : Packet) (again : List Nat) (x : Nat) : (s.takeReply k p again).group? x = s.group? x := by
  unfold State.takeReply; split <;> rfl

theorem access?_id {G : Group} {id : Nat} {a : Access} (ha : G.access? id = some a) : a.id = id := by
  simpa using List.find?_some ha

/-- A sound reply in time, of an access that stands. -/
theorem exec_replyLands {s : State} {k g id : Nat} {p : Packet} {a : Access} {vals : List (Nat × W64)} (hp : s.packet? k = some p)
    (hphase : p.phase = .landed (.ok vals 0)) (hown : p.own = .access g id) (ha : (s.grpOf g).access? id = some a) (hlate : p.late = false)
    (hlanes : p.lanes ≠ []) :
    exec (.replyLands k) s = .next ((((s.landOwn g id).takeReply k p (a.again vals)).modGroup g
      fun G => G.modAccess id fun a' => a'.answer (vals.filter fun q => !(a.again vals).contains q.1)
        (p.lanesOf &&& ~~~ lanesOf (a.again vals))).answered g id) := by
  have hid : a.id = id := access?_id ha
  show execReplyLands k s = _
  unfold execReplyLands
  rw [hp]
  simp only [hphase, hown]
  rw [show (s.landAtoms (coreQuad (slotCore g)) fun x => x.grp == g && x.acc == id) = s.landOwn g id from rfl, grpOf_landOwn, ha]
  dsimp only
  rw [landReply_sound _ k g vals hlate hlanes, hid]

/-! ## Answers (R59) -/

theorem access?_modAccess (G : Group) (id : Nat) (f : Access → Access) (hf : ∀ a, (f a).id = a.id) :
    (G.modAccess id f).access? id = (G.access? id).map f := by
  unfold Group.access? Group.modAccess
  induction G.accs with
  | nil => rfl
  | cons x r ih =>
    rw [List.map_cons, List.find?_cons, List.find?_cons]
    by_cases h : x.id = id
    · simp [h, hf]
    · simp only [h, if_false, beq_eq_false_iff_ne.mpr h]; exact ih

/-- Answering an access changes nothing outside its group. -/
theorem answered_only (s : State) (g id : Nat) : Only s (s.answered g id) g := by
  have kept : Only s s g := ⟨rfl, fun _ _ => rfl, fun _ _ => rfl⟩
  unfold State.answered
  cases (s.grpOf g).access? id with
  | none => exact kept
  | some a =>
    dsimp only
    by_cases hw : a.waits != 0
    · rw [if_pos hw]; exact kept
    rw [if_neg hw]
    by_cases hn : (s.grpOf g).arms.isEmpty
    · rw [if_pos hn]; exact Only.modGroup s g _
    rw [if_neg hn]
    by_cases hf : !a.fails.isEmpty
    · rw [if_pos hf]; exact kept
    rw [if_neg hf]
    by_cases hk : a.kind = .poll
    · rw [if_pos hk]; exact (Only.modGroup s g _).trans (Only.modGroup _ g _)
    · rw [if_neg hk]; exact Only.modGroup s g _

/-- The last answer of an access: its values land, and a `POLL`'s path may complete it. -/
theorem answered_last {s : State} {g id : Nat} {a : Access} (ha : (s.grpOf g).access? id = some a) (hw : a.waits = 0)
    (harms : (s.grpOf g).arms ≠ []) (hf : a.fails = []) :
    s.answered g id = if a.kind = .poll then
        (s.modGroup g fun G => G.landAccess a).modPath g a.arm fun p => { p with prog := .stage id, st := .ready }
      else s.modGroup g fun G => G.landAccess a := by
  unfold State.answered
  rw [ha]
  simp only [hw, bne_self_eq_false, Bool.false_eq_true, if_false, hf, List.isEmpty_nil, Bool.not_true, List.isEmpty_iff, if_neg harms]

/-- An answered access as its group holds it. -/
def Group.answer (G : Group) (id : Nat) (vals : List (Nat × W64)) (m : Lanes) : Group := G.modAccess id fun a => a.answer vals m

theorem access?_answer {G : Group} {id : Nat} {a : Access} (ha : G.access? id = some a) (vals : List (Nat × W64)) (m : Lanes) :
    (G.answer id vals m).access? id = some (a.answer vals m) :=
  (access?_modAccess G id (fun a => a.answer vals m) fun _ => rfl).trans (congrArg (Option.map _) ha)

/-- A reply that answers an access's last lanes has gone, and the values have landed. -/
def State.landed (s : State) (k g id : Nat) (a : Access) (vals : List (Nat × W64)) (m : Lanes) : State :=
  ((s.dropPacket k).modGroup g fun G => G.answer id vals m).modGroup g fun G => G.landAccess (a.answer vals m)

theorem group?_of_access {s : State} {g id : Nat} {a : Access} (ha : (s.grpOf g).access? id = some a) : s.group? g = some (s.grpOf g) := by
  unfold State.grpOf at *
  cases h : s.group? g with
  | none => rw [h] at ha; cases ha
  | some G => rfl

theorem landed_spec {s : State} {g : Nat} (hg : s.group? g = some (s.grpOf g)) (k id : Nat) (a : Access) (vals : List (Nat × W64)) (m : Lanes) :
    let u := s.landed k g id a vals m
    u.packet? k = none ∧ (∀ x, x ≠ g → u.group? x = s.group? x)
      ∧ u.group? g = some (((s.grpOf g).answer id vals m).landAccess (a.answer vals m))
      ∧ (∀ x n, u.peek x n = s.peek x n) ∧ ∀ core x, u.gangRead core x 1 = s.gangRead core x 1 := by
  refine ⟨look_del_same _ _, fun x hx => ?_, ?_, fun x n => rfl, fun core x => rfl⟩
  · unfold State.landed
    rw [group?_modGroup, if_neg hx, group?_modGroup, if_neg hx]; rfl
  · unfold State.landed
    rw [group?_modGroup, if_pos rfl, group?_modGroup, if_pos rfl]
    exact congrArg (fun o => (Option.map _ o).map _) hg

/-- A reply whose lanes have all what they wait for answers its access's last lanes. -/
theorem exec_replyLands_last {s : State} {k g id : Nat} {p : Packet} {a : Access} {vals : List (Nat × W64)} (hp : s.packet? k = some p)
    (hphase : p.phase = .landed (.ok vals 0)) (hown : p.own = .access g id) (ha : (s.grpOf g).access? id = some a) (hlate : p.late = false)
    (hlanes : p.lanes ≠ []) (hf : a.fails = []) (hagain : a.again vals = []) (hw : a.waits &&& ~~~ p.lanesOf = 0)
    (harms : (s.grpOf g).arms ≠ []) :
    exec (.replyLands k) s = .next (if a.kind = .poll then
      ((s.landOwn g id).landed k g id a vals p.lanesOf).modPath g a.arm fun q => { q with prog := .stage id, st := .ready }
    else (s.landOwn g id).landed k g id a vals p.lanesOf) := by
  have all : (vals.filter fun q => !([] : List Nat).contains q.1) = vals := by simp
  have answered : p.lanesOf &&& ~~~ lanesOf [] = p.lanesOf := by
    show p.lanesOf &&& BitVec.allOnes 16 = _
    exact BitVec.and_allOnes
  have gone : ∀ t : State, t.takeReply k p [] = t.dropPacket k := fun t => by
    unfold State.takeReply; rw [if_pos (by simp)]
  have there : (((s.landOwn g id).dropPacket k).group? g).isSome = true := by
    rw [show ((s.landOwn g id).dropPacket k).group? g = (s.landOwn g id).group? g from rfl, group?_landOwn, group?_of_access ha]; rfl
  rw [exec_replyLands hp hphase hown ha hlate hlanes, hagain, all, answered, gone]
  have hr : (((s.landOwn g id).dropPacket k).modGroup g fun G => G.answer id vals p.lanesOf).grpOf g = (s.grpOf g).answer id vals p.lanesOf :=
    (grpOf_modGroup _ g _ there).trans (congrArg (fun G : Group => G.answer id vals p.lanesOf) (grpOf_landOwn s g id g))
  refine congrArg Host.Outcome.next ((answered_last (a := a.answer vals p.lanesOf) ?_ hw ?_ hf).trans ?_)
  · exact (congrArg (fun G : Group => G.access? id) hr).trans (access?_answer ha _ _)
  · exact hr ▸ harms
  · rfl

/-- What a `POLL`'s lane reading again leaves of its packet (R260). -/
theorem exec_pollReread {s : State} {k g id until_ : Nat} {p : Packet} (hp : s.packet? k = some p) (hphase : p.phase = .polling until_)
    (hown : p.own = .access g id) : exec (.pollReread k) s = .next
      (if s.hasRoom p.core p.lanes && (until_ ≤ s.now || s.pollTold p) then
        (s.modPacket k fun q =>
          { q with
            phase := .going, route := s.reroute q, field := s.accessSlack g id, age := s.now, late := s.accessSlack g id == 0, keyTries := 0
            born := s.now, smgen := (s.core q.core).smgen, told := false, mark := s.acqMark q.core }).next
      else s.next) := by
  show execPollReread k s = _
  unfold execPollReread
  rw [hp]
  simp only [hphase, hown]

theorem packet?_modPacket (s : State) {k : Nat} {p : Packet} (hp : s.packet? k = some p) (f : Packet → Packet) :
    (s.modPacket k f).packet? k = some (f p) :=
  (look_upd _ _ _ _).trans ((if_pos rfl).trans (congrArg (Option.map f) hp))

/-- A satisfied entry of a lane instruction runs (R62). -/
theorem exec_residualEntryRun {s : State} {g : Nat} {e : Resid} {op : LaneOp} (hfind : ((s.grpOf g).resid.find? fun x => x.id == e.id) = some e)
    (hsat : (s.grpOf g).satisfied e = true) (hop : laneOpOf e.instr = some op) :
    exec (.residualEntryRun g e.id) s = .next ((s.usedTurn g e).runLane g e op) := by
  show execResidualEntryRun g e.id s = _
  unfold execResidualEntryRun State.runEntry
  rw [hfind]
  simp only [hsat, if_true, hop]

theorem runLane_sound (s : State) (g : Nat) {e : Resid} {op : LaneOp} (hdone : e.done = false) (hbad : e.badLanes (e.active op.guard) op.srcs = 0) :
    s.runLane g e op = s.modGroup g fun G =>
      ((e.active op.guard).list.foldl (fun (G : Group) l =>
          G.laneLand e.id l op.dst e.wb (op.f (e.active op.guard) (e.vals op.srcs) l) false)
        { G with resid := G.resid.filter fun x => x.id != e.id }).landOld e (e.mask &&& ~~~ e.active op.guard) op.dst := by
  unfold State.runLane
  simp only [hdone, hbad, Bool.not_false, bne_self_eq_false, Bool.and_false, Bool.false_eq_true, if_false]

theorem path?_isSome {s : State} {g a : Nat} {G : Group} (hg : s.group? g = some G) : (s.path? g a).isSome = (G.arm? a).isSome := by
  unfold State.path?; rw [hg, Option.isSome_map]

theorem group?_landOwn_self {s : State} {g id : Nat} {a : Access} (ha : (s.grpOf g).access? id = some a) :
    (s.landOwn g id).group? g = some ((s.landOwn g id).grpOf g) := by
  rw [group?_landOwn, grpOf_landOwn]; exact group?_of_access ha

theorem landed_grp {s : State} {g id : Nat} {a : Access} (ha : (s.grpOf g).access? id = some a) (k : Nat) (vals : List (Nat × W64)) (m : Lanes) :
    ((s.landOwn g id).landed k g id a vals m).grpOf g = ((s.grpOf g).answer id vals m).landAccess (a.answer vals m) := by
  obtain ⟨-, -, grp, -⟩ := landed_spec (group?_landOwn_self ha) k id a vals m
  rw [State.grpOf, grp, grpOf_landOwn]; rfl

/-- A `POLL`'s reply in which every lane has met its condition (R260). -/
theorem landed_poll {s : State} {k g id : Nat} {a : Access} (ha : (s.grpOf g).access? id = some a) (hpath : (s.path? g a.arm).isSome = true)
    (vals : List (Nat × W64)) (m : Lanes) :
    let u := ((s.landOwn g id).landed k g id a vals m).modPath g a.arm fun q => { q with prog := .stage id, st := .ready }
    u.packet? k = none ∧ (u.pathOf g a.arm).prog = .stage id ∧ (u.pathOf g a.arm).st = .ready
      ∧ (∀ x ∈ (u.grpOf g).accs, x.id ≠ id) ∧ ∀ x, x ≠ g → u.group? x = s.group? x := by
  have hid : a.id = id := access?_id ha
  obtain ⟨packet, others, grp, -, -⟩ := landed_spec (group?_landOwn_self ha) k id a vals m
  obtain ⟨-, -, harms, haccs⟩ := landAccess_keeps ((s.grpOf g).answer id vals m) (a.answer vals m)
  have hsome : (((s.landOwn g id).landed k g id a vals m).path? g a.arm).isSome = true := by
    rw [path?_isSome grp, grpOf_landOwn, Group.arm?, harms]
    rw [path?_isSome (group?_of_access ha)] at hpath
    exact hpath
  refine ⟨packet, ?_, ?_, fun x hx => ?_, fun x hx => ?_⟩
  · rw [pathOf_modPath _ _ _ _ hsome]
  · rw [pathOf_modPath _ _ _ _ hsome]
  · rw [State.modPath, grpOf_modGroup _ _ _ (by rw [grp]; rfl), landed_grp ha] at hx
    exact hid ▸ haccs x hx
  · rw [State.modPath, group?_modGroup, if_neg hx, others x hx, group?_landOwn]

/-- A `POLL`'s reply in which some lane has not met its condition: its packet waits with those lanes (R260). -/
theorem takeReply_again {s : State} {k g id : Nat} {p : Packet} {again : List Nat} (hp : s.packet? k = some p)
    (hback : ∃ q ∈ p.lanes, q.lane ∈ again) (f : Group → Group) :
    let u := (((s.landOwn g id).takeReply k p again).modGroup g f).answered g id
    u.packet? k = some { p with lanes := p.lanes.filter fun q => again.contains q.lane, phase := .polling (s.now + 4096 * Config.cycle) }
      ∧ ∀ x, x ≠ g → u.group? x = s.group? x := by
  have only := answered_only (((s.landOwn g id).takeReply k p again).modGroup g f) g id
  have packet := congrArg (fun t : State => t.packet? k) only.rest
  obtain ⟨q, hq, hwaits⟩ := hback
  refine ⟨packet.trans ((packet?_takeReply _ ((packet?_landOwn s g id k).trans hp) _).trans ?_), fun x hx => (only.others x hx).trans ?_⟩
  · rw [if_neg, now_landOwn]
    rw [List.isEmpty_iff]
    exact List.ne_nil_of_mem (List.mem_filter.mpr ⟨hq, by simpa using hwaits⟩)
  · rw [group?_modGroup, if_neg hx, group?_takeReply, group?_landOwn]

/-- Settles O42, by `landed_spec` for the replies that end an access, and the equation of the event for every other case. -/
theorem landingEvents : Obligations.LandingEvents := by
  refine ⟨?_, ?_, ?_, ?_⟩
  · intro s k g id p a vals hp hphase hown ha hkind hlate hf hlanes hw harms _ a'
    have hid : a.id = id := access?_id ha
    obtain ⟨packet, others, -, peek, gang⟩ := landed_spec (group?_landOwn_self ha) k id a vals p.lanesOf
    obtain ⟨hk, hexm, -, haccs⟩ := landAccess_keeps ((s.grpOf g).answer id vals p.lanesOf) (a.answer vals p.lanesOf)
    refine ⟨_, (exec_replyLands_last hp hphase hown ha hlate hlanes hf (if_neg hkind) hw harms).trans (by rw [if_neg hkind]), ?_⟩
    simp only [landed_grp ha]
    refine ⟨packet, fun x hx => (others x hx).trans (group?_landOwn s g id x), fun x hx => hid ▸ haccs x hx, ?_, hk, hexm,
      fun x n => (peek x n).trans (peek_landOwn s g id x n), fun core x => (gang core x).trans (gangRead_landOwn s g id core x)⟩
    intro d hd l hl q hq how hone huniq
    exact landAccess_place ((s.grpOf g).answer id vals p.lanesOf) (a.answer vals p.lanesOf) hd hl hq huniq (hid.symm ▸ how) hone
  · intro s k g id p a vals hp hphase hown ha hkind hlate hf hlanes
    refine ⟨fun hmet hw hpath => ?_, fun hunmet => ?_⟩
    · have harms : (s.grpOf g).arms ≠ [] := fun e => by
        rw [path?_isSome (group?_of_access ha), Group.arm?, e] at hpath
        simp at hpath
      exact ⟨_, (exec_replyLands_last hp hphase hown ha hlate hlanes hf ((if_pos hkind).trans hmet) hw harms).trans (by rw [if_pos hkind]),
        landed_poll ha hpath vals p.lanesOf⟩
    · rw [← show a.again vals = a.unmet vals from if_pos hkind] at hunmet ⊢
      exact ⟨_, exec_replyLands hp hphase hown ha hlate hlanes, takeReply_again hp hunmet _⟩
  · intro s k g id until_ p hp hphase hown
    refine ⟨fun hroom htime => ⟨_, (exec_pollReread hp hphase hown).trans (by rw [if_pos (by simpa [hroom] using htime)]), ?_⟩,
      fun hnot htold => ?_⟩
    · have sent := packet?_modPacket s hp fun q => { q with
        phase := .going, route := s.reroute q, field := s.accessSlack g id, age := s.now, late := s.accessSlack g id == 0, keyTries := 0
        born := s.now, smgen := (s.core q.core).smgen, told := false, mark := s.acqMark q.core }
      exact ⟨congrArg (Option.map Packet.phase) sent, congrArg (Option.map Packet.lanes) sent, rfl, rfl⟩
    · rw [exec_pollReread hp hphase hown, if_neg]
      simp [htold]; omega
  · intro s g e op hfind hsat hop hdone act hbad
    rw [exec_residualEntryRun hfind hsat hop, runLane_sound _ g hdone hbad]

end Sys2Proof.Machine

/-!
PROOFS. O5, O6, O7, O9, O13 (R102 to R110): instructions of a lane. Each is a row of `laneOpOf`; what a row does is said once.
-/

namespace Sys2Proof.Machine

/-! ## What a lane instruction does, from its row -/

/-- A lane instruction that writes registers does what its row says. -/
theorem laneDoes_of {i : Instr} {op : LaneOp} (h : laneOpOf i = some op) {t : Ty} {d : Dst} (hd : op.dst = .reg t d) :
    LaneDoes i op.guard op.srcs t d fun c w => op.f (c.act op.guard) (c.vals (w64 (ofBytes w)) op.srcs) :=
  fun s _ _ hready =>
    let ⟨u, hu, done⟩ := laneExec_done (i := i) hready hd
    ⟨u, (exec_lane h s).trans hu, done⟩

/-- One that writes a predicate does so too, where its row's values are truth values. -/
theorem predDoes_of {i : Instr} {op : LaneOp} (h : laneOpOf i = some op) {p : BitVec 3} (hd : op.dst = .pred p)
    {r : Cur → List Byte → Nat → Bool}
    (hr : ∀ c w, op.f (c.act op.guard) (c.vals (w64 (ofBytes w)) op.srcs) = fun l => if r c w l then 1 else 0) :
    PredDoes i op.guard op.srcs p r :=
  fun s c w hready =>
    let ⟨u, hu, done⟩ := laneExec_pred (i := i) hready hd (hr c w)
    ⟨u, (exec_lane h s).trans hu, done⟩

/-- A predicate among the sources reads as a truth value. -/
theorem vals_pred {c : Cur} {cw : W64} {srcs : List LSrc} {j : Nat} {q : BitVec 3} (h : srcs[j]? = some (.pred q)) (l : Nat) :
    c.vals cw srcs j l = if c.grp.pred q.toNat l then 1 else 0 := by
  rw [Cur.vals, h]; rfl

theorem truth_ne_zero (b : Bool) : ((if b then 1 else 0 : W64) != 0) = b := by cases b <;> rfl

theorem truth_toNat (b : Bool) : (if b then 1 else 0 : W64).toNat = if b then 1 else 0 := by cases b <;> rfl

/-- Settles O5: the rows' results are the exact ones modulo the width by definition. -/
theorem integerArithmetic : Obligations.IntegerArithmetic := by
  intro g t d a b e sh
  exact ⟨laneDoes_of (i := .iadd g t d a b) rfl rfl, laneDoes_of (i := .isub g t d a b) rfl rfl, laneDoes_of (i := .imul g t d a b) rfl rfl,
    laneDoes_of (i := .imulh g t d a b) rfl rfl, laneDoes_of (i := .imad g t d a b e) rfl rfl, laneDoes_of (i := .imin g t d a b) rfl rfl,
    laneDoes_of (i := .imax g t d a b) rfl rfl, laneDoes_of (i := .iabs g t d a) rfl rfl, laneDoes_of (i := .ineg g t d a) rfl rfl,
    laneDoes_of (i := .addmin g t d a b e) rfl rfl, laneDoes_of (i := .addmax g t d a b e) rfl rfl,
    laneDoes_of (i := .ilea g t d a b sh) rfl rfl⟩

/-- The row of `SEL` takes its first source where its predicate is true. -/
theorem selOp_f (g : Guard) (t : Ty) (d : Dst) (a b : Src) (q : BitVec 3) (c : Cur) (w : List Byte) :
    (selOp g t d a b q).f (c.act g) (c.vals (w64 (ofBytes w)) (selOp g t d a b q).srcs)
      = fun l => if c.grp.pred q.toNat l then c.arg w (.ty t) a l else c.arg w (.ty t) b l := by
  funext l
  show (if c.vals _ (selOp g t d a b q).srcs 2 l != 0 then _ else _) = _
  rw [vals_pred (q := q) rfl, truth_ne_zero]
  rfl

/-- Settles O6: the rows' results are these functions; `SEL` reads a predicate as a truth value. -/
theorem logicAndMoves : Obligations.LogicAndMoves := by
  intro g t d a b q x
  have sel := laneDoes_of (i := .sel g t d a b q) rfl rfl
  simp only [show (selOp g t d a b q).guard = g from rfl, selOp_f] at sel
  exact ⟨laneDoes_of (i := .and g t d a b) rfl rfl, laneDoes_of (i := .or g t d a b) rfl rfl, laneDoes_of (i := .xor g t d a b) rfl rfl,
    laneDoes_of (i := .andn g t d a b) rfl rfl, laneDoes_of (i := .not g t d a) rfl rfl, laneDoes_of (i := .mov g t d a) rfl rfl,
    laneDoes_of (i := .movi g t d x) rfl rfl, sel, laneDoes_of (i := .ktov g t d a) rfl rfl⟩

/-- Settles O7: the rows' results are these functions by definition. -/
theorem shiftsAndFields : Obligations.ShiftsAndFields := by
  intro g t st d a b e right sat
  exact ⟨laneDoes_of (i := .shl g t d a b) rfl rfl, laneDoes_of (i := .shr g t d a b) rfl rfl, laneDoes_of (i := .sar g t d a b) rfl rfl,
    laneDoes_of (i := .rot g t d a b right) rfl rfl, laneDoes_of (i := .clz g t d a) rfl rfl, laneDoes_of (i := .popc g t d a) rfl rfl,
    laneDoes_of (i := .brev g t d a) rfl rfl, laneDoes_of (i := .bfx g t d a b) rfl rfl, laneDoes_of (i := .bfi g t d a b e) rfl rfl,
    laneDoes_of (i := .icvt g t st d a sat) rfl rfl⟩

/-- The row of `PLOG` looks up its truth table. -/
theorem plogOp_f (g : Guard) (p q r : BitVec 3) (tt : BitVec 4) (c : Cur) (w : List Byte) :
    (plogOp g p q r tt).f (c.act g) (c.vals (w64 (ofBytes w)) (plogOp g p q r tt).srcs)
      = fun l => if tt.getLsbD (2 * (if c.grp.pred q.toNat l then 1 else 0) + (if c.grp.pred r.toNat l then 1 else 0)) then 1 else 0 := by
  funext l
  show (if tt.getLsbD (2 * (c.vals _ (plogOp g p q r tt).srcs 0 l).toNat + (c.vals _ (plogOp g p q r tt).srcs 1 l).toNat) then _ else _) = _
  rw [vals_pred (q := q) rfl, vals_pred (q := r) rfl, truth_toNat, truth_toNat]

/-- The rows of the votes ask the active lanes' predicates. -/
theorem voteOp_f (g : Guard) (d : VoteDst) (q : BitVec 3) (c : Cur) (w : List Byte) :
    (voteOp g d q).f (c.act g) (c.vals (w64 (ofBytes w)) (voteOp g d q).srcs) = fun _ =>
      if (match d with
        | .all _ => (c.act g).list.all fun l => c.grp.pred q.toNat l
        | _ => (c.act g).list.any fun l => c.grp.pred q.toNat l) then 1 else 0 := by
  have reads : ∀ l, (c.vals (w64 (ofBytes w)) (voteOp g d q).srcs 0 l != 0) = c.grp.pred q.toNat l := fun l => by
    rw [vals_pred (q := q) rfl, truth_ne_zero]
  cases d <;> simp only [voteOp] at reads ⊢ <;> simp only [reads]

/-- Settles O9: the rows' values are truth values, those of predicates read among them. -/
theorem predicates : Obligations.Predicates := by
  intro g t p x a b q r tt
  exact ⟨predDoes_of (i := .iset g t p x a b) rfl rfl fun _ _ => rfl, predDoes_of (i := .fset g t p x a b) rfl rfl fun _ _ => rfl,
    predDoes_of (i := .plog g p q r tt) rfl rfl (plogOp_f g p q r tt), predDoes_of (i := .vote g (.any p) q) rfl rfl (voteOp_f g (.any p) q),
    predDoes_of (i := .vote g (.all p) q) rfl rfl (voteOp_f g (.all p) q), predDoes_of (i := .fclass g t (.test p b) a) rfl rfl fun _ _ => rfl⟩

/-- The row of `LSHIFT` takes the value of the lane at its distance, or its second source where that is no lane. -/
theorem lshiftOp_f (g : Guard) (t : Ty) (d : Dst) (a b e : Src) (up : Bool) (c : Cur) (w : List Byte) :
    (lshiftOp g t d a b e up).f (c.act g) (c.vals (w64 (ofBytes w)) (lshiftOp g t d a b e up).srcs) = fun l =>
      let n := shiftN (c.arg w .one e l)
      if up then if 15 < l + n then c.arg w (.ty t) b l else c.arg w (.ty t) a (l + n)
      else if l < n then c.arg w (.ty t) b l else c.arg w (.ty t) a (l - n) := by
  funext l
  show (match shiftLane up l (shiftN (c.arg w .one e l)) with
    | some k => c.arg w (.ty t) a k
    | none => c.arg w (.ty t) b l) = _
  unfold shiftLane
  cases up
  · by_cases h : l < shiftN (c.arg w .one e l) <;> simp [h]
  · by_cases h : 15 < l + shiftN (c.arg w .one e l) <;> simp [h]

/-- Settles O13: the rows read their sources in any lane; only the distance of `LSHIFT` has cases. -/
theorem laneMovement : Obligations.LaneMovement := by
  intro g t d a b e op
  have shift : ∀ up, LaneDoes (.lshift g t d a b e up) g (lshiftOp g t d a b e up).srcs t d _ := fun up => by
    have does := laneDoes_of (i := .lshift g t d a b e up) rfl rfl
    simp only [show (lshiftOp g t d a b e up).guard = g from rfl, lshiftOp_f] at does
    exact does
  exact ⟨shift false, shift true, laneDoes_of (i := .lswz g t d a b) rfl rfl, laneDoes_of (i := .lperm g t d a b) rfl rfl,
    laneDoes_of (i := .lbcast g t d a b) rfl rfl, laneDoes_of (i := .lred g op t d a) rfl rfl⟩

end Sys2Proof.Machine

/-!
PROOFS. O17 and O21 (R108, R115, R116, R120, R128): writes of the mask and of system registers, and branches of the whole path.
-/

namespace Sys2Proof.Machine

/-! ## Masks and system registers (R108, R120, R128) -/

/-- What the decoder answers is well-formed (R97). -/
theorem wf_of_decodeWords {ws : List W32} {i : Instr} (h : decodeWords ws = some i) : i.wf = true := by
  simp only [decodeWords, Option.bind_eq_bind, Option.bind_eq_some_iff] at h
  obtain ⟨e, -, j, -, h⟩ := h
  split at h
  · rename_i hj
    cases h
    exact (Bool.and_eq_true_iff.mp hj).1
  · cases h

/-- `EXM` has taken the bits of a value in some lanes, and the path has gone on. -/
theorem setMask_becomes {s : State} {c : Cur} (hc : s.cur = some c) (hchip : c.path.onChip = true) (m : Lanes) (a : Src) (w : List Byte)
    (pc : W64) :
    Becomes s ((s.modGroup c.g fun G => G.setMask m (G.kopnd (w64 (ofBytes w)) .k64 a)).goto c pc) c pc
      { c.grp with exm := (c.grp.exm &&& ~~~ m) ||| ((c.karg w .k64 a).extractLsb' 0 16 &&& m) } :=
  mod_becomes hc (fun G => G.setMask m (G.kopnd (w64 (ofBytes w)) .k64 a)) rfl rfl rfl hchip pc

/-- A system register takes a value without moving a path. -/
theorem setSys_stands (G : Group) (r : SysReg) (x : W64) :
    (G.setSys 0 r x).arms = G.arms ∧ (G.setSys 0 r x).recon = G.recon ∧ (G.setSys 0 r x).exited = G.exited := by
  cases r <;> exact ⟨rfl, rfl, rfl⟩

theorem exec_setx {g : Guard} {a : Src} {s : State} {c : Cur} {w : List Byte} (hc : s.cur = some c) (hm : c.maskWaits g = false)
    (hw : s.cwFor c (c.maskLanes g) [.op .k64 a none] = (s, .ok w)) :
    exec (.setx g a) s = .next ((s.modGroup c.g fun G => G.setMask (c.maskLanes g) (G.kopnd (w64 (ofBytes w)) .k64 a)).goto c
      (c.nextPc (.setx g a))) := by
  show execSetx g a s = _
  simp only [execSetx, onPath_cur hc, hm, hw, Bool.false_eq_true, if_false]
  rfl

/-- `MTS` to `EXM` drains, and then does what `SETX` does (R108). -/
theorem exec_mts_exm {g : Guard} {a : Src} {s : State} {c : Cur} {w : List Byte} (hc : s.cur = some c) (hm : c.maskWaits g = false)
    (hw : s.cwFor c (c.maskLanes g) [.op .k64 a none] = (s, .ok w)) :
    exec (.mts g .exm a) s = .next (if c.drained then
      (s.modGroup c.g fun G => G.setMask (c.maskLanes g) (G.kopnd (w64 (ofBytes w)) .k64 a)).goto c (c.nextPc (.mts g .exm a))
      else s.park c) := by
  show execMts g .exm a s = _
  cases hd : c.drained
  · simp [execMts, onPath_cur hc, hm, hd]
  · simp only [execMts, onPath_cur hc, hm, hd, hw]
    rfl

/-- `MTS` to another register drains and acts once for its path (R120). -/
theorem exec_mts {g : Guard} {r : SysReg} {a : Src} {s : State} {c : Cur} {w : List Byte} (hr : r ≠ .exm) (h : UniReady s c g [(.k64, a)] w)
    (hd : c.drained = true) :
    exec (.mts g r a) s = .next ((s.modGroup c.g fun G => G.setSys 0 r (G.kopnd (w64 (ofBytes w)) .k64 a)).goto c (c.nextPc (.mts g r a))) := by
  show execMts g r a s = _
  simp only [execMts, onPath_cur h.cur, if_neg hr]
  exact congrArg Host.Outcome.next (once_ready h.guard h.some (fun _ => hd) h.words)

theorem exec_mode {g : Guard} {a b : Src} {s : State} {c : Cur} {w : List Byte} (h : UniReady s c g [(.k64, a), (.k64, b)] w) :
    exec (.mode g a b) s = .next (if (c.karg w .k64 b).getLsbD 0 then s.trapAt c 1 none
      else (s.modGroup c.g fun G =>
        { G with gctl := ((G.gctl &&& ~~~ c.karg w .k64 b) ||| (c.karg w .k64 a &&& c.karg w .k64 b)) &&& gctlMask }).goto c
        (c.nextPc (.mode g a b))) := by
  show execMode g a b s = _
  simp only [execMode, onPath_cur h.cur]
  exact congrArg Host.Outcome.next (once_ready h.guard h.some (by simp) h.words)

/-- Settles O17, by what each of the three instructions does where it may issue. -/
theorem systemWrites : Obligations.SystemWrites := by
  refine ⟨?_, ?_, ?_, ?_⟩
  · intro g a s c w hc hm hchip hw G
    refine ⟨⟨_, exec_setx hc hm hw, setMask_becomes hc hchip _ a w _⟩, fun hd => ⟨_, ?_, setMask_becomes hc hchip (c.maskLanes g) a w _⟩,
      fun hd => ?_⟩
    · rw [exec_mts_exm hc hm hw, if_pos hd]
    · rw [Parks, exec_mts_exm hc hm hw, hd]; rfl
  · intro g r a ws hr
    have hwf : (Instr.mts g r a).wf = false := by
      show (_ && _) = false
      rw [hr]; rfl
    exact ⟨hwf, fun h => by rw [wf_of_decodeWords h] at hwf; cases hwf⟩
  · intro g r a s c w hr hexm h hd
    obtain ⟨harms, hrecon, hexited⟩ := setSys_stands c.grp r (c.karg w .k64 a)
    refine ⟨_, exec_mts hexm h hd, ?_⟩
    have := mod_becomes h.cur (fun G => G.setSys 0 r (G.kopnd (w64 (ofBytes w)) .k64 a)) harms hrecon hexited h.chip (c.nextPc (.mts g r a))
    cases r with
    | exm => exact absurd rfl hexm
    | gctl | late | tvec | tcause | tpc | taddr => exact this
    | _ => cases hr
  · intro g a b s c w h
    refine ⟨fun hb => ⟨_, (exec_mode h).trans (congrArg _ (if_neg (by rw [hb]; exact Bool.false_ne_true))), ?_⟩,
      fun hb => by rw [exec_mode h, if_pos hb]⟩
    exact mod_becomes h.cur (fun G => { G with
      gctl := ((G.gctl &&& ~~~ c.karg w .k64 b) ||| (c.karg w .k64 a &&& c.karg w .k64 b)) &&& gctlMask }) rfl rfl rfl h.chip _

/-! ## Branches of the whole path (R65, R115, R116) -/

theorem exec_bru {uns : Bool} {x : Cmp} {a b : Src} {off : BitVec 32} {s : State} {c : Cur} (hc : s.cur = some c) :
    exec (.bru uns x a b off) s = .next (s.goto c (if cmpK x uns (c.grp.kopnd 0 (cmpRead uns) a) (c.grp.kopnd 0 (cmpRead uns) b)
      then c.path.pc + off.signExtend 64 else c.nextPc (.bru uns x a b off))) := by
  show execBru uns x a b off s = _
  rw [execBru, onPath_cur hc]
  split <;> rfl

theorem exec_bpend {r : PendName} {off : BitVec 32} {s : State} {c : Cur} (hc : s.cur = some c) :
    exec (.bpend r off) s = .next (s.goto c (if c.namePend r then c.path.pc + off.signExtend 64 else c.nextPc (.bpend r off))) := by
  show execBpend r off s = _
  rw [execBpend, onPath_cur hc]
  split <;> rfl

theorem exec_loopk {a : BitVec 5} {off : BitVec 32} {s : State} {c : Cur} (hc : s.cur = some c) :
    exec (.loopk a off) s = .next ((s.modGroup c.g fun G => G.kw a (c.grp.kr a - 1)).goto c
      (if c.grp.kr a - 1 = 0 then c.nextPc (.loopk a off) else c.path.pc + off.signExtend 64)) := by
  show execLoopk a off s = _
  rw [execLoopk, onPath_cur hc]
  by_cases h : c.grp.kr a - 1 = 0
  · simp only [h, if_true]; rfl
  · simp only [h, if_false]; rfl

/-- Settles O21: each instruction moves the whole path to one of two places; a `k` register stands in no lane, so it is never pending. -/
theorem uniformBranches : Obligations.UniformBranches := by
  refine ⟨fun uns x a b r off s c hc hchip => ⟨fun h => ⟨_, exec_bru hc, ?_⟩, fun h => ⟨_, exec_bru hc, ?_⟩, fun k => ?_,
    fun h => ⟨_, exec_bpend hc, ?_⟩, fun h => ⟨_, exec_bpend hc, ?_⟩⟩, fun a off s c hc hchip => ⟨fun h => ⟨_, exec_loopk hc, ?_⟩,
    fun h => ⟨_, exec_loopk hc, ?_⟩⟩⟩
  · rw [show cmpK x uns _ _ = true from h]; exact goto_done hc hchip _
  · rw [show cmpK x uns _ _ = false from h]; exact goto_done hc hchip _
  · exact List.any_eq_false.mpr fun l _ => by simp [Group.srcLocs]
  · rw [h]; exact goto_done hc hchip _
  · rw [h]; exact goto_done hc hchip _
  · rw [if_pos h, h]; exact kw_done hc hchip a 0 _
  · rw [if_neg h]; exact kw_done hc hchip a _ _

end Sys2Proof.Machine

/-!
PROOFS. O24 (R98, R123 to R125): traps that are taken.
-/

namespace Sys2Proof.Machine

/-! ## Instructions that trap (R123, R128) -/

theorem exec_trap {g : Guard} {n : BitVec 6} {s : State} {c : Cur} (h : Fresh s c g true) :
    exec (.trap g n) s = .next (s.trapNext c (.trap g n) 0x0E (n.zeroExtend 8) none) := by
  show execTrap g n s = _
  rw [execTrap, onPath_cur h.cur, once_fresh h]

theorem exec_brk {g : Guard} {n : BitVec 6} {s : State} {c : Cur} (h : Fresh s c g false) :
    exec (.brk g n) s = .next (if c.grp.brke then s.trapNext c (.brk g n) 0x0D (n.zeroExtend 8) none else s.goto c (c.nextPc (.brk g n))) := by
  show execBrk g n s = _
  rw [execBrk, onPath_cur h.cur, once_fresh h]; rfl

/-! ## The event (R124) -/

theorem armNo_of_lt {a : Nat} (h : a < 2) : armNo (a == 1) = a := by
  interval_cases a <;> rfl

/-- The turn's path is the one looked up. -/
theorem cur_path? {s : State} {c : Cur} (h : s.cur = some c) : s.path? c.g c.arm = some c := by
  obtain ⟨-, hg, hp⟩ := cur_spec h
  unfold State.path?
  rw [hg]
  exact Option.map_eq_some_iff.mpr ⟨c.path, hp, rfl⟩

/-- `TRAP_ENTRY` of a path with a raised trap and no failed access enters that trap (R124). -/
theorem exec_trapEntry {s : State} {c : Cur} {t : TrapReq} (hc : s.cur = some c) (htrap : c.path.trap = some t)
    (hfail : c.grp.failedOf c.arm = none) (harm : c.arm < 2) : exec (.trapEntry c.g (c.arm == 1)) s = .next (s.trapEntry c.g c.arm) := by
  show execTrapEntry c.g (c.arm == 1) s = _
  unfold execTrapEntry
  rw [armNo_of_lt harm, cur_path? hc]
  simp only [Cur.failing, hfail, Option.filter_none, htrap]

/-! ## What stands at a path's pc (R74, R98) -/

/-- A path with nothing older to do acts on what stands at its pc. -/
theorem act_fetch {s : State} {c : Cur} (htrap : c.path.trap = none) (hfail : c.grp.failedOf c.arm = none)
    (hentry : c.grp.nextEntry c.arm = none) (hrecon : c.path.st ≠ .atRecon) (hheld : c.path.st ≠ .held) (hlate : c.lateDue = false)
    (hpoint : c.grp.atPoint c.arm = false) : s.act c = s.fetchAct c := by
  unfold State.act
  rw [Cur.failing, hfail, Cur.trapNow, htrap, Cur.entryAct, hentry, hlate, hpoint]
  simp [hrecon, hheld]

/-- A path whose fetch comes to an illegal sequence takes its trap (R98). -/
theorem step_illegal {s : State} {c : Cur} (hc : s.cur = some c) (hact : s.act c = .illegal) : step s = .next (s.badWord c).settle := by
  obtain ⟨hturn, -, -⟩ := cur_spec hc
  unfold step State.move
  rw [hturn]
  simp only [cur_path? hc, hact]

/-- Settles O24, by `raise_trapped`. -/
theorem trapsTaken : Obligations.TrapsTaken := by
  refine ⟨fun g n s r c => ⟨?_, ?_⟩, ?_, ?_⟩
  · intro h t ht
    exact ⟨_, exec_trap h, raise_trapped ht⟩
  · intro h t
    refine ⟨fun hb ht => ⟨_, (exec_brk h).trans ?_, raise_trapped ht⟩, fun hb => ⟨_, (exec_brk h).trans ?_, goto_done h.cur h.chip _⟩⟩
    · rw [if_pos hb]; rfl
    · rw [if_neg (by simp [hb])]
  · intro s r c t ht hraised hfail harm
    have htrap : c.path.trap = some t := by
      have := pathOf_modPath s c.g c.arm (fun p => { p with trap := some t, st := .ready }) (by rw [cur_path? ht.cur]; rfl)
      rw [hraised, cur_pathOf ht.cur] at this
      exact congrArg Path.trap this
    refine ⟨_, exec_trapEntry ht.cur htrap hfail harm, ?_⟩
    have := raise_trapped ht
    rwa [State.raise, hraised] at this
  · intro s r c b htrap hfail hentry hrecon hheld hlate hpoint hblock hillegal t ht
    refine ⟨_, step_illegal ht.cur ?_, raise_trapped ht⟩
    rw [act_fetch htrap hfail hentry hrecon hheld hlate hpoint, State.fetchAct, hblock]
    simp only [hillegal]

end Sys2Proof.Machine

/-!
PROOFS. O8 (R102): the counts, reversals, rotations and bit fields, bit by bit.
-/

namespace Sys2Proof.Machine

/-! ## Words and their bits -/

theorem width_pos (t : Ty) : 0 < t.width := by cases t <;> decide

theorem width_le (t : Ty) : t.width ≤ 64 := by cases t <;> decide

theorem testBit_w64 (x : Nat) {i : Nat} (h : i < 64) : (w64 x).toNat.testBit i = x.testBit i := by
  rw [w64, BitVec.toNat_ofNat, Nat.testBit_mod_two_pow]; simp [h]

theorem testBit_bits (x q n i : Nat) : (bits x q n).testBit i = (decide (i < n) && x.testBit (q + i)) := by
  rw [bits, Nat.testBit_mod_two_pow, Nat.testBit_shiftRight]

theorem bits_lt (x q n : Nat) : bits x q n < 2 ^ n := Nat.mod_lt _ (Nat.two_pow_pos n)

/-- A place within a width, moved up and taken modulo the width. -/
theorem add_mod_wrap {i r w : Nat} (hi : i < w) (hr : r < w) : (i + r) % w = if i + r < w then i + r else i + r - w := by
  split
  · exact Nat.mod_eq_of_lt ‹_›
  · rw [Nat.mod_eq_sub_mod (by omega), Nat.mod_eq_of_lt (by omega)]

/-! ## Counts and reversals -/

theorem digits_zero : digits 0 = 0 := rfl

theorem digits_of_bounds {x n : Nat} (hlo : 2 ^ n ≤ x) (hhi : x < 2 ^ (n + 1)) : digits x = n + 1 := by
  have hx : x ≠ 0 := by have := Nat.two_pow_pos n; omega
  rw [digits, if_neg hx, (Nat.log2_eq_iff hx).mpr ⟨hlo, hhi⟩]

/-- The lowest `k` bits of a number in reverse order. -/
def revBits (a : Nat) : Nat → Nat
  | 0 => 0
  | k + 1 => 2 ^ 1 * revBits a k + (a.testBit k).toNat

theorem testBit_revBits (a k i : Nat) : (revBits a k).testBit i = (decide (i < k) && a.testBit (k - 1 - i)) := by
  induction k generalizing i with
  | zero => simp [revBits]
  | succ k ih =>
    rw [revBits, Nat.testBit_two_pow_mul_add _ (Bool.toNat_lt _)]
    cases i with
    | zero => cases h : a.testBit k <;> simp [h]
    | succ i => rw [if_neg (by omega), Nat.add_sub_cancel, ih]; simp [show k - (i + 1) = k - 1 - i by omega]

/-- The sum that `BREV` builds, after its first `k` bits. -/
theorem brev_fold (a w k : Nat) (hk : k ≤ w) :
    (List.range k).foldl (fun x i => if a.testBit i then x + 2 ^ (w - 1 - i) else x) 0 = 2 ^ (w - k) * revBits a k := by
  induction k with
  | zero => simp [revBits]
  | succ k ih =>
    rw [List.range_succ, List.foldl_append, ih (by omega), List.foldl_cons, List.foldl_nil, revBits, Nat.mul_add, ← Nat.mul_assoc,
      ← Nat.pow_add, show w - (k + 1) + 1 = w - k by omega, show w - 1 - k = w - (k + 1) by omega]
    cases a.testBit k <;> simp

theorem testBit_brevR (t : Ty) (a : W64) {i : Nat} (hi : i < t.width) : (brevR t a).toNat.testBit i = a.toNat.testBit (t.width - 1 - i) := by
  have := width_le t
  rw [brevR, testBit_w64 _ (by omega), brev_fold _ _ _ le_rfl, Nat.sub_self, Nat.pow_zero, Nat.one_mul, testBit_revBits]
  simp [hi]

/-! ## Rotations -/

/-- The two halves that a rotation left by `k` puts together, bit by bit. -/
theorem testBit_rotated {x w k j : Nat} (hx : x < 2 ^ w) (hk : k < w) (hj : j < w) :
    (x * 2 ^ k % 2 ^ w + x / 2 ^ (w - k)).testBit j = x.testBit (if j < k then j + (w - k) else j - k) := by
  have high : x * 2 ^ k % 2 ^ w = 2 ^ k * (x % 2 ^ (w - k)) := by
    rw [← Nat.mul_mod_mul_left, ← Nat.pow_add, Nat.add_sub_cancel' hk.le, Nat.mul_comm]
  have low : x / 2 ^ (w - k) < 2 ^ k := by
    rw [Nat.div_lt_iff_lt_mul (Nat.two_pow_pos _), ← Nat.pow_add, Nat.add_sub_cancel' hk.le]; exact hx
  rw [high, Nat.testBit_two_pow_mul_add _ low]
  split
  · exact Nat.testBit_div_two_pow x j
  · rw [Nat.testBit_mod_two_pow]; simp [show j - k < w - k by omega]

theorem testBit_rotR (right : Bool) (t : Ty) (a b : W64) {j : Nat} (hj : j < t.width) :
    let k := if right then (t.width - b.toNat % 2 ^ 32 % t.width) % t.width else b.toNat % 2 ^ 32 % t.width
    (rotR right t a b).toNat.testBit j = a.toNat.testBit (if j < k then j + (t.width - k) else j - k) := by
  intro k
  have hk : k < t.width := by
    show (if _ then _ else _) < _
    split <;> exact Nat.mod_lt _ (width_pos t)
  have hle := width_le t
  refine (testBit_w64 _ (by omega)).trans ((testBit_rotated (Nat.mod_lt _ (Nat.two_pow_pos _)) hk hj).trans ?_)
  rw [Nat.testBit_mod_two_pow]
  simp only [Bool.and_eq_right_iff_imp, decide_eq_true_eq]
  intro _
  split <;> omega

theorem testBit_rotR_left (t : Ty) (a b : W64) {i : Nat} (hi : i < t.width) :
    (rotR false t a b).toNat.testBit ((i + b.toNat % 2 ^ 32) % t.width) = a.toNat.testBit i := by
  have hr := Nat.mod_lt (b.toNat % 2 ^ 32) (width_pos t)
  rw [testBit_rotR _ _ _ _ (Nat.mod_lt _ (width_pos t)), ← Nat.add_mod_mod, add_mod_wrap hi hr]
  simp only [Bool.false_eq_true, if_false]
  congr 1
  split <;> split <;> omega

theorem testBit_rotR_right (t : Ty) (a b : W64) {i : Nat} (hi : i < t.width) :
    (rotR true t a b).toNat.testBit i = a.toNat.testBit ((i + b.toNat % 2 ^ 32) % t.width) := by
  have hr := Nat.mod_lt (b.toNat % 2 ^ 32) (width_pos t)
  rw [testBit_rotR _ _ _ _ hi, ← Nat.add_mod_mod i, add_mod_wrap hi hr]
  generalize b.toNat % 2 ^ 32 % t.width = r at *
  have back : (t.width - r) % t.width = if r = 0 then 0 else t.width - r := by
    split
    · subst_vars; simp
    · exact Nat.mod_eq_of_lt (by omega)
  simp only [if_true, back]
  congr 1
  split <;> split <;> split <;> omega

/-! ## Bit fields -/

theorem fieldOf_eq (b : W64) : fieldOf b = (bits b.toNat 0 8, min (bits b.toNat 8 8) (32 - bits b.toNat 0 8)) := by
  unfold fieldOf
  by_cases h : 32 ≤ bits b.toNat 0 8
  · simp [h]
  · simp [h]

/-- A field of `n` bits as a signed word: ones above it where its highest bit is set. -/
theorem ofInt_sx {x n : Nat} (hx : x < 2 ^ n) (hn : n ≤ 32) :
    Ty.ofInt .i32 (sx n x) = w64 (if x < 2 ^ (n - 1) then x else 2 ^ n * (2 ^ (32 - n) - 1) + x) := by
  have hword : 2 ^ n * (2 ^ (32 - n) - 1) + 2 ^ n = 2 ^ 32 := by
    have := Nat.two_pow_pos (32 - n)
    rw [← Nat.mul_succ, Nat.succ_eq_add_one, Nat.sub_add_cancel this, ← Nat.pow_add, Nat.add_sub_cancel' hn]
  have hcast : ((2 ^ n : Nat) : Int) = 2 ^ n := Nat.cast_pow 2 n
  have same : sx n x % 2 ^ 32 = (if x < 2 ^ (n - 1) then x else 2 ^ n * (2 ^ (32 - n) - 1) + x : Nat) := by
    unfold sx
    rw [Nat.mod_eq_of_lt hx]
    split
    · omega
    · rw [← hcast, show ((x : Int) - (2 ^ n : Nat)) = ((2 ^ n * (2 ^ (32 - n) - 1) + x : Nat) : Int) - 2 ^ 32 by omega]
      omega
  unfold Ty.ofInt w64
  rw [show Ty.i32.width = 32 from rfl, same]
  exact BitVec.ofInt_natCast _ _

/-- Above a signed field its highest bit is copied. -/
theorem testBit_ofInt_sx {x n i : Nat} (hn : 0 < n) (hx : x < 2 ^ n) (hn' : n ≤ 32) (hi : i < 32) :
    (Ty.ofInt .i32 (sx n x)).toNat.testBit i = x.testBit (if i < n then i else n - 1) := by
  rw [ofInt_sx hx hn', testBit_w64 _ (by omega)]
  by_cases hsign : x < 2 ^ (n - 1)
  · rw [if_pos hsign]
    split
    · rfl
    · rw [Nat.testBit_lt_two_pow hsign]
      exact Nat.testBit_lt_two_pow (hx.trans_le (Nat.pow_le_pow_right (by omega) (by omega)))
  · rw [if_neg hsign, Nat.testBit_two_pow_mul_add _ hx]
    split
    · rfl
    · rw [Nat.testBit_two_pow_sub_one,
        Nat.testBit_of_two_pow_le_and_two_pow_add_one_gt (by omega) (by rw [Nat.sub_add_cancel hn]; exact hx)]
      exact decide_eq_true (by omega)

/-- A field replaced, bit by bit. -/
theorem testBit_insert (a b q n i : Nat) :
    (a - bits a q n * 2 ^ q + b % 2 ^ n * 2 ^ q).testBit i = if q ≤ i ∧ i < q + n then b.testBit (i - q) else a.testBit i := by
  have parts : a = 2 ^ q * (2 ^ n * (a / 2 ^ (q + n))) + bits a q n * 2 ^ q + a % 2 ^ q := by
    rw [Nat.mul_comm (bits a q n), ← Nat.mul_add, bits, Nat.shiftRight_eq_div_pow, Nat.pow_add, ← Nat.div_div_eq_div_mul, Nat.div_add_mod,
      Nat.div_add_mod]
  have value : a - bits a q n * 2 ^ q + b % 2 ^ n * 2 ^ q = 2 ^ q * (2 ^ n * (a / 2 ^ (q + n)) + b % 2 ^ n) + a % 2 ^ q := by
    rw [Nat.mul_add, Nat.mul_comm _ (b % 2 ^ n)]
    omega
  rw [value, Nat.testBit_two_pow_mul_add _ (Nat.mod_lt _ (Nat.two_pow_pos _)),
    Nat.testBit_two_pow_mul_add _ (Nat.mod_lt _ (Nat.two_pow_pos _)), Nat.testBit_mod_two_pow, Nat.testBit_mod_two_pow, Nat.testBit_div_two_pow]
  by_cases hq : i < q
  · simp [hq, show ¬ q ≤ i by omega]
  · by_cases hn : i - q < n
    · simp [hq, hn, show q ≤ i by omega, show i < q + n by omega]
    · simp [hq, hn, show ¬ i < q + n by omega, show i - q - n + (q + n) = i by omega]

theorem bfxR_empty {t : Ty} {a b : W64} (h : min (bits b.toNat 8 8) (32 - bits b.toNat 0 8) = 0) : bfxR t a b = 0 := by
  unfold bfxR; rw [fieldOf_eq]; exact if_pos h

theorem bfiR_empty {a b c : W64} (h : min (bits c.toNat 8 8) (32 - bits c.toNat 0 8) = 0) : bfiR a b c = a := by
  unfold bfiR; rw [fieldOf_eq]; exact if_pos h

/-- `BFX` takes the bits of a field to the bottom. -/
theorem testBit_bfxR {a b : W64} {q n i : Nat} (hf : fieldOf b = (q, n)) (hn : 0 < n) (hn' : n ≤ 32) (hi : i < 32) :
    (bfxR .i32 a b).toNat.testBit i = (if i < n then a.toNat.testBit (q + i) else a.toNat.testBit (q + n - 1))
      ∧ (bfxR .n32 a b).toNat.testBit i = (i < n && a.toNat.testBit (q + i)) := by
  unfold bfxR
  rw [hf]
  simp only [if_neg hn.ne']
  constructor
  · rw [if_pos (show Ty.i32.signed = true from rfl), testBit_ofInt_sx hn (bits_lt _ _ _) hn' hi, testBit_bits]
    split
    · simp [*]
    · simp [show q + (n - 1) = q + n - 1 by omega, hn]
  · rw [if_neg (show ¬ Ty.n32.signed = true from Bool.false_ne_true), testBit_w64 _ (by omega), testBit_bits]

/-- `BFI` replaces the bits of a field and no other. -/
theorem testBit_bfiR {a b c : W64} {q n i : Nat} (hf : fieldOf c = (q, n)) (hn : 0 < n) (hi : i < 64) :
    (bfiR a b c).toNat.testBit i = if q ≤ i ∧ i < q + n then b.toNat.testBit (i - q) else a.toNat.testBit i := by
  unfold bfiR
  rw [hf]
  simp only [if_neg hn.ne']
  rw [testBit_w64 _ hi, testBit_insert]

/-- Settles O8, a clause for each function. -/
theorem bitFunctions : Obligations.BitFunctions := by
  intro t a b c
  have empty : ∀ x : W64, (32 ≤ bits x.toNat 0 8 ∨ bits x.toNat 8 8 = 0) → min (bits x.toNat 8 8) (32 - bits x.toNat 0 8) = 0 :=
    fun x h => by omega
  refine ⟨fun h => ?_, fun n hn hhi hlo => ?_, fun i hi => testBit_brevR t a hi, fun i hi => testBit_rotR_left t a b hi,
    fun i hi => testBit_rotR_right t a b hi, fun h => bfxR_empty (empty b h), fun h => bfiR_empty (empty c h), ?_, ?_⟩
  · rw [clzR, h, digits_zero, Nat.sub_zero]
  · rw [clzR, digits_of_bounds hlo hhi, Nat.sub_add_eq, Nat.sub_right_comm]
  · intro q n hn i hi
    exact testBit_bfxR (fieldOf_eq b) hn (by omega) hi
  · intro q n hn i hi
    exact testBit_bfiR (fieldOf_eq c) hn hi

end Sys2Proof.Machine

/-!
PROOFS. O20 (R30 to R32, R113): branches that move, split or push, and paths that come to a reconvergence point.
-/

namespace Sys2Proof.Machine

/-! ## One change of a group after another -/

theorem put_put {α : Type} (t : Tab α) (i : Nat) (x y : α) : put (put t i x) i y = put t i y := by
  induction t with
  | nil => simp [put]
  | cons e r ih =>
    obtain ⟨k, b⟩ := e
    simp only [put]
    by_cases h : i = k
    · simp [h, put]
    · by_cases hlt : i < k
      · simp [h, hlt, put]
      · simp [h, hlt, put, ih]

theorem upd_upd {α : Type} (t : Tab α) (i : Nat) (f h : α → α) : upd (upd t i f) i h = upd t i fun x => h (f x) := by
  cases hl : look t i with
  | none => simp [upd, hl]
  | some x => simp [upd, hl, put_put]

theorem modGroup_modGroup (s : State) (g : Nat) (f h : Group → Group) :
    (s.modGroup g f).modGroup g h = s.modGroup g fun G => h (f G) := by
  show s.setGroups (upd (upd s.groups g f) g h) = _
  rw [upd_upd]; rfl

/-! ## Active lanes -/

/-- A guard picks some of the lanes it is asked of. -/
theorem guardLanes_le (G : Group) (gd : Guard) (m : Lanes) (i : Nat) (h : (G.guardLanes gd m).getLsbD i = true) : m.getLsbD i = true := by
  unfold Group.guardLanes at h
  revert h
  refine List.foldlRecOn (motive := fun x : Lanes => x.getLsbD i = true → m.getLsbD i = true) _ _ (by simp) fun x hx l hl => ?_
  obtain ⟨hl, hm⟩ := mem_list.mp hl
  split
  · rw [BitVec.getLsbD_or, one_getLsbD hl, Bool.or_eq_true, decide_eq_true_eq]
    rintro (h | rfl)
    · exact hx h
    · exact hm
  · exact hx

/-- Active lanes are live lanes of their path. -/
theorem act_le_live (c : Cur) (gd : Guard) (i : Nat) (h : (c.act gd).getLsbD i = true) : (c.grp.liveOf c.path).getLsbD i = true := by
  rw [Cur.act, BitVec.getLsbD_and, Bool.and_eq_true] at h
  have enabled := guardLanes_le c.grp gd _ i h.1
  rw [Group.exmOf, BitVec.getLsbD_and, Bool.and_eq_true] at enabled
  exact enabled.2

theorem act_not_exited (c : Cur) (gd : Guard) : c.act gd &&& ~~~ c.grp.exited = c.act gd := by
  refine BitVec.eq_of_getLsbD_eq fun i hi => ?_
  rw [BitVec.getLsbD_and, Bool.and_eq_left_iff_imp]
  intro h
  have live := act_le_live c gd i h
  rw [Group.liveOf, BitVec.getLsbD_and, Bool.and_eq_true] at live
  exact live.2

theorem live_of_act {c : Cur} {gd : Guard} (h : c.act gd ≠ 0) : c.grp.liveOf c.path ≠ 0 := fun none => h <|
  BitVec.eq_of_getLsbD_eq fun i _ => by
    by_contra hi
    have := act_le_live c gd i (by simpa using hi)
    rw [none] at this
    simp at this

/-- The lanes of a path that a branch leaves behind, some of them enabled, have not all exited. -/
theorem rest_not_exited {c : Cur} {m : Lanes} (h : c.grp.exmOf c.path &&& ~~~ m ≠ 0) : c.path.lanes &&& ~~~ m &&& ~~~ c.grp.exited ≠ 0 := by
  intro none
  refine h ?_
  rw [Group.exmOf, Group.liveOf, BitVec.and_assoc, BitVec.and_assoc, BitVec.and_comm (~~~ c.grp.exited), ← BitVec.and_assoc c.path.lanes, none]
  exact BitVec.and_zero

/-! ## A path that has issued -/

/-- The path stands at `pc`, and has not yet acted on its divergence. -/
def State.moved (s : State) (c : Cur) (pc : W64) : State :=
  s.modPath c.g c.arm fun p => { p with pc := pc, st := .ready, prog := .none, last := s.tick }

theorem goto_eq (s : State) (c : Cur) (pc : W64) : s.goto c pc = (s.moved c pc).settlePath c.g c.arm := rfl

theorem pathOf_moved {s : State} {c : Cur} (hc : s.cur = some c) (pc : W64) : (s.moved c pc).pathOf c.g c.arm = c.at s pc := by
  rw [State.moved, pathOf_modPath _ _ _ _ (by rw [cur_path? hc]; rfl), cur_pathOf hc]; rfl

/-- A path set in place. -/
theorem modArm_eq_set {G : Group} {a : Nat} {p : Path} (h : G.arm? a = some p) (f : Path → Path) :
    G.modArm a f = { G with arms := G.arms.set a (f p) } := by
  rw [Group.modArm, List.modify_eq_set_getElem?, show G.arms[a]? = some p from h]
  rfl

theorem armOf_set_same {G : Group} {a : Nat} {p : Path} (h : G.arm? a = some p) (q : Path) :
    Group.armOf { G with arms := G.arms.set a q } a = q := by
  have hlt : a < G.arms.length := (List.getElem?_eq_some_iff.mp h).1
  unfold Group.armOf Group.arm?
  rw [List.getElem?_set_self hlt]; rfl

theorem armOf_set_other (G : Group) {a b : Nat} (h : b ≠ a) (q : Path) : Group.armOf { G with arms := G.arms.set a q } b = G.armOf b := by
  unfold Group.armOf Group.arm?
  rw [List.getElem?_set_ne h.symm]

theorem grpOf_moved {s : State} {c : Cur} (hc : s.cur = some c) (pc : W64) :
    (s.moved c pc).grpOf c.g = { c.grp with arms := c.grp.arms.set c.arm (c.at s pc) } := by
  obtain ⟨-, hg, hp⟩ := cur_spec hc
  rw [State.moved, State.modPath, grpOf_modGroup _ _ _ (by rw [hg]; rfl), cur_grpOf hc, modArm_eq_set hp]
  rfl

/-- A path that goes on: nothing else has moved. -/
theorem goto_pathsOnly {s : State} {c : Cur} (hc : s.cur = some c) (hchip : c.path.onChip = true) (pc : W64) :
    Only s (s.goto c pc) c.g ∧ PathsOnly c.grp ((s.goto c pc).grpOf c.g) :=
  let done := goto_done hc hchip pc
  ⟨done.only, done.kept⟩

/-! ## Reconvergence, case by case (R30, R31) -/

theorem group?_of_stack {s : State} {g a : Nat} (h : (s.pathOf g a).stack ≠ []) : (s.group? g).isSome = true := by
  have := path?_isSome_of_stack h
  unfold State.path? at this
  cases hg : s.group? g with
  | none => rw [hg] at this; cases this
  | some G => rfl

/-- A path that stands at no point of its own does not move. -/
theorem arrive_clear (n : Nat) {s : State} {g a : Nat} (h : (s.grpOf g).clearAt (s.pathOf g a) = true) : s.arrive n g a = s := by
  cases n with
  | zero => rfl
  | succ n =>
    unfold Group.clearAt at h
    unfold State.pathOf at h
    unfold State.arrive
    dsimp only
    split <;> rename_i hst <;> rw [hst] at h
    · simp only [Bool.or_eq_true, Bool.and_eq_true, bne_iff_ne, ne_eq] at h
      refine if_neg ?_
      simp only [Bool.and_eq_true, Bool.or_eq_true, decide_eq_true_eq, not_and]
      tauto
    · split
      · rfl
      · rename_i d hd
        simp only [hd, Option.all_some, Bool.and_eq_true, bne_iff_ne, ne_eq] at h
        refine if_pos ?_
        simp only [Bool.and_eq_true, bne_iff_ne, ne_eq]
        exact ⟨fun e => h.1 e.symm, h.2⟩

/-- Whether a path stands at a point is a matter of its group's point, exited lanes and number of arms. -/
theorem clearAt_congr {G H : Group} (hl : H.arms.length = G.arms.length) (hr : H.recon = G.recon) (he : H.exited = G.exited) (p : Path) :
    H.clearAt p = G.clearAt p := by
  unfold Group.clearAt Group.liveOf; rw [hl, hr, he]

theorem clearAt_of_entry {G : Group} {p : Path} {e : Nat} {rest : List Nat} {d : DivE} (hst : p.stack = e :: rest)
    (hd : look p.ents e = some d) (hpc : d.recon ≠ p.pc) (hlive : G.liveOf p ≠ 0) : G.clearAt p = true := by
  unfold Group.clearAt
  rw [hst]
  dsimp only
  rw [hd, Option.all_some, Bool.and_eq_true]
  exact ⟨bne_iff_ne.mpr hpc, bne_iff_ne.mpr hlive⟩

/-- The first side of an entry at the entry's point: it stays there, and the deferred side runs (R31). -/
def Path.swap (p : Path) (e : Nat) (rest : List Nat) (d : DivE) : Path :=
  { p with
    pc := d.other.pc, lanes := d.other.lanes, stack := d.other.stack ++ e :: rest, st := .ready, prog := d.other.prog
    ents := put p.ents e { d with
      other := { pc := d.recon, lanes := p.lanes, stack := [], prog := .none }, second := true, spill := none } }

/-- Both sides of an entry at its point: one path again, without the entry (R31). -/
def Path.join (p : Path) (e : Nat) (rest : List Nat) (d : DivE) : Path :=
  { p with
    pc := d.recon, lanes := p.lanes ||| d.other.lanes, stack := rest, ents := del p.ents e, st := .ready, prog := .none }

/-- What a path becomes at the point of its newest entry. -/
def Path.atEntry (p : Path) (e : Nat) (rest : List Nat) (d : DivE) : Path := if d.second then p.join e rest d else p.swap e rest d

/-- A path at the point of its newest entry, on chip. -/
theorem arrive_entry (n : Nat) {s : State} {g a e : Nat} {rest : List Nat} {d : DivE} (hst : (s.pathOf g a).stack = e :: rest)
    (hd : look (s.pathOf g a).ents e = some d) (hchip : (s.pathOf g a).onChip = true) (hpc : d.recon = (s.pathOf g a).pc) :
    s.arrive (n + 1) g a
      = (s.modPath g a fun p => p.atEntry e rest d).arrive n g a := by
  have there : (((s.grpOf g).armOf a).pc != d.recon && (s.grpOf g).liveOf ((s.grpOf g).armOf a) != 0) = false := by
    rw [hpc]; exact (congrArg (· && _) (bne_self_eq_false _)).trans (Bool.false_and _)
  unfold State.pathOf at hst hd
  rw [State.arrive]
  simp only [hst, hd, there, Bool.false_eq_true, if_false, refill_onChip (e := e) hchip]
  unfold Path.atEntry
  cases d.second <;> rfl

theorem pathOf_settle_entry {s : State} {g a e : Nat} {rest : List Nat} {d : DivE} (hst : (s.pathOf g a).stack = e :: rest)
    (hd : look (s.pathOf g a).ents e = some d) (hchip : (s.pathOf g a).onChip = true) (hpc : d.recon = (s.pathOf g a).pc)
    (hclear : (s.grpOf g).clearAt ((s.pathOf g a).atEntry e rest d) = true) :
    (s.settlePath g a).pathOf g a = (s.pathOf g a).atEntry e rest d := by
  have hpath := path?_isSome_of_stack (show (s.pathOf g a).stack ≠ [] by rw [hst]; simp)
  have hgroup := group?_of_stack (show (s.pathOf g a).stack ≠ [] by rw [hst]; simp)
  have there := pathOf_modPath s g a (fun p => p.atEntry e rest d) hpath
  have stays := sysSame_modArm (s.grpOf g) a fun p => p.atEntry e rest d
  refine (congrArg (fun t : State => t.pathOf g a) ((arrive_entry _ hst hd hchip hpc).trans (arrive_clear _ ?_))).trans there
  rw [there, State.modPath, grpOf_modGroup _ _ _ hgroup]
  exact (clearAt_congr stays.arms rfl rfl _).trans hclear

/-- A path at the point of its group's two arms waits there, and meets the other if that waits too (R30). -/
def Group.reach (G : Group) (a : Nat) : Group := (G.modArm a fun p => { p with st := .atRecon }).meet

theorem settlePath_arm {s : State} {g a : Nat} (hst : (s.pathOf g a).stack = []) (htwo : (s.grpOf g).arms.length = 2)
    (hlive : (s.grpOf g).liveOf (s.pathOf g a) ≠ 0) :
    (s.settlePath g a).grpOf g = if (s.pathOf g a).pc = (s.grpOf g).recon then (s.grpOf g).reach a else s.grpOf g := by
  have hg : (s.group? g).isSome = true := by
    unfold State.grpOf at htwo
    cases h : s.group? g with
    | none => rw [h] at htwo; cases htwo
    | some G => rfl
  unfold State.pathOf at hst hlive ⊢
  unfold State.settlePath Group.arriveFuel State.arrive
  simp only [hst, htwo, hlive]
  by_cases h : ((s.grpOf g).armOf a).pc = (s.grpOf g).recon
  · simp only [h, decide_true, Bool.true_or, Bool.and_self, if_true]
    rw [grpOf_modGroup _ _ _ hg]; rfl
  · simp [h]

theorem meet_alone {G : Group} {x y : Path} (harms : G.arms = [x, y]) (h : ¬ (x.st = .atRecon ∧ y.st = .atRecon)) : G.meet = G := by
  unfold Group.meet
  rw [harms]
  exact if_neg (by simpa using h)

/-- The path of both arms' lanes. -/
def joined (recon : W64) (x y : Path) : Path :=
  { pathReset with pc := recon, lanes := x.lanes ||| y.lanes, last := max x.last y.last
                   late := if x.late.isSome then x.late else y.late, rest := max x.rest y.rest }

theorem arms_meet {G : Group} {x y : Path} (harms : G.arms = [x, y]) (hx : x.st = .atRecon) (hy : y.st = .atRecon) :
    G.meet.arms = [joined G.recon x y] := by
  unfold Group.meet
  rw [harms]
  simp only [hx, hy, Bool.and_self, decide_true, if_true]
  rfl

/-- Meeting changes how paths stand and whose the work is, nothing else. -/
theorem meet_frame (G : Group) (p : List Path) (e : List Resid) (w : List Access) :
    { G.meet with arms := p, resid := e, accs := w } = { G with arms := p, resid := e, accs := w } := by
  unfold Group.meet; split
  · split <;> rfl
  · rfl

/-- An arm that waits at a point if it stands there. -/
def Path.waitAt (p : Path) (recon : W64) : Path := if p.pc = recon then { p with st := .atRecon } else p

theorem waitAt_eq (p : Path) (recon : W64) : (p.waitAt recon).lanes = p.lanes ∧ (p.waitAt recon).pc = p.pc
    ∧ (p.waitAt recon).st = (if p.pc = recon then .atRecon else p.st) := by
  unfold Path.waitAt; split <;> exact ⟨rfl, rfl, rfl⟩

theorem reach_zero {G : Group} {x y : Path} (harms : G.arms = [x, y]) (hready : x.st ≠ .atRecon) :
    (if x.pc = G.recon then G.reach 0 else G) = Group.meet { G with arms := [x.waitAt G.recon, y] } := by
  unfold Path.waitAt Group.reach Group.modArm
  rw [harms]
  split
  · rfl
  · exact ((meet_alone rfl fun e => hready e.1).trans (by rw [← harms])).symm

theorem reach_one {G : Group} {x y : Path} (harms : G.arms = [x, y]) (hready : y.st ≠ .atRecon) :
    (if y.pc = G.recon then G.reach 1 else G) = Group.meet { G with arms := [x, y.waitAt G.recon] } := by
  unfold Path.waitAt Group.reach Group.modArm
  rw [harms]
  split
  · rfl
  · exact ((meet_alone rfl fun e => hready e.2).trans (by rw [← harms])).symm

theorem armOf_zero {G : Group} {x y : Path} (harms : G.arms = [x, y]) : G.armOf 0 = x := by
  unfold Group.armOf Group.arm?; rw [harms]; rfl

theorem armOf_one {G : Group} {x y : Path} (harms : G.arms = [x, y]) : G.armOf 1 = y := by
  unfold Group.armOf Group.arm?; rw [harms]; rfl

/-- What the first arm does at its turn to settle, and the second. -/
theorem settlePath_zero {s : State} {g : Nat} {x y : Path} (harms : (s.grpOf g).arms = [x, y]) (hst : x.stack = [])
    (hready : x.st ≠ .atRecon) (hlive : (s.grpOf g).liveOf x ≠ 0) :
    (s.settlePath g 0).grpOf g = Group.meet { s.grpOf g with arms := [x.waitAt (s.grpOf g).recon, y] } := by
  have hp : s.pathOf g 0 = x := armOf_zero harms
  rw [settlePath_arm (by rw [hp, hst]) (by rw [harms]; rfl) (by rw [hp]; exact hlive), hp, reach_zero harms hready]

theorem settlePath_one {s : State} {g : Nat} {x y : Path} (harms : (s.grpOf g).arms = [x, y]) (hst : y.stack = [])
    (hready : y.st ≠ .atRecon) (hlive : (s.grpOf g).liveOf y ≠ 0) :
    (s.settlePath g 1).grpOf g = Group.meet { s.grpOf g with arms := [x, y.waitAt (s.grpOf g).recon] } := by
  have hp : s.pathOf g 1 = y := armOf_one harms
  rw [settlePath_arm (by rw [hp, hst]) (by rw [harms]; rfl) (by rw [hp]; exact hlive), hp, reach_one harms hready]

/-- A path with no entry that settles: nothing but its group changes. -/
theorem settlePath_flat {s : State} {g a : Nat} (hst : (s.pathOf g a).stack = []) : Only s (s.settlePath g a) g := by
  unfold State.pathOf at hst
  unfold State.settlePath Group.arriveFuel State.arrive
  simp only [hst]
  split
  · exact Only.modGroup _ _ _
  · exact ⟨rfl, fun _ _ => rfl, peek_of_rest rfl⟩

/-- Two ready arms that settle: each waits if it stands at the group's point, and where both do they are one path again (R30). -/
theorem settle_both {s : State} {g : Nat} {x y : Path} (harms : (s.grpOf g).arms = [x, y]) (hx : x.stack = []) (hy : y.stack = [])
    (hxr : x.st = .ready) (hyr : y.st = .ready) (hxl : (s.grpOf g).liveOf x ≠ 0) (hyl : (s.grpOf g).liveOf y ≠ 0) :
    Only s ((s.settlePath g 0).settlePath g 1) g
      ∧ ((s.settlePath g 0).settlePath g 1).grpOf g
        = Group.meet { s.grpOf g with arms := [x.waitAt (s.grpOf g).recon, y.waitAt (s.grpOf g).recon] } := by
  have first : (s.settlePath g 0).grpOf g = { s.grpOf g with arms := [x.waitAt (s.grpOf g).recon, y] } :=
    (settlePath_zero harms hx (by simp [hxr]) hxl).trans (meet_alone rfl fun e => by simp [hyr] at e)
  have second : (s.settlePath g 0).pathOf g 1 = y := armOf_one (by rw [first])
  refine ⟨(settlePath_flat ?_).trans (settlePath_flat (by rw [second]; exact hy)), ?_⟩
  · rw [State.pathOf, armOf_zero harms]; exact hx
  · rw [settlePath_one (by rw [first]) hy (by simp [hyr]) (by rw [first]; exact hyl), first]

/-! ## `BRA` (R113) -/

theorem exec_bra {g : Guard} {tgt recon : BitVec 32} {s : State} {c : Cur} (hc : s.cur = some c) (hguard : c.guardWaits g = 0) :
    exec (.bra g tgt recon) s = .next (if c.act g = 0 then s.goto c (c.nextPc (.bra g tgt recon))
      else if c.grp.exmOf c.path &&& ~~~ c.act g = 0 then s.goto c (c.path.pc + tgt.signExtend 64)
      else s.diverge c (c.act g) (c.path.pc + tgt.signExtend 64) (c.nextPc (.bra g tgt recon)) (c.path.pc + recon.signExtend 64)) := by
  show execBra g tgt recon s = _
  rw [execBra, onPath_cur hc, hguard]
  rfl

/-- The side of a split that goes on with the next instruction, and the side that branches. -/
def Cur.fallSide (c : Cur) (tick : Nat) (taken : Lanes) (fpc : W64) : Path :=
  { c.path with pc := fpc, lanes := c.path.lanes &&& ~~~ taken, st := .ready, prog := .none, last := tick }

def Cur.takenSide (c : Cur) (tick : Nat) (taken : Lanes) (tpc : W64) : Path :=
  { c.path with pc := tpc, lanes := taken, st := .ready, prog := .none, last := tick, late := none }

/-- The arm that work for some lanes goes to in a split (assumption 78). -/
def Cur.sideOf (c : Cur) (taken m : Lanes) : Nat := if m &&& (c.path.lanes &&& ~~~ taken) = 0 && m &&& taken != 0 then 1 else 0

/-- A converged group split in two arms that have not yet settled. -/
def Cur.forked (c : Cur) (tick : Nat) (taken : Lanes) (tpc fpc recon : W64) : Group :=
  { c.grp with
    recon := recon
    resid := c.grp.resid.map fun e => { e with arm := c.sideOf taken e.mask }
    accs := c.grp.accs.map fun e => { e with arm := c.sideOf taken e.lanes }
    arms := [c.fallSide tick taken fpc, c.takenSide tick taken tpc] }

theorem diverge_converged {s : State} {c : Cur} (hc : s.cur = some c) (harms : c.grp.arms = [c.path]) (taken : Lanes) (tpc fpc recon : W64) :
    s.diverge c taken tpc fpc recon
      = ((s.modGroup c.g fun _ => c.forked s.tick taken tpc fpc recon).settlePath c.g 0).settlePath c.g 1 := by
  unfold State.diverge
  rw [if_pos (by rw [harms]; exact Nat.one_lt_two), modGroup_cur hc]
  rfl

/-- A converged group that a `BRA` has split (R30, R113). -/
theorem diverge_split {s : State} {c : Cur} (hc : s.cur = some c) (harms : c.grp.arms = [c.path]) (hstack : c.path.stack = [])
    {taken : Lanes} (htaken : taken &&& ~~~ c.grp.exited ≠ 0)
    (hrest : c.path.lanes &&& ~~~ taken &&& ~~~ c.grp.exited ≠ 0) (tpc fpc recon : W64) :
    Only s (s.diverge c taken tpc fpc recon) c.g
      ∧ (s.diverge c taken tpc fpc recon).grpOf c.g = Group.meet { c.forked s.tick taken tpc fpc recon with
        arms := [(c.fallSide s.tick taken fpc).waitAt recon, (c.takenSide s.tick taken tpc).waitAt recon] } := by
  have hK : (s.modGroup c.g fun _ => c.forked s.tick taken tpc fpc recon).grpOf c.g = c.forked s.tick taken tpc fpc recon :=
    grpOf_modGroup _ _ _ (by rw [(cur_spec hc).2.1]; rfl)
  obtain ⟨only, grp⟩ := settle_both (congrArg Group.arms hK) hstack hstack rfl rfl (by rw [hK]; exact hrest) (by rw [hK]; exact htaken)
  rw [diverge_converged hc harms]
  exact ⟨(Only.modGroup _ _ _).trans only, by rw [grp, hK]; rfl⟩

/-- An arm that splits pushes an entry (R31). -/
def Path.pushed (p : Path) (tick e : Nat) (taken : Lanes) (tpc fpc recon : W64) : Path :=
  { p with
    pc := fpc, lanes := p.lanes &&& ~~~ taken, stack := e :: p.stack, st := .ready, prog := .none, last := tick
    ents := put p.ents e
      { recon := recon, other := { pc := tpc, lanes := taken, stack := [], prog := .none }, second := false, spill := none } }

theorem makeRoom_onChip {s : State} {g : Nat} (a : Nat) (h : (s.grpOf g).onChip.length < 16) : s.makeRoom g a = (s, .ok []) := by
  unfold State.makeRoom
  dsimp only
  split
  · rfl
  · exact if_pos h

/-- A diverged group whose arm splits again, with room on chip (R31, R32). -/
theorem diverge_push {s : State} {c : Cur} (hc : s.cur = some c) {x y : Path} (harms : c.grp.arms = [x, y]) (hroom : c.grp.onChip.length < 16)
    {taken : Lanes} (hrest : c.path.lanes &&& ~~~ taken &&& ~~~ c.grp.exited ≠ 0) (tpc : W64) {fpc recon : W64} (hne : fpc ≠ recon) :
    s.diverge c taken tpc fpc recon = s.modGroup c.g fun _ =>
      { c.grp with nextEnt := c.grp.nextEnt + 1
                   arms := c.grp.arms.set c.arm (c.path.pushed s.tick c.grp.nextEnt taken tpc fpc recon) } := by
  obtain ⟨-, hg, hp⟩ := cur_spec hc
  set t := s.modGroup c.g fun _ => { c.grp with
    nextEnt := c.grp.nextEnt + 1, arms := c.grp.arms.set c.arm (c.path.pushed s.tick c.grp.nextEnt taken tpc fpc recon) } with ht
  have pushed : s.diverge c taken tpc fpc recon = t.settlePath c.g c.arm := by
    unfold State.diverge
    rw [if_neg (by rw [harms]; exact Nat.lt_irrefl 2), makeRoom_onChip c.arm (by rw [cur_grpOf hc]; exact hroom)]
    dsimp only
    rw [State.modPath, modGroup_modGroup, modGroup_cur hc, cur_grpOf hc,
      modArm_eq_set (G := { c.grp with nextEnt := c.grp.nextEnt + 1 }) hp]
    rfl
  have grp : t.grpOf c.g = _ := grpOf_modGroup _ _ _ (by rw [hg]; rfl)
  have path : t.pathOf c.g c.arm = c.path.pushed s.tick c.grp.nextEnt taken tpc fpc recon := by
    rw [State.pathOf, grp]
    exact armOf_set_same (G := { c.grp with nextEnt := c.grp.nextEnt + 1 }) hp _
  rw [pushed]
  refine arrive_clear _ ?_
  rw [path]
  exact clearAt_of_entry rfl (look_put_same _ _ _) (fun e => hne e.symm) (by rw [grp]; exact hrest)

/-! ## Paths that go on (R30, R31) -/

theorem cur_modGroup_id {s : State} {c : Cur} (hc : s.cur = some c) : (s.modGroup c.g fun G => G).cur = some c := by
  obtain ⟨hturn, hg, hp⟩ := cur_spec hc
  have hg' : (s.modGroup c.g fun G => G).group? c.g = some c.grp := by rw [group?_modGroup, if_pos rfl, hg]; rfl
  unfold State.cur State.path?
  rw [show (s.modGroup c.g fun G => G).turn = .path c.g c.arm from hturn]
  dsimp only
  rw [hg']
  exact Option.map_eq_some_iff.mpr ⟨c.path, hp, rfl⟩

/-- A `NOP` that may issue moves its path on (R112). -/
theorem exec_nop {g : Guard} {s : State} {c : Cur} {w : List Byte} (h : UniReady s c g [] w) :
    exec (.nop g) s = .next ((s.modGroup c.g fun G => G).goto c (c.nextPc (.nop g))) := by
  show execNop g s = _
  rw [execNop, onPath_cur h.cur, issuePath_ready h]

/-- A path that goes on to the point of its newest entry (R31). -/
theorem goto_entry {s : State} {c : Cur} (hc : s.cur = some c) (hchip : c.path.onChip = true) {e : Nat} {rest : List Nat} {d : DivE}
    (hst : c.path.stack = e :: rest) (hd : look c.path.ents e = some d) {pc : W64} (hpc : d.recon = pc)
    (hclear : c.grp.clearAt ((c.at s pc).atEntry e rest d) = true) : (s.goto c pc).pathOf c.g c.arm = (c.at s pc).atEntry e rest d := by
  have path := pathOf_moved hc pc
  rw [goto_eq, pathOf_settle_entry (e := e) (rest := rest) (d := d), path] <;> rw [path]
  · exact hst
  · exact hd
  · exact hchip
  · exact hpc
  · rw [grpOf_moved hc]
    have stays := clearAt_congr (G := c.grp) (H := { c.grp with arms := c.grp.arms.set c.arm (c.at s pc) }) List.length_set rfl rfl
    exact (stays _).trans hclear

/-- An arm that goes on to its group's point waits there (R30). -/
def Cur.reached (c : Cur) (s : State) (pc : W64) : Path := { c.at s pc with st := .atRecon }

theorem arm_lt_two {s : State} {c : Cur} (hc : s.cur = some c) {x y : Path} (harms : c.grp.arms = [x, y]) : c.arm < 2 := by
  obtain ⟨-, -, hp⟩ := cur_spec hc
  have := (List.getElem?_eq_some_iff.mp hp).1
  rwa [harms] at this

theorem goto_point {s : State} {c : Cur} (hc : s.cur = some c) {x y : Path} (harms : c.grp.arms = [x, y]) (hst : c.path.stack = [])
    {pc : W64} (hpc : c.grp.recon = pc) (hlive : c.grp.liveOf c.path ≠ 0) :
    (s.goto c pc).grpOf c.g = Group.meet { c.grp with arms := [x, y].set c.arm (c.reached s pc) } := by
  have moved := grpOf_moved hc pc
  rw [harms] at moved
  have harm := arm_lt_two hc harms
  have waits : (c.at s pc).waitAt c.grp.recon = c.reached s pc := if_pos hpc.symm
  rw [goto_eq]
  interval_cases h : c.arm
  · refine (settlePath_zero (x := c.at s pc) (y := y) (by rw [moved]; rfl) hst PStat.noConfusion (by rw [moved]; exact hlive)).trans ?_
    rw [moved]
    exact congrArg (fun p => Group.meet { c.grp with arms := [p, y] }) waits
  · refine (settlePath_one (x := x) (y := c.at s pc) (by rw [moved]; rfl) hst PStat.noConfusion (by rw [moved]; exact hlive)).trans ?_
    rw [moved]
    exact congrArg (fun p => Group.meet { c.grp with arms := [x, p] }) waits

/-- What `BRA` leaves of a converged group that it splits, in the words of the statement. -/
theorem split_spec {c : Cur} {tick : Nat} {taken : Lanes} {tpc fpc recon : W64} {H : Group}
    (h : H = Group.meet { c.forked tick taken tpc fpc recon with
      arms := [(c.fallSide tick taken fpc).waitAt recon, (c.takenSide tick taken tpc).waitAt recon] }) :
    { H with arms := c.grp.arms, recon := c.grp.recon, resid := c.grp.resid, accs := c.grp.accs } = c.grp ∧ H.recon = recon
      ∧ (¬ (tpc = recon ∧ fpc = recon) →
          H.arms.map Path.lanes = [c.path.lanes &&& ~~~ taken, taken] ∧ H.arms.map Path.pc = [fpc, tpc]
          ∧ H.arms.map Path.st = [if fpc = recon then .atRecon else .ready, if tpc = recon then .atRecon else .ready]
          ∧ H.resid = c.grp.resid.map (fun e => { e with arm := c.sideOf taken e.mask })
          ∧ H.accs = c.grp.accs.map fun e => { e with arm := c.sideOf taken e.lanes })
      ∧ (tpc = recon → fpc = recon →
          H.arms.map Path.lanes = [c.path.lanes &&& ~~~ taken ||| taken] ∧ H.arms.map Path.pc = [recon]) := by
  obtain ⟨hxl, hxp, hxs⟩ := waitAt_eq (c.fallSide tick taken fpc) recon
  obtain ⟨hyl, hyp, hys⟩ := waitAt_eq (c.takenSide tick taken tpc) recon
  have frame := meet_frame { c.forked tick taken tpc fpc recon with
    arms := [(c.fallSide tick taken fpc).waitAt recon, (c.takenSide tick taken tpc).waitAt recon] } c.grp.arms c.grp.resid c.grp.accs
  rw [← h] at frame
  refine ⟨congrArg (fun G : Group => { G with recon := c.grp.recon }) frame, congrArg Group.recon frame, fun hnot => ?_, fun ht hf => ?_⟩
  · rw [meet_alone rfl (by
      rw [hxs, hys]
      rintro ⟨hx, hy⟩
      refine hnot ⟨?_, ?_⟩
      · by_contra hne; rw [if_neg (show ¬ (c.takenSide tick taken tpc).pc = recon from hne)] at hy; cases hy
      · by_contra hne; rw [if_neg (show ¬ (c.fallSide tick taken fpc).pc = recon from hne)] at hx; cases hx)] at h
    subst h
    simp only [List.map_cons, List.map_nil, hxl, hyl, hxp, hyp, hxs, hys]
    exact ⟨rfl, rfl, rfl, rfl, rfl⟩
  · rw [h, arms_meet rfl (hxs.trans (if_pos hf)) (hys.trans (if_pos ht))]
    simp only [List.map_cons, List.map_nil, joined, hxl, hyl]
    exact ⟨rfl, rfl⟩

/-- What a branch that pushes an entry leaves of the other paths and of the group. -/
theorem pushed_spec {s : State} {c : Cur} (hc : s.cur = some c) (q : Path) (n : Nat) {u : State}
    (hu : u = s.modGroup c.g fun _ => { c.grp with nextEnt := n, arms := c.grp.arms.set c.arm q }) :
    u.grpOf c.g = { c.grp with nextEnt := n, arms := c.grp.arms.set c.arm q } ∧ u.pathOf c.g c.arm = q
      ∧ ∀ a, a ≠ c.arm → u.pathOf c.g a = s.pathOf c.g a := by
  obtain ⟨-, hg, hp⟩ := cur_spec hc
  have grp : u.grpOf c.g = { c.grp with nextEnt := n, arms := c.grp.arms.set c.arm q } := by
    rw [hu, grpOf_modGroup _ _ _ (by rw [hg]; rfl)]
  refine ⟨grp, ?_, fun a ha => ?_⟩
  · rw [State.pathOf, grp]
    exact armOf_set_same (G := { c.grp with nextEnt := n }) hp q
  · rw [State.pathOf, grp, State.pathOf, cur_grpOf hc]
    exact armOf_set_other { c.grp with nextEnt := n } ha q

/-- A `NOP` that may issue: nothing but its path moves. -/
theorem nop_only {s : State} {c : Cur} {g : Guard} {w : List Byte} (h : UniReady s c g [] w) (pc : W64) :
    Only s ((s.modGroup c.g fun G => G).goto c pc) c.g ∧ PathsOnly c.grp (((s.modGroup c.g fun G => G).goto c pc).grpOf c.g) :=
  let moved := goto_pathsOnly (cur_modGroup_id h.cur) h.chip pc
  ⟨(Only.modGroup _ _ _).trans moved.1, moved.2⟩

/-- An arm that comes to its group's point before the other. -/
theorem goto_first {s : State} {c : Cur} (hc : s.cur = some c) {x y o : Path} (harms : c.grp.arms = [x, y]) (hst : c.path.stack = [])
    {pc : W64} (hpc : c.grp.recon = pc) (hlive : c.grp.liveOf c.path ≠ 0) (ho : (if c.arm = 0 then y else x) = o) (hready : o.st ≠ .atRecon) :
    (s.goto c pc).pathOf c.g c.arm = c.reached s pc ∧ (s.goto c pc).pathOf c.g (1 - c.arm) = o := by
  have point := goto_point hc harms hst hpc hlive
  have harm := arm_lt_two hc harms
  unfold State.pathOf
  rw [point]
  interval_cases h : c.arm
  · rw [meet_alone (x := c.reached s pc) (y := y) rfl fun e => hready (ho ▸ e.2)]
    exact ⟨rfl, ho⟩
  · rw [meet_alone (x := x) (y := c.reached s pc) rfl fun e => hready (ho ▸ e.1)]
    exact ⟨rfl, ho⟩

/-- An arm that comes to its group's point where the other waits: one path of both arms' lanes. -/
theorem goto_second {s : State} {c : Cur} (hc : s.cur = some c) {x y o : Path} (harms : c.grp.arms = [x, y]) (hst : c.path.stack = [])
    {pc : W64} (hpc : c.grp.recon = pc) (hlive : c.grp.liveOf c.path ≠ 0) (ho : (if c.arm = 0 then y else x) = o) (hwaits : o.st = .atRecon) :
    ((s.goto c pc).grpOf c.g).arms.map Path.lanes = [x.lanes ||| y.lanes] ∧ ((s.goto c pc).grpOf c.g).arms.map Path.pc = [pc]
      ∧ ((s.goto c pc).grpOf c.g).arms.map Path.st = [.ready] := by
  obtain ⟨-, -, hp⟩ := cur_spec hc
  have point := goto_point hc harms hst hpc hlive
  have harm := arm_lt_two hc harms
  subst ho
  have hpath : c.grp.arms[c.arm]? = some c.path := hp
  rw [harms] at hpath
  rw [point]
  interval_cases h : c.arm
  · have own : x = c.path := Option.some.inj hpath
    rw [arms_meet (x := c.reached s pc) (y := y) rfl rfl hwaits, own]
    exact ⟨rfl, congrArg (fun v => [v]) hpc, rfl⟩
  · have own : y = c.path := Option.some.inj hpath
    rw [arms_meet (x := x) (y := c.reached s pc) rfl hwaits rfl, own]
    exact ⟨rfl, congrArg (fun v => [v]) hpc, rfl⟩

/-- Settles O20: a `BRA` that continues, moves, splits (`diverge_split`) or pushes (`diverge_push`); a path that goes on to the point of its
newest entry (`goto_entry`) or of its group (`goto_first`, `goto_second`). -/
theorem branches : Obligations.Branches := by
  refine ⟨?_, ?_, ?_⟩
  · intro g tgt recon s c hc hguard hchip
    refine ⟨fun hact => ⟨_, exec_bra hc hguard, ?_⟩, fun hact hfull => ⟨_, exec_bra hc hguard, ?_⟩⟩
    · rw [if_pos hact]; exact goto_done hc hchip _
    · rw [if_neg hact, if_pos hfull]; exact goto_done hc hchip _
  · intro g tgt recon s c hc hguard hact hboth rest to_ next meet side
    have split : exec (.bra g tgt recon) s = .next (s.diverge c (c.act g) to_ next meet) := by
      rw [exec_bra hc hguard, if_neg hact, if_neg hboth]
    refine ⟨fun harms hstack _ => ⟨_, split, ?_⟩, fun x y harms hroom hne => ⟨_, split, ?_⟩⟩
    · obtain ⟨only, grp⟩ := diverge_split hc harms hstack (taken := c.act g)
        (by rw [act_not_exited]; exact hact)
        (rest_not_exited hboth) to_ next meet
      exact ⟨only, split_spec grp⟩
    · have pushed := diverge_push hc harms hroom (rest_not_exited hboth) to_ hne
      obtain ⟨grp, path, others⟩ := pushed_spec hc _ _ pushed
      refine ⟨by rw [pushed]; exact Only.modGroup _ _ _, by rw [grp], path, by rw [grp], others⟩
  · intro g s c w h pc p
    have hc := cur_modGroup_id h.cur
    have done := exec_nop h
    obtain ⟨only, kept⟩ := nop_only h pc
    refine ⟨fun e rest d hst hd hspill hpc => ⟨fun hfirst hnone hpoint hlive => ?_, fun hsecond => ?_⟩, fun x y harms hst hpc o ho =>
      ⟨fun hready => ⟨_, done, only, kept, goto_first hc harms hst hpc (live_of_act h.some) ho hready⟩,
       fun hwaits => ⟨_, done, only, kept, goto_second hc harms hst hpc (live_of_act h.some) ho hwaits⟩⟩⟩
    · have there : (c.at s pc).atEntry e rest d = { p with
          pc := d.other.pc, lanes := d.other.lanes, prog := d.other.prog
          ents := put c.path.ents e { d with other := { pc := pc, lanes := c.path.lanes, stack := [], prog := .none }, second := true } } := by
        rw [Path.atEntry, hfirst, if_neg Bool.false_ne_true, Path.swap, hpc, hnone, List.nil_append, ← hst, ← hspill]
        rfl
      refine ⟨_, done, only, kept, (goto_entry hc h.chip hst hd hpc ?_).trans ?_⟩
      · show c.grp.clearAt ((c.at s pc).atEntry e rest d) = true
        rw [there]
        exact clearAt_of_entry hst (look_put_same _ _ _) (fun e => hpoint (e.symm.trans hpc)) hlive
      · exact there
    · intro q hclear
      have there : (c.at s pc).atEntry e rest d = q := by
        rw [Path.atEntry, hsecond, if_pos rfl, Path.join, hpc]
        rfl
      have clear : c.grp.clearAt ((c.at s pc).atEntry e rest d) = true := by rw [there]; exact hclear
      exact ⟨_, done, only, kept, (goto_entry hc h.chip hst hd hpc clear).trans there⟩

end Sys2Proof.Machine

/-!
PROOFS. O25 (R124, R126, R349): double traps end their group and mark its launch; `RFT` restores what its frame holds.
-/

namespace Sys2Proof.Machine

/-! ## What the device writes leaves the launches alone

An error record is a write by the device, here or at another device; the launches' records are in no memory. -/

theorem foldl_launches {α : Type} {f : State → α → State} (hf : ∀ s x, (f s x).launches = s.launches) (l : List α) (s : State) :
    (l.foldl f s).launches = s.launches :=
  foldl_keeps (P := fun t => t.launches = s.launches) f (fun t x h => (hf t x).trans h) l rfl

theorem ite_launches {b : Prop} [Decidable b] {s t u : State} (ht : t.launches = s.launches) (hu : u.launches = s.launches) :
    (if b then t else u).launches = s.launches := by
  split
  · exact ht
  · exact hu

section
variable (s : State)

@[simp] theorem claimLine_launches (h k a : Nat) : (s.claimLine h k a).launches = s.launches := by
  unfold State.claimLine
  split <;> simp

@[simp] theorem noteWrite_launches (a n : Nat) : (s.noteWrite a n).launches = s.launches := by
  unfold State.noteWrite
  dsimp only
  split <;> simp

@[simp] theorem beforeStore_launches (h k a n : Nat) : (s.beforeStore h k a n).launches = s.launches := by
  rw [State.beforeStore, noteWrite_launches, claimLine_launches]

@[simp] theorem writeStruct_launches (h a : Nat) (b : List Byte) : (s.writeStruct h a b).launches = s.launches := by
  unfold State.writeStruct
  split <;> simp

@[simp] theorem sinkLine_launches (a : Nat) (b : List Byte) : (s.sinkLine a b).launches = s.launches := by
  unfold State.sinkLine
  split
  · refine ite_launches rfl (ite_launches (writeStruct_launches s _ a b) ?_)
    split
    · exact ite_launches (by simp) (by simp)
    · rfl
  · rfl

@[simp] theorem answerKept_launches (sec : Nat) (p : Nat → Bool) : (s.answerKept sec p).launches = s.launches := by
  unfold State.answerKept
  exact foldl_launches (fun t e => by simp [State.answered1]) _ s

@[simp] theorem setBadMem_launches (w : Nat) (b : Bool) : (s.setBadMem w b).launches = s.launches := rfl

@[simp] theorem flushRsc_launches (sec : Nat) (p : Nat → Bool) : (s.flushRsc sec p).launches = s.launches := by
  unfold State.flushRsc
  refine ite_launches (answerKept_launches s _ _) ((answerKept_launches _ _ _).trans ((setMem_launches _ _).trans ?_))
  refine foldl_launches (fun t e => ?_) _ s
  exact ite_launches (by simp) (by simp)

@[simp] theorem sendKept_launches (sec : Nat) (p : Nat → Bool) : (s.sendKept sec p).launches = s.launches := by
  unfold State.sendKept
  refine ite_launches rfl (Eq.trans (foldl_launches (fun t e => ?_) _ _) (setNet_launches s _))
  exact setMem_launches t _

@[simp] theorem evictRsc_launches (sec x : Nat) : (s.evictRsc sec x).launches = s.launches := by
  simp [State.evictRsc]

@[simp] theorem evictLine_launches (x : Nat) : (s.evictLine x).launches = s.launches := by
  unfold State.evictLine
  split
  · simp [State.writeBack]
  · rfl

@[simp] theorem makeWay_launches (u key : Nat) : (s.makeWay u key).launches = s.launches := by
  unfold State.makeWay
  dsimp only
  split
  · exact ite_launches (by simp) (by simp)
  · rfl

@[simp] theorem useLine_launches (u key pol : Nat) (new : Bool) (f : Mem → Mem) : (s.useLine u key pol new f).launches = s.launches := by
  unfold State.useLine
  split <;> simp

@[simp] theorem mendWords_launches (a n : Nat) : (s.mendWords a n).launches = s.launches := by
  unfold State.mendWords
  exact ite_launches (foldl_launches (fun t i => setBadMem_launches t _ _) _ s) rfl

@[simp] theorem storeLine_launches (h l a : Nat) (b : List Byte) : (s.storeLine h l a b).launches = s.launches := by
  unfold State.storeLine
  split
  · rfl
  · refine (mendWords_launches _ a _).trans ?_
    exact ite_launches (by simp) (by simp [State.allocLine])

@[simp] theorem homeStore_launches (h l a : Nat) (b : List Byte) : (s.homeStore h l a b).launches = s.launches := by
  unfold State.homeStore
  exact foldl_launches (fun t q => storeLine_launches t h l _ _) _ s

@[simp] theorem expose_launches (d : Nat) : (s.expose d).launches = s.launches := rfl

@[simp] theorem noteAccess_launches (dom : Option Nat) (a n : Nat) : (s.noteAccess dom a n).launches = s.launches := by
  unfold State.noteAccess
  exact foldl_launches (fun t e => ite_launches (expose_launches t _) rfl) _ s

@[simp] theorem logLine_launches (dom : Nat) : (s.logLine dom).launches = s.launches := by
  unfold State.logLine
  refine ite_launches rfl (Eq.trans (foldl_launches (fun t q => ?_) _ _) rfl)
  exact sinkLine_launches t _ _

@[simp] theorem noteUndo_launches (dom : Nat) (olds : List (Nat × Byte)) : (s.noteUndo dom olds).launches = s.launches := by
  unfold State.noteUndo
  refine ite_launches (Eq.trans (foldl_launches (fun t _ => ?_) _ _) rfl) rfl
  exact logLine_launches t dom

@[simp] theorem noteStore_launches (h l a n dom : Nat) : (s.noteStore h l a n dom).launches = s.launches := by
  unfold State.noteStore
  split
  · rfl
  · exact ite_launches (by simp) (ite_launches (by simp) (by simp))

@[simp] theorem unshare_launches {wr : State → Nat → List Byte → State} (hwr : ∀ t x b, (wr t x b).launches = t.launches) (had : List Nat) :
    (s.unshare wr had).launches = s.launches := by
  unfold State.unshare
  exact foldl_launches (fun t id => ite_launches rfl (hwr t _ _)) _ s

@[simp] theorem disownObjs_launches (ids : List Nat) : (s.disownObjs ids).launches = s.launches := by
  unfold State.disownObjs
  exact ite_launches rfl (foldl_launches (fun t sec => flushRsc_launches t sec _) _ s)

@[simp] theorem tsStored_launches (d : Nat) : (s.tsStored d).launches = s.launches := rfl

theorem tablesStored_launches {wr : State → Nat → List Byte → State} (hwr : ∀ t x b, (wr t x b).launches = t.launches) (a n : Nat)
    (had : List Nat) : (s.tablesStored wr a n had).launches = s.launches := by
  unfold State.tablesStored
  rw [foldl_launches tsStored_launches, disownObjs_launches, unshare_launches s hwr]

@[simp] theorem homeWrite_launches (h l a : Nat) (b : List Byte) (dom : Nat) : (s.homeWrite h l a b dom).launches = s.launches := by
  unfold State.homeWrite
  rw [tablesStored_launches _ fun t x b => homeStore_launches t h l x b, homeStore_launches, noteStore_launches]

@[simp] theorem homeWriteVa_launches (a : Nat) (b : List Byte) (dom : Nat) : (s.homeWriteVa a b dom).launches = s.launches := by
  unfold State.homeWriteVa
  split
  · refine ite_launches rfl (ite_launches (writeStruct_launches s _ a b) ?_)
    split
    · exact homeWrite_launches s _ _ a b dom
    · rfl
  · rfl

@[simp] theorem sendTo_launches (dest : Nat) (b : FlitBody) (via : Option Nat) : (s.sendTo dest b via).launches = s.launches := by
  unfold State.sendTo
  dsimp only
  split <;> rfl

@[simp] theorem sendAll_launches (dest : Nat) (b : FlitBody) (via : Option Nat) : (s.sendAll dest b via).launches = s.launches := by
  unfold State.sendAll
  exact foldl_launches (fun t f => sendTo_launches t dest f via) _ s

theorem sendRemote_launches {dest : Nat} {mk : Nat → FlitBody} {f : RemFor} {seen : Nat} {via : Option Nat} {t : State × Nat}
    (h : s.sendRemote dest mk f seen via = some t) : t.1.launches = s.launches := by
  unfold State.sendRemote at h
  dsimp only at h
  split at h
  · cases h
  · obtain rfl := Option.some.inj h
    simp

@[simp] theorem devWrite1_launches (a : Nat) (b : List Byte) : (s.devWrite1 a b).launches = s.launches := by
  unfold State.devWrite1
  split
  · refine ite_launches (homeWriteVa_launches s a b outside) ?_
    cases h : s.sendRemote _ _ _ with
    | none => rfl
    | some t => exact sendRemote_launches s h
  · rfl

@[simp] theorem devWrite_launches (a : Nat) (b : List Byte) : (s.devWrite a b).launches = s.launches := by
  unfold State.devWrite
  exact foldl_launches (fun t q => devWrite1_launches t _ _) _ s

@[simp] theorem errorRecord_launches (dom kind code core addr pc serial gnode : Nat) :
    (s.errorRecord dom kind code core addr pc serial gnode).launches = s.launches := devWrite_launches s _ _

end

/-! ## A double trap (R124) -/

theorem look_upd_map {α β : Type} (t : Tab α) (i j : Nat) {f : α → α} {h : α → β} (hf : ∀ x, h (f x) = h x) :
    (look (upd t i f) j).map h = (look t j).map h := by
  rw [look_upd]
  split
  · rename_i hj
    rw [Option.map_map, hj]
    exact congrArg (Option.map · (look t i)) (funext hf)
  · rfl

/-- A group that ends has no path and is in no handler. -/
theorem groupEnd_group (s : State) (g : Nat) : ((s.groupEnd g).grpOf g).arms = [] ∧ ((s.groupEnd g).grpOf g).inTrap = none := by
  show (State.grpOf (s.modGroup g _) g).arms = [] ∧ (State.grpOf (s.modGroup g _) g).inTrap = none
  unfold State.grpOf
  rw [group?_modGroup, if_pos rfl]
  cases s.group? g <;> exact ⟨rfl, rfl⟩

/-- What a group's end means for the barriers of its launch does not change the launch's status. -/
theorem groupEnd_status (s : State) (g l : Nat) : ((s.groupEnd g).launch? l).map Launch.status = (s.launch? l).map Launch.status :=
  look_upd_map s.launches _ _ fun _ => rfl

theorem doubleTrap_group (s : State) (g : Nat) (cause : Byte) (addr pc : W64) :
    ((s.doubleTrap g cause addr pc).grpOf g).arms = [] ∧ ((s.doubleTrap g cause addr pc).grpOf g).inTrap = none := groupEnd_group _ _

theorem doubleTrap_status (s : State) (g : Nat) (cause : Byte) (addr pc : W64) (h : (s.launch? (s.grpOf g).launch).isSome = true) :
    ((s.doubleTrap g cause addr pc).launch? (s.grpOf g).launch).map Launch.status = some 0x26 := by
  obtain ⟨L, hL⟩ := Option.isSome_iff_exists.mp h
  unfold State.doubleTrap
  rw [groupEnd_status]
  show (look (upd (State.errorRecord s _ _ _ _ _ _ _ _).launches _ _) _).map Launch.status = _
  rw [errorRecord_launches, look_upd, if_pos rfl, show look s.launches _ = some L from hL]
  rfl

/-- A trap that comes to a group in a handler (R124). -/
theorem trapEntry_twice {s : State} {c : Cur} {t : TrapReq} (hc : s.cur = some c) (htrap : c.path.trap = some t)
    (hready : c.grp.trapReady c.arm t = true) (hin : c.grp.inTrap.isSome = true) (hnow : t.atBoundary = false) :
    s.trapEntry c.g c.arm = s.doubleTrap c.g t.cause (t.taddr.getD 0) t.tpc := by
  have path : (s.grpOf c.g).armOf c.arm = c.path := cur_pathOf hc
  unfold State.trapEntry
  dsimp only
  rw [path, htrap, cur_grpOf hc]
  dsimp only
  rw [hready, hin, hnow]
  rfl

/-! ## `RFT` (R126) -/

theorem exec_rft_outside {g : Guard} {s : State} {c : Cur} (h : Fresh s c g false) (hin : c.grp.inTrap = none) :
    exec (.rft g) s = .next (s.illegal c) := by
  show execRft g s = _
  rw [execRft, onPath_cur h.cur, once_fresh h, hin]

theorem exec_rft_inside {g : Guard} {s : State} {c : Cur} (h : Fresh s c g false) {t : InTrap} (hin : c.grp.inTrap = some t) :
    exec (.rft g) s = .next (s.trapReturn c t) := by
  show execRft g s = _
  rw [execRft, onPath_cur h.cur, once_fresh h, hin]

/-- A word of a frame, by its offset. -/
def frameWord (b : List Byte) (o : Nat) : W64 := w64 (ofBytes ((b.drop o).take 8))

/-- The `lat` values that a frame brings back: its own, and those of its capture. -/
def InTrap.latBack (t : InTrap) (b2 : List Byte) (m : Tab W32) : Tab W32 :=
  (List.range 16).foldl (fun m l => set 0 m l (match look t.lat.vals l with
    | some x => lo32 x
    | none => word32 (b2.drop (4 * l)))) m

/-- The writers of a lane's `lat` that a handler has not waited for. -/
def InTrap.latOwners (t : InTrap) (l : Nat) : List (Nat × Loc) := (t.lat.await.filter fun q => q.1 == l).map fun q => (q.2.2.1, q.2.2.2)

/-- A group out of its handler, with the `EXM`, `GCTL` and `lat` of the frame. -/
def Group.recalled (G : Group) (p : Path) (t : InTrap) (b b2 : List Byte) : Group :=
  { G with
    exm := (G.exm &&& ~~~ G.liveOf p) ||| (BitVec.ofNat 16 (frameWord b 0x20).toNat &&& G.liveOf p)
    gctl := frameWord b 0x28 &&& gctlMask, lat := t.latBack b2 G.lat, inTrap := none }

/-- What `RFT` makes of a group whose frame has no residual entries. -/
def Group.returned (G : Group) (p : Path) (t : InTrap) (b b2 : List Byte) : Group :=
  [28, 29, 30, 31].foldl (fun G i => G.kw (BitVec.ofNat 5 i) (frameWord b (8 * (i - 28))))
    ((List.range 16).foldl (fun G l => G.setOwners l .lat (t.latOwners l)) (G.recalled p t b b2))

theorem trapReturn_bare {s s1 s2 : State} {c : Cur} {t : InTrap} {b b2 : List Byte} (hsaved : t.saved = [])
    (hroom : c.grp.residUsed ≤ Config.residCap) (hcause : t.cause ≠ 0x0B) (hb : s.gRead c.g c.arm t.frame 0x50 = (s1, .ok b))
    (hb2 : s1.gRead c.g c.arm (t.frame + 0x80) 72 = (s2, .ok b2)) :
    s.trapReturn c t = ((s2.modGroup c.g fun G => G.returned c.path t b b2).goto c (s2.grpOf c.g).tpc).modPath c.g c.arm
      fun p => if (s2.grpOf c.g).tpc = t.resume then { p with prog := t.prog } else p := by
  unfold State.trapReturn
  rw [hb]
  dsimp only
  rw [hb2]
  simp only [hsaved, List.length_nil, Nat.min_zero, Nat.zero_add, if_neg (Nat.not_lt.mpr hroom), if_true, if_neg hcause]
  rfl

theorem regs_setOwners (f : Nat → List (Nat × Loc)) (ls : List Nat) (G : Group) :
    { ls.foldl (fun G l => G.setOwners l .lat (f l)) G with pend := G.pend } = G := by
  induction ls generalizing G with
  | nil => rfl
  | cons l r ih => exact congrArg (fun K : Group => { K with pend := G.pend }) (ih (G.setOwners l .lat (f l)))

theorem regs_kws (f : Nat → W64) (ks : List Nat) (G : Group) :
    { ks.foldl (fun G i => G.kw (BitVec.ofNat 5 i) (f i)) G with k := G.k } = G := by
  induction ks generalizing G with
  | nil => rfl
  | cons i r ih =>
    have rest := congrArg (fun K : Group => { K with k := G.k }) (ih (G.kw (BitVec.ofNat 5 i) (f i)))
    exact rest.trans (regs_kw G _ _)

/-- `RFT` brings back `k28` to `k31`, `lat` and its writers, `GCTL` and the path's part of `EXM`, and leaves the handler; nothing else. -/
theorem regs_returned (G : Group) (p : Path) (t : InTrap) (b b2 : List Byte) :
    { G.returned p t b b2 with k := G.k, pend := G.pend } = G.recalled p t b b2 := by
  have owners := regs_setOwners t.latOwners (List.range 16) (G.recalled p t b b2)
  have words := regs_kws (fun i => frameWord b (8 * (i - 28))) [28, 29, 30, 31]
    ((List.range 16).foldl (fun G l => G.setOwners l .lat (t.latOwners l)) (G.recalled p t b b2))
  exact (congrArg (fun K : Group => { K with k := G.k, pend := G.pend }) words).trans
    (congrArg (fun K : Group => { K with k := G.k }) owners)

theorem kr_returned (G : Group) (p : Path) (t : InTrap) (b b2 : List Byte) (j : BitVec 5) :
    (G.returned p t b b2).kr j = if 28 ≤ j.toNat then frameWord b (8 * (j.toNat - 28)) else G.kr j := by
  have base : ((List.range 16).foldl (fun G l => G.setOwners l .lat (t.latOwners l)) (G.recalled p t b b2)).kr j = G.kr j := by
    have same := congrArg Group.k (regs_setOwners t.latOwners (List.range 16) (G.recalled p t b b2))
    unfold Group.kr
    rw [show Group.k (List.foldl _ _ _) = G.k from same]
  unfold Group.returned
  simp only [List.foldl_cons, List.foldl_nil, kr_kw, base]
  have cases : ∀ j : BitVec 5, j.toNat < 28 ∨ j = 28 ∨ j = 29 ∨ j = 30 ∨ j = 31 := by decide
  rcases cases j with hj | rfl | rfl | rfl | rfl
  · have other : ∀ i : Nat, 28 ≤ i → i < 32 → ¬ (j = BitVec.ofNat 5 i ∧ j ≠ 0) := by
      rintro i hi hlt ⟨rfl, -⟩
      rw [BitVec.toNat_ofNat, Nat.mod_eq_of_lt hlt] at hj
      omega
    rw [if_neg (other 31 (by omega) (by omega)), if_neg (other 30 (by omega) (by omega)), if_neg (other 29 (by omega) (by omega)),
      if_neg (other 28 (by omega) (by omega)), if_neg (by omega)]
  all_goals rfl

/-- A change of a path that keeps its pc. -/
theorem pc_modPath (s : State) (g a : Nat) {f : Path → Path} (hf : ∀ p, (f p).pc = p.pc) :
    ((s.modPath g a f).pathOf g a).pc = (s.pathOf g a).pc := by
  unfold State.pathOf State.modPath State.grpOf
  rw [group?_modGroup, if_pos rfl]
  cases s.group? g with
  | none => rfl
  | some G =>
    show (((G.modArm a f).arm? a).getD pathReset).pc = ((G.arm? a).getD pathReset).pc
    unfold Group.arm? Group.modArm
    rw [List.getElem?_modify_eq]
    cases G.arms[a]? with
    | none => rfl
    | some p => exact hf p

/-- A path that goes on from a handler: its group is as `RFT` has made it, but for how its paths stand. -/
theorem return_spec {s2 : State} {c : Cur} (hg : s2.group? c.g = some c.grp) (hp : c.grp.arm? c.arm = some c.path)
    (hchip : c.path.onChip = true) (t : InTrap) (b b2 : List Byte) (pc : W64) {f : Path → Path} (hf : ∀ p, (f p).pc = p.pc) {G : Group}
    (hG : c.grp.returned c.path t b b2 = G) {u : State}
    (hu : u = ((s2.modGroup c.g fun G => G.returned c.path t b b2).goto c pc).modPath c.g c.arm f) :
    { u.grpOf c.g with arms := G.arms, resid := G.resid, accs := G.accs } = G
      ∧ (∀ x, x ≠ c.g → u.group? x = s2.group? x) ∧ (c.grp.clearAt (c.at s2 pc) = true → (u.pathOf c.g c.arm).pc = pc) := by
  have same := regs_returned c.grp c.path t b b2
  rw [hG] at same
  have harms : G.arms = c.grp.arms := by have q := congrArg Group.arms same; exact q
  have hrecon : G.recon = c.grp.recon := by have q := congrArg Group.recon same; exact q
  have hexited : G.exited = c.grp.exited := by have q := congrArg Group.exited same; exact q
  have own : (s2.modGroup c.g fun G => G.returned c.path t b b2).group? c.g = some G := by
    rw [group?_modGroup, if_pos rfl, hg, ← hG]; rfl
  obtain ⟨moved, goes⟩ := goto_of (s := s2) own hp harms hrecon hexited rfl hchip pc
  have whole := moved.trans (Moved.path _ c.g c.arm f)
  subst hu
  refine ⟨?_, fun x hx => ?_, fun hclear => ?_⟩
  · have kept := whole.grp
    rwa [show State.grpOf (s2.modGroup c.g _) c.g = G by unfold State.grpOf; rw [own]; rfl] at kept
  · rw [whole.others x hx, group?_modGroup, if_neg hx]
  · rw [pc_modPath _ _ _ hf, goes hclear]; rfl

/-- Settles O25: a trap in a handler ends the group (`trapEntry_twice`); `RFT` restores the group from its frame (`regs_returned`). -/
theorem trapEnds : Obligations.TrapEnds := by
  refine ⟨fun s c t hc htrap hready hin hnow hfail harm => ⟨_, exec_trapEntry hc htrap hfail harm, ?_⟩,
    fun g s c h => ⟨fun hin => ?_, ?_⟩⟩
  · rw [trapEntry_twice hc htrap hready hin hnow]
    obtain ⟨arms, out⟩ := doubleTrap_group s c.g t.cause (t.taddr.getD 0) t.tpc
    refine ⟨arms, out, fun hL => ?_⟩
    have status := doubleTrap_status s c.g t.cause (t.taddr.getD 0) t.tpc
    rw [cur_grpOf hc] at status
    exact status hL
  · exact exec_rft_outside h hin
  · intro t s1 s2 b b2 hin hsaved hroom hcause hb hb2 hgroups word
    obtain ⟨-, hg, hp⟩ := cur_spec h.cur
    have hg2 : s2.group? c.g = some c.grp := (congrArg (look · c.g) hgroups).trans hg
    have tpc : (s2.grpOf c.g).tpc = c.grp.tpc := by unfold State.grpOf; rw [hg2]; rfl
    obtain ⟨G, hG⟩ : ∃ G, c.grp.returned c.path t b b2 = G := ⟨_, rfl⟩
    have same := regs_returned c.grp c.path t b b2
    have words := kr_returned c.grp c.path t b b2
    rw [hG] at same words
    refine ⟨_, exec_rft_inside h hin, ?_⟩
    rw [trapReturn_bare hsaved hroom hcause hb hb2, tpc]
    obtain ⟨kept, others, goes⟩ := return_spec (f := fun p => if c.grp.tpc = t.resume then { p with prog := t.prog } else p) hg2 hp h.chip
      t b b2 c.grp.tpc (fun p => by split <;> rfl) hG rfl
    refine ⟨fun j hj => ?_, fun j hj => ?_, ?_, ?_, ?_, fun l pos => ?_, fun l i => ?_, goes, fun x hx => ?_⟩
    · rw [kr_of_paths kept, words, if_pos hj]; rfl
    · rw [kr_of_paths kept, words, if_neg (Nat.not_le.mpr hj)]
    · exact (congrArg Group.gctl kept).trans (congrArg Group.gctl same)
    · exact (congrArg Group.inTrap kept).trans (congrArg Group.inTrap same)
    · exact (congrArg Group.exm kept).trans (congrArg Group.exm same)
    · rw [(rd_of_paths kept l _).1]
      have q := congrArg (fun K : Group => get 0 K.v (vKey l pos)) same
      exact q
    · rw [pred_of_paths kept]
      have q := congrArg (fun K : Group => i == 0 || (get 0 K.p i).getLsbD l) same
      exact q
    · rw [others x hx]
      exact congrArg (look · x) hgroups

end Sys2Proof.Machine

/-!
PROOFS. O40 (R111, R128, R354): `SNAP` counts and records; `XCH` exchanges with a partner's half, or queues its own.
-/

namespace Sys2Proof.Machine

/-! ## A result put in lanes without `lat` -/

theorem lanePut_eq (G : Group) (act : Lanes) (t : Ty) (d : Dst) (r : Nat → W64) :
    G.lanePut act t d r = act.list.foldl (fun G l => G.wrDst l t d (r l)) G := rfl

/-- What a result put in a destination leaves in its own lane. -/
theorem wrDst_own (G : Group) {l : Nat} (hl : l < 16) (t : Ty) (d : Dst) (x : W64) :
    (∀ q ∈ dstLocs t (G.D l) d, (G.wrDst l t d x).rd l q.2 = half q.1 (extend t x) ∧ (G.wrDst l t d x).isPend l q.2 = false)
      ∧ ∀ loc, (∀ q ∈ dstLocs t (G.D l) d, q.2 ≠ loc) →
        (G.wrDst l t d x).rd l loc = G.rd l loc ∧ (G.wrDst l t d x).ownersOf l loc = G.ownersOf l loc := by
  obtain ⟨on, off⟩ := wrs_rd (dstLocs t (G.D l) d) (fun q => half q.1 (extend t x)) (dstLocs_pairwise t (G.D l) d) G hl
  refine ⟨fun q hq => ?_, off⟩
  obtain ⟨value, owners⟩ := on q hq
  refine ⟨value.trans (hold_dst hq _), ?_⟩
  unfold Group.isPend Group.wrDst
  rw [owners]; rfl

theorem lanesPut_lanePut (G : Group) (act : Lanes) (t : Ty) (d : Dst) (r : Nat → W64) : LanesPut G (G.lanePut act t d r) act t d r := by
  have lanes := foldl_lanes (fun G l => G.wrDst l t d (r l)) (fun G l m hl hm h => sameLane_wrDst G hl hm h t d (r l)) act.list (list_nodup act)
    (fun l h => list_lt h) G
  refine ⟨fun l h q hq => ?_, fun l hl loc h => ?_⟩
  · obtain ⟨K, before, after⟩ := (lanes l (list_lt h)).2 h
    have hD : K.D l = G.D l := by unfold Group.D; rw [before.base]
    obtain ⟨value, there⟩ := (wrDst_own K (list_lt h) t d (r l)).1 q (by rw [hD]; exact hq)
    rw [lanePut_eq, after.rd]
    unfold Group.isPend at there ⊢
    rw [after.owners]
    exact ⟨value, there⟩
  · by_cases hin : l ∈ act.list
    · obtain ⟨K, before, after⟩ := (lanes l hl).2 hin
      have hD : K.D l = G.D l := by unfold Group.D; rw [before.base]
      obtain ⟨value, owners⟩ := (wrDst_own K hl t d (r l)).2 loc (by rw [hD]; exact h.resolve_left (not_not.mpr hin))
      rw [lanePut_eq, after.rd, after.owners, value, owners, before.rd, before.owners]
      exact ⟨rfl, rfl⟩
    · have same := (lanes l hl).1 hin
      exact ⟨same.rd loc, same.owners loc⟩

theorem regsOf_lanePut (G : Group) (act : Lanes) (t : Ty) (d : Dst) (r : Nat → W64) : G.regsOf (G.lanePut act t d r) :=
  regsOf_foldl (fun G l => Group.wrDst G l t d (r l)) (fun G l => regsOf_wrDst G l t d (r l)) act.list G

/-- How a path of a group stands is no matter of its lane registers. -/
theorem stands_lanePut (G : Group) (act : Lanes) (t : Ty) (d : Dst) (r : Nat → W64) :
    (G.lanePut act t d r).arms = G.arms ∧ (G.lanePut act t d r).recon = G.recon ∧ (G.lanePut act t d r).exited = G.exited := by
  have same := regsOf_lanePut G act t d r
  unfold Group.regsOf at same
  refine ⟨?_, ?_, ?_⟩
  · have q := congrArg Group.arms same; exact q
  · have q := congrArg Group.recon same; exact q
  · have q := congrArg Group.exited same; exact q

theorem LanesPut.of_paths {G K H : Group} {act : Lanes} {t : Ty} {d : Dst} {r : Nat → W64} (h : LanesPut G K act t d r)
    (k : { H with arms := K.arms, resid := K.resid, accs := K.accs } = K) : LanesPut G H act t d r := by
  refine ⟨fun l hl q hq => ?_, fun l hl loc out => ?_⟩
  · obtain ⟨value, there⟩ := h.on l hl q hq
    unfold Group.isPend at there ⊢
    rw [(rd_of_paths k l q.2).1, (rd_of_paths k l q.2).2]
    exact ⟨value, there⟩
  · rw [(rd_of_paths k l loc).1, (rd_of_paths k l loc).2]
    exact h.kept l hl loc out

/-! ## `SNAP` (R128, R354) -/

/-- The state after a launch's next snapshot has been counted and recorded. -/
def State.snapped (s : State) (l n : Nat) : State :=
  ((s.blocks.filter fun e => e.2.launch == l).flatMap fun e => e.2.groups).foldl (fun s x => s.snapGroup n x)
    (s.modLaunch l fun L => { L with snap := n })

theorem exec_snap {g : Guard} {d : BitVec 5} {s : State} {c : Cur} {L : Launch} (h : Fresh s c g false)
    (hL : s.launch? c.grp.launch = some L) : exec (.snap g d) s =
      .next (((s.snapped c.grp.launch (L.snap + 1)).modGroup c.g fun G => G.kw d (w64 (L.snap + 1))).goto c (c.nextPc (.snap g d))) := by
  show execSnap g d s = _
  rw [execSnap, onPath_cur h.cur, once_fresh h, hL]
  rfl

/-- A change of the current group in a state that has it as it was, and a move of its path. -/
theorem mod_becomes_of {s r : State} {c : Cur} (hc : s.cur = some c) (hgroups : r.groups = s.groups) (hchip : c.path.onChip = true)
    (f : Group → Group) (ha : (f c.grp).arms = c.grp.arms) (hr : (f c.grp).recon = c.grp.recon) (he : (f c.grp).exited = c.grp.exited)
    (pc : W64) : Becomes r ((r.modGroup c.g f).goto c pc) c pc (f c.grp) := by
  obtain ⟨-, hg, hp⟩ := cur_spec hc
  have own : (r.modGroup c.g f).group? c.g = some (f c.grp) := by
    rw [group?_modGroup, if_pos rfl, show r.group? c.g = some c.grp from (congrArg (look · c.g) hgroups).trans hg]; rfl
  obtain ⟨only, grp, work, path⟩ := goto_becomes hp own ha hr he hchip pc
  exact ⟨(Only.modGroup r c.g f).trans only, grp, work, path⟩

/-! ## `XCH` (R35, R54, R111) -/

/-- The values that a path's active lanes offer. -/
def Cur.offer (c : Cur) (act : Lanes) (t : Ty) (a : Src) : Tab W64 := act.list.foldl (fun m l => set 0 m l (c.arg [] (.ty t) a l)) []

theorem get_foldl_set (f : Nat → W64) {ls : List Nat} {l : Nat} (h : l ∈ ls) (m : Tab W64) :
    get 0 (ls.foldl (fun m l => set 0 m l (f l)) m) l = f l := by
  refine foldl_reaches (Q := fun _ => True) (P := fun m => get 0 m l = f l) (fun m l => set 0 m l (f l)) (fun _ _ _ => trivial) (fun m x hm => ?_)
    (fun m _ => get_set_same 0 m l (f l)) h trivial
  by_cases e : l = x
  · rw [e]; exact get_set_same 0 m x (f x)
  · exact (get_set_other 0 m (f x) e).trans hm

/-- A path's half of an exchange. -/
def Cur.xchHalf (c : Cur) (id n : Nat) (tag : W16) (act : Lanes) (t : Ty) (d : Dst) (a : Src) : XchRec :=
  { id := id, arm := c.arm, partner := n, tag := tag, ty := t, dst := d, active := act, vals := c.offer act t a }

/-- A group with a half of its own queued, its destination pending. -/
def Group.queued (G : Group) (r : XchRec) (p : Path) : Group :=
  ({ G with xch := G.xch ++ [r] }).lanePend r.id (G.liveOf p) r.active (.reg r.ty r.dst) false

/-- The half of an exchange waits for its partner. -/
def State.queueXch (s : State) (c : Cur) (r : XchRec) : State :=
  (((s.modGroup c.g fun G => G.queued r c.path).modPath c.g c.arm fun p => { p with prog := .acc r.id }).wait c).next

/-- A half of an exchange meets a queued one of group `x`. -/
def State.matchXch (s : State) (c : Cur) (x : Nat) (r : XchRec) (act : Lanes) (t : Ty) (d : Dst) (a : Src) : State :=
  ((s.modGroup x fun G => G.exchange r.id (act &&& r.active) r.ty r.dst fun l => get 0 (c.offer act t a) l).modPath x r.arm
    fun p => { p with prog := .stage r.id, st := .ready }).modGroup c.g
      fun G => G.lanePut (act &&& r.active) t d fun l => get 0 r.vals l

theorem exec_xch_done {g : Guard} {t : Ty} {d : Dst} {a : Src} {b : BitVec 5} {s : State} {c : Cur} {n : Nat} (hc : s.cur = some c)
    (hprog : c.path.prog = .stage n) : exec (.xch g t d a b) s = .next (s.goto c (c.nextPc (.xch g t d a b))) := by
  show execXch g t d a b s = _
  rw [execXch, onPath_cur hc]
  dsimp only
  rw [hprog]
  rfl

/-- What an `XCH` that issues does, by what its partner is. -/
def State.xchWith (s : State) (c : Cur) (i : Instr) (n : Nat) (tag : W16) (act : Lanes) (t : Ty) (d : Dst) (a : Src) : Partner → State
  | .illegal | .ended => s.trapAt c 2 none
  | .unplaced => s.queueXch c (c.xchHalf s.ids n tag act t d a)
  | .group x =>
    match (s.grpOf x).xch.find? fun r => r.partner == s.groupNo c.grp && r.tag == tag with
    | none => s.queueXch c (c.xchHalf s.ids n tag act t d a)
    | some r => (s.matchXch c x r act t d a).goto c (c.nextPc i)

theorem exec_xch {g : Guard} {t : Ty} {d : Dst} {a : Src} {b : BitVec 5} {s : State} {c : Cur} (h : Fresh s c g true)
    (hbits : bits (c.grp.kr b).toNat 54 10 = 0) (hthere : c.srcsWait 0 (c.act g) [srcTy t a] = false)
    (hsound : c.poisons 0 (c.act g) [srcTy t a] = []) : exec (.xch g t d a b) s = .next
      (s.xchWith c (.xch g t d a b) (bits (c.grp.kr b).toNat 0 38) (BitVec.ofNat 16 (bits (c.grp.kr b).toNat 38 16)) (c.act g) t d a
        (s.partner c (bits (c.grp.kr b).toNat 0 38))) := by
  show execXch g t d a b s = _
  rw [execXch, onPath_cur h.cur]
  dsimp only
  rw [h.prog]
  dsimp only
  rw [once_fresh h, hbits, show LSrc.op (.ty t) a none = srcTy t a from rfl, hthere, hsound]
  rfl

theorem xchWith_none {s : State} {c : Cur} {x : Nat} {tag : W16}
    (h : ((s.grpOf x).xch.find? fun r => r.partner == s.groupNo c.grp && r.tag == tag) = none) (i : Instr) (n : Nat) (act : Lanes) (t : Ty)
    (d : Dst) (a : Src) : s.xchWith c i n tag act t d a (.group x) = s.queueXch c (c.xchHalf s.ids n tag act t d a) := by
  unfold State.xchWith
  dsimp only
  rw [h]

theorem xchWith_some {s : State} {c : Cur} {x : Nat} {tag : W16} {r : XchRec}
    (h : ((s.grpOf x).xch.find? fun r => r.partner == s.groupNo c.grp && r.tag == tag) = some r) (i : Instr) (n : Nat) (act : Lanes) (t : Ty)
    (d : Dst) (a : Src) : s.xchWith c i n tag act t d a (.group x) = (s.matchXch c x r act t d a).goto c (c.nextPc i) := by
  unfold State.xchWith
  dsimp only
  rw [h]

theorem path?_modPath_isSome {s : State} {g a : Nat} (h : (s.path? g a).isSome = true) (b : Nat) (f : Path → Path) :
    ((s.modPath g b f).path? g a).isSome = true := by
  obtain ⟨G, hg⟩ : ∃ G, s.group? g = some G := by
    unfold State.path? at h
    cases hg : s.group? g with
    | none => rw [hg] at h; cases h
    | some G => exact ⟨G, rfl⟩
  rw [path?_isSome hg] at h
  rw [path?_isSome (G := G.modArm b f) (by rw [State.modPath, group?_modGroup, if_pos rfl, hg]; rfl)]
  simpa [Group.arm?, Group.modArm] using h

/-- A path that begins to wait. -/
theorem pathOf_wait {s : State} {c : Cur} (h : (s.path? c.g c.arm).isSome = true) (hst : ∀ n, (s.pathOf c.g c.arm).st ≠ .waiting n) :
    (s.wait c).pathOf c.g c.arm = { s.pathOf c.g c.arm with st := .waiting ((s.grpOf c.g).due s.now) } := by
  unfold State.wait
  rw [pathOf_modPath _ _ _ _ h]
  cases e : (s.pathOf c.g c.arm).st with
  | waiting n => exact absurd e (hst n)
  | _ => rfl

/-- Of a group with a half of its own queued, only the queue and the marks of the destination differ. -/
theorem pendsOf_queued (G : Group) (r : XchRec) (p : Path) : Group.pendsOf { G with xch := G.xch ++ [r] } (G.queued r p) := by
  unfold Group.queued
  rw [lanePend_quiet]
  exact pendsOf_pendLanes _ _ _ _

theorem isPend_queued (G : Group) (r : XchRec) (p : Path) {l : Nat} (hl : l ∈ r.active.list) {q : Bool × Loc}
    (hq : q ∈ dstLocs r.ty (G.D l) r.dst) : (G.queued r p).isPend l q.2 = true := by
  unfold Group.queued
  rw [lanePend_quiet]
  exact isPend_pendLanes _ _ (.reg r.ty r.dst) hl hq

/-- A half of an exchange that is queued: its path waits with its destination pending (R111). -/
theorem queueXch_spec {s : State} {c : Cur} (hc : s.cur = some c) (hst : ∀ n, c.path.st ≠ .waiting n) (r : XchRec) {u : State}
    (hu : u = s.queueXch c r) : u.pathOf c.g c.arm = { c.path with prog := .acc r.id, st := .waiting (c.grp.due s.now) }
      ∧ r ∈ (u.grpOf c.g).xch
      ∧ (∀ l ∈ r.active.list, ∀ q ∈ dstLocs r.ty (c.grp.D l) r.dst, (u.grpOf c.g).isPend l q.2 = true)
      ∧ ∀ y, y ≠ c.g → u.group? y = s.group? y := by
  obtain ⟨-, hg, hp⟩ := cur_spec hc
  have marks := pendsOf_queued c.grp r c.path
  set t1 := s.modGroup c.g fun G => G.queued r c.path with ht1
  set t2 := t1.modPath c.g c.arm fun p => { p with prog := .acc r.id } with ht2
  have own : t1.group? c.g = some (c.grp.queued r c.path) := by rw [ht1, group?_modGroup, if_pos rfl, hg]; rfl
  have grp : t1.grpOf c.g = c.grp.queued r c.path := by unfold State.grpOf; rw [own]; rfl
  have arm : (c.grp.queued r c.path).arm? c.arm = some c.path := by
    have q := congrArg (fun K : Group => K.arm? c.arm) marks
    exact Eq.trans q hp
  have there : (t1.path? c.g c.arm).isSome = true := by rw [path?_isSome own, arm]; rfl
  have path : t2.pathOf c.g c.arm = { c.path with prog := .acc r.id } := by
    rw [ht2, pathOf_modPath _ _ _ _ there, State.pathOf, grp, Group.armOf, arm]; rfl
  have due : (t2.grpOf c.g).due t2.now = c.grp.due s.now := by
    have first := congrArg (fun K : Group => K.due s.now) (Moved.path t1 c.g c.arm fun p => { p with prog := .acc r.id }).grp
    rw [grp] at first
    have second := congrArg (fun K : Group => K.due s.now) marks
    exact Eq.trans first second
  have moved : Moved t1 (t2.wait c) c.g := (Moved.path t1 c.g c.arm _).trans (Moved.path t2 c.g c.arm _)
  have kept := moved.grp
  rw [grp] at kept
  subst hu
  refine ⟨?_, ?_, fun l hl q hq => ?_, fun y hy => ?_⟩
  · refine (pathOf_wait (path?_modPath_isSome there _ _) (by rw [path]; exact hst)).trans ?_
    rw [path, due]
  · have first := congrArg Group.xch kept
    have second := congrArg Group.xch marks
    rw [show (State.grpOf (s.queueXch c r) c.g).xch = c.grp.xch ++ [r] from Eq.trans first second]
    simp
  · have pend := isPend_queued c.grp r c.path hl hq
    unfold Group.isPend at pend ⊢
    rwa [show (State.grpOf (s.queueXch c r) c.g).ownersOf l q.2 = _ from (rd_of_paths kept l q.2).2]
  · exact (moved.others y hy).trans (by rw [ht1, group?_modGroup, if_neg hy])

/-- What an exchange leaves of the group that has waited: its half is gone, and it has the paths it had. -/
theorem exchange_spec (G : Group) (id : Nat) (both : Lanes) (t : Ty) (d : Dst) (v : Nat → W64) :
    (∀ q ∈ (G.exchange id both t d v).xch, q.id ≠ id) ∧ (G.exchange id both t d v).arms.length = G.arms.length := by
  refine ⟨fun q hq => by simpa using (List.mem_filter.mp hq).2, ?_⟩
  have put := (stands_lanePut ((List.range 16).foldl (fun G l => G.forsake id l) G) both t d v).1
  exact (congrArg List.length put).trans (sysSame_forsake G id (List.range 16)).arms

/-- A half of an exchange that meets a queued one of another group (R111). -/
theorem matchXch_spec {s : State} {c : Cur} (hc : s.cur = some c) (hchip : c.path.onChip = true) {x : Nat} (hne : x ≠ c.g) {r : XchRec}
    (hr : r ∈ (s.grpOf x).xch) (act : Lanes) (t : Ty) (d : Dst) (a : Src) (pc : W64) {u : State}
    (hu : u = (s.matchXch c x r act t d a).goto c pc) : (LanesPut c.grp (u.grpOf c.g) (act &&& r.active) t d fun l => get 0 r.vals l)
      ∧ GoesOn s u c pc ∧ (∀ y, y ≠ c.g → y ≠ x → u.group? y = s.group? y) ∧ { u with groups := s.groups } = s
      ∧ (∀ q ∈ (u.grpOf x).xch, q.id ≠ r.id)
      ∧ ((s.path? x r.arm).isSome = true → (u.pathOf x r.arm).prog = .stage r.id ∧ (u.pathOf x r.arm).st = .ready) := by
  obtain ⟨-, hg, hp⟩ := cur_spec hc
  obtain ⟨X, hX⟩ : ∃ X, s.group? x = some X := by
    cases h : s.group? x with
    | none => unfold State.grpOf at hr; rw [h] at hr; cases hr
    | some X => exact ⟨X, rfl⟩
  set t1 := s.modGroup x fun G => G.exchange r.id (act &&& r.active) r.ty r.dst fun l => get 0 (c.offer act t a) l with ht1
  set t2 := t1.modPath x r.arm fun p => { p with prog := .stage r.id, st := .ready } with ht2
  set t3 := t2.modGroup c.g fun G => G.lanePut (act &&& r.active) t d fun l => get 0 r.vals l with ht3
  obtain ⟨gone, count⟩ := exchange_spec X r.id (act &&& r.active) r.ty r.dst fun l => get 0 (c.offer act t a) l
  have partner : t1.group? x = some (X.exchange r.id (act &&& r.active) r.ty r.dst fun l => get 0 (c.offer act t a) l) := by
    rw [ht1, group?_modGroup, if_pos rfl, hX]; rfl
  have away : ∀ y, y ≠ x → t2.group? y = s.group? y := fun y hy => by
    rw [ht2, State.modPath, group?_modGroup, if_neg hy, ht1, group?_modGroup, if_neg hy]
  have own : t3.group? c.g = some (c.grp.lanePut (act &&& r.active) t d fun l => get 0 r.vals l) := by
    rw [ht3, group?_modGroup, if_pos rfl, away c.g hne.symm, hg]; rfl
  obtain ⟨harms, hrecon, hexited⟩ := stands_lanePut c.grp (act &&& r.active) t d fun l => get 0 r.vals l
  obtain ⟨moved, goes⟩ := goto_of (s := s) own hp harms hrecon hexited rfl hchip pc
  have there : u.group? x = t2.group? x := by
    rw [hu]
    exact (moved.others x hne).trans (by rw [ht3, group?_modGroup, if_neg hne])
  have grp : u.grpOf x = t2.grpOf x := by unfold State.grpOf; rw [there]
  subst hu
  refine ⟨?_, goes, fun y hy hyx => ?_, ?_, ?_, fun hpath => ?_⟩
  · have kept := moved.grp
    rw [show t3.grpOf c.g = c.grp.lanePut (act &&& r.active) t d fun l => get 0 r.vals l by unfold State.grpOf; rw [own]; rfl] at kept
    exact (lanesPut_lanePut c.grp _ t d _).of_paths kept
  · exact (moved.others y hy).trans (by rw [ht3, group?_modGroup, if_neg hy, away y hyx])
  · exact congrArg (fun z : State => { z with groups := s.groups }) moved.rest
  · have queue := congrArg Group.xch (Moved.path t1 x r.arm fun p => { p with prog := .stage r.id, st := .ready }).grp
    rw [grp, show (t2.grpOf x).xch = (t1.grpOf x).xch from queue, State.grpOf, partner]
    exact gone
  · have isSome : (t1.path? x r.arm).isSome = true := by
      rw [path?_isSome hX] at hpath
      rw [path?_isSome partner]
      unfold Group.arm? at hpath ⊢
      rw [isSome_getElem?] at hpath ⊢
      rwa [count]
    rw [State.pathOf, grp]
    show (t2.pathOf x r.arm).prog = _ ∧ (t2.pathOf x r.arm).st = _
    rw [ht2, pathOf_modPath _ _ _ _ isSome]
    exact ⟨rfl, rfl⟩

/-- Settles O40: `SNAP` by `mod_becomes_of`; an `XCH` by what its partner is (`exec_xch`). -/
theorem snapshotAndExchange : Obligations.SnapshotAndExchange := by
  refine ⟨?_, fun g t d a b s c n hc hprog hchip => ⟨_, exec_xch_done hc hprog, goto_done hc hchip _⟩, ?_⟩
  · intro g d s c L h hL groups r hgroups
    obtain ⟨harms, hrecon, hexited⟩ := stands_kw c.grp d (w64 (L.snap + 1))
    exact ⟨_, exec_snap h hL, mod_becomes_of h.cur hgroups h.chip (fun G => G.kw d (w64 (L.snap + 1))) harms hrecon hexited _⟩
  · intro g t d a b s c x h i kb hbits hthere hsound tag mine
    have done := exec_xch (d := d) h hbits hthere hsound
    refine ⟨fun hp => ?_, fun hx => ?_⟩
    · rw [done]
      rcases hp with hp | hp <;> rw [hp] <;> rfl
    · rw [hx] at done
      refine ⟨fun hst hnone => ?_, fun r hne hsome => ?_⟩
      · rw [xchWith_none hnone] at done
        obtain ⟨path, half, pend, others⟩ := queueXch_spec h.cur hst (c.xchHalf s.ids (bits kb 0 38) tag (c.act g) t d a) rfl
        exact ⟨_, done, path, ⟨_, half, rfl, rfl, rfl, rfl, fun l hl => get_foldl_set _ hl []⟩, pend, others⟩
      · rw [xchWith_some hsome] at done
        exact ⟨_, done, matchXch_spec h.cur h.chip hne (List.mem_of_find?_eq_some hsome) (c.act g) t d a _ rfl⟩

end Sys2Proof.Machine

/-!
PROOFS. O11 (R152, R156, R164, R169 to R173): approximations and conversions. They are instructions of a lane, and `laneDoes_of` says what
their rows do.
-/

namespace Sys2Proof.Machine

/-- A source past the last one reads as zero. -/
theorem vals_none {c : Cur} {cw : W64} {srcs : List LSrc} {j : Nat} (h : srcs[j]? = none) (l : Nat) : c.vals cw srcs j l = 0 := by
  rw [Cur.vals, h]; rfl

/-- The row of `FCVT` with one source reads zero for the source it lacks, which R169 gives to packed results only. -/
theorem fcvtOp_none_f (g : Guard) (t st : Ty) (hi : Bool) (r : Rnd) (d : Dst) (a : Src) (c : Cur) (w : List Byte) :
    (fcvtOp g t st hi r d a none).f (c.act g) (c.vals (w64 (ofBytes w)) (fcvtOp g t st hi r d a none).srcs)
      = fun l => fcvtR t st hi r (c.arg w (.ty st) a l) 0 := by
  funext l
  show fcvtR t st hi r (c.arg w (.ty st) a l) (c.vals _ [srcTy st a] 1 l) = _
  rw [vals_none rfl]

/-- Settles O11: the rows' results are these functions, whatever the free last bits of an approximation; `NARROW` hands its row the same
active lanes that the statement chains over. -/
theorem floatFunctions : Obligations.FloatFunctions := by
  intro g t st hi r d a b
  have fcvt := laneDoes_of (i := .fcvt g t st hi r d a none) rfl rfl
  simp only [show (fcvtOp g t st hi r d a none).guard = g from rfl, fcvtOp_none_f] at fcvt
  exact ⟨laneDoes_of (i := .frcp g t d a) rfl rfl, laneDoes_of (i := .frsq g t d a) rfl rfl, laneDoes_of (i := .fexp2 g t d a) rfl rfl,
    laneDoes_of (i := .flog2 g t d a) rfl rfl, laneDoes_of (i := .fsin g t d a) rfl rfl, laneDoes_of (i := .fcos g t d a) rfl rfl, fcvt,
    laneDoes_of (i := .fcvt g t st hi r d a (some b)) rfl rfl, laneDoes_of (i := .narrow g t d a b) rfl rfl⟩

end Sys2Proof.Machine

/-!
PROOFS. O10 and O12 (R146 to R148, R160 to R168, R171, R172): float arithmetic, and conversions to and from integers. They are instructions
of a lane, and `laneDoes_of` says what their rows do; what R148 and R171 give for zero rests on rounding it to quanta.
-/

namespace Sys2Proof.Machine

/-- Settles O10: each row's result rounds one exact value, which `sat` then clamps, by definition; the others are the functions named. -/
theorem floatArithmetic : Obligations.FloatArithmetic := by
  intro g t r sat op d a b e
  exact ⟨laneDoes_of (i := .fadd g t r sat d a b) rfl rfl, laneDoes_of (i := .fsub g t r sat d a b) rfl rfl,
    laneDoes_of (i := .fmul g t r sat d a b) rfl rfl, laneDoes_of (i := .ffma g t r sat d a b e) rfl rfl,
    laneDoes_of (i := .fmin g t d a b) rfl rfl, laneDoes_of (i := .fmax g t d a b) rfl rfl, laneDoes_of (i := .fsqrt g t r d a) rfl rfl,
    laneDoes_of (i := .fscale g t r d a b) rfl rfl, laneDoes_of (i := .fclass g t (.code d) a) rfl rfl,
    laneDoes_of (i := .fdot2 g t r sat d a b e) rfl rfl, laneDoes_of (i := .fred g op t r d a) rfl rfl⟩

/-- Zero quanta with nothing beyond them do not round up: there is no remainder, and a half quantum is more than none (R146). -/
theorem roundUp_zero (r : Rnd) (neg : Bool) (sh : Nat) : roundUp r neg 0 0 sh = false := by
  cases r <;> simp [roundUp]

/-- A mantissa of zero is no quanta, whatever the exponents. -/
theorem toQuanta_zero (r : Rnd) (neg : Bool) (e q : Int) : toQuanta r neg 0 e q = 0 := by
  by_cases h : q ≤ e
  · simp [toQuanta, h]
  · simp [toQuanta, h, roundUp_zero]

/-- A zero of either sign is the integer 0, when the range holds 0 (R171). -/
theorem roundInt_zero (r : Rnd) {lo hi : Int} (hlo : lo ≤ 0) (hhi : 0 ≤ hi) (neg : Bool) (e : Int) :
    roundInt r lo hi (.fin neg 0 e) = 0 := by
  simp only [roundInt, toQuanta_zero]
  cases neg <;> simp [hlo, hhi]

/-- Settles O12: the rows' results round and clamp by definition; the integer 0 has no sign bit, and zeros are rounded by `roundInt_zero`. -/
theorem integerFloatConversion : Obligations.IntegerFloatConversion := by
  refine ⟨fun g t st r d a => ⟨laneDoes_of (i := .itof g t st r d a) rfl rfl, laneDoes_of (i := .ftoi g t st r d a) rfl rfl⟩, ?_⟩
  intro r f lo hi hlo hhi
  exact ⟨rfl, rfl, rfl, rfl, roundInt_zero r hlo hhi⟩

end Sys2Proof.Machine

/-!
PROOFS. Cores, quads and commands by number: what a read gives after an update, and where a waiting path goes on: support of O32 to O36,
O43, O44 and O58.
-/

namespace Sys2Proof.Machine

/-! ## Reads after updates -/

theorem get_put {α : Type} (d : α) (t : Tab α) (i j : Nat) (x : α) : get d (put t i x) j = if j = i then x else get d t j := by
  unfold get
  split
  · subst_vars; rw [look_put_same]; rfl
  · rw [look_put_other _ _ ‹_›]

@[simp] theorem core_modCore_same (s : State) (c : Nat) (f : Core → Core) : (s.modCore c f).core c = f (s.core c) := by
  rw [core_modCore, if_pos rfl]

@[simp] theorem quad_modQuad_same (s : State) (q : Nat) (f : Quad → Quad) : (s.modQuad q f).quad q = f (s.quad q) := by
  rw [quad_modQuad, if_pos rfl]

@[simp] theorem cmd?_modCmd_same (s : State) (i : Nat) (f : Cmd → Cmd) : (s.modCmd i f).cmd? i = (s.cmd? i).map f := by
  unfold State.cmd?
  rw [modCmd_cmds, look_upd, if_pos rfl]

/-! ## A waiting path goes on (assumption 13) -/

theorem resumeAt_path {s : State} {g a : Nat} {c : Cur} (h : s.path? g a = some c) (len : Nat) :
    s.resumeAt g a len = s.goto c (c.path.pc + w64 len) := by
  unfold State.resumeAt; rw [h]

/-- The current path is the one that goes on, whatever has become of the rest of its group. -/
theorem resumeAt_cur {s : State} {c : Cur} {G : Group} (hG : s.group? c.g = some G) (hp : G.arm? c.arm = some c.path) (len : Nat) :
    s.resumeAt c.g c.arm len = s.goto c (c.path.pc + w64 len) := by
  refine resumeAt_path (c := { c with grp := G }) ?_ len
  unfold State.path?
  simp only [hG, hp, Option.map_some]

/-! ## What a move of a path keeps -/

theorem Moved.cores {s t : State} {g : Nat} (h : Moved s t g) : t.cores = s.cores := by rw [← h.rest]
theorem Moved.quads {s t : State} {g : Nat} (h : Moved s t g) : t.quads = s.quads := by rw [← h.rest]
theorem Moved.cmds {s t : State} {g : Nat} (h : Moved s t g) : t.cmds = s.cmds := by rw [← h.rest]

theorem Moved.core {s t : State} {g : Nat} (h : Moved s t g) (x : Nat) : t.core x = s.core x := by unfold State.core; rw [h.cores]
theorem Moved.quad {s t : State} {g : Nat} (h : Moved s t g) (x : Nat) : t.quad x = s.quad x := by unfold State.quad; rw [h.quads]
theorem Moved.cmd? {s t : State} {g : Nat} (h : Moved s t g) (x : Nat) : t.cmd? x = s.cmd? x := by unfold State.cmd?; rw [h.cmds]

end Sys2Proof.Machine

/-!
PROOFS. O33 (R180, R187, R197 to R199): a command that is issued takes a tag.
-/

namespace Sys2Proof.Machine

/-! ## Who is served (R337) -/

/-- Whoever waits alone is served next. -/
theorem fairHead_single {α : Type} (share : Nat) (used : α → Nat) (x : α) : fairHead share used [x] = some x := by
  unfold fairHead
  cases h : [x].find? fun w => used w < share with
  | none => rfl
  | some y => rw [List.mem_singleton.mp (List.mem_of_find?_eq_some h)]

/-! ## A command enters its queue or the reservation table (R180, R187) -/

/-- A command with what it begins behind: the fences of its queue, or its group's other tile operations. -/
def Cmd.behind (k : Cmd) (s : State) (g : Nat) : Cmd :=
  { k with after := if k.kind.isTile then s.tileOps g else (s.core (slotCore g)).fenced k.queue }

/-- A command stands under the next identifier, and its tag names it. -/
def State.withCmd (s : State) (core : Nat) (k : Cmd) : State :=
  (s.next.setCmds (put s.cmds s.ids k)).modCore core fun K => { K with tags := upd K.tags k.tag fun t => { t with target := s.ids } }

/-- A tile operation stands in the reservation table too (R180). -/
def State.posted (s : State) (quad id : Nat) (k : Cmd) : State :=
  if k.kind.isTile then s.modQuad quad fun q => { q with table := q.table ++ [id] } else s

/-- An entry that nobody waits before is served next. -/
theorem nextPost_alone (s : State) (quad id : Nat) : s.nextPost quad ([] ++ [id]) = some id := fairHead_single _ _ _

/-- A command that does not complete at once enters its queue, or the reservation table where that has room. -/
theorem enter_running {s : State} {w : TagWait} {k : Cmd} (running : k.ended = false)
    (room : k.kind.isTile = true → (s.quad (coreQuad (slotCore w.grp))).posting = []
      ∧ (s.quad (coreQuad (slotCore w.grp))).table.length < Config.resvCap) :
    s.enter w k
      = ((s.withCmd (slotCore w.grp) (k.behind s w.grp)).posted (coreQuad (slotCore w.grp)) s.ids k).resumeAt w.grp w.arm w.len := by
  have begins : s.enter w k = if k.kind.isTile then _ else _ := if_neg (by rw [running]; exact Bool.false_ne_true)
  unfold State.posted
  by_cases tile : k.kind.isTile = true
  · obtain ⟨nobody, short⟩ := room tile
    have now : ∀ u : State, u.quad (coreQuad (slotCore w.grp)) = s.quad (coreQuad (slotCore w.grp)) →
        (u.nextPost (coreQuad (slotCore w.grp)) ((u.quad (coreQuad (slotCore w.grp))).posting ++ [s.ids]) = some s.ids
          && (u.quad (coreQuad (slotCore w.grp))).table.length < Config.resvCap) = true := by
      intro u same
      rw [same, nobody, nextPost_alone]
      exact (Bool.and_eq_true _ _).mpr ⟨decide_eq_true rfl, decide_eq_true short⟩
    exact begins.trans ((if_pos tile).trans ((if_pos (now (s.withCmd (slotCore w.grp) (k.behind s w.grp)) rfl)).trans
      (congrArg (State.resumeAt · w.grp w.arm w.len) (if_pos tile).symm)))
  · exact begins.trans ((if_neg tile).trans (congrArg (State.resumeAt · w.grp w.arm w.len) (if_neg tile).symm))

/-! ## A command takes its tag (R197 to R199) -/

/-- What waits for the tag of a command that the current path issues. -/
def Cur.wantsTag (c : Cur) (s : State) (i : Instr) (kh : BitVec 5) (k : Cmd) : TagWait :=
  { id := s.ids, block := c.grp.block, dom := k.dom, launch := c.grp.launch, grp := c.g, arm := c.arm, d := kh, len := instrLen i
    cmd := some k, graph := false, early := false, target := 0 }

/-- The kind in a command's handle (R197). -/
def Cmd.handleKind (k : Cmd) : BitVec 2 := if k.kind.isTile then 1 else 0

/-- A tag as a command of the current path takes it. -/
def Cur.tagFor (c : Cur) (s : State) (k : Cmd) (n : Nat) : Tag :=
  { gen := s.nextGen c.core n, owner := some c.grp.launch, block := c.grp.block, kind := k.handleKind, done := false
    status := 0, taddr := 0, graph := false, early := false, target := 0, cls := 0 }

/-- A command under the tag that it holds. -/
def Cmd.under (k : Cmd) (s : State) (c : Cur) (n : Nat) : Cmd := { k with tag := n, gen := s.nextGen c.core n }

/-- Tag `n` is held, and the handle is written. -/
def State.handed (s : State) (c : Cur) (kh : BitVec 5) (k : Cmd) (n : Nat) : State :=
  (s.modCore c.core fun K => { K with tags := put K.tags n (c.tagFor s k n) }).modGroup c.g fun G =>
    G.kw kh (handleOf k.handleKind c.core (s.nextGen c.core n) n)

/-- A command that has taken tag `n` is outstanding. -/
def State.outstanding (s : State) (c : Cur) (kh : BitVec 5) (k : Cmd) (n : Nat) : State :=
  ((s.next.handed c kh k n).withCmd c.core ((k.under s c n).behind s c.g)).posted (coreQuad c.core) (s.ids + 1) k

theorem issueCmd_gives {s : State} {c : Cur} {k : Cmd} {n : Nat} (i : Instr) (kh : BitVec 5) (h : TagFree s c k n) :
    s.issueCmd c i kh k = s.next.giveTag (c.wantsTag s i kh k) n := by
  obtain ⟨nobody, free, -, -⟩ := h
  unfold State.issueCmd State.takeTag State.nextTagWait
  rw [nobody, free]
  dsimp only
  rw [List.nil_append, fairHead_single]
  dsimp only
  rw [if_pos rfl]; rfl

/-- What a command begins behind does not depend on the tag that it takes. -/
theorem behind_handed (s : State) (c : Cur) (kh : BitVec 5) (k j : Cmd) (n : Nat) :
    j.behind (s.next.handed c kh k n) c.g = j.behind s c.g := by
  have fences : ((s.next.handed c kh k n).core c.core).fenced j.queue = (s.core c.core).fenced j.queue :=
    (congrArg (Core.fenced · j.queue) (core_modCore_same s c.core fun K => { K with tags := put K.tags n (c.tagFor s k n) }) :)
  unfold Cmd.behind
  exact congrArg (fun l => { j with after := if j.kind.isTile then s.tileOps c.g else l }) fences

theorem giveTag_outstanding {s : State} {c : Cur} {k : Cmd} {n : Nat} (i : Instr) (kh : BitVec 5) (h : TagFree s c k n) :
    s.next.giveTag (c.wantsTag s i kh k) n = (s.outstanding c kh k n).resumeAt c.g c.arm (instrLen i) := by
  obtain ⟨nobody, free, running, room⟩ := h
  have enters := enter_running (s := s.next.handed c kh k n) (w := c.wantsTag s i kh k) (k := k.under s c n) running room
  unfold State.outstanding
  rw [← behind_handed s c kh k (k.under s c n) n]
  exact enters

/-- Memory reads the same in states that differ in their groups, commands, cores and quads. -/
theorem peek_of_parts {s t : State}
    (h : { t with groups := s.groups, cmds := s.cmds, cores := s.cores, quads := s.quads, ids := s.ids } = s)
    (a n : Nat) : t.peek a n = s.peek a n := by
  have e : t.peek a n
      = State.peek { t with groups := s.groups, cmds := s.cmds, cores := s.cores, quads := s.quads, ids := s.ids } a n := rfl
  rw [e, h]

theorem outstanding_rest (s : State) (c : Cur) (kh : BitVec 5) (k : Cmd) (n : Nat) :
    { s.outstanding c kh k n with groups := s.groups, cmds := s.cmds, cores := s.cores, quads := s.quads, ids := s.ids } = s := by
  cases s
  unfold State.outstanding State.posted; split <;> rfl

theorem outstanding_cmds (s : State) (c : Cur) (kh : BitVec 5) (k : Cmd) (n : Nat) :
    (s.outstanding c kh k n).cmds = put s.cmds (s.ids + 1) ((k.under s c n).behind s c.g) := by
  unfold State.outstanding State.posted; split <;> rfl

theorem outstanding_table (s : State) (c : Cur) (kh : BitVec 5) {k : Cmd} (n : Nat) (tile : k.kind.isTile = true) :
    s.ids + 1 ∈ ((s.outstanding c kh k n).quad (coreQuad c.core)).table := by
  unfold State.outstanding State.posted
  rw [if_pos tile, quad_modQuad_same]
  exact List.mem_append_right _ (List.mem_singleton.mpr rfl)

theorem outstanding_group? {s : State} {c : Cur} (hc : s.cur = some c) (kh : BitVec 5) (k : Cmd) (n : Nat) (x : Nat) :
    (s.outstanding c kh k n).group? x
      = if x = c.g then some (c.grp.kw kh (handleOf k.handleKind c.core (s.nextGen c.core n) n)) else s.group? x := by
  have groups : (s.outstanding c kh k n).groups
      = (s.modGroup c.g fun G => G.kw kh (handleOf k.handleKind c.core (s.nextGen c.core n) n)).groups := by
    unfold State.outstanding State.posted; split <;> rfl
  obtain ⟨-, hg, -⟩ := cur_spec hc
  rw [State.group?, groups, ← State.group?, group?_modGroup, hg, Option.map_some]

/-- A command with a tag free for it is outstanding at once, and the path goes on. -/
theorem issueCmd_outstanding {s : State} {c : Cur} {k : Cmd} {n : Nat} (i : Instr) (kh : BitVec 5) (hc : s.cur = some c)
    (h : TagFree s c k n) : s.issueCmd c i kh k = (s.outstanding c kh k n).goto c (c.nextPc i) := by
  obtain ⟨-, -, hp⟩ := cur_spec hc
  have own := outstanding_group? hc kh k n c.g
  rw [if_pos rfl] at own
  rw [issueCmd_gives i kh h, giveTag_outstanding i kh h]
  exact resumeAt_cur own (by rw [Group.arm?, (stands_kw c.grp kh _).1]; exact hp) _

theorem outstanding_tags (s : State) (c : Cur) (kh : BitVec 5) (k : Cmd) (n x : Nat) :
    get tagReset ((s.outstanding c kh k n).core c.core).tags x
      = if x = n then { c.tagFor s k n with target := s.ids + 1 } else get tagReset (s.core c.core).tags x := by
  have cores : (s.outstanding c kh k n).cores = ((s.next.handed c kh k n).withCmd c.core ((k.under s c n).behind s c.g)).cores := by
    unfold State.outstanding State.posted; split <;> rfl
  have held : ((s.next.handed c kh k n).core c.core).tags = put (s.core c.core).tags n (c.tagFor s k n) :=
    congrArg Core.tags (core_modCore_same s c.core fun K => { K with tags := put K.tags n (c.tagFor s k n) })
  have named : ((s.outstanding c kh k n).core c.core).tags
      = upd (put (s.core c.core).tags n (c.tagFor s k n)) n fun t => { t with target := s.ids + 1 } := by
    rw [State.core, cores, ← State.core, ← held]
    exact congrArg Core.tags (core_modCore_same (s.next.handed c kh k n) c.core fun K =>
      { K with tags := upd K.tags n fun t => { t with target := s.ids + 1 } })
  rw [named, get, look_upd]
  split
  · subst_vars; rw [look_put_same]; rfl
  · rw [look_put_other _ _ ‹_›]; rfl

/-- Settles O33: with nobody before it the command takes the tag at once, and `enter` neither completes it nor has it wait; what is left
of the machine is `outstanding`, from which the path goes on. -/
theorem commandTakesTag : Obligations.CommandTakesTag := by
  intro s c i kh k n hc hchip h
  obtain ⟨-, hg, hp⟩ := cur_spec hc
  obtain ⟨harms, hrecon, hexited⟩ := stands_kw c.grp kh (handleOf k.handleKind c.core (s.nextGen c.core n) n)
  have group? := outstanding_group? hc kh k n
  have own := (group? c.g).trans (if_pos rfl)
  rw [issueCmd_outstanding i kh hc h]
  have tick : (s.outstanding c kh k n).tick = s.tick := (congrArg State.tick (outstanding_rest s c kh k n) :)
  obtain ⟨moved, goes⟩ := goto_of (s := s) own hp harms hrecon hexited tick hchip (c.nextPc i)
  have grp : (s.outstanding c kh k n).grpOf c.g = c.grp.kw kh (handleOf k.handleKind c.core (s.nextGen c.core n) n) := by
    unfold State.grpOf; rw [own]; rfl
  have paths := grp ▸ moved.grp
  have tags := outstanding_tags s c kh k n
  have tag := (tags n).trans (if_pos rfl)
  refine ⟨?_, fun x hx => ?_, ?_, fun tile => ?_, fun hd => ?_, fun j hj => ?_, fun x hx => ?_, fun a m => ?_, goes⟩
  · rw [moved.core, tag]; exact ⟨rfl, rfl, rfl⟩
  · rw [moved.core, tags, if_neg hx]
  · rw [moved.core, tag, moved.cmd?, State.cmd?, outstanding_cmds]; exact look_put_same _ _ _
  · rw [moved.core, tag, moved.quad]; exact outstanding_table s c kh n tile
  · rw [kr_of_paths paths, kr_kw, if_pos ⟨rfl, hd⟩]; rfl
  · rw [kr_of_paths paths, kr_kw, if_neg fun e => hj e.1]
  · rw [moved.others x hx, group?, if_neg hx]
  · rw [moved.only.bytes]
    exact peek_of_parts (outstanding_rest s c kh k n) a m

end Sys2Proof.Machine

/-!
PROOFS. O32 (R187, R192, R194, R197 to R199): copy commands are issued.
-/

namespace Sys2Proof.Machine

/-! ## The instructions of the engines -/

/-- An instruction of the engines that the path has not begun does what it says. -/
theorem engine_fresh {s : State} {c : Cur} {gd : Guard} {drains : Bool} (h : Fresh s c gd drains) (i : Instr) (f : State → State) :
    s.engine c i gd drains f = f s := by
  unfold State.engine
  rw [h.prog]
  exact once_fresh h

theorem exec_engine {s : State} {c : Cur} {gd : Guard} {drains : Bool} (h : Fresh s c gd drains) {i : Instr} {f : Cur → State → State}
    (he : exec i s = s.onPath fun c => s.engine c i gd drains (f c)) : exec i s = .next (f c s) := by
  rw [he, onPath_cur h.cur, engine_fresh h]

/-- Where every operand is a multiple of its unit, what follows is done. -/
theorem aligned_of {l : List (Nat × Nat)} (h : ∀ q ∈ l, q.1 % q.2 = 0) (s : State) (c : Cur) (f : State) : s.aligned c l f = f := by
  have whole : unaligned l = none := by
    unfold unaligned
    rw [List.find?_eq_none.mpr fun q hq => by simp [h q hq]]; rfl
  unfold State.aligned
  rw [whole]

/-- A command that its instruction issues takes whatever tag is free for it. -/
theorem issues_of {s : State} {c : Cur} {i : Instr} {kh : BitVec 5} {k : Cmd} (hc : s.cur = some c) (hchip : c.path.onChip = true)
    (h : exec i s = .next (s.issueCmd c i kh k)) : Issues s c i kh k :=
  ⟨h, fun n free => ⟨_, h, commandTakesTag s c i kh k n hc hchip free⟩⟩

/-- The same for a copy, which completes at once where its length is 0. -/
theorem issues_copy {s : State} {c : Cur} {i : Instr} {kh : BitVec 5} {k : Cmd} {n : Nat} (hc : s.cur = some c)
    (hchip : c.path.onChip = true) (h : exec i s = .next (s.issueCmd c i kh (if n = 0 then k.atOnce 0 else k))) :
    Issues s c i kh (if n == 0 then k.atOnce 0 else k) := by
  refine issues_of hc hchip (h.trans ?_)
  by_cases hn : n = 0 <;> simp [hn]

/-! ## Copy commands (R192 to R195) -/

section
variable {g : Guard} {s : State} {c : Cur} (h : Fresh s c g true) (f : CopyF) (kh : BitVec 5) (a b x n m : Src)
include h

theorem exec_cpy (hn : c.kn n < 2 ^ 32) (ha : c.kn a % 4 = 0) (hb : c.kn b % 4 = 0) (hl : c.kn n % 4 = 0) :
    exec (.cpy g f kh a b n) s = .next (s.issueCmd c (.cpy g f kh a b n) kh (
      let k := s.newCmd c (.cpy (c.kop a) (c.kop b) (c.kn n) f.dl f.sl) f.scope f.queue.toNat f.slk.toNat 0
      if c.kn n = 0 then k.atOnce 0 else k)) := by
  refine (exec_engine h rfl).trans (congrArg Host.Outcome.next ((if_neg (Nat.not_le.mpr hn)).trans (aligned_of ?_ _ _ _)))
  simp [ha, hb, hl]

theorem exec_cpg (l : BitVec 16) (hn : c.kn n < 2 ^ 24) (hx : c.kn x % 4 = 0) :
    exec (.cpg g f kh a b x n l) s = .next (s.issueCmd c (.cpg g f kh a b x n l) kh (
      let k := s.newCmd c (.cpg (c.kop a) (c.kop b) (c.kop x) (c.kn n) (4 * l.toNat) f.dl f.sl f.il) f.scope f.queue.toNat f.slk.toNat 0
      if c.kn n = 0 then k.atOnce 0 else k)) := by
  refine (exec_engine h rfl).trans (congrArg Host.Outcome.next ((if_neg (Nat.not_le.mpr hn)).trans (aligned_of ?_ _ _ _)))
  simp [hx]

theorem exec_cpm (lo : 64 ≤ c.kn n) (hi : c.kn n ≤ 262144) (hm : c.kn m < 2 ^ 32) (ha : c.kn a % 64 = 0) (hb : c.kn b % 64 = 0)
    (hl : c.kn n % 64 = 0) :
    exec (.cpm g f kh a b n m) s = .next (s.issueCmd c (.cpm g f kh a b n m) kh (
      let k := s.newCmd c (.cpm (c.kop a) (c.kop b) (c.kn n) (lo32 (c.kop m))) f.scope f.queue.toNat f.slk.toNat 0
      if c.kn m = 0 then k.atOnce 0 else k)) := by
  refine (exec_engine h rfl).trans (congrArg Host.Outcome.next ((if_neg ?_).trans (aligned_of ?_ _ _ _)))
  · simpa [lo, hi] using hm
  · simp [ha, hb, hl]

theorem exec_cpyr (t : Ty) (hn : c.kn n < 2 ^ 32) (ha : c.kn a % t.size = 0) (hb : c.kn b % t.size = 0) (hl : c.kn n % t.size = 0) :
    exec (.cpyr g t f kh a b n) s = .next (s.issueCmd c (.cpyr g t f kh a b n) kh (
      let k := s.newCmd c (.cpyr t (c.kop a) (c.kop b) (c.kn n) f.sl) f.scope f.queue.toNat f.slk.toNat 0
      if c.kn n = 0 then k.atOnce 0 else k)) := by
  refine (exec_engine h rfl).trans (congrArg Host.Outcome.next ((if_neg (Nat.not_le.mpr hn)).trans (aligned_of ?_ _ _ _)))
  simp [ha, hb, hl]

end

/-- Settles O32: in range and aligned, each copy command comes to its `issueCmd`, and `commandTakesTag` says what that leaves. -/
theorem copyCommands : Obligations.CopyCommands := by
  intro g t f kh a b x n m l s c h
  refine ⟨fun hn ha hb hl => ?_, fun hn hx => ?_, fun lo hi hm ha hb hl => ?_, fun hn ha hb hl => ?_⟩
  · exact issues_copy h.cur h.chip (exec_cpy h f kh a b n hn ha hb hl)
  · exact issues_copy h.cur h.chip (exec_cpg h f kh a b x n l hn hx)
  · exact issues_copy h.cur h.chip (exec_cpm h f kh a b n m lo hi hm ha hb hl)
  · exact issues_copy h.cur h.chip (exec_cpyr h f kh a b n t hn ha hb hl)

end Sys2Proof.Machine

/-!
PROOFS. O34 (R180, R183, R185, R188 to R191, R194): commands with a format descriptor, and tile operations.
-/

namespace Sys2Proof.Machine

/-! ## Commands with a format descriptor (R188 to R191, R194) -/

/-- The kind of a command with descriptor `n`. -/
def descKind (acc : Bool) (a tile win n : Nat) : CmdKind :=
  if acc then .cpya (w64 a) tile (win % 256) (bits win 8 8) (BitVec.ofNat 256 n)
  else .cpyo (w64 a) tile (win % 256) (bits win 8 8) (BitVec.ofNat 256 n)

/-- The command that follows from a descriptor's bytes. -/
def State.descCmd (r : State) (c : Cur) (f : CopyF) (acc : Bool) (a tile win kf : Nat) (d : List Byte) : Cmd :=
  r.lateDesc (r.newCmd c (descKind acc a tile win (ofBytes d)) f.scope f.queue.toNat f.slk.toNat 0) kf

section
variable {s r : State} {c : Cur} {f : CopyF} {acc : Bool} {tile win kf : Nat} {d : List Byte} (hkf : kf % 32 = 0)
  (read : s.descRead c f.slk.toNat kf = (r, .ok d)) (sound : r.isBadMem kf 32 = false) (i : Instr) (kh : BitVec 5) (a : Nat)
include hkf read sound

/-- What is done with a descriptor that is at hand and sound. -/
theorem withDesc_read :
    s.withDesc c i kh f acc a tile win kf
      = match refusal acc (ofBytes d) (win % 256) (bits win 8 8) with
        | some x => r.next.issueCmd c i kh ((r.descCmd c f acc a tile win kf d).atOnce (w64 (0x10 + 256 * x)))
        | none =>
          if !r.next.claimed (coreQuad c.core) c.grp.block acc tile (if acc then 1 else (descOf (ofBytes d)).nsl + 1) then
            r.next.trapAt c 9 none
          else if a % memSize (descOf (ofBytes d)).mfmt != 0 || (descOf (ofBytes d)).rstr % memSize (descOf (ofBytes d)).mfmt != 0
              || (descOf (ofBytes d)).cstr % memSize (descOf (ofBytes d)).mfmt != 0 then r.next.trapAt c 6 (some (w64 a))
          else
            r.next.issueCmd c i kh (if bits win 8 8 = 0 then (r.descCmd c f acc a tile win kf d).atOnce 0
              else r.descCmd c f acc a tile win kf d) := by
  unfold State.withDesc
  rw [if_neg (by simp [hkf]), read]
  exact if_neg (by simp [sound])

/-- A refused descriptor completes its command at once, with the refusal's detail. -/
theorem withDesc_refused {x : Nat} (hx : refusal acc (ofBytes d) (win % 256) (bits win 8 8) = some x) :
    s.withDesc c i kh f acc a tile win kf
      = r.next.issueCmd c i kh ((r.descCmd c f acc a tile win kf d).atOnce (w64 (0x10 + 256 * x))) := by
  rw [withDesc_read hkf read sound, hx]

/-- Accepted, with what it names claimed and every stride aligned, the command is issued. -/
theorem withDesc_issued (hx : refusal acc (ofBytes d) (win % 256) (bits win 8 8) = none)
    (own : r.claimed (coreQuad c.core) c.grp.block acc tile (if acc then 1 else (descOf (ofBytes d)).nsl + 1) = true)
    (ha : a % memSize (descOf (ofBytes d)).mfmt = 0) (hr : (descOf (ofBytes d)).rstr % memSize (descOf (ofBytes d)).mfmt = 0)
    (hc : (descOf (ofBytes d)).cstr % memSize (descOf (ofBytes d)).mfmt = 0) :
    s.withDesc c i kh f acc a tile win kf
      = r.next.issueCmd c i kh (if bits win 8 8 = 0 then (r.descCmd c f acc a tile win kf d).atOnce 0
          else r.descCmd c f acc a tile win kf d) := by
  have claimed : r.next.claimed (coreQuad c.core) c.grp.block acc tile (if acc then 1 else (descOf (ofBytes d)).nsl + 1) = true := own
  rw [withDesc_read hkf read sound, hx]
  refine (if_neg (by simp [claimed])).trans (if_neg ?_)
  simp [ha, hr, hc]

end

section
variable {g : Guard} {s : State} {c : Cur} (h : Fresh s c g true) (f : CopyF) (kh : BitVec 5) (a b e q : Src)
include h

theorem exec_cpyo (top : bits (c.kn e) 16 48 = 0) (nonzero : 0 < bits (c.kn e) 8 8) (most : bits (c.kn e) 8 8 ≤ 128) :
    exec (.cpyo g f kh a b e q) s
      = .next (s.withDesc c (.cpyo g f kh a b e q) kh f false (c.kn a) (c.kn b) (c.kn e) (c.kn q)) := by
  refine (exec_engine h rfl).trans (congrArg Host.Outcome.next (if_neg ?_))
  simp [top, Nat.ne_of_gt nonzero, most]

theorem exec_cpya (most : c.kn e % 256 + bits (c.kn e) 8 8 ≤ 128) :
    exec (.cpya g f kh a b e q) s
      = .next (s.withDesc c (.cpya g f kh a b e q) kh f true (c.kn a) (c.kn b) (c.kn e) (c.kn q)) :=
  (exec_engine h rfl).trans (congrArg Host.Outcome.next (if_neg (Nat.not_lt.mpr most)))

/-- `CPYO` or `CPYA` whose window is in range does what its descriptor says. -/
theorem exec_desc (acc : Bool)
    (window : if acc then c.kn e % 256 + bits (c.kn e) 8 8 ≤ 128
      else bits (c.kn e) 16 48 = 0 ∧ 0 < bits (c.kn e) 8 8 ∧ bits (c.kn e) 8 8 ≤ 128) :
    exec (if acc then .cpya g f kh a b e q else .cpyo g f kh a b e q) s
      = .next (s.withDesc c (if acc then .cpya g f kh a b e q else .cpyo g f kh a b e q) kh f acc (c.kn a) (c.kn b) (c.kn e) (c.kn q)) := by
  cases acc with
  | true => exact exec_cpya h f kh a b e q window
  | false => obtain ⟨top, nonzero, most⟩ := window; exact exec_cpyo h f kh a b e q top nonzero most

end

/-! ## Tile operations (R180, R183, R185) -/

/-- A tile operation of the current path. -/
def State.tileCmd (s : State) (c : Cur) (prio : Nat) (kind : CmdKind) : Cmd := { s.newCmd c kind .blk 0 0 prio with entry := 0xFFF }

/-- With its tile and its slots claimed and its check passed, a tile operation is issued. -/
theorem tileOp_issued {s : State} {c : Cur} {tile : Nat} {slots : List Nat} {check : State → Option (Byte × W64)}
    (own : s.claimed (coreQuad c.core) c.grp.block true tile 1 = true)
    (held : ∀ x ∈ slots, s.claimed (coreQuad c.core) c.grp.block false x 1 = true) (passed : check s = none) (i : Instr) (kh : BitVec 5)
    (prio : Nat) (kind : CmdKind) : s.tileOp c i kh tile prio slots kind check = s.issueCmd c i kh (s.tileCmd c prio kind) := by
  have missing : (slots.any fun x => !s.claimed (coreQuad c.core) c.grp.block false x 1) = false :=
    List.any_eq_false.mpr fun x hx => by simp [held x hx]
  refine (if_neg (by simp [own, missing])).trans ?_
  rw [passed]; rfl

theorem tileOp_unclaimed {s : State} {c : Cur} {tile : Nat} (h : ¬ s.claimed (coreQuad c.core) c.grp.block true tile 1 = true) (i : Instr)
    (kh : BitVec 5) (prio : Nat) (slots : List Nat) (kind : CmdKind) (check : State → Option (Byte × W64)) :
    s.tileOp c i kh tile prio slots kind check = s.trapAt c 9 none := if_pos (by simp [h])

/-- The slots of the steps of a pass are claimed where those of each step are. -/
theorem slots_claimed {P : Nat → Prop} {n a b ia ib : Nat} (h : ∀ j, j < n → P (a + j * ia) ∧ P (b + j * ib)) :
    ∀ x ∈ (List.range n).flatMap fun j => [a + j * ia, b + j * ib], P x := by
  intro x hx
  obtain ⟨j, hj, hx⟩ := List.mem_flatMap.mp hx
  obtain ⟨first, second⟩ := h j (List.mem_range.mp hj)
  rcases List.mem_cons.mp hx with rfl | hx
  · exact first
  · rw [List.mem_singleton.mp hx]; exact second

/-- Settles O34: `withDesc` and `tileOp` come to `issueCmd` in the branch that the hypotheses name, and `commandTakesTag` says what that
leaves. -/
theorem descriptorAndTileCommands : Obligations.DescriptorAndTileCommands := by
  intro g f kh a b e q s c h
  refine ⟨?_, ?_⟩
  · intro acc r d hq read sound i first count D kind k window
    have does := exec_desc h f kh a b e q acc window
    refine ⟨fun x hx => does.trans (congrArg _ (withDesc_refused hq read sound i kh _ hx)), fun hx claimed ha hr hs => ?_⟩
    have issued := does.trans (congrArg Host.Outcome.next (withDesc_issued hq read sound i kh _ hx claimed ha hr hs))
    refine ⟨issued, fun n hn hr free => ⟨_, issued, ?_⟩⟩
    rw [if_neg hn]
    exact commandTakesTag r.next c i kh k n hr h.chip free
  · intro fa fb prio n ia ib mode kind cmd own slots
    refine ⟨fun ho hs => ?_, fun ho => ?_, fun ho hb hl => ?_, fun ho => ?_⟩
    · refine issues_of h.cur h.chip ((exec_engine h rfl).trans (congrArg Host.Outcome.next ?_))
      refine (tileOp_issued ho (slots_claimed hs) rfl _ kh _ _).trans ?_
      cases mode <;> rfl
    · exact issues_of h.cur h.chip ((exec_engine h rfl).trans (congrArg Host.Outcome.next (tileOp_issued ho (by simp) rfl _ kh _ _)))
    · refine issues_of h.cur h.chip ((exec_engine h rfl).trans (congrArg Host.Outcome.next (tileOp_issued ho (by simp) ?_ _ kh _ _)))
      refine (if_neg (by simp [hb])).trans (if_neg ?_)
      simpa [Option.isSome_iff_ne_none] using hl
    · exact (exec_engine h rfl).trans (congrArg Host.Outcome.next (tileOp_unclaimed ho _ kh _ _ _ _))

end Sys2Proof.Machine

/-!
PROOFS. O35 (R178, R179): claims and releases of slots and tiles.
-/

namespace Sys2Proof.Machine

/-! ## The current path after a change outside the groups -/

section
variable {s r : State} {c : Cur} (hc : s.cur = some c) (hgroups : r.groups = s.groups)
include hc hgroups

theorem cur_group?_of_groups : r.group? c.g = some c.grp := (congrArg (look · c.g) hgroups).trans (cur_spec hc).2.1

theorem cur_path?_of_groups : (r.path? c.g c.arm).isSome = true := by
  rw [path?_isSome (cur_group?_of_groups hc hgroups), (cur_spec hc).2.2]; rfl

theorem cur_pathOf_of_groups : r.pathOf c.g c.arm = c.path := by
  have own : r.grpOf c.g = c.grp := by unfold State.grpOf; rw [cur_group?_of_groups hc hgroups]; rfl
  unfold State.pathOf Group.armOf; rw [own, (cur_spec hc).2.2]; rfl

/-- The path answers `x` in `kd` and goes on. -/
theorem answer_becomes (hchip : c.path.onChip = true) (i : Instr) (d : BitVec 5) (x : W64) :
    Becomes r (r.answer c i d x) c (c.nextPc i) (c.grp.kw d x) := by
  obtain ⟨harms, hrecon, hexited⟩ := stands_kw c.grp d x
  exact mod_becomes_of hc hgroups hchip (fun G => G.kw d x) harms hrecon hexited _

theorem advance_becomes (hchip : c.path.onChip = true) (i : Instr) : Becomes r (r.advance c i) c (c.nextPc i) c.grp :=
  goto_becomes (cur_spec hc).2.2 (cur_group?_of_groups hc hgroups) rfl rfl rfl hchip _

/-- The path waits with its place in a queue, at its own instruction. -/
theorem ticket_pathOf (id : Nat) : (r.ticket c id).pathOf c.g c.arm = { c.path with prog := .ticket id, st := .parked } := by
  have there := cur_path?_of_groups hc hgroups
  unfold State.ticket State.park
  rw [pathOf_modPath _ _ _ _ (path?_modPath_isSome there _ _), pathOf_modPath _ _ _ _ there, cur_pathOf_of_groups hc hgroups]

end

/-- A machine that has become `r` but for one group has the quads of `r`. -/
theorem Only.quad {s t : State} {g : Nat} (h : Only s t g) (x : Nat) : t.quad x = s.quad x := by
  have quads : t.quads = s.quads := by rw [← h.rest]
  unfold State.quad; rw [quads]

/-! ## Free runs (R179) -/

/-- A free run is free, lies within the slots or tiles, and no lower run of its length is free. -/
theorem freeRun_spec {q : Quad} {tiles : Bool} {n first : Nat} (h : q.freeRun tiles n = some first) :
    (∀ j, j < n → look (q.own tiles) (first + j) = none) ∧ first < slotMax tiles + 1 - n
      ∧ ∀ x, x < first → ∃ j, j < n ∧ look (q.own tiles) (x + j) ≠ none := by
  obtain ⟨free, inside, lower⟩ := List.find?_range_eq_some.mp h
  refine ⟨fun j hj => ?_, List.mem_range.mp inside, fun x hx => ?_⟩
  · exact Option.isNone_iff_eq_none.mp (List.all_eq_true.mp free j (List.mem_range.mpr hj))
  · have taken := lower x hx
    rw [Bool.not_eq_true', List.all_eq_false] at taken
    obtain ⟨j, hj, owned⟩ := taken
    exact ⟨j, List.mem_range.mp hj, fun e => owned (Option.isNone_iff_eq_none.mpr e)⟩

/-- What is freed has no owner. -/
theorem own_free (q : Quad) (tiles : Bool) (first n dom : Nat) {j : Nat} (hj : j < n) :
    look ((q.free tiles first n dom).own tiles) (first + j) = none := by
  unfold Quad.free
  refine foldl_reaches (Q := fun _ => True) (P := fun r : Quad => look (r.own tiles) (first + j) = none) _ (fun _ _ _ => trivial)
    (fun r i free => ?_) (fun r _ => ?_) (List.mem_range.mpr hj) trivial
  · have step : look (del (r.own tiles) (first + i)) (first + j) = none := by
      by_cases same : first + j = first + i
      · rw [same, look_del_same]
      · rw [look_del_other _ same]; exact free
    cases tiles <;> exact step
  · cases tiles <;> exact look_del_same _ _

/-! ## Claims (R178, R179) -/

/-- The claim of the current path. -/
def State.claimOf (s : State) (c : Cur) (d : BitVec 5) (n : Nat) : Claim :=
  { id := s.ids, block := c.grp.block, dom := s.domOf c.grp.launch, grp := c.g, arm := c.arm, d := d, count := n }

/-- A claim waits behind the others of its kind. -/
def State.claimQueued (s : State) (c : Cur) (tiles : Bool) (w : Claim) : State :=
  s.next.modQuad (coreQuad c.core) fun q => q.setWaits tiles ((s.quad (coreQuad c.core)).waits tiles ++ [w])

theorem claimQueued_waits (s : State) (c : Cur) (tiles : Bool) (w : Claim) :
    ((s.claimQueued c tiles w).quad (coreQuad c.core)).waits tiles = (s.quad (coreQuad c.core)).waits tiles ++ [w] := by
  unfold State.claimQueued
  rw [quad_modQuad_same]
  cases tiles <;> rfl

section
variable {s : State} {c : Cur} {tiles : Bool} {d : BitVec 5} {a : Src} (i : Instr)

theorem claim_illegal (h : c.kn a = 0 ∨ slotMax tiles < c.kn a) : s.claim c i tiles d a = s.trapAt c 1 none :=
  if_pos (by simpa using h)

theorem claim_legal (nonzero : c.kn a ≠ 0) (most : c.kn a ≤ slotMax tiles) :
    ¬ (decide (c.kn a = 0) || decide (slotMax tiles < c.kn a)) = true := by simp [nonzero, most]

/-- The only claim that waits takes the lowest free run. -/
theorem claim_granted {first : Nat} (nonzero : c.kn a ≠ 0) (most : c.kn a ≤ slotMax tiles)
    (alone : (s.quad (coreQuad c.core)).waits tiles = []) (run : (s.quad (coreQuad c.core)).freeRun tiles (c.kn a) = some first) :
    s.claim c i tiles d a
      = (s.next.modQuad (coreQuad c.core) fun q => q.grant tiles first (s.claimOf c d (c.kn a))).answer c i d (w64 first) := by
  unfold State.claim
  refine (if_neg (claim_legal nonzero most)).trans ?_
  dsimp only
  rw [alone, run, List.nil_append, State.nextClaim, fairHead_single]
  exact if_pos rfl

/-- A claim without a free run waits behind the others. -/
theorem claim_waits (nonzero : c.kn a ≠ 0) (most : c.kn a ≤ slotMax tiles)
    (run : (s.quad (coreQuad c.core)).freeRun tiles (c.kn a) = none) :
    s.claim c i tiles d a
      = (s.claimQueued c tiles (s.claimOf c d (c.kn a))).ticket c s.ids := by
  unfold State.claim
  refine (if_neg (claim_legal nonzero most)).trans ?_
  dsimp only
  rw [run]
  split
  · contradiction
  · rfl

end

/-! ## Releases (R179) -/

/-- A release of the current path waits behind the others. -/
def State.relQueued (s : State) (c : Cur) (tiles : Bool) (first n : Nat) : State :=
  s.next.modQuad (coreQuad c.core) fun q =>
    { q with rels := q.rels ++ [{ id := s.ids, block := c.grp.block, grp := c.g, arm := c.arm, tiles := tiles, first := first
                                  count := n }] }

theorem relQueued_ids (s : State) (c : Cur) (tiles : Bool) (first n : Nat) :
    ((s.relQueued c tiles first n).quad (coreQuad c.core)).rels.map Release.id
      = (s.quad (coreQuad c.core)).rels.map Release.id ++ [s.ids] := by
  unfold State.relQueued
  rw [quad_modQuad_same]
  exact List.map_append

section
variable {s : State} {c : Cur} {tiles : Bool} {a b : Src} (i : Instr) (most : c.kn a + c.kn b ≤ slotMax tiles)
include most

theorem release_waits (held : s.named c.grp.block tiles (c.kn a) (c.kn b) = true) :
    s.release c i tiles a b = (s.relQueued c tiles (c.kn a) (c.kn b)).ticket c s.ids :=
  (if_neg (Nat.not_lt.mpr most)).trans (if_pos held)

theorem release_unclaimed (idle : s.named c.grp.block tiles (c.kn a) (c.kn b) = false)
    (other : s.claimed (coreQuad c.core) c.grp.block tiles (c.kn a) (c.kn b) = false) :
    s.release c i tiles a b = s.trapAt c 9 none :=
  (if_neg (Nat.not_lt.mpr most)).trans ((if_neg (by simp [idle])).trans (if_pos (by simp [other])))

theorem release_frees (idle : s.named c.grp.block tiles (c.kn a) (c.kn b) = false)
    (own : s.claimed (coreQuad c.core) c.grp.block tiles (c.kn a) (c.kn b) = true) :
    s.release c i tiles a b
      = (s.modQuad (coreQuad c.core) fun q => q.free tiles (c.kn a) (c.kn b) (s.domOf c.grp.launch)).advance c i :=
  (if_neg (Nat.not_lt.mpr most)).trans ((if_neg (by simp [idle])).trans (if_neg (by simp [own])))

end

/-! ## O35 -/

theorem exec_claim {g : Guard} {s : State} {c : Cur} (h : Fresh s c g false) (tiles : Bool) (d : BitVec 5) (a : Src) :
    exec (if tiles then .aclaim g d a else .oclaim g d a) s
      = .next (s.claim c (if tiles then .aclaim g d a else .oclaim g d a) tiles d a) := by
  cases tiles
  · exact exec_engine (i := .oclaim g d a) h rfl
  · exact exec_engine (i := .aclaim g d a) h rfl

theorem exec_release {g : Guard} {s : State} {c : Cur} (h : Fresh s c g false) (tiles : Bool) (a b : Src) :
    exec (if tiles then .arel g a b else .orel g a b) s
      = .next (s.release c (if tiles then .arel g a b else .orel g a b) tiles a b) := by
  cases tiles
  · exact exec_engine (i := .orel g a b) h rfl
  · exact exec_engine (i := .arel g a b) h rfl

/-- Settles O35: a claim meets a free run or its place in the queue, a release frees, traps or waits, each by its branch; what a free run is
comes from `List.find?` over the first slots. -/
theorem claims : Obligations.Claims := by
  refine ⟨?_, fun q tiles n first h => ?_, ?_⟩
  · intro g d a tiles s c h i n q
    have does := exec_claim h tiles d a
    refine ⟨fun bad => does.trans (congrArg _ (claim_illegal i bad)), fun first nonzero most alone run => ?_, fun nonzero most run => ?_⟩
    · refine ⟨s.claimOf c d n, rfl, rfl, rfl, _, does.trans (congrArg Host.Outcome.next (claim_granted i nonzero most alone run)), ?_⟩
      exact answer_becomes (r := s.next.modQuad _ _) h.cur rfl h.chip i d _
    · have path := ticket_pathOf (r := s.claimQueued c tiles (s.claimOf c d n)) h.cur rfl s.ids
      refine ⟨_, does.trans (congrArg Host.Outcome.next (claim_waits i nonzero most run)), ?_, ?_, ?_⟩
      · rw [path]
      · rw [path]
      · exact (congrArg (List.map Claim.id) (claimQueued_waits s c tiles _)).trans List.map_append
  · obtain ⟨free, inside, lower⟩ := freeRun_spec h
    refine ⟨free, ?_, lower⟩
    have : slotMax tiles = if tiles then 16 else 256 := rfl
    omega
  · intro g a b tiles s c h i most
    have does := exec_release h tiles a b
    refine ⟨fun held => ?_, fun idle other => does.trans (congrArg _ (release_unclaimed i most idle other)), fun own idle => ?_⟩
    · have path := ticket_pathOf (r := s.relQueued c tiles (c.kn a) (c.kn b)) h.cur rfl s.ids
      refine ⟨_, does.trans (congrArg Host.Outcome.next (release_waits i most held)), ?_, ?_, ?_⟩
      · rw [path]
      · rw [path]
      · exact relQueued_ids s c tiles _ _
    · have becomes := advance_becomes (r := s.modQuad (coreQuad c.core) fun q =>
        q.free tiles (c.kn a) (c.kn b) (s.domOf c.grp.launch)) h.cur rfl h.chip i
      refine ⟨_, does.trans (congrArg Host.Outcome.next (release_frees i most idle own)), becomes, fun j hj => ?_⟩
      rw [becomes.only.quad, quad_modQuad_same]
      exact own_free _ tiles _ _ _ hj

end Sys2Proof.Machine

/-!
PROOFS. O36 (R35, R187, R201 to R203): `QFENCE` and the handle instructions; what an acquire and a completion leave, for O43 and O44 too.
-/

namespace Sys2Proof.Machine

/-! ## What an acquire leaves (R273) -/

theorem invalidate_rest (s : State) (core : Nat) (sc : Scope) :
    { s.invalidate core sc with cores := s.cores, mem := s.mem, net := s.net } = s := by
  cases s
  unfold State.invalidate State.fresh
  dsimp only
  split <;> split <;> split <;> rfl

theorem invalidate_groups (s : State) (core : Nat) (sc : Scope) : (s.invalidate core sc).groups = s.groups :=
  (congrArg State.groups (invalidate_rest s core sc) :)

theorem acquireTags_groups (s : State) (core : Nat) (m : W64) : (s.acquireTags core m).groups = s.groups := by
  refine foldl_keeps (P := fun r : State => r.groups = s.groups) _ (fun r t same => ?_) _ rfl
  dsimp only
  split
  · split
    · exact (invalidate_groups _ _ _).trans same
    · exact same
  · exact same

/-! ## What a completion leaves (R199, R201) -/

/-- Command `id`, which is `k`, is done and out of the reservation table. -/
def State.cmdOut (s : State) (id : Nat) (k : Cmd) : State :=
  (s.modCmd id fun x => { x with done := true }).modQuad (coreQuad k.core) fun q =>
    { q with table := q.table.filter fun i => i != id, posting := q.posting.filter fun i => i != id }

/-- It has completed: its tag knows its status too. -/
def State.cmdDone (s : State) (id : Nat) (k : Cmd) : State :=
  (s.cmdOut id k).modCore k.core fun K =>
    { K with tags := put K.tags k.tag { get tagReset K.tags k.tag with done := true, status := k.status, taddr := k.taddr } }

/-- A tag that is held and that nobody waits for in a `JOIN` learns its status. -/
theorem tagDone_alone {s : State} {core tag gen : Nat} (held : (get tagReset (s.core core).tags tag).owner.isSome = true)
    (same : (get tagReset (s.core core).tags tag).gen = gen) (running : (get tagReset (s.core core).tags tag).done = false)
    (alone : s.joiners core tag gen = []) (status taddr : W64) :
    s.tagDone core tag gen status taddr = s.modCore core fun K =>
      { K with tags := put K.tags tag { get tagReset (s.core core).tags tag with done := true, status := status, taddr := taddr } } := by
  have nobody : (s.modCore core fun K =>
      { K with tags := put K.tags tag { get tagReset (s.core core).tags tag with done := true, status := status, taddr := taddr }
        }).joiners core tag gen = [] := alone
  have told : ((get tagReset (s.core core).tags tag).owner.isNone || (get tagReset (s.core core).tags tag).gen != gen
      || (get tagReset (s.core core).tags tag).done) = false := by
    rw [same, running, Option.isNone_eq_false_iff.mpr held]; simp
  unfold State.tagDone
  dsimp only
  rw [told, nobody]
  exact if_neg Bool.false_ne_true

/-- A completion that was not late, of a command that is posted, whose tag is held and that nobody waits for in a `JOIN`. -/
theorem complete_posted {s : State} {id : Nat} {k : Cmd} (hk : s.cmd? id = some k) (late : k.lateAt = none)
    (posted : (s.quad (coreQuad k.core)).posting.contains id = false) (held : (get tagReset (s.core k.core).tags k.tag).owner.isSome = true)
    (gen : (get tagReset (s.core k.core).tags k.tag).gen = k.gen) (running : (get tagReset (s.core k.core).tags k.tag).done = false)
    (alone : s.joiners k.core k.tag k.gen = []) : s.complete id = s.cmdDone id k := by
  unfold State.complete
  rw [hk]
  dsimp only
  rw [late, posted]
  rw [if_neg Bool.false_ne_true]
  exact tagDone_alone (s := s.cmdOut id k) held gen running alone k.status k.taddr

theorem cmdDone_cmd? {s : State} {id : Nat} {k : Cmd} (hk : s.cmd? id = some k) :
    (s.cmdDone id k).cmd? id = some { k with done := true } := by
  have same : (s.cmdDone id k).cmd? id = (s.modCmd id fun x => { x with done := true }).cmd? id := rfl
  rw [same, cmd?_modCmd_same, hk]; rfl

theorem cmdDone_tag (s : State) (id : Nat) (k : Cmd) :
    get tagReset ((s.cmdDone id k).core k.core).tags k.tag
      = { get tagReset (s.core k.core).tags k.tag with done := true, status := k.status, taddr := k.taddr } := by
  unfold State.cmdDone
  rw [core_modCore_same, get_put, if_pos rfl]
  rfl

theorem cmdDone_table (s : State) (id : Nat) (k : Cmd) : id ∉ ((s.cmdDone id k).quad (coreQuad k.core)).table := by
  have table : ((s.cmdDone id k).quad (coreQuad k.core)).table = (s.quad (coreQuad k.core)).table.filter fun i => i != id :=
    congrArg Quad.table (quad_modQuad_same (s.modCmd id fun x => { x with done := true }) (coreQuad k.core) fun q =>
      { q with table := q.table.filter fun i => i != id, posting := q.posting.filter fun i => i != id })
  rw [table, List.mem_filter]
  simp

theorem cmdDone_rest (s : State) (id : Nat) (k : Cmd) :
    { s.cmdDone id k with cmds := s.cmds, cores := s.cores, quads := s.quads } = s := by cases s; rfl

/-! ## A handle and its tag (R202) -/

/-- A sound handle names a tag of its core, held by the launch. -/
theorem handleTag_spec {s : State} {c : Cur} {h : W64} {n : Nat} {t : Tag} (he : s.handleTag c h = some (n, t)) :
    get tagReset (s.core c.core).tags n = t ∧ t.owner = some c.grp.launch := by
  unfold State.handleTag at he
  dsimp only at he
  split at he
  · next sound =>
    obtain ⟨rfl, rfl⟩ := Prod.mk.inj (Option.some.inj he)
    simp only [Bool.and_eq_true, beq_iff_eq] at sound
    exact ⟨rfl, sound.1.2⟩
  · cases he

/-- What is known of a tag is not read. -/
theorem learnTag_known {s : State} {core n : Nat} (h : s.tagKnown core n = true) (launch : Nat) :
    s.learnTag core n launch = (s, .ok []) := by
  unfold State.learnTag; rw [if_pos h]

theorem learnMask_known {s : State} {core : Nat} {l : List Nat} (h : ∀ n ∈ l, s.tagKnown core n = true) (launch : Nat) :
    s.learnMask core launch l = (s, .ok []) := by
  induction l with
  | nil => rfl
  | cons n r ih =>
    unfold State.learnMask
    rw [learnTag_known (h n List.mem_cons_self)]
    dsimp only
    rw [ih fun x hx => h x (List.mem_cons_of_mem n hx)]

/-- A command's tag may be waited on, and nothing need be read for it (R35). -/
theorem tag_of_command {s : State} {core n : Nat} (h : (get tagReset (s.core core).tags n).kind ≠ 2) :
    s.tagKnown core n = true ∧ s.tagLegal core n = true := by
  have command : ((get tagReset (s.core core).tags n).kind != 2) = true := bne_iff_ne.mpr h
  constructor
  · unfold State.tagKnown
    dsimp only
    rw [command, Bool.true_or, Bool.true_or]
  · exact if_pos command

/-! ## Waits of the current path -/

/-- The path begins a wait that it was not in. -/
theorem wait_begins {s : State} {c : Cur} (hc : s.cur = some c) (hst : ∀ x, c.path.st ≠ .waiting x) (prog : Prog) :
    let u := (s.modPath c.g c.arm fun p => { p with prog := prog }).wait c
    u.pathOf c.g c.arm = { c.path with prog := prog, st := .waiting (c.grp.due s.now) } ∧ Only s u c.g := by
  obtain ⟨-, hg, -⟩ := cur_spec hc
  have there := cur_path?_of_groups hc rfl
  have path : (s.modPath c.g c.arm fun p => { p with prog := prog }).pathOf c.g c.arm = { c.path with prog := prog } := by
    rw [pathOf_modPath _ _ _ _ there, cur_pathOf hc]
  have grp : (s.modPath c.g c.arm fun p => { p with prog := prog }).grpOf c.g = c.grp.modArm c.arm fun p => { p with prog := prog } := by
    rw [State.modPath, grpOf_modGroup _ _ _ (by rw [hg]; rfl), cur_grpOf hc]
  refine ⟨?_, (Only.modGroup s c.g _).trans (Only.modGroup _ c.g _)⟩
  rw [pathOf_wait (path?_modPath_isSome there _ _) (by rw [path]; exact hst), path, grp]
  rfl

/-! ## The instructions (R187, R201 to R203) -/

section
variable {g : Guard} {d : BitVec 5} {p : BitVec 3} {a : Src} {s : State} {c : Cur}

theorem exec_once {i : Instr} (h : Fresh s c g false) {f : Cur → State → State}
    (he : exec i s = s.onPath fun c => s.once c i g false [] fun s _ => f c s) : exec i s = .next (f c s) := by
  rw [he, onPath_cur h.cur, once_fresh h]

/-- A handle instruction on a stale handle traps; on a sound one it goes on with the tag. -/
theorem exec_handle {i : Instr} (h : Fresh s c g false) {f : Cur → State → Nat → Tag → State}
    (he : exec i s = s.onPath fun c => s.once c i g false [] fun s _ =>
      match s.handleTag c (c.kop a) with
      | none => s.trapAt c 8 none
      | some (n, t) => f c s n t) :
    (s.handleTag c (c.kop a) = none → exec i s = .next (s.trapAt c 8 none))
      ∧ ∀ n t, s.handleTag c (c.kop a) = some (n, t) → exec i s = .next (f c s n t) := by
  refine ⟨fun stale => ?_, fun n t sound => ?_⟩
  · rw [he, onPath_cur h.cur, once_fresh h, stale]
  · rw [he, onPath_cur h.cur, once_fresh h, sound]

/-- A `JOIN` that the path has not begun, with a sound handle whose tag need not be read for the check. -/
theorem exec_join {n : Nat} {t : Tag} (h : Fresh s c g false) (d : BitVec 5) (sound : s.handleTag c (c.kop a) = some (n, t))
    (known : s.tagKnown c.core n = true) :
    exec (.join g d a) s = .next (
      if !s.tagLegal c.core n then s.trapAt c 2 none
      else if t.done then (s.deliverJoin c.g c.arm d t).joined c.core n t
      else (s.modPath c.g c.arm fun p => { p with prog := .join n t.gen d }).wait c) := by
  show s.onPath _ = _
  rw [onPath_cur h.cur, h.prog]
  dsimp only
  rw [once_fresh h, sound]
  dsimp only
  rw [learnTag_known known]

theorem exec_join_stale (h : Fresh s c g false) (d : BitVec 5) (stale : s.handleTag c (c.kop a) = none) :
    exec (.join g d a) s = .next (s.trapAt c 8 none) := by
  show s.onPath _ = _
  rw [onPath_cur h.cur, h.prog]
  dsimp only
  rw [once_fresh h, stale]

end

/-! ### What is left of the machine -/

section
variable {s r u : State} {c : Cur} {pc : W64}

theorem Only.cmds {g : Nat} (h : Only s u g) : u.cmds = s.cmds := by rw [← h.rest]

theorem Only.cmd? {g : Nat} (h : Only s u g) (x : Nat) : u.cmd? x = s.cmd? x := by
  unfold State.cmd?; rw [h.cmds]

theorem Only.core {g : Nat} (h : Only s u g) (x : Nat) : u.core x = s.core x := by
  have cores : u.cores = s.cores := by rw [← h.rest]
  unfold State.core; rw [cores]

/-- A path that has answered has its `k` register, and the others as they were. -/
theorem Becomes.kr_kw {d : BitVec 5} {x : W64} (h : Becomes r u c pc (c.grp.kw d x)) :
    (d ≠ 0 → (u.grpOf c.g).kr d = x) ∧ ∀ j, j ≠ d → (u.grpOf c.g).kr j = c.grp.kr j := by
  refine ⟨fun hd => ?_, fun j hj => ?_⟩
  · rw [kr_of_paths h.grp, Machine.kr_kw, if_pos ⟨rfl, hd⟩]
  · rw [kr_of_paths h.grp, Machine.kr_kw, if_neg fun e => hj e.1]

end

/-! ### `TEST` and `CANCEL` -/

section
variable {g : Guard} {d : BitVec 5} {p : BitVec 3} {a : Src} {s : State} {c : Cur} {n : Nat} {t : Tag}

/-- A predicate written in the active lanes, and then a move of the path. -/
theorem pred_done (hc : s.cur = some c) (hchip : c.path.onChip = true) (act : Lanes) (p : BitVec 3) (f : Nat → Bool) (pc : W64) :
    PredDone s ((s.modGroup c.g fun G => G.laneDone (G.liveOf c.path) act (.pred p) fun l => if f l then 1 else 0).goto c pc) c pc p act
      f := by
  obtain ⟨harms, hrecon, hexited⟩ := laneDone_arms c.grp (c.grp.liveOf c.path) act (.pred p) fun l => if f l then 1 else 0
  obtain ⟨only, grp, work, path⟩ := mod_becomes hc
    (fun G => G.laneDone (G.liveOf c.path) act (.pred p) fun l => if f l then 1 else 0) harms hrecon hexited hchip pc
  have written := laneDone_pred c.grp (c.grp.liveOf c.path) act p f
  refine ⟨only, lanesOnly_of (regsOf_laneDone _ _ _ _ _) work grp, ⟨fun l hl hp => ?_, fun l hl loc hh => ?_⟩, path⟩
  · obtain ⟨value, free⟩ := written.on l hl hp
    refine ⟨(pred_of_paths grp _ _).trans value, ?_⟩
    unfold Group.isPend at free ⊢
    rw [(rd_of_paths grp l _).2]; exact free
  · exact (rd_of_paths grp l _).1.trans (written.kept l hl loc hh)

theorem test_done (h : Fresh s c g false) (sound : s.handleTag c (c.kop a) = some (n, t)) :
    Answers s (.test g p a) fun u => PredDone s u c (c.nextPc (.test g p a)) p (c.act g) fun _ => t.done := by
  have does := (exec_handle (i := .test g p a) (a := a) h rfl).2 n t sound
  have bit : (if t.done then (1 : W32) else 0) = lo32 (if t.done then 1 else 0) := by cases t.done <;> rfl
  rw [bit] at does
  exact ⟨_, does, pred_done h.cur h.chip (c.act g) p (fun _ => t.done) _⟩

theorem cancel_launch (h : Fresh s c g false) (sound : s.handleTag c (c.kop a) = some (n, t)) (launch : t.kind = 2) :
    Answers s (.cancel g d a) fun u => Becomes s u c (c.nextPc (.cancel g d a)) (c.grp.kw d 0) := by
  have does := (exec_handle (i := .cancel g d a) (a := a) h rfl).2 n t sound
  rw [if_pos launch] at does
  exact ⟨_, does, answer_becomes h.cur rfl h.chip _ d 0⟩

theorem cancel_begun {k : Cmd} (h : Fresh s c g false) (sound : s.handleTag c (c.kop a) = some (n, t)) (command : t.kind ≠ 2)
    (hk : s.cmd? t.target = some k) (late : k.begun = true ∨ k.done = true) :
    Answers s (.cancel g d a) fun u => Becomes s u c (c.nextPc (.cancel g d a)) (c.grp.kw d 0) := by
  have does := (exec_handle (i := .cancel g d a) (a := a) h rfl).2 n t sound
  rw [if_neg command, hk] at does
  exact ⟨_, does.trans (congrArg Host.Outcome.next (if_pos (by simpa using late))), answer_becomes h.cur rfl h.chip _ d 0⟩

/-- A command as `CANCEL` ends it. -/
def Cmd.canceled (k : Cmd) : Cmd := { k with ended := true, status := 0x11 }

/-- `CANCEL` has ended command `id`, which is `k`, and completed it. -/
def State.canceled (s : State) (id : Nat) (k : Cmd) : State :=
  (s.modCmd id fun x => { x with ended := true, status := 0x11 }).cmdDone id k.canceled

theorem canceled_rest (s : State) (id : Nat) (k : Cmd) :
    { s.canceled id k with groups := s.groups, cmds := s.cmds, cores := s.cores, quads := s.quads, ids := s.ids } = s := by cases s; rfl

theorem exec_cancel {k : Cmd} (h : Fresh s c g false) (sound : s.handleTag c (c.kop a) = some (n, t)) (command : t.kind ≠ 2)
    (hk : s.cmd? t.target = some k) (waits : k.begun = false) (running : k.done = false)
    (ends : (s.modCmd t.target fun x => { x with ended := true, status := 0x11 }).complete t.target = s.canceled t.target k) :
    exec (.cancel g d a) s = .next ((s.canceled t.target k).answer c (.cancel g d a) d 1) := by
  have does := (exec_handle (i := .cancel g d a) (a := a) h rfl).2 n t sound
  rw [if_neg command, hk] at does
  rw [← ends]
  exact does.trans (congrArg Host.Outcome.next (if_neg (by simp [waits, running])))

theorem cancel_waiting {k : Cmd} (h : Fresh s c g false) (sound : s.handleTag c (c.kop a) = some (n, t)) (command : t.kind ≠ 2)
    (hk : s.cmd? t.target = some k) (waits : k.begun = false) (running : k.done = false) (unset : t.done = false)
    (core : k.core = c.core) (tag : k.tag = n) (gen : k.gen = t.gen) (late : k.lateAt = none) (alone : s.joiners c.core n t.gen = [])
    (posted : (s.quad (coreQuad c.core)).posting.contains t.target = false) :
    Answers s (.cancel g d a) fun u => (d ≠ 0 → (u.grpOf c.g).kr d = 1) ∧ (∀ j, j ≠ d → (u.grpOf c.g).kr j = c.grp.kr j)
      ∧ u.cmd? t.target = some { k with ended := true, status := 0x11, done := true }
      ∧ get tagReset (u.core c.core).tags n = { t with done := true, status := 0x11, taddr := k.taddr }
      ∧ t.target ∉ (u.quad (coreQuad c.core)).table ∧ GoesOn s u c (c.nextPc (.cancel g d a))
      ∧ ∀ y m, u.peek y m = s.peek y m := by
  obtain ⟨named, owner⟩ := handleTag_spec sound
  subst tag
  rw [← core] at named alone posted
  have ended : (s.modCmd t.target fun x => { x with ended := true, status := 0x11 }).cmd? t.target = some k.canceled := by
    rw [cmd?_modCmd_same, hk]; rfl
  have completes : (s.modCmd t.target fun x => { x with ended := true, status := 0x11 }).complete t.target = s.canceled t.target k := by
    refine complete_posted ended late posted ?_ ?_ ?_ ?_
    · exact (congrArg (fun x : Tag => x.owner.isSome) named).trans (by rw [owner]; rfl)
    · exact (congrArg Tag.gen named).trans gen.symm
    · exact (congrArg Tag.done named).trans unset
    · rw [← gen] at alone; exact alone
  have becomes := answer_becomes (r := s.canceled t.target k) h.cur rfl h.chip (.cancel g d a) d 1
  obtain ⟨own, others⟩ := becomes.kr_kw
  refine ⟨_, exec_cancel h sound command hk waits running completes, own, others, ?_, ?_, ?_, becomes.path, fun y m => ?_⟩
  · rw [becomes.only.cmd?]; exact cmdDone_cmd? ended
  · rw [becomes.only.core, ← core]
    refine (cmdDone_tag (s.modCmd t.target fun x => { x with ended := true, status := 0x11 }) t.target k.canceled).trans ?_
    exact congrArg (fun x : Tag => { x with done := true, status := 0x11, taddr := k.taddr }) named
  · rw [becomes.only.quad, ← core]
    exact cmdDone_table (s.modCmd t.target fun x => { x with ended := true, status := 0x11 }) t.target k.canceled
  · rw [becomes.only.bytes]; exact peek_of_parts (canceled_rest s t.target k) y m

/-! ### `JOIN` -/

/-- A `JOIN` on a tile operation that has not failed delivers its status, and the path goes on. -/
theorem deliverJoin_tile (hc : s.cur = some c) (tile : t.kind = 1) (clean : t.status.extractLsb' 0 8 = 0) (d : BitVec 5) :
    s.deliverJoin c.g c.arm d t = (s.modGroup c.g fun G => G.kw d t.status).goto c (c.path.pc + 8) := by
  obtain ⟨-, hg, hp⟩ := cur_spec hc
  have here : (s.modGroup c.g fun G => G.kw d t.status).path? c.g c.arm = some { c with grp := c.grp.kw d t.status } := by
    unfold State.path?
    rw [group?_modGroup, if_pos rfl, hg]
    simp only [Option.map_some, Group.arm?, (stands_kw c.grp d t.status).1]
    rw [Group.arm?] at hp
    rw [hp]; rfl
  unfold State.deliverJoin
  rw [tile, clean]
  generalize s.modGroup c.g (fun G => G.kw d t.status) = w at here ⊢
  have noAcquire : (match (1 : BitVec 2), w.cmd? t.target with
      | 0, some k => w.invalidate (slotCore c.g) k.scope
      | _, _ => w) = w := by cases w.cmd? t.target <;> rfl
  refine (congrArg (fun v : State => match v.path? c.g c.arm with
    | some x =>
      if (1 : BitVec 2) != 2 && 4 ≤ (0 : BitVec 8).toNat && (0 : BitVec 8).toNat ≤ 6 then
        (v.modPath c.g c.arm fun p => { p with prog := .none }).raise c.g c.arm
          { cause := 0, detail := 0, tpc := x.path.pc + 8, taddr := some t.taddr, resume := x.path.pc + 8, entry := none }
      else v.goto x (x.path.pc + 8)
    | none => v) noAcquire).trans ?_
  rw [here]
  exact if_neg (by decide)

theorem joined_rest (s : State) (core n : Nat) (t : Tag) : { s.joined core n t with cores := s.cores, cmds := s.cmds } = s := by
  cases s
  unfold State.joined State.freeTag
  dsimp only
  split <;> rfl

theorem joined_owner {s : State} {core n : Nat} (h : (look (s.core core).tags n).isSome = true) (t : Tag) :
    (get tagReset ((s.joined core n t).core core).tags n).owner = none := by
  have cores : (s.joined core n t).cores = (s.freeTag core n).cores := by unfold State.joined; dsimp only; split <;> rfl
  obtain ⟨x, hx⟩ := Option.isSome_iff_exists.mp h
  unfold State.core
  rw [cores, ← State.core]
  unfold State.freeTag
  rw [core_modCore_same, get, look_upd, if_pos rfl, hx]
  rfl

theorem join_tile (h : Fresh s c g false) (sound : s.handleTag c (c.kop a) = some (n, t)) (completed : t.done = true) (tile : t.kind = 1)
    (clean : t.status.extractLsb' 0 8 = 0) :
    Answers s (.join g d a) fun u => (d ≠ 0 → (u.grpOf c.g).kr d = t.status) ∧ (∀ j, j ≠ d → (u.grpOf c.g).kr j = c.grp.kr j)
      ∧ ((look (s.core c.core).tags n).isSome = true → (get tagReset (u.core c.core).tags n).owner = none)
      ∧ (c.grp.clearAt (c.at s (c.path.pc + 8)) = true → (u.pathOf c.g c.arm).pc = c.path.pc + 8) := by
  obtain ⟨named, -⟩ := handleTag_spec sound
  have command : (get tagReset (s.core c.core).tags n).kind ≠ 2 := by rw [named, tile]; decide
  obtain ⟨known, legal⟩ := tag_of_command command
  have does := exec_join h d sound known
  rw [legal, completed, deliverJoin_tile h.cur tile clean] at does
  have done := kw_done h.cur h.chip d t.status (c.path.pc + 8)
  generalize hv : (s.modGroup c.g fun G => G.kw d t.status).goto c (c.path.pc + 8) = v at does done
  have grp : (v.joined c.core n t).grpOf c.g = v.grpOf c.g := (congrArg (State.grpOf · c.g) (joined_rest v c.core n t) :)
  have path : (v.joined c.core n t).pathOf c.g c.arm = v.pathOf c.g c.arm :=
    (congrArg (State.pathOf · c.g c.arm) (joined_rest v c.core n t) :)
  refine ⟨v.joined c.core n t, does, ?_, ?_, fun there => joined_owner ?_ t, fun clear => ?_⟩
  · rw [grp]; exact done.value
  · rw [grp]; exact done.others
  · rw [done.only.core]; exact there
  · rw [path, done.path clear]; rfl

end

/-! ### `WAITANY` and `WAITALL` -/

section
variable {g : Guard} {d : BitVec 5} {a : Src} {s : State} {c : Cur}

/-- Whether enough of the tags `m` are ready, `r`. -/
def enough (all : Bool) (r m : W64) : Bool := if all then r == m else r != 0

theorem exec_wait (h : Fresh s c g false) (all : Bool) (d : BitVec 5) (a : Src) :
    exec (if all then .waitall g d a else .waitany g d a) s
      = .next (s.waitTags c (if all then .waitall g d a else .waitany g d a) g d a (enough all)) := by
  cases all
  · show s.onPath _ = _; rw [onPath_cur h.cur]; rfl
  · show s.onPath _ = _; rw [onPath_cur h.cur]; rfl

/-- A wait on some tags that the path has not begun: none allocated, or what the wait is checked by is known. -/
theorem waitTags_none (h : Fresh s c g false) (i : Instr) (e : W64 → W64 → Bool)
    (unheld : c.kop a &&& (s.core c.core).tagMask c.grp.launch = 0) : s.waitTags c i g d a e = s.answer c i d 0 := by
  unfold State.waitTags
  rw [h.prog]
  dsimp only
  rw [once_fresh h]
  exact if_pos unheld

theorem waitTags_known (h : Fresh s c g false) (i : Instr) (e : W64 → W64 → Bool) (d : BitVec 5) {m : W64}
    (hm : c.kop a &&& (s.core c.core).tagMask c.grp.launch = m) (held : m ≠ 0)
    (known : ∀ n, m.getLsbD n = true → s.tagKnown c.core n = true) :
    s.waitTags c i g d a e =
      if !s.maskLegal c.core m then s.trapAt c 2 none
      else if e ((s.core c.core).trdy c.grp.launch &&& m) m then
        (s.acquireTags c.core ((s.core c.core).trdy c.grp.launch &&& m)).answer c i d ((s.core c.core).trdy c.grp.launch &&& m)
      else (s.modPath c.g c.arm fun p => { p with prog := .mask m }).wait c := by
  subst hm
  unfold State.waitTags
  rw [h.prog]
  dsimp only
  rw [once_fresh h]
  refine (if_neg held).trans ?_
  rw [learnMask_known fun n hn => known n (List.mem_filter.mp hn).2]

end

/-! ### `QFENCE` -/

/-- The earlier commands that a fence of the queues `m` stands for. -/
def State.fenceDue (s : State) (core : Nat) (m : BitVec 4) : List Nat :=
  (s.cmds.filter fun e => e.2.core == core && !e.2.done && !e.2.kind.isTile && m.getLsbD e.2.queue).map Prod.fst

/-- A fence of the queues `m` stands before those of its core that still wait for a command. -/
def State.fenceSet (s : State) (core : Nat) (m : BitVec 4) : State :=
  s.modCore core fun K =>
    { K with fences := (m, s.fenceDue core m) :: K.fences.filter fun f => f.2.any fun x => (s.cmd? x).any fun k => !k.done }

theorem exec_qfence {g : Guard} {s : State} {c : Cur} (h : Fresh s c g true) (m : BitVec 4) :
    exec (.qfence g m) s = .next ((s.fenceSet c.core m).advance c (.qfence g m)) := exec_engine (i := .qfence g m) h rfl

theorem fenced_fenceSet {s : State} {core q : Nat} {m : BitVec 4} {e : Nat × Cmd} (hm : m.getLsbD q = true) (he : e ∈ s.cmds)
    (hc : e.2.core = core) (running : e.2.done = false) (copy : e.2.kind.isTile = false) (named : m.getLsbD e.2.queue = true) :
    e.1 ∈ ((s.fenceSet core m).core core).fenced q := by
  have due : e.1 ∈ s.fenceDue core m := List.mem_map_of_mem (List.mem_filter.mpr ⟨he, by simp [hc, running, copy, named]⟩)
  unfold State.fenceSet
  rw [core_modCore_same, Core.fenced]
  exact List.mem_flatMap.mpr ⟨_, List.mem_cons_self, by rw [if_pos hm]; exact due⟩

theorem qfence_done {g : Guard} {s : State} {c : Cur} (h : Fresh s c g true) (m : BitVec 4) :
    Answers s (.qfence g m) fun u =>
      (∀ q, q < 4 → m.getLsbD q = true → ∀ e ∈ s.cmds, e.2.core = c.core → e.2.done = false → e.2.kind.isTile = false
        → m.getLsbD e.2.queue = true → e.1 ∈ (u.core c.core).fenced q)
      ∧ u.cmds = s.cmds ∧ PathsOnly c.grp (u.grpOf c.g) ∧ GoesOn s u c (c.nextPc (.qfence g m))
      ∧ ∀ a n, u.peek a n = s.peek a n := by
  have becomes := advance_becomes (r := s.fenceSet c.core m) h.cur rfl h.chip (.qfence g m)
  refine ⟨_, exec_qfence h m, fun q _ hm e he hc running copy named => ?_, ?_, ⟨becomes.work, becomes.grp⟩, becomes.path,
    fun a n => ?_⟩
  · rw [becomes.only.core]; exact fenced_fenceSet hm he hc running copy named
  · exact becomes.only.cmds
  · rw [becomes.only.bytes]; exact peek_of_parts rfl a n

/-- Settles O36: `exec_handle`, `exec_join` and `waitTags_known` come to the branch that the hypotheses name, and the lemmas about
`cmdDone`, `joined` and `wait` say what that leaves. -/
theorem handles : Obligations.Handles := by
  refine ⟨?_, ?_, ?_⟩
  · intro g m s c h
    exact qfence_done h m
  · intro g d p a s c h rdy
    refine ⟨⟨_, exec_once (i := .ffr g d a) h rfl, answer_becomes h.cur rfl h.chip _ d _⟩, fun stale => ⟨?_, ?_, ?_⟩,
      fun n t sound => ?_⟩
    · exact (exec_handle (i := .test g p a) (a := a) h rfl).1 stale
    · exact exec_join_stale h d stale
    · exact (exec_handle (i := .cancel g d a) (a := a) h rfl).1 stale
    · refine ⟨test_done h sound, fun k command hk waits running unset core tag gen late alone posted => ?_, cancel_launch h sound,
        fun k command hk late => cancel_begun h sound command hk late, fun known legal => ?_,
        fun completed tile clean => join_tile h sound completed tile clean, fun running known legal still => ?_⟩
      · exact cancel_waiting h sound command hk waits running unset core tag gen late alone posted
      · have does := exec_join h d sound known
        rw [legal] at does; exact does
      · have does := exec_join h d sound known
        rw [legal, running] at does
        exact ⟨_, does, wait_begins h.cur still _⟩
  · intro g d a all s c h i m r known
    have does := exec_wait h all d a
    have ready : enough all r m = true ↔ if all then r = m else r ≠ 0 := by cases all <;> simp [enough]
    refine ⟨fun unheld => ?_, fun held hn illegal => ?_, fun held hn legal ok => ?_, fun held hn legal few still => ?_⟩
    · exact ⟨_, does.trans (congrArg _ (waitTags_none h i _ unheld)), answer_becomes h.cur rfl h.chip i d 0⟩
    · have waits := waitTags_known h i (enough all) d (m := m) rfl held hn
      rw [illegal] at waits
      exact does.trans (congrArg _ waits)
    · have waits := waitTags_known h i (enough all) d (m := m) rfl held hn
      rw [legal] at waits
      refine ⟨_, does.trans (congrArg _ (waits.trans (if_pos (ready.mpr ok)))), ?_⟩
      exact answer_becomes h.cur (acquireTags_groups s _ _) h.chip i d r
    · have waits := waitTags_known h i (enough all) d (m := m) rfl held hn
      rw [legal] at waits
      exact ⟨_, does.trans (congrArg _ (waits.trans (if_neg fun e => few (ready.mp e)))), wait_begins h.cur still _⟩

end Sys2Proof.Machine

/-!
PROOFS. O44 (R151, R181, R183 to R185): the matrix engine.
-/

namespace Sys2Proof.Machine

/-! ## Tiles element by element (R184, R185) -/

/-- An entry of a range that is set from its numbers. -/
theorem get_setRange_map {α : Type} [DecidableEq α] (d : α) (t : Tab α) (b : Nat) (g : Nat → α) {n m : Nat} (h : m < n) :
    get d (setRange d t b ((List.range n).map g)) (b + m) = g m := by
  have inside : m < ((List.range n).map g).length := by rw [List.length_map, List.length_range]; exact h
  rw [get_setRange_same _ _ _ _ _ inside, List.getElem_map, List.getElem_range]

theorem get_setRange_map_other {α : Type} [DecidableEq α] (d : α) (t : Tab α) (b : Nat) (g : Nat → α) {n m : Nat}
    (h : m < b ∨ b + n ≤ m) : get d (setRange d t b ((List.range n).map g)) m = get d t m := by
  refine get_setRange_other _ _ _ _ _ ?_
  rw [List.length_map, List.length_range]
  exact h

/-- An entry of a grid of rows of `w` that is set from its row, column and number. -/
theorem get_setRange_grid {α : Type} [DecidableEq α] (d : α) (t : Tab α) (b : Nat) {w : Nat} (g : Nat → Nat → Nat → α)
    {n i j : Nat} (hj : j < w) (h : w * i + j < n) :
    get d (setRange d t b ((List.range n).map fun m => g (m / w) (m % w) (b + m))) (b + w * i + j) = g i j (b + w * i + j) := by
  have row : (w * i + j) / w = i := by rw [Nat.mul_add_div (by omega), Nat.div_eq_of_lt hj, Nat.add_zero]
  have column : (w * i + j) % w = j := by rw [Nat.mul_add_mod, Nat.mod_eq_of_lt hj]
  rw [Nat.add_assoc, get_setRange_map d t b (fun m => g (m / w) (m % w) (b + m)) h, row, column]

theorem mapTile_rest (q : Quad) (t : Nat) (f : Nat → Nat → W32 → W32) : { q.mapTile t f with tiles := q.tiles } = q := by
  unfold Quad.mapTile
  generalize setRange 0 q.tiles _ _ = tiles
  rfl

/-- An element of the tile is mapped from its old value. -/
theorem acc_mapTile_same (q : Quad) (t : Nat) (f : Nat → Nat → W32 → W32) {i j : Nat} (hi : i < 128) (hj : j < 128) :
    (q.mapTile t f).acc t i j = f i j (q.acc t i j) := by
  have inside : 128 * i + j < 16384 := by omega
  unfold Quad.acc Quad.mapTile
  generalize 16384 = n at inside ⊢
  exact get_setRange_grid 0 q.tiles (t * n) (fun i j m => f i j (get 0 q.tiles m)) hj inside

/-- An element of another tile is as it was. -/
theorem acc_mapTile_other (q : Quad) {t tile : Nat} (h : t ≠ tile) (f : Nat → Nat → W32 → W32) {i j : Nat} (hi : i < 128)
    (hj : j < 128) : (q.mapTile tile f).acc t i j = q.acc t i j := by
  have apart : t * 16384 + 128 * i + j < tile * 16384 ∨ tile * 16384 + 16384 ≤ t * 16384 + 128 * i + j := by omega
  unfold Quad.acc Quad.mapTile
  generalize 16384 = n at apart ⊢
  exact get_setRange_map_other _ _ _ _ apart

/-! ## Steps of a tile operation (R181, R184, R185) -/

theorem lmRead_invalidate (s : State) (core : Nat) (sc : Scope) (k x n : Nat) : (s.invalidate core sc).lmRead k x n = s.lmRead k x n := by
  have cores : (s.invalidate core sc).cores = (s.fresh core).cores := by
    unfold State.invalidate
    generalize s.fresh core = t
    dsimp only
    split <;> split <;> rfl
  have lmem : ((s.fresh core).core k).lmem = (s.core k).lmem := by
    unfold State.fresh
    split
    · rfl
    · rw [core_modCore]; split
      · subst_vars; rfl
      · rfl
  unfold State.lmRead State.core
  rw [cores]
  exact congrArg (getRange 0 · x n) lmem

theorem localAt_invalidate (s : State) (core : Nat) (sc : Scope) (b a n : Nat) : (s.invalidate core sc).localAt b a n = s.localAt b a n :=
  (congrArg (State.localAt · b a n) (invalidate_rest s core sc) :)

/-- The factor of row `i` of an `MROWSC`. -/
def State.rowFactor (s : State) (block : Nat) (a : W64) (i : Nat) : W64 :=
  match s.localAt block (a.toNat + 4 * i) 4 with
  | some (k, x) => w64 (ofBytes (s.lmRead k x 4))
  | none => 0

theorem tileStep_mrowsc {s : State} {c : Cmd} {tile : Nat} {a : W64} (h : c.kind = .mrowsc tile a) :
    s.tileStep c = (s.invalidate c.core .blk).modQuad (coreQuad c.core) fun q =>
      q.mapTile tile fun i _ old => lo32 (fmulR .f32 .rn false (old.zeroExtend 64) ((s.invalidate c.core .blk).rowFactor c.block a i)) := by
  unfold State.tileStep
  rw [h]; rfl

theorem quad_tileStep_mloop {s : State} {c : Cmd} {fa fb : Ty} {tile sa sb n ia ib : Nat} {tri : Option (W64 × W32)}
    (h : c.kind = .mloop fa fb tile sa sb n ia ib tri) :
    (s.tileStep c).quad (coreQuad c.core)
      = (s.quad (coreQuad c.core)).mstep fa fb tile (sa + c.pos * ia) (sb + c.pos * ib) tri := by
  unfold State.tileStep
  rw [h]
  exact quad_modQuad_same _ _ _

theorem quad_tileStep_mzero {s : State} {c : Cmd} {tile : Nat} (h : c.kind = .mzero tile) :
    (s.tileStep c).quad (coreQuad c.core) = (s.quad (coreQuad c.core)).mapTile tile fun _ _ _ => 0 := by
  unfold State.tileStep
  rw [h]
  exact quad_modQuad_same _ _ _

theorem quad_tileStep_mrowsc {s : State} {c : Cmd} {tile : Nat} {a : W64} (h : c.kind = .mrowsc tile a) :
    (s.tileStep c).quad (coreQuad c.core) = (s.quad (coreQuad c.core)).mapTile tile fun i _ old =>
      lo32 (fmulR .f32 .rn false (old.zeroExtend 64) ((s.invalidate c.core .blk).rowFactor c.block a i)) := by
  have quad : (s.invalidate c.core .blk).quad (coreQuad c.core) = s.quad (coreQuad c.core) :=
    (congrArg (State.quad · (coreQuad c.core)) (invalidate_rest s c.core .blk) :)
  rw [tileStep_mrowsc h, quad_modQuad_same, quad]

theorem rowFactor_invalidate {s : State} {core : Nat} {sc : Scope} {block : Nat} {a : W64} {i k x : Nat}
    (h : s.localAt block (a.toNat + 4 * i) 4 = some (k, x)) :
    (s.invalidate core sc).rowFactor block a i = w64 (ofBytes (s.lmRead k x 4)) := by
  unfold State.rowFactor
  rw [localAt_invalidate, h]
  dsimp only
  rw [lmRead_invalidate]

/-- What a step of a tile operation leaves alone: all but its quad and the marks of an acquire. -/
structure StepsTile (s u : State) (quad : Nat) : Prop where
  rest : { u with quads := s.quads, cores := s.cores, mem := s.mem, net := s.net } = s
  others : ∀ q, q ≠ quad → u.quad q = s.quad q
  locals : ∀ k x n, u.lmRead k x n = s.lmRead k x n

/-- A quad changes, after an acquire or none. -/
theorem stepsTile_modQuad {s r : State} (rest : { r with cores := s.cores, mem := s.mem, net := s.net } = s)
    (locals : ∀ k x n, r.lmRead k x n = s.lmRead k x n) (quad : Nat) (f : Quad → Quad) : StepsTile s (r.modQuad quad f) quad := by
  have quads : r.quads = s.quads := (congrArg State.quads rest :)
  rw [quads] at rest
  refine ⟨rest, fun q hq => ?_, locals⟩
  rw [quad_modQuad, if_neg hq, State.quad, quads]; rfl

theorem stepsTile_tileStep (s : State) (c : Cmd) : StepsTile s (s.tileStep c) (coreQuad c.core) := by
  unfold State.tileStep
  split
  · exact stepsTile_modQuad rfl (fun _ _ _ => rfl) _ _
  · exact stepsTile_modQuad rfl (fun _ _ _ => rfl) _ _
  · exact stepsTile_modQuad (invalidate_rest s c.core .blk) (lmRead_invalidate s c.core .blk) _ _
  · exact ⟨rfl, fun _ _ => rfl, fun _ _ _ => rfl⟩

/-- The only entry of its quad, begun and with nothing before it, runs its next step. -/
theorem exec_matrixStep {s : State} {quad id : Nat} {c : Cmd} (only : (s.quad quad).table = [id]) (hc : s.cmd? id = some c)
    (running : c.ended = false) (begun : c.begun = true) (first : s.cmdsDone c.after = true)
    (stores : c.kind.reads = true → s.storesDone id c = true) :
    exec (.matrixStepGrant quad) s
      = .next ((s.tileStep c).modCmd id fun c => { c with begun := true, pos := c.pos + 1, ended := c.kind.total ≤ c.pos + 1 }) := by
  have reads : (!c.kind.reads || s.storesDone id c) = true := by
    cases h : c.kind.reads
    · rfl
    · exact stores h
  show execMatrixStepGrant quad s = _
  unfold execMatrixStepGrant
  simp [only, hc, running, begun, first, reads]

/-- Settles O44: `exec_matrixStep` for the grant, `stepsTile_tileStep` for what it leaves alone, `acc_mapTile_same` for each element. -/
theorem matrix : Obligations.Matrix := by
  refine ⟨?_, ?_⟩
  · intro s quad id c only hc running begun first stores hq
    subst hq
    obtain ⟨rest, others, locals⟩ := stepsTile_tileStep s c
    refine ⟨_, exec_matrixStep only hc running begun first stores, ?_, ?_, others, locals, ?_, ?_, ?_⟩
    · have cmds : (s.tileStep c).cmd? id = some c := (congrArg (State.cmd? · id) rest :).trans hc
      rw [cmd?_modCmd_same, cmds, Option.map_some, ← begun]
    · exact (congrArg State.groups rest :)
    · intro fa fb tile sa sb n ia ib tri kind
      exact quad_tileStep_mloop kind
    · intro tile kind
      exact quad_tileStep_mzero kind
    · intro tile a kind
      have quad := quad_tileStep_mrowsc (s := s) kind
      refine ⟨⟨_, quad⟩, fun i j hi hj k x factor => ?_⟩
      refine (congrArg (Quad.acc · tile i j) quad).trans ((acc_mapTile_same _ tile _ hi hj).trans ?_)
      rw [rowFactor_invalidate factor]
  · intro q fa fb tile sa sb i j g x f hi hj
    exact ⟨acc_mapTile_same q tile _ hi hj, acc_mapTile_same q tile _ hi hj, acc_mapTile_same q tile f hi hj, fun tri => ⟨_, rfl⟩,
      fun t ht => acc_mapTile_other q ht f hi hj, mapTile_rest q tile f⟩

end Sys2Proof.Machine

/-!
PROOFS. O58 (R176, R216, R220, R355, R356, R358): reset, bring-up, table changes and attestation.
-/

namespace Sys2Proof.Machine

/-! ## Tables -/

theorem look_keep_key {α : Type} (p : Nat → Bool) (t : Tab α) (i : Nat) :
    look (keep (fun k _ => p k) t) i = if p i then look t i else none := by
  induction t with
  | nil => simp [keep, look]
  | cons e r ih =>
    obtain ⟨k, x⟩ := e
    have step : keep (fun k _ => p k) ((k, x) :: r) = if p k then (k, x) :: keep (fun k _ => p k) r else keep (fun k _ => p k) r :=
      List.filter_cons
    rw [step]
    by_cases hp : p k = true
    · rw [if_pos hp]
      by_cases hk : i = k
      · subst hk; simp [look, hp]
      · simp only [look, hk, if_false]; exact ih
    · rw [if_neg hp, ih]
      by_cases hk : i = k
      · subst hk; simp [hp]
      · simp only [look, hk, if_false]

/-- Values stored one after another: a key that is not among them keeps its value. -/
theorem get_foldl_set_other {l : List (Nat × Byte)} {k : Nat} (h : ∀ e ∈ l, e.1 ≠ k) (t : Tab Byte) :
    get 0 (l.foldl (fun t e => set 0 t e.1 e.2) t) k = get 0 t k := by
  induction l generalizing t with
  | nil => rfl
  | cons e r ih =>
    rw [List.foldl_cons, ih fun x hx => h x (List.mem_cons_of_mem e hx), get_set_other 0 t e.2 (h e List.mem_cons_self).symm]

/-- A key that is among them has a value that does not depend on what stood there. -/
theorem get_foldl_set_congr {l : List (Nat × Byte)} {k : Nat} {t u : Tab Byte} (h : (∃ e ∈ l, e.1 = k) ∨ get 0 t k = get 0 u k) :
    get 0 (l.foldl (fun t e => set 0 t e.1 e.2) t) k = get 0 (l.foldl (fun t e => set 0 t e.1 e.2) u) k := by
  induction l generalizing t u with
  | nil => exact h.resolve_left fun ⟨_, he, _⟩ => List.not_mem_nil he
  | cons e r ih =>
    refine ih ?_
    by_cases hk : k = e.1
    · right; rw [hk, get_set_same, get_set_same]
    · rw [get_set_other 0 t e.2 hk, get_set_other 0 u e.2 hk]
      refine h.imp_left fun ⟨x, hx, hxk⟩ => ⟨x, ?_, hxk⟩
      exact (List.mem_cons.mp hx).resolve_left fun e' => hk (by rw [← hxk, e'])

/-! ## The object table is cleared (R239) -/

/-- Clearing the object table clears some bytes below the homes, page by page, and notes which pages are still due. -/
theorem clearTable_keeps {P : State → Prop}
    (hP : ∀ (r : State) (mine : Nat → Bool) (due : List Nat), P r → P ((r.setMem (r.mem.clear mine)).setFw { r.fw with objDue := due }))
    {s : State} (h : P s) : P s.clearTable := by
  unfold State.clearTable
  refine foldl_keeps (P := P) _ (fun r p hr => ?_) _ h
  split
  · exact hP r _ _ hr
  · exact hr

/-- Nothing else changes. -/
theorem clearTable_rest (s : State) :
    { s.clearTable with mem := s.mem, fw := { s.clearTable.fw with objDue := s.fw.objDue } } = s :=
  clearTable_keeps (P := fun r : State => { r with mem := s.mem, fw := { r.fw with objDue := s.fw.objDue } } = s)
    (fun _ _ _ same => same) rfl

/-- A byte below the homes is as it was, or 0. -/
theorem clearTable_byte (s : State) (k : Nat) :
    get 0 s.clearTable.mem.phys k = get 0 s.mem.phys k ∨ get 0 s.clearTable.mem.phys k = 0 := by
  refine clearTable_keeps (P := fun r : State => get 0 r.mem.phys k = get 0 s.mem.phys k ∨ get 0 r.mem.phys k = 0)
    (fun r mine due same => ?_) (.inl rfl)
  show get 0 (keep (fun k _ => !mine k) r.mem.phys) k = _ ∨ get 0 (keep (fun k _ => !mine k) r.mem.phys) k = _
  unfold get at same ⊢
  rw [look_keep_key (fun k => !mine k)]
  split
  · exact same
  · exact .inr rfl

/-! ## Homes (R216) -/

theorem home_modHome (s : State) (h : Nat) (f : Home → Home) (x : Nat) :
    (s.modHome h f).home x = if x = h then f (s.home h) else s.home x := get_put _ _ _ _ _

/-- The homes as bring-up configures them. -/
def State.bringHomes (s : State) (b : Bringup) : State :=
  b.structs.foldl (fun s h => s.modHome h.1 fun hm => { hm with structs := h.2 })
    (b.homes.foldl (fun s h => s.setHome h.1 h.2.1 h.2.2.1 h.2.2.2) s)

theorem bringHomes_rest (s : State) (b : Bringup) : { s.bringHomes b with homes := s.homes } = s := by
  have homes : { b.homes.foldl (fun s h => s.setHome h.1 h.2.1 h.2.2.1 h.2.2.2) s with homes := s.homes } = s := by
    refine foldl_keeps (P := fun r : State => { r with homes := s.homes } = s) _ (fun r e same => ?_) _ rfl
    exact same
  refine foldl_keeps (P := fun r : State => { r with homes := s.homes } = s) _ (fun r e same => ?_) _ homes
  exact same

/-- Index, size and fault queue of a home. -/
def Home.config (h : Home) : Nat × Nat × Nat := (h.lix, h.m, h.fq)

theorem home_setHomes_other {l : List (Nat × Nat × Nat × Nat)} {x : Nat} (h : x ∉ l.map Prod.fst) (s : State) :
    (l.foldl (fun s h => s.setHome h.1 h.2.1 h.2.2.1 h.2.2.2) s).home x = s.home x := by
  refine List.foldlRecOn l _ (motive := fun r : State => r.home x = s.home x) rfl fun r same e he => ?_
  have other : x ≠ e.1 := fun eq => h (eq ▸ List.mem_map_of_mem he)
  exact (home_modHome r e.1 _ x).trans ((if_neg other).trans same)

/-- Each home that is listed once has the configuration listed. -/
theorem config_setHomes {l : List (Nat × Nat × Nat × Nat)} (once : (l.map Prod.fst).Nodup) {h : Nat × Nat × Nat × Nat} (hh : h ∈ l)
    (s : State) : ((l.foldl (fun s h => s.setHome h.1 h.2.1 h.2.2.1 h.2.2.2) s).home h.1).config = h.2 := by
  induction l generalizing s with
  | nil => cases hh
  | cons e r ih =>
    obtain ⟨fresh, rest⟩ := List.nodup_cons.mp once
    rcases List.mem_cons.mp hh with rfl | hr
    · rw [List.foldl_cons, home_setHomes_other fresh]
      unfold State.setHome
      rw [home_modHome, if_pos rfl]; rfl
    · exact ih rest hr _

theorem config_bringHomes {b : Bringup} (once : (b.homes.map Prod.fst).Nodup) {h : Nat × Nat × Nat × Nat} (hh : h ∈ b.homes)
    (s : State) : ((s.bringHomes b).home h.1).config = h.2 := by
  refine foldl_keeps (P := fun r : State => (r.home h.1).config = h.2) _ (fun r e same => ?_) _ (config_setHomes once hh s)
  rw [home_modHome]
  split
  · next eq => rw [← eq]; exact same
  · exact same

/-! ## Bring-up (R356) -/

/-- The registers that bring-up writes. -/
def State.bringRegs (s : State) (b : Bringup) : State :=
  (s.setFw { s.fw with
    dev := b.dev, keyBase := b.keyBase, objBase := b.objBase, domBase := b.domBase, points := b.points, rtCores := b.rtCores
    smap := tabOf b.smap, up := true }).setMaps b.dist b.routes

/-- The cores of the device, each listed. -/
def State.coreTab (s : State) : Tab Core := (List.range 384).foldl (fun t c => put t c (s.core c)) s.cores

/-- The pages that the object table stands in. -/
def objPages (b : Bringup) : List Nat :=
  (List.range ((b.objBase + 131071) / 65536 + 1 - b.objBase / 65536)).map fun i => b.objBase / 65536 + i

/-- Registers, listed cores `T` with the slice map, homes and memory are written, and the object table's pages are due. -/
def State.bringBefore (s : State) (b : Bringup) (T : Tab Core) (pages : List Nat) : State :=
  let t := ((s.bringRegs b).setCores (mapv (fun _ K => { K with smap := (s.bringRegs b).fw.smap }) T)).bringHomes b
  let t := t.setMem (t.mem.storeAll b.mem)
  t.setFw { t.fw with objDue := pages }

/-- The object table is cleared, and what bring-up writes there written again. -/
def State.bringAfter (s : State) (b : Bringup) (T : Tab Core) (pages : List Nat) : State :=
  (s.bringBefore b T pages).clearTable.setMem ((s.bringBefore b T pages).clearTable.mem.storeAll b.mem)

theorem bringTables_eq (s : State) (b : Bringup) : s.bringTables b = s.bringAfter b (s.bringRegs b).coreTab (objPages b) := rfl

theorem look_foldl_put {α : Type} (f : Nat → α) {l : List Nat} {i : Nat} (h : i ∈ l) (t : Tab α) :
    (look (l.foldl (fun t c => put t c (f c)) t) i).isSome = true := by
  refine foldl_reaches (Q := fun _ => True) (P := fun t : Tab α => (look t i).isSome = true) _ (fun _ _ _ => trivial)
    (fun t c present => ?_) (fun t _ => ?_) h trivial
  · by_cases same : i = c
    · rw [same, look_put_same]; rfl
    · rw [look_put_other _ _ same]; exact present
  · rw [look_put_same]; rfl

/-- A core that is listed has the slice map that every listed core is given. -/
theorem smap_mapv {t : Tab Core} {c : Nat} (h : (look t c).isSome = true) (m : Tab Nat) :
    (get coreReset (mapv (fun _ K => { K with smap := m }) t) c).smap = m := by
  obtain ⟨K, hK⟩ := Option.isSome_iff_exists.mp h
  unfold get
  rw [look_mapv, hK]; rfl

theorem look_coreTab (s : State) {c : Nat} (h : c < 384) : (look s.coreTab c).isSome = true := by
  unfold State.coreTab
  exact look_foldl_put s.core (List.mem_range.mpr h) s.cores

section
variable (s : State) (b : Bringup) (T : Tab Core) (pages : List Nat)

theorem bringBefore_rest :
    { s.bringBefore b T pages with cores := s.cores, homes := s.homes, mem := s.mem, fw := s.fw } = s :=
  (congrArg (fun r : State => { r with cores := s.cores, homes := s.homes, mem := s.mem, fw := s.fw }) (bringHomes_rest _ b) :)

theorem bringBefore_mem : (s.bringBefore b T pages).mem = s.mem.storeAll b.mem :=
  (congrArg (fun r : State => r.mem.storeAll b.mem) (bringHomes_rest _ b) :)

/-- The registers of the firmware but for the pages of the object table that are due. -/
theorem bringBefore_fw : { (s.bringBefore b T pages).fw with objDue := s.fw.objDue } = (s.bringRegs b).fw :=
  (congrArg (fun r : State => { r.fw with objDue := s.fw.objDue }) (bringHomes_rest _ b) :)

theorem bringBefore_cores : (s.bringBefore b T pages).cores = mapv (fun _ K => { K with smap := tabOf b.smap }) T :=
  (congrArg State.cores (bringHomes_rest _ b) :)

theorem bringAfter_fw : { (s.bringAfter b T pages).fw with objDue := s.fw.objDue } = (s.bringRegs b).fw :=
  (congrArg (fun r : State => { r.fw with objDue := s.fw.objDue }) (clearTable_rest (s.bringBefore b T pages)) :).trans
    (bringBefore_fw s b T pages)

theorem bringAfter_groups : (s.bringAfter b T pages).groups = s.groups :=
  (congrArg State.groups (clearTable_rest (s.bringBefore b T pages)) :).trans (congrArg State.groups (bringBefore_rest s b T pages) :)

theorem bringAfter_ring : (s.bringAfter b T pages).ring = s.ring :=
  (congrArg State.ring (clearTable_rest (s.bringBefore b T pages)) :).trans (congrArg State.ring (bringBefore_rest s b T pages) :)

theorem bringAfter_cores : (s.bringAfter b T pages).cores = mapv (fun _ K => { K with smap := tabOf b.smap }) T :=
  (congrArg State.cores (clearTable_rest (s.bringBefore b T pages)) :).trans (bringBefore_cores s b T pages)

theorem config_bringAfter (once : (b.homes.map Prod.fst).Nodup) {h : Nat × Nat × Nat × Nat} (hh : h ∈ b.homes) :
    ((s.bringAfter b T pages).home h.1).config = h.2 :=
  (congrArg (fun r : State => (r.home h.1).config) (clearTable_rest (s.bringBefore b T pages)) :).trans (config_bringHomes once hh _)

/-- A byte that bring-up writes stands there, whatever the object table's clearing left. -/
theorem bringAfter_written {e : Nat × Byte} (he : e ∈ b.mem) :
    get 0 (s.bringAfter b T pages).mem.phys e.1 = get 0 (s.mem.storeAll b.mem).phys e.1 :=
  get_foldl_set_congr (.inl ⟨e, he, rfl⟩)

/-- Any other is as it was, or 0. -/
theorem bringAfter_unwritten {k : Nat} (h : ∀ e ∈ b.mem, e.1 ≠ k) :
    get 0 (s.bringAfter b T pages).mem.phys k = get 0 s.mem.phys k ∨ get 0 (s.bringAfter b T pages).mem.phys k = 0 := by
  have first : get 0 (s.mem.storeAll b.mem).phys k = get 0 s.mem.phys k := get_foldl_set_other h s.mem.phys
  have second : get 0 (s.bringAfter b T pages).mem.phys k = get 0 (s.bringBefore b T pages).clearTable.mem.phys k :=
    get_foldl_set_other h _
  have cleared := clearTable_byte (s.bringBefore b T pages) k
  rw [bringBefore_mem, first] at cleared
  rw [second]
  exact cleared

end

/-- What bring-up leaves before the runtime is handed over. -/
structure BroughtUp (s t : State) (b : Bringup) : Prop where
  fw : { t.fw with objDue := s.fw.objDue } = (s.bringRegs b).fw
  smap : ∀ c, c < 384 → (t.core c).smap = tabOf b.smap
  homes : (b.homes.map Prod.fst).Nodup → ∀ h ∈ b.homes, (t.home h.1).config = h.2
  written : ∀ e ∈ b.mem, get 0 t.mem.phys e.1 = get 0 (s.mem.storeAll b.mem).phys e.1
  unwritten : ∀ k, (∀ e ∈ b.mem, e.1 ≠ k) → get 0 t.mem.phys k = get 0 s.mem.phys k ∨ get 0 t.mem.phys k = 0
  groups : t.groups = s.groups
  ring : t.ring = s.ring

/-- The runtime's record is handed over as a launch of domain 0x0000. -/
def State.handRuntime (s : State) (b : Bringup) : State :=
  s.setRing { s.ring with
    queue := s.ring.queue ++ [{ addr := b.runtime, graph := false, early := true, dom := 0, issuer := 0, origin := .none }] }

theorem bringTables_broughtUp (s : State) (b : Bringup) : BroughtUp s (s.bringTables b) b := by
  have listed := fun c => look_coreTab (s.bringRegs b) (c := c)
  rw [bringTables_eq]
  generalize (s.bringRegs b).coreTab = T at listed ⊢
  generalize objPages b = pages
  refine ⟨bringAfter_fw s b T pages, fun c hc => ?_, fun once h hh => config_bringAfter s b T pages once hh,
    fun e he => bringAfter_written s b T pages he, fun k hk => bringAfter_unwritten s b T pages hk, bringAfter_groups s b T pages,
    bringAfter_ring s b T pages⟩
  unfold State.core
  rw [bringAfter_cores]
  exact smap_mapv (listed c hc) _

theorem exec_bringup_up {s : State} (up : s.fw.up = true) (b : Bringup) : exec (.firmwareBringup b) s = .next s :=
  congrArg Host.Outcome.next (if_pos (by simp [up]))

/-- A device that is not up is brought up once, where its operating points and its runtime's record are in order. -/
theorem bringup_done {s : State} {b : Bringup} (down : s.fw.up = false) (few : b.points.length ≤ 15) (nominal : (550, 1400) ∈ b.points)
    (ok : (s.bringTables b).runtimeOk b = true) :
    ∃ t, exec (.firmwareBringup b) s = .next (t.handRuntime b) ∧ BroughtUp s t b := by
  have points : bringupOk b = true := by simp [bringupOk, few, nominal]
  exact ⟨s.bringTables b, congrArg Host.Outcome.next (if_neg (by simp [down, points, ok])), bringTables_broughtUp s b⟩

/-! ## Attestation (R356) -/

/-- An answer adds one message, and takes an identifier. -/
theorem spdmAnswer_adds (s : State) (code : Nat) (fixed : List Byte) :
    (∃ payload, (s.spdmAnswer code fixed).fw.spdm = s.fw.spdm ++ [(code, payload)])
      ∧ { s.spdmAnswer code fixed with fw := { (s.spdmAnswer code fixed).fw with spdm := s.fw.spdm }, ids := s.ids } = s :=
  ⟨⟨_, rfl⟩, rfl⟩

/-- Settles O58: `bringup_done` says what bring-up leaves; the other events are read off. -/
theorem bringUp : Obligations.BringUp := by
  refine ⟨?_, ?_⟩
  · intro s b dist routes
    refine ⟨⟨_, rfl, rfl, rfl, rfl, rfl, rfl, rfl, rfl, rfl, rfl⟩, fun up => exec_bringup_up up b, fun down few nominal ok => ?_, rfl,
      ⟨_, rfl, rfl, rfl, rfl⟩⟩
    obtain ⟨t, does, fw, smap, homes, written, unwritten, groups, ring⟩ := bringup_done down few nominal ok
    exact ⟨_, does, (congrArg (·.up) fw :), (congrArg (·.dev) fw :), (congrArg (·.keyBase) fw :), (congrArg (·.objBase) fw :),
      (congrArg (·.domBase) fw :), (congrArg (·.points) fw :), (congrArg (·.rtCores) fw :), (congrArg (·.smap) fw :), smap, homes,
      written, unwritten, groups, by rw [← ring]; rfl⟩
  · intro s nonce i code h
    rcases h with ⟨rfl, rfl⟩ | ⟨rfl, rfl⟩ | ⟨rfl, rfl⟩ | ⟨rfl, rfl⟩ | ⟨rfl, rfl⟩ | ⟨rfl, rfl⟩ | ⟨rfl, rfl⟩
      | ⟨rfl, rfl⟩ | ⟨rfl, rfl⟩ | ⟨rfl, rfl⟩
    all_goals exact ⟨_, rfl, spdmAnswer_adds s _ _⟩

end Sys2Proof.Machine

/-!
PROOFS. What a write by the device to memory, here or at another device, leaves alone: everything but memory, the homes, the packets, the
links, the contexts and the identifiers. Support of O43.
-/

namespace Sys2Proof.Machine

/-- A view of the machine that does not see memory, homes, packets, links, contexts or identifiers. -/
structure OffMemory {α : Type} (p : State → α) : Prop where
  mem : ∀ s x, p (State.setMem s x) = p s
  net : ∀ s x, p (State.setNet s x) = p s
  homes : ∀ s x, p (State.setHomes s x) = p s
  ctxs : ∀ s x, p (State.setCtxs s x) = p s
  fab : ∀ s x, p (State.setFab s x) = p s
  ids : ∀ s x, p (State.setIds s x) = p s

theorem offMemory_cores : OffMemory State.cores :=
  ⟨fun _ _ => rfl, fun _ _ => rfl, fun _ _ => rfl, fun _ _ => rfl, fun _ _ => rfl, fun _ _ => rfl⟩
theorem offMemory_cmds : OffMemory State.cmds :=
  ⟨fun _ _ => rfl, fun _ _ => rfl, fun _ _ => rfl, fun _ _ => rfl, fun _ _ => rfl, fun _ _ => rfl⟩

namespace OffMemory

section
variable {α : Type} {p : State → α} (v : OffMemory p)

theorem foldl_same {β : Type} {f : State → β → State} (hf : ∀ s x, p (f s x) = p s) (l : List β) (s : State) : p (l.foldl f s) = p s :=
  foldl_keeps (P := fun t => p t = p s) f (fun t x h => (hf t x).trans h) l rfl

theorem ite_same {b : Prop} [Decidable b] {s t u : State} (ht : p t = p s) (hu : p u = p s) : p (if b then t else u) = p s := by
  split
  · exact ht
  · exact hu

theorem unshare (s : State) {wr : State → Nat → List Byte → State} (hwr : ∀ t x b, p (wr t x b) = p t) (had : List Nat) :
    p (s.unshare wr had) = p s := by
  unfold State.unshare
  exact foldl_same (fun t id => ite_same rfl (hwr t _ _)) _ s

include v
variable (s : State)

theorem claimLine (h k a : Nat) : p (s.claimLine h k a) = p s := by
  unfold State.claimLine
  exact ite_same ((v.homes _ _).trans (v.mem _ _)) rfl

theorem noteWrite (a n : Nat) : p (s.noteWrite a n) = p s := by
  unfold State.noteWrite
  exact (v.net _ _).trans (ite_same rfl (v.fab _ _))

theorem beforeStore (h k a n : Nat) : p (s.beforeStore h k a n) = p s := (v.noteWrite _ a n).trans (v.claimLine s h k a)

theorem writeStruct (h a : Nat) (b : List Byte) : p (s.writeStruct h a b) = p s := by
  unfold State.writeStruct
  split
  · exact v.mem _ _
  · rfl

theorem sinkLine (a : Nat) (b : List Byte) : p (s.sinkLine a b) = p s := by
  unfold State.sinkLine
  split
  · refine ite_same rfl (ite_same (v.writeStruct s _ a b) ?_)
    split
    · exact ite_same ((v.mem _ _).trans (v.beforeStore s _ _ _ _)) ((v.mem _ _).trans (v.beforeStore s _ _ _ _))
    · rfl
  · rfl

theorem answerKept (sec : Nat) (q : Nat → Bool) : p (s.answerKept sec q) = p s := by
  unfold State.answerKept
  exact foldl_same (fun t e => v.net _ _) _ s

theorem flushRsc (sec : Nat) (q : Nat → Bool) : p (s.flushRsc sec q) = p s := by
  unfold State.flushRsc
  refine ite_same (v.answerKept s _ _) ((v.answerKept _ _ _).trans ((v.mem _ _).trans ?_))
  refine foldl_same (fun t e => ?_) _ s
  exact ite_same ((v.mem _ _).trans (v.sinkLine t _ _)) (v.sinkLine t _ _)

theorem sendKept (sec : Nat) (q : Nat → Bool) : p (s.sendKept sec q) = p s := by
  unfold State.sendKept
  exact ite_same rfl ((foldl_same (fun t e => v.mem t _) _ _).trans (v.net _ _))

theorem evictRsc (sec x : Nat) : p (s.evictRsc sec x) = p s := by
  unfold State.evictRsc
  exact (v.mem _ _).trans ((v.sendKept _ _ _).trans (v.flushRsc s _ _))

theorem evictLine (x : Nat) : p (s.evictLine x) = p s := by
  unfold State.evictLine
  split
  · exact (v.mem _ _).trans (v.mem _ _)
  · rfl

theorem makeWay (u key : Nat) : p (s.makeWay u key) = p s := by
  unfold State.makeWay
  dsimp only
  split
  · exact ite_same (v.evictLine s _) (v.evictRsc s _ _)
  · rfl

theorem useLine (u key pol : Nat) (new : Bool) (f : Mem → Mem) : p (s.useLine u key pol new f) = p s := by
  unfold State.useLine
  exact ite_same ((v.makeWay _ _ _).trans (v.mem _ _)) (v.mem _ _)

theorem mendWords (a n : Nat) : p (s.mendWords a n) = p s := by
  unfold State.mendWords
  exact ite_same (foldl_same (fun t i => v.mem _ _) _ s) rfl

theorem storeLine (h l a : Nat) (b : List Byte) : p (s.storeLine h l a b) = p s := by
  unfold State.storeLine
  split
  · rfl
  · refine (v.mendWords _ a _).trans (ite_same ((v.mem _ _).trans ?_) ((v.useLine _ _ _ _ _ _).trans ?_))
    · exact v.beforeStore s _ _ _ _
    · exact v.beforeStore s _ _ _ _

theorem homeStore (h l a : Nat) (b : List Byte) : p (s.homeStore h l a b) = p s := by
  unfold State.homeStore
  exact foldl_same (fun t q => v.storeLine t h l _ _) _ s

theorem noteAccess (dom : Option Nat) (a n : Nat) : p (s.noteAccess dom a n) = p s := by
  unfold State.noteAccess
  exact foldl_same (fun t e => ite_same (v.ctxs _ _) rfl) _ s

theorem logLine (dom : Nat) : p (s.logLine dom) = p s := by
  unfold State.logLine
  refine ite_same (v.ctxs _ _) ((foldl_same (fun t q => v.sinkLine t _ _) _ _).trans ((v.ids _ _).trans (v.ctxs _ _)))

theorem noteUndo (dom : Nat) (olds : List (Nat × Byte)) : p (s.noteUndo dom olds) = p s := by
  unfold State.noteUndo
  exact ite_same ((foldl_same (fun t _ => v.logLine t dom) _ _).trans (v.ctxs _ _)) rfl

theorem noteStore (h l a n dom : Nat) : p (s.noteStore h l a n dom) = p s := by
  unfold State.noteStore
  split
  · rfl
  · refine ite_same (v.noteAccess s _ _ _) (ite_same ((v.ctxs _ _).trans ?_) ?_)
    · exact (v.noteUndo _ _ _).trans (v.noteAccess s _ _ _)
    · exact (v.noteUndo _ _ _).trans (v.noteAccess s _ _ _)

theorem disownObjs (ids : List Nat) : p (s.disownObjs ids) = p s := by
  unfold State.disownObjs
  exact ite_same rfl (foldl_same (fun t sec => v.flushRsc t sec _) _ s)

theorem tablesStored {wr : State → Nat → List Byte → State} (hwr : ∀ t x b, p (wr t x b) = p t) (a n : Nat) (had : List Nat) :
    p (s.tablesStored wr a n had) = p s := by
  unfold State.tablesStored
  exact (foldl_same (fun t d => v.ctxs _ _) _ _).trans ((v.disownObjs _ _).trans (unshare s hwr had))

theorem homeWrite (h l a : Nat) (b : List Byte) (dom : Nat) : p (s.homeWrite h l a b dom) = p s := by
  unfold State.homeWrite
  exact (v.tablesStored _ (fun t x b => v.homeStore t h l x b) _ _ _).trans ((v.homeStore _ _ _ _ _).trans (v.noteStore s _ _ _ _ _))

theorem homeWriteVa (a : Nat) (b : List Byte) (dom : Nat) : p (s.homeWriteVa a b dom) = p s := by
  unfold State.homeWriteVa
  split
  · refine ite_same rfl (ite_same (v.writeStruct s _ a b) ?_)
    split
    · exact v.homeWrite s _ _ a b dom
    · rfl
  · rfl

theorem sendTo (dest : Nat) (b : FlitBody) (via : Option Nat) : p (s.sendTo dest b via) = p s := by
  unfold State.sendTo
  dsimp only
  split
  · exact (v.ids _ _).trans (v.fab _ _)
  · exact v.ids _ _

theorem sendRemote {dest : Nat} {mk : Nat → FlitBody} {f : RemFor} {seen : Nat} {via : Option Nat} {t : State × Nat}
    (h : s.sendRemote dest mk f seen via = some t) : p t.1 = p s := by
  unfold State.sendRemote at h
  dsimp only at h
  split at h
  · cases h
  · obtain rfl := Option.some.inj h
    unfold State.sendAll
    exact (foldl_same (fun t f => v.sendTo t _ _ _) _ _).trans (v.fab _ _)

theorem devWrite1 (a : Nat) (b : List Byte) : p (s.devWrite1 a b) = p s := by
  unfold State.devWrite1
  split
  · refine ite_same (v.homeWriteVa s a b outside) ?_
    cases h : s.sendRemote _ _ _ with
    | none => rfl
    | some t => exact v.sendRemote s h
  · rfl

theorem devWrite (a : Nat) (b : List Byte) : p (s.devWrite a b) = p s := by
  unfold State.devWrite
  exact foldl_same (fun t q => v.devWrite1 t _ _) _ s

/-- A domain's charge is a write to its record (R335). -/
theorem charge (dom n : Nat) : p (s.charge dom n) = p s := by
  unfold State.charge
  exact ite_same ((v.ctxs _ _).trans (v.devWrite s _ _)) (v.devWrite s _ _)

end

end OffMemory

end Sys2Proof.Machine

/-!
PROOFS. O43 (R178 to R180, R186, R195, R199, R295, R296, R335, R337): the events of the engines.
-/

namespace Sys2Proof.Machine

/-! ## What waits is served (R178 to R180, R199) -/

section
variable {s : State}

theorem exec_claimGrant {quad first : Nat} {tiles : Bool} {w : Claim} (next : s.nextClaim quad tiles ((s.quad quad).waits tiles) = some w)
    (run : (s.quad quad).freeRun tiles w.count = some first) :
    exec (.claimGrant quad tiles) s = .next
      (((s.modQuad quad fun q => (q.grant tiles first w).setWaits tiles ((q.waits tiles).filter fun x => x.id != w.id)).modGroup w.grp
        fun G => G.kw w.d (w64 first)).resumeAt w.grp w.arm 8) := by
  show execClaimGrant quad tiles s = _
  unfold execClaimGrant
  rw [next]
  dsimp only
  rw [run]

section
variable {quad : Nat} {tiles : Bool} {r : Release}
  (next : ((s.quad quad).rels.find? fun r => r.tiles == tiles && !s.named r.block tiles r.first r.count) = some r)
include next

theorem exec_releaseFree (own : s.claimed quad r.block tiles r.first r.count = true) :
    exec (.claimReleaseFree quad tiles) s = .next
      (((s.modQuad quad fun q => { q with rels := q.rels.filter fun x => x.id != r.id }).modQuad quad fun q =>
        q.free tiles r.first r.count ((s.blockDom r.block).getD 0)).resumeAt r.grp r.arm 8) := by
  show execClaimReleaseFree quad tiles s = _
  unfold execClaimReleaseFree
  rw [next]
  exact congrArg Host.Outcome.next (if_pos own)

theorem exec_releaseTrap {x : Cur} (other : s.claimed quad r.block tiles r.first r.count = false) (there : s.path? r.grp r.arm = some x) :
    exec (.claimReleaseFree quad tiles) s = .next
      (((s.modQuad quad fun q => { q with rels := q.rels.filter fun y => y.id != r.id }).modPath x.g x.arm fun p =>
        { p with prog := .none }).trapAt x 9 none) := by
  have still : (s.modQuad quad fun q => { q with rels := q.rels.filter fun y => y.id != r.id }).path? r.grp r.arm = some x := there
  show execClaimReleaseFree quad tiles s = _
  unfold execClaimReleaseFree
  rw [next]
  refine congrArg Host.Outcome.next ((if_neg (by simp [other])).trans ?_)
  rw [still]

end

theorem exec_tagAllocate {core n : Nat} {v : TagWait} (next : s.nextTagWait core (s.core core).tagWait = some v)
    (free : (s.core core).freeTagNo = some n) :
    exec (.tagAllocate core) s
      = .next ((s.modCore core fun K => { K with tagWait := K.tagWait.filter fun x => x.id != v.id }).giveTag v n) := by
  show execTagAllocate core s = _
  unfold execTagAllocate
  rw [next, free]

theorem exec_reservationPost {quad id : Nat} {k : Cmd} (next : s.nextPost quad (s.quad quad).posting = some id)
    (room : (s.quad quad).table.length < 32) (hk : s.cmd? id = some k) :
    exec (.reservationPost quad) s
      = .next ((s.modQuad quad fun q => { q with table := q.table ++ [id], posting := q.posting.filter fun i => i != id }).resumeAt k.grp
          k.arm k.kind.len) := by
  show execReservationPost quad s = _
  unfold execReservationPost
  rw [next]
  refine congrArg Host.Outcome.next ((if_pos room).trans ?_)
  dsimp only
  rw [hk]

end

/-! ## The path that waited goes on -/

theorem path?_spec {s : State} {g a : Nat} {c : Cur} (h : s.path? g a = some c) :
    c.g = g ∧ c.arm = a ∧ s.group? g = some c.grp ∧ c.grp.arm? a = some c.path := by
  unfold State.path? at h
  cases hg : s.group? g with
  | none => rw [hg] at h; cases h
  | some G =>
    rw [hg] at h
    obtain ⟨p, hp, rfl⟩ := Option.map_eq_some_iff.mp h
    exact ⟨rfl, rfl, rfl, hp⟩

theorem resumeAt_goes {s : State} {g a : Nat} {c : Cur} (h : s.path? g a = some c) (hchip : c.path.onChip = true) (len : Nat) :
    Only s (s.resumeAt g a len) g ∧ PathsOnly c.grp ((s.resumeAt g a len).grpOf g)
      ∧ GoesOn s (s.resumeAt g a len) c (c.path.pc + w64 len) := by
  have goes := resumeAt_path h len
  obtain ⟨rfl, rfl, hg, hp⟩ := path?_spec h
  obtain ⟨moved, path⟩ := goto_of (s := s) hg hp rfl rfl rfl rfl hchip (c.path.pc + w64 len)
  have grp : s.grpOf c.g = c.grp := by unfold State.grpOf; rw [hg]; rfl
  rw [goes]
  exact ⟨moved.only, ⟨grp ▸ moved.work, grp ▸ moved.grp⟩, path⟩

/-! ## `COMMAND_COMPLETION` (R199) -/

theorem exec_completion {s : State} {id : Nat} {c : Cmd} (hc : s.cmd? id = some c) (ended : c.ended = true) (running : c.done = false)
    (sent : c.msgs = []) (near : c.scope.rank < 8) : exec (.commandCompletion id) s = .next (s.complete id) := by
  show execCommandCompletion id s = _
  unfold execCommandCompletion
  rw [hc]
  refine congrArg Host.Outcome.next ((if_pos (by simp [ended, running, sent])).trans ?_)
  rw [if_neg (Nat.not_le.mpr near)]

/-! ## Copies of a beat (R295, R296) -/

theorem eraseDups_eraseDups (l : List Nat) : l.eraseDups.eraseDups = l.eraseDups := by
  induction hn : l.length using Nat.strong_induction_on generalizing l with
  | _ n ih =>
    cases l with
    | nil => rfl
    | cons a r =>
      have first : ∀ b ∈ (r.filter fun b => !b == a).eraseDups, (!b == a) = true := fun b hb =>
        (List.mem_filter.mp (List.mem_eraseDups.mp hb)).2
      have shorter : (r.filter fun b => !b == a).length < n := by
        have := List.length_filter_le (fun b => !b == a) r
        rw [← hn, List.length_cons]; omega
      rw [List.eraseDups_cons, List.eraseDups_cons, List.filter_eq_self.mpr first, ih _ shorter _ rfl]

/-- A command's quads are listed once each. -/
theorem quads_eraseDups (c : Cmd) : c.quads.eraseDups = c.quads := by
  unfold Cmd.quads
  split
  · exact eraseDups_eraseDups _
  · rfl

/-- The routes of the copies that a sector's crossbar sends for one request: one to each of its quads. -/
theorem routes_atCrossbar {s : State} {t : BeatTo} {c : Cmd} (hc : s.cmd? t.cmd = some c) (sec u sid code src : Nat) (b : List Byte)
    (late : Bool) :
    (s.atCrossbar sec u sid code src b [t] late).map Packet.route = c.quads.map fun q => [.xbar sec (32 + q % 8)] := by
  have quads : s.quadsOf [t] = c.quads := by
    unfold State.quadsOf
    rw [List.flatMap_singleton, hc]
    exact quads_eraseDups c
  unfold State.atCrossbar
  rw [quads, List.map_map]
  rfl

theorem routes_beatCopies {s : State} {st : Stream} {j : StreamReq} {c : Cmd} (hc : s.cmd? j.cmd = some c)
    (near : unitSector st.unit = coreSector c.core) (sid code : Nat) (b : List Byte) :
    (s.beatCopies st sid code b [j]).map Packet.route = c.quads.map fun q => [.xbar (coreSector c.core) (32 + q % 8)] := by
  have here : (((s.cmd? j.cmd).map fun c => coreSector c.core).getD (unitSector st.unit) == unitSector st.unit) = true := by
    rw [hc, near]; exact beq_self_eq_true _
  unfold State.beatCopies
  simp only [List.filter_cons, List.filter_nil, bne, here, Bool.not_true, if_true, Bool.false_eq_true, if_false, List.map_cons,
    List.map_nil, List.append_nil]
  rw [← near]
  exact routes_atCrossbar (t := { cmd := j.cmd, field := j.left s.now }) hc _ _ sid code st.src b false

/-- A stream that serves one command sends its next beat once. -/
theorem exec_beat {s r : State} {sid : Nat} {st : Stream} {j : StreamReq} {b : List Byte} (hst : look s.net.streams sid = some st)
    (left : 64 * st.next < st.len) (one : st.joined = [j]) (takes : s.takesBeat st.next j = true)
    (room : s.roomFor (s.beatCopies st sid (2 * st.next) [] [j]) = true) (read : s.beatRead st j.cmd st.next = (r, .ok b)) :
    let t := r.chargeBeat (2 * st.next) [j]
    let u := t.setNet { t.net with streams := upd t.net.streams sid fun x =>
      { x with next := x.next + 1, first := some (x.first.getD t.now), joined := [j] } }
    exec (.sliceStreamBeat sid) s = .next ((u.sendPackets (u.beatCopies st sid (2 * st.next) b [j])).trimStream sid) := by
  have found : [j].find? (s.takesBeat st.next) = some j := List.find?_cons_of_pos takes
  have served : [j].filter (s.takesBeat st.next) = [j] := by rw [List.filter_cons_of_pos takes, List.filter_nil]
  have joined : ([j].map fun x => if [j].any fun y => y.cmd == x.cmd then x else { x with missed := x.missed ++ [2 * st.next] }) = [j] := by
    simp
  show execSliceStreamBeat sid s = _
  unfold execSliceStreamBeat
  rw [hst]
  refine congrArg Host.Outcome.next ((if_pos left).trans ?_)
  rw [one, found]
  dsimp only
  rw [served, room, read]
  refine (if_neg (by decide)).trans ?_
  dsimp only
  rw [joined]

/-! ## Deliveries of a multicast (R195, R296) -/

/-- A copy of a beat that serves one multicast is delivered, and the stream trimmed. -/
theorem beatLands_cpm {s : State} {t : BeatTo} {c : Cmd} {dst so : W64} {len : Nat} {mask : W32} (hc : s.cmd? t.cmd = some c)
    (kind : c.kind = .cpm dst so len mask) (i quad sid code src : Nat) (b : List Byte) :
    s.beatLands i quad sid code src b [t] false
      = (((s.setNet { s.net with packets := del s.net.packets i }).next.cpmDeliver t.cmd c (dst.toNat + 64 * (code / 2)) b fun n =>
          coreQuad (32 * coreSector c.core + n) == quad)).trimStream sid := by
  have here : (s.setNet { s.net with packets := del s.net.packets i }).next.cmd? t.cmd = some c := hc
  unfold State.beatLands
  dsimp only [List.foldl_cons, List.foldl_nil]
  unfold State.beatTo
  rw [here]
  dsimp only
  rw [kind, Bool.false_and, if_neg Bool.false_ne_true]

theorem getRange_setRange {α : Type} [DecidableEq α] (d : α) (t : Tab α) (i : Nat) (l : List α) :
    getRange d (setRange d t i l) i l.length = l := by
  unfold getRange
  refine List.ext_getElem (by simp) fun n _ hn => ?_
  rw [List.getElem_map, List.getElem_range, get_setRange_same d t i n l hn]

/-- What has been delivered to a core's local memory stands there. -/
theorem lmRead_deliver (s : State) (core a : Nat) (b : List Byte) : (s.modCore core fun K => K.deliver a b).lmRead core a b.length = b := by
  unfold State.lmRead
  rw [core_modCore_same]
  exact getRange_setRange 0 _ a b

/-- The only target of a multicast, in a block that has not ended, is given the bytes. -/
theorem cpmDeliver_one {s : State} {c : Cmd} {off n : Nat} {B : Block} {on : Nat → Bool} (one : c.targets = [(n, off)])
    (hB : s.block? off = some B) (running : B.ended = false) (given : c.dropped.getLsbD n = false) (here : on n = true) (id o : Nat)
    (b : List Byte) : s.cpmDeliver id c o b on = s.modCore B.core fun K => K.deliver (B.lbase + o) b := by
  have targets : (c.targets.filter fun t => on t.1) = [(n, off)] := by
    rw [one]; exact List.filter_cons_of_pos (p := fun t : Nat × Nat => on t.1) here
  unfold State.cpmDeliver
  rw [targets, List.foldl_cons, List.foldl_nil]
  dsimp only
  rw [hB]
  exact (if_neg (by simp [running])).trans (if_neg (by simp [given]))

/-! ## `COPY_CHUNK` (R186, R195, R335) -/

theorem length_lmRead (s : State) (core a n : Nat) : (s.lmRead core a n).length = n := by simp [State.lmRead, getRange]

theorem cmdFetch_local {s : State} {c : Cmd} {a n k b : Nat} (h : s.localAt c.block a n = some (k, b)) (id all : Nat) :
    s.cmdFetch id c true a n all = (s, .ok (s.lmRead k b n)) := by
  unfold State.cmdFetch State.cmdRead State.cmdLook
  rw [Bool.true_or, if_pos rfl, if_pos rfl, h]
  rfl

theorem cmdWrite_local {s : State} {c : Cmd} {a k x : Nat} {b : List Byte} (h : s.localAt c.block a b.length = some (k, x)) (id all : Nat) :
    s.cmdWrite id c true a all b = (s.modCore k fun K => K.deliver x b, .ok []) := by
  unfold State.cmdWrite State.cmdPut
  rw [if_pos rfl, h]
  rfl

theorem mixFree_apart {s : State} {b : List Byte} {src dst len : Nat} (h : rangesMeet src b.length dst len = false) :
    s.mixFree b src dst len = (s, b) := if_neg (by simp [h])

/-- A copy between local memories of up to 4 KiB is one unit. -/
theorem cmdUnit_local {s : State} {id : Nat} {c : Cmd} {dst src : W64} {len ks bs kd bd : Nat} (kind : c.kind = .cpy dst src len true true)
    (start : c.pos = 0) (most : len ≤ 4096) (hs : s.localAt c.block src.toNat len = some (ks, bs))
    (hd : s.localAt c.block dst.toNat len = some (kd, bd))
    (apart : rangesMeet (s.spot c.block true src.toNat) len (s.spot c.block true dst.toNat) len = false) :
    s.cmdUnit id c = (s.modCore kd fun K => K.deliver bd (s.lmRead ks bs len), .ok len len) := by
  have whole : min (min 4096 len) (min 4096 4096) = len := by omega
  have page : ∀ a, toPageEnd true a = 4096 := fun _ => rfl
  have length := length_lmRead s ks bs len
  have mixed := mixFree_apart (s := s) (b := s.lmRead ks bs len) (by rw [length]; exact apart)
  unfold State.cmdUnit
  rw [kind, start]
  dsimp only
  rw [page, page, Nat.add_zero, Nat.add_zero, Nat.mod_eq_of_lt dst.isLt, Nat.mod_eq_of_lt src.isLt, Nat.sub_zero, whole, cmdFetch_local hs]
  dsimp only
  rw [Nat.add_zero, mixed]
  dsimp only
  rw [cmdWrite_local (by rw [length]; exact hd)]
  rfl

/-- A chunk that begins and ends with one unit, the last of its command. -/
theorem runUnits_last {s t : State} {id n : Nat} {c : Cmd} (hc : s.cmd? id = some c) (fresh : c.room = 0) (more : c.pos < c.kind.total)
    (last : c.kind.total ≤ c.pos + n) (unit : s.cmdUnit id c = (t, .ok n n)) (fuel : Nat) (did : Bool) :
    State.runUnits (fuel + 1) s id did
      = (((t.chunkFor id c).modCmd id fun c => { c with pos := c.pos + n, room := c.room - n }).endOk id, true) := by
  rw [State.runUnits, hc]
  refine (if_neg (Nat.not_le.mpr more)).trans ?_
  rw [unit]
  exact (if_neg (by simp [fresh])).trans (if_pos last)

/-- A queue head that has begun and takes no stream goes on with its units. -/
theorem serve_units {s : State} {id : Nat} {c : Cmd} (hc : s.cmd? id = some c) (begun : c.begun = true) (direct : c.kind.stream = none) :
    s.serve id c = State.runUnits 4096 s id false := by
  unfold State.serve
  rw [begun, if_pos rfl]
  dsimp only
  rw [hc, Option.getD_some, direct]

theorem exec_copyChunk_idle {s : State} {core : Nat} (h : s.heads core = []) : exec (.copyChunk core) s = .next s := by
  show execCopyChunk core s = _
  unfold execCopyChunk
  rw [h]; rfl

theorem exec_copyChunk_one {s r : State} {core id : Nat} {c : Cmd} (h : s.heads core = [(id, c)]) (served : s.serve id c = (r, true)) :
    exec (.copyChunk core) s = .next (r.modCore core fun K => { K with chunks := 0 }) := by
  have first : s.serveFirst [(id, c)] = (r, some id) := by rw [State.serveFirst, served]
  have oldest : ([(id, c)].map Prod.fst).foldl min (([(id, c)].map Prod.fst).headD 0) = id := Nat.min_self id
  show execCopyChunk core s = _
  unfold execCopyChunk
  dsimp only
  rw [h, first]
  simp only [oldest, if_true]

/-- The state after the one chunk of a copy between local memories. -/
def State.chunkMoved (s : State) (id : Nat) (c : Cmd) (ks bs kd bd len : Nat) : State :=
  ((((s.modCore kd fun K => K.deliver bd (s.lmRead ks bs len)).charge c.dom 1).setRoom id 4096).modCmd id fun x =>
    { x with pos := x.pos + len, room := x.room - len }).endOk id

theorem lmRead_chunkMoved (s : State) (id : Nat) (c : Cmd) (ks bs kd bd len : Nat) :
    (s.chunkMoved id c ks bs kd bd len).lmRead kd bd len = s.lmRead ks bs len := by
  have cores : (s.chunkMoved id c ks bs kd bd len).cores = (s.modCore kd fun K => K.deliver bd (s.lmRead ks bs len)).cores := by
    unfold State.chunkMoved State.endOk State.setRoom
    rw [modCmd_cores, modCmd_cores, modCmd_cores, offMemory_cores.charge]
  have delivered := lmRead_deliver s kd bd (s.lmRead ks bs len)
  rw [length_lmRead] at delivered
  unfold State.lmRead State.core
  rw [cores]
  exact delivered

theorem cmd?_chunkMoved {s : State} {id : Nat} {c : Cmd} (hc : s.cmd? id = some c) (ks bs kd bd len : Nat) :
    (s.chunkMoved id c ks bs kd bd len).cmd? id
      = some { c with pos := c.pos + len, room := 4096 - len, ended := true, status := c.dlvd } := by
  have charged : ((s.modCore kd fun K => K.deliver bd (s.lmRead ks bs len)).charge c.dom 1).cmd? id = some c :=
    (congrArg (look · id) (offMemory_cmds.charge _ c.dom 1)).trans hc
  unfold State.chunkMoved State.endOk State.setRoom
  rw [cmd?_modCmd_same, cmd?_modCmd_same, cmd?_modCmd_same, charged]
  rfl

theorem exec_copyChunk_local {s : State} {core id : Nat} {c : Cmd} {dst src : W64} {len ks bs kd bd : Nat} (h : s.heads core = [(id, c)])
    (hc : s.cmd? id = some c) (begun : c.begun = true) (fresh : c.room = 0) (kind : c.kind = .cpy dst src len true true)
    (nonempty : 0 < len) (most : len ≤ 4096) (start : c.pos = 0) (hs : s.localAt c.block src.toNat len = some (ks, bs))
    (hd : s.localAt c.block dst.toNat len = some (kd, bd))
    (apart : rangesMeet (s.spot c.block true src.toNat) len (s.spot c.block true dst.toNat) len = false) :
    exec (.copyChunk core) s = .next ((s.chunkMoved id c ks bs kd bd len).modCore core fun K => { K with chunks := 0 }) := by
  have total : c.kind.total = len := by rw [kind]; rfl
  have direct : c.kind.stream = none := by rw [kind]; rfl
  have units := runUnits_last hc fresh (by rw [start, total]; exact nonempty) (by rw [start, total, Nat.zero_add])
    (cmdUnit_local (id := id) kind start most hs hd apart) 4095 false
  have charged : (s.modCore kd fun K => K.deliver bd (s.lmRead ks bs len)).chunkFor id c
      = ((s.modCore kd fun K => K.deliver bd (s.lmRead ks bs len)).charge c.dom 1).setRoom id 4096 := if_pos fresh
  rw [charged] at units
  exact exec_copyChunk_one h ((serve_units hc begun direct).trans units)

/-- Settles O43: each event by the branch that its hypotheses name. -/
theorem engineEvents : Obligations.EngineEvents := by
  refine ⟨?_, ?_, ?_, ?_, ?_, ?_, ?_⟩
  · intro s quad core first n id tiles w v r k
    exact ⟨exec_claimGrant, exec_releaseFree, fun x next other there => exec_releaseTrap next other there, exec_tagAllocate,
      exec_reservationPost⟩
  · intro s g a len c h hchip
    exact resumeAt_goes h hchip len
  · intro s core id c dst src len ks bs kd bd
    refine ⟨exec_copyChunk_idle, fun h hc begun fresh kind nonempty most start hs hd apart => ?_⟩
    have ended := cmd?_chunkMoved hc ks bs kd bd len
    refine ⟨exec_copyChunk_local h hc begun fresh kind nonempty most start hs hd apart, lmRead_chunkMoved s id c ks bs kd bd len, ?_, ?_⟩
    · exact congrArg (Option.map Cmd.ended) ended
    · refine (congrArg (Option.map Cmd.status) ended).trans (congrArg some ?_)
      show c.dlvd = 0
      rw [Cmd.dlvd, kind]
  · intro s r sid st j b hst left one takes room read t u
    exact ⟨exec_beat hst left one takes room read, fun c hc near => routes_beatCopies hc near sid _ b⟩
  · intro s i quad sid code src len dst so mask b t c hc kind
    exact beatLands_cpm hc kind i quad sid code src b
  · intro s id c off n B b on one hB running given here o
    rw [cpmDeliver_one one hB running given here]
    exact lmRead_deliver s B.core (B.lbase + o) b
  · intro s id c t hc ended running sent near
    refine ⟨exec_completion hc ended running sent near, fun late posted tag held gen unset alone => ?_⟩
    subst tag
    have completes := complete_posted hc late posted held gen unset alone
    refine ⟨s.cmdDone id c, ?_, cmdDone_cmd? hc, cmdDone_tag s id c, cmdDone_table s id c, rfl, rfl⟩
    rw [← completes]
    exact exec_completion hc ended running sent near

end Sys2Proof.Machine

/-!
PROOFS. O48 (R212, R213, R221, R229, R230, R262, R267, R306): what a requester does with each kind of negative reply.
-/

namespace Sys2Proof.Machine

/-! ## Replays (R230, R306) -/

/-- A replayed packet is on its way under the core's present map, or waits for room. -/
theorem packet?_replay {s : State} {k : Nat} {p : Packet} (hp : s.packet? k = some p) :
    (s.replay k).packet? k = some (if s.hasRoom p.core p.lanes then
      { p with phase := .going, route := s.reroute p, smgen := (s.core p.core).smgen, born := s.now, remote := none, told := false
               mark := s.acqMark p.core } else { p with phase := .signalled false }) :=
  packet?_modPacket s hp _

/-- The wait of a busy requester is 32 to 255 cycles (R229). -/
theorem busyUntil_bounds (s : State) : s.now + 32 * Config.cycle ≤ s.busyUntil ∧ s.busyUntil ≤ s.now + 255 * Config.cycle := by
  have short : s.pick 224 < 224 := Nat.mod_lt _ (by decide)
  have wait : s.busyUntil = s.now + (32 + s.pick 224) * Config.cycle := by rw [State.busyUntil, Nat.mul_comm]
  rw [wait]
  exact ⟨Nat.add_le_add_left (Nat.mul_le_mul_right _ (by omega)) _, Nat.add_le_add_left (Nat.mul_le_mul_right _ (by omega)) _⟩

/-! ## A packet fails (R229, R267) -/

theorem dropStored_other (s : State) {p : Packet} (hkind : p.kind ≠ .store) : s.dropStored p = s := by
  unfold State.dropStored
  exact if_neg (mt eq_of_beq hkind)

theorem failPacket_access (s : State) (k : Nat) (c : Byte) {g id : Nat} {p : Packet} (hkind : p.kind ≠ .store) (hown : p.own = .access g id) :
    s.failPacket k p c = (s.dropPacket k).failLanes g id c p.lanes := by
  unfold State.failPacket
  rw [dropStored_other s hkind, hown]

theorem failPacket_none (s : State) (k : Nat) (c : Byte) {p : Packet} (hkind : p.kind ≠ .store) (hown : p.own = .none) :
    s.failPacket k p c = s.dropPacket k := by
  unfold State.failPacket
  rw [dropStored_other s hkind, hown]

/-- The addresses at which the lanes of a packet fail, beside those known before. -/
def failsAt (t : Tab W64) (lanes : List LaneReq) : Tab W64 := lanes.foldl (fun t q => put t q.lane (w64 q.addr)) t

theorem look_failsAt (t : Tab W64) {lanes : List LaneReq} {q : LaneReq} (hq : q ∈ lanes) : (look (failsAt t lanes) q.lane).isSome = true := by
  refine foldl_reaches (Q := fun _ => True) (P := fun t : Tab W64 => (look t q.lane).isSome = true) _ (fun _ _ _ => trivial)
    (fun t x present => ?_) (fun t _ => ?_) hq trivial
  · by_cases same : q.lane = x.lane
    · rw [same, look_put_same]; rfl
    · rw [look_put_other _ _ same]; exact present
  · rw [look_put_same]; rfl

theorem failsAt_ne_nil (t : Tab W64) {lanes : List LaneReq} (nonempty : lanes ≠ []) : failsAt t lanes ≠ [] := by
  obtain ⟨q, hq⟩ := List.exists_mem_of_ne_nil lanes nonempty
  intro none
  have present := look_failsAt t hq
  rw [none] at present
  exact Bool.noConfusion present

/-- What an access has become that has failed in some lanes. -/
def Access.failIn (a : Access) (c : Byte) (lanes : List LaneReq) : Access :=
  { a with
    waits := a.waits &&& ~~~ lanesOf (lanes.map LaneReq.lane), fails := failsAt a.fails lanes
    cause := if a.fails.isEmpty || c = 4 then c else a.cause }

theorem failLanes_eq (s : State) (g id : Nat) (c : Byte) (lanes : List LaneReq) :
    s.failLanes g id c lanes = (s.modGroup g fun G => G.modAccess id fun a => a.failIn c lanes).answered g id := rfl

/-- A failed access of a running group stands until its path traps. -/
theorem answered_failed {s : State} {g id : Nat} {a : Access} (ha : (s.grpOf g).access? id = some a) (harms : (s.grpOf g).arms ≠ [])
    (hfails : a.fails ≠ []) : s.answered g id = s := by
  unfold State.answered
  rw [ha]
  dsimp only
  by_cases waiting : a.waits != 0
  · rw [if_pos waiting]
  · rw [if_neg waiting, if_neg (by simp [harms]), if_pos (by simp [hfails])]

/-- Where a group runs, the record of an access that fails in some lanes stands with them. -/
theorem access?_failLanes {s : State} {g id : Nat} {a : Access} (ha : (s.grpOf g).access? id = some a) (harms : (s.grpOf g).arms ≠ [])
    (c : Byte) {lanes : List LaneReq} (nonempty : lanes ≠ []) :
    ((s.failLanes g id c lanes).grpOf g).access? id = some (a.failIn c lanes) := by
  have grp := grpOf_modGroup s g (fun G => G.modAccess id fun a => a.failIn c lanes) (by rw [group?_of_access ha]; rfl)
  have failed : ((s.modGroup g fun G => G.modAccess id fun a => a.failIn c lanes).grpOf g).access? id = some (a.failIn c lanes) := by
    rw [grp, access?_modAccess _ id (fun a => a.failIn c lanes) fun _ => rfl, ha]; rfl
  rw [failLanes_eq, answered_failed failed (by rw [grp]; exact harms) (failsAt_ne_nil _ nonempty)]
  exact failed

/-! ## The events of negative replies (R212, R213, R221, R229, R262, R267) -/

section
variable {s : State} {k : Nat} {p : Packet} (hp : s.packet? k = some p)
include hp

/-- A fault is waited for, or met as it was resolved. -/
theorem exec_nrFault_waits {h q : Nat} (hphase : p.phase = .landed (.nrFault h q)) (hkind : ∀ b, p.kind ≠ .pref b) :
    exec (.nrFault k) s = .next (s.modPacket k fun p =>
      { p with phase := (look (s.home h).resolved q).elim (.faulted h q) .signalled }) := by
  show execNrFault k s = _
  unfold execNrFault
  rw [hp]
  cases kind : p.kind with
  | pref b => exact absurd kind (hkind b)
  | load | store | atom =>
    simp only [hphase, Bool.false_eq_true, if_false]
    cases look (s.home h).resolved q <;> rfl

theorem exec_nrFault_pref {h q : Nat} {b : Bool} (hphase : p.phase = .landed (.nrFault h q)) (hkind : p.kind = .pref b) :
    exec (.nrFault k) s = .next (s.dropPacket k) := by
  show execNrFault k s = _
  unfold execNrFault
  rw [hp]
  simp only [hphase, hkind, if_true]

/-- A stale key is checked anew where the core's turnstile has been reloaded since, and that once. -/
theorem exec_nrKey {g id : Nat} (hphase : p.phase = .landed .nrKey) (hown : p.own = .access g id) :
    exec (.nrKey k) s = .next (
      if p.keyTries = 0 && get 0 (s.core p.core).reloads p.dom != p.checkedAt then
        (s.coreCheck p.core (s.grpOf g).launch p.acc p.addr).elim (s.failPacket k p 4) fun key =>
          (s.modPacket k fun x => { x with key := key, keyTries := 1, checkedAt := get 0 (s.core p.core).reloads p.dom }).replay k
      else s.failPacket k p 5) := by
  show execNrKey k s = _
  unfold execNrKey
  rw [hp]
  simp only [hphase, hown]
  cases s.coreCheck p.core (s.grpOf g).launch p.acc p.addr <;> rfl

theorem exec_nrKey_anew {g id : Nat} (hphase : p.phase = .landed .nrKey) (hown : p.own = .access g id) (first : p.keyTries = 0)
    (reloaded : get 0 (s.core p.core).reloads p.dom ≠ p.checkedAt) :
    exec (.nrKey k) s = .next ((s.coreCheck p.core (s.grpOf g).launch p.acc p.addr).elim (s.failPacket k p 4) fun key =>
      (s.modPacket k fun x => { x with key := key, keyTries := 1, checkedAt := get 0 (s.core p.core).reloads p.dom }).replay k) :=
  (exec_nrKey hp hphase hown).trans (congrArg Host.Outcome.next (if_pos (by simp [first, reloaded])))

theorem exec_nrBusy (hphase : p.phase = .landed .nrBusy) :
    exec (.nrBusy k) s = .next ((s.modPacket k fun p => { p with phase := .busy s.busyUntil }).next) := by
  show execNrBusy k s = _
  unfold execNrBusy
  rw [hp]
  simp only [hphase]

theorem exec_nrBusyReplay {t : Nat} (hphase : p.phase = .busy t) :
    exec (.nrBusyReplay k) s = .next (if t ≤ s.now then s.replay k else s) := by
  show execNrBusyReplay k s = _
  unfold execNrBusyReplay
  rw [hp]
  simp only [hphase]

theorem exec_nrRedirect {gen : W16} (hphase : p.phase = .landed (.nrRedirect gen)) :
    exec (.nrRedirect k) s = .next (if genOlder (s.core p.core).smgen gen then s.modPacket k fun p => { p with phase := .redirected gen }
      else s.replay k) := by
  show execNrRedirect k s = _
  unfold execNrRedirect
  rw [hp]
  simp only [hphase]

theorem exec_faultResolvedSignal {fail : Bool} (hphase : p.phase = .signalled fail) :
    exec (.faultResolvedSignal k) s = .next (if fail then s.failPacket k p 5 else s.replay k) := by
  show execFaultResolvedSignal k s = _
  unfold execFaultResolvedSignal
  rw [hp]
  simp only [hphase]
  cases fail <;> rfl

theorem exec_errorResponse (hphase : p.phase = .landed .err) :
    exec (.errorResponse k) s = .next ((s.finalLate p).failPacket k p 5) := by
  show execErrorResponse k s = _
  unfold execErrorResponse
  rw [hp]
  simp only [hphase]

end

/-- A reply in time is not counted (R309). -/
theorem finalLate_inTime (s : State) {p : Packet} (hlate : p.late = false) : s.finalLate p = s := by
  have inTime : ∀ g a, s.replyLate g a p = s := fun g a => by rw [State.replyLate, hlate]; rfl
  unfold State.finalLate
  cases p.own with
  | access g id =>
    show (((s.grpOf g).access? id).map fun a => s.replyLate g a p).getD s = s
    cases (s.grpOf g).access? id with
    | none => rfl
    | some a => exact inTime g a
  | _ => rfl

/-- Settles O48: each event by its equation, the replay by `packet?_replay`, the failure by `access?_failLanes`. -/
theorem negativeReplies : Obligations.NegativeReplies := by
  intro s k h q g id t p gen hp
  refine ⟨fun hkind hphase => ?fault, fun b hkind hphase => exec_nrFault_pref hp hphase hkind, fun hphase hown => ?stale,
    fun key hphase hown first reloaded checked => ?anew, fun hphase => ?busy, fun hphase => ?wait, fun hphase => ?redirect,
    fun hphase => exec_faultResolvedSignal hp hphase, packet?_replay hp, fun hphase => exec_faultResolvedSignal hp hphase,
    fun hphase hlate => ?error, fun hown hkind c => failPacket_none s k c hkind hown, fun a c hown hkind ha harms hlanes => ?lanes⟩
  case fault =>
    have waits := exec_nrFault_waits hp hphase hkind
    exact ⟨fun unresolved => by rw [waits, unresolved]; rfl, fun fail resolved => by rw [waits, resolved]; rfl⟩
  case stale =>
    refine ⟨fun again => ?_, fun first reloaded checked => ?_⟩
    · exact (exec_nrKey hp hphase hown).trans (congrArg Host.Outcome.next (if_neg (by simp [again])))
    · rw [exec_nrKey_anew hp hphase hown first reloaded, checked]; rfl
  case anew => rw [exec_nrKey_anew hp hphase hown first reloaded, checked]; rfl
  case busy => exact ⟨_, exec_nrBusy hp hphase, congrArg (Option.map Packet.phase) (packet?_modPacket s hp _), busyUntil_bounds s⟩
  case wait =>
    rw [exec_nrBusyReplay hp hphase]
    exact ⟨fun early => congrArg Host.Outcome.next (if_neg (Nat.not_le.mpr early)), fun due => congrArg Host.Outcome.next (if_pos due)⟩
  case redirect =>
    rw [exec_nrRedirect hp hphase]
    exact ⟨fun older => congrArg Host.Outcome.next (if_pos older), fun current => congrArg Host.Outcome.next (if_neg (by simp [current]))⟩
  case error => rw [exec_errorResponse hp hphase, finalLate_inTime s hlate]
  case lanes =>
    have failed := failPacket_access s k c hkind hown
    refine ⟨failed, a.failIn c p.lanes, ?_, rfl, fun l hl => ?_⟩
    · rw [failed]
      exact access?_failLanes (s := s.dropPacket k) ha harms c hlanes
    · obtain ⟨x, hx, rfl⟩ := List.mem_map.mp hl
      exact look_failsAt a.fails hx

end Sys2Proof.Machine

/-!
PROOFS. O47 (R220, R221, R228, R230, R233 to R235, R306): what a unit does with a request that its memory queue grants, with one that has
waited for copies or replicas, and with a line of a running clear.
-/

namespace Sys2Proof.Machine

/-! ## Answers (R306, R307) -/

/-- Only a stream's request goes back to its engine; any other is answered. -/
theorem turnAway_reply (s : State) (u k : Nat) (v : Reply) {p : Packet} (own : ∀ id, p.own ≠ .stream id) :
    s.turnAway u k p v = s.replyTo u k v := by
  unfold State.turnAway
  cases h : p.own with
  | stream id => exact absurd h (own id)
  | _ => rfl

theorem packet?_replyTo {s : State} {k : Nat} {p : Packet} (hp : s.packet? k = some p) (u : Nat) (v : Reply) :
    (s.replyTo u k v).packet? k = some (if s.roomAt (routeBack p.core u) then { p with phase := .back v, route := routeBack p.core u }
      else { p with phase := .ready v, route := [.homeMem u] }) := packet?_modPacket s hp _

/-! ## Requests performed at a home (R228, R230, R233) -/

/-- A request under a leaf of the first tier needs no port. -/
theorem needsPort_stack (s : State) {l : Nat} (stack : leafAper l = 1) (p : Packet) : s.needsPort l p = false := by
  unfold State.needsPort
  cases p.kind <;> simp [stack]

/-- An admitted request under a leaf of the first tier is performed at once, where it has waited for replicas or need not. -/
theorem serveAt_stack {s r : State} {u k la l : Nat} {p : Packet} {ready : Bool} (admitted : s.checkIn p.home p = (r, .leaf la l))
    (stack : leafAper l = 1) (loud : ∀ t, p.phase ≠ .silent t) (alone : ready = true ∨ r.waitsForReplicas l p = false) :
    s.serveAt u k p ready = r.next.performAt u k p la l := by
  have waits : (!ready && r.waitsForReplicas l p) = false := by rcases alone with h | h <;> simp [h]
  unfold State.serveAt
  rw [admitted]
  -- `loud` rules out the branch of a request that an expander has left without an answer
  simp [waits, stack, needsPort_stack r stack p]

/-- A request to a structure page that has waited for the copies of a page is performed at its frame. -/
theorem serveAt_struct {s r : State} {u k : Nat} {p : Packet} (admitted : s.checkIn p.home p = (r, .struct)) :
    s.serveAt u k p true = r.structAt u k p := by
  unfold State.serveAt
  rw [admitted]
  rfl

theorem structAt_store {s t : State} {u k : Nat} {p : Packet} {vs : List (Nat × W64)} (store : p.kind = .store)
    (stored : s.structLanes p.home p p.lanes = (t, vs)) : s.structAt u k p = (t.settleL1 p).replyTo u k (.ok vs 0) := by
  unfold State.structAt
  simp [stored, store]

/-- A request that its sector does not keep is performed at its home, and answered. A store's words then stand unowned in its core's L1, and
an atomic's line is dropped there; the sector drops its copy for both. -/
theorem performAt_home {s t : State} {u k la l : Nat} {p : Packet} {v : Reply} (leaves : s.keepsInSector u l p = false) (plain : p.acq = false)
    (performed : (s.next.flushRsc (coreSector p.core) (sameLine p.addr)).perform p.home la l p = (t, v)) :
    ∃ w, s.performAt u k p la l = w.replyTo u k v ∧ (p.kind = .store → w = (t.dropInSector p).settleL1 p)
      ∧ ∀ op, p.kind = .atom op → w = (t.dropInSector p).dropInCore p := by
  unfold State.performAt
  simp only [leaves, performed, plain, Bool.false_eq_true, if_false, Bool.false_and]
  cases p.kind with
  | store => exact ⟨_, rfl, fun _ => rfl, nofun⟩
  | atom op => exact ⟨_, rfl, nofun, fun _ _ => rfl⟩
  | load | pref => exact ⟨_, rfl, nofun, nofun⟩

/-! ## `HOME_REQUEST_SERVICE` (R220, R228, R235) -/

section
variable {s r : State} {u k : Nat} {p : Packet} (granted : s.arbitrate (.homeMem u) (s.servable u) = some (r, k, p))
include granted

/-- A request that arrives is redirected, told that its home is busy, or served. -/
theorem exec_homeRequestService_going (going : p.phase = .going) (own : ∀ id, p.own ≠ .stream id) :
    exec (.homeRequestService u) s = .next (
      if genOlder p.smgen r.fw.smgen || unitOf r.fw p.home != u then r.replyTo u k (.nrRedirect r.fw.smgen)
      else if (r.home p.home).hold then r.replyTo u k .nrBusy
      else r.serveAt u k p false) := by
  show execHomeRequestService u s = _
  unfold execHomeRequestService
  rw [granted]
  simp only [going, turnAway_reply r u k _ own]
  cases h : p.own with
  | stream id => exact absurd h (own id)
  | _ => rfl

/-- A store that its sector has kept goes home. -/
theorem exec_homeRequestService_kept {a b : Nat} (kept : p.phase = .kept a b) (here : p.dev = r.fw.dev) :
    exec (.homeRequestService u) s = .next (r.flushRsc (coreSector p.core) (sameLine p.addr)) := by
  show execHomeRequestService u s = _
  unfold execHomeRequestService
  rw [granted]
  simp only [kept, if_pos here]

theorem exec_homeRequestService_ready {v : Reply} (ready : p.phase = .ready v) :
    exec (.homeRequestService u) s = .next (r.replyTo u k v) := by
  show execHomeRequestService u s = _
  unfold execHomeRequestService
  rw [granted]
  simp only [ready]

end

/-! ## Waiting for copies and replicas (R233) -/

section
variable {s : State} {k : Nat} {p : Packet} (hp : s.packet? k = some p)
include hp

theorem exec_leafStore (leaf : p.phase = .leaf) :
    exec (.leafStore k) s
      = .next (if s.leavesShared p then s.modPacket k fun p => { p with phase := .replica } else s.serveAt p.unit k p true) := by
  show execLeafStore k s = _
  unfold execLeafStore
  rw [hp]
  simp only [leaf]

theorem exec_replicaInvalidation (replica : p.phase = .replica) : exec (.replicaInvalidation k) s = .next (s.serveAt p.unit k p true) := by
  show execReplicaInvalidation k s = _
  unfold execReplicaInvalidation
  rw [hp]
  simp only [replica]

end

/-! ## `UNSCRUBBED_CLEAR_LINE` (R234) -/

theorem exec_unscrubbedClearLine {s : State} {h la l : Nat} {x : Clear} (only : (s.home h).clears = [x])
    (mapped : s.leafOf h (x.page * 65536) = some (la, l)) : exec (.unscrubbedClearLine h) s = .next (s.next.clearLine h x l) := by
  have picked : s.pick 1 = 0 := Nat.mod_one _
  show execUnscrubbedClearLine h s = _
  unfold execUnscrubbedClearLine
  simp [only, picked, mapped]

/-- A clear that is not at its last line goes on to the next. -/
theorem clearNext_more (s : State) (h : Nat) {x : Clear} (more : x.next + 1 < 1024) :
    s.clearNext h x = s.modHome h fun hm => { hm with
      clears := hm.clears.filterMap fun y => if y.page == x.page then some { x with next := x.next + 1 } else some y } := by
  unfold State.clearNext
  simp only [if_pos more]

/-- Zeros stand in a line that has not been written since the clear began. -/
theorem clearLine_here (s : State) {h l kk : Nat} {x : Clear} (fresh : x.next ∉ x.written)
    (place : physKey h l (x.page * 65536 + 64 * x.next) = some kk) :
    s.clearLine h x l = (s.setMem ((s.mem.store kk (List.replicate 64 0)).keepSlice
      fun y => lineOf y != x.page * 65536 + 64 * x.next)).clearNext h x := by
  unfold State.clearLine
  simp [fresh, place]

theorem clears_clearNext {s : State} {h : Nat} {x : Clear} (only : (s.home h).clears = [x]) (more : x.next + 1 < 1024) :
    ((s.clearNext h x).home h).clears = [{ x with next := x.next + 1 }] := by
  rw [clearNext_more s h more, home_modHome, if_pos rfl]
  simp [only]

/-- Settles O47: the grant by its equation for each phase, the service under a leaf by `serveAt_stack` and `performAt_home`, a store to a
structure page by `structAt_store`, a clear by `clearLine_here`. -/
theorem homeService : Obligations.HomeService := by
  intro s r u k h p x la l
  refine ⟨fun granted going own => ?granted, fun _ _ granted kept here => exec_homeRequestService_kept granted kept here,
    fun _ granted ready => exec_homeRequestService_ready granted ready, fun v hp => packet?_replyTo hp u v, fun hp leaf => ?leaf,
    fun hp replica => ?replica, fun only mapped => ?clear⟩
  case granted =>
    have service := exec_homeRequestService_going granted going own
    refine ⟨fun astray => service.trans (congrArg Host.Outcome.next (if_pos (by simpa using astray))), fun current at_ => ?_⟩
    rw [if_neg (by simp [current, at_])] at service
    refine ⟨fun hold => service.trans (congrArg Host.Outcome.next (if_pos hold)), fun free => ?_⟩
    rw [if_neg (by simp [free])] at service
    refine ⟨service, fun r' t v admitted stack alone leaves plain performed => ?_⟩
    rw [service, serveAt_stack admitted stack (by simp [going]) (.inr alone)]
    obtain ⟨w, answer, copies⟩ := performAt_home (u := u) (k := k) leaves plain performed
    exact ⟨w, congrArg Host.Outcome.next answer, copies⟩
  case leaf =>
    have store := exec_leafStore hp leaf
    refine ⟨fun shared => store.trans (congrArg Host.Outcome.next (if_pos shared)), fun unshared => ?_⟩
    rw [if_neg (by simp [unshared])] at store
    refine ⟨store, fun r' t vs admitted _ kind stored => ?_⟩
    rw [store, serveAt_struct admitted, structAt_store kind stored]
  case replica =>
    have served := exec_replicaInvalidation hp replica
    refine ⟨served, fun r' admitted stack => ?_⟩
    rw [served, serveAt_stack admitted stack (by simp [replica]) (.inl rfl)]
  case clear =>
    have line := exec_unscrubbedClearLine only mapped
    refine ⟨line, fun kk fresh place more => ⟨_, line, ?_⟩⟩
    rw [clearLine_here s.next fresh place]
    refine ⟨?_, clears_clearNext only more, ?_⟩ <;> rw [clearNext_more _ h more] <;> rfl

end Sys2Proof.Machine

/-!
PROOFS. O49 (R220, R221, R235, R236, R333): the slice map as the controller changes it and the cores take it, a unit that is retired, and a
turnstile that is reloaded.
-/

namespace Sys2Proof.Machine

/-! ## Homes changed one after another -/

/-- Some homes change, each as the state then gives it. -/
def State.modHomes (s : State) (hs : List Nat) (f : State → Nat → Home → Home) : State := hs.foldl (fun s h => s.modHome h (f s h)) s

theorem modHomes_rest (s : State) (hs : List Nat) (f : State → Nat → Home → Home) : { s.modHomes hs f with homes := s.homes } = s :=
  foldl_keeps (P := fun r : State => { r with homes := s.homes } = s) (fun s h => s.modHome h (f s h)) (fun _ _ same => same) hs rfl

/-- What every change gives its home, each changed home has in the end. -/
theorem home_modHomes {P : Home → Prop} {f : State → Nat → Home → Home} (hf : ∀ s h hm, P (f s h hm)) {hs : List Nat} {h : Nat}
    (mem : h ∈ hs) (s : State) : P ((s.modHomes hs f).home h) := by
  refine foldl_reaches (Q := fun _ => True) (P := fun t : State => P (t.home h)) _ (fun _ _ _ => trivial) (fun t x kept => ?_)
    (fun t _ => ?_) mem trivial
  · rw [home_modHome]
    split
    · exact hf _ _ _
    · exact kept
  · rw [home_modHome, if_pos rfl]
    exact hf _ _ _

/-! ## The controller and the cores (R220, R221) -/

theorem exec_sliceMapChange {s : State} {home unit : Nat} (logical : home < 192) (real : unit < 192) (near : unitSector home = unitSector unit)
    (working : s.fw.retired.contains unit = false) (installed : s.allInstalled = true) (idle : s.fw.retiring = none)
    (moves : unitOf s.fw home ≠ unit) : exec (.sliceMapChange home unit) s = .next (s.assign [home] unit) := by
  have present : unit ∉ s.fw.retired := by simpa using working
  show execSliceMapChange home unit s = _
  unfold execSliceMapChange
  rw [if_neg (by simp [logical, real, near, present, installed, idle, moves])]

theorem exec_sliceMapInstall (s : State) {core : Nat} (real : core < 384) :
    exec (.sliceMapInstall core) s = .next (s.modCore core fun K => { K with smap := s.fw.smap, smgen := s.fw.smgen }) := by
  show execSliceMapInstall core s = _
  unfold execSliceMapInstall
  rw [if_neg (Nat.not_le.mpr real)]

/-! ## Retirement (R235) -/

/-- The homes of a unit stand at another, and are held. -/
def State.handHomes (s : State) (u t : Nat) : State :=
  let moved := s.assign (s.homesOf u) t
  (moved.setFw { moved.fw with retiring := some (u, t) }).modHomes (s.homesOf u) fun _ _ hm => { hm with hold := true }

theorem handHomes_net (s : State) (u t : Nat) : (s.handHomes u t).net = s.net :=
  (congrArg State.net (modHomes_rest _ (s.homesOf u) _) :)

/-- With no packet under way, none is turned away. -/
theorem exec_unitRetirement {s : State} {home unit : Nat} (old : home < 192) (new : unit < 192) (other : home ≠ unit)
    (near : unitSector home = unitSector unit) (whole : s.fw.retired = []) (idle : s.fw.retiring = none) (installed : s.allInstalled = true)
    (empty : s.net.packets = []) :
    exec (.unitRetirement home unit) s
      = .next (((s.handHomes home unit).emptyUnit home (s.homesOf home)).refault (s.homesOf home)) := by
  have under : (s.handHomes home unit).net.packets = [] := by rw [handHomes_net, empty]
  show execUnitRetirement home unit s = _
  unfold execUnitRetirement
  rw [if_neg (by simp [whole, idle, installed, near, other, old, new])]
  show Host.Outcome.next (((((s.handHomes home unit).net.packets.filter _).foldl _ (s.handHomes home unit)).emptyUnit home _).refault _) = _
  rw [under]
  rfl

/-- A home that has been taken over is served again, with its faults as they were handed over, or as their records give them. -/
def State.takenOver (s : State) (h : Nat) (hm : Home) : Home :=
  { hm with hold := false, faults := if s.pick 2 = 1 && (s.structKey h (pageOf hm.fq)).isSome then s.faultsOf h else hm.faults }

theorem exec_retirementTakeover {s : State} {u t : Nat} (retiring : s.fw.retiring = some (u, t)) :
    exec (.retirementTakeover t) s = .next (
      let served := s.modHomes (s.homesOf t) State.takenOver
      served.next.setFw { served.fw with retiring := none, retired := u :: served.fw.retired }) := by
  show execRetirementTakeover t s = _
  unfold execRetirementTakeover
  rw [retiring]
  exact congrArg Host.Outcome.next (if_neg (by simp))

/-! ## Turnstiles (R333) -/

theorem exec_turnstileReload {s r : State} {core d : Nat} {ds : List Nat} {b : List Byte} (stale : s.staleTs core = d :: ds)
    (read : s.readImage core d = (r, .ok b)) : exec (.turnstileReload core) s = .next (r.setTs core d b true) := by
  show execTurnstileReload core s = _
  unfold execTurnstileReload
  simp only [stale, read]

/-- Settles O49: each event by its equation; the homes taken over by `home_modHomes`. -/
theorem sliceMap : Obligations.SliceMap := by
  intro s r home unit t core d ds b
  refine ⟨fun logical real near working installed idle moves => exec_sliceMapChange logical real near working installed idle moves,
    fun real => ?install, fun old new other near whole idle installed empty => ?retire, fun retiring => ?takeover,
    fun stale read => exec_turnstileReload stale read⟩
  case install =>
    refine ⟨_, exec_sliceMapInstall s real, ?_, ?_, fun k other => ?_, rfl⟩
    · rw [core_modCore_same]
    · rw [core_modCore_same]
    · rw [core_modCore, if_neg other]
  case retire => exact ⟨_, exec_unitRetirement old new other near whole idle installed empty, rfl⟩
  case takeover =>
    have rest := modHomes_rest s (s.homesOf t) State.takenOver
    exact ⟨_, exec_retirementTakeover retiring, rfl, (congrArg (fun x : State => unit :: x.fw.retired) rest :),
      fun h mem => home_modHomes (P := fun hm => hm.hold = false) (f := State.takenOver) (fun _ _ _ => rfl) mem s,
      (congrArg State.groups rest :), (congrArg State.mem rest :)⟩

end Sys2Proof.Machine

/-!
PROOFS. O51 (R221, R299, R300, R306, R315): where a packet goes from the point that grants it, and the request that is held too long.
-/

namespace Sys2Proof.Machine

/-! ## From point to point (R299, R306) -/

/-- A packet that has a further point, and does not split there, goes on to it. -/
theorem hop_on (s : State) (k : Nat) {p : Packet} {y x : Point} {l : List Point} (route : p.route = y :: x :: l) (whole : p.splitsAt = none) :
    s.hop k p = s.modPacket k fun p => { p with route := x :: l } := by
  unfold State.hop
  rw [whole, route]
  cases p.phase <;> rfl

/-- A reply that has no further point has landed. -/
theorem hop_landed (s : State) (k : Nat) {p : Packet} {y : Point} {v : Reply} (back : p.phase = .back v) (last : p.route = [y]) :
    s.hop k p = s.modPacket k fun p => { p with phase := .landed v, route := [] } := by
  have whole : p.splitsAt = none := by unfold Packet.splitsAt; rw [back]
  unfold State.hop
  rw [whole, back, last]
  rfl

section
variable {p : Packet} {sid c x t out : Nat} {b : List Byte} {l : List BeatTo} (beat : p.phase = .beat sid c x b l)
include beat

/-- A copy of a beat that leaves the last crossbar reaches the router of its quad. -/
theorem hop_router (s : State) (k : Nat) (last : p.route = [.xbar t out]) :
    s.hop k p = s.beatLands k (8 * t + (out - 32)) sid c x b l p.late := by
  have whole : p.splitsAt = none := by unfold Packet.splitsAt; rw [beat, last]
  unfold State.hop
  rw [whole, beat, last]
  rfl

/-- A copy of a beat that comes to the crossbar of its sector from another splits for the quads there. -/
theorem hop_splits (s : State) (k : Nat) {y : Point} (last : p.route = [y, .xbar t out]) :
    s.hop k p = (s.setNet { s.net with packets := del s.net.packets k }).sendPackets (s.atCrossbar t p.home sid c x b l p.late) := by
  have splits : p.splitsAt = some t := by unfold Packet.splitsAt; rw [beat, last]
  have copies : s.splitBeat p t = s.atCrossbar t p.home sid c x b l p.late := by unfold State.splitBeat; rw [beat]
  unfold State.hop
  rw [splits]
  exact congrArg _ copies

end

/-! ## From the core (R221, R300) -/

/-- A request that no copy answers, and that neither writes nor releases, takes the core's map and goes on. -/
theorem leaveCore_unanswered {s : State} {p : Packet} (k : Nat) (noL1 : s.l1Hit p = false) (noRsc : s.rscHit p = false) (plain : p.rel = false)
    (other : p.kind ≠ .store) : s.leaveCore k p = (s.next.modPacket k fun _ => s.next.stamped p).hop k (s.next.stamped p) := by
  have sent : s.next.keepsFar p = false := by simp [State.keepsFar, other]
  unfold State.leaveCore
  simp [noL1, noRsc, plain, sent, other]

/-! ## `PACKET_GRANT` (R306) -/

theorem exec_packetGrant_core {s r : State} {n k c : Nat} {p : Packet} (point : s.points[n]? = some (.core c))
    (granted : s.arbitrate (.core c) (s.grantable (.core c)) = some (r, k, p)) : exec (.packetGrant n) s = .next (r.leaveCore k p) := by
  show execPacketGrant n s = _
  unfold execPacketGrant
  simp only [point, granted]

theorem exec_packetGrant_on {s r : State} {n k : Nat} {pt : Point} {p : Packet} (point : s.points[n]? = some pt)
    (granted : s.arbitrate pt (s.grantable pt) = some (r, k, p)) (away : ∀ c, pt ≠ .core c) : exec (.packetGrant n) s = .next (r.hop k p) := by
  show execPacketGrant n s = _
  unfold execPacketGrant
  cases pt with
  | core c => exact absurd rfl (away c)
  | _ => simp only [point, granted]

/-! ## `PACKET_LIFETIME_EXPIRY` (R315) -/

/-- A request that has left its core is bound for its device. -/
theorem boundFor_going {s : State} {p : Packet} (far : p.dev ≠ s.fw.dev) (going : p.phase = .going)
    (left : ∀ c, p.route.head? ≠ some (.core c)) : s.boundFor p = some p.dev := by
  unfold State.boundFor
  split
  next c _ at_ => exact absurd (by rw [at_]; rfl) (left c)
  next => rw [if_neg far]
  next l passing _ => rw [going] at passing; cases passing
  next none _ _ => exact absurd going none

/-- The request that stands for a discarded one, with no send left. -/
def Packet.lapsed (p : Packet) (k : Nat) : RemReq :=
  { dest := p.dev, body := .idle, sends := 4, sentAt := p.born + Config.us 24, for_ := .packet k, done := none
    failed := false, seen := 0, told := false, link := none, got := [], bad := [] }

theorem exec_packetLifetimeExpiry {s : State} {k : Nat} {p : Packet} (hp : s.packet? k = some p) (bound : s.boundFor p = some p.dev)
    (spent : p.born + lifetime ≤ s.now) (free : s.idFree = true) :
    exec (.packetLifetimeExpiry k) s = .next ((s.setFab { s.fab with
        nextId := (s.freeId + 1) % 16777216, used := s.fab.used ++ [(s.freeId, s.now)], reqs := put s.fab.reqs s.freeId (p.lapsed k) }).modPacket k
      fun p => { p with phase := .remote, remote := some s.freeId, route := [] }) := by
  show execPacketLifetimeExpiry k s = _
  unfold execPacketLifetimeExpiry
  simp only [hp, bound]
  rw [if_neg (by simp [free, spent])]
  rfl

/-- Settles O51: the grants and the expiry by their equations, the ways on by the lemmas of `hop` and `leaveCore`. -/
theorem packetMoves : Obligations.PacketMoves := by
  intro s r n k c pt p
  refine ⟨exec_packetGrant_on, exec_packetGrant_core, fun _ _ _ route whole => hop_on s k route whole,
    fun _ _ back last => hop_landed s k back last, leaveCore_unanswered k, fun _ _ _ _ _ _ _ beat last => hop_router beat s k last,
    fun _ _ _ _ _ _ _ _ beat last => hop_splits beat s k last, fun hp far going left spent free => ?expiry⟩
  case expiry =>
    exact ⟨_, exec_packetLifetimeExpiry hp (boundFor_going far going left) spent free,
      congrArg (Option.map Packet.phase) (packet?_modPacket _ hp _), rfl, rfl, p.lapsed k, look_put_same _ _ _, rfl, rfl⟩

end Sys2Proof.Machine

/-!
PROOFS. O31 (R253, R263, R264, R273, R279): fences, counted waits and `DISCARD`.
-/

namespace Sys2Proof.Machine

/-! ## Releases and acquires of a path (R253, R273, R279) -/

section
variable {s : State} {c : Cur} (fresh : c.path.prog = .none) (sc : Scope) (f : State → State)
include fresh

/-- A release that finds what it orders performed writes back what its scope does, and the instruction goes on. -/
theorem afterRelease_done (done : s.relDone c.g c.path.allLanes s.ids sc = true) : s.afterRelease c sc f = f (s.releaseAt c.core sc) := by
  unfold State.afterRelease
  rw [fresh]
  exact if_pos done

/-- A release that finds older accesses not performed sends off what its sector keeps for others, and its path tries again later. -/
theorem afterRelease_due (due : s.relDone c.g c.path.allLanes s.ids sc = false) :
    s.afterRelease c sc f = ((if 6 ≤ sc.rank then s.sendKept (coreSector c.core) fun _ => true else s).modPath c.g c.arm fun p =>
      { p with prog := .stage s.ids }).park c := by
  unfold State.afterRelease
  rw [fresh]
  exact if_neg (Bool.eq_false_iff.mp due)

end

theorem offMemory_groups : OffMemory State.groups :=
  ⟨fun _ _ => rfl, fun _ _ => rfl, fun _ _ => rfl, fun _ _ => rfl, fun _ _ => rfl, fun _ _ => rfl⟩

/-- What a waiting release sends off leaves every group. -/
theorem sentOff_groups (s : State) (sc : Scope) (sec : Nat) :
    (if 6 ≤ sc.rank then s.sendKept sec fun _ => true else s).groups = s.groups :=
  OffMemory.ite_same (offMemory_groups.sendKept s sec _) rfl

theorem fresh_mem (s : State) (core : Nat) : (s.fresh core).mem = s.mem := by
  unfold State.fresh; split <;> rfl

/-- From `.gang` on an acquire leaves its core's L1 the words that it owns, and every other core's (R273). -/
theorem invalidate_l1 (s : State) (core : Nat) {sc : Scope} (wide : 3 ≤ sc.rank) :
    (s.invalidate core sc).mem.l1 = keep (fun k w => k / 2 ^ 64 != core || w.own) s.mem.l1 := by
  rw [← fresh_mem s core]
  unfold State.invalidate
  simp only [if_pos wide]
  split <;> rfl

theorem invalidate_owned (s : State) (core : Nat) {sc : Scope} (wide : 3 ≤ sc.rank) :
    ∀ e ∈ (s.invalidate core sc).mem.l1, e.1 / 2 ^ 64 = core → e.2.own = true := by
  intro e he own
  rw [invalidate_l1 s core wide] at he
  obtain other | owned := (Bool.or_eq_true _ _).mp (List.mem_filter.mp he).2
  · exact absurd own (bne_iff_ne.mp other)
  · exact owned

/-! ## `FENCE` (R253) -/

/-- What a fence does once its release is done. -/
def State.fenceAfter (s : State) (c : Cur) (i : Instr) (o : Ord) (sc : Scope) : State :=
  if o.isAcq then (if c.grp.loadsDue c.path.allLanes s.ids then s.park c else (s.invalidate c.core sc).advance c i) else s.advance c i

section
variable {g : Guard} {s : State} {c : Cur} (sc : Scope) (slk : BitVec 4) (h : Fresh s c g true)
include h

theorem exec_fence (o : Ord) : exec (.fence g o sc slk) s = .next (
    if o.isRel then s.afterRelease c sc fun r => r.fenceAfter c (.fence g o sc slk) o sc else s.fenceAfter c (.fence g o sc slk) o sc) := by
  show execFence g o sc slk s = _
  rw [execFence, onPath_cur h.cur, once_fresh h]
  rfl

/-- A release that is done goes on with the acquire of its fence, if it is one. -/
theorem exec_fence_done {o : Ord} (rel : o.isRel = true) (done : s.relDone c.g c.path.allLanes s.ids sc = true) :
    exec (.fence g o sc slk) s = .next ((s.releaseAt c.core sc).fenceAfter c (.fence g o sc slk) o sc) := by
  rw [exec_fence sc slk h, if_pos rel, afterRelease_done h.prog sc _ done]

/-- A path whose release waits remembers what is older than it, and is parked. -/
theorem fence_waits {o : Ord} (rel : o.isRel = true) (due : s.relDone c.g c.path.allLanes s.ids sc = false) :
    Answers s (.fence g o sc slk) fun u =>
      u.pathOf c.g c.arm = { c.path with prog := .stage s.ids, st := .parked }
      ∧ Only (if 6 ≤ sc.rank then s.sendKept (coreSector c.core) fun _ => true else s) u c.g := by
  refine ⟨_, by rw [exec_fence sc slk h, if_pos rel, afterRelease_due h.prog sc _ due], ?_⟩
  have groups := sentOff_groups s sc (coreSector c.core)
  have there := cur_path?_of_groups h.cur groups
  refine ⟨?_, (Only.modGroup _ c.g _).trans (Only.modGroup _ c.g _)⟩
  rw [State.park, pathOf_modPath _ _ _ _ (path?_modPath_isSome there _ _), pathOf_modPath _ _ _ _ there,
    cur_pathOf_of_groups h.cur groups]

end

/-- The acquire of a fence that no older load holds back. -/
theorem fenceAfter_acquires {s r : State} {c : Cur} (hc : s.cur = some c) (hchip : c.path.onChip = true) (groups : r.groups = s.groups)
    (i : Instr) {o : Ord} (acq : o.isAcq = true) (sc : Scope) (here : c.grp.loadsDue c.path.allLanes r.ids = false) :
    Becomes (r.invalidate c.core sc) (r.fenceAfter c i o sc) c (c.nextPc i) c.grp := by
  unfold State.fenceAfter
  rw [if_pos acq, here]
  exact advance_becomes hc ((invalidate_groups r c.core sc).trans groups) hchip i

theorem Only.mem {s t : State} {g : Nat} (h : Only s t g) : t.mem = s.mem := by rw [← h.rest]

/-! ## `WAITC` (R264) -/

theorem exec_waitc {g : Guard} {s : State} {c : Cur} (l st cp tl : BitVec 8) (h : Fresh s c g false) :
    let n := s.counters c.g
    exec (.waitc g l st cp tl) s = .next (
      if n.1 ≤ l.toNat ∧ n.2.1 ≤ st.toNat ∧ n.2.2.1 ≤ cp.toNat ∧ n.2.2.2 ≤ tl.toNat then s.advance c (.waitc g l st cp tl)
      else s.park c) := by
  show execWaitc g l st cp tl s = _
  rw [execWaitc, onPath_cur h.cur, once_fresh h]
  simp only [Bool.and_eq_true, decide_eq_true_eq, and_assoc]

/-! ## `DISCARD` (R263) -/

/-- No line that is to be dropped is left in a slice. -/
theorem dropLines_slice (s : State) (dom : Nat) (p : Nat → Bool) : ∀ e ∈ (s.dropLines dom p).mem.slice, p e.1 = false := by
  intro e he
  unfold State.dropLines at he
  simpa using (List.mem_filter.mp he).2

/-- `DISCARD` reads the shape record of its object, and acts on its footprint. -/
def State.discardRead (s : State) (c : Cur) (i : Instr) (slk : BitVec 4) (n : Nat) : State :=
  match s.syncRead { key := [7, 12, c.g, c.arm], core := none, launch := 0, dom := 0 } 1 (bits (s.objEntry n) 128 64) 64 with
  | (s, .wait) => s.park c
  | (s, .fail x a) => s.trapGot c x a
  | (r, .ok b) => r.discardHere c i slk n (s.domOf c.grp.launch) (footprint (ofBytes b))

section
variable {g : Guard} {slk : BitVec 4} {a : BitVec 5} {s : State} {c : Cur} (h : Fresh s c g true)
  (quiet : (c.grp.accs.all fun x => x.lanes &&& c.path.allLanes == 0) = true)
include h quiet

/-- A `DISCARD` that no older access of its path holds back, case by case. -/
theorem exec_discard : exec (.discard g slk a) s = .next (
    let n := (c.grp.kr a).toNat
    if n = 0 || 4096 ≤ n then s.illegal c
    else if !objV (s.objEntry n) then s.advance c (.discard g slk a)
    else if s.domOf c.grp.launch != bits (s.objEntry n) 48 16 && s.domOf c.grp.launch != 0 then
      s.trapAt c 4 (some (w64 (bits (s.objEntry n) 128 64)))
    else s.discardRead c (.discard g slk a) slk n) := by
  have none : (c.grp.accs.any fun x => x.lanes &&& c.path.allLanes != 0) = false := by
    simpa [List.any_eq_false] using quiet
  show execDiscard g slk a s = _
  rw [execDiscard, onPath_cur h.cur, h.prog]
  dsimp only
  rw [once_fresh h, none]
  rfl


theorem discard_noObject (out : (c.grp.kr a).toNat = 0 ∨ 4096 ≤ (c.grp.kr a).toNat) :
    exec (.discard g slk a) s = .next (s.trapAt c 1 none) :=
  (exec_discard h quiet).trans (congrArg _ (if_pos (by simpa using out)))

variable (least : (c.grp.kr a).toNat ≠ 0) (most : (c.grp.kr a).toNat < 4096)
include least most

theorem exec_discard_object : exec (.discard g slk a) s = .next (
    let e := s.objEntry (c.grp.kr a).toNat
    if !objV e then s.advance c (.discard g slk a)
    else if s.domOf c.grp.launch != bits e 48 16 && s.domOf c.grp.launch != 0 then s.trapAt c 4 (some (w64 (bits e 128 64)))
    else s.discardRead c (.discard g slk a) slk (c.grp.kr a).toNat) :=
  (exec_discard h quiet).trans (congrArg _ (if_neg (by simp [least, most])))

theorem discard_invalid (invalid : objV (s.objEntry (c.grp.kr a).toNat) = false) :
    Answers s (.discard g slk a) fun u => PathDone s u c (c.nextPc (.discard g slk a)) := by
  refine ⟨_, (exec_discard_object h quiet least most).trans (congrArg _ (if_pos ?_)), goto_done h.cur h.chip _⟩
  rw [invalid]; rfl

variable (valid : objV (s.objEntry (c.grp.kr a).toNat) = true)
include valid

theorem discard_foreign (other : s.domOf c.grp.launch ≠ bits (s.objEntry (c.grp.kr a).toNat) 48 16) (bound : s.domOf c.grp.launch ≠ 0) :
    exec (.discard g slk a) s = .next (s.trapAt c 4 (some (w64 (bits (s.objEntry (c.grp.kr a).toNat) 128 64)))) := by
  rw [exec_discard_object h quiet least most]
  dsimp only
  rw [valid, if_neg (by simp), if_pos (by simp [other, bound])]

/-- A `DISCARD` of an object of its domain whose shape record can be read. -/
theorem exec_discard_shape {z : State} {b : List Byte}
    (own : s.domOf c.grp.launch = bits (s.objEntry (c.grp.kr a).toNat) 48 16 ∨ s.domOf c.grp.launch = 0)
    (read : s.syncRead { key := [7, 12, c.g, c.arm], core := none, launch := 0, dom := 0 } 1
      (bits (s.objEntry (c.grp.kr a).toNat) 128 64) 64 = (z, .ok b)) :
    exec (.discard g slk a) s = .next
      (z.discardHere c (.discard g slk a) slk (c.grp.kr a).toNat (s.domOf c.grp.launch) (footprint (ofBytes b))) := by
  rw [exec_discard_object h quiet least most]
  dsimp only
  rw [valid, if_neg (by simp), if_neg (by simpa [or_iff_not_imp_left] using own), State.discardRead, read]

end

/-- The lines of a footprint, in pages that have not failed. -/
def footLines (f : Nat × Nat) (bad : List Nat) (x : Nat) : Bool :=
  lineOf f.1 ≤ x && x < lineOf f.2 + 64 && (footPages f).contains (pageOf x) && !bad.contains (pageOf x)

/-- Pages of a footprint that fail at their home. -/
def State.discardBad (s : State) (c : Cur) (dom : Nat) (f : Nat × Nat) : List Nat :=
  (footPages f).filter fun p => !s.discardOk c.core c.grp.launch dom p

/-- What is left when the lines of the pages that pass have been dropped. -/
def State.discarded (s : State) (c : Cur) (dom : Nat) (f : Nat × Nat) : State := s.dropLines dom (footLines f (s.discardBad c dom f))

/-- Where no page has failed, no line of the footprint is left in a slice. -/
theorem discarded_slice {s : State} {c : Cur} {dom : Nat} {f : Nat × Nat} (clean : s.discardBad c dom f = []) :
    ∀ e ∈ (s.discarded c dom f).mem.slice, ¬ (lineOf f.1 ≤ e.1 ∧ e.1 < lineOf f.2 + 64 ∧ pageOf e.1 ∈ footPages f) := by
  rintro e he ⟨low, high, page⟩
  have out := dropLines_slice s dom _ e he
  simp [clean, footLines, low, high, page] at out

/-- A `DISCARD` whose pages all stand here, and that asks nobody, drops the lines of those that pass, and traps on the lowest that fails. -/
theorem discardHere_alone {s : State} {c : Cur} {dom n : Nat} {f : Nat × Nat}
    (here : ∀ p ∈ footPages f, (s.coreCheck c.core c.grp.launch 2 (p * 65536)).isSome = true
      ∧ (homeOf s.fw (p * 65536)).map Prod.fst = some s.fw.dev)
    (alone : (s.discarded c dom f).discardAsks ((s.discarded c dom f).objEntry n) f = []) (i : Instr) (slk : BitVec 4) :
    s.discardHere c i slk n dom f = match (s.discardBad c dom f).head? with
      | some p => (s.discarded c dom f).trapAt c 5 (some (w64 (p * 65536)))
      | none => (s.discarded c dom f).advance c i := by
  have pass : ((footPages f).find? fun p => (s.coreCheck c.core c.grp.launch 2 (p * 65536)).isNone) = none :=
    List.find?_eq_none.mpr fun p hp => by simp [Option.isNone_eq_false_iff.mpr (here p hp).1]
  have all : ((footPages f).filter fun p => (homeOf s.fw (p * 65536)).any fun d => d.1 == s.fw.dev) = footPages f := by
    refine List.filter_eq_self.mpr fun p hp => ?_
    obtain ⟨d, home, dev⟩ := Option.map_eq_some_iff.mp (here p hp).2
    rw [home]; exact beq_iff_eq.mpr dev
  unfold State.discardHere
  dsimp only
  rw [pass]
  dsimp only
  rw [all]
  show (s.discarded c dom f).discardWait c i slk f n 0 (s.discardBad c dom f).head? = _
  unfold State.discardWait
  dsimp only
  rw [alone]
  rfl

/-- Settles O31: a fence, by what its release and its acquire find; a counted wait, by its counters; a `DISCARD`, by what its object and
its pages are. -/
theorem fencesAndWaits : Obligations.FencesAndWaits := by
  refine ⟨?fence, ?waitc, ?discard⟩
  case fence =>
    intro g o sc slk s c h
    refine ⟨?none, ?rel, ?acq, ?both, ?due, fence_waits sc slk h⟩
    case none =>
      rintro rfl
      exact ⟨_, exec_fence sc slk h .none, goto_done h.cur h.chip _⟩
    case rel =>
      rintro rfl done groups
      exact ⟨_, exec_fence_done sc slk h rfl done, advance_becomes h.cur groups h.chip _⟩
    case acq =>
      rintro rfl here
      have acquires := fenceAfter_acquires h.cur h.chip rfl (.fence g .acq sc slk) (o := .acq) rfl sc here
      exact ⟨_, exec_fence sc slk h .acq, acquires, fun wide => acquires.only.mem ▸ invalidate_owned s c.core wide⟩
    case both =>
      rintro rfl done here groups
      exact ⟨_, exec_fence_done sc slk h rfl done, fenceAfter_acquires h.cur h.chip groups _ rfl sc here⟩
    case due =>
      rintro rfl due
      have held : s.fenceAfter c (.fence g .acq sc slk) .acq sc = s.park c := if_pos due
      exact (exec_fence sc slk h .acq).trans (congrArg _ held)
  case waitc =>
    intro g l st cp tl s c h
    exact ⟨fun met => ⟨_, (exec_waitc l st cp tl h).trans (congrArg _ (if_pos met)), goto_done h.cur h.chip _⟩,
      fun unmet => (exec_waitc l st cp tl h).trans (congrArg _ (if_neg unmet))⟩
  case discard =>
    intro g slk a s c h quiet
    refine ⟨discard_noObject h quiet, discard_invalid h quiet, fun least most valid => ⟨discard_foreign h quiet least most valid,
      fun z b read own here alone => ?_⟩⟩
    have shape := exec_discard_shape (slk := slk) h quiet least most valid own read
    rw [discardHere_alone here alone] at shape
    refine ⟨fun (clean : z.discardBad c _ _ = []) groups => ?_, fun p (lowest : (z.discardBad c _ _).head? = some p) => ?_⟩
    · have becomes := advance_becomes h.cur groups h.chip (.discard g slk a)
      rw [clean] at shape
      exact ⟨_, shape, becomes, becomes.only.mem ▸ discarded_slice clean⟩
    · rw [lowest] at shape
      exact shape

end Sys2Proof.Machine

/-!
PROOFS. O29 (R61, R63, R245, R247, R253, R257): stores to local memory, and local accesses that wait at their core.
-/

namespace Sys2Proof.Machine

/-! ## Bytes of local memory, as atomics of `.gang` scope see them (R257) -/

/-- A byte of a core's local memory with the atomics under way performed. -/
def State.gangByte (s : State) (core k : Nat) : Byte := get 0 (storeAtoms core (s.quad (coreQuad core)).qau (s.core core).lmem) k

theorem gangRead_byte (s : State) (core k : Nat) : s.gangRead core k 1 = [s.gangByte core k] := gangRead_one s core k

theorem gangByte_of_gangRead {s t : State} {core k : Nat} (h : t.gangRead core k 1 = s.gangRead core k 1) :
    t.gangByte core k = s.gangByte core k := by
  rw [gangRead_byte, gangRead_byte] at h
  exact List.singleton_injective h

/-- What meets a byte meets every range that holds it. -/
theorem meets_wider {x : QAtom} {core a n i : Nat} (hi : i < n) (h : x.meets core (a + i) 1 = true) : x.meets core a n = true := by
  simp only [QAtom.meets, Bool.and_eq_true, decide_eq_true_eq] at h ⊢
  obtain ⟨⟨own, before⟩, after⟩ := h
  exact ⟨⟨own, by omega⟩, by omega⟩

/-- Bytes are read one by one: an atomic that meets none of them changes none of them. -/
theorem gangRead_bytes (s : State) (core a n : Nat) : s.gangRead core a n = (List.range n).map fun i => s.gangByte core (a + i) := by
  unfold State.gangRead getRange State.gangByte
  refine List.map_congr_left fun i hi => ?_
  have inside := List.mem_range.mp hi
  set l := (s.quad (coreQuad core)).qau
  set t := (s.core core).lmem
  have own : (l.filter fun x => x.meets core a n).filter (fun x => x.core == core) = l.filter fun x => x.meets core a n :=
    List.filter_eq_self.mpr fun x hx => by
      have meets := (List.mem_filter.mp hx).2
      simp only [QAtom.meets, Bool.and_eq_true] at meets
      exact meets.1.1
  have narrower : (l.filter fun x => x.meets core a n).filter (fun x => x.meets core (a + i) 1) = l.filter fun x => x.meets core (a + i) 1 := by
    rw [List.filter_filter]
    refine List.filter_congr fun x _ => ?_
    by_cases meets : x.meets core (a + i) 1 = true
    · rw [meets, meets_wider inside meets]; rfl
    · rw [Bool.eq_false_iff.mpr meets]; rfl
  have few := get_meets core (a + i) (l.filter fun x => x.meets core a n) (t := t) rfl
  rw [narrower, get_meets core (a + i) l (t := t) rfl] at few
  rw [few, storeAtoms, own]

/-- Atomics under way write over what stands in a byte, whatever else stands in the memory. -/
theorem get_storeAtoms_congr (core k : Nat) (l : List QAtom) {t u : Tab Byte} (h : get 0 t k = get 0 u k) :
    get 0 (storeAtoms core l t) k = get 0 (storeAtoms core l u) k :=
  (get_meets core k l rfl).symm.trans (get_meets core k l h)

theorem get_storeAtoms_missed {core k : Nat} {l : List QAtom} (h : ∀ x ∈ l, x.meets core k 1 = false) (t : Tab Byte) :
    get 0 (storeAtoms core l t) k = get 0 t k := by
  rw [← get_meets core k l (t := t) rfl, List.filter_eq_nil_iff.mpr fun x hx => by simp [h x hx]]
  rfl

/-! ## A write to local memory (R247, R257) -/

/-- What follows the last element that meets a test. -/
theorem drop_last_run {α : Type} (l : List α) (p : α → Bool) :
    l.drop (l.length - (l.reverse.takeWhile p).length) = (l.reverse.takeWhile p).reverse := by
  conv_rhs => rw [List.prefix_iff_eq_take.mp (List.takeWhile_prefix p (l := l.reverse)), List.reverse_take, List.reverse_reverse,
    List.length_reverse]

/-- The atomics still under way are those younger than every one that had to come to stand. -/
theorem landAtoms_qau (s : State) (q : Nat) (p : QAtom → Bool) :
    ((s.landAtoms q p).quad q).qau = ((s.quad q).qau.reverse.takeWhile fun x => !p x).reverse := by
  rw [← drop_last_run]
  unfold State.landAtoms
  dsimp only
  split
  · next all => rw [all, Nat.sub_self, List.drop_zero]
  · rw [quad_modQuad_same]
    exact congrArg (fun T => (get quadReset T q).qau.drop _) (quads_landAtom_foldl q _ s)

/-- An atomic that comes to stand is under way no more. -/
theorem landAtoms_lands (s : State) (q : Nat) (p : QAtom → Bool) : ∀ x ∈ ((s.landAtoms q p).quad q).qau, p x = false := by
  intro x hx
  rw [landAtoms_qau, List.mem_reverse] at hx
  simpa using List.mem_takeWhile_imp hx

theorem lmem_lmWrite (s : State) (core k a : Nat) (b : List Byte) : ((s.lmWrite core a b).core k).lmem
    = if k = core then setRange 0 (s.core core).lmem a b else (s.core k).lmem := by
  unfold State.lmWrite
  rw [core_modCore]
  split <;> rfl

/-- A write that no atomic under way meets stands in its bytes, and in no other. -/
theorem gangByte_lmWrite_same {s : State} {core a i : Nat} {b : List Byte} (h : ∀ x ∈ (s.quad (coreQuad core)).qau, x.meets core a b.length = false)
    (hi : i < b.length) : (s.lmWrite core a b).gangByte core (a + i) = b[i] := by
  have clear : ∀ x ∈ (s.quad (coreQuad core)).qau, x.meets core (a + i) 1 = false := fun x hx =>
    Bool.eq_false_iff.mpr fun meets => Bool.eq_false_iff.mp (h x hx) (meets_wider hi meets)
  unfold State.gangByte
  rw [lmem_lmWrite, if_pos rfl]
  exact (get_storeAtoms_missed clear _).trans (get_setRange_same 0 _ a i b hi)

theorem gangByte_lmWrite_other {s : State} {core a k x : Nat} {b : List Byte} (h : k ≠ core ∨ x < a ∨ a + b.length ≤ x) :
    (s.lmWrite core a b).gangByte k x = s.gangByte k x := by
  unfold State.gangByte
  rw [lmem_lmWrite]
  split
  · next own =>
    subst own
    exact get_storeAtoms_congr k x _ (get_setRange_other 0 _ a x b (h.resolve_left fun e => e rfl))
  · rfl

/-! ## Lanes of a store -/

theorem localAt_localsOf {s t : State} (h : s.localsOf t) (block x n : Nat) : t.localAt block x n = s.localAt block x n := by
  rw [← h]; rfl

@[simp] theorem length_toBytes (n x : Nat) : (toBytes n x).length = n := by simp [toBytes]

theorem localLane_nowhere {s : State} (g id : Nat) {block : Nat} {op : MemOp} {q : LaneReq}
    (gone : s.localAt block q.addr op.ty.size = none) : (s.localLane g id block op q).1 = s := by
  unfold State.localLane
  rw [gone]

section
variable {s : State} (g id block : Nat) {op : MemOp} (store : op.req = .store)
include store

/-- A lane of a store lets the atomics that it meets come to stand, and writes its bytes. -/
theorem localLane_store {q : LaneReq} {core a : Nat} (stands : s.localAt block q.addr op.ty.size = some (core, a)) :
    (s.localLane g id block op q).1
      = (s.landAtoms (coreQuad core) fun x => x.meets core a op.ty.size).lmWrite core a (toBytes op.ty.size q.c.toNat) := by
  unfold State.localLane
  rw [stands, store]
  rfl

theorem localsOf_localLane (s : State) (q : LaneReq) : s.localsOf (s.localLane g id block op q).1 := by
  cases stands : s.localAt block q.addr op.ty.size with
  | none => rw [localLane_nowhere g id stands]; rfl
  | some at_ =>
    rw [localLane_store g id block store stands]
    exact (localsOf_landAtoms s _ _).trans rfl

theorem localLane_writes {q : LaneReq} {core a : Nat} (stands : s.localAt block q.addr op.ty.size = some (core, a)) :
    (s.localLane g id block op q).1.gangRead core a op.ty.size = toBytes op.ty.size q.c.toNat := by
  rw [gangRead_bytes, localLane_store g id block store stands]
  have clear := landAtoms_lands s (coreQuad core) fun x => x.meets core a op.ty.size
  refine List.ext_getElem (by simp) fun i hi _ => ?_
  rw [List.getElem_map, List.getElem_range]
  exact gangByte_lmWrite_same (by simpa using clear) (by simpa using hi)

/-- A lane leaves every byte that it does not address. -/
theorem localLane_keeps {q : LaneReq} {k x : Nat}
    (missed : ∀ core a, s.localAt block q.addr op.ty.size = some (core, a) → k ≠ core ∨ x < a ∨ a + op.ty.size ≤ x) :
    (s.localLane g id block op q).1.gangByte k x = s.gangByte k x := by
  cases stands : s.localAt block q.addr op.ty.size with
  | none => rw [localLane_nowhere g id stands]
  | some at_ =>
    rw [localLane_store g id block store stands, gangByte_lmWrite_other (by simpa using missed _ _ stands)]
    exact gangByte_of_gangRead (gangRead_landAtoms _ _ _ _ _)

end

/-- Lanes act one after another. -/
theorem localLanes_foldl (s : State) (g id block : Nat) (op : MemOp) (rs : List LaneReq) :
    (s.localLanes g id block op rs).1 = rs.foldl (fun t q => (t.localLane g id block op q).1) s := by
  induction rs generalizing s with
  | nil => rfl
  | cons q r ih => exact ih _

section
variable (g id block : Nat) {op : MemOp} (store : op.req = .store)
include store

theorem localsOf_localLanes (s : State) (rs : List LaneReq) : s.localsOf (s.localLanes g id block op rs).1 := by
  rw [localLanes_foldl]
  exact foldl_keeps (P := fun t => s.localsOf t) _ (fun t q h => h.trans (localsOf_localLane g id block store t q)) _ rfl

theorem localLanes_keeps {s : State} {rs : List LaneReq} {k x : Nat}
    (missed : ∀ q ∈ rs, ∀ core a, s.localAt block q.addr op.ty.size = some (core, a) → k ≠ core ∨ x < a ∨ a + op.ty.size ≤ x) :
    (s.localLanes g id block op rs).1.gangByte k x = s.gangByte k x := by
  induction rs generalizing s with
  | nil => rfl
  | cons q r ih =>
    have rest := ih (s := (s.localLane g id block op q).1) fun p hp core a => by
      rw [localAt_localsOf (localsOf_localLane g id block store s q)]
      exact missed p (List.mem_cons_of_mem q hp) core a
    exact rest.trans (localLane_keeps g id block store (missed q List.mem_cons_self))

/-- The last lane that writes a word leaves its own. -/
theorem localLanes_last {s : State} {pre post : List LaneReq} {q : LaneReq} {core a : Nat}
    (stands : s.localAt block q.addr op.ty.size = some (core, a))
    (apart : ∀ r ∈ post, ∀ core' a', s.localAt block r.addr op.ty.size = some (core', a') →
      core' ≠ core ∨ a + op.ty.size ≤ a' ∨ a' + op.ty.size ≤ a) :
    (s.localLanes g id block op (pre ++ q :: post)).1.gangRead core a op.ty.size = toBytes op.ty.size q.c.toNat := by
  have first := localsOf_localLanes g id block store s pre
  set t := (s.localLanes g id block op pre).1 with ht
  set u := (t.localLane g id block op q).1 with hu
  have split : (s.localLanes g id block op (pre ++ q :: post)).1 = (u.localLanes g id block op post).1 := by
    rw [localLanes_foldl, List.foldl_append, List.foldl_cons, ← localLanes_foldl, ← localLanes_foldl]
  have writes : u.gangRead core a op.ty.size = _ := localLane_writes g id block store ((localAt_localsOf first _ _ _).trans stands)
  rw [split, ← writes, gangRead_bytes, gangRead_bytes]
  refine List.map_congr_left fun i hi => localLanes_keeps g id block store fun r hr core' a' at_ => ?_
  have inside := List.mem_range.mp hi
  rw [localAt_localsOf (first.trans (localsOf_localLane g id block store t q))] at at_
  have := apart r hr core' a' at_
  omega

end

/-! ## Local accesses (R242, R245, R253) -/

/-- A local access is made at once, or issues and waits at its core for older ones (R61, R63). -/
def State.doLocal (s : State) (c : Cur) (i : Instr) (op : MemOp) (rs : List LaneReq) (ws : List (Nat × Int)) : State :=
  if s.nearHeld memOpOf (s.nearOf c.g s.ids c.grp.block op (c.act op.guard) rs) then (s.sendNear c op (c.act op.guard) rs).advance c i
  else s.doNearby c i op (c.act op.guard) rs ws

/-- A local access that has passed its checks is made at once or waits at its core, once what it releases is done. -/
theorem doMem_loc {s : State} {c : Cur} {op : MemOp} {rs : List LaneReq} {ws : List (Nat × Int)} (h : MemReady s c op rs ws)
    (hloc : op.space = .loc) (hpoll : op.kind ≠ .poll) (hpref : op.isPref = false) (i : Instr) :
    s.doMem memOpOf c i op (c.act op.guard)
      = if op.ord.isRel then s.afterRelease c op.scope fun r => r.doLocal c i op rs ws else s.doLocal c i op rs ws := by
  unfold State.doMem
  simp only [h.asks, hpref, Bool.false_eq_true, if_false, hpoll, decide_false, Bool.false_and, h.checks, hloc]
  rfl

/-- An access that may be made now is made, its release done already. -/
theorem doMem_now {s : State} {c : Cur} {op : MemOp} {rs : List LaneReq} {ws : List (Nat × Int)} (h : MemReady s c op rs ws)
    (now : LocalNow s c op) (hloc : op.space = .loc) (hpoll : op.kind ≠ .poll) (hpref : op.isPref = false) (i : Instr) :
    s.doMem memOpOf c i op (c.act op.guard) = s.doNearby c i op (c.act op.guard) rs ws := by
  obtain ⟨free, release⟩ := now
  rw [if_pos hloc, h.asks] at free
  have made : s.doLocal c i op rs ws = s.doNearby c i op (c.act op.guard) rs ws := if_neg (Bool.eq_false_iff.mp free)
  rw [doMem_loc h hloc hpoll hpref i, ← made]
  split
  · next rel =>
    obtain ⟨done, nothing⟩ := release rel
    rw [afterRelease_done h.prog op.scope _ done, nothing]
  · rfl

/-- A store to local memory leaves no record: its lanes have written. -/
theorem doNearby_store {s : State} {c : Cur} {op : MemOp} (hc : s.cur = some c) (hloc : op.space = .loc) (hacq : op.ord.isAcq = false)
    (hlands : op.lands = false) (i : Instr) (act : Lanes) (rs : List LaneReq) (ws : List (Nat × Int)) :
    s.doNearby c i op act rs ws = (s.next.localLanes c.g s.ids c.grp.block op rs).1.advance c i := by
  have own : s.next.grpOf c.g = c.grp := cur_grpOf hc
  unfold State.doNearby State.nearby
  simp only [hloc, own, hacq, hlands, Bool.false_eq_true, if_false]
  rfl

theorem Only.gangRead {s t : State} {g : Nat} (h : Only s t g) (core a n : Nat) : t.gangRead core a n = s.gangRead core a n := by
  unfold State.gangRead; rw [h.core, h.quad]

/-- A path goes on from a later state as from an earlier one of the same turn. -/
theorem GoesOn.of_tick {s r u : State} {c : Cur} {pc : W64} (h : GoesOn r u c pc) (same : r.tick = s.tick) : GoesOn s u c pc := by
  have stands : c.at r pc = c.at s pc := by unfold Cur.at; rw [same]
  unfold GoesOn at h ⊢
  rwa [stands] at h

/-! ## Local accesses that wait at their core (R61, R63) -/

theorem sendNear_eq (s : State) (c : Cur) (op : MemOp) (rs : List LaneReq) :
    s.sendNear c op (c.act op.guard) rs = (s.modGroup c.g fun G => G.withAccess (c.record s.ids op rs) (c.act op.guard) op.ldst).next.sendPackets
      [s.nearOf c.g s.ids c.grp.block op (c.act op.guard) rs] := by
  unfold State.sendNear Group.withAccess
  cases op.ldst with
  | none => rfl
  | some d => simp only [lanePend_quiet]; rfl

/-- An access has been recorded: its record stands in its group, its destination is pending, its path goes on at `pc`, and besides only packets
have been queued. -/
structure Recorded (s u : State) (c : Cur) (op : MemOp) (rs : List LaneReq) (pc : W64) : Prop where
  path : GoesOn s u c pc
  others : ∀ x, x ≠ c.g → u.group? x = s.group? x
  record : ∃ n, { c.record s.ids op rs with arm := n } ∈ (u.grpOf c.g).accs
  pending : ∀ d, op.dst = some d → ∀ l ∈ (c.act op.guard).list, ∀ q ∈ dstLocs op.ty (c.grp.D l) d, (u.grpOf c.g).isPend l q.2 = true
  rest : { u with groups := s.groups, net := { u.net with packets := s.net.packets }, ids := s.ids } = s

/-- An access whose record stands in its group and whose packets are queued, when its path goes on. -/
theorem recorded_goes {s r : State} {c : Cur} {op : MemOp} {rs : List LaneReq} (hc : s.cur = some c) (hchip : c.path.onChip = true)
    (queued : Queued (s.modGroup c.g fun G => G.withAccess (c.record s.ids op rs) (c.act op.guard) op.ldst).next r) (pc : W64) :
    Moved r (r.goto c pc) c.g ∧ Recorded s (r.goto c pc) c op rs pc := by
  obtain ⟨-, hg, hp⟩ := cur_spec hc
  have pends := pendsOf_withAccess c.grp (c.record s.ids op rs) (c.act op.guard) op.ldst
  set K := c.grp.withAccess (c.record s.ids op rs) (c.act op.guard) op.ldst with hK
  have group? : ∀ x, r.group? x = if x = c.g then some K else s.group? x := fun x => by
    unfold State.group?
    rw [queued.groups]
    exact (group?_modGroup s c.g x _).trans (by rw [hg]; rfl)
  have own : r.group? c.g = some K := (group? c.g).trans (if_pos rfl)
  have grp : r.grpOf c.g = K := by unfold State.grpOf; rw [own]; rfl
  obtain ⟨harms, hrecon, hexited⟩ := pends.marks.stands
  obtain ⟨moved, goes⟩ := goto_of (s := s) own hp harms hrecon hexited queued.tick hchip pc
  refine ⟨moved, goes, fun x hx => ?others, ?record, fun d hd l hl q hq => ?pending, ?rest⟩
  case others => rw [moved.others x hx, group?, if_neg hx]
  case record =>
    have outstanding : K.accs = c.grp.accs ++ [c.record s.ids op rs] := by have q := congrArg Group.accs pends; exact q
    exact (grp ▸ moved.work).accs_mem (by rw [outstanding]; simp)
  case pending =>
    unfold Group.isPend
    rw [(rd_of_paths (grp ▸ moved.grp) l q.2).2, hK, show op.ldst = some (.reg op.ty d) by rw [MemOp.ldst, hd]; rfl]
    exact isPend_pendLanes (c.grp.addAccess _) _ (.reg op.ty d) hl hq
  case rest =>
    exact (congrArg (fun t : State =>
        { t with groups := s.groups, net := { t.net with packets := s.net.packets }, ids := s.ids }) moved.rest).trans
      (congrArg (fun t : State => { t with groups := s.groups, ids := s.ids }) queued.rest)

/-- Only global accesses wait for a value to change, or are prefetches. -/
theorem memOpOf_loc {i : Instr} {op : MemOp} (h : memOpOf i = some op) (hloc : op.space = .loc) : op.kind ≠ .poll ∧ op.isPref = false := by
  unfold memOpOf at h
  split at h <;> cases h
  case h_9 => cases hloc
  case h_10 => cases hloc
  all_goals exact ⟨nofun, rfl⟩

/-- Settles O29: a store's lanes write one after another (`localLanes_last`, `localLanes_keeps`); an access that must wait is recorded, and its
request stands at its core. -/
theorem localStores : Obligations.LocalStores := by
  refine ⟨?now, ?held⟩
  case now =>
    intro g t o sc slk m e s c rs ws i n h now acq
    have lanes := localsOf_localLanes c.g s.ids c.grp.block (op := stlOp g t o sc slk m e) rfl s.next rs
    set r := (s.next.localLanes c.g s.ids c.grp.block (stlOp g t o sc slk m e) rs).1 with hr
    have does : exec i s = .next (r.advance c i) := by
      have kind : (stlOp g t o sc slk m e).kind ≠ .poll := nofun
      rw [exec_mem h.cur rfl fun poll => absurd poll kind, issueMem_asked h.toMemAsked, doMem_now h now rfl kind rfl,
        doNearby_store h.cur rfl acq rfl]
    have groups : r.groups = s.groups := (congrArg State.groups lanes :)
    have becomes := advance_becomes h.cur groups h.chip i
    have rest : { r.advance c i with groups := s.groups, cores := s.cores, quads := s.quads, ids := s.ids } = s :=
      (congrArg (fun t : State => { t with groups := s.groups, cores := s.cores, quads := s.quads, ids := s.ids }) becomes.only.rest).trans
        (congrArg (fun t : State => { t with groups := s.groups, ids := s.ids }) lanes)
    refine ⟨_, does, becomes.path.of_tick (congrArg State.tick lanes :), ⟨becomes.work, becomes.grp⟩, rest, fun x hx => ?others,
      fun a k => (congrArg (fun t : State => t.peek a k) rest :), ?last, fun core x missed => ?kept⟩
    case others =>
      rw [becomes.only.others x hx, State.group?, groups]; rfl
    case last =>
      rintro pre q post core a rfl stands apart
      rw [becomes.only.gangRead]
      exact localLanes_last c.g s.ids c.grp.block rfl stands apart
    case kept =>
      have same : r.gangByte core x = s.gangByte core x := localLanes_keeps c.g s.ids c.grp.block rfl fun q hq core' a stands => by
        by_cases own : core = core'
        · subst own; exact .inr (missed q hq a stands)
        · exact .inl own
      rw [becomes.only.gangRead, gangRead_byte, gangRead_byte, same]
  case held =>
    intro i op s c rs ws hop hloc hrel h held
    obtain ⟨hpoll, hpref⟩ := memOpOf_loc hop hloc
    have waits : s.doLocal c i op rs ws = (s.sendNear c op (c.act op.guard) rs).advance c i := if_pos held
    have does : exec i s = .next ((s.sendNear c op (c.act op.guard) rs).advance c i) := by
      rw [exec_mem h.cur hop fun e => absurd e hpoll, issueMem_asked h.toMemAsked, doMem_loc h hloc hpoll hpref, hrel, ← waits]
      rfl
    rw [sendNear_eq] at does
    obtain ⟨moved, goes, others, ⟨_, record⟩, pending, rest⟩ := recorded_goes h.cur h.chip (queued_one _ _) (c.nextPc i)
    refine ⟨_, does, goes, others, ⟨_, record, rfl, rfl, rfl, rfl⟩,
      ⟨(s.ids + 1, s.nearOf c.g s.ids c.grp.block op (c.act op.guard) rs), ?packet, rfl, rfl, rfl⟩, pending, rest⟩
    case packet => exact moved.net ▸ mem_put_same _ _ _

end Sys2Proof.Machine

/-!
PROOFS. The host port's streams (R285, R334): a posted write that joins a stream with none before it is performed at once, behind the
write-back of the device's words of host memory unless it is relaxed. Support of O54 to O56.
-/

namespace Sys2Proof.Machine

/-! ## Pages and streams -/

theorem page_modPage (s : State) (d : Nat) (f : HostPage → HostPage) (x : Nat) :
    (s.modPage d f).page x = if x = d then f (s.page d) else s.page x := get_put _ _ _ _ _

theorem page_modPage_same (s : State) (d : Nat) (f : HostPage → HostPage) : (s.modPage d f).page d = f (s.page d) :=
  (page_modPage s d f d).trans (if_pos rfl)

theorem hstream_modHStream (s : State) (n : Nat) (f : HStream → HStream) : (s.modHStream n f).hstream n = f (s.hstream n) :=
  (get_put _ _ _ _ _).trans (if_pos rfl)

theorem page_modHStream (s : State) (n : Nat) (f : HStream → HStream) (d : Nat) : (s.modHStream n f).page d = s.page d := rfl

/-- The bytes of a word from one on, as a number (R3). -/
theorem ofBytes_bytes (x : W64) (k n : Nat) :
    ofBytes ((List.range n).map fun i => x.extractLsb' (8 * (k + i)) 8) = x.toNat / 2 ^ (8 * k) % 2 ^ (8 * n) := by
  induction n generalizing k with
  | zero => exact (Nat.mod_one _).symm
  | succ n ih =>
    have tail : (List.range n).map ((fun i => x.extractLsb' (8 * (k + i)) 8) ∘ Nat.succ)
        = (List.range n).map fun i => x.extractLsb' (8 * (k + 1 + i)) 8 :=
      List.map_congr_left fun i _ => by rw [Function.comp, show k + i.succ = k + 1 + i by omega]
    have later : x.toNat / 2 ^ (8 * (k + 1)) = x.toNat / 2 ^ (8 * k) / 2 ^ 8 := by
      rw [Nat.div_div_eq_div_mul, ← pow_add, Nat.mul_succ]
    rw [List.range_succ_eq_map, List.map_cons, List.map_map, tail]
    show (x.extractLsb' (8 * (k + 0)) 8).toNat + 256 * ofBytes _ = _
    rw [ih, later, BitVec.extractLsb'_toNat, Nat.shiftRight_eq_div_pow, Nat.add_zero, Nat.mul_succ, Nat.add_comm (8 * n), pow_add, Nat.mod_mul]
    rfl

/-- A register's value is read back from the bytes that bring it (R3). -/
theorem w64_ofBytes_bytes64 (x : W64) : w64 (ofBytes (bytes64 x)) = x := by
  have value := ofBytes_bytes x 0 8
  simp only [Nat.zero_add, Nat.mul_zero, pow_zero, Nat.div_one] at value
  unfold w64 bytes64
  rw [value, Nat.mod_eq_of_lt x.isLt]
  exact BitVec.ofNat_toNat 64 x ▸ BitVec.setWidth_eq x

/-! ## What a write-back leaves alone (R279) -/

/-- Another state is this one but for its memory. -/
def State.butMem (s t : State) : Prop := { t with mem := s.mem } = s

theorem writeBackRange_rest (s : State) (lo hi : Nat) (drop : Bool) (only : Nat → Bool) :
    s.butMem (s.writeBackRange lo hi drop only) := by
  unfold State.writeBackRange
  refine foldl_keeps (P := s.butMem) _ (fun r pg same => ?_) _ rfl
  split
  · split
    · split
      · exact same
      · exact same
    · exact same
  · exact same

theorem flushHost_rest (s : State) : s.butMem s.flushHost := writeBackRange_rest s _ _ _ _

/-! ## A posted write alone in its stream (R285) -/

/-- A posted write has joined its stream. -/
def State.withPosted (s : State) (n : Nat) (w : Posted) : State := s.next.modHStream n fun h => { h with posted := h.posted ++ [w] }

/-- A posted write has left its stream. -/
def HStream.without (seq : Nat) (h : HStream) : HStream := { h with posted := h.posted.filter fun x => x.seq != seq }

theorem without_only {h : HStream} {w : Posted} (only : h.posted = [w]) : (h.without w.seq).posted = [] := by
  unfold HStream.without
  simp [only]

theorem posted_withPosted {s : State} {n : Nat} (empty : (s.hstream n).posted = []) (w : Posted) :
    ((s.withPosted n w).hstream n).posted = [w] := by
  have same : s.next.hstream n = s.hstream n := rfl
  unfold State.withPosted
  rw [hstream_modHStream, same, empty]
  rfl

/-- The words of host memory that a write without Relaxed Ordering follows are written back. -/
def State.behind (s : State) (relaxed : Bool) : State := if relaxed then s else s.flushHost

theorem behind_rest (s : State) (relaxed : Bool) : { s.behind relaxed with mem := s.mem } = s := by
  cases relaxed
  · exact flushHost_rest s
  · rfl

theorem hstream_behind (s : State) (relaxed : Bool) (n : Nat) : (s.behind relaxed).hstream n = s.hstream n :=
  (congrArg (State.hstream · n) (behind_rest s relaxed) :)

section
variable {s : State} {n : Nat} {w : Posted} (only : (s.hstream n).posted = [w])
include only

theorem ready_only : (s.hstream n).ready = [w] := by
  unfold HStream.ready
  rw [only]
  simp

/-- No byte of the host's own memory is written before what the write follows. -/
theorem tryPosted_own {pa : Nat} (dst : w.dst = .own pa) :
    s.tryPosted n = ((s.behind w.relaxed).next.setMem ((s.behind w.relaxed).mem.store (13 * 2 ^ 64 + pa) w.bytes)).modHStream n
      (·.without w.seq) := by
  unfold State.tryPosted
  simp only [ready_only only, List.length_singleton, State.pick, Nat.mod_one, List.getElem?_cons_zero, dst]
  rfl

theorem tryPosted_reg {dom : Nat} {r : HostReg} (dst : w.dst = .reg dom r) :
    s.tryPosted n = (((s.behind w.relaxed).next.writeReg dom r [] (w64 (ofBytes w.bytes))).map fun u =>
      u.modHStream n (·.without w.seq)).getD (s.behind w.relaxed).next := by
  have first : (((s.behind w.relaxed).hstream n).posted.filter fun x => x.seq < w.seq) = [] := by
    rw [hstream_behind, only]; simp
  unfold State.tryPosted
  simp only [ready_only only, List.length_singleton, State.pick, Nat.mod_one, List.getElem?_cons_zero, dst]
  change (match (s.behind w.relaxed).next.writeReg dom r ((((s.behind w.relaxed).hstream n).posted.filter fun x => x.seq < w.seq).map
    Posted.seq) (w64 (ofBytes w.bytes)) with | some s => _ | none => _) = _
  rw [first, List.map_nil]
  cases (s.behind w.relaxed).next.writeReg dom r [] (w64 (ofBytes w.bytes)) <;> rfl

end

/-! ## Writes of the registers (R285, R334) -/

theorem submit_keeps {s u : State} {dom x : Nat} {graph : Bool} (done : s.submit dom graph x = some u) :
    u.groups = s.groups ∧ u.host.streams = s.host.streams := by
  unfold State.submit at done
  generalize (2 ^ 57 ≤ x || (if graph then x % 64 != 1 else x % 128 != 0)) = astray at done
  cases astray with
  | true => cases done; exact ⟨rfl, rfl⟩
  | false =>
    by_cases full : Config.ringCap ≤ s.ring.queue.length
    · exact nomatch (if_pos full).symm.trans done
    · cases (if_neg full).symm.trans done; exact ⟨rfl, rfl⟩

/-- The machine as a register write finds it that has joined a stream with none before it. -/
def State.regReady (s : State) (n dom : Nat) (r : HostReg) (x : W64) : State :=
  ((s.withPosted n { seq := s.ids, relaxed := false, dst := .reg dom r, bytes := bytes64 x }).behind false).next

section
variable (s : State) (n dom : Nat) (r : HostReg) (x : W64)

/-- But for memory, the streams and the identifiers it is as it was. -/
theorem regReady_rest : { s.regReady n dom r x with mem := s.mem, host := { (s.regReady n dom r x).host with streams := s.host.streams }
                                                    ids := s.ids } = s :=
  (congrArg (fun t : State => { t with mem := s.mem, host := { t.host with streams := s.host.streams }, ids := s.ids })
    (behind_rest (s.withPosted n { seq := s.ids, relaxed := false, dst := .reg dom r, bytes := bytes64 x }) false) :)

theorem regReady_page (d : Nat) : (s.regReady n dom r x).page d = s.page d := (congrArg (State.page · d) (regReady_rest s n dom r x) :)

/-- No register write changes a group or a stream. -/
theorem writeReg_keeps {due : List Nat} {u : State} (wrote : s.writeReg dom r due x = some u) :
    u.groups = s.groups ∧ u.host.streams = s.host.streams := by
  cases r with
  | kbase | klen => cases wrote; exact ⟨rfl, rfl⟩
  | kop code =>
    cases wrote
    unfold State.kick
    dsimp only
    split
    · exact ⟨rfl, rfl⟩
    · split
      · exact ⟨rfl, rfl⟩
      · split <;> exact ⟨rfl, rfl⟩
  | stop =>
    cases wrote
    unfold State.askStop
    split <;> exact ⟨rfl, rfl⟩
  | submit graph => exact submit_keeps wrote

end

section
variable {s : State} {n : Nat} (empty : (s.hstream n).posted = [])
include empty

theorem postReg_alone (dom : Nat) (r : HostReg) (x : W64) :
    s.postReg n dom r x = (((s.regReady n dom r x).writeReg dom r [] x).map fun u => u.modHStream n (·.without s.ids)).getD
      (s.regReady n dom r x) := by
  have tried := tryPosted_reg (posted_withPosted empty { seq := s.ids, relaxed := false, dst := .reg dom r, bytes := bytes64 x }) rfl
  rw [w64_ofBytes_bytes64] at tried
  exact tried

theorem posted_regReady (dom : Nat) (r : HostReg) (x : W64) :
    ((s.regReady n dom r x).hstream n).posted = [{ seq := s.ids, relaxed := false, dst := .reg dom r, bytes := bytes64 x }] :=
  (congrArg HStream.posted (hstream_behind _ false n)).trans (posted_withPosted empty _)

/-- A register write that need not wait has left its stream, and no group has changed. -/
theorem postReg_done {dom : Nat} {r : HostReg} {x : W64} {u : State} (wrote : (s.regReady n dom r x).writeReg dom r [] x = some u) :
    s.postReg n dom r x = u.modHStream n (·.without s.ids) ∧ ((u.modHStream n (·.without s.ids)).hstream n).posted = []
      ∧ u.groups = s.groups := by
  obtain ⟨groups, streams⟩ := writeReg_keeps (s.regReady n dom r x) dom r x wrote
  refine ⟨by rw [postReg_alone empty, wrote]; rfl, ?_, groups.trans (congrArg State.groups (regReady_rest s n dom r x) :)⟩
  have same : u.hstream n = (s.regReady n dom r x).hstream n := congrArg (get hstreamReset · n) streams
  rw [hstream_modHStream, same]
  exact without_only (posted_regReady empty dom r x)

end

end Sys2Proof.Machine

/-!
PROOFS. O55 (R287, R288): kicks of the host, as they start, fail, are ignored, wait and complete.
-/

namespace Sys2Proof.Machine

/-! ## A write of `KOP` (R287) -/

/-- A page after a write of `KOP` while no kick is in flight, behind the posted writes `due` of its stream. -/
def HostPage.kicked (p : HostPage) (due : List Nat) (x : W64) : HostPage :=
  if kickOk p.kbase.toNat p.klen.toNat x.toNat = false then { p with kop := x, kstat := kstatOf true x }
  else if bits p.klen.toNat 0 40 = 0 then { p with kop := x, kstat := kstatOf false x }
  else { p with kop := x, kick := some (BitVec.ofNat 3 (bits x.toNat 0 3), if bits x.toNat 0 3 = 4 then due else []) }

section
variable {p : HostPage} {x : W64} {due : List Nat}

/-- Whatever comes of it, the code stands in the page. -/
theorem kop_kicked : (p.kicked due x).kop = x := by
  unfold HostPage.kicked
  split
  · rfl
  · split <;> rfl

theorem kicked_bad (bad : kickOk p.kbase.toNat p.klen.toNat x.toNat = false) :
    p.kicked due x = { p with kop := x, kstat := kstatOf true x } := if_pos bad

variable (ok : kickOk p.kbase.toNat p.klen.toNat x.toNat = true)
include ok

theorem kicked_empty (empty : bits p.klen.toNat 0 40 = 0) : p.kicked due x = { p with kop := x, kstat := kstatOf false x } :=
  (if_neg (by simp [ok])).trans (if_pos empty)

theorem kicked_starts (whole : bits p.klen.toNat 0 40 ≠ 0) :
    p.kicked due x = { p with kop := x, kick := some (BitVec.ofNat 3 (bits x.toNat 0 3), if bits x.toNat 0 3 = 4 then due else []) } :=
  (if_neg (by simp [ok])).trans (if_neg whole)

end

theorem kick_inFlight {s : State} {dom : Nat} (busy : (s.page dom).kick.isSome = true) (code : Nat) (due : List Nat) (x : W64) :
    s.kick dom code due x = s := by
  unfold State.kick
  exact if_pos (by rw [busy]; rfl)

/-- The instruction of a kick writes a code of its own, or one that is none of the four. -/
theorem page_kick {s : State} {dom code : Nat} {x : W64} (free : (s.page dom).kick = none)
    (own : bits x.toNat 0 3 = code ∨ ¬(1 ≤ bits x.toNat 0 3 ∧ bits x.toNat 0 3 ≤ 4)) (due : List Nat) :
    (s.kick dom code due x).page dom = (s.page dom).kicked due x := by
  have taken : ¬((s.page dom).kick.isSome || (bits x.toNat 0 3 != code && 1 ≤ bits x.toNat 0 3 && bits x.toNat 0 3 ≤ 4)) = true := by
    rw [free]
    rcases own with own | own
    · simp [own]
    · simpa [and_assoc] using fun _ h => not_le.mp fun h' => own ⟨h, h'⟩
  unfold State.kick HostPage.kicked
  dsimp only
  rw [if_neg taken]
  cases ok : kickOk (s.page dom).kbase.toNat (s.page dom).klen.toNat x.toNat with
  | false => simp [page_modPage]
  | true =>
    by_cases empty : bits (s.page dom).klen.toNat 0 40 = 0
    · simp [empty, page_modPage]
    · simp [empty, page_modPage]

/-- The kick instruction that a code stands for. -/
def kickInstr (dom st : Nat) (x : W64) (o : Nat) : Instr :=
  if o = 1 then .flush dom st x else if o = 2 then .inval dom st x else if o = 3 then .tohost dom st x else .todev dom st x

theorem exec_kickInstr (s : State) (dom st : Nat) (x : W64) (o : Nat) :
    ∃ code, exec (kickInstr dom st x o) s = .next (s.postReg st dom (.kop code) x) ∧ (o = code ∨ ¬(1 ≤ o ∧ o ≤ 4)) := by
  unfold kickInstr
  by_cases h1 : o = 1
  · exact ⟨1, by rw [if_pos h1]; rfl, .inl h1⟩
  by_cases h2 : o = 2
  · exact ⟨2, by rw [if_neg h1, if_pos h2]; rfl, .inl h2⟩
  by_cases h3 : o = 3
  · exact ⟨3, by rw [if_neg h1, if_neg h2, if_pos h3]; rfl, .inl h3⟩
  · exact ⟨4, by rw [if_neg h1, if_neg h2, if_neg h3]; rfl, by omega⟩

section
variable {s : State} {st : Nat} (empty : (s.hstream st).posted = [])
include empty

/-- With none before it in its stream, the write is performed at once: on a page with no kick in flight, or to no effect. -/
theorem kickInstr_done (dom : Nat) (x : W64) :
    Answers s (kickInstr dom st x (bits x.toNat 0 3)) fun u => ((s.page dom).kick = none → u.page dom = (s.page dom).kicked [] x)
      ∧ ((s.page dom).kick.isSome = true → u.page dom = s.page dom) ∧ (u.hstream st).posted = [] ∧ u.groups = s.groups := by
  obtain ⟨code, does, own⟩ := exec_kickInstr s dom st x (bits x.toNat 0 3)
  obtain ⟨posts, gone, groups⟩ := postReg_done empty (dom := dom) (r := .kop code) (x := x) rfl
  have page := regReady_page s st dom (.kop code) x dom
  refine ⟨_, does.trans (congrArg _ posts), fun free => ?_, fun busy => ?_, gone, groups⟩
  · exact (page_kick (by rw [page]; exact free) own []).trans (by rw [page])
  · exact (congrArg (State.page · dom) (kick_inFlight (by rw [page]; exact busy) code [] x)).trans page

end

/-! ## `KICK_COMPLETION` (R288) -/

theorem kickCompletion_waits {s : State} {dom : Nat} {op : BitVec 3} {due : List Nat} (kick : (s.page dom).kick = some (op, due))
    (waits : s.kickWaits op due (s.page dom).kbase.toNat (bits (s.page dom).klen.toNat 0 40) = true) :
    exec (.kickCompletion dom) s = .next s := by
  show execKickCompletion dom s = _
  unfold execKickCompletion
  dsimp only
  rw [kick]
  exact congrArg _ (if_pos waits)

theorem kickCompletion_done {s : State} {dom : Nat} {op : BitVec 3} {due : List Nat} (kick : (s.page dom).kick = some (op, due))
    (clear : s.kickWaits op due (s.page dom).kbase.toNat (bits (s.page dom).klen.toNat 0 40) = false) :
    Answers s (.kickCompletion dom) fun u => (u.page dom).kick = none ∧ (u.page dom).kstat = kstatOf false (u.page dom).kop := by
  have completes : ∃ t : State, exec (.kickCompletion dom) s
      = .next (t.modPage dom fun p => { p with kstat := kstatOf false p.kop, kick := none }) := by
    show ∃ t : State, execKickCompletion dom s = _
    unfold execKickCompletion
    dsimp only
    rw [kick]
    exact ⟨_, congrArg _ (if_neg (by simp [clear]))⟩
  obtain ⟨t, does⟩ := completes
  exact ⟨_, does, by rw [page_modPage_same], by rw [page_modPage_same]⟩

/-- Settles O55: a write of `KOP` by `kickInstr_done`, what the page then holds by cases of `HostPage.kicked`. -/
theorem kicks : Obligations.Kicks := by
  intro s dom st x op due p o i
  refine ⟨fun empty => ?_, kickCompletion_waits, kickCompletion_done⟩
  obtain ⟨u, does, free, busy, gone, groups⟩ := kickInstr_done empty dom x
  refine ⟨fun idle ok => ⟨u, does, ?_, gone, groups, fun whole => ?_, fun none => ?_⟩, fun idle bad => ⟨u, does, ?_, ?_, gone, groups⟩,
    fun inFlight => ⟨u, does, busy inFlight, gone, groups⟩⟩
  · rw [free idle, kop_kicked]
  · rw [free idle, kicked_starts ok whole, ite_self]
  · rw [free idle, kicked_empty ok none]; exact ⟨idle, rfl⟩
  · rw [free idle, kicked_bad bad]
  · rw [free idle, kicked_bad bad]; exact idle

end Sys2Proof.Machine

/-!
PROOFS. O54 (R279, R285, R287, R318, R334): accesses of the host to its own memory and to the registers of a domain's page.
-/

namespace Sys2Proof.Machine

/-! ## The register page as the host reads it (R334) -/

@[simp] theorem length_bytes64 (w : W64) : (bytes64 w).length = 8 := by simp [bytes64]

@[simp] theorem length_freeBytes (i n : Nat) : (freeBytes i n).length = n := by simp [freeBytes]

theorem length_pageBytes (s : State) (dom : Nat) : (s.pageBytes dom).length = 4096 := by simp [State.pageBytes]

/-- The registers of a page that its kicks use, as the host reads them. -/
def HostPage.kickBytes (p : HostPage) : List Byte := bytes64 p.kbase ++ bytes64 p.klen ++ bytes64 p.kop ++ bytes64 p.kstat

/-- The page begins with them. -/
theorem take_pageBytes (s : State) (dom : Nat) : (s.pageBytes dom).take 32 = (s.page dom).kickBytes := by
  simp [State.pageBytes, HostPage.kickBytes, List.take_append, List.take_of_length_le]

/-! ## Reads (R285) -/

theorem hstream_complete1 (s : State) (n : Nat) (b : Option (List Byte)) (m : Nat) : (s.complete1 n b).hstream m = s.hstream m := rfl

/-- A read has joined its stream. -/
def State.readJoined (s : State) (n : Nat) (src : HostSrc) (len : Nat) : State :=
  s.next.modHStream n fun h => { h with reads := h.reads ++ [(s.ids, src, len)] }

theorem hstream_readJoined (s : State) (n : Nat) (src : HostSrc) (len : Nat) :
    (s.readJoined n src len).hstream n = { s.hstream n with reads := (s.hstream n).reads ++ [(s.ids, src, len)] } :=
  hstream_modHStream s.next n fun h => { h with reads := h.reads ++ [(s.ids, src, len)] }

section
variable {s : State} {n : Nat} (empty : (s.hstream n).posted = []) (idle : (s.hstream n).reads = [])
include empty idle

/-- A read of the page that joins a stream with nothing before it is answered at once. -/
theorem exec_hostRead_page {len : Nat} (nonempty : len ≠ 0) (dom off : Nat) :
    exec (.hostReadRequest n (.page dom off) len) s
      = .next (((s.readJoined n (.page dom off) len).next.modHStream n fun h => { h with reads := h.reads.tail }).complete1 n
          (some ((((s.readJoined n (.page dom off) len).pageBytes dom).drop off).take len))) := by
  have joined := hstream_readJoined s n (.page dom off) len
  rw [idle, List.nil_append] at joined
  have served : exec (.hostReadRequest n (.page dom off) len) s = .next ((s.readJoined n (.page dom off) len).tryRead n) :=
    congrArg _ (if_neg nonempty)
  rw [served]
  unfold State.tryRead
  simp only [joined, empty, List.any_nil, Bool.false_eq_true, if_false]

theorem hostRead_page {len : Nat} (nonempty : len ≠ 0) (dom off : Nat) :
    Answers s (.hostReadRequest n (.page dom off) len) fun u =>
      (∃ y, u.host.replies = s.host.replies ++ [(n, some y)] ∧ y.length = min len (4096 - off)
        ∧ (off = 0 → len = 32 → y = (s.page dom).kickBytes)) ∧ (u.hstream n).reads = [] ∧ u.mem = s.mem ∧ u.groups = s.groups := by
  refine ⟨_, exec_hostRead_page empty idle nonempty dom off, ⟨_, rfl, ?_, ?_⟩, ?_, rfl, rfl⟩
  · rw [List.length_take, List.length_drop, length_pageBytes]
  · rintro rfl rfl
    exact take_pageBytes _ dom
  · have joined : (s.readJoined n (.page dom off) len).next.hstream n = _ := hstream_readJoined s n (.page dom off) len
    rw [hstream_complete1, hstream_modHStream, joined, idle]
    rfl

end

/-! ## Posted writes to the host's own memory (R279) -/

/-- A posted write to the host's own memory that joins a stream with none before it is performed at once. -/
theorem exec_hostPosted_own {s : State} {n : Nat} (empty : (s.hstream n).posted = []) {b : List Byte} (nonempty : b ≠ []) (relaxed : Bool)
    (pa : Nat) :
    let z := (s.withPosted n { seq := s.ids, relaxed := relaxed, dst := .own pa, bytes := b }).behind relaxed
    exec (.hostPostedWrite n relaxed (.own pa) b) s
      = .next ((z.next.setMem (z.mem.store (13 * 2 ^ 64 + pa) b)).modHStream n (·.without s.ids)) := by
  have joins : exec (.hostPostedWrite n relaxed (.own pa) b) s
      = .next ((s.withPosted n { seq := s.ids, relaxed := relaxed, dst := .own pa, bytes := b }).tryPosted n) :=
    congrArg _ (if_neg (by simpa using nonempty))
  rw [joins, tryPosted_own (posted_withPosted empty _) rfl]

theorem hostPosted_own {s : State} {n : Nat} (empty : (s.hstream n).posted = []) {b : List Byte} (nonempty : b ≠ []) (relaxed : Bool)
    (pa : Nat) :
    let z := (s.withPosted n { seq := s.ids, relaxed := relaxed, dst := .own pa, bytes := b }).behind relaxed
    Answers s (.hostPostedWrite n relaxed (.own pa) b) fun u => getRange 0 u.mem.phys (13 * 2 ^ 64 + pa) b.length = b
      ∧ (∀ k, (k < 13 * 2 ^ 64 + pa ∨ 13 * 2 ^ 64 + pa + b.length ≤ k) → get 0 u.mem.phys k = get 0 z.mem.phys k)
      ∧ (u.hstream n).posted = [] ∧ u.groups = s.groups := by
  intro z
  have groups : z.groups = s.groups := (congrArg State.groups (behind_rest _ relaxed) :)
  have alone : (z.hstream n).posted = [{ seq := s.ids, relaxed := relaxed, dst := .own pa, bytes := b }] :=
    (congrArg HStream.posted (hstream_behind _ relaxed n)).trans (posted_withPosted empty _)
  refine ⟨_, exec_hostPosted_own empty nonempty relaxed pa, getRange_setRange 0 _ _ b,
    fun k out => get_setRange_other 0 _ _ k b out, ?_, groups⟩
  rw [hstream_modHStream]
  exact without_only alone

/-! ## `KLEN` and `KBASE` (R287) -/

theorem hostRegisterWrite_done {s : State} {n : Nat} (empty : (s.hstream n).posted = []) (dom : Nat) (len : Bool) (x : W64) :
    Answers s (.hostRegisterWrite ⟨dom, n⟩ len x) fun u =>
      u.page dom = (if len then { s.page dom with klen := x } else { s.page dom with kbase := x }) ∧ (u.hstream n).posted = []
        ∧ u.groups = s.groups := by
  cases len with
  | true =>
    obtain ⟨posts, gone, groups⟩ := postReg_done empty (dom := dom) (r := .klen) (x := x) rfl
    exact ⟨_, congrArg Host.Outcome.next posts, by rw [page_modHStream, page_modPage_same, regReady_page]; rfl, gone, groups⟩
  | false =>
    obtain ⟨posts, gone, groups⟩ := postReg_done empty (dom := dom) (r := .kbase) (x := x) rfl
    exact ⟨_, congrArg Host.Outcome.next posts, by rw [page_modHStream, page_modPage_same, regReady_page]; rfl, gone, groups⟩

/-- Settles O54: each access by what it finds in a stream with nothing before it. -/
theorem hostAccesses : Obligations.HostAccesses := by
  intro s n dom off len pa addr x relaxed b empty
  refine ⟨fun nonempty => ?_, fun idle nonempty => hostRead_page empty idle nonempty dom off, rfl, ?_, ?_⟩
  · cases relaxed <;> exact hostPosted_own empty nonempty _ pa
  · obtain ⟨u, does, page, rest⟩ := hostRegisterWrite_done empty dom true x
    exact ⟨u, does, by rw [page]; rfl, by rw [page]; rfl, rest⟩
  · obtain ⟨u, does, page, rest⟩ := hostRegisterWrite_done empty dom false x
    exact ⟨u, does, by rw [page]; rfl, by rw [page]; rfl, rest⟩

end Sys2Proof.Machine

/-!
PROOFS. O56 (R285, R319, R334, R345): submissions of the host, `STOP`, expanders that do not answer, and the ports they stand at.
-/

namespace Sys2Proof.Machine

/-! ## Submissions (R334) -/

/-- The value that names a record or a node. -/
def names (graph : Bool) (x : Nat) : Prop := x < 2 ^ 57 ∧ if graph then x % 64 = 1 else x % 128 = 0

/-- What a submission of the host hands over. -/
def hostHandoff (dom : Nat) (graph : Bool) (x : Nat) : Handoff :=
  { addr := if graph then x - 1 else x, graph := graph, early := true, dom := dom, issuer := 0, origin := .host }

section
variable {s : State} {dom x : Nat} {graph : Bool} (named : names graph x)
include named

theorem submit_full (full : Config.ringCap ≤ s.ring.queue.length) : s.submit dom graph x = none := by
  obtain ⟨low, form⟩ := named
  unfold State.submit
  rw [if_neg (by cases graph <;> simpa using ⟨low, form⟩), if_pos full]

theorem submit_room (room : s.ring.queue.length < Config.ringCap) :
    s.submit dom graph x = some (s.setRing { s.ring with queue := s.ring.queue ++ [hostHandoff dom graph x] }) := by
  obtain ⟨low, form⟩ := named
  unfold State.submit
  rw [if_neg (by cases graph <;> simpa using ⟨low, form⟩), if_neg (Nat.not_le.mpr room)]
  rfl

end

theorem regReady_ring (s : State) (n dom : Nat) (r : HostReg) (x : W64) : (s.regReady n dom r x).ring = s.ring :=
  (congrArg State.ring (regReady_rest s n dom r x) :)

section
variable {s : State} {st : Nat} (empty : (s.hstream st).posted = [])
include empty

theorem postReg_submit_room {graph : Bool} {x : W64} (named : names graph x.toNat) (room : s.ring.queue.length < Config.ringCap) (dom : Nat) :
    (s.postReg st dom (.submit graph) x).ring.queue = s.ring.queue ++ [hostHandoff dom graph x.toNat]
      ∧ ((s.postReg st dom (.submit graph) x).hstream st).posted = [] ∧ (s.postReg st dom (.submit graph) x).groups = s.groups := by
  have ring := regReady_ring s st dom (.submit graph) x
  obtain ⟨posts, gone, groups⟩ := postReg_done empty (dom := dom) (r := .submit graph) (x := x)
    (submit_room named (by rw [ring]; exact room))
  rw [posts]
  refine ⟨?_, gone, groups⟩
  show (s.regReady st dom (.submit graph) x).ring.queue ++ _ = _
  rw [ring]

theorem postReg_submit_full {graph : Bool} {x : W64} (named : names graph x.toNat) (full : Config.ringCap ≤ s.ring.queue.length) (dom : Nat) :
    (s.postReg st dom (.submit graph) x).ring.queue = s.ring.queue
      ∧ ((s.postReg st dom (.submit graph) x).hstream st).posted ≠ [] ∧ (s.postReg st dom (.submit graph) x).groups = s.groups := by
  have rest := regReady_rest s st dom (.submit graph) x
  have ring := regReady_ring s st dom (.submit graph) x
  have waits : (s.regReady st dom (.submit graph) x).writeReg dom (.submit graph) [] x = none :=
    submit_full named (by rw [ring]; exact full)
  rw [postReg_alone empty, waits, Option.map_none, Option.getD_none]
  refine ⟨by rw [ring], ?_, (congrArg State.groups rest :)⟩
  rw [posted_regReady empty]
  exact List.cons_ne_nil _ _

end

/-! ## `STOP` (R342) -/

theorem ctx_modCtx (s : State) (d : Nat) (f : Ctx → Ctx) (x : Nat) : (s.modCtx d f).ctx x = if x = d then f (s.ctx d) else s.ctx x :=
  get_put _ _ _ _ _

theorem ctx_modCtx_same (s : State) (d : Nat) (f : Ctx → Ctx) : (s.modCtx d f).ctx d = f (s.ctx d) :=
  (ctx_modCtx s d f d).trans (if_pos rfl)

theorem askStop_asks {s : State} {dom : Nat} (running : (s.page dom).tstat.getLsbD 0 = false) :
    ((s.askStop dom 1).ctx dom).stopping = true := by
  unfold State.askStop
  rw [if_neg (by rw [running]; decide), ctx_modCtx_same]

theorem ctx_modHStream (s : State) (n : Nat) (f : HStream → HStream) (d : Nat) : (s.modHStream n f).ctx d = s.ctx d := rfl

theorem stop_asks {s : State} {st dom : Nat} (empty : (s.hstream st).posted = []) (running : (s.page dom).tstat.getLsbD 0 = false) :
    Answers s (.stop ⟨dom, st⟩ 1) fun u => (u.ctx dom).stopping = true ∧ (u.hstream st).posted = [] ∧ u.groups = s.groups := by
  obtain ⟨posts, gone, groups⟩ := postReg_done empty (dom := dom) (r := .stop) (x := 1) rfl
  refine ⟨_, congrArg Host.Outcome.next posts, ?_, gone, groups⟩
  rw [ctx_modHStream]
  exact askStop_asks (by rw [regReady_page]; exact running)

theorem exec_stop_other {x : W64} (other : x ≠ 1) (s : State) (dom st : Nat) : exec (.stop ⟨dom, st⟩ x) s = .next (s.stopStep dom) :=
  congrArg Host.Outcome.next (if_neg other)

theorem stopStep_running {s : State} {dom : Nat} (running : (s.ctx dom).stopping = false) : s.stopStep dom = s := by
  unfold State.stopStep
  exact if_neg (by simp [running])

/-! ## Expanders (R319, R345) -/

section
variable {s : State} {k t : Nat} {p : Packet} (hp : s.packet? k = some p) (silent : p.phase = .silent t)
include hp silent

theorem exec_cxlResponseTimeout_early (early : s.now < t + 10 * 7000) : exec (.cxlResponseTimeout k) s = .next s := by
  show execCxlResponseTimeout k s = _
  unfold execCxlResponseTimeout
  rw [hp]
  simp only [silent]
  exact congrArg Host.Outcome.next (if_pos early)

/-- An access that its home admits still is given up once its expander has been silent for 10 µs. -/
theorem exec_cxlResponseTimeout_late {r : State} {la l : Nat} (late : t + 10 * 7000 ≤ s.now) (admitted : s.checkIn p.home p = (r, .leaf la l)) :
    exec (.cxlResponseTimeout k) s = .next (if p.kind = .store then (r.unanswered p).replyTo p.unit k .err
      else (r.unanswered p).performAt p.unit k p la l) := by
  show execCxlResponseTimeout k s = _
  unfold execCxlResponseTimeout
  rw [hp]
  simp only [silent]
  refine congrArg Host.Outcome.next ((if_neg (Nat.not_lt.mpr late)).trans ?_)
  rw [admitted]
  simp only [beq_iff_eq]

end

theorem exec_cxlPortDown (s : State) {port : Nat} (real : port < 8) (up : Bool) :
    exec (.cxlPortDown port up) s = .next (s.setFw { s.fw with
      cxlDown := if up then s.fw.cxlDown.filter fun x => x != port else port :: s.fw.cxlDown.filter fun x => x != port }) :=
  congrArg Host.Outcome.next (if_neg (Nat.not_le.mpr real))

/-- Settles O56: a submission by the room of the queue, a stop by what it writes, a timeout by its time, a port by its state. -/
theorem submissions : Obligations.Submissions := by
  intro s dom st port k t x p
  refine ⟨fun empty => ⟨fun whole low => ⟨fun room => ⟨_, rfl, ?_⟩, fun full => ⟨_, rfl, ?_⟩⟩, fun node low room => ⟨_, rfl, ?_⟩,
    stop_asks empty⟩, fun other => ⟨exec_stop_other other s dom st, fun running => ?_⟩, fun hp silent =>
    ⟨exec_cxlResponseTimeout_early hp silent, fun r la l late admitted => exec_cxlResponseTimeout_late hp silent late admitted⟩,
    fun real => ⟨⟨_, exec_cxlPortDown s real false, ?_, rfl, rfl⟩, ⟨_, exec_cxlPortDown s real true, ?_, rfl, rfl⟩⟩⟩
  · exact postReg_submit_room empty (graph := false) ⟨low, whole⟩ room dom
  · exact postReg_submit_full empty (graph := false) ⟨low, whole⟩ full dom
  · have form : x.toNat % 64 = 1 := node
    exact postReg_submit_room empty (graph := true) ⟨low, form⟩ room dom
  · rw [exec_stop_other other, stopStep_running running]
  · simp
  · simp

end Sys2Proof.Machine

/-!
PROOFS. O50 (R304, R305): a tick of the slack clock.
-/

namespace Sys2Proof.Machine

/-! ## Fields that count down -/

theorem tickField_background {f : Nat} (background : f = 0xFFF) : tickField f = f := if_pos background

theorem tickField_finite {f : Nat} (finite : f ≠ 0xFFF) : tickField f = f - 1 := if_neg finite

/-- A field that has counted down is 0 where it was 1 or 0. -/
theorem spent_iff (f : Nat) : (f - 1 == 0) = decide (f ≤ 1) := by
  rw [Bool.eq_iff_iff, beq_iff_eq, decide_eq_true_iff]
  omega

/-- A background field makes nothing late. -/
theorem late_background {f : Nat} (background : f = 0xFFF) (late : Bool) : (late || f == 0) = late := by
  rw [background]
  exact Bool.or_false late

/-! ## Packets -/

/-- What counts down of a packet that is no beat. -/
theorem tick_eq {p : Packet} (plain : ∀ sid c x b l, p.phase ≠ .beat sid c x b l) :
    p.tick = { p with field := tickField p.field, late := p.late || tickField p.field == 0 } := by
  unfold Packet.tick
  cases phase : p.phase with
  | beat sid c x b l => exact absurd phase (plain sid c x b l)
  | _ => rfl

theorem tick_background {p : Packet} (background : p.field = 0xFFF) (plain : ∀ sid c x b l, p.phase ≠ .beat sid c x b l) : p.tick = p := by
  rw [tick_eq plain, tickField_background background, late_background background]

theorem tick_finite {p : Packet} (finite : p.field ≠ 0xFFF) (plain : ∀ sid c x b l, p.phase ≠ .beat sid c x b l) :
    p.tick = { p with field := p.field - 1, late := p.late || p.field ≤ 1 } := by
  rw [tick_eq plain, tickField_finite finite, spent_iff]

/-- What is held, in service or waiting counts down. -/
theorem waits_of {p : Packet} (queued : p.phase.moves = true → p.route ≠ []) (landed : ∀ v, p.phase ≠ .landed v)
    (polling : ∀ t, p.phase ≠ .polling t) (kept : ∀ a l, p.phase ≠ .kept a l) (remote : p.phase ≠ .remote) (near : p.phase ≠ .near) :
    p.waits = true := by
  unfold Packet.waits
  cases phase : p.phase with
  | going | port | passing | back | beat =>
    have route := queued (by rw [phase]; rfl)
    simpa using route
  | landed v => exact absurd phase (landed v)
  | polling t => exact absurd phase (polling t)
  | kept a l => exact absurd phase (kept a l)
  | remote => exact absurd phase remote
  | near => exact absurd phase near
  | _ => rfl

/-- What has landed, or is kept between two reads, does not. -/
theorem not_waits {p : Packet} (rests : (∃ v, p.phase = .landed v) ∨ (∃ t, p.phase = .polling t) ∨ ∃ a l, p.phase = .kept a l) :
    p.waits = false := by
  unfold Packet.waits
  rcases rests with ⟨v, phase⟩ | ⟨t, phase⟩ | ⟨a, l, phase⟩ <;> rw [phase]

/-- A packet after a tick. -/
def Packet.ticked (p : Packet) : Packet := if p.waits then p.tick else p

theorem ticked_background {p : Packet} (background : p.field = 0xFFF) (plain : ∀ sid c x b l, p.phase ≠ .beat sid c x b l) :
    p.ticked = p := by
  unfold Packet.ticked
  rw [tick_background background plain, ite_self]

/-! ## Accesses that wait at their home -/

theorem hold_ticked (h : Hold) :
    (if h.phase == .remote then h else { h with field := tickField h.field, late := h.late || tickField h.field == 0 })
      = if h.phase = .remote ∨ h.field = 0xFFF then h else { h with field := h.field - 1, late := h.late || h.field ≤ 1 } := by
  by_cases remote : h.phase = .remote
  · simp [remote]
  · by_cases background : h.field = 0xFFF
    · rw [tickField_background background, late_background background, ite_self,
        if_pos (show h.phase = .remote ∨ h.field = 0xFFF from .inr background)]
    · simp [remote, background, tickField_finite background, spent_iff]

/-- Settles O50: a packet by `tick_finite` and `tick_background`, where it waits; a held access by `hold_ticked`. -/
theorem slackClock : Obligations.SlackClock := by
  intro s
  have packet : ∀ k p, look s.net.packets k = some p → look (mapv (fun _ p => Packet.ticked p) s.net.packets) k = some p.ticked :=
    fun k p hp => by rw [look_mapv, hp]; rfl
  refine ⟨_, rfl, rfl, rfl, rfl, ?_, fun k p hp queued landed polling kept remote near plain finite => (packet k p hp).trans ?_,
    fun k p hp rests => (packet k p hp).trans ?_, fun k p hp background plain => (packet k p hp).trans ?_, ?_⟩
  · show (mapv (fun _ p => Packet.ticked p) s.net.packets).map Prod.fst = _
    simp [mapv]
  · rw [Packet.ticked, waits_of queued landed polling kept remote near, if_pos rfl, tick_finite finite plain]
  · rw [Packet.ticked, not_waits rests]; rfl
  · rw [ticked_background background plain]
  · exact List.map_congr_left fun h _ => hold_ticked h

end Sys2Proof.Machine

/-!
PROOFS. O1 (R176, R177, R355, R358): the machine right after reset.
-/

namespace Sys2Proof.Machine

/-- No quad is listed right after reset, so that each is as `quadReset` has it. -/
theorem quad_reset (q : Nat) : State.reset.quad q = quadReset := rfl

/-- Settles O1: each part of the machine from the state after reset, memory's form by `reset_memory_wf`. -/
theorem resetState : Obligations.ResetState := by
  refine ⟨⟨rfl, rfl, rfl, rfl, rfl, rfl, rfl, rfl, reset_memory_wf, rfl, fun q slot t i => ?_⟩, rfl⟩
  rw [quad_reset]
  exact ⟨rfl, rfl, rfl⟩

end Sys2Proof.Machine

/-!
PROOFS. O52 (R311, R312): flits and their acknowledgements, resends, retraining and pauses of a link.
-/

namespace Sys2Proof.Machine

theorem link_modLink (s : State) (l : Nat) (f : Link → Link) : (s.modLink l f).link l = f (s.link l) :=
  (get_put _ _ _ _ _).trans (if_pos rfl)

/-! ## What the sender hears (R312) -/

/-- Some flits are acknowledged. -/
theorem acked_some (k : Link) {n : Nat} (some : n ≠ 0) (now : Nat) :
    k.acked n now = { k with unacked := k.unacked.drop n, resends := 0, sentAt := now } := if_neg some

/-- What stands on the wire after a negative acknowledgement, which starts a resend of it. -/
theorem acked_resent (k : Link) (n now : Nat) :
    (k.acked n now).resent now
      = { k with unacked := k.unacked.drop n, resends := (if n = 0 then k.resends else 0) + 1, sentAt := now } := by
  by_cases none : n = 0
  · simp [Link.acked, Link.resent, none]
  · rw [acked_some k none, if_neg none]; rfl

section
variable {s : State} {l : Nat} (up : (s.link l).up = true)
include up

section
variable {seq i : Nat} (place : (s.link l).place seq = some i)
include place

theorem exec_linkAck : exec (.linkAck l seq) s = .next (s.modLink l fun k => k.acked (i + 1) s.now) := by
  show execLinkAck l seq s = _
  unfold execLinkAck
  rw [up, place]

theorem exec_linkNak : exec (.linkNak l seq) s = .next (s.modLink l fun k => (k.acked i s.now).resent s.now) := by
  show execLinkNak l seq s = _
  unfold execLinkNak
  rw [up, place]

end

theorem exec_linkAckTimeout (waits : (s.link l).unacked ≠ []) (late : (s.link l).sentAt + 7000 ≤ s.now) (few : (s.link l).resends < 8) :
    exec (.linkAckTimeout l) s = .next (s.modLink l fun k => k.resent s.now) :=
  congrArg Host.Outcome.next (if_pos (by simp [up, waits, few, show (s.link l).sentAt + Config.us 1 ≤ s.now from late]))

end

/-- A link that has sent one flit again eight times and fails to retrain goes down. -/
theorem exec_linkRetrain_fails {s : State} {l : Nat} (real : l < 18) (worn : 8 ≤ (s.link l).resends) :
    exec (.linkRetrain l false) s = .next (s.modLink l fun k => { k with up := false, unacked := [], resends := 0 }) :=
  congrArg Host.Outcome.next ((if_neg (by simp [real, worn])).trans (if_pos rfl))

/-! ## Pauses (R311) -/

theorem exec_pauseFrame (s : State) (l : Nat) {cls : Nat} (other : cls ≠ 1) (real : cls < 4) (on : Bool) :
    exec (.pauseFrame l cls on) s = .next (s.modLink l fun k =>
      { k with paused := if on then cls :: k.paused.filter fun x => x != cls else k.paused.filter fun x => x != cls }) :=
  congrArg Host.Outcome.next (if_neg (by simp [other, real]))

/-- A link's peer is paused for the classes that can be and whose buffer is full. -/
theorem pausing_paces (s : State) (l c : Nat) :
    ((s.paces l).link l).pausing.contains c = true ↔ (c = 0 ∨ c = 2) ∧ Config.inboxRoom ≤ s.waitingIn c := by
  unfold State.paces
  rw [link_modLink]
  simp

/-! ## What the receiver answers (R312) -/

/-- A link after the next flit in sequence, which it acknowledges with the 64th. -/
def Link.received (now : Nat) (k : Link) : Link :=
  if k.sinceAck < 63 then { k with expect := (k.expect + 1) % 4096, gapNaked := false, sinceAck := k.sinceAck + 1 }
  else { k with expect := (k.expect + 1) % 4096, gapNaked := false, sinceAck := 0, ackAt := now
                lastAck := some (false, ((k.expect + 1) % 4096 + 4095) % 4096) }

section
variable {s : State} {l seq : Nat} (up : (s.link l).up = true)
include up

theorem exec_flitReceive_next (next : seq = (s.link l).expect) (body : FlitBody) :
    exec (.flitReceive l seq true body) s = .next (((s.modLink l (Link.received s.now)).accept l body).paces l) := by
  have received : ∀ k : Link,
      (let k' : Link := { k with expect := (k.expect + 1) % 4096, gapNaked := false, sinceAck := k.sinceAck + 1 }
       if 64 ≤ k'.sinceAck then k'.sendAck s.now else k') = k.received s.now := fun k => by
    unfold Link.received
    by_cases few : k.sinceAck < 63
    · rw [if_pos few]; exact if_neg (show ¬ 64 ≤ k.sinceAck + 1 by omega)
    · rw [if_neg few]; exact if_pos (show 64 ≤ k.sinceAck + 1 by omega)
  show execFlitReceive l seq true body s = _
  unfold execFlitReceive
  refine congrArg Host.Outcome.next ((if_neg (by simp [up])).trans ((if_pos (by simp [next])).trans ?_))
  exact congrArg (fun f => ((s.modLink l f).accept l body).paces l) (funext received)

theorem exec_flitReceive_gap {good : Bool} (gap : seq ≠ (s.link l).expect ∨ good = false) (body : FlitBody) :
    exec (.flitReceive l seq good body) s = .next (s.modLink l fun k =>
      if k.gapNaked then k else { k with gapNaked := true, lastAck := some (true, k.expect) }) := by
  refine congrArg Host.Outcome.next ((if_neg (by simp [up])).trans (if_neg ?_))
  rcases gap with gap | gap <;> simp [gap]

end

theorem exec_ackInterval {s : State} {l : Nat} (some : (s.link l).sinceAck ≠ 0) (due : (s.link l).ackAt + 700 ≤ s.now) :
    exec (.ackInterval l) s = .next ((s.paces l).modLink l fun k => k.sendAck s.now) :=
  congrArg Host.Outcome.next (if_pos (by simp [some, show (s.link l).ackAt + Config.ns 100 ≤ (s.paces l).now from due]))

/-- Settles O52: each event of a link by its equation. -/
theorem links : Obligations.Links := by
  intro s l seq i cls good body k
  refine ⟨fun up place => exec_linkAck up place, fun up place => ⟨_, exec_linkNak up place, ?_⟩, exec_linkAckTimeout,
    fun real _ worn => ⟨_, exec_linkRetrain_fails real worn, by rw [link_modLink], by rw [link_modLink]⟩,
    fun other real => ⟨_, exec_pauseFrame s l other real true, ?_⟩, rfl, fun up next => exec_flitReceive_next up next body,
    fun up gap => exec_flitReceive_gap up gap body, fun some due => exec_ackInterval some due, pausing_paces s l⟩
  · beta_reduce
    rw [link_modLink, acked_resent]
    exact ⟨rfl, rfl, rfl⟩
  · beta_reduce
    rw [link_modLink]
    simp

end Sys2Proof.Machine

/-!
PROOFS. O53 (R231, R307, R313, R314, R316, R358): requests between devices: performed once, answered, sent again, and freed.
-/

namespace Sys2Proof.Machine

/-! ## Answers (R307, R316) -/

/-- An answer that is no command's read is one reply. -/
theorem readReply_plain (id : Nat) (y : Ret) (b : List Byte) (bad : List Nat) : readReply id y false b bad = [.reply id y b bad] := rfl

/-- Up to 256 bytes of a command's read come in one packet. -/
theorem readReply_one (id : Nat) (y : Ret) {b : List Byte} (nonempty : 0 < b.length) (few : b.length ≤ 256) :
    readReply id y true b [] = [.data id y 0 b.length b []] := by
  have filled : b.isEmpty = false := by cases b with
    | nil => exact absurd nonempty (Nat.lt_irrefl 0)
    | cons => rfl
  have packets : (b.length + 255) / 256 = 1 := by omega
  unfold readReply
  simp [filled, packets, List.take_of_length_le few]

theorem answerTo_reply (s : State) (src id : Nat) (y : Ret) (b : List Byte) (bad : List Nat) :
    s.answerTo src id y false false (.done b bad) = s.sendTo src (.reply id y b bad) := rfl

/-- A write that is performed is recorded with its reply. -/
theorem answerTo_recorded (s : State) (src id : Nat) (y : Ret) (b : List Byte) :
    s.answerTo src id y true false (.done b []) = (s.record src id b).sendTo src (.reply id y b []) := rfl

theorem answerTo_data (s : State) (src id : Nat) (y : Ret) {b : List Byte} (nonempty : 0 < b.length) (few : b.length ≤ 256) :
    s.answerTo src id y false true (.done b []) = s.sendTo src (.data id y 0 b.length b []) := by
  unfold State.answerTo
  simp only [readReply_one id y nonempty few]
  rfl

/-! ## `REMOTE_WRITE_RECEIVE` (R231, R314) -/

/-- What a request that has been performed, or passed on, finds recorded of it. -/
def State.recorded (s : State) (src id : Nat) : Option Dedupe := s.fab.dedupe.find? fun d => d.src == src && d.id == id

/-- A read, or a write that is new, finds the device ready to perform it. -/
structure Fits (s : State) (src id : Nat) (x : Carry) (op : RemOp) : Prop where
  fresh : op.storing = true → s.recorded src id = none ∧ s.passedOn src id none = false ∧ s.fab.dedupe.length < Config.dedupeCap
  room : engineRead x op = true → s.noRoom src 2 = false

section
variable {s : State} {src id : Nat} {op : RemOp}

theorem exec_remoteWrite_recorded {d : Dedupe} (stores : op.storing = true) (found : s.recorded src id = some d) (phys : Bool)
    (addr dom key : Nat) (x : Carry) :
    exec (.remoteWriteReceive src id phys addr dom ⟨key, x⟩ op) s = .next (s.sendTo src (.reply id (retOf x) d.reply [])) := by
  have looked : (if op.storing then s.fab.dedupe.find? fun d => d.src == src && d.id == id else none) = some d := (if_pos stores).trans found
  show execRemoteWriteReceive src id phys addr dom ⟨key, x⟩ op s = _
  unfold execRemoteWriteReceive
  rw [looked]

theorem exec_remoteWrite_passedOn (stores : op.storing = true) (new : s.recorded src id = none) (passed : s.passedOn src id none = true)
    (phys : Bool) (addr dom key : Nat) (x : Carry) : exec (.remoteWriteReceive src id phys addr dom ⟨key, x⟩ op) s = .next s := by
  have looked : (if op.storing then s.fab.dedupe.find? fun d => d.src == src && d.id == id else none) = none := (if_pos stores).trans new
  show execRemoteWriteReceive src id phys addr dom ⟨key, x⟩ op s = _
  unfold execRemoteWriteReceive
  rw [looked]
  exact congrArg Host.Outcome.next (if_pos (by simp [stores, passed]))

variable {x : Carry}

section
variable (fits : Fits s src id x op)
include fits

theorem Fits.notRecorded : (if op.storing then s.fab.dedupe.find? fun d => d.src == src && d.id == id else none) = none := by
  cases stores : op.storing with
  | true => exact (fits.fresh stores).1
  | false => rfl

theorem Fits.notPassedOn : (op.storing && s.passedOn src id none) = false := by
  cases stores : op.storing with
  | true => exact (fits.fresh stores).2.1
  | false => rfl

theorem Fits.canAnswer : (engineRead x op && s.noRoom src 2) = false := by
  cases engine : engineRead x op with
  | true => exact fits.room engine
  | false => rfl

theorem Fits.canRecord : (op.storing && decide (Config.dedupeCap ≤ s.fab.dedupe.length)) = false := by
  cases stores : op.storing with
  | true => exact decide_eq_false (Nat.not_le.mpr (fits.fresh stores).2.2)
  | false => rfl

end

theorem engineRead_read (x : Carry) (n : Nat) : engineRead x (.read n) = (x.acc == 5) := Bool.and_true _

theorem engineRead_write (x : Carry) (b : List Byte) : engineRead x (.write b) = false := Bool.and_false _

theorem fits_read {n : Nat} (room : x.acc = 5 → s.noRoom src 2 = false) : Fits s src id x (.read n) :=
  ⟨nofun, fun engine => room (by simpa [engineRead_read] using engine)⟩

theorem fits_write {b : List Byte} (new : s.recorded src id = none) (here : s.passedOn src id none = false)
    (few : s.fab.dedupe.length < Config.dedupeCap) : Fits s src id x (.write b) :=
  ⟨fun _ => ⟨new, here, few⟩, fun engine => by simp [engineRead_write] at engine⟩

variable (fits : Fits s src id x op) (plain : (∃ n, op = .read n) ∨ ∃ b, op = .write b)
include fits plain

/-- A request to a frame is performed in memory. -/
theorem exec_remoteWrite_frame (addr dom key : Nat) :
    exec (.remoteWriteReceive src id true addr dom ⟨key, x⟩ op) s
      = .next ((s.physParts (op.parts addr)).1.answerTo src id (retOf x) op.storing (engineRead x op)
          (.done (s.physParts (op.parts addr)).2 [])) := by
  show execRemoteWriteReceive src id true addr dom ⟨key, x⟩ op s = _
  unfold execRemoteWriteReceive
  simp only [fits.notRecorded, fits.notPassedOn, fits.canAnswer, fits.canRecord, Bool.false_eq_true, if_false, if_true]
  rcases plain with ⟨n, rfl⟩ | ⟨b, rfl⟩ <;> rfl

/-- A request to a home of this device that the home performs is answered. -/
theorem exec_remoteWrite_home {r : State} {addr dom key h : Nat} {b : List Byte} {bad : List Nat}
    (home : homeOf s.fw addr = some (s.fw.dev, h))
    (performed : s.outsideServe src h (outsidePacket s x op addr h dom key) op.atomic (op.parts addr) = (r, .done b bad)) :
    exec (.remoteWriteReceive src id false addr dom ⟨key, x⟩ op) s
      = .next (r.answerTo src id (retOf x (r.rmostAt addr)) op.storing (engineRead x op) (.done b bad)) := by
  show execRemoteWriteReceive src id false addr dom ⟨key, x⟩ op s = _
  unfold execRemoteWriteReceive
  simp only [fits.notRecorded, fits.notPassedOn, fits.canAnswer, fits.canRecord, Bool.false_eq_true, if_false, home, bne_self_eq_false]
  rcases plain with ⟨n, rfl⟩ | ⟨b', rfl⟩ <;> simp only [performed]

end

/-! ## `MESSAGE_PACKET_RECEIVE` (R316) -/

section
variable {s : State} {src id : Nat}

theorem exec_messagePacket_recorded {d : Dedupe} (found : s.recorded src id = some d) (phys : Bool) (addr dom : Nat) (pass : Pass)
    (off total : Nat) (bytes : List Byte) :
    exec (.messagePacketReceive src id phys addr dom pass off total bytes) s = .next (s.sendTo src (.reply id (retOf pass.x) d.reply [])) := by
  have looked : (s.fab.dedupe.find? fun d => d.src == src && d.id == id) = some d := found
  show execMessagePacketReceive src id phys addr dom pass off total bytes s = _
  unfold execMessagePacketReceive
  rw [looked]

/-- The bytes of a new packet are performed, and counted. -/
theorem exec_messagePacket_frame {t : State} {off total : Nat} (new : s.recorded src id = none)
    (here : s.passedOn src id (some off) = false) (opened : s.openMessage src id total = some t) (addr dom : Nat) (pass : Pass)
    (bytes : List Byte) :
    exec (.messagePacketReceive src id true addr dom pass off total bytes) s
      = .next ((t.physParts [(addr, .write bytes)]).1.countUnit src id off bytes.length total (retOf pass.x)) := by
  have looked : (s.fab.dedupe.find? fun d => d.src == src && d.id == id) = none := new
  show execMessagePacketReceive src id true addr dom pass off total bytes s = _
  unfold execMessagePacketReceive
  simp only [looked, here, opened, Bool.false_eq_true, if_false, if_true]

end

/-! ## Resends (R313, R358) -/

section
variable {s : State} {req : Nat} {q : RemReq} (hq : look s.fab.reqs req = some q) (free : s.hold? (q.for_.holdKey req) = none)
  (unanswered : q.done = none) (running : q.failed = false) (whole : unsent q.body = 0)
include hq free unanswered running whole

/-- A request with no reply and no hold. -/
theorem exec_remoteResend : exec (.remoteResendTimeout req) s = .next (
    if s.now < q.sentAt + 8 * 7000 then s
    else if 4 ≤ q.sends then s.gotError none req retNone
    else if s.noRoom q.dest (flitCls q.body) then s
    else s.sendAgain req q) := by
  show execRemoteResendTimeout req s = _
  unfold execRemoteResendTimeout
  simp only [hq, free, unanswered, running, whole, Option.isSome_none, Bool.false_or, Nat.lt_irrefl, decide_false]
  simp only [decide_eq_true_eq]
  rfl

end

theorem flitCls_mapCarry (f : Carry → Carry) (b : FlitBody) : flitCls (mapCarry f b) = flitCls b := by cases b <;> rfl

theorem sendTo_reqs (s : State) (dest : Nat) (b : FlitBody) (via : Option Nat) : (s.sendTo dest b via).fab.reqs = s.fab.reqs := by
  unfold State.sendTo
  dsimp only
  split
  · unfold State.sendFlit; rfl
  · rfl

theorem sendAll_reqs (s : State) (dest : Nat) (b : FlitBody) (via : Option Nat) : (s.sendAll dest b via).fab.reqs = s.fab.reqs := by
  unfold State.sendAll
  exact foldl_keeps (P := fun r : State => r.fab.reqs = s.fab.reqs) _ (fun r f same => (sendTo_reqs r dest f via).trans same) _ rfl

theorem getElem?_pick {l : List Nat} (nonempty : l ≠ []) (s : State) : ∃ x ∈ l, l[s.pick l.length]? = some x := by
  have short : s.pick l.length < l.length := Nat.mod_lt _ (List.length_pos_iff.mpr nonempty)
  exact ⟨l[s.pick l.length], List.getElem_mem short, List.getElem?_eq_getElem short⟩

/-- A request that is sent again is counted, over another link where one is open. -/
theorem sendAgain_other {s : State} {req : Nat} {q : RemReq} (hq : look s.fab.reqs req = some q) {l : Nat} (linked : q.link = some l)
    (other : ∃ e ∈ s.openLinks q.dest (flitCls q.body), e ≠ l) :
    (look (s.sendAgain req q).fab.reqs req).map (fun r => (r.sends, r.sentAt, r.link == some l)) = some (q.sends + 1, s.now, false) := by
  obtain ⟨e, open_, ne⟩ := other
  unfold State.sendAgain
  simp only [sendAll_reqs, flitCls_mapCarry, linked]
  set others := (s.openLinks q.dest (flitCls q.body)).filter fun e => some l != some e with hothers
  have nonempty : others ≠ [] := List.ne_nil_of_mem (List.mem_filter.mpr ⟨open_, by simpa using ne.symm⟩)
  obtain ⟨e', mem, pick⟩ := getElem?_pick nonempty s
  have differs : e' ≠ l := Ne.symm (by simpa using (List.mem_filter.mp mem).2)
  rw [if_neg (by simpa using nonempty), pick]
  show (look (upd s.fab.reqs req _) req).map _ = _
  rw [look_upd, if_pos rfl, hq]
  simp [differs]

/-! ## Request ids (R313) -/

theorem exec_requestIdReuse {s : State} {u : Nat × Nat} {rest : List (Nat × Nat)} (used : s.fab.used = u :: rest)
    (old : u.2 + 128 * 7000 ≤ s.now) (idle : s.net.packets = []) :
    exec .requestIdReuse s = .next (s.setFab { s.fab with used := rest }) := by
  show execRequestIdReuse s = _
  unfold execRequestIdReuse
  rw [used]
  refine congrArg Host.Outcome.next ((if_neg (Nat.not_lt.mpr old)).trans ?_)
  simp only [setFab_net, idle, List.filter_nil]
  rfl

/-- Settles O53: each event by its equation, a resend by `sendAgain_other`. -/
theorem remoteRequests : Obligations.RemoteRequests := by
  intro s src id addr dom key req x y op d q off total bytes bad
  refine ⟨fun stores found => exec_remoteWrite_recorded stores found false addr dom key x,
    fun stores new passed => exec_remoteWrite_passedOn stores new passed false addr dom key x, ?read, ?write, ?home, rfl, rfl,
    answerTo_reply s src id y bytes bad, answerTo_recorded s src id y bytes, fun nonempty few => answerTo_data s src id y nonempty few,
    ⟨_, rfl, rfl, rfl, rfl⟩, fun found => exec_messagePacket_recorded found true addr dom ⟨key, x⟩ off total bytes,
    fun t new here opened => exec_messagePacket_frame new here opened addr dom ⟨key, x⟩ bytes, ?resend,
    fun u rest used old idle => exec_requestIdReuse used old idle⟩
  case read =>
    rintro n rfl room
    have performed := exec_remoteWrite_frame (id := id) (fits_read room) (.inl ⟨n, rfl⟩) addr dom key
    rw [engineRead_read] at performed
    exact performed
  case write =>
    rintro rfl new here few
    have performed := exec_remoteWrite_frame (x := x) (fits_write new here few) (.inr ⟨bytes, rfl⟩) addr dom key
    rw [engineRead_write] at performed
    exact performed
  case home =>
    rintro h r b (⟨⟨n, rfl, room⟩⟩ | ⟨rfl, here, new, few⟩) home performed
    · exact exec_remoteWrite_home (fits_read room) (.inl ⟨n, rfl⟩) home performed
    · exact exec_remoteWrite_home (fits_write new here few) (.inr ⟨bytes, rfl⟩) home performed
  case resend =>
    intro hq free unanswered running whole
    have resend := exec_remoteResend hq free unanswered running whole
    refine ⟨fun early => resend.trans (congrArg _ (if_pos early)), fun late many => ?_, fun late few room => ⟨?_, fun l linked other =>
      sendAgain_other hq linked other⟩⟩
    · rw [resend, if_neg (Nat.not_lt.mpr late), if_pos many]
    · rw [resend, if_neg (Nat.not_lt.mpr late), if_neg (Nat.not_le.mpr few), room]; rfl

end Sys2Proof.Machine

/-!
PROOFS. What a release leaves alone: memory, the homes, the packets, the links, the contexts and the identifiers are all that it touches
(R279). Support of O37 and O45.
-/

namespace Sys2Proof.Machine

namespace OffMemory

variable {α : Type} {p : State → α} (v : OffMemory p)
include v

theorem writeBackRange (s : State) (lo hi : Nat) (drop : Bool) (only : Nat → Bool) : p (s.writeBackRange lo hi drop only) = p s := by
  unfold State.writeBackRange
  refine foldl_same (fun t pg => ?_) _ s
  split
  · split
    · exact ite_same (v.mem _ _) rfl
    · rfl
  · rfl

theorem releaseAt (s : State) (core : Nat) (sc : Scope) : p (s.releaseAt core sc) = p s := by
  have sectors : p (if 6 ≤ sc.rank then (s.flushRsc (coreSector core) fun _ => true).sendKept (coreSector core) fun _ => true else s) = p s :=
    ite_same ((v.sendKept _ _ _).trans (v.flushRsc _ _ _)) rfl
  unfold State.releaseAt State.flushHost
  exact ite_same ((v.writeBackRange _ _ _ _ _).trans sectors) sectors

end OffMemory

/-- All of the machine that a write to memory leaves alone. -/
def State.offMemory (s t : State) : State :=
  { t with mem := s.mem, net := s.net, homes := s.homes, ctxs := s.ctxs, fab := s.fab, ids := s.ids }

theorem offMemory_rest (s : State) : OffMemory s.offMemory :=
  ⟨fun _ _ => rfl, fun _ _ => rfl, fun _ _ => rfl, fun _ _ => rfl, fun _ _ => rfl, fun _ _ => rfl⟩

theorem releaseAt_rest (s : State) (core : Nat) (sc : Scope) : s.offMemory (s.releaseAt core sc) = s :=
  (offMemory_rest s).releaseAt s core sc

end Sys2Proof.Machine

/-!
PROOFS. O37 (R331): `LAUNCH` takes a tag and hands its record to the ringmaster of this device, or traps.
-/

namespace Sys2Proof.Machine

/-! ## Traps of `LAUNCH` (R331) -/

/-- What waits for the tag of a `LAUNCH`. -/
def Cur.wantsLaunch (c : Cur) (s : State) (d : BitVec 5) (graph early : Bool) (ka : Nat) : TagWait :=
  { id := s.ids, block := c.grp.block, dom := s.domOf c.grp.launch, launch := c.grp.launch, grp := c.g, arm := c.arm
    d := d, len := 8, cmd := none, graph := graph, early := early, target := ka }

theorem aligned_bad {a n : Nat} (bad : a % n ≠ 0) (s : State) (c : Cur) (f : State) :
    s.aligned c [(a, n)] f = s.trapAt c 6 (some (w64 a)) := by
  have first : unaligned [(a, n)] = some a := by
    unfold unaligned
    rw [List.find?_cons_of_pos (by simpa using bad)]
    rfl
  unfold State.aligned
  rw [first]

section
variable {g : Guard} {s : State} {c : Cur} (h : Fresh s c g true) (graph early : Bool) (d a : BitVec 5)
include h

/-- A `LAUNCH` that the path has not begun. -/
theorem exec_launch : exec (.launch g graph early d a) s = .next (s.aligned c [((c.grp.kr a).toNat, if graph then 64 else 128)] <|
    if (s.coreCheck c.core c.grp.launch 1 (c.grp.kr a).toNat).isNone then s.trapAt c 4 (some (w64 (c.grp.kr a).toNat))
    else
      let t := s.takeTag c (c.wantsLaunch s d graph early (c.grp.kr a).toNat)
      match (t.pathOf c.g c.arm).prog with
      | .launch tag gen mark => t.launchOn c (.launch g graph early d a) tag gen mark
      | _ => t) := by
  show execLaunch g graph early d a s = _
  unfold execLaunch
  rw [onPath_cur h.cur, h.prog]
  dsimp only
  rw [engine_fresh h]
  rfl

theorem launch_misaligned (odd : (c.grp.kr a).toNat % (if graph then 64 else 128) ≠ 0) :
    exec (.launch g graph early d a) s = .next (s.trapAt c 6 (some (w64 (c.grp.kr a).toNat))) := by
  rw [exec_launch h graph early d a, aligned_bad odd]

variable (even : (c.grp.kr a).toNat % (if graph then 64 else 128) = 0)
include even

theorem launch_unreadable (unreadable : s.coreCheck c.core c.grp.launch 1 (c.grp.kr a).toNat = none) :
    exec (.launch g graph early d a) s = .next (s.trapAt c 4 (some (w64 (c.grp.kr a).toNat))) := by
  rw [exec_launch h graph early d a, aligned_of (by simpa using even), unreadable]
  rfl

end

/-! ## A `LAUNCH` takes its tag (R197, R331) -/

/-- A tag as a `LAUNCH` of the current path takes it. -/
def Cur.launchTag (c : Cur) (s : State) (graph early : Bool) (ka n : Nat) : Tag :=
  { gen := s.nextGen c.core n, owner := some c.grp.launch, block := c.grp.block, kind := 2, done := false, status := 0, taddr := 0
    graph := graph, early := early, target := ka, cls := 0 }

/-- A `LAUNCH` holds tag `n`, and its handle is written. -/
def State.launchHeld (s : State) (c : Cur) (d : BitVec 5) (graph early : Bool) (ka n : Nat) : State :=
  (s.next.modCore c.core fun K => { K with tags := put K.tags n (c.launchTag s graph early ka n) }).modGroup c.g fun G =>
    G.kw d (handleOf 2 c.core (s.nextGen c.core n) n)

/-- Its path remembers the tag. -/
def State.launching (s : State) (c : Cur) (d : BitVec 5) (graph early : Bool) (ka n : Nat) : State :=
  (s.launchHeld c d graph early ka n).modPath c.g c.arm fun p => { p with prog := .launch n (s.nextGen c.core n) (s.ids + 1) }

/-- With nobody before it, it takes the tag that is free. -/
theorem takeTag_launching {s : State} {c : Cur} {n : Nat} (nobody : (s.core c.core).tagWait = [])
    (free : (s.core c.core).freeTagNo = some n) (d : BitVec 5) (graph early : Bool) (ka : Nat) :
    s.takeTag c (c.wantsLaunch s d graph early ka) = s.launching c d graph early ka n := by
  unfold State.takeTag State.nextTagWait
  rw [nobody, free]
  dsimp only
  rw [List.nil_append, fairHead_single]
  dsimp only
  rw [if_pos rfl]; rfl

theorem accs_kw (G : Group) (d : BitVec 5) (x : W64) : (G.kw d x).accs = G.accs := by unfold Group.kw; split <;> rfl

section
variable {s : State} {c : Cur} (d : BitVec 5) (graph early : Bool) (ka n : Nat)

theorem tag_launching : get tagReset ((s.launching c d graph early ka n).core c.core).tags n = c.launchTag s graph early ka n := by
  have tags : ((s.launching c d graph early ka n).core c.core).tags = put (s.core c.core).tags n (c.launchTag s graph early ka n) :=
    congrArg Core.tags (core_modCore_same s.next c.core fun K => { K with tags := put K.tags n (c.launchTag s graph early ka n) })
  rw [tags, get_put, if_pos rfl]

variable (hc : s.cur = some c)
include hc

theorem group?_launchHeld : (s.launchHeld c d graph early ka n).group? c.g = some (c.grp.kw d (handleOf 2 c.core (s.nextGen c.core n) n)) := by
  obtain ⟨-, hg, -⟩ := cur_spec hc
  have there : (s.next.modCore c.core fun K => { K with tags := put K.tags n (c.launchTag s graph early ka n) }).group? c.g = some c.grp := hg
  unfold State.launchHeld
  rw [group?_modGroup, if_pos rfl, there]
  rfl

theorem path?_launchHeld : ((s.launchHeld c d graph early ka n).path? c.g c.arm).isSome = true := by
  obtain ⟨-, -, hp⟩ := cur_spec hc
  rw [path?_isSome (group?_launchHeld d graph early ka n hc), Group.arm?, (stands_kw c.grp d _).1]
  exact congrArg Option.isSome hp

theorem prog_launching : ((s.launching c d graph early ka n).pathOf c.g c.arm).prog = .launch n (s.nextGen c.core n) (s.ids + 1) := by
  unfold State.launching
  rw [pathOf_modPath _ _ _ _ (path?_launchHeld d graph early ka n hc)]

/-- A group without accesses, and no write under way: the release of the `LAUNCH` is done. -/
theorem relDone_launching (idle : c.grp.accs = []) (reads : ∀ e ∈ s.net.packets, e.2.kind.isStore = false) (lanes : Lanes) (mark : Nat) :
    (s.launching c d graph early ka n).relDone c.g lanes mark .dev = true := by
  have accs : ((s.launching c d graph early ka n).grpOf c.g).accs = [] := by
    have grp : (s.launchHeld c d graph early ka n).grpOf c.g = c.grp.kw d (handleOf 2 c.core (s.nextGen c.core n) n) := by
      unfold State.grpOf; rw [group?_launchHeld d graph early ka n hc]; rfl
    unfold State.launching State.modPath
    rw [grpOf_modGroup _ _ _ (by rw [group?_launchHeld d graph early ka n hc]; rfl), grp]
    exact (accs_kw c.grp d _).trans idle
  unfold State.relDone
  rw [accs]
  refine (Bool.or_eq_true _ _).mpr (.inr ?_)
  simp only [List.all_nil, Bool.true_and, Bool.or_eq_true, List.all_eq_true]
  refine .inr fun e he => .inl ?_
  have none := reads e he
  unfold State.mayPrecede
  simp [none]

end

/-! ## The hand-over (R331) -/

/-- A record at an address homed here joins the ringmaster's queue while that has room. -/
theorem handOver_here {s : State} {ka h : Nat} (home : homeOf s.fw ka = some (s.fw.dev, h))
    (room : s.ring.queue.length < Config.ringCap) (graph early : Bool) (launch core tag gen : Nat) :
    s.handOver ka graph early launch core tag gen = some (s.setRing { s.ring with
      queue := s.ring.queue ++
        [{ addr := ka, graph := graph, early := early, dom := s.domOf launch, issuer := launch, origin := .tag core tag gen }] }) := by
  unfold State.handOver
  rw [home]
  exact (if_pos rfl).trans (if_pos room)

/-- A path that goes on remembers nothing of its instruction. -/
theorem goto_modProg (s : State) (c : Cur) (x : Prog) (pc : W64) :
    (s.modPath c.g c.arm fun p => { p with prog := x }).goto c pc = s.goto c pc := by
  have forgets : ((s.modPath c.g c.arm fun p => { p with prog := x }).modPath c.g c.arm fun p =>
      { p with pc := pc, st := .ready, prog := .none, last := s.tick })
      = s.modPath c.g c.arm fun p => { p with pc := pc, st := .ready, prog := .none, last := s.tick } := by
    unfold State.modPath
    rw [modGroup_modGroup]
    refine congrArg (s.modGroup c.g) (funext fun G => ?_)
    unfold Group.modArm
    dsimp only
    rw [List.modify_modify_eq]
    rfl
  exact congrArg (State.settlePath · c.g c.arm) forgets

/-- What a `LAUNCH` hands over. -/
def Cur.handoff (c : Cur) (s : State) (graph early : Bool) (ka n : Nat) : Handoff :=
  { addr := ka, graph := graph, early := early, dom := s.domOf c.grp.launch, issuer := c.grp.launch
    origin := .tag c.core n (s.nextGen c.core n) }

/-- Its release done, the record stands in the queue. -/
def State.recordHanded (s : State) (c : Cur) (d : BitVec 5) (graph early : Bool) (ka n : Nat) : State :=
  let r := (s.launching c d graph early ka n).releaseAt c.core .dev
  r.setRing { r.ring with queue := r.ring.queue ++ [c.handoff s graph early ka n] }

theorem launchOn_hands {s : State} {c : Cur} (hc : s.cur = some c) (d : BitVec 5) (graph early : Bool) {ka n h : Nat}
    (home : homeOf s.fw ka = some (s.fw.dev, h)) (idle : c.grp.accs = []) (reads : ∀ e ∈ s.net.packets, e.2.kind.isStore = false)
    (room : s.ring.queue.length < Config.ringCap) (i : Instr) (mark : Nat) :
    (s.launching c d graph early ka n).launchOn c i n (s.nextGen c.core n) mark = (s.recordHanded c d graph early ka n).advance c i := by
  have rest := releaseAt_rest (s.launching c d graph early ka n) c.core .dev
  have fw : ((s.launching c d graph early ka n).releaseAt c.core .dev).fw = s.fw := (congrArg State.fw rest :)
  have ring : ((s.launching c d graph early ka n).releaseAt c.core .dev).ring = s.ring := (congrArg State.ring rest :)
  have dom : ((s.launching c d graph early ka n).releaseAt c.core .dev).domOf c.grp.launch = s.domOf c.grp.launch :=
    (congrArg (State.domOf · c.grp.launch) rest :)
  have hands := handOver_here (s := (s.launching c d graph early ka n).releaseAt c.core .dev) (ka := ka) (h := h)
    (by rw [fw]; exact home) (by rw [ring]; exact room) graph early c.grp.launch c.core n (s.nextGen c.core n)
  rw [dom] at hands
  unfold State.launchOn
  rw [relDone_launching d graph early ka n hc idle reads, tag_launching]
  refine (if_neg (by decide)).trans ?_
  dsimp only [Cur.launchTag]
  rw [hands]
  rfl

section
variable {s : State} {c : Cur} (hc : s.cur = some c) (hchip : c.path.onChip = true) (d : BitVec 5) (graph early : Bool) (ka n : Nat)

theorem recordHanded_queue : (s.recordHanded c d graph early ka n).ring.queue = s.ring.queue ++ [c.handoff s graph early ka n] := by
  have ring : ((s.launching c d graph early ka n).releaseAt c.core .dev).ring = s.ring :=
    (congrArg State.ring (releaseAt_rest (s.launching c d graph early ka n) c.core .dev) :)
  show ((s.launching c d graph early ka n).releaseAt c.core .dev).ring.queue ++ _ = _
  rw [ring]

include hc hchip

/-- Then the path goes on, and its handle names the tag. -/
theorem recordHanded_goes (pc : W64) :
    let u := (s.recordHanded c d graph early ka n).goto c pc
    (d ≠ 0 → (u.grpOf c.g).kr d = handleOf 2 c.core (s.nextGen c.core n) n) ∧ u.ring = (s.recordHanded c d graph early ka n).ring
      ∧ GoesOn s u c pc := by
  obtain ⟨-, -, hp⟩ := cur_spec hc
  obtain ⟨harms, hrecon, hexited⟩ := stands_kw c.grp d (handleOf 2 c.core (s.nextGen c.core n) n)
  have rest := releaseAt_rest (s.launching c d graph early ka n) c.core .dev
  have groups : (s.recordHanded c d graph early ka n).groups = (s.launching c d graph early ka n).groups := (congrArg State.groups rest :)
  have tick : (s.recordHanded c d graph early ka n).tick = s.tick := (congrArg State.tick rest :)
  -- the same with what the path remembers taken away
  set v := (s.recordHanded c d graph early ka n).setGroups (s.launchHeld c d graph early ka n).groups with hv
  have own : v.group? c.g = some (c.grp.kw d (handleOf 2 c.core (s.nextGen c.core n) n)) := group?_launchHeld d graph early ka n hc
  have remembers : s.recordHanded c d graph early ka n
      = v.modPath c.g c.arm fun p => { p with prog := .launch n (s.nextGen c.core n) (s.ids + 1) } :=
    (congrArg (s.recordHanded c d graph early ka n).setGroups groups :)
  obtain ⟨moved, goes⟩ := goto_of (s := s) own hp harms hrecon hexited tick hchip pc
  have grp : v.grpOf c.g = c.grp.kw d (handleOf 2 c.core (s.nextGen c.core n) n) := by unfold State.grpOf; rw [own]; rfl
  intro u
  have same : u = v.goto c pc := (congrArg (State.goto · c pc) remembers).trans (goto_modProg v c _ pc)
  rw [same]
  refine ⟨fun hd => ?_, (congrArg State.ring moved.rest :), goes⟩
  rw [kr_of_paths (grp ▸ moved.grp), kr_kw, if_pos ⟨rfl, hd⟩]

end

/-- Settles O37: a record that is not aligned or not readable traps; another takes the tag, its release has nothing to wait for, and the
queue takes it. -/
theorem launches : Obligations.Launches := by
  intro g graph early d a s c h i ka
  refine ⟨launch_misaligned h graph early d a, launch_unreadable h graph early d a, ?_⟩
  intro n home even readable nobody free homed idle reads room
  have readable' : (s.coreCheck c.core c.grp.launch 1 ka).isNone = false := by simpa using readable
  have does : exec i s = .next ((s.recordHanded c d graph early ka n).advance c i) := by
    rw [exec_launch h graph early d a, aligned_of (by simpa using even), readable', if_neg (by decide)]
    dsimp only
    rw [takeTag_launching nobody free, prog_launching d graph early ka n h.cur]
    exact congrArg Host.Outcome.next (launchOn_hands h.cur d graph early homed idle reads room i _)
  obtain ⟨handle, ring, goes⟩ := recordHanded_goes h.cur h.chip d graph early ka n (c.nextPc i)
  refine ⟨_, does, s.nextGen c.core n, handle, ?_, fun clear => congrArg Path.pc (goes clear)⟩
  exact (congrArg Ring.queue ring).trans (recordHanded_queue d graph early ka n)

end Sys2Proof.Machine

/-!
PROOFS. O45 (R326, R328, R330, R331): what the ringmaster does with the records of its queue, a `LAUNCH` that waits for it, and the nodes
that a walk comes to.
-/

namespace Sys2Proof.Machine

/-! ## The queue (R326, R328, R331) -/

theorem exec_launchAdmission_open {s r : State} {l v : Nat} {h : Handoff} (stands : s.ring.queue[l]? = some h) (record : h.graph = false)
    (admitted : s.admitLaunch h none = (r, .open v)) :
    exec (.launchAdmission l) s = .next (r.setRing { r.ring with queue := r.ring.queue.eraseIdx l }) := by
  show execLaunchAdmission l s = _
  unfold execLaunchAdmission
  rw [stands]
  refine congrArg Host.Outcome.next ((if_neg (by simp [record])).trans ?_)
  rw [admitted]

/-- The only path of the only group hands its record over once its release is done. -/
theorem exec_launchQueueHandoff_only {s r : State} {g tag gen mark : Nat} {K : Group} {p : Path} (one : s.groups = [(g, K)])
    (arm : K.arms = [p]) (holds : p.prog = .launch tag gen mark) (done : s.relDone g p.allLanes mark .dev = true)
    (takes : (s.releaseAt (slotCore g) .dev).handOver (get tagReset (s.core (slotCore g)).tags tag).target
      (get tagReset (s.core (slotCore g)).tags tag).graph (get tagReset (s.core (slotCore g)).tags tag).early K.launch (slotCore g) tag gen
        = some r) :
    exec .launchQueueHandoff s = .next (r.goto { g := g, arm := 0, grp := K, path := p } (p.pc + 8)) := by
  have path : K.armOf 0 = p := by unfold Group.armOf Group.arm?; rw [arm]; rfl
  have cur : s.path? g 0 = some { g := g, arm := 0, grp := K, path := p } := by
    unfold State.path? State.group? Group.arm?
    rw [one]
    simp [look, arm]
  show execLaunchQueueHandoff s = _
  unfold execLaunchQueueHandoff
  simp only [one, List.flatMap_cons, List.flatMap_nil, arm, List.length_singleton, List.range_one, List.filterMap_cons, List.filterMap_nil,
    path, holds, done, if_true, List.append_nil, List.insertionSort_cons, List.insertionSort_nil, List.orderedInsert_nil, List.head?_cons, cur]
  rw [show Cur.core { g := g, arm := 0, grp := K, path := p } = slotCore g from rfl, takes]

theorem exec_graphStart_only {s : State} {h : Handoff} (room : s.ring.graphs.length < 64) (only : s.ring.queue = [h])
    (graph : h.graph = true) (runs : (s.ctx h.dom).stopping = false) (placed : (s.ctx h.dom).pre = none) :
    exec .graphStart s = .next (s.setRing { s.ring with
      queue := []
      graphs := put s.ring.graphs s.ids
        { dom := h.dom, first := h.addr, early := h.early, issuer := h.issuer, origin := h.origin
          walks := [(s.ids + 1, { node := h.addr, st := .at_ })] } }).next.next := by
  have may : s.ring.queue.find? (fun h => h.graph && !(s.ctx h.dom).stopping && (s.ctx h.dom).pre.isNone) = some h := by
    rw [only]
    simp [graph, runs, placed]
  show execGraphStart s = _
  unfold execGraphStart
  refine congrArg Host.Outcome.next ((if_neg (Nat.not_le.mpr room)).trans ?_)
  dsimp only
  rw [may, only]
  simp

/-! ## Nodes (R329, R330) -/

/-- A walk that stands at a node stores nothing of it. -/
theorem walkStores_at {s : State} {graph walk n : Nat} {G : Graph} (stands : s.walkAt graph walk = some (G, n)) (off : Nat) :
    s.walkStores graph walk off = none := by
  unfold State.walkAt at stands
  unfold State.walkStores
  cases runs : s.graphRuns graph with
  | none => rfl
  | some H =>
    rw [runs] at stands
    dsimp only at stands ⊢
    cases at_ : look H.walks walk with
    | none => rfl
    | some w =>
      rw [at_] at stands
      obtain ⟨node, st⟩ := w
      cases st with
      | storing => cases stands
      | _ => rfl

section
variable {s r : State} {graph walk n : Nat} {G : Graph} {b : List Byte} {k : Node} (stands : s.walkAt graph walk = some (G, n))
  (read : s.syncRead (ringWho G.dom [graph, walk, 0]) 1 n 64 = (r, .ok b)) (node : nodeOf b = some k)
include stands read node

/-- A valid node that is read is acted on. -/
theorem onNode_read (f : State → Graph → Nat → Node → State) : s.onNode graph walk f = f r G n k := by
  unfold State.onNode
  rw [stands]
  dsimp only
  rw [read]
  dsimp only
  rw [node]

theorem exec_kernelNode_open {rec v : Nat} {succ : List Nat} {t : State} (kernel : k = .kernel rec succ)
    (admitted : r.admitLaunch { addr := rec, graph := false, early := G.early, dom := G.dom, issuer := G.issuer, origin := .none }
      (some (graph, walk)) = (t, .open v)) :
    exec (.kernelNode graph walk) s = .next
      (t.modGraph graph fun G => { G with walks := put G.walks walk { node := n, st := .launched v succ } }) := by
  subst kernel
  show execKernelNode graph walk s = _
  unfold execKernelNode
  rw [onNode_read stands read node]
  dsimp only
  rw [admitted]

theorem exec_conditionalNode_read {cmp addr y t f : Nat} {signed : Bool} {u : State} {w : List Byte} (cond : k = .cond cmp signed addr y t f)
    (got : r.syncRead (ringWho G.dom [graph, walk, 2]) 1 addr 8 = (u, .ok w)) :
    exec (.conditionalNode graph walk) s
      = .next (u.takeEdges graph walk [if condHolds cmp signed (w64 (ofBytes w)) (w64 y) then t else f]) := by
  subst cond
  show execConditionalNode graph walk s = _
  unfold execConditionalNode
  rw [onNode_read stands read node]
  dsimp only
  rw [got]

end

/-- A field that has been stored: the walk takes its edges. -/
theorem nodeStore_ok {s t : State} {graph walk addr x : Nat} {G : Graph} {succ : List Nat} {w : List Byte}
    (stored : s.sync (ringWho G.dom [graph, walk, 1]) 2 addr (.write (toBytes 4 x)) = (t, .ok w)) :
    s.nodeStore graph walk G addr x succ = t.takeEdges graph walk succ := by
  unfold State.nodeStore
  rw [stored]

/-- A walk stores a field of its node. -/
def State.storing (s : State) (graph walk n off x : Nat) (succ : List Nat) : State :=
  s.modGraph graph fun G => { G with walks := put G.walks walk { node := n, st := .storing (n + off) x succ } }

/-- A node that nobody stores to fixes its field as it is read, and its walk goes on once that is stored. -/
theorem nodeStep_read {s r t : State} {graph walk n : Nat} {G : Graph} {b : List Byte} {k : Node} (stands : s.walkAt graph walk = some (G, n))
    (read : s.syncRead (ringWho G.dom [graph, walk, 0]) 1 n 64 = (r, .ok b)) (node : nodeOf b = some k) (free : r.nodeBusy n = false)
    {f : Node → Option (Nat × List Nat)} {off x : Nat} {succ : List Nat} (step : f k = some (x, succ)) {w : List Byte}
    (stored : (r.storing graph walk n off x succ).sync (ringWho G.dom [graph, walk, 1]) 2 (n + off) (.write (toBytes 4 x)) = (t, .ok w)) :
    s.nodeStep graph walk off f = t.takeEdges graph walk succ := by
  unfold State.nodeStep
  rw [walkStores_at stands]
  dsimp only
  rw [onNode_read stands read node, step]
  exact (if_neg (by simp [free])).trans (nodeStore_ok stored)

/-- A field that was fixed before is stored, and the node not read again. -/
theorem nodeStep_stored {s t : State} {graph walk off addr x : Nat} {G : Graph} {succ : List Nat}
    (stands : s.walkStores graph walk off = some (G, addr, x, succ)) (f : Node → Option (Nat × List Nat)) {w : List Byte}
    (stored : s.sync (ringWho G.dom [graph, walk, 1]) 2 addr (.write (toBytes 4 x)) = (t, .ok w)) :
    s.nodeStep graph walk off f = t.takeEdges graph walk succ := by
  unfold State.nodeStep
  rw [stands]
  exact nodeStore_ok stored

/-- Settles O45: the queue's events by their equations, the nodes by `onNode_read` and `nodeStep_read`. -/
theorem graphs : Obligations.Graphs := by
  intro s r l graph walk h b G n k
  refine ⟨fun v stands record admitted => exec_launchAdmission_open stands record admitted,
    fun g p tag gen mark K one arm holds done takes => exec_launchQueueHandoff_only one arm holds done takes, exec_graphStart_only,
    fun stands read node => ⟨fun rec succ v t kernel admitted => exec_kernelNode_open stands read node kernel admitted,
      fun cmp signed addr y t f u w cond got => exec_conditionalNode_read stands read node cond got, fun x succ t w free =>
        ⟨fun step stored => congrArg Host.Outcome.next (nodeStep_read stands read node free step stored),
          fun step stored => congrArg Host.Outcome.next (nodeStep_read stands read node free step stored)⟩⟩,
    fun cnt bound back out => rfl, fun deps arr succ => rfl, fun addr x succ t w stored =>
      ⟨fun stands => congrArg Host.Outcome.next (nodeStep_stored stands _ stored),
        fun stands => congrArg Host.Outcome.next (nodeStep_stored stands _ stored)⟩⟩

end Sys2Proof.Machine

/-!
PROOFS. O57 (R292, R335, R338 to R341, R42, R44, R337, R340): the safety net. Budgets and checkpoints; what a rollback leaves of a context;
what a restore gives back.
-/

namespace Sys2Proof.Machine

/-! ## Tables -/

theorem mem_of_look {α : Type} {t : Tab α} {i : Nat} {x : α} (h : look t i = some x) : (i, x) ∈ t := by
  induction t with
  | nil => cases h
  | cons e r ih =>
    obtain ⟨k, a⟩ := e
    by_cases same : i = k
    · rw [look, if_pos same] at h
      rw [same, Option.some.inj h]
      exact List.mem_cons_self
    · rw [look, if_neg same] at h
      exact List.mem_cons_of_mem _ (ih h)

theorem of_look_keep {α : Type} {p : Nat → α → Bool} {t : Tab α} {i : Nat} {x : α} (h : look (keep p t) i = some x) : p i x = true :=
  (List.mem_filter.mp (mem_of_look h)).2

/-! ## Budgets (R335) -/

theorem budgetTick_same {s : State} {dom : Nat} (nought : s.domDues dom = 0) : exec (.budgetTick dom) s = .next s :=
  congrArg Host.Outcome.next (if_pos nought)

theorem budgetTick_charges {s : State} {dom : Nat} (owed : s.domDues dom ≠ 0) :
    exec (.budgetTick dom) s = .next ((s.markPaid dom).charge dom (s.domDues dom)) :=
  congrArg Host.Outcome.next (if_neg owed)

theorem dues_of_block {s : State} {b : Nat} {B : Block} (stands : s.block? b = some B) : s.dues b = (s.now - B.paid) / 7000 := by
  unfold State.dues
  rw [stands]
  rfl

theorem block_markPaid {s : State} {dom b : Nat} {B : Block} (stands : s.block? b = some B) (own : s.ofDom dom B.launch = true) :
    (s.markPaid dom).block? b = some { B with paid := B.paid + 7000 * ((s.now - B.paid) / 7000) } := by
  have looked : look s.blocks b = some B := stands
  unfold State.markPaid State.block?
  rw [setBlocks_blocks, look_mapv, looked, Option.map_some, if_pos own, dues_of_block stands]
  rfl

/-- A budget that is used up suspends its domain. -/
theorem charge_suspends {s : State} {dom n : Nat} (spent : s.budget dom ≤ n) : ((s.charge dom n).ctx dom).suspended = true := by
  unfold State.charge
  rw [if_pos (by omega), ctx_modCtx_same]

theorem budgetResume_goes {s : State} {dom : Nat} (held : (s.ctx dom).suspended = true) (pos : 0 < s.budget dom) :
    exec (.budgetResume dom) s = .next (s.modCtx dom fun c => { c with suspended := false }) :=
  congrArg Host.Outcome.next (if_pos (by rw [held, decide_eq_true pos]; rfl))

/-! ## Checkpoints (R338) -/

theorem checkpoint_taken {s : State} {dom : Nat} (due : s.ckDue dom = true) (quiet : s.writesOut dom = false) :
    exec (.checkpoint dom) s = .next (s.performAll.checkpointNow dom) :=
  congrArg Host.Outcome.next (if_neg (by rw [due, quiet]; decide))

/-- Where no atomic is under way in a quad's local memories, none comes to stand. -/
theorem landAtoms_empty {s : State} (empty : ∀ q ∈ s.quads, q.2.qau = []) (q : Nat) (p : QAtom → Bool) : s.landAtoms q p = s := by
  have quiet : (s.quad q).qau = [] := by
    show (get quadReset s.quads q).qau = []
    unfold get
    cases found : look s.quads q with
    | none => rfl
    | some Q => exact empty (q, Q) (mem_of_look found)
  unfold State.landAtoms
  rw [quiet]
  rfl

theorem landAllAtoms_empty {s : State} (empty : ∀ q ∈ s.quads, q.2.qau = []) (p : QAtom → Bool) : s.landAllAtoms p = s :=
  foldl_keeps (P := (· = s)) _ (fun t q same => by subst same; exact landAtoms_empty empty q p) _ rfl

/-- A checkpoint empties the log and leaves the context enclosed (R338, R339). -/
theorem ctx_checkpointNow (s : State) (dom : Nat) :
    ((s.checkpointNow dom).ctx dom).ckpt.isSome = true ∧ ((s.checkpointNow dom).ctx dom).undo = []
      ∧ ((s.checkpointNow dom).ctx dom).logPos = 0 ∧ ((s.checkpointNow dom).ctx dom).exposed = false := by
  unfold State.checkpointNow
  rw [ctx_modCtx_same]
  exact ⟨rfl, rfl, rfl, rfl⟩

/-- With no atomic under way, the checkpoint is of the machine as it stands, and changes nothing but the context. -/
theorem checkpointNow_empty {s : State} (empty : ∀ q ∈ s.quads, q.2.qau = []) (dom : Nat) :
    s.checkpointNow dom = s.setCtxs (s.checkpointNow dom).ctxs ∧ ((s.checkpointNow dom).ctx dom).ckpt = some (s.capture dom)
      ∧ ((s.checkpointNow dom).ctx dom).ckAt = s.now := by
  unfold State.checkpointNow
  rw [landAllAtoms_empty empty, ctx_modCtx_same]
  exact ⟨rfl, rfl, rfl⟩

/-! ## Pre-emption (R340, R341) -/

theorem preemption_begins {s : State} {dom : Nat} (free : (s.ctx dom).pre = none) (stands : (s.ctx dom).ckpt.isSome = true)
    (runs : (s.ctx dom).stopping = false) :
    exec (.preemption dom) s = .next (if (s.ctx dom).exposed
      then (s.modCtx dom fun c => { c with pre := some { since := s.now, why := 1, saved := none, imaged := false } }).saveTraps dom
      else s.rollback dom 1) := by
  show execPreemption dom s = _
  unfold execPreemption
  simp only [free, runs]
  rw [if_neg (by rw [Option.isNone_iff_eq_none]; intro gone; rw [gone] at stands; cases stands)]
  cases (s.ctx dom).exposed <;> rfl

theorem handlerTimeout_halts {s : State} {g : Nat} {h : InTrap} {pre : Preempted}
    (asked : (s.ctx (s.domOf (s.grpOf g).launch)).pre = some pre) (unsaved : pre.saved = none) (inside : (s.grpOf g).inTrap = some h)
    (runs : (s.grpOf g).preempt = none) (late : pre.since + 1000 * 7000 ≤ s.now) :
    Answers s (.preemptionHandlerTimeout g) fun u => (u.grpOf g).arms = [] := by
  refine ⟨s.doubleTrap g h.cause (s.grpOf g).taddr ((s.grpOf g).armOf h.arm).pc, ?_, (doubleTrap_group _ _ _ _ _).1⟩
  obtain ⟨since, why, saved, imaged⟩ := pre
  subst unsaved
  show execPreemptionHandlerTimeout g s = _
  unfold execPreemptionHandlerTimeout
  simp only [asked, inside, runs]
  exact congrArg Host.Outcome.next (if_pos (by rw [Option.isNone_none, Bool.true_and]; exact decide_eq_true late))

/-! ## Rollback (R340) -/

/-- The write-back before a leaf changes touches memory, the packets and what the cores hold of instructions and constants (R207). -/
theorem OffMemory.leafWriteBack {α : Type} {p : State → α} (v : OffMemory p) (cores : ∀ s x, p (State.setCores s x) = p s)
    (s : State) (h a n : Nat) : p (s.leafWriteBack h a n) = p s := by
  unfold State.leafWriteBack
  refine foldl_same (fun t pl => (v.noteWrite _ _ _).trans ?_) _ s
  exact (cores _ _).trans ((v.mem _ _).trans ((v.mem _ _).trans (foldl_same (fun t sec => v.flushRsc t sec _) _ t)))

theorem OffMemory.restoreByte {α : Type} {p : State → α} (v : OffMemory p) (cores : ∀ s x, p (State.setCores s x) = p s)
    (s : State) (a : Nat) (b : Byte) : p (s.restoreByte a b) = p s := by
  unfold State.restoreByte
  dsimp only
  split
  · refine ite_same (v.mem _ _) ?_
    split
    · exact (v.writeStruct _ _ _ _).trans ((v.leafWriteBack cores _ _ _ _).trans (v.mem _ _))
    · split
      · exact ite_same ((v.mem _ _).trans (v.mem _ _)) ((v.mem _ _).trans (v.mem _ _))
      · exact v.mem _ _
  · exact v.mem _ _

/-- A byte undone stands at its place below its home, where no slice holds it. -/
theorem restoreByte_phys {s : State} {a h la l k : Nat} (x : Byte) (home : homeOf s.fw a = some (s.fw.dev, h))
    (plain : s.readStruct h a 1 = none) (leaf : s.leafOf h a = some (la, l)) (key : physKey h l a = some k)
    (uncached : look s.mem.slice a = none) : get 0 (s.restoreByte a x).mem.phys k = x := by
  let t := s.setMem ((s.mem.keepL1 fun k _ => k % 2 ^ 64 != a).keepRsc fun k _ => k % 2 ^ 64 != a)
  have home' : homeOf t.fw a = some (t.fw.dev, h) := home
  have plain' : t.readStruct h a 1 = none := plain
  have leaf' : t.leafOf h a = some (la, l) := leaf
  have uncached' : look t.mem.slice a = none := uncached
  have restored : s.restoreByte a x = t.setMem (t.mem.store k [x]) := by
    unfold State.restoreByte
    simp only [show s.setMem _ = t from rfl, home', plain', leaf', uncached', Option.bind_some, key, bne_self_eq_false,
      Option.isSome_none, Bool.false_eq_true, if_false]
  rw [restored]
  exact get_set_same _ _ _ _

/-- The state after a rollback's undo records are applied (R340). -/
def State.undone (s : State) (dom : Nat) : State :=
  let v := (s.offload dom).setMem ((s.offload dom).mem.keepL1 fun y _ => !(s.storeWords dom).contains y)
  (v.ctx dom).undo.foldl (fun s e => s.restoreByte e.1 e.2) v

theorem undone_off {α : Type} {p : State → α} (v : OffMemory p) (cores : ∀ s x, p (State.setCores s x) = p s) (s : State) (dom : Nat) :
    p (s.undone dom) = p (s.offload dom) := by
  unfold State.undone
  exact (OffMemory.foldl_same (fun t (e : Nat × Byte) => v.restoreByte cores t e.1 e.2) _ _).trans (v.mem _ _)

theorem offMemory_blocks : OffMemory State.blocks :=
  ⟨fun _ _ => rfl, fun _ _ => rfl, fun _ _ => rfl, fun _ _ => rfl, fun _ _ => rfl, fun _ _ => rfl⟩

theorem group?_offload {s : State} {dom g : Nat} (own : (look (s.domGroups dom) g).isSome = true) : (s.offload dom).group? g = none := by
  unfold State.offload State.group?
  dsimp only
  rw [look_keep_key, own]
  rfl

theorem block?_offload {s : State} {dom b : Nat} (own : (look (s.domBlocks dom) b).isSome = true) : (s.offload dom).block? b = none := by
  unfold State.offload State.block?
  dsimp only
  rw [look_keep_key, own]
  rfl

theorem cmd?_offload {s : State} {dom i : Nat} {c : Cmd} (found : (s.offload dom).cmd? i = some c) : c.dom ≠ dom :=
  bne_iff_ne.mp (of_look_keep (p := fun _ (c : Cmd) => c.dom != dom) found)

section
variable {s : State} {dom : Nat} {ck : Ckpt} (stands : (s.ctx dom).ckpt = some ck)
include stands

/-- After the undo records a rollback sets the launches, the ringmaster and the context back. -/
theorem rollback_eq (why : Nat) : ∃ ls ring since, s.rollback dom why = (((s.undone dom).setLaunches ls).setRing ring).modCtx dom fun c =>
    { c with undo := [], logPos := 0, exposed := false, pre := some { since := since, why := why, saved := some ck, imaged := false } } := by
  unfold State.rollback State.undone
  rw [stands]
  exact ⟨_, _, _, rfl⟩

/-- What a rollback leaves of the context: its log empty, enclosed, saved as the checkpoint recorded it. -/
theorem ctx_rollback (why : Nat) :
    (∃ p, ((s.rollback dom why).ctx dom).pre = some p ∧ p.why = why ∧ p.saved = some ck ∧ p.imaged = false)
      ∧ ((s.rollback dom why).ctx dom).undo = [] ∧ ((s.rollback dom why).ctx dom).logPos = 0
      ∧ ((s.rollback dom why).ctx dom).exposed = false := by
  obtain ⟨ls, ring, since, back⟩ := rollback_eq stands why
  rw [back, ctx_modCtx_same]
  exact ⟨⟨_, rfl, rfl, rfl, rfl⟩, rfl, rfl, rfl⟩

/-- A rollback leaves memory, groups, blocks and commands as the undo records leave them. -/
theorem rollback_undone (why : Nat) : (s.rollback dom why).mem = (s.undone dom).mem ∧ (s.rollback dom why).groups = (s.undone dom).groups
    ∧ (s.rollback dom why).blocks = (s.undone dom).blocks ∧ (s.rollback dom why).cmds = (s.undone dom).cmds := by
  obtain ⟨ls, ring, since, back⟩ := rollback_eq stands why
  rw [back]
  simp

/-- After a rollback the cores hold what they hold once the context has left them. -/
theorem rollback_offload (why : Nat) : (s.rollback dom why).groups = (s.offload dom).groups
    ∧ (s.rollback dom why).blocks = (s.offload dom).blocks ∧ (s.rollback dom why).cmds = (s.offload dom).cmds := by
  obtain ⟨-, groups, blocks, cmds⟩ := rollback_undone stands why
  exact ⟨groups.trans (undone_off offMemory_groups (fun _ _ => rfl) s dom), blocks.trans (undone_off offMemory_blocks (fun _ _ => rfl) s dom),
    cmds.trans (undone_off offMemory_cmds (fun _ _ => rfl) s dom)⟩

theorem group?_rollback (why g : Nat) : (s.rollback dom why).group? g = (s.offload dom).group? g :=
  congrArg (look · g) (rollback_offload stands why).1

theorem block?_rollback (why b : Nat) : (s.rollback dom why).block? b = (s.offload dom).block? b :=
  congrArg (look · b) (rollback_offload stands why).2.1

theorem cmd?_rollback (why i : Nat) : (s.rollback dom why).cmd? i = (s.offload dom).cmd? i :=
  congrArg (look · i) (rollback_offload stands why).2.2

end

/-! ## Restoring a context (R42, R44, R337, R340) -/

theorem contextRestore_places {s t z r u : State} {dom : Nat} {pre : Preempted} {ck : Ckpt} (away : (s.ctx dom).pre = some pre)
    (saved : pre.saved = some ck) (here : pre.imaged = false) (runs : (s.ctx dom).stopping = false) (fits : s.restored dom ck = some t)
    (banks : s.clearBanks t dom (t.coresOf dom) (s.ctxs.map Prod.fst) = (z, true)) (loads : z.loadTs dom (t.coresOf dom) = (r, true))
    (placed : r.restored dom ck = some u) :
    exec (.contextRestore dom) s = .next (u.modPage dom fun p => { p with tstat := p.tstat &&& ~~~ 1#64 }) := by
  have image : s.imageOk dom = (s, some true) := by
    unfold State.imageOk
    rw [away]
    exact if_neg (by rw [Option.map_some, here]; decide)
  have again : s.comeAgain dom ck = u.modPage dom fun p => { p with tstat := p.tstat &&& ~~~ 1#64 } := by
    unfold State.comeAgain
    simp only [image, fits, banks, loads, placed]
  show execContextRestore dom s = _
  unfold execContextRestore
  simp only [away, Option.bind_some, saved, runs, again]
  rfl

/-- A restore ends the pre-emption and takes a new checkpoint. -/
theorem ctx_restored {s t : State} {dom : Nat} {ck : Ckpt} (fits : s.restored dom ck = some t) :
    (t.ctx dom).pre = none ∧ (t.ctx dom).stopping = false ∧ (t.ctx dom).ckpt.isSome = true ∧ (t.ctx dom).undo = [] := by
  unfold State.restored at fits
  split at fits
  · cases fits
  · split at fits
    · cases fits
    · dsimp only at fits
      split at fits
      · cases fits
      · obtain rfl := Option.some.inj fits
        rw [ctx_modCtx_same]
        exact ⟨rfl, rfl, rfl, rfl⟩

theorem takeTags_blocks {d core : Nat} : ∀ {l : List (Nat × Nat × Tag)} {r r' : Restore},
    r.takeTags d core l = some r' → r'.s.blocks = r.s.blocks
  | [], r, r', h => by
    rw [Restore.takeTags] at h
    rw [Option.some.inj h]
  | (oc, n, t) :: rest, r, r', h => by
    rw [Restore.takeTags] at h
    split at h
    · cases h
    · dsimp only at h
      exact (takeTags_blocks h).trans rfl

/-- A block is resident again on the core chosen for it. -/
theorem block_restored {r r' : Restore} {ck : Ckpt} {dom b : Nat} {B : Block} {p : Nat × Nat} (placed : r.block ck dom b B p = some r') :
    (r'.s.block? b).map (fun x => (x.core, x.launch, x.gang, x.lin)) = some (p.1, B.launch, B.gang, B.lin) := by
  unfold Restore.block at placed
  dsimp only at placed
  show Option.map _ (look r'.s.blocks b) = _
  rw [takeTags_blocks placed, setBlocks_blocks, look_put_same]
  rfl

/-- No path that stands in no trap loses one. -/
theorem arms_untrapped {l : List Path} (calm : ∀ p ∈ l, p.trap = none) :
    (l.map fun p => { p with trap := if p.trap.any fun t => t.cause == 0x0C then none else p.trap }) = l := by
  refine (List.map_congr_left fun p hp => ?_).trans (List.map_id l)
  obtain ⟨⟩ := p
  obtain rfl := calm _ hp
  rfl

/-- A group that was not saved in its handler goes on where it stood. -/
theorem again_of_running {G : Group} (runs : G.preempt = none) (calm : ∀ p ∈ G.arms, p.trap = none) :
    G.again = { G with accs := G.accs.filter fun a => a.kind != .store && a.kind != .red } := by
  unfold Group.again
  rw [runs]
  dsimp only
  rw [arms_untrapped calm, ← runs]

theorem again_of_saved {G : Group} {i : InTrap} (saved : G.preempt.isSome = true) (inside : G.inTrap = some i) : G.again = G.restart i := by
  obtain ⟨n, hn⟩ := Option.isSome_iff_exists.mp saved
  unfold Group.again
  rw [hn, inside]

/-- A group saved in its handler starts at its trap vector with `DETAIL` 1. -/
theorem restart_stands {G : Group} {i : InTrap} (arm : i.arm < G.arms.length) :
    ((G.restart i).armOf i.arm).pc = G.tvec ∧ (G.restart i).tcause = 0x010C ∧ (G.restart i).tpc = G.tpc ∧ (G.restart i).preempt = none
      ∧ get 0 (G.restart i).k 31 = w64 i.frame ∧ ((G.restart i).inTrap.map InTrap.frame) = some i.frame := by
  refine ⟨?_, rfl, rfl, rfl, get_set_same _ _ _ _, rfl⟩
  unfold Group.restart
  dsimp only
  rw [armOf_modArm]
  show (G.arms.map _)[i.arm]?.isSome = true
  simp [arm]

/-- Settles O57, by the rules above for each part of the safety net. -/
theorem safetyNet : Obligations.SafetyNet := by
  refine ⟨fun s dom g n h pre => ?_, fun s dom why a la l k h x ck stands => ?_,
    fun s t z r u dom pre ck away saved here runs fits banks loads placed =>
      contextRestore_places away saved here runs fits banks loads placed,
    fun s t dom b ck r r' B p G i => ?_⟩
  · obtain ⟨taken, undo, logPos, exposed⟩ := ctx_checkpointNow s dom
    exact ⟨budgetTick_same, budgetTick_charges, rfl, fun b B found => ⟨dues_of_block found, block_markPaid found⟩, charge_suspends,
      budgetResume_goes, checkpoint_taken, ⟨taken, undo, logPos, exposed, fun empty => checkpointNow_empty empty dom⟩,
      preemption_begins, fun asked unsaved inside free late => handlerTimeout_halts asked unsaved inside free late⟩
  · obtain ⟨away, undo, logPos, exposed⟩ := ctx_rollback stands why
    obtain ⟨mem, -⟩ := rollback_undone stands why
    exact ⟨away, undo, logPos, exposed, fun g own => (group?_rollback stands why g).trans (group?_offload own),
      fun b own => (block?_rollback stands why b).trans (block?_offload own),
      fun i c found => cmd?_offload ((cmd?_rollback stands why i).symm.trans found), mem, restoreByte_phys x⟩
  · refine ⟨ctx_restored, block_restored, again_of_running, fun saved inside arm => ?_⟩
    rw [again_of_saved saved inside]
    exact restart_stands arm

end Sys2Proof.Machine
